-- ==== Sys2Proof/Word.lean ====
section
/-! DEFINITION. Word: the bit-vector types of the Veryn Q64 and their plainest arithmetic (R5). -/

namespace Sys2Proof

/-- One byte of memory. -/
abbrev Byte := BitVec 8
/-- A 32-bit register, operand or coherence word (R182, R254). -/
abbrev Word := BitVec 32
/-- A 64-bit register of the module block, address pair or doubleword. -/
abbrev DWord := BitVec 64
/-- The 32 mask words of a team: bit `l` governs lane `l` (R152). -/
abbrev Mask := BitVec 1024
/-- A Brim signature or slot (R191, R192). -/
abbrev Sig := BitVec 512
/-- The values of one register in lanes 0, 1, …, TL − 1. -/
abbrev Lanes := List Word

/-- Little-endian value of a list of bytes, lowest address first (R5). -/
def leNat : List Byte → Nat
  | [] => 0
  | b :: bs => b.toNat + 256 * leNat bs

/-- The `n` little-endian bytes of a value (R5). -/
def leBytes : Nat → Nat → List Byte
  | 0, _ => []
  | n + 1, v => BitVec.ofNat 8 v :: leBytes n (v / 256)

/-- Round up to a multiple of `m`. -/
def roundUp (x m : Nat) : Nat := (x + m - 1) / m * m

/-- `⌈x / y⌉`. -/
def ceilDiv (x y : Nat) : Nat := (x + y - 1) / y

end Sys2Proof
end

