-- ==== Sys2Proof/Syntax.lean ====
section
/-! DEFINITION. Syntax: the instructions of Silhus and the event steps of the device, one constructor of `Instr`
for each row of spec/opcode_table.json. Operand fields stay the 8-bit operand codes of R254; prefixes are fields of
the instruction they precede (R249). An event row carries what its agent supplies (log entry 2). -/

namespace Sys2Proof

/-- One 32-bit instruction word as its four bytes, most significant first: set bit and OP, D, A, B (R252). -/
structure IWord where
  (op d a b : Byte)
deriving DecidableEq, Repr

/-- The word's 32 bits. -/
def IWord.bits (w : IWord) : Word := w.op ++ w.d ++ w.a ++ w.b

/-- The instruction word with the given bits. -/
def IWord.ofBits (x : Word) : IWord :=
  ⟨x.extractLsb' 24 8, x.extractLsb' 16 8, x.extractLsb' 8 8, x.extractLsb' 0 8⟩

/-- The fields of a REP word (R261); its SET bit is that of the instruction that holds it. -/
structure Rep where
  cnt : BitVec 6
  (dd da db dc : BitVec 3)
deriving DecidableEq, Repr

/-- The fields of a PFX word (R259). -/
structure Pfx where
  (c m : Byte)
  zm : Bool
  rm : BitVec 3
  (ka kb kc sat : Bool)
deriving DecidableEq, Repr

/-- The prefixes of a lane instruction of one word (R249, R263). -/
structure LPre where
  rep : Option Rep
  pfx : Option Pfx
deriving DecidableEq, Repr

/-- Memory orders of the ordering extension (R268). -/
inductive Order where
  | rlx | acq | rel | ar | sc
deriving DecidableEq, Repr

/-- Scopes, codes 0 to 5 (R2). -/
inductive Scope where
  | team | core | quad | die | pkg | pod
deriving DecidableEq, Repr

/-- Atomic operations, AOP codes 0 to 14 (R268, R330). -/
inductive AOp where
  | add | sub | min | max | umin | umax | and | or | xor | xchg | cas | fadd | fmin | fmax | inc
deriving DecidableEq, Repr

/-- The ordering extension of ATOM, ATOMT and UATOM (R268). -/
structure AtomExt where
  c : Byte
  ret : Bool
  aop : AOp
  b64 : Bool
  ord : Order
  sc : Scope
deriving DecidableEq, Repr

/-- The extension words of CPY and CPYS (R343). -/
structure CopyExt where
  eop : BitVec 2
  mode : BitVec 4
  dir : BitVec 2
  (dc ben : Bool)
  bar : BitVec 4
  bytes : BitVec 12
  (spitch dpitch : BitVec 16)
deriving DecidableEq, Repr

/-- The extension words of CPYG (R347). -/
structure GatherExt where
  (ts scat gchk ben : Bool)
  bar : BitVec 4
  (n rowb : BitVec 12)
  mode : BitVec 4
  trows : BitVec 28
deriving DecidableEq, Repr

/-- The first two extension words of MMA and MMAL (R366). -/
structure MmaExt where
  (fa fb : BitVec 4)
  (m n : BitVec 3)
  k : BitVec 7
  (ha hb zero : Bool)
  (df pln : BitVec 2)
  prec : BitVec 4
  cb : Byte
  cbf : Bool
  (blka blkb : BitVec 3)
  rsum : Bool
  rs : Byte
deriving DecidableEq, Repr

/-- The fields of MBIN's extension words that are not fixed (R372). -/
structure MbinExt where
  (m n : BitVec 3)
  k : BitVec 7
  (ha hb zero : Bool)
  (df bop : BitVec 2)
deriving DecidableEq, Repr

/-- The extension words of MSPR (R373). -/
structure MsprExt where
  fb : BitVec 4
  (nf n : BitVec 3)
  k : BitVec 7
  (hb zero : Bool)
  cb : Byte
  cbf : Bool
deriving DecidableEq, Repr

/-- MSCA's extension word (R375). -/
structure MscaExt where
  m : BitVec 7
  n : BitVec 3
  (sfa sfb : BitVec 2)
  zero : Bool
deriving DecidableEq, Repr

/-- MSZP's extension word (R375). -/
structure MszpExt where
  m : BitVec 7
  n : BitVec 3
  (sf zf : BitVec 2)
  zero : Bool
  rs : Byte
deriving DecidableEq, Repr

/-- What a configuration request of the host reads or sets: one of the BAR registers, which it reads, a BAR's address, the MSI-X enable
and function-mask bits, and whether CXL.cache is enabled (R102, R104, R213). -/
inductive ConfigAccess where
  | readBar (r : BitVec 3) | bar (n : BitVec 2) (addr : DWord) | msix (enable mask : Bool) | cxlCache (on : Bool)
deriving DecidableEq, Repr

/-- An agent that carries an incarnation (R29 to R32): a core (16 × die + logical core), a die, or a device. -/
inductive Agent where
  | core (c : BitVec 6) | die (d : BitVec 2) | device (n : BitVec 10)
deriving DecidableEq, Repr

/-- A re-admission of an agent, with the physical core that a run-time repair of its die disables, where one is needed (R13, R30). -/
structure Readmission where
  agent : Agent
  repair : Option (BitVec 5)
deriving DecidableEq, Repr

/-- Where a host access goes: a device-local address, through BAR2 or the HDM range, or an offset in BAR4, the Lantern area (R102,
R103). -/
inductive HostPlace where
  | device (a : BitVec 39) | lantern (off : BitVec 30)
deriving DecidableEq, Repr

/-- What the host reads: how many bytes, and whether it then holds the lines over CXL.mem (R22, R103). -/
structure HostRead where
  bytes : BitVec 12
  cxl : Bool
deriving DecidableEq, Repr

/-- The rest of a bulk request: the bytes that it writes, and the descriptor that another device's request carries (R84, R97). -/
structure BulkBody where
  data : Option (List Byte)
  carried : Option (BitVec 512)
deriving DecidableEq, Repr

/-- A queue's turn to complete a launch, and whether the host link fails its completion write (R122, R124). -/
structure CompletionTurn where
  queue : BitVec 6
  linkError : Bool
deriving DecidableEq, Repr

/-- The end of a queue's abort, and which of its error completions, in order, the host link fails (R124, R125). -/
structure AbortTurn where
  queue : BitVec 6
  failed : List Bool
deriving DecidableEq, Repr

/-- What a layer's temperature sensor reads, in the bands of R57. -/
inductive LayerTemp where
  | below85 | below95 | hot
deriving DecidableEq, Repr

/-- A view cache of R71: the load/store unit's of a core, or that of view engine `e` of die `d`. -/
inductive ViewCacheId where
  | lsu (c : BitVec 6) | engine (d e : BitVec 2)
deriving DecidableEq, Repr

/-- The instructions in the table's order, then the event steps in the table's order. -/
inductive Instr where
  -- Lane instructions: integer, logic and compare (R281 to R286).
  | nop (p : LPre)
  | mov (p : LPre) (d a : Byte)
  | movi (p : LPre) (d : Byte) (i : BitVec 16)
  | movhi (p : LPre) (d : Byte) (i : BitVec 16)
  | iadd (p : LPre) (d a b : Byte)
  | isub (p : LPre) (d a b : Byte)
  | iaddi (p : LPre) (d : Byte) (i : BitVec 16)
  | imul (p : LPre) (d a b : Byte)
  | imulhi (p : LPre) (d a b : Byte)
  | umulhi (p : LPre) (d a b : Byte)
  | imad (p : LPre) (d a b : Byte)
  | iadd64 (p : LPre) (d a b : Byte)
  | imin (p : LPre) (d a b : Byte)
  | imax (p : LPre) (d a b : Byte)
  | umin (p : LPre) (d a b : Byte)
  | umax (p : LPre) (d a b : Byte)
  | and (p : LPre) (d a b : Byte)
  | or (p : LPre) (d a b : Byte)
  | xor (p : LPre) (d a b : Byte)
  | andn (p : LPre) (d a b : Byte)
  | shl (p : LPre) (d a b : Byte)
  | shr (p : LPre) (d a b : Byte)
  | sar (p : LPre) (d a b : Byte)
  | rotl (p : LPre) (d a b : Byte)
  | bfx (p : LPre) (d a b : Byte)
  | bfxs (p : LPre) (d a b : Byte)
  | bfi (p : LPre) (d a b : Byte)
  | sel (p : LPre) (d a b : Byte)
  | popc (p : LPre) (d a : Byte)
  | clz (p : LPre) (d a : Byte)
  | brev (p : LPre) (d a : Byte)
  | prmt (p : LPre) (d a b : Byte)
  | iseteq (p : LPre) (d a b : Byte)
  | isetne (p : LPre) (d a b : Byte)
  | isetlt (p : LPre) (d a b : Byte)
  | isetle (p : LPre) (d a b : Byte)
  | usetlt (p : LPre) (d a b : Byte)
  | usetle (p : LPre) (d a b : Byte)
  | fseteq (p : LPre) (d a b : Byte)
  | fsetne (p : LPre) (d a b : Byte)
  | fsetlt (p : LPre) (d a b : Byte)
  | fsetle (p : LPre) (d a b : Byte)
  | fsetun (p : LPre) (d a b : Byte)
  -- Lane instructions: floating point, conversions, special functions (R242, R243, R287 to R293).
  | fadd (p : LPre) (d a b : Byte)
  | fsub (p : LPre) (d a b : Byte)
  | fmul (p : LPre) (d a b : Byte)
  | ffma (p : LPre) (d a b : Byte)
  | fmin (p : LPre) (d a b : Byte)
  | fmax (p : LPre) (d a b : Byte)
  | fabs (p : LPre) (d a : Byte)
  | fneg (p : LPre) (d a : Byte)
  | hadd2 (p : LPre) (d a b : Byte)
  | hmul2 (p : LPre) (d a b : Byte)
  | hfma2 (p : LPre) (d a b : Byte)
  | bfma2 (p : LPre) (d a b : Byte)
  | fdot2 (p : LPre) (d a b : Byte)
  | fscale (p : LPre) (d a b : Byte)
  | fclass (p : LPre) (d a : Byte)
  | cvt (p : LPre) (d a s : Byte)
  | sfu (p : LPre) (d a f : Byte)
  | dadd (p : LPre) (d a b : Byte)
  | dmul (p : LPre) (d a b : Byte)
  | dfma (p : LPre) (d a b : Byte)
  | dmin (p : LPre) (d a b : Byte)
  | dmax (p : LPre) (d a b : Byte)
  | dsetlt (p : LPre) (d a b : Byte)
  | dseteq (p : LPre) (d a b : Byte)
  | rng (p : LPre) (d : Byte)
  | actv (p : LPre) (d a b : Byte)
  -- Lane instructions: cross-lane (R294 to R298).
  | shfl (p : LPre) (d a b : Byte)
  | shflx (p : LPre) (d a b : Byte)
  | shflu (p : LPre) (d a b : Byte)
  | shfld (p : LPre) (d a b : Byte)
  | ballot (p : LPre) (d a : Byte)
  | redadd (p : LPre) (d a : Byte)
  | redfadd (p : LPre) (d a : Byte)
  | redmax (p : LPre) (d a : Byte)
  | redmin (p : LPre) (d a : Byte)
  | scanadd (p : LPre) (d a : Byte)
  | bxch (p : LPre) (d a b : Byte)
  -- Lane instructions: fibres, memory and tile store (R318 to R330, R353).
  | frdc (p : LPre) (d : Byte) (n : BitVec 3)
  | frdv (p : LPre) (d : Byte) (n : BitVec 3)
  | ldb (p : LPre) (d a o : Byte)
  | ldbs (p : LPre) (d a o : Byte)
  | ldh (p : LPre) (d a o : Byte)
  | ldhs (p : LPre) (d a o : Byte)
  | ldw (p : LPre) (d a o : Byte)
  | ldd (p : LPre) (d a o : Byte)
  | ldq (p : LPre) (d a o : Byte)
  | stb (p : LPre) (d a o : Byte)
  | sth (p : LPre) (d a o : Byte)
  | stw (p : LPre) (d a o : Byte)
  | std (p : LPre) (d a o : Byte)
  | stq (p : LPre) (d a o : Byte)
  | stbm (p : LPre) (d a o : Byte)
  | ldt (p : LPre) (d a : Byte) (m : BitVec 4) (o : BitVec 4)
  | stt (p : LPre) (d a : Byte) (m : BitVec 4) (o : BitVec 4)
  | ldtq (p : LPre) (d a : Byte) (m : BitVec 4) (o : BitVec 4)
  | sttq (p : LPre) (d a : Byte) (m : BitVec 4) (o : BitVec 4)
  | ldx (p : Option Pfx) (d a o : Byte) (b64 : Bool) (ord : Order) (sc : Scope)
  | stx (p : Option Pfx) (d a o : Byte) (b64 : Bool) (ord : Order) (sc : Scope)
  | atom (p : Option Pfx) (d a b : Byte) (x : AtomExt)
  | atomt (p : Option Pfx) (d a b : Byte) (x : AtomExt)
  -- Uniform instructions: arithmetic (R299).
  | unop (r : Option Rep)
  | umov (r : Option Rep) (d a : Byte)
  | umovi (r : Option Rep) (d : Byte) (i : BitVec 16)
  | umovhi (r : Option Rep) (d : Byte) (i : BitVec 16)
  | uiadd (r : Option Rep) (d a b : Byte)
  | uisub (r : Option Rep) (d a b : Byte)
  | uiaddi (r : Option Rep) (d : Byte) (i : BitVec 16)
  | uimul (r : Option Rep) (d a b : Byte)
  | uimad (r : Option Rep) (d a b : Byte)
  | uiadd64 (r : Option Rep) (d a b : Byte)
  | uminUni (r : Option Rep) (d a b : Byte)
  | umaxUni (r : Option Rep) (d a b : Byte)
  | uand (r : Option Rep) (d a b : Byte)
  | uor (r : Option Rep) (d a b : Byte)
  | uxor (r : Option Rep) (d a b : Byte)
  | ushl (r : Option Rep) (d a b : Byte)
  | ushr (r : Option Rep) (d a b : Byte)
  | usar (r : Option Rep) (d a b : Byte)
  | ubfx (r : Option Rep) (d a b : Byte)
  | ubfi (r : Option Rep) (d a b : Byte)
  | upopc (r : Option Rep) (d a : Byte)
  | uclz (r : Option Rep) (d a : Byte)
  | usel (r : Option Rep) (d a b : Byte)
  | uiseteq (r : Option Rep) (d a b : Byte)
  | uisetne (r : Option Rep) (d a b : Byte)
  | uisetlt (r : Option Rep) (d a b : Byte)
  | uisetle (r : Option Rep) (d a b : Byte)
  | uusetlt (r : Option Rep) (d a b : Byte)
  | uusetle (r : Option Rep) (d a b : Byte)
  -- Uniform instructions: control (R300 to R316).
  | jmp (o : BitVec 24)
  | call (o : BitVec 24)
  | ret
  | jmpr (a : Byte)
  | ubrz (r : Byte) (o : BitVec 16)
  | ubrnz (r : Byte) (o : BitVec 16)
  | ifI (r : Byte) (o : BitVec 16)
  | elseI (o : BitVec 24)
  | endif
  | loop (o : BitVec 24)
  | brk (r : Byte)
  | cont (r : Byte)
  | endloop (o : BitVec 24)
  | uany (d a : Byte)
  | exit
  | trap (n : Byte)
  | bkpt (n : Byte)
  | yield
  | region (live : BitVec 160)
  | ocld (ws : List Word)
  | ocdrop (a b : Byte)
  | ocdropAll
  | alloc (d : Byte) (res : Bool) (acc : BitVec 12) (tile : BitVec 10) (regs : BitVec 5)
  | free
  | srd (d s : Byte)
  | swr (s : Byte) (e : BitVec 16)
  | swrSigclr (s : Byte)
  | rtt
  | rttHead
  -- Uniform instructions: memory, synchronisation and asynchronous operations (R331 to R354).
  | uld (d a o : Byte)
  | uldd (d a o : Byte)
  | ust (d a o : Byte)
  | ustd (d a o : Byte)
  | fence (ord : Order) (sc : Scope)
  | barSync (n : BitVec 4)
  | barArv (n : BitVec 4)
  | barInit (n : BitVec 4) (a : Byte)
  | barx (a b : Byte) (sc : Scope)
  | promote (d a : Byte) (b64 : Bool) (sc : Scope)
  | uatom (d a b : Byte) (x : AtomExt)
  | seal (d a b : Byte)
  | reopen (d a b : Byte)
  | vinv (a : Byte)
  | vinvAll
  | actld (a : Byte) (t : BitVec 2)
  | cpy (d a b : Byte) (x : CopyExt)
  | cpyg (d a b : Byte) (x : GatherExt)
  | cpys (d a b : Byte) (x : CopyExt)
  | aseal (d : Byte)
  | await (a : Byte)
  | atest (d a : Byte)
  | tsgive (a b : Byte)
  | tstake (d a : Byte)
  | fopen (n : BitVec 3) (a b cnt : Byte) (elem : BitVec 6)
  | fadv (n : BitVec 3)
  | fend (d : Byte) (n : BitVec 3)
  | fclose (n : BitVec 3)
  -- Uniform instructions: the matrix unit (R366 to R378).
  | mma (d a b : Byte) (x : MmaExt)
  | mmal (d a b : Byte) (x : MmaExt) (ainc binc cinc steps : Byte)
  | mbin (d a b : Byte) (x : MbinExt)
  | mspr (d b : Byte) (fib : BitVec 3) (x : MsprExt)
  | msca (d a b : Byte) (x : MscaExt)
  | mszp (d a b : Byte) (x : MszpExt)
  | mzero (a b : Byte)
  | mrd (d a : Byte) (wc : BitVec 2) (col : BitVec 7)
  | mwr (d a : Byte) (wc : BitVec 2) (col : BitVec 7)
  -- A reserved opcode, with any prefix words before it (R267).
  | reservedCodeIssue (rep pfx : Option IWord) (w : IWord)
  -- Event rows: power, bring-up, resets and fatal state (R14 to R42).
  | coldPowerOn
  | powerRemoved
  | stackTrained (n : BitVec 3) (calibrated : Bool)
  | dieUp (d : BitVec 2)
  | fullServiceMove
  | warmReset
  | hostLinkHotReset
  | thermalGate (d : BitVec 2) (cycles : BitVec 7)
  | thermalTrip
  | fatalError (code : BitVec 8)
  | hostDump
  | lanternDump
  | lanternAck
  | lanternOvwrClear
  | elogClear (d : BitVec 2)
  | elogEntryRead (d k : BitVec 2)
  -- Event rows: Lemwyn Link, incarnations and agents (R23 to R32, R231).
  | incarnWrite (v : BitVec 16)
  | devnumWrite (v : BitVec 10)
  | llPortEnable (p : BitVec 5)
  | llPortDisable (p : BitVec 5)
  | llStateRetrain (p : BitVec 5)
  | llTrained (p : BitVec 5)
  | flitSend (p : BitVec 5) (ty : BitVec 4) (dst : BitVec 10) (payload : List Byte)
  | flitReceive (p : BitVec 5) (flit : List Byte)
  | llReplayTimeout (p : BitVec 5)
  | heartbeatSend (a : Agent)
  | agentDead (a : Agent)
  | agentReadmit (a : Readmission)
  | ideKeyProgram
  | cxlCacheSnoop (line : BitVec 51)
  -- Event rows: the stack controllers (R50 to R64).
  | memRead (sector : BitVec 34) (errs : BitVec 2)
  | memWrite (sector : BitVec 34)
  | refreshTick (n : BitVec 3) (ch : BitVec 5) (temp : LayerTemp)
  | refreshIssue (n : BitVec 3) (ch : BitVec 5)
  | refreshPullIn (n : BitVec 3) (ch : BitVec 5)
  | bistStart (n : BitVec 3) (v : DWord)
  | bistRowCopy (n : BitVec 3)
  | bistPatternDone (n : BitVec 3) (failing repaired : BitVec 16)
  | scrubRead (n : BitVec 3) (errs : BitVec 2)
  | scrubWriteback (n : BitVec 3)
  -- Event rows: layout views (R71 to R99).
  | viewCacheFill (c : ViewCacheId) (view : BitVec 11)
  | bulkRequest (d : BitVec 2) (view : BitVec 11) (first : BitVec 31) (count : BitVec 7) (body : BulkBody)
  | viewSectorCompose (d e : BitVec 2)
  | composedWrite (d e : BitVec 2)
  | vtinvView (view : BitVec 11)
  | vtinvAll
  | tfclrFrame (frame : BitVec 23)
  | tfclrAll
  -- Event rows: the host, the dispatcher and the distributor (R103 to R149).
  | hostMemWrite (a : HostPlace) (bytes : List Byte)
  | hostMemRead (a : HostPlace) (n : HostRead)
  | queueEnable (q : BitVec 6)
  | queueDisable (q : BitVec 6)
  | queueAbort (q : BitVec 6)
  | abortFinish (q : AbortTurn)
  | recordParse (q : BitVec 6)
  | blockPlace
  | blockComplete (q : BitVec 6) (seq : Word) (blk : BitVec 20)
  | launchComplete (q : CompletionTurn)
  | allocAdmit (c : BitVec 6)
  | allocEvict (c : BitVec 6)
  | blockPreempt (q : BitVec 6) (seq : Word) (blk : BitVec 20)
  | blockRestore (q : BitVec 6) (seq : Word)
  | cswSuspend (q : BitVec 6)
  | cswResume (q : BitVec 6)
  | teamEnterActive (k : Nat)
  | rotation (c : BitVec 6) (part : BitVec 3)
  -- Event rows: loads, translation, traps and demand paging (R211 to R229, R324).
  | loadDataArrive (k j : Nat)
  | walkComplete (k : Nat) (va : DWord)
  | tlbinvAll
  | tlbinvAsid (asid : BitVec 12)
  | tlbinvPage (asid : BitVec 12) (page : BitVec 39)
  | trapEntry (k : Nat)
  | deferredCauseReport (k : Nat) (isSealed : Bool) (addr : DWord)
  | pfRecordWrite (k : Nat)
  | pfrespRetry (idx : BitVec 10)
  | pfrespDeliver (idx : BitVec 10)
  | pfDisable
  -- Event rows: coherence and epochs (R183 to R206).
  | registration (c : BitVec 6) (word : BitVec 56)
  | revocation (c : BitVec 6) (word : BitVec 56)
  | homeRead (c : BitVec 6) (line : BitVec 51) (start count : BitVec 5)
  | forwardedRead (c r : BitVec 6) (word : BitVec 56)
  | l1Eviction (c : BitVec 6) (word : BitVec 56)
  | versionQuery (d : BitVec 2) (dev : BitVec 10) (granule : BitVec 23)
  | brimEpochBoundary
  | brimSweep (d : BitVec 2)
  -- Event rows: asynchronous work (R176, R178, R203, R341, R358) and register writes (R6).
  | copyUnitComplete (op unit : Nat)
  | asyncOpComplete (op : Nat)
  | matrixExecute (c : BitVec 6)
  | mrdWriteback (c : BitVec 6)
  | actldFlip (op : Nat)
  | tsOfferEffect (k : Nat)
  | registerWrite (off : BitVec 20) (v : DWord)
  -- Event rows: configuration requests, the end of gating, MSI-X unmasking (R14, R15, R104).
  | configurationRequest (w : Option ConfigAccess)
  | thermalGateEnd (d : BitVec 2)
  | msixVectorUnmask (e : BitVec 7)
deriving DecidableEq, Repr

end Sys2Proof
end

