-- ==== Sys2Proof/WellFormed.lean ====
section
/-! DEFINITION. WellFormed: which instructions have words that R253, R260, R263 and the instructions' own rules do not
reject with ILLINS from the words alone (R264, first step), and which event terms name a part that exists. -/

namespace Sys2Proof

/-! ## Legal fields -/

/-- LDX takes RLX, ACQ and SC (R327). -/
def Order.loadOk : Order → Bool
  | .rlx | .acq | .sc => true
  | .rel | .ar => false

/-- STX takes RLX, REL and SC (R327). -/
def Order.storeOk : Order → Bool
  | .rlx | .rel | .sc => true
  | .acq | .ar => false

/-- PROMOTE takes DIE, PKG and POD (R334). -/
def Scope.isDieOrWider : Scope → Bool
  | .team | .core | .quad => false
  | .die | .pkg | .pod => true

/-- CAS and INC use C (R328). -/
def AOp.usesC : AOp → Bool
  | .cas | .inc => true
  | _ => false

/-- D is 0 without RET, and C is 0 for an operation that does not use it (R328). -/
def AtomExt.atomOk (x : AtomExt) (d : Byte) : Bool := (x.ret || d == 0#8) && (x.aop.usesC || x.c == 0#8)

/-- ATOMT fixes SIZE, ORD and SCOPE at 0 (R329). -/
def AtomExt.atomtOk (x : AtomExt) (d : Byte) : Bool := x.atomOk d && !x.b64 && x.ord == .rlx && x.sc == .team

/-- The step of C is 0 in the uniform set (R261). -/
def uniRepOk : Option Rep → Bool
  | none => true
  | some r => r.dc == 0#3

/-- Entry `k` of an OCLD list (R309). -/
def ocldEntries (ws : List Word) : List Byte :=
  ws.flatMap fun w => [w.extractLsb' 0 8, w.extractLsb' 8 8, w.extractLsb' 16 8, w.extractLsb' 24 8]

/-- One to four words, whose first entry names a register and no register follows an empty entry (R309). -/
def ocldOk (ws : List Word) : Bool :=
  let es := ocldEntries ws
  decide (1 ≤ ws.length ∧ ws.length ≤ 4) && es.head? != some 0xFF#8
    && (es.dropWhile (· != 0xFF#8)).all (160#8 ≤ ·)

/-- ALLOC's ranges, and D is 0 without RES (R311). -/
def allocOk (d : Byte) (res : Bool) (acc : BitVec 12) (tile : BitVec 10) : Bool :=
  (res || d == 0#8) && decide (acc.toNat ≤ 2048) && decide (tile.toNat ≤ 512)

/-- Combinations that CPY and CPYS share (R343). -/
def CopyExt.ok (x : CopyExt) : Bool :=
  (x.ben || x.bar == 0#4) && (x.dir != 0#2 || x.mode == 0#4) && !(x.dc && decide (2 ≤ x.dir.toNat))

def CopyExt.cpyOk (x : CopyExt) : Bool := x.ok && x.eop == 0#2

/-- CPYS writes memory and does not decompress (R343); its BYTES is a multiple of 4 in every encoding. -/
def CopyExt.cpysOk (x : CopyExt) : Bool := x.ok && !x.dc && (x.dir == 0#2 || x.dir == 2#2)

def GatherExt.ok (x : GatherExt) : Bool :=
  (x.ben || x.bar == 0#4) && (x.ts || x.mode == 0#4) && x.trows != 0#28

/-- Width in bits of an element code; none for the illegal codes (R77). -/
def elemWidth (e : Nat) : Option Nat :=
  match e with
  | 0 | 1 | 7 | 8 | 20 => some 8
  | 2 | 3 => some 6
  | 4 | 9 | 10 | 13 => some 4
  | 5 | 6 | 17 => some 16
  | 11 => some 2
  | 12 => some 1
  | 14 | 18 => some 32
  | 16 | 19 => some 64
  | _ => none

/-- A fibre's ELEM has width 8, 16 or 32 (R352). -/
def fibreElemOk (e : BitVec 6) : Bool :=
  match elemWidth e.toNat with
  | some 8 | some 16 | some 32 => true
  | _ => false

/-- A codebook is named only for a LUT4 operand (R364). -/
def codebookOk (isLut : Bool) (cb : Byte) (cbf : Bool) : Bool := isLut || (cb == 0#8 && !cbf)

/-- A block-scaling field: 0, or the block size it names (R366). -/
def blockSize (c : BitVec 3) : Nat :=
  match c.toNat with
  | 0 => 0
  | n => 2 ^ (n + 3)

/-- The partial block Q of R368: the smaller non-zero block size, or 0. -/
def partialBlock (a b : BitVec 3) : Nat :=
  match blockSize a, blockSize b with
  | 0, y => y
  | x, 0 => x
  | x, y => min x y

/-- The plane operand's format and the declared precision (R363). -/
def planeOk (fa fb : BitVec 4) (pln : BitVec 2) (prec : BitVec 4) : Bool :=
  match pln.toNat with
  | 0 => prec == 0#4
  | 3 => false
  | n =>
    let f := if n = 1 then fa.toNat else fb.toNat
    (f == 9 || f == 10 || f == 11 || f == 12 || f == 13)
      && decide (prec.toNat + 1 ≤ (elemWidth f).getD 0) && (f != 13 || prec == 3#4)

/-- MMA's word-level conditions (R360, R363, R364, R366, R369). -/
def MmaExt.ok (x : MmaExt) : Bool :=
  decide (x.fa.toNat ≤ 13) && decide (x.fb.toNat ≤ 13) && !(x.fa == 13#4 && x.fb == 13#4)
    && decide (x.df.toNat ≤ 1) && planeOk x.fa x.fb x.pln x.prec
    && codebookOk (x.fa == 13#4 || x.fb == 13#4) x.cb x.cbf
    && decide (x.blka.toNat ≤ 4) && decide (x.blkb.toNat ≤ 4)
    && ((x.blka == 0#3 && x.blkb == 0#3)
      || (x.zero && (32 * (x.k.toNat + 1)) % partialBlock x.blka x.blkb == 0))
    && (x.rsum || x.rs == 0#8)

def MbinExt.ok (x : MbinExt) : Bool := decide (x.df.toNat ≤ 1) && x.bop != 3#2

/-- MSPR's word-level conditions (R373). -/
def MsprExt.ok (x : MsprExt) (fib : BitVec 3) : Bool :=
  decide (fib.toNat + x.nf.toNat ≤ 7) && decide (x.fb.toNat ≤ 13) && x.fb != 12#4
    && codebookOk (x.fb == 13#4) x.cb x.cbf

/-- Without scales B is 0 (R375). -/
def MscaExt.ok (x : MscaExt) (b : Byte) : Bool := x.sfa != 0#2 || x.sfb != 0#2 || b == 0#8

def MszpExt.ok (x : MszpExt) : Bool := x.zf != 0#2 || x.rs == 0#8

/-- The window of MRD and MWR ends within a row (R378). -/
def windowOk (wc : BitVec 2) (col : BitVec 7) : Bool := decide (col.toNat + 16 * 2 ^ wc.toNat ≤ 128)

/-- A reserved code of the opcode maps (R265, R266); the prefix codes are none. -/
def reservedOp (op : Byte) : Bool :=
  let n := op.toNat
  decide (0x2B ≤ n ∧ n ≤ 0x2F) || n == 0x3F || decide (0x41 ≤ n ∧ n ≤ 0x47) || decide (0x52 ≤ n ∧ n ≤ 0x57)
    || decide (0x65 ≤ n ∧ n ≤ 0x67) || n == 0x7D
    || decide (0x9D ≤ n ∧ n ≤ 0x9F) || n == 0xA6 || n == 0xA7 || n == 0xB7 || decide (0xBD ≤ n ∧ n ≤ 0xBF)
    || decide (0xCD ≤ n ∧ n ≤ 0xCF) || decide (0xDC ≤ n ∧ n ≤ 0xDF) || decide (0xE9 ≤ n ∧ n ≤ 0xFD) || n == 0xFF

/-- A REP word of either set (R251). -/
def isRep (w : IWord) : Bool := w.op == 0x7E#8 || w.op == 0xFE#8

/-- A PFX word (R251). -/
def isPfx (w : IWord) : Bool := w.op == 0x7F#8

def reservedOk (rep pfx : Option IWord) (w : IWord) : Bool :=
  rep.all isRep && pfx.all isPfx && reservedOp w.op

/-- A bulk request covers 1 to 128 sectors, and one that writes carries their bytes (R84). -/
def bulkOk (count : Nat) (data : Option (List Byte)) : Bool :=
  decide (1 ≤ count ∧ count ≤ 128) && data.all fun b => b.length == 32 * count

/-! ## Well-formed terms -/

/-- The term is one that words encode, or an event step that names existing parts. -/
def Instr.wf : Instr → Bool
  | .coldPowerOn => true
  | .powerRemoved => true
  | .stackTrained _ _ => true
  | .dieUp _ => true
  | .fullServiceMove => true
  | .warmReset => true
  | .hostLinkHotReset => true
  | .thermalGate _ _ => true
  | .thermalTrip => true
  | .fatalError _ => true
  | .hostDump => true
  | .lanternDump => true
  | .lanternAck => true
  | .lanternOvwrClear => true
  | .elogClear _ => true
  | .elogEntryRead _ _ => true
  | .incarnWrite _ => true
  | .devnumWrite _ => true
  | .llPortEnable p => p.toNat < 24
  | .llPortDisable p => p.toNat < 24
  | .llStateRetrain p => p.toNat < 24
  | .llTrained p => p.toNat < 24
  | .flitSend p ty _ payload => p.toNat < 24 && ty.toNat < 4 && payload.length == 236
  | .flitReceive p flit => p.toNat < 24 && flit.length == 256
  | .llReplayTimeout p => p.toNat < 24
  | .heartbeatSend _ => true
  | .agentDead _ => true
  | .agentReadmit a => a.repair.all fun p => decide (p.toNat < 17)
  | .ideKeyProgram => true
  | .cxlCacheSnoop _ => true
  | .memRead _ _ => true
  | .memWrite _ => true
  | .refreshTick _ _ _ => true
  | .refreshIssue _ _ => true
  | .refreshPullIn _ _ => true
  | .bistStart _ _ => true
  | .bistRowCopy _ => true
  | .bistPatternDone _ _ _ => true
  | .scrubRead _ _ => true
  | .scrubWriteback _ => true
  | .viewCacheFill _ _ => true
  | .bulkRequest _ _ _ count body => bulkOk (count.toNat + 1) body.data
  | .viewSectorCompose _ _ => true
  | .composedWrite _ _ => true
  | .vtinvView _ => true
  | .vtinvAll => true
  | .tfclrFrame _ => true
  | .tfclrAll => true
  | .hostMemWrite _ bytes => bytes.length != 0
  | .hostMemRead _ _ => true
  | .queueEnable _ => true
  | .queueDisable _ => true
  | .queueAbort _ => true
  | .abortFinish _ => true
  | .recordParse _ => true
  | .blockPlace => true
  | .blockComplete _ _ _ => true
  | .launchComplete _ => true
  | .allocAdmit _ => true
  | .allocEvict _ => true
  | .blockPreempt _ _ _ => true
  | .blockRestore _ _ => true
  | .cswSuspend _ => true
  | .cswResume _ => true
  | .teamEnterActive _ => true
  | .rotation _ _ => true
  | .loadDataArrive _ _ => true
  | .walkComplete _ _ => true
  | .tlbinvAll => true
  | .tlbinvAsid _ => true
  | .tlbinvPage _ _ => true
  | .trapEntry _ => true
  | .deferredCauseReport _ _ _ => true
  | .pfRecordWrite _ => true
  | .pfrespRetry _ => true
  | .pfrespDeliver _ => true
  | .pfDisable => true
  | .registration _ _ => true
  | .revocation _ _ => true
  | .homeRead _ _ _ _ => true
  | .forwardedRead _ _ _ => true
  | .l1Eviction _ _ => true
  | .versionQuery _ _ _ => true
  | .brimEpochBoundary => true
  | .brimSweep _ => true
  | .copyUnitComplete _ _ => true
  | .asyncOpComplete _ => true
  | .matrixExecute _ => true
  | .mrdWriteback _ => true
  | .actldFlip _ => true
  | .tsOfferEffect _ => true
  | .registerWrite _ _ => true
  | .nop _ => true
  | .mov _ _ _ => true
  | .movi _ _ _ => true
  | .movhi _ _ _ => true
  | .iadd _ _ _ _ => true
  | .isub _ _ _ _ => true
  | .iaddi _ _ _ => true
  | .imul _ _ _ _ => true
  | .imulhi _ _ _ _ => true
  | .umulhi _ _ _ _ => true
  | .imad _ _ _ _ => true
  | .iadd64 _ _ _ _ => true
  | .imin _ _ _ _ => true
  | .imax _ _ _ _ => true
  | .umin _ _ _ _ => true
  | .umax _ _ _ _ => true
  | .and _ _ _ _ => true
  | .or _ _ _ _ => true
  | .xor _ _ _ _ => true
  | .andn _ _ _ _ => true
  | .shl _ _ _ _ => true
  | .shr _ _ _ _ => true
  | .sar _ _ _ _ => true
  | .rotl _ _ _ _ => true
  | .bfx _ _ _ _ => true
  | .bfxs _ _ _ _ => true
  | .bfi _ _ _ _ => true
  | .sel _ _ _ _ => true
  | .popc _ _ _ => true
  | .clz _ _ _ => true
  | .brev _ _ _ => true
  | .prmt _ _ _ _ => true
  | .iseteq _ _ _ _ => true
  | .isetne _ _ _ _ => true
  | .isetlt _ _ _ _ => true
  | .isetle _ _ _ _ => true
  | .usetlt _ _ _ _ => true
  | .usetle _ _ _ _ => true
  | .fseteq _ _ _ _ => true
  | .fsetne _ _ _ _ => true
  | .fsetlt _ _ _ _ => true
  | .fsetle _ _ _ _ => true
  | .fsetun _ _ _ _ => true
  | .fadd _ _ _ _ => true
  | .fsub _ _ _ _ => true
  | .fmul _ _ _ _ => true
  | .ffma _ _ _ _ => true
  | .fmin _ _ _ _ => true
  | .fmax _ _ _ _ => true
  | .fabs _ _ _ => true
  | .fneg _ _ _ => true
  | .hadd2 _ _ _ _ => true
  | .hmul2 _ _ _ _ => true
  | .hfma2 _ _ _ _ => true
  | .bfma2 _ _ _ _ => true
  | .fdot2 _ _ _ _ => true
  | .fscale _ _ _ _ => true
  | .fclass _ _ _ => true
  | .cvt _ _ _ _ => true
  | .sfu _ _ _ _ => true
  | .dadd _ _ _ _ => true
  | .dmul _ _ _ _ => true
  | .dfma _ _ _ _ => true
  | .dmin _ _ _ _ => true
  | .dmax _ _ _ _ => true
  | .dsetlt _ _ _ _ => true
  | .dseteq _ _ _ _ => true
  | .rng _ _ => true
  | .actv _ _ _ _ => true
  | .shfl _ _ _ _ => true
  | .shflx _ _ _ _ => true
  | .shflu _ _ _ _ => true
  | .shfld _ _ _ _ => true
  | .ballot _ _ _ => true
  | .redadd _ _ _ => true
  | .redfadd _ _ _ => true
  | .redmax _ _ _ => true
  | .redmin _ _ _ => true
  | .scanadd _ _ _ => true
  | .bxch _ _ _ _ => true
  | .frdc _ _ _ => true
  | .frdv _ _ _ => true
  | .ldb _ _ _ _ => true
  | .ldbs _ _ _ _ => true
  | .ldh _ _ _ _ => true
  | .ldhs _ _ _ _ => true
  | .ldw _ _ _ _ => true
  | .ldd _ _ _ _ => true
  | .ldq _ _ _ _ => true
  | .stb _ _ _ _ => true
  | .sth _ _ _ _ => true
  | .stw _ _ _ _ => true
  | .std _ _ _ _ => true
  | .stq _ _ _ _ => true
  | .stbm _ _ _ _ => true
  | .ldt _ _ _ _ _ => true
  | .stt _ _ _ _ _ => true
  | .ldtq _ _ _ _ _ => true
  | .sttq _ _ _ _ _ => true
  | .ldx _ _ _ _ _ ord _ => ord.loadOk
  | .stx _ _ _ _ _ ord _ => ord.storeOk
  | .atom _ d _ _ x => x.atomOk d
  | .atomt _ d _ _ x => x.atomtOk d
  | .unop r => uniRepOk r
  | .umov r _ _ => uniRepOk r
  | .umovi r _ _ => uniRepOk r
  | .umovhi r _ _ => uniRepOk r
  | .uiadd r _ _ _ => uniRepOk r
  | .uisub r _ _ _ => uniRepOk r
  | .uiaddi r _ _ => uniRepOk r
  | .uimul r _ _ _ => uniRepOk r
  | .uimad r _ _ _ => uniRepOk r
  | .uiadd64 r _ _ _ => uniRepOk r
  | .uminUni r _ _ _ => uniRepOk r
  | .umaxUni r _ _ _ => uniRepOk r
  | .uand r _ _ _ => uniRepOk r
  | .uor r _ _ _ => uniRepOk r
  | .uxor r _ _ _ => uniRepOk r
  | .ushl r _ _ _ => uniRepOk r
  | .ushr r _ _ _ => uniRepOk r
  | .usar r _ _ _ => uniRepOk r
  | .ubfx r _ _ _ => uniRepOk r
  | .ubfi r _ _ _ => uniRepOk r
  | .upopc r _ _ => uniRepOk r
  | .uclz r _ _ => uniRepOk r
  | .usel r _ _ _ => uniRepOk r
  | .uiseteq r _ _ _ => uniRepOk r
  | .uisetne r _ _ _ => uniRepOk r
  | .uisetlt r _ _ _ => uniRepOk r
  | .uisetle r _ _ _ => uniRepOk r
  | .uusetlt r _ _ _ => uniRepOk r
  | .uusetle r _ _ _ => uniRepOk r
  | .jmp _ => true
  | .call _ => true
  | .ret => true
  | .jmpr _ => true
  | .ubrz _ _ => true
  | .ubrnz _ _ => true
  | .ifI _ _ => true
  | .elseI _ => true
  | .endif => true
  | .loop _ => true
  | .brk _ => true
  | .cont _ => true
  | .endloop _ => true
  | .uany _ _ => true
  | .exit => true
  | .trap _ => true
  | .bkpt _ => true
  | .yield => true
  | .region _ => true
  | .ocld ws => ocldOk ws
  | .ocdrop _ _ => true
  | .ocdropAll => true
  | .alloc d res acc tile _ => allocOk d res acc tile
  | .free => true
  | .srd _ _ => true
  | .swr _ e => e != 0x20#16
  | .swrSigclr _ => true
  | .rtt => true
  | .rttHead => true
  | .uld _ _ _ => true
  | .uldd _ _ _ => true
  | .ust _ _ _ => true
  | .ustd _ _ _ => true
  | .fence ord _ => ord != .rlx
  | .barSync _ => true
  | .barArv _ => true
  | .barInit _ _ => true
  | .barx _ _ sc => sc != .team
  | .promote _ _ _ sc => sc.isDieOrWider
  | .uatom d _ _ x => x.atomOk d
  | .seal _ _ _ => true
  | .reopen _ _ _ => true
  | .vinv _ => true
  | .vinvAll => true
  | .actld _ _ => true
  | .cpy _ _ _ x => x.cpyOk
  | .cpyg _ _ _ x => x.ok
  | .cpys _ _ _ x => x.cpysOk
  | .aseal _ => true
  | .await _ => true
  | .atest _ _ => true
  | .tsgive _ _ => true
  | .tstake _ _ => true
  | .fopen _ _ _ _ elem => fibreElemOk elem
  | .fadv _ => true
  | .fend _ _ => true
  | .fclose _ => true
  | .mma _ _ _ x => x.ok
  | .mmal _ _ _ x _ _ _ _ => x.ok
  | .mbin _ _ _ x => x.ok
  | .mspr _ _ fib x => x.ok fib
  | .msca _ _ b x => x.ok b
  | .mszp _ _ _ x => x.ok
  | .mzero _ _ => true
  | .mrd _ _ wc col => windowOk wc col
  | .mwr _ _ wc col => windowOk wc col
  | .reservedCodeIssue rep pfx w => reservedOk rep pfx w
  | .configurationRequest _ => true
  | .thermalGateEnd _ => true
  | .msixVectorUnmask e => e.toNat < 65

abbrev Instr.WellFormed (i : Instr) : Prop := i.wf = true

end Sys2Proof
end

