-- ==== Sys2Proof/Decode.lean ====
section
/-! DEFINITION. Decode: instruction words to instructions (R249 to R268 and the encodings of the instruction chapters),
total on any bytes and rejecting by name; then the encoder, written from the same tables. Every rejection is an
ILLINS of R264's first step. -/

namespace Sys2Proof

/-- Why words are no instruction. -/
inductive DecodeErr where
  /-- The words end before the instruction does (R251). -/
  | truncated
  /-- A prefix before another prefix out of order, or a PFX before a uniform base word (R249, R260). -/
  | misplacedPrefix
  /-- A REP before a word that R263 does not allow, or with the other set's bit (R261). -/
  | misusedRep
  /-- A reserved or unused field that is not 0 (R253, R261). -/
  | reservedField
  /-- A field value or combination that the instruction's rule makes illegal. -/
  | illegalValue
deriving DecidableEq, Repr

/-! ## Lengths (R251, R265, R266) -/

/-- Extension words of the base word. -/
def extCount (w : IWord) : Nat :=
  let n := w.op.toNat
  if 0x79 ≤ n ∧ n ≤ 0x7C then 1
  else if n = 0xB4 then 5
  else if n = 0xB5 then (w.d.extractLsb' 0 3).toNat
  else if n = 0xB8 ∨ n = 0xB9 then 1
  else if 0xC4 ≤ n ∧ n ≤ 0xC8 then 1
  else if 0xD0 ≤ n ∧ n ≤ 0xD2 then 2
  else if n = 0xD8 then 1
  else if n = 0xE0 ∨ n = 0xE2 ∨ n = 0xE3 then 2
  else if n = 0xE1 then 3
  else if n = 0xE4 ∨ n = 0xE5 ∨ n = 0xE7 ∨ n = 0xE8 then 1
  else 0

/-- The leading word, if the test accepts it, and the words after it. -/
def takeWord (test : IWord → Bool) : List IWord → Option IWord × List IWord
  | [] => (none, [])
  | w :: ws => if test w then (some w, ws) else (none, w :: ws)

/-- Whether the instruction that begins with these words goes on beyond them (R251). -/
def moreWords (ws : List IWord) : Bool :=
  match (takeWord isPfx (takeWord isRep ws).2).2 with
  | [] => true
  | w :: xs => decide (xs.length < extCount w)

/-! ## Fields -/

def need (b : Bool) (i : Instr) : Except DecodeErr Instr := if b then .ok i else .error .reservedField

def Rep.ofWord (w : IWord) : Except DecodeErr Rep :=
  let f := w.d ++ w.a ++ w.b
  if f.extractLsb' 0 6 == 0#6 then
    .ok ⟨f.extractLsb' 18 6, f.extractLsb' 15 3, f.extractLsb' 12 3, f.extractLsb' 9 3, f.extractLsb' 6 3⟩
  else .error .reservedField

def Pfx.ofWord (w : IWord) : Pfx :=
  { c := w.d, m := w.a, zm := w.b.getLsbD 7, rm := w.b.extractLsb' 4 3, ka := w.b.getLsbD 3, kb := w.b.getLsbD 2,
    kc := w.b.getLsbD 1, sat := w.b.getLsbD 0 }

def Order.ofCode (n : BitVec 3) : Option Order :=
  match n.toNat with
  | 0 => some .rlx
  | 1 => some .acq
  | 2 => some .rel
  | 3 => some .ar
  | 4 => some .sc
  | _ => none

def Order.code : Order → BitVec 3
  | .rlx => 0#3
  | .acq => 1#3
  | .rel => 2#3
  | .ar => 3#3
  | .sc => 4#3

def Scope.ofCode (n : BitVec 3) : Option Scope :=
  match n.toNat with
  | 0 => some .team
  | 1 => some .core
  | 2 => some .quad
  | 3 => some .die
  | 4 => some .pkg
  | 5 => some .pod
  | _ => none

def Scope.code : Scope → BitVec 3
  | .team => 0#3
  | .core => 1#3
  | .quad => 2#3
  | .die => 3#3
  | .pkg => 4#3
  | .pod => 5#3

def AOp.ofCode (n : BitVec 4) : Option AOp :=
  match n.toNat with
  | 0 => some .add
  | 1 => some .sub
  | 2 => some .min
  | 3 => some .max
  | 4 => some .umin
  | 5 => some .umax
  | 6 => some .and
  | 7 => some .or
  | 8 => some .xor
  | 9 => some .xchg
  | 10 => some .cas
  | 11 => some .fadd
  | 12 => some .fmin
  | 13 => some .fmax
  | 14 => some .inc
  | _ => none

def AOp.code : AOp → BitVec 4
  | .add => 0#4
  | .sub => 1#4
  | .min => 2#4
  | .max => 3#4
  | .umin => 4#4
  | .umax => 5#4
  | .and => 6#4
  | .or => 7#4
  | .xor => 8#4
  | .xchg => 9#4
  | .cas => 10#4
  | .fadd => 11#4
  | .fmin => 12#4
  | .fmax => 13#4
  | .inc => 14#4

/-- The ordering extension with its codes resolved (R268). -/
structure OrdFields where
  c : Byte
  ret : Bool
  aopBits : BitVec 4
  aop : AOp
  b64 : Bool
  ord : Order
  sc : Scope
deriving DecidableEq, Repr

def OrdFields.ofWord (x : Word) : Except DecodeErr OrdFields :=
  if x.extractLsb' 24 8 != 0#8 || x.extractLsb' 13 3 != 0#3 then .error .reservedField
  else
    match AOp.ofCode (x.extractLsb' 8 4), Order.ofCode (x.extractLsb' 3 3), Scope.ofCode (x.extractLsb' 0 3) with
    | some aop, some ord, some sc =>
      if x.getLsbD 7 then .error .illegalValue
      else .ok ⟨x.extractLsb' 16 8, x.getLsbD 12, x.extractLsb' 8 4, aop, x.getLsbD 6, ord, sc⟩
    | _, _, _ => .error .illegalValue

/-- C, RET and AOP are 0 (R327, R333, R334, R337). -/
def OrdFields.plain (x : OrdFields) : Bool := x.c == 0#8 && !x.ret && x.aopBits == 0#4

def OrdFields.atom (x : OrdFields) : AtomExt := ⟨x.c, x.ret, x.aop, x.b64, x.ord, x.sc⟩

/-! ## Base words -/

/-- Lane instructions of one word (R265). -/
def decodeLaneOne (p : LPre) (op : Nat) (d a b : Byte) : Except DecodeErr Instr :=
  match op with
  | 0x00 => need (d == 0#8 && a == 0#8 && b == 0#8) (.nop p)
  | 0x01 => need (b == 0#8) (.mov p d a)
  | 0x02 => .ok (.movi p d (a ++ b))
  | 0x03 => .ok (.movhi p d (a ++ b))
  | 0x04 => .ok (.iadd p d a b)
  | 0x05 => .ok (.isub p d a b)
  | 0x06 => .ok (.iaddi p d (a ++ b))
  | 0x07 => .ok (.imul p d a b)
  | 0x08 => .ok (.imulhi p d a b)
  | 0x09 => .ok (.umulhi p d a b)
  | 0x0A => .ok (.imad p d a b)
  | 0x0B => .ok (.iadd64 p d a b)
  | 0x0C => .ok (.imin p d a b)
  | 0x0D => .ok (.imax p d a b)
  | 0x0E => .ok (.umin p d a b)
  | 0x0F => .ok (.umax p d a b)
  | 0x10 => .ok (.and p d a b)
  | 0x11 => .ok (.or p d a b)
  | 0x12 => .ok (.xor p d a b)
  | 0x13 => .ok (.andn p d a b)
  | 0x14 => .ok (.shl p d a b)
  | 0x15 => .ok (.shr p d a b)
  | 0x16 => .ok (.sar p d a b)
  | 0x17 => .ok (.rotl p d a b)
  | 0x18 => .ok (.bfx p d a b)
  | 0x19 => .ok (.bfxs p d a b)
  | 0x1A => .ok (.bfi p d a b)
  | 0x1B => .ok (.sel p d a b)
  | 0x1C => need (b == 0#8) (.popc p d a)
  | 0x1D => need (b == 0#8) (.clz p d a)
  | 0x1E => need (b == 0#8) (.brev p d a)
  | 0x1F => .ok (.prmt p d a b)
  | 0x20 => .ok (.iseteq p d a b)
  | 0x21 => .ok (.isetne p d a b)
  | 0x22 => .ok (.isetlt p d a b)
  | 0x23 => .ok (.isetle p d a b)
  | 0x24 => .ok (.usetlt p d a b)
  | 0x25 => .ok (.usetle p d a b)
  | 0x26 => .ok (.fseteq p d a b)
  | 0x27 => .ok (.fsetne p d a b)
  | 0x28 => .ok (.fsetlt p d a b)
  | 0x29 => .ok (.fsetle p d a b)
  | 0x2A => .ok (.fsetun p d a b)
  | 0x30 => .ok (.fadd p d a b)
  | 0x31 => .ok (.fsub p d a b)
  | 0x32 => .ok (.fmul p d a b)
  | 0x33 => .ok (.ffma p d a b)
  | 0x34 => .ok (.fmin p d a b)
  | 0x35 => .ok (.fmax p d a b)
  | 0x36 => need (b == 0#8) (.fabs p d a)
  | 0x37 => need (b == 0#8) (.fneg p d a)
  | 0x38 => .ok (.hadd2 p d a b)
  | 0x39 => .ok (.hmul2 p d a b)
  | 0x3A => .ok (.hfma2 p d a b)
  | 0x3B => .ok (.bfma2 p d a b)
  | 0x3C => .ok (.fdot2 p d a b)
  | 0x3D => .ok (.fscale p d a b)
  | 0x3E => need (b == 0#8) (.fclass p d a)
  | 0x40 => .ok (.cvt p d a b)
  | 0x48 => .ok (.sfu p d a b)
  | 0x49 => .ok (.dadd p d a b)
  | 0x4A => .ok (.dmul p d a b)
  | 0x4B => .ok (.dfma p d a b)
  | 0x4C => .ok (.dmin p d a b)
  | 0x4D => .ok (.dmax p d a b)
  | 0x4E => .ok (.dsetlt p d a b)
  | 0x4F => .ok (.dseteq p d a b)
  | 0x50 => need (a == 0#8 && b == 0#8) (.rng p d)
  | 0x51 => .ok (.actv p d a b)
  | 0x58 => .ok (.shfl p d a b)
  | 0x59 => .ok (.shflx p d a b)
  | 0x5A => .ok (.shflu p d a b)
  | 0x5B => .ok (.shfld p d a b)
  | 0x5C => need (b == 0#8) (.ballot p d a)
  | 0x5D => need (b == 0#8) (.redadd p d a)
  | 0x5E => need (b == 0#8) (.redfadd p d a)
  | 0x5F => need (b == 0#8) (.redmax p d a)
  | 0x60 => need (b == 0#8) (.redmin p d a)
  | 0x61 => need (b == 0#8) (.scanadd p d a)
  | 0x62 => .ok (.bxch p d a b)
  | 0x63 => need (a.extractLsb' 3 5 == 0#5 && b == 0#8) (.frdc p d (a.extractLsb' 0 3))
  | 0x64 => need (a.extractLsb' 3 5 == 0#5 && b == 0#8) (.frdv p d (a.extractLsb' 0 3))
  | 0x68 => .ok (.ldb p d a b)
  | 0x69 => .ok (.ldbs p d a b)
  | 0x6A => .ok (.ldh p d a b)
  | 0x6B => .ok (.ldhs p d a b)
  | 0x6C => .ok (.ldw p d a b)
  | 0x6D => .ok (.ldd p d a b)
  | 0x6E => .ok (.ldq p d a b)
  | 0x6F => .ok (.stb p d a b)
  | 0x70 => .ok (.sth p d a b)
  | 0x71 => .ok (.stw p d a b)
  | 0x72 => .ok (.std p d a b)
  | 0x73 => .ok (.stq p d a b)
  | 0x74 => .ok (.stbm p d a b)
  | 0x75 => .ok (.ldt p d a (b.extractLsb' 4 4) (b.extractLsb' 0 4))
  | 0x76 => .ok (.stt p d a (b.extractLsb' 4 4) (b.extractLsb' 0 4))
  | 0x77 => .ok (.ldtq p d a (b.extractLsb' 4 4) (b.extractLsb' 0 4))
  | 0x78 => .ok (.sttq p d a (b.extractLsb' 4 4) (b.extractLsb' 0 4))
  | _ => .error .illegalValue

/-- Lane instructions with an ordering extension (R265). -/
def decodeLaneTwo (p : Option Pfx) (op : Nat) (d a b : Byte) (x : OrdFields) : Except DecodeErr Instr :=
  match op with
  | 0x79 => need x.plain (.ldx p d a b x.b64 x.ord x.sc)
  | 0x7A => need x.plain (.stx p d a b x.b64 x.ord x.sc)
  | 0x7B => .ok (.atom p d a b x.atom)
  | 0x7C => .ok (.atomt p d a b x.atom)
  | _ => .error .illegalValue

/-- Uniform instructions that may be repeated (R263, R266). -/
def decodeUniRep (r : Option Rep) (op : Nat) (d a b : Byte) : Except DecodeErr Instr :=
  match op with
  | 0x80 => need (d == 0#8 && a == 0#8 && b == 0#8) (.unop r)
  | 0x81 => need (b == 0#8) (.umov r d a)
  | 0x82 => .ok (.umovi r d (a ++ b))
  | 0x83 => .ok (.umovhi r d (a ++ b))
  | 0x84 => .ok (.uiadd r d a b)
  | 0x85 => .ok (.uisub r d a b)
  | 0x86 => .ok (.uiaddi r d (a ++ b))
  | 0x87 => .ok (.uimul r d a b)
  | 0x88 => .ok (.uimad r d a b)
  | 0x89 => .ok (.uiadd64 r d a b)
  | 0x8A => .ok (.uminUni r d a b)
  | 0x8B => .ok (.umaxUni r d a b)
  | 0x8C => .ok (.uand r d a b)
  | 0x8D => .ok (.uor r d a b)
  | 0x8E => .ok (.uxor r d a b)
  | 0x8F => .ok (.ushl r d a b)
  | 0x90 => .ok (.ushr r d a b)
  | 0x91 => .ok (.usar r d a b)
  | 0x92 => .ok (.ubfx r d a b)
  | 0x93 => .ok (.ubfi r d a b)
  | 0x94 => need (b == 0#8) (.upopc r d a)
  | 0x95 => need (b == 0#8) (.uclz r d a)
  | 0x96 => .ok (.usel r d a b)
  | 0x97 => .ok (.uiseteq r d a b)
  | 0x98 => .ok (.uisetne r d a b)
  | 0x99 => .ok (.uisetlt r d a b)
  | 0x9A => .ok (.uisetle r d a b)
  | 0x9B => .ok (.uusetlt r d a b)
  | 0x9C => .ok (.uusetle r d a b)
  | _ => .error .illegalValue

/-- The other uniform instructions of one word (R266). -/
def decodeUniOne (op : Nat) (d a b : Byte) : Except DecodeErr Instr :=
  match op with
  | 0xA0 => .ok (.jmp (d ++ a ++ b))
  | 0xA1 => .ok (.call (d ++ a ++ b))
  | 0xA2 => need (d == 0#8 && a == 0#8 && b == 0#8) (.ret)
  | 0xA3 => need (d == 0#8 && b == 0#8) (.jmpr a)
  | 0xA4 => .ok (.ubrz d (a ++ b))
  | 0xA5 => .ok (.ubrnz d (a ++ b))
  | 0xA8 => .ok (.ifI d (a ++ b))
  | 0xA9 => .ok (.elseI (d ++ a ++ b))
  | 0xAA => need (d == 0#8 && a == 0#8 && b == 0#8) (.endif)
  | 0xAB => .ok (.loop (d ++ a ++ b))
  | 0xAC => need (a == 0#8 && b == 0#8) (.brk d)
  | 0xAD => need (a == 0#8 && b == 0#8) (.cont d)
  | 0xAE => .ok (.endloop (d ++ a ++ b))
  | 0xAF => need (b == 0#8) (.uany d a)
  | 0xB0 => need (d == 0#8 && a == 0#8 && b == 0#8) (.exit)
  | 0xB1 => need (d == 0#8 && a == 0#8) (.trap b)
  | 0xB2 => need (d == 0#8 && a == 0#8) (.bkpt b)
  | 0xB3 => need (d == 0#8 && a == 0#8 && b == 0#8) (.yield)
  | 0xB6 => if d == 0#8 then .ok (.ocdrop a b) else need (d == 1#8 && a == 164#8 && b == 164#8) .ocdropAll
  | 0xBA => need (a == 0#8) (.srd d b)
  | 0xBB => if a == 0#8 && b == 0x20#8 then .ok (.swrSigclr d) else .ok (.swr d (a ++ b))
  | 0xBC => need (d == 0#8 && a == 0#8 && (b == 0#8 || b == 1#8)) (if b == 0#8 then .rtt else .rttHead)
  | 0xC0 => .ok (.uld d a b)
  | 0xC1 => .ok (.uldd d a b)
  | 0xC2 => .ok (.ust d a b)
  | 0xC3 => .ok (.ustd d a b)
  | 0xC9 => .ok (.seal d a b)
  | 0xCA => .ok (.reopen d a b)
  | 0xCB => if d == 0#8 then need (b == 0#8) (.vinv a) else need (d == 1#8 && a == 0#8 && b == 0#8) .vinvAll
  | 0xCC => need (d.extractLsb' 2 6 == 0#6 && b == 0#8) (.actld a (d.extractLsb' 0 2))
  | 0xD3 => need (a == 0#8 && b == 0#8) (.aseal d)
  | 0xD4 => need (d == 0#8 && b == 0#8) (.await a)
  | 0xD5 => need (b == 0#8) (.atest d a)
  | 0xD6 => need (d == 0#8) (.tsgive a b)
  | 0xD7 => need (b == 0#8) (.tstake d a)
  | 0xD9 => need (a.extractLsb' 3 5 == 0#5 && d == 0#8 && b == 0#8) (.fadv (a.extractLsb' 0 3))
  | 0xDA => need (a.extractLsb' 3 5 == 0#5 && b == 0#8) (.fend d (a.extractLsb' 0 3))
  | 0xDB => need (a.extractLsb' 3 5 == 0#5 && d == 0#8 && b == 0#8) (.fclose (a.extractLsb' 0 3))
  | 0xE6 => need (d == 0#8) (.mzero a b)
  | _ => .error .illegalValue

def CopyExt.ofWords (x y : Word) : Except DecodeErr CopyExt :=
  if x.extractLsb' 26 6 == 0#6 then
    .ok { eop := x.extractLsb' 24 2, mode := x.extractLsb' 20 4, dir := x.extractLsb' 18 2, dc := x.getLsbD 17,
          ben := x.getLsbD 16, bar := x.extractLsb' 12 4, bytes := x.extractLsb' 0 12,
          spitch := y.extractLsb' 16 16, dpitch := y.extractLsb' 0 16 }
  else .error .reservedField

def GatherExt.ofWords (x y : Word) : GatherExt :=
  { ts := x.getLsbD 31, scat := x.getLsbD 30, gchk := x.getLsbD 29, ben := x.getLsbD 28, bar := x.extractLsb' 24 4,
    n := x.extractLsb' 12 12, rowb := x.extractLsb' 0 12, mode := y.extractLsb' 28 4, trows := y.extractLsb' 0 28 }

def MmaExt.ofWords (x y : Word) : Except DecodeErr MmaExt :=
  if y.extractLsb' 0 8 == 0#8 then
    .ok { fa := x.extractLsb' 28 4, fb := x.extractLsb' 24 4, m := x.extractLsb' 21 3, n := x.extractLsb' 18 3,
          k := x.extractLsb' 11 7, ha := x.getLsbD 10, hb := x.getLsbD 9, zero := x.getLsbD 8, df := x.extractLsb' 6 2,
          pln := x.extractLsb' 4 2, prec := x.extractLsb' 0 4, cb := y.extractLsb' 24 8, cbf := y.getLsbD 23,
          blka := y.extractLsb' 20 3, blkb := y.extractLsb' 17 3, rsum := y.getLsbD 16, rs := y.extractLsb' 8 8 }
  else .error .reservedField

/-- MBIN's words: both formats BIN, PREC and the second word 0 (R372). -/
def MbinExt.ofWords (x y : Word) : Except DecodeErr MbinExt :=
  if x.extractLsb' 24 8 == 0xCC#8 && x.extractLsb' 0 4 == 0#4 && y == 0#32 then
    .ok { m := x.extractLsb' 21 3, n := x.extractLsb' 18 3, k := x.extractLsb' 11 7, ha := x.getLsbD 10,
          hb := x.getLsbD 9, zero := x.getLsbD 8, df := x.extractLsb' 6 2, bop := x.extractLsb' 4 2 }
  else .error .illegalValue

def MsprExt.ofWords (x y : Word) : Except DecodeErr MsprExt :=
  if x.extractLsb' 28 4 == 0#4 && !x.getLsbD 10 && x.extractLsb' 0 8 == 0#8 && y.extractLsb' 0 23 == 0#23 then
    .ok { fb := x.extractLsb' 24 4, nf := x.extractLsb' 21 3, n := x.extractLsb' 18 3, k := x.extractLsb' 11 7,
          hb := x.getLsbD 9, zero := x.getLsbD 8, cb := y.extractLsb' 24 8, cbf := y.getLsbD 23 }
  else .error .reservedField

/-- Uniform instructions with an ordering extension (R333, R334, R337, R332). -/
def decodeUniOrd (op : Nat) (d a b : Byte) (x : OrdFields) : Except DecodeErr Instr :=
  match op with
  | 0xC4 => need (d == 0#8 && a == 0#8 && b == 0#8 && x.plain && !x.b64) (.fence x.ord x.sc)
  | 0xC6 => need (d == 0#8 && x.plain && !x.b64 && x.ord == .rlx) (.barx a b x.sc)
  | 0xC7 => need (b == 0#8 && x.plain && x.ord == .acq) (.promote d a x.b64 x.sc)
  | 0xC8 => .ok (.uatom d a b x.atom)
  | _ => .error .illegalValue

/-- BAR's words (R335). -/
def decodeBar (d a b : Byte) (x : Word) : Except DecodeErr Instr :=
  let n := b.extractLsb' 0 4
  if d == 0#8 && b.extractLsb' 4 4 == 0#4 && x.extractLsb' 2 30 == 0#30 then
    match (x.extractLsb' 0 2).toNat with
    | 0 => need (a == 0#8) (.barSync n)
    | 1 => need (a == 0#8) (.barArv n)
    | 2 => .ok (.barInit n a)
    | _ => .error .illegalValue
  else .error .reservedField

/-- Uniform instructions with one extension word (R311, R312, R335, R352, R375, R378). -/
def decodeUniTwo (op : Nat) (d a b : Byte) (x : Word) : Except DecodeErr Instr :=
  match op with
  | 0xB8 =>
    need (a == 0#8 && b == 0#8 && x.extractLsb' 27 4 == 0#4)
      (.alloc d (x.getLsbD 31) (x.extractLsb' 15 12) (x.extractLsb' 5 10) (x.extractLsb' 0 5))
  | 0xB9 => need (d == 0#8 && a == 0#8 && b == 0#8 && x == 0#32) .free
  | 0xC5 => decodeBar d a b x
  | 0xD8 =>
    need (d.extractLsb' 3 5 == 0#5 && x.extractLsb' 14 18 == 0#18)
      (.fopen (d.extractLsb' 0 3) a b (x.extractLsb' 0 8) (x.extractLsb' 8 6))
  | 0xE4 =>
    need (x.extractLsb' 0 17 == 0#17)
      (.msca d a b ⟨x.extractLsb' 25 7, x.extractLsb' 22 3, x.extractLsb' 20 2, x.extractLsb' 18 2, x.getLsbD 17⟩)
  | 0xE5 =>
    need (!x.getLsbD 16 && x.extractLsb' 0 8 == 0#8)
      (.mszp d a b ⟨x.extractLsb' 25 7, x.extractLsb' 22 3, x.extractLsb' 20 2, x.extractLsb' 18 2, x.getLsbD 17,
        x.extractLsb' 8 8⟩)
  | 0xE7 => need (b == 0#8 && x.extractLsb' 0 23 == 0#23) (.mrd d a (x.extractLsb' 30 2) (x.extractLsb' 23 7))
  | 0xE8 => need (b == 0#8 && x.extractLsb' 0 23 == 0#23) (.mwr d a (x.extractLsb' 30 2) (x.extractLsb' 23 7))
  | _ => (OrdFields.ofWord x).bind (decodeUniOrd op d a b)

/-- Uniform instructions with two or more extension words (R308, R343, R347, R366, R370, R372, R373). -/
def decodeUniMany (op : Nat) (d a b : Byte) (xs : List Word) : Except DecodeErr Instr :=
  match op, xs with
  | 0xB4, [v, w, x, y, z] => need (d == 0#8 && a == 0#8 && b == 0#8) (.region (z ++ y ++ x ++ w ++ v))
  | 0xD0, [x, y] => (CopyExt.ofWords x y).bind fun e => .ok (.cpy d a b e)
  | 0xD1, [x, y] => .ok (.cpyg d a b (GatherExt.ofWords x y))
  | 0xD2, [x, y] => (CopyExt.ofWords x y).bind fun e => .ok (.cpys d a b e)
  | 0xE0, [x, y] => (MmaExt.ofWords x y).bind fun e => .ok (.mma d a b e)
  | 0xE1, [x, y, z] =>
    (MmaExt.ofWords x y).bind fun e =>
      .ok (.mmal d a b e (z.extractLsb' 24 8) (z.extractLsb' 16 8) (z.extractLsb' 8 8) (z.extractLsb' 0 8))
  | 0xE2, [x, y] => (MbinExt.ofWords x y).bind fun e => .ok (.mbin d a b e)
  | 0xE3, [x, y] =>
    (MsprExt.ofWords x y).bind fun e => need (a.extractLsb' 3 5 == 0#5) (.mspr d b (a.extractLsb' 0 3) e)
  | _, _ => .error .illegalValue

/-! ## Instructions -/

/-- A lane instruction from its prefixes, base word and extension words. -/
def decodeLane (rep : Option Rep) (pfx : Option Pfx) (w : IWord) (xs : List Word) : Except DecodeErr Instr :=
  match xs with
  | [] => decodeLaneOne ⟨rep, pfx⟩ w.op.toNat w.d w.a w.b
  | [x] => if rep.isSome then .error .misusedRep else (OrdFields.ofWord x).bind (decodeLaneTwo pfx w.op.toNat w.d w.a w.b)
  | _ => .error .illegalValue

/-- A uniform instruction from its REP, base word and extension words. -/
def decodeUni (rep : Option Rep) (w : IWord) (xs : List Word) : Except DecodeErr Instr :=
  let op := w.op.toNat
  if op ≤ 0x9C then decodeUniRep rep op w.d w.a w.b
  else if rep.isSome then .error .misusedRep
  else if op = 0xB5 then need (w.d.extractLsb' 3 5 == 0#5 && w.a == 0#8 && w.b == 0#8) (.ocld xs)
  else match xs with
    | [] => decodeUniOne op w.d w.a w.b
    | [x] => decodeUniTwo op w.d w.a w.b x
    | _ => decodeUniMany op w.d w.a w.b xs

/-- The REP word before a base word of the set that `lane` tells (R261, R263). -/
def decodeRep (lane : Bool) : Option IWord → Except DecodeErr (Option Rep)
  | none => .ok none
  | some w => if (w.op == 0x7E#8) == lane then (Rep.ofWord w).map some else .error .misusedRep

/-- The instruction with this base word: its prefixes, then its extension words. -/
def decodeBase (rep pfx : Option IWord) (w : IWord) (xs : List Word) : Except DecodeErr Instr :=
  if isRep w || isPfx w then .error .misplacedPrefix
  else if reservedOp w.op then .ok (.reservedCodeIssue rep pfx w)
  else if w.op.getLsbD 7 then
    if pfx.isSome then .error .misplacedPrefix
    else (decodeRep false rep).bind fun r => decodeUni r w xs
  else (decodeRep true rep).bind fun r => decodeLane r (pfx.map Pfx.ofWord) w xs

/-- Accepts well-formed instructions only. -/
def checkWf (i : Instr) : Except DecodeErr Instr := if i.wf then .ok i else .error .illegalValue

/-- The first instruction of a list of words, and the words after it. -/
def decodeWords (ws : List IWord) : Except DecodeErr (Instr × List IWord) :=
  let (rep, ws1) := takeWord isRep ws
  let (pfx, ws2) := takeWord isPfx ws1
  match ws2 with
  | [] => .error .truncated
  | w :: xs =>
    let n := extCount w
    if xs.length < n then .error .truncated
    else ((decodeBase rep pfx w ((xs.take n).map IWord.bits)).bind checkWf).map fun i => (i, xs.drop n)

/-- The words that bytes hold, least significant byte first (R5, R249); a rest of fewer than four bytes holds none. -/
def wordsOfBytes : List Byte → List IWord
  | b :: a :: d :: op :: rest => ⟨op, d, a, b⟩ :: wordsOfBytes rest
  | _ => []

/-- Decoding of bytes, total on any list. -/
def decodeBytes (bs : List Byte) : Except DecodeErr (Instr × List IWord) := decodeWords (wordsOfBytes bs)

/-- The words of a number whose first word is its least significant. -/
def wordsOfNat : Nat → Nat → List IWord
  | 0, _ => []
  | n + 1, w => IWord.ofBits (BitVec.ofNat 32 w) :: wordsOfNat n (w / 2 ^ 32)

/-- The longest instruction has seven words: REP before REGION, which R263 rejects. -/
def maxWords : Nat := 7

/-- The instruction that the decoder reads from bits numbered as the opcode table numbers them. -/
def decodeTableWord (nbits w : Nat) : Option Instr :=
  match decodeWords (wordsOfNat maxWords (w % 2 ^ nbits)) with
  | .ok (i, _) => some i
  | .error _ => none

/-! ## Encoder -/

def Rep.word (set : Byte) (r : Rep) : IWord :=
  IWord.ofBits (set ++ r.cnt ++ r.dd ++ r.da ++ r.db ++ r.dc ++ 0#6)

def Pfx.word (p : Pfx) : IWord :=
  ⟨0x7F#8, p.c, p.m, BitVec.ofBool p.zm ++ p.rm ++ BitVec.ofBool p.ka ++ BitVec.ofBool p.kb ++ BitVec.ofBool p.kc
    ++ BitVec.ofBool p.sat⟩

def pfxWords (p : Option Pfx) : List IWord := (p.map Pfx.word).toList
def LPre.words (p : LPre) : List IWord := (p.rep.map (Rep.word 0x7E#8)).toList ++ pfxWords p.pfx
def uniRepWords (r : Option Rep) : List IWord := (r.map (Rep.word 0xFE#8)).toList

def ordWord (c : Byte) (ret : Bool) (aop : BitVec 4) (b64 : Bool) (ord sc : BitVec 3) : IWord :=
  IWord.ofBits (0#8 ++ c ++ 0#3 ++ BitVec.ofBool ret ++ aop ++ 0#1 ++ BitVec.ofBool b64 ++ ord ++ sc)

def AtomExt.word (x : AtomExt) : IWord := ordWord x.c x.ret x.aop.code x.b64 x.ord.code x.sc.code

def CopyExt.words (x : CopyExt) : List IWord :=
  [IWord.ofBits (0#6 ++ x.eop ++ x.mode ++ x.dir ++ BitVec.ofBool x.dc ++ BitVec.ofBool x.ben ++ x.bar ++ x.bytes),
    IWord.ofBits (x.spitch ++ x.dpitch)]

def GatherExt.words (x : GatherExt) : List IWord :=
  [IWord.ofBits (BitVec.ofBool x.ts ++ BitVec.ofBool x.scat ++ BitVec.ofBool x.gchk ++ BitVec.ofBool x.ben ++ x.bar
      ++ x.n ++ x.rowb), IWord.ofBits (x.mode ++ x.trows)]

def MmaExt.words (x : MmaExt) : List IWord :=
  [IWord.ofBits (x.fa ++ x.fb ++ x.m ++ x.n ++ x.k ++ BitVec.ofBool x.ha ++ BitVec.ofBool x.hb ++ BitVec.ofBool x.zero
      ++ x.df ++ x.pln ++ x.prec),
    IWord.ofBits (x.cb ++ BitVec.ofBool x.cbf ++ x.blka ++ x.blkb ++ BitVec.ofBool x.rsum ++ x.rs ++ 0#8)]

def MbinExt.word (x : MbinExt) : IWord :=
  IWord.ofBits (0xCC#8 ++ x.m ++ x.n ++ x.k ++ BitVec.ofBool x.ha ++ BitVec.ofBool x.hb ++ BitVec.ofBool x.zero ++ x.df
    ++ x.bop ++ 0#4)

def MsprExt.words (x : MsprExt) : List IWord :=
  [IWord.ofBits (0#4 ++ x.fb ++ x.nf ++ x.n ++ x.k ++ 0#1 ++ BitVec.ofBool x.hb ++ BitVec.ofBool x.zero ++ 0#8),
    IWord.ofBits (x.cb ++ BitVec.ofBool x.cbf ++ 0#23)]

/-- The words of a well-formed instruction; an event step has none. -/
def encode : Instr → List IWord
  | .coldPowerOn => []
  | .powerRemoved => []
  | .stackTrained .. => []
  | .dieUp .. => []
  | .fullServiceMove => []
  | .warmReset => []
  | .hostLinkHotReset => []
  | .thermalGate .. => []
  | .thermalTrip => []
  | .fatalError .. => []
  | .hostDump => []
  | .lanternDump => []
  | .lanternAck => []
  | .lanternOvwrClear => []
  | .elogClear .. => []
  | .elogEntryRead .. => []
  | .incarnWrite .. => []
  | .devnumWrite .. => []
  | .llPortEnable .. => []
  | .llPortDisable .. => []
  | .llStateRetrain .. => []
  | .llTrained .. => []
  | .flitSend .. => []
  | .flitReceive .. => []
  | .llReplayTimeout .. => []
  | .heartbeatSend .. => []
  | .agentDead .. => []
  | .agentReadmit .. => []
  | .ideKeyProgram => []
  | .cxlCacheSnoop .. => []
  | .memRead .. => []
  | .memWrite .. => []
  | .refreshTick .. => []
  | .refreshIssue .. => []
  | .refreshPullIn .. => []
  | .bistStart .. => []
  | .bistRowCopy .. => []
  | .bistPatternDone .. => []
  | .scrubRead .. => []
  | .scrubWriteback .. => []
  | .viewCacheFill .. => []
  | .bulkRequest .. => []
  | .viewSectorCompose .. => []
  | .composedWrite .. => []
  | .vtinvView .. => []
  | .vtinvAll => []
  | .tfclrFrame .. => []
  | .tfclrAll => []
  | .hostMemWrite .. => []
  | .hostMemRead .. => []
  | .queueEnable .. => []
  | .queueDisable .. => []
  | .queueAbort .. => []
  | .abortFinish .. => []
  | .recordParse .. => []
  | .blockPlace => []
  | .blockComplete .. => []
  | .launchComplete .. => []
  | .allocAdmit .. => []
  | .allocEvict .. => []
  | .blockPreempt .. => []
  | .blockRestore .. => []
  | .cswSuspend .. => []
  | .cswResume .. => []
  | .teamEnterActive .. => []
  | .rotation .. => []
  | .loadDataArrive .. => []
  | .walkComplete .. => []
  | .tlbinvAll => []
  | .tlbinvAsid .. => []
  | .tlbinvPage .. => []
  | .trapEntry .. => []
  | .deferredCauseReport .. => []
  | .pfRecordWrite .. => []
  | .pfrespRetry .. => []
  | .pfrespDeliver .. => []
  | .pfDisable => []
  | .registration .. => []
  | .revocation .. => []
  | .homeRead .. => []
  | .forwardedRead .. => []
  | .l1Eviction .. => []
  | .versionQuery .. => []
  | .brimEpochBoundary => []
  | .brimSweep .. => []
  | .copyUnitComplete .. => []
  | .asyncOpComplete .. => []
  | .matrixExecute .. => []
  | .mrdWriteback .. => []
  | .actldFlip .. => []
  | .tsOfferEffect .. => []
  | .registerWrite .. => []
  | .nop p => p.words ++ [⟨0x00#8, 0#8, 0#8, 0#8⟩]
  | .mov p d a => p.words ++ [⟨0x01#8, d, a, 0#8⟩]
  | .movi p d i => p.words ++ [⟨0x02#8, d, (i.extractLsb' 8 8), (i.extractLsb' 0 8)⟩]
  | .movhi p d i => p.words ++ [⟨0x03#8, d, (i.extractLsb' 8 8), (i.extractLsb' 0 8)⟩]
  | .iadd p d a b => p.words ++ [⟨0x04#8, d, a, b⟩]
  | .isub p d a b => p.words ++ [⟨0x05#8, d, a, b⟩]
  | .iaddi p d i => p.words ++ [⟨0x06#8, d, (i.extractLsb' 8 8), (i.extractLsb' 0 8)⟩]
  | .imul p d a b => p.words ++ [⟨0x07#8, d, a, b⟩]
  | .imulhi p d a b => p.words ++ [⟨0x08#8, d, a, b⟩]
  | .umulhi p d a b => p.words ++ [⟨0x09#8, d, a, b⟩]
  | .imad p d a b => p.words ++ [⟨0x0A#8, d, a, b⟩]
  | .iadd64 p d a b => p.words ++ [⟨0x0B#8, d, a, b⟩]
  | .imin p d a b => p.words ++ [⟨0x0C#8, d, a, b⟩]
  | .imax p d a b => p.words ++ [⟨0x0D#8, d, a, b⟩]
  | .umin p d a b => p.words ++ [⟨0x0E#8, d, a, b⟩]
  | .umax p d a b => p.words ++ [⟨0x0F#8, d, a, b⟩]
  | .and p d a b => p.words ++ [⟨0x10#8, d, a, b⟩]
  | .or p d a b => p.words ++ [⟨0x11#8, d, a, b⟩]
  | .xor p d a b => p.words ++ [⟨0x12#8, d, a, b⟩]
  | .andn p d a b => p.words ++ [⟨0x13#8, d, a, b⟩]
  | .shl p d a b => p.words ++ [⟨0x14#8, d, a, b⟩]
  | .shr p d a b => p.words ++ [⟨0x15#8, d, a, b⟩]
  | .sar p d a b => p.words ++ [⟨0x16#8, d, a, b⟩]
  | .rotl p d a b => p.words ++ [⟨0x17#8, d, a, b⟩]
  | .bfx p d a b => p.words ++ [⟨0x18#8, d, a, b⟩]
  | .bfxs p d a b => p.words ++ [⟨0x19#8, d, a, b⟩]
  | .bfi p d a b => p.words ++ [⟨0x1A#8, d, a, b⟩]
  | .sel p d a b => p.words ++ [⟨0x1B#8, d, a, b⟩]
  | .popc p d a => p.words ++ [⟨0x1C#8, d, a, 0#8⟩]
  | .clz p d a => p.words ++ [⟨0x1D#8, d, a, 0#8⟩]
  | .brev p d a => p.words ++ [⟨0x1E#8, d, a, 0#8⟩]
  | .prmt p d a b => p.words ++ [⟨0x1F#8, d, a, b⟩]
  | .iseteq p d a b => p.words ++ [⟨0x20#8, d, a, b⟩]
  | .isetne p d a b => p.words ++ [⟨0x21#8, d, a, b⟩]
  | .isetlt p d a b => p.words ++ [⟨0x22#8, d, a, b⟩]
  | .isetle p d a b => p.words ++ [⟨0x23#8, d, a, b⟩]
  | .usetlt p d a b => p.words ++ [⟨0x24#8, d, a, b⟩]
  | .usetle p d a b => p.words ++ [⟨0x25#8, d, a, b⟩]
  | .fseteq p d a b => p.words ++ [⟨0x26#8, d, a, b⟩]
  | .fsetne p d a b => p.words ++ [⟨0x27#8, d, a, b⟩]
  | .fsetlt p d a b => p.words ++ [⟨0x28#8, d, a, b⟩]
  | .fsetle p d a b => p.words ++ [⟨0x29#8, d, a, b⟩]
  | .fsetun p d a b => p.words ++ [⟨0x2A#8, d, a, b⟩]
  | .fadd p d a b => p.words ++ [⟨0x30#8, d, a, b⟩]
  | .fsub p d a b => p.words ++ [⟨0x31#8, d, a, b⟩]
  | .fmul p d a b => p.words ++ [⟨0x32#8, d, a, b⟩]
  | .ffma p d a b => p.words ++ [⟨0x33#8, d, a, b⟩]
  | .fmin p d a b => p.words ++ [⟨0x34#8, d, a, b⟩]
  | .fmax p d a b => p.words ++ [⟨0x35#8, d, a, b⟩]
  | .fabs p d a => p.words ++ [⟨0x36#8, d, a, 0#8⟩]
  | .fneg p d a => p.words ++ [⟨0x37#8, d, a, 0#8⟩]
  | .hadd2 p d a b => p.words ++ [⟨0x38#8, d, a, b⟩]
  | .hmul2 p d a b => p.words ++ [⟨0x39#8, d, a, b⟩]
  | .hfma2 p d a b => p.words ++ [⟨0x3A#8, d, a, b⟩]
  | .bfma2 p d a b => p.words ++ [⟨0x3B#8, d, a, b⟩]
  | .fdot2 p d a b => p.words ++ [⟨0x3C#8, d, a, b⟩]
  | .fscale p d a b => p.words ++ [⟨0x3D#8, d, a, b⟩]
  | .fclass p d a => p.words ++ [⟨0x3E#8, d, a, 0#8⟩]
  | .cvt p d a s => p.words ++ [⟨0x40#8, d, a, s⟩]
  | .sfu p d a f => p.words ++ [⟨0x48#8, d, a, f⟩]
  | .dadd p d a b => p.words ++ [⟨0x49#8, d, a, b⟩]
  | .dmul p d a b => p.words ++ [⟨0x4A#8, d, a, b⟩]
  | .dfma p d a b => p.words ++ [⟨0x4B#8, d, a, b⟩]
  | .dmin p d a b => p.words ++ [⟨0x4C#8, d, a, b⟩]
  | .dmax p d a b => p.words ++ [⟨0x4D#8, d, a, b⟩]
  | .dsetlt p d a b => p.words ++ [⟨0x4E#8, d, a, b⟩]
  | .dseteq p d a b => p.words ++ [⟨0x4F#8, d, a, b⟩]
  | .rng p d => p.words ++ [⟨0x50#8, d, 0#8, 0#8⟩]
  | .actv p d a b => p.words ++ [⟨0x51#8, d, a, b⟩]
  | .shfl p d a b => p.words ++ [⟨0x58#8, d, a, b⟩]
  | .shflx p d a b => p.words ++ [⟨0x59#8, d, a, b⟩]
  | .shflu p d a b => p.words ++ [⟨0x5A#8, d, a, b⟩]
  | .shfld p d a b => p.words ++ [⟨0x5B#8, d, a, b⟩]
  | .ballot p d a => p.words ++ [⟨0x5C#8, d, a, 0#8⟩]
  | .redadd p d a => p.words ++ [⟨0x5D#8, d, a, 0#8⟩]
  | .redfadd p d a => p.words ++ [⟨0x5E#8, d, a, 0#8⟩]
  | .redmax p d a => p.words ++ [⟨0x5F#8, d, a, 0#8⟩]
  | .redmin p d a => p.words ++ [⟨0x60#8, d, a, 0#8⟩]
  | .scanadd p d a => p.words ++ [⟨0x61#8, d, a, 0#8⟩]
  | .bxch p d a b => p.words ++ [⟨0x62#8, d, a, b⟩]
  | .frdc p d n => p.words ++ [⟨0x63#8, d, (0#5 ++ n), 0#8⟩]
  | .frdv p d n => p.words ++ [⟨0x64#8, d, (0#5 ++ n), 0#8⟩]
  | .ldb p d a o => p.words ++ [⟨0x68#8, d, a, o⟩]
  | .ldbs p d a o => p.words ++ [⟨0x69#8, d, a, o⟩]
  | .ldh p d a o => p.words ++ [⟨0x6A#8, d, a, o⟩]
  | .ldhs p d a o => p.words ++ [⟨0x6B#8, d, a, o⟩]
  | .ldw p d a o => p.words ++ [⟨0x6C#8, d, a, o⟩]
  | .ldd p d a o => p.words ++ [⟨0x6D#8, d, a, o⟩]
  | .ldq p d a o => p.words ++ [⟨0x6E#8, d, a, o⟩]
  | .stb p d a o => p.words ++ [⟨0x6F#8, d, a, o⟩]
  | .sth p d a o => p.words ++ [⟨0x70#8, d, a, o⟩]
  | .stw p d a o => p.words ++ [⟨0x71#8, d, a, o⟩]
  | .std p d a o => p.words ++ [⟨0x72#8, d, a, o⟩]
  | .stq p d a o => p.words ++ [⟨0x73#8, d, a, o⟩]
  | .stbm p d a o => p.words ++ [⟨0x74#8, d, a, o⟩]
  | .ldt p d a m o => p.words ++ [⟨0x75#8, d, a, (m ++ o)⟩]
  | .stt p d a m o => p.words ++ [⟨0x76#8, d, a, (m ++ o)⟩]
  | .ldtq p d a m o => p.words ++ [⟨0x77#8, d, a, (m ++ o)⟩]
  | .sttq p d a m o => p.words ++ [⟨0x78#8, d, a, (m ++ o)⟩]
  | .ldx p d a o b64 ord sc => pfxWords p ++ [⟨0x79#8, d, a, o⟩, ordWord 0#8 false 0#4 b64 ord.code sc.code]
  | .stx p d a o b64 ord sc => pfxWords p ++ [⟨0x7A#8, d, a, o⟩, ordWord 0#8 false 0#4 b64 ord.code sc.code]
  | .atom p d a b x => pfxWords p ++ [⟨0x7B#8, d, a, b⟩, x.word]
  | .atomt p d a b x => pfxWords p ++ [⟨0x7C#8, d, a, b⟩, x.word]
  | .unop r => uniRepWords r ++ [⟨0x80#8, 0#8, 0#8, 0#8⟩]
  | .umov r d a => uniRepWords r ++ [⟨0x81#8, d, a, 0#8⟩]
  | .umovi r d i => uniRepWords r ++ [⟨0x82#8, d, (i.extractLsb' 8 8), (i.extractLsb' 0 8)⟩]
  | .umovhi r d i => uniRepWords r ++ [⟨0x83#8, d, (i.extractLsb' 8 8), (i.extractLsb' 0 8)⟩]
  | .uiadd r d a b => uniRepWords r ++ [⟨0x84#8, d, a, b⟩]
  | .uisub r d a b => uniRepWords r ++ [⟨0x85#8, d, a, b⟩]
  | .uiaddi r d i => uniRepWords r ++ [⟨0x86#8, d, (i.extractLsb' 8 8), (i.extractLsb' 0 8)⟩]
  | .uimul r d a b => uniRepWords r ++ [⟨0x87#8, d, a, b⟩]
  | .uimad r d a b => uniRepWords r ++ [⟨0x88#8, d, a, b⟩]
  | .uiadd64 r d a b => uniRepWords r ++ [⟨0x89#8, d, a, b⟩]
  | .uminUni r d a b => uniRepWords r ++ [⟨0x8A#8, d, a, b⟩]
  | .umaxUni r d a b => uniRepWords r ++ [⟨0x8B#8, d, a, b⟩]
  | .uand r d a b => uniRepWords r ++ [⟨0x8C#8, d, a, b⟩]
  | .uor r d a b => uniRepWords r ++ [⟨0x8D#8, d, a, b⟩]
  | .uxor r d a b => uniRepWords r ++ [⟨0x8E#8, d, a, b⟩]
  | .ushl r d a b => uniRepWords r ++ [⟨0x8F#8, d, a, b⟩]
  | .ushr r d a b => uniRepWords r ++ [⟨0x90#8, d, a, b⟩]
  | .usar r d a b => uniRepWords r ++ [⟨0x91#8, d, a, b⟩]
  | .ubfx r d a b => uniRepWords r ++ [⟨0x92#8, d, a, b⟩]
  | .ubfi r d a b => uniRepWords r ++ [⟨0x93#8, d, a, b⟩]
  | .upopc r d a => uniRepWords r ++ [⟨0x94#8, d, a, 0#8⟩]
  | .uclz r d a => uniRepWords r ++ [⟨0x95#8, d, a, 0#8⟩]
  | .usel r d a b => uniRepWords r ++ [⟨0x96#8, d, a, b⟩]
  | .uiseteq r d a b => uniRepWords r ++ [⟨0x97#8, d, a, b⟩]
  | .uisetne r d a b => uniRepWords r ++ [⟨0x98#8, d, a, b⟩]
  | .uisetlt r d a b => uniRepWords r ++ [⟨0x99#8, d, a, b⟩]
  | .uisetle r d a b => uniRepWords r ++ [⟨0x9A#8, d, a, b⟩]
  | .uusetlt r d a b => uniRepWords r ++ [⟨0x9B#8, d, a, b⟩]
  | .uusetle r d a b => uniRepWords r ++ [⟨0x9C#8, d, a, b⟩]
  | .jmp o => [⟨0xA0#8, (o.extractLsb' 16 8), (o.extractLsb' 8 8), (o.extractLsb' 0 8)⟩]
  | .call o => [⟨0xA1#8, (o.extractLsb' 16 8), (o.extractLsb' 8 8), (o.extractLsb' 0 8)⟩]
  | .ret => [⟨0xA2#8, 0#8, 0#8, 0#8⟩]
  | .jmpr a => [⟨0xA3#8, 0#8, a, 0#8⟩]
  | .ubrz r o => [⟨0xA4#8, r, (o.extractLsb' 8 8), (o.extractLsb' 0 8)⟩]
  | .ubrnz r o => [⟨0xA5#8, r, (o.extractLsb' 8 8), (o.extractLsb' 0 8)⟩]
  | .ifI r o => [⟨0xA8#8, r, (o.extractLsb' 8 8), (o.extractLsb' 0 8)⟩]
  | .elseI o => [⟨0xA9#8, (o.extractLsb' 16 8), (o.extractLsb' 8 8), (o.extractLsb' 0 8)⟩]
  | .endif => [⟨0xAA#8, 0#8, 0#8, 0#8⟩]
  | .loop o => [⟨0xAB#8, (o.extractLsb' 16 8), (o.extractLsb' 8 8), (o.extractLsb' 0 8)⟩]
  | .brk r => [⟨0xAC#8, r, 0#8, 0#8⟩]
  | .cont r => [⟨0xAD#8, r, 0#8, 0#8⟩]
  | .endloop o => [⟨0xAE#8, (o.extractLsb' 16 8), (o.extractLsb' 8 8), (o.extractLsb' 0 8)⟩]
  | .uany d a => [⟨0xAF#8, d, a, 0#8⟩]
  | .exit => [⟨0xB0#8, 0#8, 0#8, 0#8⟩]
  | .trap n => [⟨0xB1#8, 0#8, 0#8, n⟩]
  | .bkpt n => [⟨0xB2#8, 0#8, 0#8, n⟩]
  | .yield => [⟨0xB3#8, 0#8, 0#8, 0#8⟩]
  | .region live => [⟨0xB4#8, 0#8, 0#8, 0#8⟩, IWord.ofBits (live.extractLsb' 0 32), IWord.ofBits (live.extractLsb' 32 32),
      IWord.ofBits (live.extractLsb' 64 32), IWord.ofBits (live.extractLsb' 96 32), IWord.ofBits (live.extractLsb' 128 32)]
  | .ocld ws => ⟨0xB5#8, BitVec.ofNat 8 ws.length, 0#8, 0#8⟩ :: ws.map IWord.ofBits
  | .ocdrop a b => [⟨0xB6#8, 0#8, a, b⟩]
  | .ocdropAll => [⟨0xB6#8, 1#8, 164#8, 164#8⟩]
  | .alloc d res acc tile regs => [⟨0xB8#8, d, 0#8, 0#8⟩, IWord.ofBits (BitVec.ofBool res ++ 0#4 ++ acc ++ tile ++ regs)]
  | .free => [⟨0xB9#8, 0#8, 0#8, 0#8⟩, ⟨0#8, 0#8, 0#8, 0#8⟩]
  | .srd d s => [⟨0xBA#8, d, 0#8, s⟩]
  | .swr s e => [⟨0xBB#8, s, e.extractLsb' 8 8, e.extractLsb' 0 8⟩]
  | .swrSigclr s => [⟨0xBB#8, s, 0#8, 0x20#8⟩]
  | .rtt => [⟨0xBC#8, 0#8, 0#8, 0#8⟩]
  | .rttHead => [⟨0xBC#8, 0#8, 0#8, 1#8⟩]
  | .uld d a o => [⟨0xC0#8, d, a, o⟩]
  | .uldd d a o => [⟨0xC1#8, d, a, o⟩]
  | .ust d a o => [⟨0xC2#8, d, a, o⟩]
  | .ustd d a o => [⟨0xC3#8, d, a, o⟩]
  | .fence ord sc => [⟨0xC4#8, 0#8, 0#8, 0#8⟩, ordWord 0#8 false 0#4 false ord.code sc.code]
  | .barSync n => [⟨0xC5#8, 0#8, 0#8, 0#4 ++ n⟩, ⟨0#8, 0#8, 0#8, 0#8⟩]
  | .barArv n => [⟨0xC5#8, 0#8, 0#8, 0#4 ++ n⟩, ⟨0#8, 0#8, 0#8, 1#8⟩]
  | .barInit n a => [⟨0xC5#8, 0#8, a, 0#4 ++ n⟩, ⟨0#8, 0#8, 0#8, 2#8⟩]
  | .barx a b sc => [⟨0xC6#8, 0#8, a, b⟩, ordWord 0#8 false 0#4 false 0#3 sc.code]
  | .promote d a b64 sc => [⟨0xC7#8, d, a, 0#8⟩, ordWord 0#8 false 0#4 b64 1#3 sc.code]
  | .uatom d a b x => [⟨0xC8#8, d, a, b⟩, x.word]
  | .seal d a b => [⟨0xC9#8, d, a, b⟩]
  | .reopen d a b => [⟨0xCA#8, d, a, b⟩]
  | .vinv a => [⟨0xCB#8, 0#8, a, 0#8⟩]
  | .vinvAll => [⟨0xCB#8, 1#8, 0#8, 0#8⟩]
  | .actld a t => [⟨0xCC#8, (0#6 ++ t), a, 0#8⟩]
  | .cpy d a b x => ⟨0xD0#8, d, a, b⟩ :: x.words
  | .cpyg d a b x => ⟨0xD1#8, d, a, b⟩ :: x.words
  | .cpys d a b x => ⟨0xD2#8, d, a, b⟩ :: x.words
  | .aseal d => [⟨0xD3#8, d, 0#8, 0#8⟩]
  | .await a => [⟨0xD4#8, 0#8, a, 0#8⟩]
  | .atest d a => [⟨0xD5#8, d, a, 0#8⟩]
  | .tsgive a b => [⟨0xD6#8, 0#8, a, b⟩]
  | .tstake d a => [⟨0xD7#8, d, a, 0#8⟩]
  | .fopen n a b cnt elem => [⟨0xD8#8, 0#5 ++ n, a, b⟩, IWord.ofBits (0#18 ++ elem ++ cnt)]
  | .fadv n => [⟨0xD9#8, 0#8, (0#5 ++ n), 0#8⟩]
  | .fend d n => [⟨0xDA#8, d, (0#5 ++ n), 0#8⟩]
  | .fclose n => [⟨0xDB#8, 0#8, (0#5 ++ n), 0#8⟩]
  | .mma d a b x => ⟨0xE0#8, d, a, b⟩ :: x.words
  | .mmal d a b x ainc binc cinc steps => ⟨0xE1#8, d, a, b⟩ :: (x.words ++ [⟨ainc, binc, cinc, steps⟩])
  | .mbin d a b x => [⟨0xE2#8, d, a, b⟩, x.word, ⟨0#8, 0#8, 0#8, 0#8⟩]
  | .mspr d b fib x => ⟨0xE3#8, d, 0#5 ++ fib, b⟩ :: x.words
  | .msca d a b x => [⟨0xE4#8, d, a, b⟩, IWord.ofBits (x.m ++ x.n ++ x.sfa ++ x.sfb ++ BitVec.ofBool x.zero ++ 0#17)]
  | .mszp d a b x => [⟨0xE5#8, d, a, b⟩, IWord.ofBits (x.m ++ x.n ++ x.sf ++ x.zf ++ BitVec.ofBool x.zero ++ 0#1 ++ x.rs ++ 0#8)]
  | .mzero a b => [⟨0xE6#8, 0#8, a, b⟩]
  | .mrd d a wc col => [⟨0xE7#8, d, a, 0#8⟩, IWord.ofBits (wc ++ col ++ 0#23)]
  | .mwr d a wc col => [⟨0xE8#8, d, a, 0#8⟩, IWord.ofBits (wc ++ col ++ 0#23)]
  | .reservedCodeIssue rep pfx w => rep.toList ++ pfx.toList ++ [w]
  | .configurationRequest .. => []
  | .thermalGateEnd .. => []
  | .msixVectorUnmask .. => []

end Sys2Proof
end

