-- ==== Sys2Proof/Config.lean ====
section
/-! DEFINITION. Config: what this device fixes where the manual leaves a choice, and the free values of the
model. A free value is an opaque function of the model's counter `State.tick` (or of the operands): nothing is
known of it, so a claim holds whatever it is (log entry 3). -/

namespace Sys2Proof.Config

/-- The physical core that each die's repair map disables (R13 leaves it to the fuses; DESIGN CHOICE, log entry 4). -/
def disabledCore : Nat := 16

/-- A free 64-bit value for the counter value given (log entry 3). -/
opaque freeBits : Nat → BitVec 64

/-- The number of cycles that one step takes beyond the first (timing is not modelled; log entry 5). -/
opaque extraCycles : Nat → Nat

/-- Which of the results that R243 allows the SFU delivers: function number, then input bits (log entry 6). -/
opaque sfuChoice : Nat → BitVec 32 → BitVec 32

/-- The word that another device, or the host's memory over CXL.cache, returns for a read (log entry 7). -/
opaque outsideWord : Nat → BitVec 32

/-- What another device's home answers of a granule: sealed with a version, or not sealed (R206, log entry 7). -/
opaque outsideSeal : Nat → Option (BitVec 16)

/-- Bytes that the manual names by their contents and not by their layout, in a Lantern record's entry, a parking record or a block's
context: a function of those contents and of the byte's place (R42, R59, R143, log entries 8, 26 and 69). -/
opaque openContents : List Nat → Nat → BitVec 8

/-- The input buffer of a Lemwyn Link port in flits, which the manual does not give (R26, log entry 20). -/
opaque rxBuffer : Nat

/-- A value that R10 leaves unpredictable, for the counter value given (log entry 9). -/
opaque unpredictable : Nat → BitVec 64

end Sys2Proof.Config
end

