-- ==== Sys2Proof/Machine/State.lean ====
section
/-! DEFINITION. State: everything the manual gives the device, as plain data; the reasons a step may stop; and the
device right after reset. Each field's docstring names its rule; INVENTORY.md lists the fields with their reset
values. Sparse tables are lists in rising key order that list no entry equal to what an absent key reads as. -/

namespace Sys2Proof.Machine

/-! ## Why a step may stop -/

/-- Faults: the machine stops with one of these. -/
inductive Fault where
  /-- Raised by a step when module power is removed (R14): no agent of the module acts. Safe. -/
  | noPower
deriving DecidableEq, Repr

/-- Refusals: the model gives the step no meaning. -/
inductive Refusal where
  /-- Raised by an arm of exec whose instruction has no meaning yet. Safe. -/
  | notModelled (mnemonic : String)
  /-- Raised when a team's instruction is given to exec and the state names no running team. Safe. -/
  | noRunningTeam
deriving DecidableEq, Repr

/-! ## Causes -/

/-- Trap causes with the codes of R220. -/
inductive Cause where
  | illins | illop | regbound | priv | bkpt | trapi | pfault | pprot | viewf | align | tileown | tilebound
  | sealedC | tolview | barovf | batchovf | maskovf | gatherchk | poisont | accbound
deriving DecidableEq, Repr

/-- A cause with its subcause, recorded lane and recorded address (R218, R220). -/
structure TrapInfo where
  cause : Cause
  sub : Nat
  lane : Nat
  addr : Nat
deriving DecidableEq, Repr

/-! ## Memory targets and translation -/

/-- The leaf of a page walk (R212). -/
structure Leaf where
  addr : Nat
  (p sealedP sync x w r : Bool)
  ca : Nat
  tol : Nat
  typ : Nat
deriving DecidableEq, Repr

/-- A TLB entry: address space, virtual page, page size, leaf (R215). `big` is a 512 MiB page. -/
structure TlbEntry where
  asid : Nat
  big : Bool
  vpage : Nat
  leaf : Leaf
deriving DecidableEq, Repr

/-- A walker-cache entry: the table that the walk of `prefixVa` reaches below level `lvl` (R215). -/
structure WalkEntry where
  asid : Nat
  lvl : Nat
  prefixVa : Nat
  table : Nat
deriving DecidableEq, Repr

/-- Where an access of one lane goes once it is translated. `plain` is a base physical address; `tolerant` is the
physical address of the narrowed form of the first word, with its TOL code and the byte offset in that word (R65);
`view` lists the base bit of each accessed view bit, absent where the bit reads as zero (R79, R92), and tells whether
stores carry per-bit enables in every case (R91); `imm` is a value that needs no memory (R353). -/
inductive Loc where
  | plain (pa : Nat)
  | host (pa : Nat)
  | tolerant (pa tol off : Nat)
  | view (sub : Bool) (bits : List (Option Nat))
  | imm (v : Nat)
deriving DecidableEq, Repr

/-- A translated access: place, size in bytes, and the page bits that govern it (R212). -/
structure Tgt where
  loc : Loc
  n : Nat
  va : Nat
  (uncached sync sealedP : Bool)
deriving DecidableEq, Repr

/-! ## Views -/

/-- A view descriptor's fields (R76). -/
structure VDesc where
  (v gchk wr : Bool)
  perm : List Nat
  (elem rank kind base : Nat)
  dims : List Nat
  strides : List Int
  (t0 t1 rowb icnt idxoff : Nat)
deriving DecidableEq, Repr

/-- What a view cache holds of a descriptor: legal, illegal with its VIEWF subcause, or tolerant (R71, R98). -/
inductive VOutcome where
  | legal | illegal (sub : Nat) | tolerantD
deriving DecidableEq, Repr

/-- A view-cache entry (R71). Caches keep the most recently used entry first. -/
structure VEntry where
  view : Nat
  desc : VDesc
  outcome : VOutcome
deriving DecidableEq, Repr

/-- What an operation has read and counted of GATHER views: the index words read, by view and row, and the rows counted
(R92, R93). -/
structure OpViews where
  ix : List (Nat × List (Nat × Word))
  counted : List (Nat × Nat)
deriving DecidableEq, Repr

/-- A bulk request in a view engine (R84): its descriptor version, absent until an engine of the issuing die has taken it,
its run of view sectors, how many are composed, the bytes to write (for a write) with the base bytes and enables that they
have mapped to, the bytes composed so far (for a read) and whether poison reached them, the indices that it has read, and
its composition buffer, newest base sector first, with whether each is poison (R85, R86). -/
structure EngReq where
  view : Nat
  entry : Option VEntry
  (first count done : Nat)
  data : Option (List Byte)
  writes : List (Nat × Byte × Byte)
  out : List Byte
  poison : Bool
  views : OpViews
  buf : List (Nat × List Byte × Bool)
deriving DecidableEq, Repr

/-- A view engine: its 64-entry view cache and the request it composes (R71, R84). -/
structure Engine where
  vcache : List VEntry
  req : Option EngReq
deriving DecidableEq, Repr

/-! ## Caches -/

/-- A word of an L1: its value, dirty and registered bits, whether its registration is still on its way (R183),
whether it lies in a sync block (R191), and the version tag of a sealed remote line (R206). -/
structure L1Word where
  val : Word
  (dirty reg pend sync : Bool)
  ver : Option Nat
deriving DecidableEq, Repr

/-- A word of a Canopy, with the version tag of a sealed remote line and whether it is a host-memory word (R181). -/
structure CanWord where
  val : Word
  host : Bool
  dirty : Bool
  ver : Option Nat
deriving DecidableEq, Repr

/-- A version-cache entry of R206. -/
structure VerEntry where
  (dev granule ver : Nat)
  checked : Bool
deriving DecidableEq, Repr

/-- A seal-table entry: first granule, length in granules, version (R205). -/
structure SealEntry where
  (first len ver : Nat)
deriving DecidableEq, Repr

/-! ## Teams -/

/-- A team's name: queue, sequence number of its launch, block, team number. -/
structure TeamKey where
  (q seq blk num : Nat)
deriving DecidableEq, Repr

/-- The fields of a launch record that the device keeps (R108). -/
structure LaunchCfg where
  (overlap irq inln viewadm : Bool)
  (map asid pc tba ptroot gx gy gz nt tl regs pregs spanS coresN accmax tilemax argva : Nat)
  compHost : Bool
  (compaddr compval bmaddr prodseq scaleS : Nat)
  (lo hi : Int)
  tabaddr : Nat
deriving DecidableEq, Repr

/-- Kinds of control-stack entries (R154). -/
inductive CtlKind where
  | ifK | elseK | loopK
deriving DecidableEq, Repr

/-- A control-stack entry with its saved masks; `other` serves IF, `brk` and `cnt` serve LOOP, and `target` is the
recorded ENDLOOP address (R155, R156, R302). -/
structure CtlEntry where
  kind : CtlKind
  (saved other brk cnt : Mask)
  target : Nat
deriving DecidableEq, Repr

/-- The four latches of the L or X pipe, newest first, in every lane, with their void marks (R161, R162). -/
structure LaneLatches where
  vals : List Lanes
  void : List Bool
deriving DecidableEq, Repr

/-- The four U latches, newest first, with their void marks (R161, R162). -/
structure UniLatches where
  vals : List Word
  void : List Bool
deriving DecidableEq, Repr

/-- A fibre register (R352). -/
structure Fibre where
  isOpen : Bool
  coord : Nat
  value : Option Nat
  (count elem pos : Nat)
deriving DecidableEq, Repr

/-- A team's checkpoint (R167), and whether the team has taken one since it was placed (R145). -/
structure Checkpoint where
  regs : List (Nat × Lanes)
  mask : Mask
  stack : List CtlEntry
  fibres : List Fibre
  rng : List DWord
  head : Nat
  taken : Bool
deriving DecidableEq, Repr

/-- An outstanding lane or uniform load: first destination register, bytes read, sign extension, whether it writes
every lane, whether unread lanes receive zero, and the reads (R324). -/
structure LoadReq where
  dst : Nat
  n : Nat
  signed : Bool
  uni : Bool
  zm : Bool
  entries : Nat
  reads : List (Nat × Tgt)
deriving DecidableEq, Repr

/-- A sealed batch that has not been waited for (R202). -/
structure Batch where
  num : Nat
  ops : List Nat
deriving DecidableEq, Repr

/-- What a parked team waits on (R137); a page fault keeps the fault to deliver, the kind of access and the table level
(R227, R228), the value of `tick` when the team parked and, once a record is open for it, the record's index; BARX keeps the instance of its scope; a load wait
keeps the registers whose missed loads it waits for; `fill` is a wait for view-cache fills and page walks. -/
inductive Park where
  | bar (n : Nat) | barx (scope : Scope) (inst ident : Nat) | batch (k : Nat) | alloc
  | load (regs : List Nat) | fill
  | pageFault (info : TrapInfo) (access lvl since : Nat) (rec : Option Nat)
deriving DecidableEq, Repr

/-- A resident team. `moved` holds after a taken transfer (R162, R163), and `walked` once its next instruction has waited for its
view-cache fills and page walks (R137), which it does once; `issuedAt` is the model's own: the value of `tick` at its last issue. -/
structure Team where
  key : TeamKey
  cfg : LaunchCfg
  (die core part slot : Nat)
  pc : Nat
  repIdx : Nat
  mask : Mask
  stack : List CtlEntry
  regs : List Lanes
  dead : BitVec 160
  latL : LaneLatches
  latX : LaneLatches
  latU : UniLatches
  ocache : List (Nat × Bool)
  rng : List DWord
  status : Word
  trapen : Word
  priv : Bool
  (cause epc faddr flane : Nat)
  tscr : List Word
  smask : Mask
  sdepth : Nat
  ckpt : Checkpoint
  fibres : List Fibre
  allotted : Bool
  accRun : Option (Nat × Nat)
  tileRun : Option (Nat × Nat)
  openOps : List Nat
  batches : List Batch
  nextBatch : Nat
  pending : Option TrapInfo
  loads : List LoadReq
  (sigW sigE0 sigE1 sigE2 : Sig)
  park : Option Park
  active : Bool
  (age entered order : Nat)
  expect : Option Nat
  moved : Bool
  walked : Bool
  issuedAt : Nat
deriving DecidableEq, Repr

/-! ## Blocks and launches -/

/-- A named barrier (R203, R336). -/
structure Barrier where
  (m arrivals pend : Nat)
  sig : Sig
  held : Option Nat
deriving DecidableEq, Repr

/-- The holder of a 4 KiB tile-store unit that is not free: held, offered, or offered once the listed operations of
the giver have completed (R175, R176). -/
inductive UnitOwner where
  | held (t : Nat) | offered (t : Nat) | offering (t : Nat) (ops : List Nat)
deriving DecidableEq, Repr

/-- A resident block: its cores in block-core order, the cores that it ran on before it was restored, the first unit and row of its shares there, their sizes, its
units, its accumulator runs (block core, first row, rows, team), its barriers, and the teams that have not exited
(R127, R128, R175). -/
structure Block where
  (q seq idx : Nat)
  cfg : LaunchCfg
  cores : List Nat
  past : List Nat
  tileBase : List Nat
  tileLen : Nat
  accBase : List Nat
  accLen : Nat
  units : List (Nat × UnitOwner)
  accRuns : List (Nat × Nat × Nat × Nat)
  bars : List Barrier
  live : List Nat
  placed : Nat
deriving DecidableEq, Repr

/-- A block saved by pre-emption with its teams, the contents of its shares by block core, its context's size, and the 4 KiB pages of
the pool that hold the context (R143, R146). -/
structure SavedBlock where
  block : Block
  teams : List Team
  tile : List (List (Nat × Byte))
  acc : List (List (Nat × Word))
  bytes : Nat
  pages : List Nat
deriving DecidableEq, Repr

/-- A launch from its parse to its completion write: the next block to place, the blocks completed, whether its bitmap has
been zeroed, the code of a rejection or abort, its producer's fields, and the dependence-table entry read for a block
(block, FIRST, COUNT) (R115, R117 to R120). -/
structure Launch where
  (q seq : Nat)
  cfg : LaunchCfg
  nextBlk : Nat
  done : List Nat
  prepared : Bool
  err : Option Nat
  producer : Option LaunchCfg
  tab : Option (Nat × Nat × Nat)
deriving DecidableEq, Repr

/-- What the dispatcher keeps of a queue beside its registers: the sequence number of the last record parsed, whether it was
accepted and not aborted, and its fields (R117, R118). -/
structure QueueDyn where
  last : Option (Nat × Bool × LaunchCfg)
deriving DecidableEq, Repr

/-! ## Asynchronous work -/

/-- A page translation that an asynchronous operation took at issue: virtual page number (64 KiB) and leaf (R340). -/
structure PageX where
  vpage : Nat
  base : Nat
  leaf : Leaf
deriving DecidableEq, Repr

/-- One side of a copy: memory by virtual address through the pages taken at issue, or the tile store (R343). -/
inductive Side where
  | mem (va : Nat) (pages : List PageX)
  | tile (addr mode : Nat)
deriving DecidableEq, Repr

/-- The copies and table fills (R343 to R348). A gather keeps the index words read at issue, and its table's counting die where
that is a die of this device. -/
inductive CopyKind where
  | cpy (src dst : Side) (rows bytes sp dp : Nat) (dc : Bool)
  | cpys (eop : Nat) (src dst : Side) (rows bytes sp dp : Nat)
  | cpyg (scatter gchk : Bool) (packed table : Side) (idx : List Nat) (rowb trows : Nat) (cd : Option Nat)
  | actld (table : Nat) (src : Side)
deriving DecidableEq, Repr

/-- Bytes of bank words of the tile store that an operation has read ahead: core, place in its tile store, byte (R358, R382). -/
abbrev EarlyReads := List (Nat × Nat × Byte)

/-- An entry of a core's copy queue: operation number, team, what it does, its barrier, the units done, what it has met of
views, and what it has read ahead (R342). -/
structure CopyOp where
  id : Nat
  team : TeamKey
  kind : CopyKind
  bar : Option Nat
  done : List Nat
  flipped : Bool
  views : OpViews
  early : EarlyReads
deriving DecidableEq, Repr

/-- What is kept of an asynchronous operation until its batch is waited for: completion, causes met after issue, and
the signature of what it wrote (R341, R202). -/
structure OpRec where
  id : Nat
  team : TeamKey
  done : Bool
  causes : List TrapInfo
  sig : Sig
  (posts poison : Bool)
deriving DecidableEq, Repr

/-- A matrix operand: a layout word with its tile-store address, or a handle with view, origin and element width
(R361, R362). -/
inductive MatSrc where
  | layout (addr mode rp pp cp rc : Nat)
  | handle (view row0 col0 : Nat)
deriving DecidableEq, Repr

/-- One MMA of a matrix instruction, with the values read at issue (R366 to R371). -/
structure MmaOp where
  (acc rs : Nat)
  (a b : MatSrc)
  (fa fb m n k : Nat)
  (zero : Bool)
  (pln prec : Nat)
  codebook : List Nat
  cbf : Bool
  (blka blkb : Nat)
  rsum : Bool
deriving DecidableEq, Repr

/-- What a matrix-queue entry does (R359). The repeats of an MMA may hold A, or the rows of c, in the array (R365, R371). -/
inductive MatKind where
  | mma (holdA holdC : Bool) (reps : List MmaOp)
  | mbin (bop : Nat) (op : MmaOp)
  | mspr (fibres : List Fibre) (pages : List PageX) (op : MmaOp)
  | msca (dst src m n sfa sfb : Nat) (zero : Bool) (ta tb : Nat)
  | mszp (dst src m n sf zf : Nat) (zero : Bool) (ts tz rs : Nat)
  | mzero (row count : Nat)
  | mwr (row col w : Nat) (vals : Lanes)
  | mrd (dst row col w : Nat)
deriving DecidableEq, Repr

/-- What the array holds from one repeat of an MMA to the next: the codes of A, and the rows of c (R365, R371). -/
structure Resident where
  a : Option (List (List Nat))
  c : Option (List (List Word))
deriving DecidableEq, Repr

/-- A matrix-queue entry; `ended` marks an MRD that the unit has ended, with the values to write back, and `early` holds what the
operand fetcher has read ahead for its next repeat; a repeat that ends leaves the kind, and `held` is what the array keeps of it
(R358, R365, R371, R380, R382). -/
structure MatOp where
  id : Nat
  team : TeamKey
  kind : MatKind
  ended : Option Lanes
  early : EarlyReads
  held : Resident
deriving DecidableEq, Repr

/-- A bank of an activation table: its launch (queue, SEQ) and its 256 entries; no launch when empty (R177). -/
structure ActBank where
  owner : Option (Nat × Nat)
  entries : List DWord
deriving DecidableEq, Repr

/-- An activation table: two banks and the ACTIVE bit (R177). -/
structure ActTable where
  bank0 : ActBank
  bank1 : ActBank
  active : Bool
deriving DecidableEq, Repr

/-- A waiting ALLOC request: team, registers, issue cycle of arrival, and the pair that takes its results (R135, R311). -/
structure AllocReq where
  team : TeamKey
  regs : Nat
  since : Nat
  dst : Option Nat
deriving DecidableEq, Repr

/-- What a rejected instruction waits for: request entries, a copy-queue entry or a matrix-queue entry (R325, R342, R358). -/
inductive RejKind where
  | entries | copies | matrix
deriving DecidableEq, Repr

/-- An instruction that issue has rejected: team, its address, issue cycle of the first rejection, and the entries that it needs
(R325). -/
structure Reject where
  team : TeamKey
  pc : Nat
  since : Nat
  kind : RejKind
  need : Nat
deriving DecidableEq, Repr

/-- A core (number 16 × die + logical core). -/
structure Core where
  l1 : List (Nat × L1Word)
  tlb : List TlbEntry
  vcache : List VEntry
  icache : List (Nat × Word)
  tables : List ActTable
  clock : BitVec 48
  allocQ : List AllocReq
  copyQ : List CopyOp
  matQ : List MatOp
  rejects : List Reject
  tile : List (Nat × Byte)
  acc : List (Nat × Word)
deriving DecidableEq, Repr

/-- An entry of a die's error log, with whether it has been read (R21). -/
structure LogEntry where
  cycle : Nat
  agent : Word
  (code detail addr : Nat)
  wasRead : Bool
deriving DecidableEq, Repr

/-- A BARX entry: scope, instance, identity, count, arrivals, signature (R337). -/
structure BarxEntry where
  scope : Scope
  (inst ident count arrivals : Nat)
  sig : Sig
deriving DecidableEq, Repr

/-- A die. `single` is the one trained stack of a die that came up with the map of R47; `gating` says which of the first seven of
every eight cycles are gated, and `issueCycle` counts the cycles that are not, in which the manual's timings run (R15); `sweepDue` holds from a Brim epoch
boundary to the die's sweep (R192). -/
structure Die where
  up : Bool
  single : Option Nat
  cycle : Nat
  issueCycle : Nat
  gating : BitVec 7
  log : List (Option LogEntry)
  canopy : List (Nat × CanWord)
  tlb2 : List TlbEntry
  walks : List WalkEntry
  tolMap : List Nat
  seals : List SealEntry
  sealVer : Nat
  versions : List VerEntry
  engines : List Engine
  engWait : List EngReq
  sweepDue : Bool
deriving DecidableEq, Repr

/-- A bank under self-test or retained: pseudo-channel, bank group, bank, pattern, rows copied (R60). -/
structure Parked where
  (pch bg bank pattern rows : Nat)
  restoring : Bool
deriving DecidableEq, Repr

/-- A DRAM stack's controller: refresh debt and peak by channel, layer temperatures, the channels that tick at TREFI / 4,
parked bank, the scrubber's next sector and its pending write-back (sector, whether it is cancelled, corrected bytes), rows repaired, and saved interface training (R56, R57,
R58, R60, R63). -/
structure Stack where
  debt : List Int
  peak : List Int
  temps : List LayerTemp
  quarter : List Bool
  parked : Option Parked
  scrubAt : Nat
  scrubWb : Option (Nat × Bool × List Byte)
  repairs : List (Nat × Nat × Nat × Nat)
  trainingSaved : Bool
deriving DecidableEq, Repr

/-- A Lemwyn Link port: next sequence number to send, replay buffer with how often each flit was retransmitted, whether a
STOP holds, next sequence number expected, a NAK to send, the flits in its input buffer, and whether it has set STOP and
not GO since (R24 to R26). -/
structure Port where
  txSeq : Nat
  replay : List (Nat × List Byte × Nat)
  stopped : Bool
  rxExpect : Nat
  nak : Bool
  held : Nat
  choked : Bool
deriving DecidableEq, Repr

/-- An open fault record: index, ASID, virtual page, whether it has been written (R227). -/
structure PfRec where
  (idx asid page : Nat)
deriving DecidableEq, Repr

/-- What goes to the host over the host link: completion and notification writes, written-back host words, MSI-X messages,
read data, register values, answers to configuration requests, and back-invalidations of a device line that the host holds
(R22, R103, R104, R122, R227). -/
inductive HostMsg where
  | hostWrite (addr : Nat) (val : DWord)
  | hostWord (addr : Nat) (val : Word)
  | msix (entry : Nat)
  | readData (addr : Nat) (bytes : List Byte) (poisoned : Bool)
  | regData (v : DWord)
  | configRetry
  | configDone
  | configData (v : Word)
  | backInvalidate (line : Nat)
deriving DecidableEq, Repr

/-- What the device sends to the outside: traffic of the host link, with whether IDE protects it (R23); what a view engine
has composed; link flits; and accesses to other devices (R22, R24, R85). -/
inductive OutMsg where
  | host (ide : Bool) (m : HostMsg)
  | composed (view first : Nat) (bytes : List Byte) (poisoned : Bool)
  | flit (port : Nat) (bytes : List Byte)
  | delivered (port : Nat) (bytes : List Byte)
  | remoteWrite (addr : Nat) (val mask : Byte)
  | announce (a : Agent) (inc : Nat)
deriving DecidableEq, Repr

/-- An act of the agenda: an event step, the next instruction of the team at a place in the team list, the host's read of
a register of BAR0 (R6, R102), or an asynchronous operation's read of a bank word of a core's tile store ahead of its other reads
(R201, R358, R382). -/
inductive Act where
  | ev (i : Instr)
  | issue (k : Nat)
  | readReg (off : Nat)
  | readAhead (id core word : Nat)
deriving DecidableEq, Repr

/-- An MSI-X vector: message address, data, mask bit and pending bit (R104). -/
structure MsixVec where
  addr : DWord
  data : Word
  (masked pending : Bool)
deriving DecidableEq, Repr

/-- A Lantern dump still to be written: the cycle count and MODSTAT at entry to the fatal state, whether the area held an
unacknowledged dump then, and the resident teams as they stood (R38 to R42). -/
structure DumpDue where
  cycle : Nat
  modstat : DWord
  unacked : Bool
  teams : List Team
deriving DecidableEq, Repr

/-- The host link's configuration: the addresses of BAR0, BAR2 and BAR4, the MSI-X enable and function-mask bits, and
whether CXL.cache is enabled (R102, R104, R213). -/
structure HostCfg where
  bars : List DWord
  (msixEnable msixMask cxlCache : Bool)
deriving DecidableEq, Repr

/-! ## The device -/

/-- The whole device. `agenda`, `cur`, `tick`, `turn`, `nextId` and `outbox` are the model's own; every other field is the
manual's. -/
structure State where
  /-- Module power is on (R14). -/
  powered : Bool
  /-- The model's own: acts still to come, in their order (log entry 2). -/
  agenda : List Act
  /-- The model's own: place in `teams` of the team whose instruction runs. -/
  cur : Nat
  /-- The model's own: the free-value counter (log entry 3). -/
  tick : Nat
  /-- The model's own: acts that the default order has taken, whose parity alternates issue and other work. -/
  turn : Nat
  /-- The model's own: the next asynchronous-operation number. -/
  nextId : Nat
  /-- The model's own: what has been sent outside, newest first. -/
  outbox : List OutMsg
  /-- The module register block by offset; a register that is not listed holds its reset value (R16 to R21, R27 to R32, R40,
  R53 to R64, R75, R99, R101, R106, R116, R148, R216, R229 to R231, R356). -/
  mregs : List (Nat × DWord)
  /-- Events counted towards the next unit of a counter that counts in units, by 64 × offset + low bit (R20, R55, R101,
  R356). -/
  residues : List (Nat × Nat)
  /-- MSI-X table and pending-bit array (R104). -/
  msix : List MsixVec
  /-- The host link's configuration (R102, R104, R213). -/
  hostCfg : HostCfg
  /-- Device lines that the host holds over CXL.mem, rising (R22). -/
  hostLines : List Nat
  /-- The fused device identity key (R36). -/
  identityKey : Nat
  /-- IDE keys are programmed (R23). -/
  ideKeys : Bool
  /-- A Lantern dump is still to be written (R38, R41). -/
  dumpDue : Option DumpDue
  /-- The last bring-up followed cold power-on (R33, R69). -/
  coldBoot : Bool
  /-- The dies (R12). -/
  dies : List Die
  /-- The 64 logical cores (R13). -/
  cores : List Core
  /-- The 8 stack controllers (R43). -/
  stks : List Stack
  /-- The 24 Lemwyn Link ports (R24). -/
  ports : List Port
  /-- DRAM bytes by location in the stacks (R43, R46). -/
  dram : List Host.Cell
  /-- Dirty bytes of the home L2s by device-local address (R181). -/
  l2 : List Host.Cell
  /-- Sectors that the home L2s hold clean, by device-local sector number, rising (R181). -/
  l2held : List Nat
  /-- Locations of poisoned sectors, rising (R62). -/
  poison : List Nat
  /-- The registrant of each registered word: word address, core (R183). -/
  registrants : List (Nat × Nat)
  /-- Views whose descriptor was written out of the order of R74, rising: what a fill reads of one is unpredictable (R10). -/
  tornViews : List Nat
  /-- Record slots that the host wrote out of the order of R113, by address, rising (R10). -/
  tornSlots : List Nat
  /-- The 64 launch queues (R105). -/
  queues : List QueueDyn
  /-- Launches not yet completed, oldest first (R117). -/
  launches : List Launch
  /-- Resident blocks, oldest placement first (R126). -/
  blocks : List Block
  /-- Blocks saved in the context pool (R146). -/
  saved : List SavedBlock
  /-- Resident teams. -/
  teams : List Team
  /-- Records of asynchronous operations (R341). -/
  ops : List OpRec
  /-- Open BARX entries of every scope instance (R337). -/
  barx : List BarxEntry
  /-- Open fault records (R227). -/
  pfOpen : List PfRec
  /-- When each agent was last heard, by agent, in cycles (R30). -/
  heard : List (Agent × Nat)
  /-- Agents declared dead (R30). -/
  deadAgents : List Agent
  /-- Current incarnations learnt from other devices (R29, R32). -/
  peerInc : List (Nat × Nat)
  /-- The queue last served at each priority (R123). -/
  lastQueue : List Nat
  /-- Blocks placed so far, which orders placements (R136). -/
  placeCount : Nat
deriving DecidableEq, Repr

/-! ## Reset -/

/-- Reset value of the module register at an offset (R7 and the Reset columns; REPAIRd by log entry 4). -/
def mregReset (off : Nat) : DWord :=
  if 0x20 ≤ off ∧ off ≤ 0x38 ∧ off % 8 = 0 then BitVec.ofNat 64 (2 ^ Config.disabledCore)
  else if off = 0x200 then 0x1FB7FE0000#64
  else if 0x1000 ≤ off ∧ off < 0x1400 ∧ off % 0x80 = 0 then 390#64
  else if 0x1000 ≤ off ∧ off < 0x1400 ∧ off % 0x80 = 0x20 then 0x10018#64
  else if 0x1800 ≤ off ∧ off < 0x1C00 ∧ off % 0x10 = 8 then 0xE#64
  else 0#64

def ActBank.reset : ActBank := ⟨none, []⟩
def ActTable.reset : ActTable := ⟨ActBank.reset, ActBank.reset, false⟩

def Core.reset : Core :=
  { l1 := [], tlb := [], vcache := [], icache := [], tables := List.replicate 4 ActTable.reset, clock := 0#48,
    allocQ := [], copyQ := [], matQ := [], rejects := [], tile := [], acc := [] }

def Engine.reset : Engine := ⟨[], none⟩

def Die.reset : Die :=
  { up := false, single := none, cycle := 0, issueCycle := 0, gating := 0#7, log := List.replicate 64 none, canopy := [], tlb2 := [],
    walks := [], tolMap := [], seals := [], sealVer := 0, versions := [], engines := List.replicate 4 Engine.reset,
    engWait := [], sweepDue := false }

def Stack.reset : Stack :=
  { debt := List.replicate 32 0, peak := List.replicate 32 0, temps := List.replicate 16 .below85,
    quarter := List.replicate 32 false, parked := none, scrubAt := 0, scrubWb := none, repairs := [], trainingSaved := false }

def Port.reset : Port := ⟨0, [], false, 0, false, 0, false⟩

def HostCfg.reset : HostCfg := ⟨[0#64, 0#64, 0#64], false, false, false⟩

/-- The device right after cold power-on: SVC 0, no die up, no stack trained, nothing resident (R7, R33). -/
def State.reset : State :=
  { powered := true, agenda := [], cur := 0, tick := 0, turn := 0, nextId := 0, outbox := [], mregs := [], residues := [],
    msix := List.replicate 65 ⟨0#64, 0#32, true, false⟩, hostCfg := HostCfg.reset, hostLines := [],
    identityKey := 0, ideKeys := false, dumpDue := none, coldBoot := true,
    dies := List.replicate 4 Die.reset, cores := List.replicate 64 Core.reset,
    stks := List.replicate 8 Stack.reset, ports := List.replicate 24 Port.reset,
    dram := [], l2 := [], l2held := [], poison := [], registrants := [], tornViews := [], tornSlots := [],
    queues := List.replicate 64 ⟨none⟩, launches := [], blocks := [], saved := [], teams := [], ops := [],
    barx := [], pfOpen := [], heard := [], deadAgents := [], peerInc := [], lastQueue := List.replicate 8 63,
    placeCount := 0 }

end Sys2Proof.Machine
end

