-- ==== Sys2Proof/Machine/Store.lean ====
section
/-! DEFINITION. Store: sparse tables in rising key order, and byte memories in the one canonical form (no entry equal to
what an unlisted address reads as). An unlisted DRAM byte reads as 0 (DESIGN CHOICE, log entry 1). -/

namespace Sys2Proof.Machine

/-! ## Sparse tables -/

/-- The value that a table lists at a key. -/
def look {α : Type} (k : Nat) : List (Nat × α) → Option α
  | [] => none
  | (j, v) :: r => if j = k then some v else look k r

/-- The table with the value at the key. -/
def put {α : Type} (k : Nat) (v : α) : List (Nat × α) → List (Nat × α)
  | [] => [(k, v)]
  | (j, w) :: r => if k < j then (k, v) :: (j, w) :: r else if k = j then (k, v) :: r else (j, w) :: put k v r

/-- The table without the key. -/
def del {α : Type} (k : Nat) : List (Nat × α) → List (Nat × α)
  | [] => []
  | (j, w) :: r => if j = k then del k r else (j, w) :: del k r

/-- The keys rise strictly. -/
def rising {α : Type} : List (Nat × α) → Bool
  | [] => true
  | [_] => true
  | (j, _) :: (k, w) :: r => decide (j < k) && rising ((k, w) :: r)

/-- A number added to a set of numbers in rising order. -/
def insertNat (n : Nat) : List Nat → List Nat
  | [] => [n]
  | m :: r => if n < m then n :: m :: r else if n = m then m :: r else m :: insertNat n r

/-! ## Byte memories -/

abbrev Memory := List Host.Cell

/-- What an unlisted DRAM byte reads as (DESIGN CHOICE, log entry 1). -/
def Memory.fill : Byte := 0#8

def Memory.read (m : Memory) (a : Nat) : Byte := (look a m).getD Memory.fill

def Memory.write (m : Memory) (a : Nat) (b : Byte) : Memory := if b = Memory.fill then del a m else put a b m

/-- The canonical form: addresses strictly rising, and no entry equal to what an unlisted address reads as. -/
def Memory.wf (m : Memory) : Bool := rising m && m.all fun c => c.2 != Memory.fill

/-- `n` bytes from an address. -/
def Memory.readN (m : Memory) (a : Nat) : Nat → List Byte
  | 0 => []
  | n + 1 => m.read a :: m.readN (a + 1) n

/-- Bytes written from an address. -/
def Memory.writeN (m : Memory) (a : Nat) : List Byte → Memory
  | [] => m
  | b :: bs => Memory.writeN (m.write a b) (a + 1) bs

/-! ## Lists by place -/

/-- The list with its element at a place replaced by its image. -/
def modifyAt {α : Type} (f : α → α) : Nat → List α → List α
  | _, [] => []
  | 0, x :: xs => f x :: xs
  | n + 1, x :: xs => x :: modifyAt f n xs

/-- The elements up to a place, and that element moved to the front (a least-recently-used list). -/
def frontOf {α : Type} (p : α → Bool) (xs : List α) : List α := xs.filter p ++ xs.filter (!p ·)

end Sys2Proof.Machine
end

