-- ==== Sys2Proof/Machine/MReg.lean ====
section
/-! DEFINITION. MReg: the module register block (R6 to R8, R16 to R21), its fields, counters, and the error log. -/

namespace Sys2Proof.Machine

/-! ## Registers and fields -/

/-- The module register at an offset. -/
def State.mreg (s : State) (off : Nat) : DWord := (look off s.mregs).getD (mregReset off)

def State.setMreg (s : State) (off : Nat) (v : DWord) : State := { s with mregs := put off v s.mregs }

/-- Field [lo + w − 1 : lo] of a value. -/
def fieldOf (v : Nat) (lo w : Nat) : Nat := v / 2 ^ lo % 2 ^ w

/-- A value with a field replaced. -/
def withField (v lo w x : Nat) : Nat :=
  v / 2 ^ (lo + w) * 2 ^ (lo + w) + x % 2 ^ w * 2 ^ lo + v % 2 ^ lo

def State.field (s : State) (off lo w : Nat) : Nat := fieldOf (s.mreg off).toNat lo w

def State.setField (s : State) (off lo w x : Nat) : State :=
  s.setMreg off (BitVec.ofNat 64 (withField (s.mreg off).toNat lo w x))

/-- A counter field raised by `n`, saturating at all ones (R19, R20, R27, R54). -/
def State.count (s : State) (off lo w n : Nat) : State :=
  s.setField off lo w (min (s.field off lo w + n) (2 ^ w - 1))

/-- A counter that counts in units of 1,024 (R20, R55). -/
def State.countUnits (s : State) (off lo w n : Nat) : State :=
  let key := 64 * off + lo
  let r := (look key s.residues).getD 0 + n
  let s := { s with residues := put key (r % 1024) s.residues }
  s.count off lo w (r / 1024)

/-! ## Offsets -/

def MODSTAT : Nat := 0x0
def MODCTL : Nat := 0x8
def INCARN : Nat := 0x10
def ERRCNT0 : Nat := 0x40
def ERRCNT1 : Nat := 0x48
def LANTSTAT : Nat := 0x50
def LLEN : Nat := 0x58
def REPAIR (d : Nat) : Nat := 0x20 + 8 * d
def LLSTAT (p : Nat) : Nat := 0x100 + 8 * p
def CNT (d i : Nat) : Nat := 0x400 + 0x100 * d + 8 * i
def ELOGCTL (d : Nat) : Nat := 0x800 + 0x40 * d
def DIEINC (d : Nat) : Nat := 0xA00 + 8 * d
def COREINC (c : Nat) : Nat := 0xB00 + 0x80 * (c / 16) + 8 * (c % 16)
def STK (n r : Nat) : Nat := 0x1000 + 0x80 * n + r
def SHBASE (d i : Nat) : Nat := 0x1800 + 0x100 * d + 0x10 * i
def SHCFG (d i : Nat) : Nat := 0x1808 + 0x100 * d + 0x10 * i

/-! ## Counters of the die's bank (R20) -/

inductive DieCnt where
  | gated | issue | l1miss | l2miss | canhit | canmiss | vcmiss | tlbmiss | walks | reject | allocwait | sweeps
  | fullacq | eloglost
deriving DecidableEq, Repr

def DieCnt.index : DieCnt → Nat
  | .gated => 0 | .issue => 1 | .l1miss => 2 | .l2miss => 3 | .canhit => 4 | .canmiss => 5 | .vcmiss => 6
  | .tlbmiss => 7 | .walks => 8 | .reject => 9 | .allocwait => 10 | .sweeps => 11 | .fullacq => 12 | .eloglost => 13

def State.countDie (s : State) (d : Nat) (c : DieCnt) (n : Nat := 1) : State := s.count (CNT d c.index) 0 64 n

/-- DROP, POISDEL, UNCORR and CORR of the module (R19). -/
def State.countDrop (s : State) (n : Nat := 1) : State := s.count ERRCNT1 32 32 n
def State.countPoison (s : State) : State := s.count ERRCNT1 0 32 1
def State.countUncorr (s : State) : State := s.count ERRCNT0 32 32 1
def State.countCorr (s : State) : State := s.count ERRCNT0 0 32 1

/-! ## Service state (R16) -/

/-- SVC: 0 down, 1 reduced, 2 full, 3 fatal. -/
def State.svc (s : State) : Nat := s.field MODSTAT 0 2
def State.stackTrained (s : State) (n : Nat) : Bool := s.field MODSTAT (8 + n) 1 == 1
def State.stackCalibrated (s : State) (n : Nat) : Bool := s.field MODSTAT (16 + n) 1 == 1

/-- Device number and incarnation (R31, R231). -/
def DEVNUM : Nat := 0x18
def State.devnum (s : State) : Nat := s.field DEVNUM 0 10

/-! ## Parts by number -/

def State.die (s : State) (d : Nat) : Die := (s.dies[d]?).getD Die.reset
def State.core (s : State) (c : Nat) : Core := (s.cores[c]?).getD Core.reset
def State.stk (s : State) (n : Nat) : Stack := (s.stks[n]?).getD Stack.reset
def State.setDie (s : State) (d : Nat) (x : Die) : State := { s with dies := s.dies.set d x }
def State.setCore (s : State) (c : Nat) (x : Core) : State := { s with cores := s.cores.set c x }
def State.setStk (s : State) (n : Nat) (x : Stack) : State := { s with stks := s.stks.set n x }
def State.modCore (s : State) (c : Nat) (f : Core → Core) : State := s.setCore c (f (s.core c))
def State.modDie (s : State) (d : Nat) (f : Die → Die) : State := s.setDie d (f (s.die d))

def State.emit (s : State) (m : OutMsg) : State := { s with outbox := m :: s.outbox }

/-- Traffic of the host link is IDE-protected once keys are programmed (R23, log entry 89). -/
def State.emitHost (s : State) (m : HostMsg) : State := s.emit (.host s.ideKeys m)

/-- A fresh free value: the counter moves on (log entry 3). -/
def State.nextTick (s : State) : State := { s with tick := s.tick + 1 }

/-! ## Error log (R21) -/

/-- The agent word of R42, bytes 8–11. The log names a die alone where no core is concerned: core, partition and index are
then 0 (DESIGN CHOICE, log entry 90). -/
def agentWord (die core part index : Nat) : Word :=
  BitVec.ofNat 32 (die % 4 * 2 ^ 30 + core % 16 * 2 ^ 26 + part % 8 * 2 ^ 23 + index % 2 ^ 16)

/-- An entry in ring order; an overwritten entry that was not read counts in ELOGLOST. -/
def State.logError (s : State) (d : Nat) (agent : Word) (code detail addr : Nat) : State :=
  let e : LogEntry := ⟨(s.die d).cycle, agent, code, detail, addr, false⟩
  let k := s.field (ELOGCTL d) 8 6
  let lost := match ((s.die d).log[k]?).join with
    | some old => !old.wasRead
    | none => false
  let s := s.modDie d fun x => { x with log := x.log.set k (some e) }
  let s := if lost then s.countDie d .eloglost else s
  (s.setField (ELOGCTL d) 8 6 (k + 1)).count (ELOGCTL d) 32 16 1

/-- A die is declared dead (R30). -/
def State.dieDead (s : State) (d : Nat) : Bool := s.deadAgents.contains (.die (BitVec.ofNat 2 d))

/-- The die whose log takes an entry of die `d`: the lowest other die stands in for a dead one (DESIGN CHOICE, log entry 90). -/
def logDie (s : State) (d : Nat) : Nat := if s.dieDead d then (if d = 0 then 1 else 0) else d

/-- A poisoned sector is delivered to a requester: POISDEL, and code 0x0007 in the log of the home die, or of the
requester's die for another device's sector (R37, R62). -/
def State.deliverPoison (s : State) (d : Nat) (addr : Nat) : State :=
  (s.countPoison).logError (logDie s d) (agentWord d 0 0 0) 7 0 addr

/-! ## Heartbeats (R30) -/

/-- When an agent was last heard. -/
def heardAt (s : State) (a : Agent) : Nat := ((s.heard.find? fun x => x.1 == a).map (·.2)).getD 0
def noteHeard (s : State) (a : Agent) : State :=
  { s with heard := (a, (s.die 0).cycle) :: s.heard.filter fun x => x.1 != a }

/-- A request, registration or write-back of a core is a message of the core and of its die. -/
def State.hear (s : State) (c : Nat) : State :=
  noteHeard (noteHeard s (.core (BitVec.ofNat 6 c))) (.die (BitVec.ofNat 2 (c / 16)))

/-! ## Queue registers (R106) -/

def QBASE (q : Nat) : Nat := 0x8000 + 0x20 * q
def QCTL (q : Nat) : Nat := 0x8008 + 0x20 * q
def QSEQ (q : Nat) : Nat := 0x8010 + 0x20 * q
def QSTAT (q : Nat) : Nat := 0x8018 + 0x20 * q
def LERR : Nat := 0x8800
def LCNT : Nat := 0x8808

def queueEnabled (s : State) (q : Nat) : Bool := s.field (QCTL q) 0 1 == 1
def queueAborting (s : State) (q : Nat) : Bool := s.field (QCTL q) 15 1 == 1
def queuePrio (s : State) (q : Nat) : Nat := s.field (QCTL q) 8 3

/-- The slot that the queue parses next. -/
def headSlot (s : State) (q : Nat) : Nat := s.field (QBASE q) 16 23 * 65536 + 256 * (s.field (QSEQ q) 0 32 % 256)

/-- An accepted launch, whether aborted or not, is held until its completion is written (R117, R125). -/
def Launch.held (l : Launch) : Bool := l.err.isNone || l.err == some 0x40

/-- A queue's held launches, oldest first. -/
def heldBy (s : State) (q : Nat) : List Launch := s.launches.filter fun l => l.q == q && l.held

end Sys2Proof.Machine
end

