-- ==== Sys2Proof/Machine/Place.lean ====
section
/-! DEFINITION. Place: where a device-local address lies in the stacks (R43 to R48, R51), the redirection of a parked
bank (R59, R60), and sectors as the controllers read and write them (R50, R55, R62). -/

namespace Sys2Proof.Machine

/-- Home die and die offset of a device-local address (R45). -/
def homeDie (a : Nat) : Nat := a / 2 ^ 37 % 4
def dieOffset (a : Nat) : Nat := a % 2 ^ 37

/-- A sector's place: stack, pch, bank group, bank, row, column (R43). -/
structure Spot where
  (stack pch bg bank row col : Nat)
deriving DecidableEq, Repr

/-- Number of the sector among all sectors of the device. -/
def Spot.sector (x : Spot) : Nat :=
  ((((x.stack * 64 + x.pch) * 4 + x.bg) * 4 + x.bank) * 65536 + x.row) * 32 + x.col

def Spot.ofSector (n : Nat) : Spot :=
  ⟨n / (2 ^ 31) % 8, n / 2 ^ 25 % 64, n / 2 ^ 23 % 4, n / 2 ^ 21 % 4, n / 32 % 65536, n % 32⟩

/-- The channel group of R46. -/
def chanGroup (a : Nat) : Nat := fieldOf a 7 5 ^^^ fieldOf a 17 5 ^^^ fieldOf a 27 5

/-- The map of R46 for die `d`. -/
def map46 (d a : Nat) : Spot :=
  let g := chanGroup a
  ⟨2 * d + g / 16, 4 * (g % 16) + fieldOf a 5 2, fieldOf a 17 2, fieldOf a 19 2, fieldOf a 21 16, fieldOf a 12 5⟩

/-- The lowest-numbered enabled shape record that covers a die offset: (ROWSH, TROWSH) (R51). -/
def shapeAt (s : State) (d a : Nat) : Option (Nat × Nat) :=
  (List.range 16).findSome? fun i =>
    let base := s.field (SHBASE d i) 21 16 * 2 ^ 21
    let len := s.field (SHCFG d i) 48 16 * 2 ^ 21
    if s.field (SHCFG d i) 0 1 = 1 ∧ base ≤ a ∧ a < base + len then
      some (s.field (SHCFG d i) 1 5, s.field (SHCFG d i) 8 3)
    else none

/-- The map of R46 as the shape records modify it (R51). -/
def mapShaped (s : State) (d a : Nat) : Spot :=
  let x := map46 d a
  match shapeAt s d a with
  | some (rowsh, trowsh) =>
    if 21 ≤ rowsh then
      let k := a / 2 ^ rowsh % 2 ^ min trowsh 4
      { x with bg := x.bg ^^^ (k % 4), bank := x.bank ^^^ (k / 4) }
    else x
  | none => x

/-- The map of R47 onto one trained stack; none for the offsets it does not place. -/
def map47 (stack a : Nat) : Option Spot :=
  let at' (b : Nat) : Spot :=
    let x := map46 0 b
    { x with stack := stack, row := x.row % 2 ^ 15 + chanGroup b / 16 * 2 ^ 15 }
  if a < 0x0F80000000 then some (at' a)
  else if 0x1F80000000 ≤ a then some (at' (a - 0x1000000000))
  else none

/-- The place that a die's map in force gives a die offset, before parking (R48); none while the die is down or dead, whose
home memory no request reaches (R34, R207). -/
def placeRaw (s : State) (d a : Nat) : Option Spot :=
  let x := s.die d
  if !x.up || s.dieDead d then none
  else match x.single with
    | some n => map47 n a
    | none => some (mapShaped s d a)

/-! ## Parking (R59, R60) -/

/-- First die offset of a die's parking area. -/
def parkBase (d : Nat) : Nat := if d = 0 then 0x1FB8000000 else 0x1FF8000000

/-- Sectors of the area before its `i`th that R46 maps to the bank: one in each 4 KiB of one 128 KiB in each 2 MiB. -/
def parkSkipped (d : Nat) (p : Parked) (stack i : Nat) : Nat :=
  let upTo (n : Nat) : Nat :=
    let chunk := n / 65536
    let inBlock := n % 65536 / 4096
    let blk := 4 * p.bank + p.bg
    let base := parkBase d + chunk * 2 ^ 21 + blk * 2 ^ 17
    let want := 16 * (stack % 2) + p.pch / 4
    let slot := 4 * (want ^^^ fieldOf base 17 5 ^^^ fieldOf base 27 5) + p.pch % 4
    let part := if inBlock < blk then 0 else if blk < inBlock then 32
      else n % 4096 / 128 + (if slot < n % 128 then 1 else 0)
    chunk * 32 + part
  upTo i - upTo 128

/-- Whether R46 maps a die offset to the parked bank. -/
def inBank (p : Parked) (stack : Nat) (x : Spot) : Bool :=
  x.stack == stack && x.pch == p.pch && x.bg == p.bg && x.bank == p.bank

/-- Sector number in the area, from its start, that holds the bank's sector `k`: the least `i` past the parking record
with `k` unskipped sectors before it and itself unskipped. -/
def parkSlot (d : Nat) (p : Parked) (stack k : Nat) : Nat :=
  let step (i : Nat) : Nat := 128 + k + parkSkipped d p stack (i + 1)
  (List.range 8).foldl (fun i _ => step i) (128 + k)

/-- Whether accesses to a row of the parked bank go to the area now. -/
def Parked.redirects (p : Parked) (row : Nat) : Bool :=
  if p.restoring then decide (p.rows ≤ row) else decide (row < p.rows)

/-- The place where a sector of the parked bank is kept in the area. -/
def parkSpot (s : State) (p : Parked) (x : Spot) : Option Spot :=
  let d := x.stack / 2
  placeRaw s d (parkBase d + 32 * parkSlot d p x.stack (x.row * 32 + x.col))

/-- The sector that an access to a spot reaches (R60). -/
def redirect (s : State) (x : Spot) : Option Spot :=
  match (s.stk x.stack).parked with
  | some p => if inBank p x.stack x && p.redirects x.row then parkSpot s p x else some x
  | none => some x

/-- The sector that holds a device-local address, or none where the map places nothing (R34). -/
def place (s : State) (a : Nat) : Option Nat :=
  if 2 ^ 39 ≤ a then none
  else ((placeRaw s (homeDie a) (dieOffset a)).bind (redirect s)).map Spot.sector

/-! ## Sectors -/

/-- Stack of a sector number. -/
def sectorStack (n : Nat) : Nat := n / 2 ^ 31 % 8

def State.isPoisoned (s : State) (n : Nat) : Bool := s.poison.contains n
def State.markPoison (s : State) (n : Nat) : State := { s with poison := insertNat n s.poison }
def State.clearPoison (s : State) (n : Nat) : State := { s with poison := s.poison.filter (· != n) }

/-- A burst on a stack: RDSEC or WRSEC, and an activation or a closed row where the controller's page policy, which the
manual leaves open, makes one (R55, log entry 5). -/
def State.countBurst (s : State) (stack lo : Nat) : State :=
  let s := s.countUnits (STK stack 0x38) lo 32 1
  let f := Config.freeBits s.tick
  let act := if f.getLsbD 0 then 1 else 0
  let confl := if f.getLsbD 0 && f.getLsbD 1 then 1 else 0
  let s := (s.countUnits (STK stack 0x40) 32 32 act).count (STK stack 0x40) 0 32 confl
  s.nextTick

/-- The bytes of a sector as stored. -/
def State.sectorBytes (s : State) (n : Nat) : List Byte := Memory.readN s.dram (32 * n) 32

/-- A demand write to the sector that the scrubber is about to write back cancels the write-back (R63). -/
def State.cancelScrub (s : State) (n : Nat) : State :=
  let k := s.stk (sectorStack n)
  match k.scrubWb with
  | some (m, _, bs) => if m = n then s.setStk (sectorStack n) { k with scrubWb := some (m, true, bs) } else s
  | none => s

/-- A write of a sector in the controller's order, by (place in the sector, byte): a whole one replaces the sector and clears its
mark, and any other is a read, a merge and a write, dropped on a poisoned sector (R50, R62). -/
def State.putSector (s : State) (n : Nat) (whole : Bool) (bs : List (Nat × Byte)) : State :=
  let stack := sectorStack n
  let s := s.cancelScrub n
  let s := if whole then s.clearPoison n else s.count (STK stack 0x48) 32 32 1
  if s.isPoisoned n then (s.count (STK stack 0x48) 16 16 1).countDrop
  else
    let s := if whole then s else s.countBurst stack 32
    { s with dram := bs.foldl (fun m (b : Nat × Byte) => Memory.write m (32 * n + b.1) b.2) s.dram }.countBurst stack 0

/-- A write of bytes within a sector; all 32 of them are the whole sector. -/
def State.writeSector (s : State) (n : Nat) (bs : List (Nat × Byte)) : State :=
  s.putSector n ((List.range 32).all fun i => bs.any (·.1 == i)) bs

/-- A write with bit enables within a sector, by place, byte and enables; all 256 bits are the whole sector. -/
def State.enableSector (s : State) (n : Nat) (w : List (Nat × Byte × Byte)) : State :=
  s.putSector n ((List.range 32).all fun i => w.any fun x => x.1 == i && x.2.2 == 0xFF#8)
    (w.map fun x => (x.1, (Memory.read s.dram (32 * n + x.1) &&& ~~~x.2.2) ||| (x.2.1 &&& x.2.2)))

/-! ## The parking record (R59) -/

/-- A parking record's contents as a number: none, or the stack and its parked bank. -/
def parkCode : Option (Nat × Parked) → Nat
  | none => 0
  | some (n, p) => 1 + n + 8 * (p.pch + 64 * (p.bg + 4 * (p.bank + 4 * (p.pattern + 4
      * (p.rows + 2 ^ 17 * (if p.restoring then 1 else 0))))))

/-- The record is written in the first 4 KiB of the die's area. Its form is open: its bytes are free, and depend on what the
record says alone (log entry 26). -/
def storeParkRecord (s : State) (d : Nat) (p : Option (Nat × Parked)) : State :=
  (List.range 128).foldl (fun s i => match placeRaw s d (parkBase d + 32 * i) with
    | some x =>
      s.putSector x.sector true ((List.range 32).map fun j => (j, Config.openContents [parkCode p] (32 * i + j)))
    | none => s) s

/-! ## The view table (R69) -/

def DESCBASE : Nat := 0x1FB7FE0000

/-- Whether an address lies in the view table (R69, R70). -/
def inViewTable (pa : Nat) : Bool := decide (DESCBASE ≤ pa ∧ pa < DESCBASE + 2048 * 64)

end Sys2Proof.Machine
end

