-- ==== Sys2Proof/Machine/Mem.lean ====
section
/-! DEFINITION. Mem: the home L2s, the L1s and the Canopies, registration and drains (R181 to R185, R189 to R192,
R199), sealed versions (R205, R206), poison (R37, R62) and unreachable agents (R207), on base physical addresses.
Words are named by physical address ÷ 4; host words by that plus 2^56. -/

namespace Sys2Proof.Machine

/-- The canonical poison word (R37). -/
def poisonWord : Word := 0x7FC0DEAD#32

/-- Offset of host words among word names. -/
def hostBase : Nat := 2 ^ 56

/-- Whether a word lies on another device (R210, form bit [46]). -/
def isRemoteWord (w : Nat) : Bool := decide (w < hostBase) && w / 2 ^ 44 % 2 == 1
def isHostWord (w : Nat) : Bool := decide (hostBase ≤ w)
def isLocalWord (w : Nat) : Bool := !isRemoteWord w && !isHostWord w

/-- The device that a remote physical address names. -/
def remoteDevice (pa : Nat) : Nat := pa / 2 ^ 48 % 1024

/-- The die of a core. -/
def coreDie (c : Nat) : Nat := c / 16

/-! ## Signatures (R193, R194) -/

def sigBits (pa : Nat) : List Nat :=
  let sn := pa / 32 % 2 ^ 53
  let c0 := fieldOf sn 0 9
  let c1 := fieldOf sn 9 9
  let c2 := fieldOf sn 18 9
  let c3 := fieldOf sn 27 9
  let c4 := fieldOf sn 36 9
  let c5 := fieldOf sn 45 8
  [c0 ^^^ c1 ^^^ c2 ^^^ c3 ^^^ c4 ^^^ c5,
    (c0 + 5 * c1 + 25 * c2 + 125 * c3 + 113 * c4 + 53 * c5) % 512,
    (13 * c0 + 169 * c1 + 149 * c2 + 401 * c3 + 93 * c4 + 185 * c5) % 512]

/-- The base sector of a physical address inserted into a signature. -/
def sigInsert (g : Sig) (pa : Nat) : Sig := (sigBits pa).foldl (fun g i => g ||| (1#512 <<< i)) g
def sigHits (g : Sig) (pa : Nat) : Bool := (sigBits pa).all fun i => g.getLsbD i
def sigCount (g : Sig) : Nat := (List.range 512).countP fun i => g.getLsbD i
def sigFull (g : Sig) : Bool := decide (256 < sigCount g)

/-! ## Home memory -/

/-- A write with bit enables: byte address, byte, enables. -/
abbrev EnWrite := List (Nat × Byte × Byte)

def fullMask : Byte := 0xFF#8

/-- A write of whole bytes from an address. -/
def bytesWrite (a : Nat) (bs : List Byte) : EnWrite := (bs.zipIdx a).map fun x => (x.2, x.1, fullMask)

/-- Whether the home L2 holds the whole sector dirty. -/
def l2Whole (s : State) (sec : Nat) : Bool := (List.range 32).all fun i => (look (32 * sec + i) s.l2).isSome

/-- Whether a read of a device-local sector delivers poison: it is not placed, or marked and not in the L2 (R34, R62). -/
def homePoisoned (s : State) (sec : Nat) : Bool :=
  match place s (32 * sec) with
  | none => true
  | some n => s.isPoisoned n && !l2Whole s sec && !s.l2held.contains sec

/-- A byte as the home holds it. -/
def homeByte (s : State) (a : Nat) : Byte :=
  match look a s.l2 with
  | some b => b
  | none => match place s a with
    | some n => Memory.read s.dram (32 * n + a % 32)
    | none => 0#8

def homeBytes (s : State) (a : Nat) (n : Nat) : List Byte := (List.range n).map fun i => homeByte s (a + i)

def wordOfBytes (bs : List Byte) : Word := BitVec.ofNat 32 (leNat bs)

/-- A word as its home holds it, and whether it is poison. -/
def homeWord (s : State) (w : Nat) : Word × Bool :=
  if homePoisoned s (w / 8) then (poisonWord, true) else (wordOfBytes (homeBytes s (4 * w) 4), false)

/-! ### What the L2s hold (R181) -/

/-- Sectors that the L2 of a die holds, dirty or clean. -/
def l2Sectors (s : State) (d : Nat) : List Nat :=
  ((s.l2.map fun (c : Host.Cell) => c.1 / 32) ++ s.l2held).dedup.filter fun sec => homeDie (32 * sec) == d

/-- The dirty bytes that the home L2 holds of a device-local sector are written to the stack (R50, R62). -/
def writeBackSector (s : State) (sec : Nat) : State :=
  let mine := s.l2.filter fun c => c.1 / 32 == sec
  if mine.isEmpty then s
  else
    let s := { s with l2 := s.l2.filter fun c => c.1 / 32 != sec }
    match place s (32 * sec) with
    | some n => s.writeSector n (mine.map fun c => (c.1 % 32, c.2))
    | none => s.countDrop

/-- A sector leaves the L2 of its home. -/
def dropL2 (s : State) (sec : Nat) : State :=
  let s := writeBackSector s sec
  { s with l2held := s.l2held.filter (· != sec) }

/-- Sectors of a die's L2: 96 MiB. -/
def l2Size : Nat := 3145728

/-- A full L2 gives up a sector of its choice for a new one (log entry 25). -/
def roomL2 (s : State) (d : Nat) : State :=
  if s.l2.length + s.l2held.length < l2Size then s
  else
    let secs := l2Sectors s d
    if secs.length < l2Size then s
    else dropL2 s.nextTick (secs.getD ((Config.freeBits s.tick).toNat % secs.length) 0)

/-- The die that homes a device-local word has been declared dead (R207). -/
def homeDead (s : State) (w : Nat) : Bool := isLocalWord w && s.dieDead (homeDie (4 * w))

/-- The core that answers for a word: its registrant, unless the word's home is dead (R184, R207). -/
def answering (s : State) (w : Nat) : Option Nat := if homeDead s w then none else look w s.registrants

/-- The current value of a word at its registrant. -/
def registrantWord (s : State) (w : Nat) : Option Word := ((answering s w).bind fun r => look w (s.core r).l1).map (·.val)

/-- A sector is read from its stack into the L2; poison is not kept there. -/
def fetchSector (s : State) (sec : Nat) : State :=
  match place s (32 * sec) with
  | none => s
  | some n =>
    let s := s.countBurst (sectorStack n) 32
    if s.isPoisoned n then s
    else
      let s := roomL2 s (homeDie (32 * sec))
      { s with l2held := insertNat sec s.l2held }

/-- Whether the L2 holds a byte. -/
def l2HoldsByte (s : State) (a : Nat) : Bool := s.l2held.contains (a / 32) || (look a s.l2).isSome

/-- Whether the L2 holds a word. -/
def l2Holds (s : State) (w : Nat) : Bool := (List.range 4).all fun i => l2HoldsByte s (4 * w + i)

/-- One request for words of a device-local line reaches their home: the sectors that the L2 lacks and no registrant answers
for are read from the stacks, and the request then counts as a miss (R20, R184). A registrant's answer is a message (R30). -/
def askHome (s : State) (ws : List Nat) : State :=
  let s := (ws.filterMap (answering s)).dedup.foldl State.hear s
  let miss := ((ws.filter fun w => (registrantWord s w).isNone && !l2Holds s w).map (· / 8)).dedup
  match miss with
  | [] => s
  | sec :: _ => miss.foldl fetchSector (s.countDie (homeDie (32 * sec)) .l2miss)

/-- A word at its home, with forwarding from a registrant (R184), and whether it is poison. -/
def readForward (s : State) (w : Nat) : Word × Bool :=
  match registrantWord s w with
  | some v => (v, false)
  | none => homeWord s w

/-- A request delivers each of the sectors as poison (R37). -/
def deliverSectors (s : State) (secs : List Nat) : State :=
  secs.dedup.foldl (fun s sec => s.deliverPoison (homeDie (32 * sec)) (32 * sec)) s

/-! ### Writes at the home -/

/-- The seal-table entry of the home die that covers an address (R205). -/
def sealAt (s : State) (a : Nat) : Option SealEntry :=
  (s.die (homeDie a)).seals.find? fun e => decide (e.first ≤ a / 65536 ∧ a / 65536 < e.first + e.len)

/-- Bytes of one sector written in the home L2. -/
def writeL2 (s : State) (sec : Nat) (w : EnWrite) : State :=
  w.foldl (fun s (x : Nat × Byte × Byte) =>
    { s with l2 := put x.1 ((homeByte s x.1 &&& ~~~x.2.2) ||| (x.2.1 &&& x.2.2)) s.l2 })
    (if s.l2held.contains sec || s.l2.any (·.1 / 32 == sec) then s else roomL2 s (homeDie (32 * sec)))

/-- The part of a write in one sector, at the home. The L2 takes a whole sector and words that a core sends home; a write with
enables merges into what the L2 holds of the sector, and the rest goes to the controller, as does every part of a write that leaves
some of a poisoned sector as it was (R50, R62, R86, R91). -/
def homeWriteSector (s : State) (enabled : Bool) (sec : Nat) (w : EnWrite) : State :=
  match place s (32 * sec) with
  | none => s.countDrop
  | some n =>
    let inSector (w : EnWrite) : List (Nat × Byte × Byte) := w.map fun x => (x.1 % 32, x.2)
    let whole := (List.range 32).all fun i => w.any fun x => x.1 == 32 * sec + i && x.2.2 == fullMask
    if whole then writeL2 s sec w
    else if homePoisoned s sec then s.enableSector n (inSector w)
    else
      let here := w.filter fun x => !enabled || l2HoldsByte s x.1
      let past := w.filter fun x => enabled && !l2HoldsByte s x.1
      let s := if here.isEmpty then s else writeL2 s sec here
      if past.isEmpty then s else s.enableSector n (inSector past)

/-- An enabled write with one entry for each byte: of several values of a bit the last stands (R90). -/
def mergeWrites (w : EnWrite) : EnWrite :=
  (w.map (·.1)).dedup.map fun a =>
    (w.filter fun x => x.1 == a).foldl (fun (acc : Nat × Byte × Byte) x =>
      (a, (acc.2.1 &&& ~~~x.2.2) ||| (x.2.1 &&& x.2.2), acc.2.2 ||| x.2.2)) (a, 0#8, 0#8)

/-- The V bit of a descriptor in the view table (R76). -/
def descValid (s : State) (n : Nat) : Bool := (homeByte s (DESCBASE + 64 * n + 3)).getLsbD 0

/-- Descriptors that a write takes out of R74's order: bytes 8 to 63 of one that stays valid. One that is no longer valid is in
order again. -/
def noteTorn (old new : State) (w : EnWrite) : State :=
  let hit := w.filter fun x => inViewTable x.1
  if hit.isEmpty then new
  else (hit.map fun x => (x.1 - DESCBASE) / 64).dedup.foldl (fun s n =>
    let body := hit.any fun x => (x.1 - DESCBASE) / 64 == n && decide (8 ≤ (x.1 - DESCBASE) % 64)
    if !descValid s n then { s with tornViews := s.tornViews.filter (· != n) }
    else if body && descValid old n then { s with tornViews := insertNat n s.tornViews }
    else s) new

/-- The host gives up the lines that it holds over CXL.mem and that are about to change (R22). -/
def backInvalidate (s : State) (lines : List Nat) : State :=
  let held := s.hostLines.filter lines.contains
  if held.isEmpty then s
  else held.foldl (fun s l => s.emitHost (.backInvalidate l)) { s with hostLines := s.hostLines.filter fun l => !lines.contains l }

/-- A write to device-local memory, sector by sector: words that a core sends home, or a write with enables. -/
def homeWrite (s : State) (w : EnWrite) (enabled : Bool := false) : State :=
  let w := w.filter fun x => x.2.2 != 0#8
  let s := backInvalidate s (w.map fun x => x.1 / 128)
  noteTorn s ((w.map fun x => x.1 / 32).dedup.foldl
    (fun s sec => homeWriteSector s enabled sec (w.filter fun x => x.1 / 32 == sec)) s) w

/-! ## L1 and Canopy words -/

def l1Word (s : State) (c w : Nat) : Option L1Word := look w (s.core c).l1
def setL1 (s : State) (c w : Nat) (x : L1Word) : State := s.modCore c fun k => { k with l1 := put w x k.l1 }
def dropL1 (s : State) (c w : Nat) : State := s.modCore c fun k => { k with l1 := del w k.l1 }
def canWord (s : State) (d w : Nat) : Option CanWord := look w (s.die d).canopy
def setCan (s : State) (d w : Nat) (x : CanWord) : State := s.modDie d fun k => { k with canopy := put w x k.canopy }
def dropCan (s : State) (d w : Nat) : State := s.modDie d fun k => { k with canopy := del w k.canopy }

/-- Bits of a word replaced where enabled. -/
def mergeWord (old new mask : Word) : Word := (old &&& ~~~mask) ||| (new &&& mask)

def wordBytes (w : Nat) (v : Word) : EnWrite := bytesWrite (4 * w) (leBytes 4 v.toNat)
/-- A die's Canopy updates its copy of a word that its core writes home (R185). -/
def updateCan (s : State) (c w : Nat) (v mask : Word) : State :=
  let d := coreDie c
  if homeDie (4 * w) = d then s
  else match canWord s d w with
    | some x => setCan s d w { x with val := mergeWord x.val v mask }
    | none => s

/-- A word written home by a core. -/
def writeHomeWord (s : State) (c w : Nat) (v : Word) : State :=
  updateCan (homeWrite (s.hear c) (wordBytes w v)) c w v (~~~0#32)

/-! ## Registration (R183) -/

/-- The registration of a word ends: a dirty value goes home, and the copy is invalidated. -/
def revokeWord (s : State) (w : Nat) : State :=
  match look w s.registrants with
  | none => s
  | some r =>
    let s := match l1Word s r w with
      | some x => dropL1 (if x.dirty then writeHomeWord s r w x.val else s) r w
      | none => s
    { s with registrants := del w s.registrants }

/-- A store to a word whose home is dead is dropped and counted (R207). -/
def dropStore (s : State) (c w : Nat) : State :=
  (dropL1 (if look w s.registrants = some c then { s with registrants := del w s.registrants } else s) c w).countDrop

/-- A core holds a word registered at its home. -/
def registerWord (s : State) (c w : Nat) : State :=
  if homeDead s w && (l1Word s c w).any (·.pend) then dropStore s c w
  else
    let s := if look w s.registrants = some c then s else
      let s := backInvalidate ((revokeWord s w).hear c) [w / 32]
      { s with registrants := put w c s.registrants }
    match l1Word s c w with
    | some x => setL1 s c w { x with reg := true, pend := false }
    | none => s

/-- The other word of a word's aligned 8 bytes. -/
def mateOf (w : Nat) : Nat := if w % 2 = 0 then w + 1 else w - 1

/-- A registration takes along one of the other word of its aligned 8 bytes that is on its way, since an element of 8 bytes is
single-copy atomic (R83, R322). -/
def registerPair (s : State) (c w : Nat) : State :=
  let s := registerWord s c w
  if (l1Word s c (mateOf w)).any fun x => x.pend && !x.sync then registerWord s c (mateOf w) else s

/-- Every registration of a core that is on its way reaches its home. -/
def registerPending (s : State) (c : Nat) : State :=
  (s.core c).l1.foldl (fun s (e : Nat × L1Word) => if e.2.pend && !e.2.sync then registerWord s c e.1 else s) s

/-- A dirty word drained: written home, still registered, clean (R185). -/
def drainWord (s : State) (c w : Nat) : State :=
  match l1Word s c w with
  | some x =>
    if !x.dirty then s
    else if homeDead s w then dropStore s c w
    else
      let s := writeHomeWord (registerPair s c w) c w x.val
      setL1 s c w { x with dirty := false, reg := true, pend := false }
  | none => s

/-- Every dirty word of a core's L1 drained (R189), each as a write of its own: of a poisoned sector all eight words are dropped, one
by one (DESIGN CHOICE, log entry 99). -/
def drainCore (s : State) (c : Nat) : State :=
  (s.core c).l1.foldl (fun s (e : Nat × L1Word) => if e.2.dirty then drainWord s c e.1 else s) s

/-! ### Sync blocks (R191, R199) -/

/-- First word of the sync block of a word. -/
def blockWord (w : Nat) : Nat := w / 32 * 32

/-- Words of the Brim slot within a block. -/
def inSlot (w : Nat) : Bool := decide (16 ≤ w % 32)

/-- A core's copy of a sync block goes home after its dirty words, its slot merged into the home's (R199). -/
def giveUpBlock (s : State) (r w : Nat) : State :=
  let s := drainCore s r
  let b := blockWord w
  (List.range 32).foldl (fun s i =>
    let k := b + i
    let s := match l1Word s r k with
      | some x =>
        let home := wordOfBytes (homeBytes s (4 * k) 4)
        let s := if inSlot k && x.val != home then writeHomeWord s r k (home ||| x.val) else s
        dropL1 s r k
      | none => s
    { s with registrants := if look k s.registrants = some r then del k s.registrants else s.registrants }) s

/-- A revocation of any word: a word of a sync block takes its whole block. -/
def revoke (s : State) (w : Nat) : State :=
  match look w s.registrants with
  | none => s
  | some r =>
    match l1Word s r w with
    | some x => if x.sync then giveUpBlock s r w else revokeWord s w
    | none => revokeWord s w

/-- An L1 evicts a word (R183, R199). -/
def evict (s : State) (c w : Nat) : State :=
  if look w s.registrants = some c then revoke s w
  else match l1Word s c w with
    | some x => if x.dirty then revokeWord (registerPair s c w) w else dropL1 s c w
    | none => s

/-- Every word of a sync block is revoked but at core `c`. -/
def revokeBlockBut (s : State) (c w : Nat) : State :=
  (List.range 32).foldl (fun s i =>
    let k := blockWord w + i
    match look k s.registrants with
    | some r => if r = c then s else revoke s k
    | none => s) s

/-- Whether some sector of the block is poisoned (R189). -/
def blockPoisoned (s : State) (w : Nat) : Bool :=
  (List.range 4).any fun i => homePoisoned s (blockWord w * 4 / 32 + i)

/-! ### Room in the caches (R1, R181, log entry 25) -/

/-- Lines of an L1 (512 KiB) and of a Canopy (32 MiB). -/
def l1Lines : Nat := 4096
def canLines : Nat := 262144

/-- A full L1 evicts a line of its choice for a new one. -/
def roomL1 (s : State) (c w : Nat) : State :=
  let ws := (s.core c).l1.map (·.1)
  if ws.length < l1Lines ∨ ws.any (· / 32 == w / 32) then s
  else
    let lines := (ws.map (· / 32)).dedup
    if lines.length < l1Lines then s
    else
      let victim := lines.getD ((Config.freeBits s.tick).toNat % lines.length) 0
      (ws.filter (· / 32 == victim)).foldl (fun s w => evict s c w) s.nextTick

/-- A word enters an L1. -/
def fillL1 (s : State) (c w : Nat) (x : L1Word) : State := setL1 (roomL1 s c w) c w x

/-- A core holds a sync block registered, all 32 words of it (R191); the host gives the line up (R22), and the request is a message
(R30). -/
def registerBlock (s : State) (c w : Nat) : State :=
  let s := backInvalidate ((revokeBlockBut s c w).hear c) [w / 32]
  (List.range 32).foldl (fun s i =>
    let k := blockWord w + i
    let s := { s with registrants := put k c s.registrants }
    if (l1Word s c k).any (·.reg) then s
    else fillL1 s c k ⟨wordOfBytes (homeBytes s (4 * k) 4), false, true, false, true, none⟩) s

/-- A dirty host word of a Canopy goes back to the host. -/
def returnHost (s : State) (w : Nat) (x : CanWord) : State :=
  if x.host && x.dirty then s.emitHost (.hostWord (4 * (w - hostBase)) x.val) else s

/-- A full Canopy gives up a line of its choice for a new one. -/
def roomCan (s : State) (d w : Nat) : State :=
  let can := (s.die d).canopy
  if can.length < canLines ∨ can.any (·.1 / 32 == w / 32) then s
  else
    let lines := (can.map (·.1 / 32)).dedup
    if lines.length < canLines then s
    else
      let victim := lines.getD ((Config.freeBits s.tick).toNat % lines.length) 0
      (can.filter (·.1 / 32 == victim)).foldl (fun s e => dropCan (returnHost s e.1 e.2) d e.1) s.nextTick

/-- A word enters a Canopy. -/
def fillCan (s : State) (d w : Nat) (x : CanWord) : State := setCan (roomCan s d w) d w x

/-! ## Other devices (R97, R206, R207) -/

/-- A port is up and the gates of R28 are open, so that another device can be reached. -/
def linkUp (s : State) : Bool :=
  s.field DEVNUM 16 1 == 1 && s.field INCARN 16 1 == 1 && (List.range 24).any fun p => s.field (LLSTAT p) 0 4 == 2

def reachable (s : State) (dev : Nat) : Bool := linkUp s && !s.deadAgents.contains (.device (BitVec.ofNat 10 dev))

/-- Every line that a die's caches hold under a version entry goes with it (R206). -/
def dropVersion (s : State) (d dev granule ver : Nat) : State :=
  let hit (w : Nat) : Bool := isRemoteWord w && remoteDevice (4 * w) == dev && 4 * w % 2 ^ 39 / 65536 == granule
  let s := s.modDie d fun k => { k with
    versions := k.versions.filter fun e => !(e.dev == dev && e.granule == granule && e.ver == ver)
    canopy := k.canopy.filter fun e => !(hit e.1 && e.2.ver == some ver) }
  (List.range 16).foldl (fun s i => s.modCore (16 * d + i) fun k =>
    { k with l1 := k.l1.filter fun e => !(hit e.1 && e.2.ver == some ver) }) s

/-- The version query of R206: an equal version checks the entry, and any other reply drops it and its lines. -/
def queryVersion (s : State) (d dev granule ver : Nat) : State :=
  let reply := if reachable s dev then (Config.outsideSeal s.tick).map BitVec.toNat else none
  let s := s.nextTick
  if reply = some ver then
    s.modDie d fun k => { k with versions := k.versions.map fun e =>
      if e.dev = dev ∧ e.granule = granule ∧ e.ver = ver then { e with checked := true } else e }
  else dropVersion s d dev granule ver

/-- Whether a version tag of a remote word may be used by a die now, querying the home where it is unchecked. -/
def versionOk (s : State) (d w ver : Nat) : Bool × State :=
  let dev := remoteDevice (4 * w)
  let g := 4 * w % 2 ^ 39 / 65536
  let entry (s : State) := (s.die d).versions.find? fun e => e.dev == dev && e.granule == g && e.ver == ver
  match entry s with
  | none => (false, s)
  | some e =>
    if e.checked then (true, s)
    else
      let s := queryVersion s d dev g ver
      ((entry s).isSome, s)

/-! ## Reads -/

/-- Words read so far: value and whether it is poison. -/
abbrev WordTable := List (Nat × Word × Bool)

/-- A remote word in a core's L1 under a checked version; a word of another version is dropped. -/
def remoteL1 (s : State) (c w : Nat) : Option Word × State :=
  match l1Word s c w with
  | none => (none, s)
  | some x => match x.ver with
    | none => (some x.val, s)
    | some v => match versionOk s (coreDie c) w v with
      | (true, s) => (some x.val, s)
      | (false, s) => (none, dropL1 s c w)

/-- The same in a Canopy, which then fills the L1. -/
def remoteCan (s : State) (c w : Nat) : Option Word × State :=
  match canWord s (coreDie c) w with
  | none => (none, s)
  | some x => match x.ver with
    | none => (none, s)
    | some v => match versionOk s (coreDie c) w v with
      | (true, s) => (some x.val, fillL1 s c w ⟨x.val, false, false, false, false, some v⟩)
      | (false, s) => (none, dropCan s (coreDie c) w)

/-- Words looked up one after another: those found, and those missing. -/
def lookWords (find : State → Nat → Option Word × State) (s : State) (ws : List Nat) : WordTable × List Nat × State :=
  ws.foldl (fun (acc : WordTable × List Nat × State) w =>
    match find acc.2.2 w with
    | (some v, s) => (acc.1 ++ [(w, v, false)], acc.2.1, s)
    | (none, s) => (acc.1, acc.2.1 ++ [w], s)) ([], [], s)

/-- The reply of another device to one request: its words, kept in both caches where the page permits it and the home reports
the granule sealed (R206); poison where the device cannot be reached (R207). -/
def fetchRemote (s : State) (c : Nat) (ws : List Nat) (keep : Bool) : WordTable × State :=
  match ws with
  | [] => ([], s)
  | w0 :: _ =>
    let d := coreDie c
    let dev := remoteDevice (4 * w0)
    if reachable s dev then
      let t : WordTable := ws.zipIdx.map fun x => (x.1, Config.outsideWord (s.tick + x.2), false)
      let reply := Config.outsideSeal s.tick
      let s := { s.hear c with tick := s.tick + ws.length }
      match reply with
      | some v =>
        if keep then
          let ver := v.toNat
          let g := 4 * w0 % 2 ^ 39 / 65536
          let others (k : Die) : List VerEntry :=
            k.versions.filter fun e => !(e.dev == dev && e.granule == g && e.ver == ver)
          let s := s.modDie d fun k => { k with versions := others k ++ [⟨dev, g, ver, true⟩] }
          (t, t.foldl (fun s e => fillL1 (fillCan s d e.1 ⟨e.2.1, false, false, some ver⟩) c e.1
            ⟨e.2.1, false, false, false, false, some ver⟩) s)
        else (t, s)
      | none => (t, s)
    else (ws.map fun w => (w, poisonWord, true),
      (ws.map (· / 8)).dedup.foldl (fun s sec => s.deliverPoison d (32 * sec)) s)

/-- One request for words of a line of another device (R97, R182, R206). An uncached page's access drops the core's copies and
is performed at the home (R212). -/
def readRemote (s : State) (c : Nat) (ws : List Nat) (sealedP uncached : Bool) : WordTable × State :=
  if uncached then fetchRemote (ws.foldl (fun s w => dropL1 s c w) s) c ws false
  else
    let d := coreDie c
    let (t, miss, s) := lookWords (fun s w => remoteL1 s c w) s ws
    if miss.isEmpty then (t, s)
    else
      let (u, miss, s) := lookWords (fun s w => remoteCan s c w) (s.countDie d .l1miss) miss
      let (v, s) := fetchRemote (s.countDie d (if miss.isEmpty then .canhit else .canmiss)) c miss sealedP
      (t ++ u ++ v, s)

/-- A host word, or what the host answers for it over CXL.cache: the value, whether it is new, and the state. -/
def hostWordOf (s : State) (w : Nat) : Word × Bool × State :=
  match canWord s 0 w with
  | some x => (x.val, false, s)
  | none => (Config.outsideWord s.tick, true, s.nextTick)

/-- One request of a core for words of host memory: from die 0's Canopy, else over CXL.cache, which then holds them (R181, R213). The
lines that CANMISS counts are those of other dies and devices, and a core's L1 does not hold host words: that a host line missing in
the Canopy counts in CANMISS, and that no request for one counts in L1MISS, is the model's reading (DESIGN CHOICE, log entry 105). -/
def readHost (s : State) (c : Nat) (ws : List Nat) : WordTable × State :=
  let s := (s.hear c).countDie 0 (if ws.any fun w => (canWord s 0 w).isNone then .canmiss else .canhit)
  ws.foldl (fun (acc : WordTable × State) w =>
    let (v, new, s) := hostWordOf acc.2 w
    (acc.1 ++ [(w, v, false)], if new then fillCan s 0 w ⟨v, true, false, none⟩ else s)) ([], s)

/-- A device-local word that the L1 lacks, through the Canopy where another die homes it; it fills both caches unless it
is poison (R181, R184). -/
def fillWord (s : State) (c w : Nat) : Word × Bool × State :=
  let d := coreDie c
  let far := homeDie (4 * w) != d
  match (if far then canWord s d w else none) with
  | some x => (x.val, false, fillL1 s c w ⟨x.val, false, false, false, false, none⟩)
  | none =>
    let (v, p) := readForward s w
    (v, p, if p then s
      else fillL1 (if far then fillCan s d w ⟨v, false, false, none⟩ else s) c w ⟨v, false, false, false, false, none⟩)

/-- Registrations on their way at a core that answers for the other word of an aligned pair are granted before both are read
(R322). -/
def joinPair (s : State) (w : Nat) : State :=
  match answering s w with
  | some r => if (l1Word s r (mateOf w)).any fun x => x.pend && !x.sync then registerWord s r (mateOf w) else s
  | none => s

/-- The same for every aligned pair of a request's words. -/
def joinPairs (s : State) (ws : List Nat) : State := (ws.filter fun w => ws.contains (mateOf w)).foldl joinPair s

/-- The request for words of one device-local line that a core's L1 lacks: L1MISS, the Canopy of another die's line, and the
home for what the Canopy lacks (R20, R182, R184). -/
def requestWords (s : State) (c : Nat) (missing : List Nat) : State :=
  match missing with
  | [] => s
  | w :: _ =>
    let d := coreDie c
    let s := (joinPairs (s.hear c) missing).countDie d .l1miss
    if homeDie (4 * w) = d then askHome s missing
    else
      let rest := missing.filter fun w => (canWord s d w).isNone
      askHome (s.countDie d (if rest.isEmpty then .canhit else .canmiss)) rest

/-- Of an aligned pair of words in one request the caches give both or neither, but for what the core holds dirty or registered, so
that the pair is read at one moment (R322, log entry 113). -/
def refreshPair (s : State) (c w : Nat) : State :=
  if (l1Word s c w).isSome && (l1Word s c (w + 1)).isSome then s
  else
    let clean (s : State) (k : Nat) : State := match l1Word s c k with
      | some x => if x.reg || x.dirty then s else dropL1 s c k
      | none => s
    let s := clean (clean s w) (w + 1)
    let d := coreDie c
    if (canWord s d w).isSome == (canWord s d (w + 1)).isSome then s else dropCan (dropCan s d w) d (w + 1)

/-- One request for a span of a line: the words that the L1 lacks are filled (R182). -/
def readSpan (s : State) (c line start count : Nat) : WordTable × State :=
  let ws := (List.range count).map fun i => 32 * line + start + i
  let s := (ws.filter fun w => w % 2 == 0 && decide (w + 1 < 32 * line + start + count)).foldl (fun s w => refreshPair s c w) s
  let s := requestWords s c (ws.filter fun w => (l1Word s c w).isNone)
  let (t, s) := ws.foldl (fun (acc : WordTable × State) w =>
    match l1Word acc.2 c w with
    | some x => (acc.1 ++ [(w, x.val, false)], acc.2)
    | none =>
      let (v, p, s) := fillWord acc.2 c w
      (acc.1 ++ [(w, v, p)], s)) (([] : WordTable), s)
  (t, deliverSectors s ((t.filter (·.2.2)).map (·.1 / 8)))

/-- How an access of a word is served. -/
inductive WordPath where
  | cached | host | remote | uncached | sync
deriving DecidableEq, Repr

/-- A word needed by a read, with the page bits that govern it. -/
structure WordReq where
  word : Nat
  (uncached sync sealedP : Bool)
deriving DecidableEq, Repr

def WordReq.path (r : WordReq) : WordPath :=
  if isHostWord r.word then .host
  else if isRemoteWord r.word then .remote
  else if r.uncached then .uncached
  else if r.sync then .sync
  else .cached

/-- The core's copy of a word that it does not hold registered or dirty goes, from its L1 and its die's Canopy, so that no
later read of the core meets an older value (R190). -/
def dropStale (s : State) (c w : Nat) : State :=
  match l1Word s c w with
  | some x => if x.reg || x.dirty then s else dropCan (dropL1 s c w) (coreDie c) w
  | none => dropCan s (coreDie c) w

/-- A word at its home for a core, whose own registered or dirty copy answers. -/
def readAtHome (s : State) (c w : Nat) : Word × Bool :=
  match l1Word s c w with
  | some x => if x.reg || x.dirty then (x.val, false) else readForward s w
  | none => readForward s w

/-- One request for a span of a device-local line whose words `ws` are read at the home (R182, R190, R191, R212). -/
def readHome (s : State) (c : Nat) (ws span : List Nat) : WordTable × State :=
  let s := ws.foldl (fun s w => dropStale s c w) s
  let asked := span.filter fun w => (l1Word s c w).isNone
  let s := askHome (joinPairs (s.hear c) asked) asked
  let t : WordTable := span.map fun w => (w, readAtHome s c w)
  (t, deliverSectors s ((t.filter (·.2.2)).map (·.1 / 8)))

/-- The words that one pass needs: one request for each base line and kind of access, which spans from the first to the last word
(R81, R182); words of uncached pages are read at the home once the core's copies have gone (R212), and words of
sync pages at the home or from their registrant (R191). -/
def readWords (s : State) (c : Nat) (rs : List WordReq) : WordTable × State :=
  (rs.map fun r => (r.word / 32, r.path)).dedup.foldl (fun (acc : WordTable × State) k =>
    let mine := rs.filter fun r => (r.word / 32, r.path) == k
    let offs := mine.map fun r => r.word % 32
    let lo := offs.foldl min 31
    let hi := offs.foldl max 0
    let span := (List.range (hi + 1 - lo)).map fun i => 32 * k.1 + lo + i
    let (t, s) := match k.2 with
      | .cached => readSpan acc.2 c k.1 lo (hi + 1 - lo)
      | .host => readHost acc.2 c span
      | .remote => readRemote acc.2 c span (mine.all (·.sealedP)) (mine.any (·.uncached))
      | .uncached =>
        let ws := (mine.map (·.word)).dedup
        readHome (ws.foldl (fun s w => evict s c w) acc.2) c ws span
      | .sync => readHome acc.2 c (mine.map (·.word)).dedup span
    (acc.1 ++ t, s)) ([], s)

def WordTable.val (t : WordTable) (w : Nat) : Word :=
  match t.find? fun e => e.1 == w with
  | some e => e.2.1
  | none => 0#32

def WordTable.poisoned (t : WordTable) (w : Nat) : Bool := t.any fun e => e.1 == w && e.2.2

/-! ## Writes -/

/-- The words of an enabled write, each with its value and enables. -/
def EnWrite.words (w : EnWrite) : List (Nat × Word × Word) :=
  (w.map fun x => x.1 / 4).dedup.map fun k =>
    let part := w.filter fun x => x.1 / 4 == k
    let at' (f : Nat × Byte × Byte → Byte) : Word :=
      part.foldl (fun acc x => mergeWord acc ((f x).setWidth 32 <<< (8 * (x.1 % 4))) (0xFF#32 <<< (8 * (x.1 % 4)))) 0#32
    (k, at' (·.2.1), at' (·.2.2))

/-- A whole word stored in a core's L1: dirty, its registration on its way (R183). -/
def storeL1 (s : State) (c w : Nat) (v : Word) : State :=
  match l1Word s c w with
  | some x => setL1 s c w { x with val := v, dirty := true, pend := x.pend || !x.reg }
  | none => fillL1 s c w ⟨v, true, false, true, false, none⟩

/-- A write carried to the home with enables: a dirty copy of the core goes home first, a valid one is updated in place,
and another registrant's value goes home before it (R86, R91). -/
def storeEnabled (s : State) (c : Nat) (w : EnWrite) : State :=
  let s := w.words.foldl (fun s (x : Nat × Word × Word) =>
    let s := drainWord s c x.1
    let s := if look x.1 s.registrants = some c then s else revoke s x.1
    let s := match l1Word s c x.1 with
      | some y => setL1 s c x.1 { y with val := mergeWord y.val x.2.1 x.2.2 }
      | none => s
    updateCan s c x.1 x.2.1 x.2.2) (s.hear c)
  homeWrite s w true

/-- A write of an uncached page: the core's copies go home or away first (R212). -/
def storeUncached (s : State) (c : Nat) (w : EnWrite) : State :=
  let s := w.words.foldl (fun s (x : Nat × Word × Word) =>
    updateCan (revoke (evict s c x.1) x.1) c x.1 x.2.1 x.2.2) (s.hear c)
  homeWrite s w (w.words.any fun x => x.2.2 != ~~~0#32)

/-- Bytes written across the link. -/
def sendRemote (s : State) (w : EnWrite) : State :=
  w.foldl (fun s (x : Nat × Byte × Byte) => s.emit (.remoteWrite x.1 x.2.1 x.2.2)) s

/-- A write to another device, or one dropped as a whole where the device cannot be reached (R183, R207). -/
def storeRemote (s : State) (c : Nat) (w : EnWrite) : State :=
  match w with
  | [] => s
  | x :: _ =>
    let s := (w.map (·.1 / 4)).dedup.foldl (fun s k => dropCan (dropL1 s c k) (coreDie c) k) (s.hear c)
    if reachable s (remoteDevice x.1) then sendRemote s w else s.countDrop

/-- A core's write to host memory, held dirty in die 0's Canopy (R213). Addresses are physical; words carry `hostBase`. -/
def storeHost (s : State) (c : Nat) (w : EnWrite) : State :=
  w.words.foldl (fun s (x : Nat × Word × Word) =>
    let k := hostBase + x.1
    let (v, _, s) := hostWordOf s k
    fillCan s 0 k ⟨mergeWord v x.2.1 x.2.2, true, true, none⟩) (s.hear c)

/-- A bulk write at the homes: registrants' values go home first and their registrations end (R86). -/
def storeBulk (s : State) (w : EnWrite) : State :=
  homeWrite ((w.map fun x => x.1 / 4).dedup.foldl revoke s) w true

/-! ## Acquires (R190, R194, R195, R206) -/

/-- Words of a core's L1 that it does not hold registered are dropped where the test accepts them; the registrations on their
way are granted first. -/
def invalidateL1 (s : State) (c : Nat) (hit : Nat → Bool) : State :=
  (registerPending s c).modCore c fun k => { k with l1 := k.l1.filter fun e => e.2.reg || !hit e.1 }

/-- A die's Canopy drops the device words that the test accepts: an operation's writes at the homes have passed it by, and its team is to
see them (R188, R202, R204). -/
def dropCanopy (s : State) (d : Nat) (hit : Nat → Bool) : State :=
  s.modDie d fun k => { k with canopy := k.canopy.filter fun e => e.2.host || !hit e.1 }

/-- The signature test of R194; no signature hits everything. -/
def sigTest (g : Option Sig) (w : Nat) : Bool :=
  match g with
  | none => true
  | some g => sigFull g || sigHits g (4 * w)

/-- The invalidation of an acquire at a scope; `none` stands for every sector. -/
def acquire (s : State) (c : Nat) (sc : Scope) (g : Option Sig) : State :=
  let d := coreDie c
  let full := match g with
    | none => true
    | some g => sigFull g
  match sc with
  | .team | .core => s
  | _ =>
    let s := if full then s.countDie d .fullacq else s
    let s := invalidateL1 s c (sigTest g)
    match sc with
    | .pkg | .pod =>
      let s := dropCanopy s d (sigTest g)
      if sc = .pod then
        s.modDie d fun k => { k with versions := k.versions.map fun e => { e with checked := false } }
      else s
    | _ => s

end Sys2Proof.Machine
end

