-- ==== Sys2Proof/Machine/View.lean ====
section
/-! DEFINITION. View: descriptors and their validity (R76 to R80), the address functions (R79, R92), view caches (R71 to
R73, R98), and composition by the view engines (R84 to R87, R96, R97). -/

namespace Sys2Proof.Machine

/-! ## Causes by priority (R218) -/

def Cause.priority : Cause → Nat
  | .illins => 1 | .illop => 2 | .priv => 3 | .regbound => 4 | .maskovf => 5 | .batchovf => 6 | .pfault => 7
  | .pprot => 8 | .align => 9 | .viewf => 10 | .tolview => 11 | .tilebound => 12 | .tileown => 13 | .accbound => 14
  | .barovf => 15 | .gatherchk => 16 | .sealedC => 17 | .poisont => 18 | .bkpt => 19 | .trapi => 19

/-! ## Descriptors (R76) -/

def signed32 (n : Nat) : Int := if n < 2 ^ 31 then n else (n : Int) - 2 ^ 32

/-- A descriptor from the number that its 64 bytes hold. -/
def VDesc.ofNat (x : Nat) : VDesc :=
  { v := fieldOf x 24 1 == 1, gchk := fieldOf x 25 1 == 1, wr := fieldOf x 14 1 == 1
    perm := (List.range 4).map fun k => fieldOf x (16 + 2 * k) 2
    elem := fieldOf x 8 6, rank := fieldOf x 4 4, kind := fieldOf x 0 4, base := fieldOf x 64 58
    dims := (List.range 4).map fun k => fieldOf x (128 + 32 * k) 32
    strides := (List.range 4).map fun k => signed32 (fieldOf x (256 + 32 * k) 32)
    t0 := fieldOf x 384 16, t1 := fieldOf x 400 16, rowb := fieldOf x 416 20
    idxoff := fieldOf x 448 35, icnt := fieldOf x 488 24 }

def VDesc.width (v : VDesc) : Nat := (elemWidth v.elem).getD 1
def VDesc.dim (v : VDesc) (k : Nat) : Nat := v.dims.getD k 0
def VDesc.stride (v : VDesc) (k : Nat) : Int := v.strides.getD k 0
def VDesc.sel (v : VDesc) (k : Nat) : Nat := v.perm.getD k 0
def VDesc.isGather (v : VDesc) : Bool := v.kind == 5

/-- Element count E, except for GATHER (R79). -/
def VDesc.count (v : VDesc) : Nat := ((List.range v.rank).map v.dim).prod

/-- Window extent X in bytes (R79). -/
def VDesc.extent (v : VDesc) : Nat := if v.isGather then v.icnt * v.rowb else ceilDiv (v.count * v.width) 8

/-- First and last byte of the base range (R80). -/
def VDesc.range (v : VDesc) : Int × Int :=
  let w : Int := v.width
  let b : Int := v.base
  if v.kind = 3 then
    let lo := ((List.range v.rank).map fun k => min 0 (((v.dim k : Int) - 1) * v.stride k)).sum
    let hi := ((List.range v.rank).map fun k => max 0 (((v.dim k : Int) - 1) * v.stride k)).sum
    ((8 * b + w * lo).fdiv 8, (8 * b + w * (hi + 1) - 1).fdiv 8)
  else if v.isGather then (b, b + v.dim 0 * v.rowb - 1)
  else (b, b + v.extent - 1)

/-- First byte of the index list on BASE's home die (R76). -/
def VDesc.indexBase (v : VDesc) : Nat := v.base / 2 ^ 37 * 2 ^ 37 + 4 * v.idxoff

/-- R78 but for the rule that subcause 5 reports. -/
def VDesc.shapeOk (v : VDesc) (devnum : Nat) : Bool :=
  let w := v.width
  let r := v.rank
  decide (v.kind ≤ 5) && decide (1 ≤ r ∧ r ≤ 4) && (elemWidth v.elem).isSome
    && ((List.range r).all fun k => v.dim k != 0)
    && (v.kind != 1 || (List.range r).all fun j => (List.range r).any fun k => v.sel k == j)
    && (v.kind != 2 || (decide (2 ≤ r) && v.t0 != 0 && v.t1 != 0 && v.dim 0 % v.t0 == 0 && v.dim 1 % v.t1 == 0))
    && (v.kind != 4 || (decide (w ≤ 8) && v.t0 % 32 == 0 && decide (32 ≤ v.t0 ∧ v.t0 ≤ 32768) && v.count % v.t0 == 0))
    && (v.kind != 5 || (v.rowb != 0 && 8 * v.rowb % w == 0 && v.icnt != 0))
    && (decide (w < 8) || v.base % (w / 8) == 0)
    && fieldOf v.base 47 1 == 0 && fieldOf v.base 39 7 == 0
    && (fieldOf v.base 46 1 == 1 || fieldOf v.base 48 10 == 0)
    && !(fieldOf v.base 46 1 == 1 && fieldOf v.base 48 10 == devnum)
    && decide (v.extent ≤ 2 ^ 36)

/-- The base range and the index list lie within one die's home range (R78, subcause 5). -/
def VDesc.homeOk (v : VDesc) : Bool :=
  let (lo, hi) := v.range
  decide (0 ≤ lo) && lo.fdiv (2 ^ 37) == hi.fdiv (2 ^ 37) && lo.fdiv (2 ^ 37) == (v.base / 2 ^ 37 : Nat)
    && (!v.isGather || decide (4 * v.idxoff + 4 * v.icnt ≤ 2 ^ 37))

/-- Frames (64 KiB of die offset) that the base range or the index list reaches. -/
def VDesc.frames (v : VDesc) (f : Nat) : Bool :=
  let (lo, hi) := v.range
  let off (x : Int) : Int := x % (2 ^ 37 : Nat)
  (decide ((off lo).fdiv 65536 ≤ f) && decide ((f : Int) ≤ (off hi).fdiv 65536))
    || (v.isGather && decide (4 * v.idxoff / 65536 ≤ f) && decide (f ≤ (4 * v.idxoff + 4 * v.icnt - 1) / 65536))

/-- What a fill finds of a descriptor (R78, R98, R100). -/
def VDesc.outcome (s : State) (v : VDesc) : VOutcome :=
  if !v.v then .illegal 1
  else if !v.shapeOk s.devnum then .illegal 2
  else if !v.homeOk then .illegal 5
  else if fieldOf v.base 46 1 == 0 && (s.die (homeDie v.base)).tolMap.any v.frames then .tolerantD
  else .legal

/-! ## Address functions (R79) -/

/-- Coordinates of view element `e`. -/
def coords : List Nat → Nat → List Nat
  | [], _ => []
  | d :: ds, e => e % d :: coords ds (e / d)

/-- Base element of a view element, for LIN, PERM, TILE and STRIDE. -/
def VDesc.element (v : VDesc) (e : Nat) : Int :=
  let i := coords ((List.range v.rank).map v.dim) e
  let at' (k : Nat) : Nat := i.getD k 0
  match v.kind with
  | 0 => e
  | 1 =>
    -- pitch of base dimension j: the product of the sizes of the base dimensions below it
    let size (j : Nat) : Nat := ((List.range v.rank).filter fun k => v.sel k == j).foldl (fun _ k => v.dim k) 1
    let pitch (j : Nat) : Nat := ((List.range j).map size).prod
    (((List.range v.rank).map fun k => at' k * pitch (v.sel k)).sum : Nat)
  | 2 =>
    let c := e % v.t0
    let q := e / v.t0
    let rw := q % v.t1
    let q := q / v.t1
    let tc := q % (v.dim 0 / v.t0)
    let q := q / (v.dim 0 / v.t0)
    let tr := q % (v.dim 1 / v.t1)
    let h := q / (v.dim 1 / v.t1)
    (tc * v.t0 + c + v.dim 0 * (tr * v.t1 + rw) + v.dim 0 * v.dim 1 * h : Nat)
  | _ => ((List.range v.rank).map fun k => (at' k : Int) * v.stride k).sum

/-- Base bit of a view bit, except for GATHER; none past the last element. -/
def VDesc.baseBit (v : VDesc) (b : Nat) : Option Nat :=
  let w := v.width
  if v.count * w ≤ b then none
  else if v.kind = 4 then
    let g := v.t0
    let q := b / (w * g)
    let r := b % (w * g)
    some (8 * v.base + w * (q * g + r % g) + r / g)
  else some (8 * (v.base : Int) + w * v.element (b / w) + (b % w : Nat)).toNat

/-- An index of a gather: a row to move, out of range, or null (R92). -/
inductive RowIx where
  | row (n : Nat) | counted | null
deriving DecidableEq, Repr

def RowIx.ofWord (x : Word) (rows : Nat) : RowIx :=
  if x = 0xFFFFFFFF#32 then .null else if x.toNat < rows then .row x.toNat else .counted

/-- Base bit of a view bit of a GATHER view under the indices read (R92). -/
def VDesc.gatherBit (v : VDesc) (ix : Nat → RowIx) (b : Nat) : Option Nat :=
  match ix (b / 8 / v.rowb) with
  | .row n => some (8 * (v.base + n * v.rowb + b / 8 % v.rowb) + b % 8)
  | _ => none

/-! ## Sectors and words for engines (R85) -/

/-- A base sector at its home, each registered word from its registrant; poison gives zeros (R37, R85). The request is one of
die `d`. -/
def bulkSector (s : State) (d sec : Nat) : List Byte × Bool × State :=
  if isRemoteWord (8 * sec) then
    if reachable s (remoteDevice (32 * sec)) then
      let vs := (List.range 8).map fun i => Config.outsideWord (s.tick + i)
      (vs.flatMap fun v => leBytes 4 v.toNat, false, { s with tick := s.tick + 8 })
    else (List.replicate 32 0#8, true, s.deliverPoison d (32 * sec))
  else
    let ws := (List.range 8).map (8 * sec + ·)
    let s := askHome (noteHeard s (.die (BitVec.ofNat 2 d))) ws
    let vs := ws.map fun w => readForward s w
    if vs.any (·.2) then (List.replicate 32 0#8, true, deliverSectors s [sec])
    else (vs.flatMap fun v => leBytes 4 v.1.toNat, false, s)

/-- Bytes by address from home memory, sector by sector, as a copy reads them; whether any was poison. -/
def bulkBytes (s : State) (d a n : Nat) : List Byte × Bool × State :=
  let first := a / 32
  let last := (a + n - 1) / 32
  let r := (List.range (last + 1 - first)).foldl (fun (acc : List Byte × Bool × State) i =>
    let (bs, p, s) := bulkSector acc.2.2 d (first + i)
    (acc.1 ++ bs, acc.2.1 || p, s)) (([] : List Byte), false, s)
  if n = 0 then ([], false, s) else ((r.1.drop (a % 32)).take n, r.2.1, r.2.2)

/-! ## View caches (R71, R98) -/

/-- 64 × `n` bits whose values R10 leaves unpredictable (log entry 9). -/
def unpredictableBits (s : State) (n : Nat) : Nat × State :=
  ((List.range n).foldr (fun i acc => (Config.unpredictable (s.tick + i)).toNat + 2 ^ 64 * acc) 0, { s with tick := s.tick + n })

/-- A fill: the descriptor as its home holds it, and what validation finds; poison makes it illegal. What a fill reads of a
descriptor that was changed out of R74's order is unpredictable (R10, log entry 9). -/
def fillView (s : State) (n : Nat) : VEntry × State :=
  let (bs, p, s) := bulkBytes s 0 (DESCBASE + 64 * n) 64
  let (bits, s) := if s.tornViews.contains n then unpredictableBits s 8 else (leNat bs, s)
  let v := VDesc.ofNat bits
  (⟨n, v, if p then .illegal 2 else v.outcome s⟩, s)

/-- An entry taken to the front of a cache of `size` entries. -/
def cacheView (size : Nat) (e : VEntry) (cache : List VEntry) : List VEntry :=
  (e :: cache.filter fun x => x.view != e.view).take size

/-- The descriptor that a core's load/store unit uses for a view, filled on a miss. -/
def lsuView (s : State) (c n : Nat) : VEntry × State :=
  let (e, s) := match (s.core c).vcache.find? fun x => x.view == n with
    | some e => (e, s)
    | none =>
      let (e, s) := fillView s n
      (e, s.countDie (coreDie c) .vcmiss)
  (e, s.modCore c fun k => { k with vcache := cacheView 32 e k.vcache })

def State.engine (s : State) (d e : Nat) : Engine := ((s.die d).engines[e]?).getD Engine.reset
def State.setEngine (s : State) (d e : Nat) (x : Engine) : State := s.modDie d fun k => { k with engines := k.engines.set e x }

/-- The descriptor that a view engine supplies for a view, filled on a miss. -/
def engineView (s : State) (d e n : Nat) : VEntry × State :=
  let (x, s) := match (s.engine d e).vcache.find? fun x => x.view == n with
    | some x => (x, s)
    | none =>
      let (x, s) := fillView s n
      (x, s.countDie d .vcmiss)
  (x, s.setEngine d e { s.engine d e with vcache := cacheView 64 x (s.engine d e).vcache })

/-- Every view cache of the device drops the entries that the test names (R73). -/
def dropViews (s : State) (p : VEntry → Bool) : State :=
  { s with
    cores := s.cores.map fun k => { k with vcache := k.vcache.filter fun x => !p x }
    dies := s.dies.map fun k => { k with engines := k.engines.map fun e =>
      { e with vcache := e.vcache.filter fun x => !p x } } }

/-- A walker marks the frames of a tolerant page and drops the descriptors that reach them (R98). -/
def markTolerant (s : State) (pa frames : Nat) : State :=
  let d := homeDie pa
  let f0 := dieOffset pa / 65536
  let s := s.modDie d fun k => { k with tolMap := (List.range frames).foldl (fun m i => insertNat (f0 + i) m) k.tolMap }
  dropViews s fun x => homeDie x.desc.base == d && fieldOf x.desc.base 46 1 == 0
    && (List.range frames).any fun i => x.desc.frames (f0 + i)

/-! ## Counters of views (R101) -/

def VIEWCNT (n : Nat) : Nat := 0x4000 + 8 * n
def VECNT (d : Nat) : Nat := 0x220 + 8 * d

/-- The counters of a view of this device's table; another device's view, whose descriptor a request carries, counts there. -/
def countOob (s : State) (n k : Nat) : State := if n < 2048 then s.count (VIEWCNT n) 32 32 k else s
def countViewFault (s : State) (n : Nat) : State := if n < 2048 then s.count (VIEWCNT n) 0 32 1 else s

/-! ## Indices (R93) -/

/-- Index words read, by view row. -/
abbrev IndexTable := List (Nat × RowIx)

/-- A request of a die's engine is a message of the die (R30). -/
def hearDie (s : State) (d : Nat) : State := noteHeard s (.die (BitVec.ofNat 2 d))

/-- A word at its home as a relaxed load of die `d` reads it, on this device or another. -/
def readIndexWord (s : State) (d pa : Nat) : Word × Bool × State :=
  if isRemoteWord (pa / 4) then
    if reachable s (remoteDevice pa) then (Config.outsideWord s.tick, false, s.nextTick)
    else (poisonWord, true, s.deliverPoison d (pa / 32 * 32))
  else
    let s := askHome (hearDie s d) [pa / 4]
    let (v, p) := readForward s (pa / 4)
    (v, p, if p then deliverSectors s [pa / 32] else s)

/-- Each index that the rows name, read once. -/
def readIndices (s : State) (d listBase rows : Nat) (want : List Nat) : IndexTable × Bool × State :=
  want.foldl (fun (acc : IndexTable × Bool × State) i =>
    if (look i acc.1).isSome then acc
    else
      let (w, p, s) := readIndexWord acc.2.2 d (listBase + 4 * i)
      (put i (RowIx.ofWord w rows) acc.1, acc.2.1 || p, s)) ([], false, s)

def IndexTable.at (t : IndexTable) (i : Nat) : RowIx := (look i t).getD .null

/-- Rows of a GATHER view that a run of view bytes touches. -/
def VDesc.rowsOf (v : VDesc) (o n : Nat) : List Nat :=
  if v.isGather && v.rowb != 0 && n != 0 then
    (List.range ((o + n - 1) / v.rowb + 1 - o / v.rowb)).map fun i => o / v.rowb + i
  else []

/-- The base bits of `n` view bytes from offset `o` under the indices read. -/
def VDesc.bits (v : VDesc) (ix : IndexTable) (o n : Nat) : List (Option Nat) :=
  (List.range (8 * n)).map fun j => if v.isGather then v.gatherBit ix.at (8 * o + j) else v.baseBit (8 * o + j)

/-! ## Composition (R85 to R87) -/

/-- What a bulk request has met so far: the fault of the highest priority, and by its first view offset a write to the view
table without VIEWADM, a counted index, poison, and a sealed granule; and the rows counted. -/
structure BulkFlags where
  fault : Option TrapInfo
  table : Option Nat
  gather : Option Nat
  poison : Option Nat
  sealedW : Option Nat
  counted : List Nat
deriving DecidableEq, Repr

def BulkFlags.none : BulkFlags := ⟨Option.none, Option.none, Option.none, Option.none, Option.none, []⟩

/-- Of two faults met one after the other the one of the higher priority; of one cause the first address, and the lowest subcause
(R218, R341). -/
def worseFault (x : Option TrapInfo) (y : TrapInfo) : TrapInfo :=
  match x with
  | some x =>
    if y.cause.priority < x.cause.priority then y
    else if y.cause = x.cause ∧ y.sub < x.sub then { x with sub := y.sub }
    else x
  | none => y

/-- The fault of a view sector that starts at offset `o`, if it fails: the lowest subcause of VIEWF, before TOLVIEW
(R87, R98, R100, R218). -/
def sectorFault (e : VEntry) (o : Nat) : Option TrapInfo :=
  let past := decide (e.desc.extent ≤ o)
  match e.outcome with
  | .illegal sub => some ⟨.viewf, if sub = 5 && past then 3 else sub, 0, o⟩
  | .tolerantD => some (if past then ⟨.viewf, 3, 0, o⟩ else ⟨.tolview, 0, 0, o⟩)
  | .legal => if past then some ⟨.viewf, 3, 0, o⟩ else none

/-- The fault of a view sector that is to be written. -/
def sectorWriteFault (e : VEntry) (o : Nat) : Option TrapInfo :=
  match sectorFault e o with
  | none => if e.desc.wr then none else some ⟨.viewf, 4, 0, o⟩
  | some x => if !e.desc.wr && (x.cause == .tolview || x.sub == 5) then some ⟨.viewf, 4, 0, o⟩ else some x

/-- A base sector through a request's composition buffer of 2,048 sectors (R85); sectors read count at the composing die. -/
def bufferedSector (s : State) (d : Nat) (buf : List (Nat × List Byte × Bool)) (sec : Nat) :
    (List Byte × Bool) × List (Nat × List Byte × Bool) × State :=
  match buf.find? fun x => x.1 == sec with
  | some x => (x.2, (x :: buf.filter fun y => y.1 != sec), s)
  | none =>
    let (bs, p, s) := bulkSector s d sec
    ((bs, p), ((sec, bs, p) :: buf).take 2048, if isRemoteWord (8 * sec) then s else s.countUnits (VECNT d) 0 32 1)

def bitOfBytes (bs : List Byte) (i : Nat) : Bool := ((bs[i / 8]?).getD 0#8).getLsbD (i % 8)

/-- A byte from its eight bits, least significant first. -/
def byteOfBits (b : Nat → Bool) : Byte :=
  (List.range 8).foldl (fun x i => if b i then x ||| (1#8 <<< i) else x) 0#8

/-- Out-of-range rows of a run of view bytes that the operation has not counted yet. -/
def newCounted (v : VDesc) (ix : IndexTable) (seen : List Nat) (o n : Nat) : List Nat :=
  (v.rowsOf o n).filter fun r => ix.at r == .counted && !seen.contains r

/-- Rows counted for the operation: OOB, and the first counted offset where GCHK asks for it (R92, R94). -/
def noteCounted (s : State) (e : VEntry) (f : BulkFlags) (o : Nat) (rows : List Nat) : BulkFlags × State :=
  if rows.isEmpty then (f, s)
  else
    let first := max o ((rows.head?.getD 0) * e.desc.rowb)
    ({ f with counted := f.counted ++ rows, gather := if e.desc.gchk then f.gather <|> some first else f.gather },
      countOob s e.view rows.length)

/-- Stacks in which some of the base sectors lie under an enabled shape record of another ELEM (R52). -/
def shapeMisses (s : State) (elem : Nat) (secs : List Nat) : List Nat :=
  (secs.filterMap fun sec =>
    if isRemoteWord (8 * sec) then none
    else
      let d := homeDie (32 * sec)
      let a := dieOffset (32 * sec)
      let rec? := (List.range 16).find? fun i =>
        let base := s.field (SHBASE d i) 21 16 * 2 ^ 21
        s.field (SHCFG d i) 0 1 == 1 && decide (base ≤ a ∧ a < base + s.field (SHCFG d i) 48 16 * 2 ^ 21)
      match rec?, (s.die d).single with
      | some i, none => if s.field (SHCFG d i) 16 6 = elem then none else (placeRaw s d a).map (·.stack)
      | _, _ => none).dedup

/-- SHAPEMIS counts the composition in each such stack: one composition is one view sector, read or written (DESIGN CHOICE, log
entry 91). -/
def countShapeMiss (s : State) (elem : Nat) (secs : List Nat) : State :=
  (shapeMisses s elem secs).foldl (fun s n => s.count (STK n 0x48) 0 16 1) s

/-- View sector `vs` composed by an engine of die `d` for a read: its 32 bytes, each with whether poison reached it. -/
def composeRead (s : State) (d : Nat) (e : VEntry) (ix : IndexTable) (buf : List (Nat × List Byte × Bool))
    (f : BulkFlags) (vs : Nat) : List (Byte × Bool) × List (Nat × List Byte × Bool) × BulkFlags × State :=
  let o := 32 * vs
  match sectorFault e o with
  | some t => (List.replicate 32 (0#8, false), buf, { f with fault := some (worseFault f.fault t) }, s)
  | none =>
    let bits := e.desc.bits ix o (min 32 (e.desc.extent - o))
    let secs := (bits.filterMap fun b => b.map (· / 256)).dedup
    let s := countShapeMiss s e.desc.elem secs
    let (tbl, buf, s) := secs.foldl (fun (acc : List (Nat × List Byte × Bool) × List (Nat × List Byte × Bool) × State) k =>
      let (x, buf, s) := bufferedSector acc.2.2 d acc.2.1 k
      ((k, x) :: acc.1, buf, s)) (([] : List (Nat × List Byte × Bool)), buf, s)
    let find (i : Nat) : Option (Nat × List Byte × Bool) := ((bits[i]?).join).bind fun b => (look (b / 256) tbl).map fun x => (b, x)
    let bit (i : Nat) : Bool := match find i with
      | some (b, x) => bitOfBytes x.1 (b % 256)
      | none => false
    let bad (i : Nat) : Bool := match find i with
      | some (_, x) => x.2
      | none => false
    let (f, s) := noteCounted s e f o (newCounted e.desc ix f.counted o (min 32 (e.desc.extent - o)))
    let out : List (Byte × Bool) :=
      (List.range 32).map fun i => (byteOfBits fun j => bit (8 * i + j), (List.range 8).any fun j => bad (8 * i + j))
    (out, buf, { f with poison := f.poison <|> (out.findIdx? (·.2)).map (o + ·) }, if fieldOf e.desc.base 46 1 = 1 then s else s.countUnits (VECNT d) 32 32 1)

/-- The enabled write that a run of base bits with values makes; of several values for one bit the last stands (R90). -/
def bitsWrite (bits : List (Option Nat)) (val : Nat → Bool) : EnWrite :=
  let pairs := bits.zipIdx.filterMap fun x => x.1.map fun b => (b, val x.2)
  (pairs.map fun x => x.1 / 8).dedup.map fun a =>
    let here := pairs.filter fun x => x.1 / 8 == a
    let last (j : Nat) : Option Bool := (here.filter fun x => x.1 % 8 == j).getLast?.map (·.2)
    (a, byteOfBits fun j => (last j).getD false, byteOfBits fun j => (last j).isSome)

/-- A bulk request's write of its base sectors at their homes: dropped on sealed granules, and by another device that answers
SEALED or that cannot be reached (R86, R97, R205, R207). Whether a home refused some of it as sealed. -/
def bulkWrite (s : State) (w : EnWrite) : Bool × State :=
  let w := mergeWrites w
  let far := w.filter fun x => isRemoteWord (x.1 / 4)
  let near := w.filter fun x => !isRemoteWord (x.1 / 4)
  let ok := near.filter fun x => (sealAt s x.1).isNone
  let s := storeBulk s ok
  let (refused, s) := match far with
    | [] => (false, s)
    | x :: _ =>
      if !reachable s (remoteDevice x.1) then (false, s)
      else if (Config.outsideSeal s.tick).isSome then (true, s.nextTick)
      else (false, sendRemote s.nextTick far)
  (decide (ok.length < near.length) || refused, s)

/-- The enabled write of base bytes that view bytes from offset `o`, all in one view sector, map to: nothing in the view table
without VIEWADM (R70, log entry 92). VSEC counts composed reads alone (DESIGN CHOICE, log entry 101). -/
def composeWrite (s : State) (adm : Bool) (e : VEntry) (ix : IndexTable) (f : BulkFlags) (o : Nat) (bytes : List Byte) :
    EnWrite × BulkFlags × State :=
  match sectorWriteFault e (o / 32 * 32) with
  | some t => ([], { f with fault := some (worseFault f.fault t) }, s)
  | none =>
    let n := min bytes.length (e.desc.extent - o)
    let bits := e.desc.bits ix o n
    let all := bitsWrite bits fun i => bitOfBytes bytes i
    let s := countShapeMiss s e.desc.elem (all.map fun x => x.1 / 32).dedup
    let (f, s) := noteCounted s e f o (newCounted e.desc ix f.counted o n)
    let firstWhere (p : Nat → Bool) : Option Nat := (bits.findIdx? fun b => b.any fun k => p (k / 8)).map fun i => o + i / 8
    let table (a : Nat) : Bool := !adm && inViewTable a
    let f := { f with
      table := f.table <|> firstWhere table
      sealedW := f.sealedW <|> firstWhere fun a => !isRemoteWord (a / 4) && (sealAt s a).isSome }
    (all.filter fun x => !table x.1, f, s)

end Sys2Proof.Machine
end

