-- ==== Sys2Proof/Machine/Engine.lean ====
section
/-! DEFINITION. Engine: bulk requests in the view engines, which issued requests wait for (R84 to R87, R96 to R98). -/

namespace Sys2Proof.Machine

/-! ## What a request reads of indices (R92, R93) -/

def OpViews.none : OpViews := ⟨[], []⟩

/-- The indices of the rows that a run of view bytes touches, each read once for the operation (R93); the first view offset in the
run whose index was poison (R341). -/
def opIndices (s : State) (d : Nat) (v : OpViews) (e : VEntry) (o n : Nat) : IndexTable × Option Nat × OpViews × State :=
  if e.desc.isGather && e.outcome == .legal then
    let known := (look e.view v.ix).getD []
    let (tbl, p, s) := (e.desc.rowsOf o (min n (e.desc.extent - o))).foldl
      (fun (acc : List (Nat × Word) × Option Nat × State) r =>
        if (look r acc.1).isSome then acc
        else
          let (w, p, s) := readIndexWord acc.2.2 d (e.desc.indexBase + 4 * r)
          (put r w acc.1, acc.2.1 <|> (if p then some (max o (r * e.desc.rowb)) else none), s)) (known, none, s)
    (tbl.map fun x => (x.1, RowIx.ofWord x.2 (e.desc.dim 0)), p, { v with ix := put e.view tbl v.ix }, s)
  else ([], none, v, s)

def OpViews.flags (v : OpViews) (view : Nat) : BulkFlags :=
  { BulkFlags.none with counted := (v.counted.filter fun x => x.1 == view).map (·.2) }

def OpViews.count (v : OpViews) (view : Nat) (rows : List Nat) : OpViews :=
  { v with counted := (v.counted.filter fun x => x.1 != view) ++ rows.map fun r => (view, r) }

/-! ## Who composes (R84, R96 to R98) -/

/-- The die that composes a request of die `d`, and the descriptor as it finds it there: BASE's home die checks its own
tolerant-frame map, and whether another device finds a marked frame in its map is free (log entry 7). -/
def composer (s : State) (d : Nat) (x : VEntry) : VEntry × Nat × State :=
  if x.outcome != .legal then (x, d, s)
  else if fieldOf x.desc.base 46 1 = 1 then
    if reachable s (remoteDevice x.desc.base) && (Config.freeBits s.tick).getLsbD 0 then
      ({ x with outcome := .tolerantD }, d, s.nextTick)
    else (x, d, s.nextTick)
  else
    let h := homeDie x.desc.base
    (if h != d && (s.die h).tolMap.any x.desc.frames then { x with outcome := .tolerantD } else x, h, s)

/-! ## The engines -/

/-- A finished request delivers what it read. -/
def engineDone (s : State) (r : EngReq) : State :=
  if r.data.isSome then s else s.emit (.composed r.view r.first r.out r.poison)

/-- An illegal or tolerant descriptor: every view sector delivers zeros, or writes nothing (R87, R98). -/
def engineFail (s : State) (r : EngReq) : State := engineDone s { r with out := List.replicate (32 * r.count) 0#8 }

/-- A request waits at a die, or goes to its lowest-numbered idle engine. -/
def offerRequest (s : State) (d : Nat) (r : EngReq) : State :=
  match (List.range 4).find? fun e => (s.engine d e).req.isNone with
  | some e => s.setEngine d e { s.engine d e with req := some r }
  | none => s.modDie d fun k => { k with engWait := k.engWait ++ [r] }

/-- An idle engine of die `d` takes a request: one passed to it is composed; a new one first takes its descriptor, and
stays here or goes to BASE's home die. Another device's part is composed here, with that device's words (log entry 7). -/
def takeRequest (s : State) (d e : Nat) (r : EngReq) : State :=
  match r.entry with
  | some x =>
    if x.outcome != .legal then engineFail s r
    else s.setEngine d e { s.engine d e with req := some r }
  | none =>
    let (x, s) := engineView s d e r.view
    let (x, h, s) := composer s d x
    if x.outcome != .legal then engineFail (countViewFault s r.view) r
    else if h = d then s.setEngine d e { s.engine d e with req := some { r with entry := some x } }
    else offerRequest s h { r with entry := some x }

/-- Waiting requests of a die go to an engine while it is idle. -/
def refillEngine (d e : Nat) : Nat → State → State
  | 0, s => s
  | n + 1, s =>
    match (s.engine d e).req, (s.die d).engWait with
    | none, r :: rest => refillEngine d e n (takeRequest (s.modDie d fun k => { k with engWait := rest }) d e r)
    | _, _ => s

/-- An engine's request ends: what it has composed for a write goes home as one write (R62, R86), and the engine takes the next
request. -/
def endRequest (s : State) (d e : Nat) (r : EngReq) : State :=
  let s := engineDone (bulkWrite (s.setEngine d e { s.engine d e with req := none }) r.writes).2 r
  refillEngine d e (s.die d).engWait.length s

/-- The first failing view sector of a request counts in FAULTS, once for the request (R101). -/
def requestFlags (s : State) (r : EngReq) (x : VEntry) (f : BulkFlags) : State :=
  let o := 32 * (r.first + r.done - 1)
  let first := r.done == 0 || (if r.data.isSome then sectorWriteFault x o else sectorFault x o).isNone
  if f.fault.isSome && first then countViewFault s r.view else s

/-- The next view sector of an engine's request is composed. A write's bits are kept until the request ends. -/
def engineStep (s : State) (d e : Nat) : State :=
  match (s.engine d e).req with
  | none => s
  | some r => match r.entry with
    | none => s
    | some x =>
      let vs := r.first + r.done
      let (ix, p, v, s) := opIndices s d r.views x (32 * vs) 32
      let f0 := v.flags r.view
      let (r', f, s) : EngReq × BulkFlags × State := match r.data with
        | none =>
          let (bs, buf, f, s) := composeRead s d x ix r.buf f0 vs
          ({ r with out := r.out ++ bs.map Prod.fst, poison := r.poison || p.isSome || f.poison.isSome, buf := buf }, f, s)
        | some bytes =>
          let (w, f, s) := composeWrite s false x ix f0 (32 * vs) ((bytes.drop (32 * r.done)).take 32)
          ({ r with writes := r.writes ++ w }, f, s)
      let s := requestFlags s r x f
      let r := { r' with done := r.done + 1, views := v.count r.view f.counted }
      if r.count ≤ r.done then endRequest s d e r else s.setEngine d e { s.engine d e with req := some r }

/-- The engine of die `d` that a request takes: the lowest-numbered idle one. -/
def idleEngine (s : State) (d : Nat) : Nat :=
  ((List.range 4).find? fun e => (s.engine d e).req.isNone).getD 0

/-- View sectors that the requests at a die have left at most. -/
def engineWork (s : State) (d : Nat) : Nat := 128 * (4 + (s.die d).engWait.length)

/-- Requests wait in arrival order while every engine is busy (R84): the engines of a die work until no request waits and one of
them is idle. -/
def finishEngines (d : Nat) : Nat → State → State
  | 0, s => s
  | n + 1, s =>
    if (s.die d).engWait.isEmpty && (List.range 4).any fun e => (s.engine d e).req.isNone then s
    else match (List.range 4).find? fun e => (s.engine d e).req.isSome with
      | some e => finishEngines d n (engineStep s d e)
      | none => finishEngines d n (refillEngine d 0 1 s)

/-- The descriptor that a bulk request of a core of die `d` uses, and the die that composes it, each by an engine that it has
waited for (R84, R98). -/
def takeView (s : State) (d view : Nat) : VEntry × Nat × State :=
  let s := finishEngines d (engineWork s d) s
  let (e, s) := engineView s d (idleEngine s d) view
  let (e, h, s) := composer s d e
  (e, h, if h = d then s else finishEngines h (engineWork s h) s)

/-! ## Requests from outside this device (R97) -/

/-- The view number of a descriptor that another device's request carries: none of this device's view table, so that no counter
of a view moves here. -/
def carriedView : Nat := 2048

/-- A carried descriptor as an engine of BASE's home die uses it: BASE without the device that it names. -/
def carriedEntry (s : State) (desc : Nat) : VEntry :=
  let v := VDesc.ofNat desc
  let v := { v with base := v.base % 2 ^ 39 }
  ⟨carriedView, v, v.outcome s⟩

end Sys2Proof.Machine
end

