-- ==== Sys2Proof/Machine/Formats.lean ====
section
/-! DEFINITION. Formats: the number formats of R232 to R236, exact values, rounding (R237, R238), the flags of R240
and the NaN rules of R241. Finite values are exact dyadic rationals, so nothing is lost before the one rounding. -/

namespace Sys2Proof.Machine

/-! ## Exact values -/

/-- The dyadic rational `m × 2^e`. -/
structure Dy where
  (m e : Int)
deriving DecidableEq, Repr

def Dy.zero : Dy := ⟨0, 0⟩
def Dy.neg (x : Dy) : Dy := ⟨-x.m, x.e⟩
def Dy.mul (x y : Dy) : Dy := ⟨x.m * y.m, x.e + y.e⟩

/-- The integer that `x` is in units of `2^e`, for `e ≤ x.e`. -/
def Dy.scaled (x : Dy) (e : Int) : Int := x.m * 2 ^ (x.e - e).toNat

def Dy.add (x y : Dy) : Dy :=
  let e := min x.e y.e
  ⟨x.scaled e + y.scaled e, e⟩

def Dy.sub (x y : Dy) : Dy := x.add y.neg

def Dy.abs (x : Dy) : Dy := ⟨x.m.natAbs, x.e⟩

def Dy.le (x y : Dy) : Bool :=
  let e := min x.e y.e
  decide (x.scaled e ≤ y.scaled e)

def Dy.lt (x y : Dy) : Bool := !y.le x
def Dy.eqv (x y : Dy) : Bool := x.le y && y.le x
def Dy.isZero (x : Dy) : Bool := x.m == 0

/-- `⌊log2 |x|⌋` of a non-zero value. -/
def Dy.log2 (x : Dy) : Int := (Nat.log2 x.m.natAbs : Int) + x.e

/-- `x × 2^k`. -/
def Dy.shift (x : Dy) (k : Int) : Dy := ⟨x.m, x.e + k⟩

/-- `x` truncated toward zero to a multiple of `2^q` (R245). -/
def Dy.trunc (x : Dy) (q : Int) : Dy :=
  if q ≤ x.e then x
  else
    let s := 2 ^ (q - x.e).toNat
    ⟨x.m.sign * (x.m.natAbs / s : Nat), q⟩

/-- `⌊x⌋`. -/
def Dy.floor (x : Dy) : Int :=
  if 0 ≤ x.e then x.m * 2 ^ x.e.toNat else x.m.fdiv (2 ^ (-x.e).toNat)

/-! ## Formats -/

/-- The special codes of a format: as R232, E4M3's single NaN, or none (R233). -/
inductive Specials where
  | ieee | e4m3 | none
deriving DecidableEq, Repr

/-- A floating-point format: exponent bits, fraction bits, special codes (R232, R233). -/
structure Fmt where
  (ebits fbits : Nat)
  specials : Specials
deriving DecidableEq, Repr

def Fmt.fp64 : Fmt := ⟨11, 52, .ieee⟩
def Fmt.fp32 : Fmt := ⟨8, 23, .ieee⟩
def Fmt.fp16 : Fmt := ⟨5, 10, .ieee⟩
def Fmt.bf16 : Fmt := ⟨8, 7, .ieee⟩
def Fmt.e4m3 : Fmt := ⟨4, 3, .e4m3⟩
def Fmt.e5m2 : Fmt := ⟨5, 2, .ieee⟩
def Fmt.e3m2 : Fmt := ⟨3, 2, .none⟩
def Fmt.e2m3 : Fmt := ⟨2, 3, .none⟩
def Fmt.e2m1 : Fmt := ⟨2, 1, .none⟩

def Fmt.bias (f : Fmt) : Int := 2 ^ (f.ebits - 1) - 1
def Fmt.topExp (f : Fmt) : Nat := 2 ^ f.ebits - 1
/-- Exponent of the smallest normal value. -/
def Fmt.emin (f : Fmt) : Int := 1 - f.bias
def Fmt.width (f : Fmt) : Nat := 1 + f.ebits + f.fbits

/-- Bit pattern of the largest finite magnitude (R232, R233). -/
def Fmt.maxBits (f : Fmt) : Nat :=
  match f.specials with
  | .ieee => f.topExp * 2 ^ f.fbits - 1
  | .e4m3 => 2 ^ (f.ebits + f.fbits) - 2
  | .none => 2 ^ (f.ebits + f.fbits) - 1

def Fmt.signBit (f : Fmt) (neg : Bool) : Nat := if neg then 2 ^ (f.ebits + f.fbits) else 0

/-- Pattern of an infinity, for the formats that have one. -/
def Fmt.infBits (f : Fmt) (neg : Bool) : Nat := f.signBit neg + f.topExp * 2 ^ f.fbits

/-- The quiet NaN with no payload and the given sign; E4M3's only NaN is all ones (R233, R241). -/
def Fmt.nanBits (f : Fmt) (neg : Bool) : Nat :=
  match f.specials with
  | .e4m3 => f.signBit neg + (2 ^ (f.ebits + f.fbits) - 1)
  | _ => f.signBit neg + f.topExp * 2 ^ f.fbits + 2 ^ (f.fbits - 1)

/-- What a bit pattern stands for. A finite value keeps its sign, so that zeros do; a NaN keeps its sign, whether it is
quiet, its fraction and the fraction's width. -/
inductive FVal where
  | fin (neg : Bool) (v : Dy)
  | inf (neg : Bool)
  | nan (neg quiet : Bool) (frac fbits : Nat)
deriving DecidableEq, Repr

/-- The value of a bit pattern (R232, R233). -/
def Fmt.read (f : Fmt) (bits : Nat) : FVal :=
  let frac := bits % 2 ^ f.fbits
  let ex := bits / 2 ^ f.fbits % 2 ^ f.ebits
  let neg := bits / 2 ^ (f.ebits + f.fbits) % 2 == 1
  let s : Int := if neg then -1 else 1
  let isTop := ex == f.topExp
  if isTop && f.specials == .ieee then
    if frac = 0 then .inf neg else .nan neg (decide (2 ^ (f.fbits - 1) ≤ frac)) frac f.fbits
  else if isTop && f.specials == .e4m3 && frac == 2 ^ f.fbits - 1 then .nan neg true frac f.fbits
  else if ex = 0 then .fin neg ⟨s * frac, f.emin - f.fbits⟩
  else .fin neg ⟨s * (2 ^ f.fbits + frac : Nat), (ex : Int) - f.bias - f.fbits⟩

def FVal.isNan : FVal → Bool
  | .nan .. => true
  | _ => false

def FVal.isSnan : FVal → Bool
  | .nan _ q _ _ => !q
  | _ => false

def FVal.isInf : FVal → Bool
  | .inf _ => true
  | _ => false

def FVal.isZero : FVal → Bool
  | .fin _ v => v.isZero
  | _ => false

def FVal.sign : FVal → Bool
  | .fin n _ => n
  | .inf n => n
  | .nan n _ _ _ => n

/-- The exact real of a finite value. -/
def FVal.real : FVal → Dy
  | .fin _ v => v
  | _ => Dy.zero

/-! ## STATUS flags of arithmetic (R225, R240) -/

structure FFlags where
  (nv dz of uf nx : Bool)
deriving DecidableEq, Repr

def FFlags.none : FFlags := ⟨false, false, false, false, false⟩
def FFlags.invalid : FFlags := ⟨true, false, false, false, false⟩
def FFlags.or (a b : FFlags) : FFlags := ⟨a.nv || b.nv, a.dz || b.dz, a.of || b.of, a.uf || b.uf, a.nx || b.nx⟩

/-- The flags in the places of R225: NV bit 8, DZ 9, OF 10, UF 11, NX 12. -/
def FFlags.bits (f : FFlags) : Word :=
  (if f.nv then 0x100#32 else 0#32) ||| (if f.dz then 0x200#32 else 0#32) ||| (if f.of then 0x400#32 else 0#32)
    ||| (if f.uf then 0x800#32 else 0#32) ||| (if f.nx then 0x1000#32 else 0#32)

/-! ## Rounding -/

/-- Rounding modes (R237). -/
inductive RMode where
  | rne | rz | rd | ru | rna
deriving DecidableEq, Repr

/-- The mode of an RM field; 000 is RNE (R237). -/
def RMode.ofField (rm : BitVec 3) : RMode :=
  match rm.toNat with
  | 2 => .rz
  | 3 => .rd
  | 4 => .ru
  | 5 => .rna
  | _ => .rne

/-- Whether the magnitude `q + r / d`, `0 < r < d`, rounds up to `q + 1` (R237). -/
def RMode.roundsUp (mode : RMode) (neg : Bool) (q r d : Nat) : Bool :=
  match mode with
  | .rne => 2 * r > d || (2 * r == d && q % 2 == 1)
  | .rz => false
  | .rd => neg
  | .ru => !neg
  | .rna => decide (2 * r ≥ d)

/-- Result of an overflow (R238, step 3). -/
def Fmt.overflow (f : Fmt) (mode : RMode) (sat neg : Bool) : Nat :=
  let big := f.signBit neg + f.maxBits
  let toMax := sat || (match mode with
    | .rne | .rna => false
    | .rz => true
    | .rd => !neg
    | .ru => neg)
  if toMax then big
  else match f.specials with
    | .ieee => f.infBits neg
    | .e4m3 => f.nanBits neg
    | .none => big

/-- The exact value `n / d` (magnitude, `0 < n`, `0 < d`) in units of `2^q`, rounded to an integer, and whether that is
inexact. -/
def roundUnits (mode : RMode) (neg : Bool) (n d : Nat) (q : Int) : Nat × Bool :=
  let num := n * 2 ^ (-q).toNat
  let den := d * 2 ^ q.toNat
  let m := num / den
  let r := num % den
  if r = 0 then (m, false) else (if mode.roundsUp neg m r den then m + 1 else m, true)

/-- Bit pattern of the magnitude `m × 2^q`, where `q` is the quantum exponent that rounding used. -/
def Fmt.pack (f : Fmt) (m : Nat) (q : Int) : Nat :=
  let (m, q) := if m = 2 ^ (f.fbits + 1) then (2 ^ f.fbits, q + 1) else (m, q)
  if m < 2 ^ f.fbits then m
  else (q + f.fbits + f.bias).toNat * 2 ^ f.fbits + (m - 2 ^ f.fbits)

/-- A non-zero exact magnitude `n / d` with sign, rounded to the format (R238): pattern and flags. -/
def Fmt.roundRat (f : Fmt) (mode : RMode) (sat neg : Bool) (n d : Nat) : Nat × FFlags :=
  let e0 : Int := (Nat.log2 n : Int) - Nat.log2 d
  let e := if n * 2 ^ (-e0).toNat < d * 2 ^ e0.toNat then e0 - 1 else e0
  let q := max e f.emin - f.fbits
  let (m, inexact) := roundUnits mode neg n d q
  let mag := f.pack m q
  if mag > f.maxBits then (f.overflow mode sat neg, ⟨false, false, true, false, true⟩)
  else (f.signBit neg + mag, ⟨false, false, false, decide (e < f.emin) && inexact, inexact⟩)

/-- An exact dyadic value rounded to the format; `negZero` is the sign of an exact zero. -/
def Fmt.round (f : Fmt) (mode : RMode) (sat negZero : Bool) (x : Dy) : Nat × FFlags :=
  if x.m = 0 then (f.signBit negZero, FFlags.none)
  else f.roundRat mode sat (decide (x.m < 0)) (x.m.natAbs * 2 ^ x.e.toNat) (2 ^ (-x.e).toNat)

/-- An infinity delivered to the format (R238). -/
def Fmt.roundInf (f : Fmt) (mode : RMode) (sat neg : Bool) : Nat × FFlags :=
  match f.specials with
  | .ieee => (f.infBits neg, FFlags.none)
  | _ => (f.overflow mode sat neg, ⟨false, false, true, false, true⟩)

/-- A NaN delivered to the format: sign and leading payload bits kept, made quiet; from a format of 8 bits or fewer,
the default NaN with the source's sign (R241). -/
def Fmt.quiet (f : Fmt) : FVal → Nat
  | .nan neg _ frac fb =>
    if fb ≤ 3 then f.nanBits neg
    else
      let fr := if fb ≤ f.fbits then frac * 2 ^ (f.fbits - fb) else frac / 2 ^ (fb - f.fbits)
      let lead := 2 ^ (f.fbits - 1)
      f.signBit neg + f.topExp * 2 ^ f.fbits + (if fr < lead then fr + lead else fr)
  | _ => f.nanBits false

/-- `NAN_OUT`: the first NaN source made quiet, or the default NaN (R241). -/
def Fmt.nanOut (f : Fmt) (xs : List FVal) : Nat :=
  match xs.find? FVal.isNan with
  | some x => f.quiet x
  | none => f.nanBits false

/-- The NaN result of a lane operation with its flags: NV for a signalling source or an invalid operation. -/
def Fmt.nanResult (f : Fmt) (xs : List FVal) (invalid : Bool) : Nat × FFlags :=
  (f.nanOut xs, { FFlags.none with nv := invalid || xs.any FVal.isSnan })

/-! ## Arithmetic -/

/-- Sign of an exact zero sum of two terms with these signs: the common sign, else + except under RD (R287). -/
def zeroSign (mode : RMode) (a b : Bool) : Bool := if a = b then a else mode == .rd

/-- `x + y` rounded once (R287). -/
def Fmt.addF (f : Fmt) (mode : RMode) (sat : Bool) (x y : FVal) : Nat × FFlags :=
  if x.isNan || y.isNan then f.nanResult [x, y] false
  else match x, y with
    | .inf a, .inf b => if a = b then f.roundInf mode sat a else f.nanResult [] true
    | .inf a, _ => f.roundInf mode sat a
    | _, .inf b => f.roundInf mode sat b
    | _, _ =>
      let neg := if x.isZero && y.isZero then zeroSign mode x.sign y.sign else mode == .rd
      f.round mode sat neg (x.real.add y.real)

def FVal.negate : FVal → FVal
  | .fin n v => .fin (!n) v.neg
  | .inf n => .inf (!n)
  | .nan n q p b => .nan n q p b

/-- `x × y` rounded once (R287). -/
def Fmt.mulF (f : Fmt) (mode : RMode) (sat : Bool) (x y : FVal) : Nat × FFlags :=
  if x.isNan || y.isNan then f.nanResult [x, y] false
  else if (x.isInf && y.isZero) || (x.isZero && y.isInf) then f.nanResult [] true
  else if x.isInf || y.isInf then f.roundInf mode sat (x.sign != y.sign)
  else f.round mode sat (x.sign != y.sign) (x.real.mul y.real)

/-- `x × y + z` rounded once; 0 × ∞ sets NV and gives z's NaN or the default NaN (R287). -/
def Fmt.fmaF (f : Fmt) (mode : RMode) (sat : Bool) (x y z : FVal) : Nat × FFlags :=
  let zeroTimesInf := (x.isInf && y.isZero) || (x.isZero && y.isInf)
  let ps := x.sign != y.sign
  if x.isNan || y.isNan || z.isNan then f.nanResult [x, y, z] zeroTimesInf
  else if zeroTimesInf then f.nanResult [] true
  else if x.isInf || y.isInf then
    if z == .inf (!ps) then f.nanResult [] true else f.roundInf mode sat ps
  else match z with
    | .inf zs => f.roundInf mode sat zs
    | _ =>
      let p := x.real.mul y.real
      let neg := if p.isZero && z.isZero then zeroSign mode ps z.sign else mode == .rd
      f.round mode sat neg (p.add z.real)

/-- `x < y` on values that are not NaN; −0 equals +0. -/
def FVal.lt (x y : FVal) : Bool :=
  match x, y with
  | .inf a, .inf b => a && !b
  | .inf a, _ => a
  | _, .inf b => !b
  | _, _ => x.real.lt y.real

def FVal.eqv (x y : FVal) : Bool := !x.isNan && !y.isNan && !x.lt y && !y.lt x

/-- The lesser (or greater) of two patterns by R288: −0 below +0, one NaN gives the other operand, two give NAN_OUT. -/
def Fmt.minMax (f : Fmt) (wantMax : Bool) (a b : Nat) : Nat × FFlags :=
  let x := f.read a
  let y := f.read b
  let fl : FFlags := { FFlags.none with nv := x.isSnan || y.isSnan }
  if x.isNan && y.isNan then (f.nanOut [x, y], fl)
  else if x.isNan then (b, fl)
  else if y.isNan then (a, fl)
  else
    let less := x.lt y || (x.eqv y && x.sign && !y.sign)
    (if less != wantMax then a else b, fl)

/-- Bit pattern of the integer `k` in the format, with 0 as +0 (R255); exact for every inline constant. -/
def Fmt.ofInt (f : Fmt) (k : Int) : Nat := (f.round .rne false false ⟨k, 0⟩).1

/-- The class bit of FCLASS (R288). -/
def fclassBit (x : Nat) : Nat :=
  match Fmt.fp32.read x with
  | .nan _ q _ _ => if q then 1 else 0
  | .inf n => if n then 2 else 9
  | .fin n v =>
    if v.isZero then (if n then 5 else 6)
    else
      let den := decide (v.log2 < Fmt.fp32.emin)
      match n, den with
      | true, false => 3
      | true, true => 4
      | false, true => 7
      | false, false => 8

end Sys2Proof.Machine
end

