-- ==== Sys2Proof/Machine/Convert.lean ====
section
/-! DEFINITION. Convert: every selector of CVT (R242), the scale formats (R235), the special functions of SFU with
their bounds (R243), and the narrowing of tolerant pages (R66). -/

namespace Sys2Proof.Machine

/-! ## CVT -/

/-- What a CVT selector reads and writes: a 64-bit A, a 64-bit D, whether C is read, whether D is merged (R242). -/
structure CvtShape where
  (a64 d64 usesC merge : Bool)
deriving DecidableEq, Repr

def cvtShape (sel : Nat) : Option CvtShape :=
  if sel ≤ 0x07 then some ⟨false, false, false, false⟩
  else if sel ≤ 0x09 then some ⟨false, false, true, false⟩
  else if sel = 0x0A ∨ sel = 0x0C then some ⟨false, true, false, false⟩
  else if sel = 0x0B ∨ sel = 0x0D then some ⟨true, false, false, false⟩
  else if 0x10 ≤ sel ∧ sel ≤ 0x27 then some ⟨false, false, false, false⟩
  else if 0x30 ≤ sel ∧ sel ≤ 0x57 then some ⟨false, false, false, true⟩
  else if 0x58 ≤ sel ∧ sel ≤ 0x83 then some ⟨false, false, false, false⟩
  else none

/-- A wide value converted to a floating-point format (R238, R241). -/
def Fmt.convert (f : Fmt) (mode : RMode) (sat : Bool) (x : FVal) : Nat × FFlags :=
  match x with
  | .nan .. => f.nanResult [x] false
  | .inf n => f.roundInf mode sat n
  | .fin n v => f.round mode sat n v

/-- A value converted to an integer between `lo` and `hi`, as the integer delivered (R242, 0x02 and 0x03). -/
def toInt (mode : RMode) (lo hi : Int) (x : FVal) : Int × FFlags :=
  match x with
  | .nan .. => (0, FFlags.invalid)
  | .inf n => (if n then lo else hi, FFlags.invalid)
  | .fin neg v =>
    let (m, inexact) := roundUnits mode neg (v.m.natAbs * 2 ^ v.e.toNat) (2 ^ (-v.e).toNat) 0
    let i : Int := if neg then -(m : Int) else m
    if i < lo then (lo, FFlags.invalid)
    else if hi < i then (hi, FFlags.invalid)
    else (i, { FFlags.none with nx := inexact })

/-- The low `w` bits of an integer. -/
def intBits (w : Nat) (i : Int) : Nat := (i % (2 ^ w : Nat)).toNat

/-- The low `w` bits of `x` as a two's complement integer. -/
def sext (w x : Nat) : Int :=
  let v := x % 2 ^ w
  if w = 0 then 0 else if 2 ^ (w - 1) ≤ v then (v : Int) - (2 ^ w : Nat) else v

/-- `d` with its `w` bits at bit `lo` replaced by `v`. -/
def insertBits (d lo w v : Nat) : Nat :=
  d / 2 ^ (lo + w) * 2 ^ (lo + w) + v % 2 ^ w * 2 ^ lo + d % 2 ^ lo

/-- A NaN of a format of 8 bits or fewer is neither quiet nor signalling (R233). -/
def Fmt.readSmall (f : Fmt) (bits : Nat) : FVal :=
  match f.read bits with
  | .nan n _ p b => .nan n true p b
  | x => x

/-- FP32 to a small format: NaN handled by the selector's row (R242, 0x30 to 0x47). -/
def toSmall (f : Fmt) (mode : RMode) (sat : Bool) (x : FVal) : Nat × FFlags :=
  match x, f.specials with
  | .nan .., .none => (0, FFlags.invalid)
  | .nan n q _ _, _ => (f.nanBits n, { FFlags.none with nv := !q })
  | _, _ => f.convert mode sat x

/-- INT32 narrowed to an element, clamped under SAT (R242, 0x48 to 0x57); a value out of range sets NV either way (R240). -/
def narrowInt (sat : Bool) (lo hi : Int) (w a : Nat) : Nat × FFlags :=
  let i := sext 32 a
  let j := max lo (min hi i)
  (intBits w (if sat then j else i), { FFlags.none with nv := i != j })

/-- Selector 0x81, FP32 to E8M0. -/
def toE8m0 (mode : RMode) (sat : Bool) (x : FVal) : Nat × FFlags :=
  match x with
  | .nan .. => (0xFF, FFlags.invalid)
  | .inf n => (if sat then (if n then 0 else 0xFE) else 0xFF, FFlags.invalid)
  | .fin _ v =>
    if v.m ≤ 0 then (if sat then 0 else 0xFF, FFlags.invalid)
    else
      let n := v.log2
      let one := v.eqv ⟨1, n⟩
      let big := (Dy.mk 3 (n - 1)).le v
      let r := match mode with
        | .rz | .rd => n
        | .ru => if one then n else n + 1
        | .rne | .rna => if big then n + 1 else n
      if 127 < r then (if sat then 0xFE else 0xFF, ⟨false, false, true, false, true⟩)
      else if r < -127 then (0, ⟨false, false, false, true, true⟩)
      else ((r + 127).toNat, { FFlags.none with nx := !v.eqv ⟨1, r⟩ })

/-- Selector 0x83, FP32 to UE4M3. -/
def toUe4m3 (mode : RMode) (sat : Bool) (x : FVal) : Nat × FFlags :=
  if x.isNan || x.sign then (0x7F, FFlags.invalid)
  else
    let ovf := (if sat then 0x7E else 0x7F, (⟨false, false, true, false, true⟩ : FFlags))
    match x with
    | .fin _ v =>
      let (b, fl) := Fmt.e4m3.round mode sat false v
      if fl.of then ovf else (b, fl)
    | _ => ovf

/-- Value of an E8M0 scale; 0xFF is NaN (R235). -/
def e8m0 (b : Nat) : FVal := if b = 255 then .nan false true 0 23 else .fin false ⟨1, (b : Int) - 127⟩

/-- Value of a UE4M3 scale: bit 7 is ignored (R235). -/
def ue4m3 (b : Nat) : FVal := Fmt.e4m3.readSmall (b % 128)

/-- CVT: the destination bits (64 for the selectors that write a pair) and the flags, from A, C and D (R242). -/
def cvt (sel : Nat) (mode : RMode) (sat : Bool) (a c d : Nat) : Nat × FFlags :=
  let f32 := Fmt.fp32
  let x := f32.read (a % 2 ^ 32)
  let wide (f : Fmt) (bits : Nat) : Nat × FFlags := f32.convert .rne false (f.read bits)
  let small (f : Fmt) (bits : Nat) : Nat × FFlags := f32.convert .rne false (f.readSmall bits)
  let merge (w k : Nat) (r : Nat × FFlags) : Nat × FFlags := (insertBits d (if w = 6 then 8 * k else w * k) (if w = 6 then 8 else w) r.1, r.2)
  let pair (r s : Nat × FFlags) : Nat × FFlags := (r.1 + 2 ^ 16 * s.1, r.2.or s.2)
  if sel = 0x00 then f32.round mode sat false ⟨sext 32 a, 0⟩
  else if sel = 0x01 then f32.round mode sat false ⟨(a % 2 ^ 32 : Nat), 0⟩
  else if sel = 0x02 then let r := toInt mode (-2 ^ 31) (2 ^ 31 - 1) x; (intBits 32 r.1, r.2)
  else if sel = 0x03 then let r := toInt mode 0 (2 ^ 32 - 1) x; (intBits 32 r.1, r.2)
  else if sel = 0x04 then wide .fp16 (a % 2 ^ 16)
  else if sel = 0x05 then wide .fp16 (a / 2 ^ 16 % 2 ^ 16)
  else if sel = 0x06 then wide .bf16 (a % 2 ^ 16)
  else if sel = 0x07 then wide .bf16 (a / 2 ^ 16 % 2 ^ 16)
  else if sel = 0x08 then pair (Fmt.fp16.convert mode sat x) (Fmt.fp16.convert mode sat (f32.read c))
  else if sel = 0x09 then pair (Fmt.bf16.convert mode sat x) (Fmt.bf16.convert mode sat (f32.read c))
  else if sel = 0x0A then Fmt.fp64.convert .rne false x
  else if sel = 0x0B then f32.convert mode sat (Fmt.fp64.read a)
  else if sel = 0x0C then Fmt.fp64.round .rne false false ⟨sext 32 a, 0⟩
  else if sel = 0x0D then let r := toInt mode (-2 ^ 31) (2 ^ 31 - 1) (Fmt.fp64.read a); (intBits 32 r.1, r.2)
  else if sel ≤ 0x13 then small .e4m3 (a / 2 ^ (8 * (sel - 0x10)) % 2 ^ 8)
  else if sel ≤ 0x17 then small .e5m2 (a / 2 ^ (8 * (sel - 0x14)) % 2 ^ 8)
  else if sel ≤ 0x1B then small .e3m2 (a / 2 ^ (8 * (sel - 0x18)) % 2 ^ 6)
  else if sel ≤ 0x1F then small .e2m3 (a / 2 ^ (8 * (sel - 0x1C)) % 2 ^ 6)
  else if sel ≤ 0x27 then small .e2m1 (a / 2 ^ (4 * (sel - 0x20)) % 2 ^ 4)
  else if sel ≤ 0x33 then merge 8 (sel - 0x30) (toSmall .e4m3 mode sat x)
  else if sel ≤ 0x37 then merge 8 (sel - 0x34) (toSmall .e5m2 mode sat x)
  else if sel ≤ 0x3B then merge 6 (sel - 0x38) (toSmall .e3m2 mode sat x)
  else if sel ≤ 0x3F then merge 6 (sel - 0x3C) (toSmall .e2m3 mode sat x)
  else if sel ≤ 0x47 then merge 4 (sel - 0x40) (toSmall .e2m1 mode sat x)
  else if sel ≤ 0x4B then merge 8 (sel - 0x48) (narrowInt sat (-128) 127 8 a)
  else if sel ≤ 0x4F then merge 8 (sel - 0x4C) (narrowInt sat 0 255 8 a)
  else if sel ≤ 0x57 then merge 4 (sel - 0x50) (narrowInt sat (-8) 7 4 a)
  else if sel ≤ 0x5B then (intBits 32 (sext 8 (a / 2 ^ (8 * (sel - 0x58)))), FFlags.none)
  else if sel ≤ 0x5F then (a / 2 ^ (8 * (sel - 0x5C)) % 2 ^ 8, FFlags.none)
  else if sel ≤ 0x67 then (intBits 32 (sext 4 (a / 2 ^ (4 * (sel - 0x60)))), FFlags.none)
  else if sel ≤ 0x6F then (a / 2 ^ (4 * (sel - 0x68)) % 2 ^ 4, FFlags.none)
  else if sel ≤ 0x7F then (intBits 32 (sext 2 (a / 2 ^ (2 * (sel - 0x70)))), FFlags.none)
  else if sel = 0x80 then f32.convert .rne false (e8m0 (a % 256))
  else if sel = 0x81 then toE8m0 mode sat x
  else if sel = 0x82 then f32.convert .rne false (match ue4m3 (a % 256) with
    | .nan .. => .nan false true (2 ^ 22) 23
    | y => y)
  else toUe4m3 mode sat x

/-! ## Special functions

The functions that R243 bounds but does not fix take `Config.sfuChoice` where it lies within the bound, and the nearest
value otherwise (log entry 6). The bound is tested exactly for RCP and RSQ. For the rest the model encloses the exact result
between two dyadic numbers, and a value is within the bound where it is so of every number between them; the enclosure is so narrow
that no sum or difference of an FP32 value and the bound is known to lie inside it. -/

/-- A lower and an upper bound of an exact result. -/
abbrev Enclosure := Dy × Dy

/-- What lies within `d` of a number. -/
def Dy.around (a d : Dy) : Enclosure := (a.sub d, a.add d)

/-- The enclosure of the opposite number. -/
def Enclosure.neg (e : Enclosure) : Enclosure := (e.2.neg, e.1.neg)

/-- `⌊√n⌋` below `2^k`, bit by bit. -/
def isqrtFrom : Nat → Nat → Nat → Nat
  | 0, _, r => r
  | k + 1, n, r => if (r + 2 ^ k) * (r + 2 ^ k) ≤ n then isqrtFrom k n (r + 2 ^ k) else isqrtFrom k n r

/-- `⌊√n⌋`. -/
def isqrt (n : Nat) : Nat := isqrtFrom (Nat.log2 n / 2 + 1) n 0

/-- Fixed-point fraction bits of the approximations. -/
def fixBits : Nat := 96

/-- `2π` in units of `2^-320`. -/
def twoPi : Nat := 0x6487ed5110b4611a62633145c06e0e68948127044533e63a0105df531d89cd9128a5043cc71a026ef
/-- `log2 e` in units of `2^-128`. -/
def log2e : Nat := 0x171547652b82fe1777d0ffda0d23a7d11

/-- `2^(f / 2^96)` in units of `2^-96`, for `f < 2^96`: the product of the roots of 2 that `f`'s bits name. -/
def exp2Frac : Nat → Nat → Nat → Nat → Nat
  | 0, _, _, acc => acc
  | k + 1, f, root, acc =>
    let root := isqrt (root * 2 ^ fixBits)
    exp2Frac k f root (if f / 2 ^ k % 2 = 1 then acc * root / 2 ^ fixBits else acc)

/-- Bounds of `2^x` for `|x| ≤ 1,024` that is no integer: every step of the product rounds down, and together they lose less than
`2^-84` of it. -/
def exp2Bounds (x : Dy) : Enclosure :=
  let fx := (x.shift fixBits).floor
  let i := fx / (2 ^ fixBits : Nat)
  let f := (fx % (2 ^ fixBits : Nat)).toNat
  let a := exp2Frac fixBits f (2 * 2 ^ fixBits) (2 ^ fixBits)
  (⟨a, i - fixBits⟩, ⟨min (a + 2 ^ 12) (2 * 2 ^ fixBits) , i - fixBits⟩)

/-- The next `k` bits of `log2 y`, `y` in `[1, 2)` in units of `2^-96`. -/
def log2Bits : Nat → Nat → Nat → Nat
  | 0, _, acc => acc
  | k + 1, y, acc =>
    let y2 := y * y / 2 ^ fixBits
    if 2 * 2 ^ fixBits ≤ y2 then log2Bits k (y2 / 2) (2 * acc + 1) else log2Bits k y2 (2 * acc)

/-- Bounds of `log2 x` for `x > 0`, one number for a power of 2. -/
def log2Bounds (x : Dy) : Enclosure :=
  let e := x.log2
  if x.eqv ⟨1, e⟩ then (⟨e, 0⟩, ⟨e, 0⟩)
  else
    let y := (x.shift (fixBits - e)).floor.toNat
    let a := e * 2 ^ 80 + log2Bits 80 y 0
    (⟨a, -80⟩, ⟨a + 2, -80⟩)

/-- The argument below which the first terms of a power series enclose a function. -/
def small (x : Dy) : Bool := x.abs.lt ⟨1, -30⟩

/-- Taylor sum of sine or cosine at `y`, in units of `2^-128`: `t` is the present term, `n` its degree. -/
def trigSum : Nat → Int → Int → Nat → Int → Int
  | 0, _, _, _, acc => acc
  | k + 1, y2, t, n, acc =>
    trigSum k y2 (-(t * y2 / 2 ^ 128 / ((n + 1) * (n + 2) : Nat))) (n + 2) (acc + t)

/-- Bounds of `sin x` or `cos x` for every FP32 `x` but 0: `x - x³/4` and `x`, or `1 - x²/2` and `x⁴/16` above it, of a small `x`, and
else the Taylor sum of the reduced argument. -/
def trigBounds (isCos : Bool) (x : Dy) : Enclosure :=
  if small x then
    let x2 := x.mul x
    if isCos then
      let lo := (Dy.mk 1 0).sub (x2.shift (-1))
      (lo, lo.add ((x2.mul x2).shift (-4)))
    else
      let z := x.abs
      let e : Enclosure := (z.sub ((x2.mul z).shift (-2)), z)
      if x.m < 0 then e.neg else e
  else
    let fx := (x.shift 320).floor % (twoPi : Int) / 2 ^ 192
    let y2 := fx * fx / 2 ^ 128
    (Dy.mk (if isCos then trigSum 48 y2 (2 ^ 128) 0 0 else trigSum 48 y2 fx 1 0) (-128)).around ⟨1, -100⟩

/-- `e^-z` to more than 80 bits, for `0 < z ≤ 256`. -/
def expNeg (z : Dy) : Dy := (exp2Bounds ⟨-(z.m * log2e), z.e - 128⟩).1

/-- `a / b` for positive values, in units of `2^-96`. -/
def divFix (a b : Dy) : Dy :=
  let e := min a.e b.e
  ⟨a.scaled e * (2 ^ fixBits : Nat) / b.scaled e, -(fixBits : Int)⟩

/-- Bounds of `tanh x` of a finite value but 0: `z - z³/2` and `z` of a small `z = |x|`, and `1 - 2^-40` and 1 from 16 on. -/
def tanhBounds (x : Dy) : Enclosure :=
  let z := x.abs
  let one : Dy := ⟨1, 0⟩
  let e : Enclosure :=
    if small x then (z.sub (((z.mul z).mul z).shift (-1)), z)
    else if (Dy.mk 16 0).le z then (one.sub ⟨1, -40⟩, one)
    else
      let u := expNeg (z.shift 1)
      (divFix (one.sub u) (one.add u)).around ⟨1, -70⟩
  if x.m < 0 then e.neg else e

/-- Bounds of `1 / (1 + e^-x)` of a finite value: 1/2 and 1/2 + x/4 of a small `x`, and from 32 on less than `2^-46` from 1 or 0. -/
def sigmBounds (x : Dy) : Enclosure :=
  let z := x.abs
  let one : Dy := ⟨1, 0⟩
  if small x then
    let a := (Dy.mk 1 (-1)).add (x.shift (-2))
    if x.m < 0 then (a, ⟨1, -1⟩) else (⟨1, -1⟩, a)
  else if (Dy.mk 32 0).le z then if x.m < 0 then (⟨0, 0⟩, ⟨1, -46⟩) else (one.sub ⟨1, -46⟩, one)
  else
    let u := expNeg z
    (divFix (if x.m < 0 then u else one) (one.add u)).around ⟨1, -70⟩

/-- One unit in the last place of FP32 at a value whose `⌊log2⌋` is `e`. -/
def ulpAt (e : Int) : Dy := ⟨1, max e (-126) - 23⟩

/-- The value the SFU delivers for a finite result: the free choice where `ok` accepts it, else `fallback`. -/
def sfuPick (fn x : Nat) (fallback : Nat) (ok : Dy → Bool) : Nat :=
  let r := (Config.sfuChoice fn (BitVec.ofNat 32 x)).toNat
  match Fmt.fp32.read r with
  | .fin _ v => if ok v then r else fallback
  | _ => fallback

/-- NX, and UF where the exact result lies below the smallest normal (R240). -/
def sfuFlags (inexact tiny : Bool) : FFlags := ⟨false, false, false, inexact && tiny, inexact⟩

/-- A result within `bound` of every number of the enclosure; `exact` decides whether the delivered value is the exact result, and
`tiny` whether that lies below the smallest normal, which each function decides of its operand. -/
def sfuNear (fn x : Nat) (enc : Enclosure) (bound : Dy) (tiny : Bool) (exact : Dy → Bool) : Nat × FFlags :=
  let (near, _) := Fmt.fp32.round .rne false (decide (enc.1.m < 0)) enc.1
  let r := sfuPick fn x near fun v => (v.sub bound).le enc.1 && enc.2.le (v.add bound)
  (r, sfuFlags (!exact (Fmt.fp32.read r).real) tiny)

/-- The smallest FP32 normal. -/
def minNormal : Dy := ⟨1, -126⟩

/-- `|sin x|` and `|tanh x|` lie below the smallest normal just where `0 < |x| ≤ 2^-126`. -/
def oddTiny (v : Dy) : Bool := !v.isZero && v.abs.le minNormal

/-- `1 / (1 + e^-x)` lies below the smallest normal just where `-x` exceeds `ln (2^126 - 1)`, 87.3365447505…, which lies between
the FP32 values 87.33654022216796875 and 87.3365478515625. -/
def sigmTiny (v : Dy) : Bool := decide (v.m < 0) && (Dy.mk 0xAEAC50 (-17)).le v.abs

/-- RCP of a non-zero finite value (R243). -/
def sfuRcp (x : Nat) (neg : Bool) (v : Dy) : Nat × FFlags :=
  let k := v.log2
  let pow2 := v.abs.eqv ⟨1, k⟩
  let e := if pow2 then -k else -k - 1
  let (near, fl) := Fmt.fp32.roundRat .rne false neg (2 ^ (-v.e).toNat) (v.m.natAbs * 2 ^ v.e.toNat)
  if fl.of then (near, fl)
  else
    let r := sfuPick 0 x near fun w => ((w.mul v).sub ⟨1, 0⟩).abs.le ((ulpAt e).mul v.abs)
    (r, sfuFlags (!((Fmt.fp32.read r).real.mul v).eqv ⟨1, 0⟩) (decide (e < -126)))

/-- RSQ of a positive finite value (R243). -/
def sfuRsq (x : Nat) (v : Dy) : Nat × FFlags :=
  let k := v.log2
  let e := if v.eqv ⟨1, k⟩ && k % 2 == 0 then -(k / 2) else if k % 2 = 0 then -(k / 2) - 1 else -((k + 1) / 2)
  let u := ulpAt e
  -- 1/√x in units of 2^-200, to more than 60 bits for every FP32 input
  let s : Dy := ⟨isqrt (2 ^ (400 - v.e).toNat / v.m.natAbs), -200⟩
  let (near, _) := Fmt.fp32.round .rne false false s
  let one : Dy := ⟨1, 0⟩
  let r := sfuPick 1 x near fun w =>
    let a := w.sub u
    let b := w.add u
    decide (0 < b.m) && one.le ((b.mul b).mul v) && (decide (a.m ≤ 0) || ((a.mul a).mul v).le one)
  let rv := (Fmt.fp32.read r).real
  (r, sfuFlags (!((rv.mul rv).mul v).eqv one) false)

/-- SQRT of a positive finite value, correctly rounded by RNE (R243). -/
def sfuSqrt (v : Dy) : Nat × FFlags :=
  let (m, e) := if v.e % 2 = 0 then (v.m.natAbs, v.e) else (2 * v.m.natAbs, v.e - 1)
  let n := m * 2 ^ 80
  let s := isqrt n
  let sticky := if s * s = n then 0 else 1
  Fmt.fp32.round .rne false false ⟨(2 * s + sticky : Nat), e / 2 - 41⟩

/-- EXP2 of a finite value (R243). -/
def sfuExp2 (x : Nat) (v : Dy) : Nat × FFlags :=
  let integer := (v.trunc 0).eqv v
  if (Dy.mk 128 0).le v then Fmt.fp32.round .rne false false ⟨1, 128⟩
  else if v.lt ⟨-149, 0⟩ then sfuNear 3 x (⟨0, 0⟩, ⟨1, -149⟩) ⟨2, -149⟩ true fun _ => false
  else if integer then Fmt.fp32.round .rne false false ⟨1, v.floor⟩
  else
    let e := exp2Bounds v
    sfuNear 3 x e ((ulpAt e.1.log2).shift 1) (v.lt ⟨-126, 0⟩) fun _ => false

/-- LOG2 of a positive finite value (R243). -/
def sfuLog2 (x : Nat) (v : Dy) : Nat × FFlags :=
  if v.eqv ⟨1, 0⟩ then (0, FFlags.none)
  else
    let e := log2Bounds v
    let ulps := (ulpAt (min e.1.log2 e.2.log2)).shift 1
    let bound := if (Dy.mk 1 (-1)).le v && v.le ⟨2, 0⟩ && ulps.le ⟨1, -22⟩ then ⟨1, -22⟩ else ulps
    sfuNear 4 x e bound false fun w => v.eqv ⟨1, v.log2⟩ && w.eqv ⟨v.log2, 0⟩

/-- SIN or COS of a finite value (R243). -/
def sfuTrig (isCos : Bool) (x : Nat) (v : Dy) : Nat × FFlags :=
  let fn := if isCos then 6 else 5
  let bound := (Dy.mk 1 (-21)).add (v.abs.shift (-41))
  let e : Enclosure := if v.isZero then (⟨1, 0⟩, ⟨1, 0⟩) else trigBounds isCos v
  sfuNear fn x e bound (!isCos && oddTiny v) fun w => v.isZero && w.eqv ⟨1, 0⟩

/-- SFU function `fn` (0 to 8) of FP32 bits (R243). -/
def sfu (fn x : Nat) : Nat × FFlags :=
  let f := Fmt.fp32
  let v := f.read x
  let dz : FFlags := { FFlags.none with dz := true }
  let invalid := f.nanResult [] true
  match v with
  | .nan .. => f.nanResult [v] false
  | .inf n =>
    match fn with
    | 0 => (f.signBit n, FFlags.none)
    | 1 => if n then invalid else (0, FFlags.none)
    | 2 => if n then invalid else (f.infBits false, FFlags.none)
    | 3 => (if n then 0 else f.infBits false, FFlags.none)
    | 4 => if n then invalid else (f.infBits false, FFlags.none)
    | 5 | 6 => invalid
    | 7 => (f.signBit n + f.ofInt 1, FFlags.none)
    | _ => (if n then 0 else f.ofInt 1, FFlags.none)
  | .fin n d =>
    if d.isZero then
      match fn with
      | 0 | 1 => (f.infBits n, dz)
      | 2 | 5 | 7 => (x, FFlags.none)
      | 3 => (f.ofInt 1, FFlags.none)
      | 4 => (f.infBits true, dz)
      | 6 => sfuTrig true x d
      | _ => sfuNear 8 x (⟨1, -1⟩, ⟨1, -1⟩) ⟨1, -22⟩ false fun w => w.eqv ⟨1, -1⟩
    else
      match fn with
      | 0 => sfuRcp x n d
      | 1 => if n then invalid else sfuRsq x d
      | 2 => if n then invalid else sfuSqrt d
      | 3 => sfuExp2 x d
      | 4 => if n then invalid else sfuLog2 x d
      | 5 => sfuTrig false x d
      | 6 => sfuTrig true x d
      | 7 => sfuNear 7 x (tanhBounds d) ⟨1, -21⟩ (oddTiny d) fun _ => false
      | _ => sfuNear 8 x (sigmBounds d) ⟨1, -22⟩ (sigmTiny d) fun _ => false

/-! ## Tolerant pages -/

/-- The format of a TOL code (R65). -/
def tolFmt (tol : Nat) : Fmt := if tol = 1 then .bf16 else .fp16

/-- A word narrowed for a tolerant page: RNE, NaN quietened, no flag (R66). -/
def tolNarrow (tol : Nat) (w : Word) : Nat := ((tolFmt tol).convert .rne false (Fmt.fp32.read w.toNat)).1

/-- A narrowed value widened exactly; a NaN's fraction moves with its bits (R66). -/
def tolWiden (tol h : Nat) : Word :=
  if tol = 1 then BitVec.ofNat 32 (h * 2 ^ 16)
  else match Fmt.fp16.read h with
    | .nan n _ p _ => BitVec.ofNat 32 (Fmt.fp32.signBit n + 255 * 2 ^ 23 + p * 2 ^ 13)
    | .inf n => BitVec.ofNat 32 (Fmt.fp32.infBits n)
    | .fin n v => BitVec.ofNat 32 (Fmt.fp32.round .rne false n v).1

end Sys2Proof.Machine
end

