-- ==== Sys2Proof/Machine/Xlate.lean ====
section
/-! DEFINITION. Xlate: page walks, TLBs and permission checks (R209 to R216), and what a lane access resolves to
(R65, R67, R81, R92, R191). -/

namespace Sys2Proof.Machine

/-! ## Page-table entries (R211 to R213) -/

def Leaf.ofEntry (e : Nat) : Leaf :=
  { addr := fieldOf e 16 42 * 65536, p := fieldOf e 13 1 == 1, sealedP := fieldOf e 9 1 == 1, sync := fieldOf e 8 1 == 1
    x := fieldOf e 5 1 == 1, w := fieldOf e 4 1 == 1, r := fieldOf e 3 1 == 1, ca := fieldOf e 10 2
    tol := fieldOf e 6 2, typ := fieldOf e 1 2 }

/-- MALFORMED of R213. -/
def malformed (devnum e lvl : Nat) : Bool :=
  let f := fieldOf e
  let leaf := f 12 1 == 1
  let pa := f 16 42 * 65536
  let typ := f 1 2
  f 58 6 != 0 || f 14 2 != 0 || decide (2 ≤ f 10 2) || f 6 2 == 3
    || (leaf && lvl == 2) || (!leaf && lvl == 0)
    || (!leaf && (f 1 11 != 0 || f 13 1 != 0 || pa / 2 ^ 39 != 0))
    || (leaf && lvl == 1 && f 16 13 != 0)
    || (leaf && (match typ with
      | 0 => pa / 2 ^ 46 != 0
      | 1 => pa / 2 ^ 47 != 1
      | 2 => fieldOf pa 46 2 != 1 || pa / 2 ^ 48 == devnum
      | _ => false))
    || (leaf && f 6 2 != 0 && typ != 0)
    || (leaf && f 8 1 == 1 && (typ == 1 || typ == 3 || f 6 2 != 0 || f 10 2 != 0))

/-! ## Walks -/

/-- What a walk gives: a leaf and whether its page is 512 MiB, or PFAULT's subcause with the level; and whether it met
poison (R211). -/
inductive WalkRes where
  | leaf (l : Leaf) (big : Bool)
  | fault (sub lvl : Nat)
deriving DecidableEq, Repr

/-- READ8: a relaxed read at the entry's home with forwarding; an address that no die homes reads as poison, which is logged
with the entry's address. -/
def read8 (s : State) (a : Nat) : Nat × Bool × State :=
  let s := askHome s [a / 4, a / 4 + 1]
  let x := readForward s (a / 4)
  let y := readForward s (a / 4 + 1)
  let p := x.2 || y.2
  (x.1.toNat + 2 ^ 32 * y.1.toNat, p, if p then s.deliverPoison (homeDie a) a else s)

/-- The table that a walker already holds for a prefix of the address, if it uses it: the manual leaves the caching of
non-leaf entries to each walker, so whether one is used or kept is free (R215, log entry 10). -/
def walkCached (s : State) (d asid lvl va : Nat) : Option Nat :=
  match (s.die d).walks.find? fun w => w.asid == asid && w.lvl == lvl && w.prefixVa == va / 2 ^ (13 * lvl + 16) with
  | none => none
  | some w => if (Config.freeBits s.tick).getLsbD 0 then some w.table else none

def keepWalk (s : State) (d asid lvl va table : Nat) : State :=
  let px := va / 2 ^ (13 * lvl + 16)
  let others (k : Die) : List WalkEntry :=
    k.walks.filter fun w => !(w.asid == asid && w.lvl == lvl && w.prefixVa == px)
  s.modDie d fun k => { k with walks := if (Config.freeBits s.tick).getLsbD 1 then ⟨asid, lvl, px, table⟩ :: others k else k.walks }

/-- The walk from level `n − 1` down, with the table at `t`. -/
def walkFrom (d asid va : Nat) : Nat → Nat → State → WalkRes × Bool × State
  | 0, _, s => (.fault 3 0, false, s)
  | lvl + 1, t, s =>
    let (e, p, s) := read8 s (t + 8 * fieldOf va (13 * lvl + 16) 13)
    if p then (.fault 3 lvl, true, s)
    else if fieldOf e 0 1 = 0 then (.fault 1 lvl, false, s)
    else if malformed s.devnum e lvl then (.fault 3 lvl, false, s)
    else if fieldOf e 12 1 = 1 then
      let l := Leaf.ofEntry e
      if l.typ = 3 && !s.hostCfg.cxlCache then (.fault 4 lvl, false, s)
      else if (l.typ = 0 || l.typ = 2) && fieldOf l.addr 39 7 != 0 then (.fault 4 lvl, false, s)
      else (.leaf l (lvl == 1), false, s)
    else
      let t' := fieldOf e 16 42 * 65536
      walkFrom d asid va lvl t' ((keepWalk s d asid lvl va t').nextTick)

/-- A page walk by the die's walkers (R211, R215). -/
def walk (s : State) (d asid ptroot va : Nat) : WalkRes × Bool × State :=
  let s := s.countDie d .walks
  match walkCached s d asid 1 va, walkCached s d asid 2 va with
  | some t, _ => walkFrom d asid va 1 t s.nextTick
  | none, some t => walkFrom d asid va 2 t s.nextTick
  | none, none => walkFrom d asid va 3 ptroot s.nextTick

/-! ## TLBs (R215, R216) -/

def TlbEntry.hits (e : TlbEntry) (asid va : Nat) : Bool :=
  e.asid == asid && e.vpage == if e.big then va / 2 ^ 29 else va / 2 ^ 16

/-- An entry taken to the front of an 8-way TLB of `sets` sets; the set of a page and the replacement are the model's (log
entry 11). -/
def cacheTlb (sets : Nat) (e : TlbEntry) (t : List TlbEntry) : List TlbEntry :=
  let others := t.filter fun x => !(x.asid == e.asid && x.big == e.big && x.vpage == e.vpage)
  let mine := (others.filter fun x => x.vpage % sets == e.vpage % sets).drop 7
  e :: others.filter fun x => !mine.contains x

/-- A walk's leaf enters the TLBs, and a tolerant page is marked (R98, R215). -/
def installLeaf (s : State) (c : Nat) (e : TlbEntry) : State :=
  let s := s.modDie (coreDie c) fun k => { k with tlb2 := cacheTlb 2048 e k.tlb2 }
  let s := s.modCore c fun k => { k with tlb := cacheTlb 32 e k.tlb }
  if e.leaf.tol = 0 then s else markTolerant s e.leaf.addr (if e.big then 8192 else 1)

/-- Translation of a virtual address for a core: L1 TLB, L2 TLB, walk. -/
def translate (s : State) (c asid ptroot va : Nat) : WalkRes × Bool × State :=
  if 2 ^ 55 ≤ va then (.fault 2 0, false, s)
  else match (s.core c).tlb.find? fun e => e.hits asid va with
    | some e => (.leaf e.leaf e.big, false, s.modCore c fun k => { k with tlb := cacheTlb 32 e k.tlb })
    | none =>
      match (s.die (coreDie c)).tlb2.find? fun e => e.hits asid va with
      | some e =>
        let s := s.modDie (coreDie c) fun k => { k with tlb2 := cacheTlb 2048 e k.tlb2 }
        (.leaf e.leaf e.big, false, s.modCore c fun k => { k with tlb := cacheTlb 32 e k.tlb })
      | none =>
        let s := s.countDie (coreDie c) .tlbmiss
        match walk s (coreDie c) asid ptroot va with
        | (.leaf l big, p, s) =>
          (.leaf l big, p, installLeaf s c ⟨asid, big, if big then va / 2 ^ 29 else va / 2 ^ 16, l⟩)
        | r => r

/-- TLB and walker entries that the test names go from the whole device (R216). -/
def dropTlbs (s : State) (p : TlbEntry → Bool) (q : WalkEntry → Bool) : State :=
  { s with
    cores := s.cores.map fun k => { k with tlb := k.tlb.filter fun e => !p e }
    dies := s.dies.map fun k =>
      { k with tlb2 := k.tlb2.filter fun e => !p e, walks := k.walks.filter fun e => !q e } }

/-! ## Accesses -/

/-- Kinds of access, as R214 and R228 tell them apart. -/
inductive AccKind where
  | read | write | atomic | fetch
deriving DecidableEq, Repr

def AccKind.code : AccKind → Nat
  | .read => 0 | .write => 1 | .atomic => 2 | .fetch => 3

def AccKind.writes : AccKind → Bool
  | .write | .atomic => true
  | _ => false

def AccKind.reads : AccKind → Bool
  | .read | .atomic => true
  | _ => false

/-- The form of a memory access: bytes, kind, whether it is SC, PROMOTE or SIGCLR (R214, 5), and whether a tolerant page
refuses it whatever its size, as it does STBM (R66). -/
structure AccForm where
  n : Nat
  kind : AccKind
  (needsSync bits : Bool)
deriving DecidableEq, Repr

/-- Who translates: core, ASID, table root, privilege, VIEWADM. -/
structure Who where
  (core asid ptroot : Nat)
  (priv viewadm : Bool)
deriving DecidableEq, Repr

/-- Physical address of `va` under a leaf. -/
def Leaf.pa (l : Leaf) (big : Bool) (va : Nat) : Nat :=
  if big then l.addr + va % 2 ^ 29 else l.addr + va % 65536

/-- Physical address of the narrowed form of the word at `va` (R65). -/
def Leaf.tolPa (l : Leaf) (big : Bool) (va : Nat) : Nat :=
  let off := if big then va % 2 ^ 29 else va % 65536
  l.addr + off / 4 * 2

/-- PPROT's lowest subcause, if the access fails R214 (subcause 6 and views' fetches are the fetch's own). -/
def permFault (who : Who) (l : Leaf) (pa va : Nat) (f : AccForm) : Option Nat :=
  let noRight := (f.kind.reads && !l.r) || (f.kind.writes && !l.w) || (f.kind == .fetch && !l.x)
  let o := va % 128
  let offForm := l.sync && f.kind.writes && !((f.n == 4 && (o == 0 || o == 4)) || (f.n == 8 && o == 0))
  if noRight then some 1
  else if l.p && !who.priv then some 2
  else if f.kind.writes && l.typ == 0 && inViewTable pa && !who.viewadm then some 3
  else if offForm then some 4
  else if f.needsSync && !l.sync then some 5
  else if f.kind == .fetch && (l.typ == 2 || l.typ == 3) then some 6
  else none

end Sys2Proof.Machine
end

