-- ==== Sys2Proof/Machine/Access.lean ====
section
/-! DEFINITION. Access: the accesses of one memory instruction, resolved and checked in every active lane before any
effect (R81, R214, R218, R319), then their reads, stores and atomics on base words (R65, R66, R83, R91, R190, R330). -/

namespace Sys2Proof.Machine

/-- A failed access: the trap, and for demand paging the kind of access and the table level (R227, R228); the view that
raised it (R101). -/
structure Fail where
  info : TrapInfo
  (access lvl : Nat)
  view : Option Nat
deriving DecidableEq, Repr

/-- Of two failures, the one that R218 records: priority, then lane, then subcause. -/
def Fail.before (x y : Fail) : Bool :=
  let px := x.info.cause.priority
  let py := y.info.cause.priority
  decide (px < py) || (px == py && (decide (x.info.lane < y.info.lane)
    || (x.info.lane == y.info.lane && decide (x.info.sub < y.info.sub))))

/-- The failure that R218 records, of several. -/
def worst : List Fail → Option Fail
  | [] => none
  | x :: xs => match worst xs with
    | none => some x
    | some y => if y.before x then some y else some x

/-- Where a translated access goes, before the indices of a GATHER view are read. -/
inductive Pre where
  | ready (t : Tgt)
  | through (e : VEntry) (o : Nat) (t : Tgt)
deriving DecidableEq, Repr

/-- One lane's access after translation: its failures, and where it goes when there is none. -/
structure LaneAcc where
  lane : Nat
  va : Nat
  fails : List Fail
  pre : Option Pre
deriving DecidableEq, Repr

/-- View faults of an access at view offset `o` (R83, R98, R100). -/
def viewFails (e : VEntry) (f : AccForm) (o : Nat) : List (Cause × Nat) :=
  let bounds : List (Cause × Nat) := (if e.desc.extent < o + f.n then [(.viewf, 3)] else [])
    ++ (if f.kind.writes && !e.desc.wr then [(.viewf, 4)] else [])
    ++ (if f.kind == .atomic && !(e.desc.width == 8 * f.n && (f.n == 4 || f.n == 8)) then [(.align, 0)] else [])
  match e.outcome with
  | .illegal sub => (.viewf, sub) :: (if sub = 5 then bounds else [])
  | .tolerantD => (.tolview, 0) :: bounds
  | .legal => bounds

/-- What the lanes of one instruction share: one translation of each 64 KiB page (R215), and one version of each descriptor
(R72). -/
structure Shared where
  pages : List (Nat × WalkRes × Bool)
  views : List (Nat × VEntry)
deriving DecidableEq, Repr

/-- The translation of an address, taken once for its page. -/
def translateOnce (s : State) (m : Shared) (who : Who) (va : Nat) : WalkRes × Bool × Shared × State :=
  match look (va / 65536) m.pages with
  | some r => (r.1, r.2, m, s)
  | none =>
    let (r, p, s) := translate s who.core who.asid who.ptroot va
    (r, p, { m with pages := put (va / 65536) (r, p) m.pages }, s)

/-- The descriptor of a view, taken once. -/
def viewOnce (s : State) (m : Shared) (c n : Nat) : VEntry × Shared × State :=
  match look n m.views with
  | some e => (e, m, s)
  | none =>
    let (e, s) := lsuView s c n
    (e, { m with views := put n e m.views }, s)

/-- Whether base bits reach the view table (R70). -/
def bitsInTable (bits : List (Option Nat)) : Bool := bits.any fun b => b.any fun k => inViewTable (k / 8)

/-- One lane's access translated and checked (R209 to R214, R319). A store through a view into the view table fails as one to
the table's own frames does (R70). -/
def resolveLane (s : State) (m : Shared) (who : Who) (f : AccForm) (lane va : Nat) : LaneAcc × Bool × Shared × State :=
  let fail (c : Cause) (sub lvl : Nat) (view : Option Nat) : Fail := ⟨⟨c, sub, lane, va⟩, f.kind.code, lvl, view⟩
  let alignF := if va % f.n = 0 then [] else [fail .align 0 0 none]
  match translateOnce s m who va with
  | (.fault sub lvl, p, m, s) => (⟨lane, va, fail .pfault sub lvl none :: alignF, none⟩, p, m, s)
  | (.leaf l big, p, m, s) =>
    let pa := l.pa big va
    let perm := (permFault who l (if l.tol = 0 then pa else l.tolPa big va) va f).toList.map fun sub => fail .pprot sub 0 none
    let tgt (loc : Loc) : Tgt := ⟨loc, f.n, va, l.ca == 1, l.sync, l.sealedP⟩
    if l.typ = 1 then
      let n := fieldOf pa 36 11
      let o := pa % 2 ^ 36
      let (e, m, s) := viewOnce s m who.core n
      let vf := (viewFails e f o).map fun x => fail x.1 x.2 0 (some n)
      let table := f.kind.writes && !who.viewadm && e.outcome == .legal && !e.desc.isGather && bitsInTable (e.desc.bits [] o f.n)
      let perm := if table && perm.isEmpty then [fail .pprot 3 0 none] else perm
      (⟨lane, va, perm ++ alignF ++ vf, some (.through e o (tgt (.plain pa)))⟩, p, m, s)
    else if l.typ = 3 then (⟨lane, va, perm ++ alignF, some (.ready (tgt (.host pa)))⟩, p, m, s)
    else if l.tol ≠ 0 then
      let narrow := if f.kind.writes && (decide (f.n < 4) || f.bits) then [fail .align 0 0 none] else []
      (⟨lane, va, perm ++ alignF ++ narrow, some (.ready (tgt (.tolerant (l.tolPa big va) l.tol (va % 4))))⟩, p, m, s)
    else (⟨lane, va, perm ++ alignF, some (.ready (tgt (.plain pa)))⟩, p, m, s)

/-- The indices that the lanes of one instruction of core `c` need, each read once for the instruction (R93), by view. The core's
stores on their way to be registered come first, so that the team's own earlier stores to the index list are seen. -/
def laneIndices (s : State) (c : Nat) (f : AccForm) (ls : List LaneAcc) : List (Nat × IndexTable) × Bool × State :=
  ls.foldl (fun (acc : List (Nat × IndexTable) × Bool × State) x =>
    match x.pre with
    | some (.through e o _) =>
      if e.desc.isGather then
        let t := (look e.view acc.1).getD []
        let want := (e.desc.rowsOf o f.n).filter fun r => (look r t).isNone
        let (t', p, s) := readIndices (registerPending acc.2.2 c) (coreDie c) e.desc.indexBase (e.desc.dim 0) want
        (put e.view (t'.foldl (fun m x => put x.1 x.2 m) t) acc.1, acc.2.1 || p, s)
      else acc
    | _ => acc) ([], false, s)

/-- The rows of views that lanes met out of range: (view, row, lane, address, whether GCHK is set). -/
def laneCounted (f : AccForm) (ixs : List (Nat × IndexTable)) (ls : List LaneAcc) :
    List (Nat × Nat × Nat × Nat × Bool) :=
  ls.flatMap fun x => match x.pre with
    | some (.through e o _) => ((e.desc.rowsOf o f.n).filter fun r =>
        IndexTable.at ((look e.view ixs).getD []) r == .counted).map fun r => (e.view, r, x.lane, x.va, e.desc.gchk)
    | _ => []

/-- Where a lane's access goes once the indices are known. -/
def Pre.tgt (p : Pre) (ixs : List (Nat × IndexTable)) : Tgt :=
  match p with
  | .ready t => t
  | .through e o t =>
    let bits := e.desc.bits ((look e.view ixs).getD []) o t.n
    { t with loc := .view (decide (e.desc.width < 8) || e.desc.kind == 4) bits }

/-- The outcome of checking an instruction's accesses: the trap, or each lane's target; whether poison was met by a
walk or an index read. -/
structure Resolved where
  fail : Option Fail
  tgts : List (Nat × Tgt)
  poison : Bool
deriving DecidableEq, Repr

/-- The translations and checks of every active lane: what they found, and whether a walk met poison. -/
def resolveLanes (s : State) (who : Who) (f : AccForm) (lanes : List (Nat × Nat)) : List LaneAcc × Bool × State :=
  let r := lanes.foldl (fun (acc : List LaneAcc × Bool × Shared × State) x =>
    let (r, p, m, s) := resolveLane acc.2.2.2 acc.2.2.1 who f x.1 x.2
    (acc.1 ++ [r], acc.2.1 || p, m, s)) (([] : List LaneAcc), false, ⟨[], []⟩, s)
  (r.1, r.2.1, r.2.2.2)

/-- All active lanes of a memory instruction: translation and checks in every lane, then the indices of GATHER views
(R217, R218, R92 to R94). -/
def resolve (s : State) (who : Who) (f : AccForm) (lanes : List (Nat × Nat)) : Resolved × State :=
  let (ls, p, s) := resolveLanes s who f lanes
  match worst (ls.flatMap (·.fails)) with
  | some x =>
    let s := match x.info.cause, x.view with
      | .viewf, some n => countViewFault s n
      | .tolview, some n => countViewFault s n
      | _, _ => s
    (⟨some x, [], p⟩, s)
  | none =>
    let (ixs, q, s) := laneIndices s who.core f ls
    let tgts := ls.filterMap fun x => x.pre.map fun y => (x.lane, y.tgt ixs)
    let table := if f.kind.writes && !who.viewadm then tgts.find? fun x => match x.2.loc with
        | .view _ bits => bitsInTable bits
        | _ => false
      else none
    let met := laneCounted f ixs ls
    let raised := met.filter fun x => x.2.2.2.2
    let counted := if raised.isEmpty then met else raised
    let noted := (counted.map fun x => (x.1, x.2.1)).dedup.foldl (fun s (x : Nat × Nat) => countOob s x.1 1) s
    match table, raised.head? with
    | some (lane, t), _ => (⟨some ⟨⟨.pprot, 3, lane, t.va⟩, f.kind.code, 0, none⟩, [], p || q⟩, s)
    | none, some (v, _, lane, va, _) => (⟨some ⟨⟨.gatherchk, 0, lane, va⟩, f.kind.code, 0, some v⟩, [], p || q⟩, noted)
    | none, none => (⟨none, tgts, p || q⟩, noted)

/-! ## Base words of a target -/

/-- Base word names that a target reads, in order. -/
def Tgt.wordNames (t : Tgt) : List Nat :=
  match t.loc with
  | .plain pa => (List.range (ceilDiv (pa % 4 + t.n) 4)).map fun i => pa / 4 + i
  | .host pa => (List.range (ceilDiv (pa % 4 + t.n) 4)).map fun i => hostBase + pa / 4 + i
  | .tolerant pa _ off => ((List.range (ceilDiv (off + t.n) 4)).map fun i => (pa + 2 * i) / 4).dedup
  | .view _ bits => (bits.filterMap fun b => b.map (· / 32)).dedup
  | .imm _ => []

def Tgt.wordReqs (t : Tgt) : List WordReq := t.wordNames.map fun w => ⟨w, t.uncached, t.sync, t.sealedP⟩

/-- Distinct base lines of a target: the requests it needs (R325). -/
def Tgt.lines (t : Tgt) : List Nat := (t.wordNames.map (· / 32)).dedup

/-- A halfword of a table of words. -/
def halfAt (tbl : WordTable) (pa : Nat) : Nat := (tbl.val (pa / 4)).toNat / 2 ^ (8 * (pa % 4)) % 2 ^ 16

/-- The value that a target's bytes hold, little-endian, from the words read. -/
def Tgt.value (t : Tgt) (tbl : WordTable) : Nat :=
  let byBytes (a : Nat) (names : Nat) : Nat :=
    leNat ((List.range t.n).map fun i => (tbl.val (names + (a + i) / 4)).extractLsb' (8 * ((a + i) % 4)) 8)
  match t.loc with
  | .plain pa => byBytes pa 0
  | .host pa => byBytes pa hostBase
  | .tolerant pa tol off =>
    let word (i : Nat) : Nat :=
      if tbl.poisoned ((pa + 2 * i) / 4) then poisonWord.toNat else (tolWiden tol (halfAt tbl (pa + 2 * i))).toNat
    let all := (List.range (ceilDiv (off + t.n) 4)).foldr (fun i acc => word i + 2 ^ 32 * acc) 0
    all / 2 ^ (8 * off) % 2 ^ (8 * t.n)
  | .view _ bits =>
    bits.foldr (fun b acc => 2 * acc + (match b with
      | some k => if (tbl.val (k / 32)).getLsbD (k % 32) then 1 else 0
      | none => 0)) 0
  | .imm v => v

def Tgt.poisoned (t : Tgt) (tbl : WordTable) : Bool := t.wordNames.any tbl.poisoned

/-! ## Stores -/

/-- The enabled write that a store of `v` with bit enables `mask` makes on base bytes. -/
def Tgt.write (t : Tgt) (v mask : Nat) : EnWrite :=
  let plain (pa : Nat) : EnWrite := (List.range t.n).map fun i =>
    (pa + i, BitVec.ofNat 8 (v / 2 ^ (8 * i)), BitVec.ofNat 8 (mask / 2 ^ (8 * i)))
  match t.loc with
  | .plain pa => plain pa
  | .host pa => plain pa
  | .tolerant pa tol _ => (List.range (t.n / 4)).flatMap fun i =>
      bytesWrite (pa + 2 * i) (leBytes 2 (tolNarrow tol (BitVec.ofNat 32 (v / 2 ^ (32 * i)))))
  | .view _ bits => bitsWrite (bits.zipIdx.map fun x => if mask.testBit x.2 then x.1 else none) fun i => v.testBit i
  | .imm _ => []

/-- Sectors that a write inserts into signatures: none of a sync page (R192). -/
def sigAddrs (t : Tgt) (w : EnWrite) : List Nat :=
  if t.sync then [] else ((w.filter fun x => x.2.2 != 0#8).map fun x => x.1 / 32 * 32).dedup

/-- Whether a write meets a sealed granule at its home (R205, R97); another device's answer is free. -/
def meetsSeal (s : State) (w : EnWrite) : Bool × State :=
  if w.any fun x => !isRemoteWord (x.1 / 4) && (sealAt s x.1).isSome then (true, s)
  else if w.any fun x => isRemoteWord (x.1 / 4) && reachable s (remoteDevice x.1) then
    ((Config.outsideSeal s.tick).isSome, s.nextTick)
  else (false, s)

/-- A store inside a sync block, in the core's L1 with the block registered; on a poisoned block the write goes home,
which drops it (R189, R191). -/
def storeSync (s : State) (c : Nat) (w : EnWrite) : State :=
  let k := (w.map fun x => x.1 / 4).headD 0
  if blockPoisoned s k then homeWrite (revokeBlockBut s 64 k) w
  else (EnWrite.words w).foldl (fun s (x : Nat × Word × Word) =>
    match l1Word s c x.1 with
    | some y => setL1 s c x.1 { y with val := mergeWord y.val x.2.1 x.2.2, dirty := true }
    | none => s) (registerBlock s c k)

/-- What a store did: the sectors for the signatures, and whether its home refused it as sealed. -/
structure Stored where
  sigs : List Nat
  sealedW : Bool
deriving DecidableEq, Repr

/-- The passes of an instruction over the lanes that it names, in increasing lane order (R324). -/
def passesOf {α : Type} (lane : α → Nat) (xs : List α) : List (List α) := xs.splitBy fun x y => lane x / 32 == lane y / 32

/-- A lane's store: lane, target, value, enables. -/
structure LaneStore where
  lane : Nat
  tgt : Tgt
  val : Nat
  mask : Nat

/-- What the stores of one pass did: the sectors for the signatures, and the first lane, with its address, that met a sealed
granule. -/
structure PassStored where
  sigs : List Nat
  sealedAt : Option (Nat × Nat)
deriving DecidableEq, Repr

/-- How a store reaches memory. -/
inductive StorePath where
  | host | far | uncached | sync | narrow | plain
deriving DecidableEq, Repr

/-- The part of a store that goes by each path: bytes of host memory, of another device, of an uncached page, of a sync page, and of
this device's other memory, where narrowed words, words composed of view bits and the words of STBM (`bits`) carry their enables home
in every case (R66, R91, R183, R212). -/
def LaneStore.parts (x : LaneStore) (bits : Bool) : List (StorePath × EnWrite) :=
  let w := (x.tgt.write x.val x.mask).filter fun y => y.2.2 != 0#8
  let (far, near) := w.partition fun y => isRemoteWord (y.1 / 4)
  let sub := match x.tgt.loc with
    | .view sub _ => sub
    | .tolerant .. => true
    | _ => bits
  match x.tgt.loc with
  | .host _ => [(.host, w)]
  | _ => [(.far, far), (if x.tgt.uncached then .uncached else if x.tgt.sync then .sync else if sub then .narrow else .plain, near)]

/-- The parts of a pass's stores that no home refuses as sealed, and what the signatures and the deferred cause take (R192, R205). -/
def acceptStores (s : State) (xs : List LaneStore) (bits : Bool) : PassStored × List (StorePath × EnWrite) × State :=
  xs.foldl (fun (acc : PassStored × List (StorePath × EnWrite) × State) x =>
    let w := (x.tgt.write x.val x.mask).filter fun y => y.2.2 != 0#8
    let host := match x.tgt.loc with
      | .host _ => true
      | _ => false
    let (refused, s) := if host || w.isEmpty then (false, acc.2.2) else meetsSeal acc.2.2 w
    if refused then ({ acc.1 with sealedAt := acc.1.sealedAt <|> some (x.lane, x.tgt.va) }, acc.2.1, s)
    else ({ acc.1 with sigs := acc.1.sigs ++ sigAddrs x.tgt w }, acc.2.1 ++ x.parts bits, s)) (⟨[], none⟩, [], s)

/-- A write cut into one request for each line (R81, R182). -/
def byLine (s : State) (w : EnWrite) (send : State → EnWrite → State) : State :=
  (w.map fun x => x.1 / 128).dedup.foldl (fun s l => send s (w.filter fun x => x.1 / 128 == l)) s

/-- The bytes that go by the paths named, in lane order. -/
def onPath (ps : List (StorePath × EnWrite)) (p : StorePath → Bool) : EnWrite := (ps.filter fun x => p x.1).flatMap (·.2)

/-- Words that a store writes whole in the core's L1: every lane that writes one of them writes all of it, with no enables to carry. -/
def wholeWords (ps : List (StorePath × EnWrite)) : List Nat :=
  let full (w : EnWrite) : List Nat := (w.words.filter fun x => x.2.2 == ~~~0#32).map (·.1)
  let part := ps.flatMap fun x => match x.1 with
    | .plain => (x.2.words.filter fun y => y.2.2 != ~~~0#32).map (·.1)
    | .narrow => x.2.map (·.1 / 4)
    | _ => []
  (((ps.filter fun x => x.1 == .plain).flatMap fun x => full x.2).dedup).filter fun w => !part.contains w

/-- The stores of one pass, in increasing lane order: one request for each base line (R81, R182, R183, R324). -/
def storePass (s : State) (c : Nat) (xs : List LaneStore) (bits : Bool) : PassStored × State :=
  let (r, ps, s) := acceptStores s xs bits
  let merged (p : StorePath → Bool) : EnWrite := mergeWrites (onPath ps p)
  let s := if (merged (· == .host)).isEmpty then s else storeHost s c (merged (· == .host))
  let s := byLine s (merged (· == .far)) fun s w => storeRemote s c w
  let s := byLine s (merged (· == .uncached)) fun s w => storeUncached s c w
  let s := byLine s (merged (· == .sync)) fun s w => storeSync s c w
  let near := merged fun p => p == .plain || p == .narrow
  let whole := wholeWords ps
  let s := (near.words.filter fun x => whole.contains x.1).foldl (fun s (x : Nat × Word × Word) => storeL1 s c x.1 x.2.1) s
  (r, byLine s (near.filter fun x => !whole.contains (x.1 / 4)) fun s w => storeEnabled s c w)

/-- One lane's store with bit enables. -/
def storeTgt (s : State) (c : Nat) (t : Tgt) (v mask : Nat) (bits : Bool := false) : Stored × State :=
  let (r, s) := storePass s c [⟨0, t, v, mask⟩] bits
  (⟨r.sigs, r.sealedAt.isSome⟩, s)

/-! ## Atomics (R330) -/

/-- The new value of an atomic on `n` bytes. -/
def aopApply (op : AOp) (n old b c : Nat) : Nat :=
  let w := 8 * n
  let f : Fmt := if n = 8 then .fp64 else .fp32
  match op with
  | .add => (old + b) % 2 ^ w
  | .sub => (old + 2 ^ w - b % 2 ^ w) % 2 ^ w
  | .min => if sext w old ≤ sext w b then old else b
  | .max => if sext w b ≤ sext w old then old else b
  | .umin => min old b
  | .umax => max old b
  | .and => old &&& b
  | .or => old ||| b
  | .xor => old ^^^ b
  | .xchg => b
  | .cas => if old = c then b else old
  | .fadd => (f.addF .rne false (f.read old) (f.read b)).1
  | .fmin => (f.minMax false old b).1
  | .fmax => (f.minMax true old b).1
  | .inc => if c ≤ old then 0 else (old + 1) % 2 ^ w

/-- A device scope narrower than QUAD. -/
def inCore : Scope → Bool
  | .team | .core => true
  | _ => false

/-- What an atomic did. -/
structure Atomic where
  old : Nat
  poison : Bool
  sigs : List Nat
  sealedW : Bool
deriving DecidableEq, Repr

/-- Words of `n` bytes at a base address as a core holds them registered. -/
def ownWords (s : State) (c pa n : Nat) : Option Nat :=
  let ws := (List.range (n / 4)).map fun i => (l1Word s c (pa / 4 + i)).bind fun x => if x.reg then some x.val.toNat else none
  if ws.all Option.isSome then some (ws.foldr (fun x acc => x.getD 0 + 2 ^ 32 * acc) 0) else none

/-- A core takes a word registered with its current value: another registrant's value goes home first, and a copy that is not
registered is fetched anew (R190). -/
def takeWord (s : State) (c w : Nat) : State :=
  if (l1Word s c w).any (·.reg) then s
  else
    let s := requestWords (dropStale (revoke s w) c w) c [w]
    registerWord (fillL1 s c w ⟨(readForward s w).1, false, false, false, false, none⟩) c w

/-- An atomic on a device-local base address: in the L1 at TEAM and CORE scope, after registering, or where the core
holds the words registered; else at the home, after another registrant has given the words up (R190). -/
def atomicLocal (s : State) (c : Nat) (t : Tgt) (pa : Nat) (f : Nat → Nat) (sc : Scope) : Nat × Bool × State :=
  let ws := (List.range (t.n / 4)).map fun i => pa / 4 + i
  let bad := ws.any fun w => if t.sync then blockPoisoned s w else homePoisoned s (w / 8)
  let s := if t.uncached then ws.foldl (fun s w => evict s c w) s
    else ws.foldl (fun s w => match l1Word s c w with
      | some x => if x.dirty && !x.reg then registerWord s c w else s
      | none => s) s
  let s := if inCore sc && !t.uncached && !bad then
      if t.sync then registerBlock s c (pa / 4)
      else ws.foldl (fun s w => takeWord s c w) s
    else s
  match ownWords s c pa t.n with
  | some old =>
    let new := f old
    (old, false, ws.zipIdx.foldl (fun s (x : Nat × Nat) => match l1Word s c x.1 with
      | some y => setL1 s c x.1 { y with val := BitVec.ofNat 32 (new / 2 ^ (32 * x.2)), dirty := true }
      | none => s) s)
  | none =>
    let (tbl, s) := readHome (ws.foldl revoke s) c ws ws
    let old := tbl.foldr (fun e acc => e.2.1.toNat + 2 ^ 32 * acc) 0
    (old, tbl.any (·.2.2), homeWrite s (bytesWrite pa (leBytes t.n (f old))))

/-- One atomic at its target (R66, R83, R92, R190, R205, R207). -/
def atomicTgt (s : State) (c : Nat) (t : Tgt) (f : Nat → Nat) (sc : Scope) : Atomic × State :=
  let probe := t.write 0 (2 ^ (8 * t.n) - 1)
  let remote (pa : Nat) (s : State) : Atomic × State :=
    if reachable s (remoteDevice pa) then
      let old := (Config.outsideWord s.tick).toNat + (if t.n = 8 then 2 ^ 32 * (Config.outsideWord (s.tick + 1)).toNat else 0)
      let s := { s with tick := s.tick + 2 }
      (⟨old, false, [pa / 32 * 32], false⟩, storeRemote s c (bytesWrite pa (leBytes t.n (f old))))
    else (⟨leNat (leBytes t.n (poisonWord.toNat * (2 ^ 32 + 1))), true, [], false⟩, s.deliverPoison (coreDie c) (pa / 32 * 32))
  let at' (pa : Nat) (s : State) : Atomic × State :=
    if isRemoteWord (pa / 4) then remote pa s
    else
      let (old, p, s) := atomicLocal s c t pa f sc
      (⟨old, p, if t.sync then [] else [pa / 32 * 32], false⟩, s)
  let refuse (s : State) : Atomic × State :=
    let (tbl, s) := readWords s c t.wordReqs
    (⟨t.value tbl, t.poisoned tbl, [], true⟩, s)
  match t.loc with
  | .host pa =>
    let (tbl, s) := readWords s c t.wordReqs
    let old := t.value tbl
    (⟨old, false, [pa / 32 * 32], false⟩, storeHost s c (bytesWrite pa (leBytes t.n (f old))))
  | .imm v => (⟨v, false, [], false⟩, s)
  | .tolerant .. =>
    match meetsSeal s probe with
    | (true, s) => refuse s
    | (false, s) =>
      let (tbl, s) := readHome (t.wordNames.foldl (fun s w => revoke (if t.uncached then evict s c w else s) w) s) c t.wordNames t.wordNames
      let old := t.value tbl
      let (st, s) := storeTgt s c t (f old) (2 ^ (8 * t.n) - 1)
      (⟨old, t.poisoned tbl, st.sigs, st.sealedW⟩, s)
  | .view _ bits =>
    match bits.head?.join with
    | none => (⟨0, false, [], false⟩, s)
    | some b =>
      match meetsSeal s probe with
      | (true, s) => refuse s
      | (false, s) => at' (b / 8) s
  | .plain pa =>
    match meetsSeal s probe with
    | (true, s) => refuse s
    | (false, s) => at' pa s

end Sys2Proof.Machine
end

