-- ==== Sys2Proof/Machine/Team.lean ====
section
/-! DEFINITION. Team: a team's registers, latches, operand cache, checkpoint and signatures (R152, R161 to R167, R192), how
it parks and wakes (R137, R138), its releases and acquires (R189, R190, R204), and the barriers (R203, R336, R337). -/

namespace Sys2Proof.Machine

/-! ## Teams and blocks by place -/

def State.setTeam (s : State) (k : Nat) (t : Team) : State := { s with teams := s.teams.set k t }
def State.modTeam (s : State) (k : Nat) (f : Team → Team) : State := { s with teams := modifyAt f k s.teams }
def State.modKey (s : State) (key : TeamKey) (f : Team → Team) : State :=
  { s with teams := s.teams.map fun t => if t.key = key then f t else t }
def State.teamOf (s : State) (key : TeamKey) : Option Team := s.teams.find? fun t => t.key == key

def Team.tl (t : Team) : Nat := t.cfg.tl
/-- 16 × die + logical core (R254). -/
def Team.coreNo (t : Team) : Nat := 16 * t.die + t.core
/-- Its block core (R128). -/
def Team.blockCore (t : Team) : Nat := t.key.num % t.cfg.coresN
/-- Present registers per lane (R134). -/
def Team.allot (t : Team) : Nat := t.regs.length

def Block.holds (b : Block) (key : TeamKey) : Bool := b.q == key.q && b.seq == key.seq && b.idx == key.blk
def State.blockIdx (s : State) (key : TeamKey) : Option Nat := s.blocks.findIdx? fun b => b.holds key
def State.blockOf (s : State) (key : TeamKey) : Option Block := s.blocks.find? fun b => b.holds key
def State.modBlock (s : State) (key : TeamKey) (f : Block → Block) : State :=
  { s with blocks := s.blocks.map fun b => if b.holds key then f b else b }

/-- Every lane of a team of `tl` lanes (R152). -/
def allLanes (tl : Nat) : Mask := BitVec.ofNat 1024 (2 ^ tl - 1)

/-! ## Registers, dead marks and latches -/

def zeroLanes (tl : Nat) : Lanes := List.replicate tl 0#32

def Team.isDead (t : Team) (n : Nat) : Bool := t.dead.getLsbD n
/-- A register as it is read: zero in every lane under its dead mark (R165). -/
def Team.reg (t : Team) (n : Nat) : Lanes :=
  if t.isDead n then zeroLanes t.tl else t.regs.getD n (zeroLanes t.tl)
def Team.regAt (t : Team) (n l : Nat) : Word := (t.reg n).getD l 0#32

/-- A write clears the dead mark (R165). -/
def Team.setReg (t : Team) (n : Nat) (v : Lanes) : Team :=
  { t with regs := t.regs.set n v, dead := t.dead &&& ~~~(1#160 <<< n) }

/-- A dead mark removes the register's tag (R164, R165). -/
def Team.killReg (t : Team) (n : Nat) : Team :=
  { t with dead := t.dead ||| (1#160 <<< n), ocache := t.ocache.filter fun e => e.1 != n }

def LaneLatches.empty : LaneLatches := ⟨[], [true, true, true, true]⟩
def LaneLatches.at (x : LaneLatches) (i l : Nat) : Word := (x.vals.getD i []).getD l 0#32
def LaneLatches.isVoid (x : LaneLatches) (i : Nat) : Bool := x.void.getD i true
def LaneLatches.shift (x : LaneLatches) (new : Lanes) : LaneLatches :=
  ⟨(new :: x.vals).take 4, (false :: x.void).take 4⟩
def UniLatches.empty : UniLatches := ⟨[], [true, true, true, true]⟩
def UniLatches.at (x : UniLatches) (i : Nat) : Word := x.vals.getD i 0#32
def UniLatches.isVoid (x : UniLatches) (i : Nat) : Bool := x.void.getD i true
def UniLatches.shift (x : UniLatches) (new : Word) : UniLatches := ⟨(new :: x.vals).take 4, (false :: x.void).take 4⟩

/-- Sticky bits are set (R225). -/
def Team.raise (t : Team) (bits : Word) : Team := { t with status := t.status ||| bits }
def poisonBit : Word := 1#32
def deadReadBit : Word := 2#32

/-- Latches and operand-cache entries become void; tags stay (R162, R164). -/
def Team.voidAll (t : Team) : Team :=
  { t with latL := LaneLatches.empty, latX := LaneLatches.empty, latU := UniLatches.empty
           ocache := t.ocache.map fun e => (e.1, false) }

/-! ## Checkpoint and restart (R167) -/

def Fibre.closed : Fibre := ⟨false, 0, none, 0, 0, 0⟩

/-- Restart at the region head; outstanding loads of the team are over before it. -/
def Team.restart (t : Team) : Team :=
  let c := t.ckpt
  { t.voidAll with
    regs := (List.range t.allot).map fun i => (look i c.regs).getD (zeroLanes t.tl)
    dead := 0#160, mask := c.mask, stack := c.stack, fibres := c.fibres, rng := c.rng, pc := c.head, repIdx := 0
    expect := none, moved := false, walked := false, loads := [] }

/-! ## Parking and the active set (R137, R138) -/

/-- A place in the order in which teams became unparked. -/
def nextOrder (s : State) : Nat := s.teams.foldl (fun m t => max m (t.order + 1)) 0

def Team.leaveActive (t : Team) : Team := { t.voidAll with active := false, walked := false }

/-- The team parks; it leaves the active set. -/
def parkTeam (s : State) (k : Nat) (p : Park) : State := s.modTeam k fun t => { t.leaveActive with park := some p }

/-- Lanes of a partition's active set. -/
def activeLanes (s : State) (core part : Nat) : Nat :=
  ((s.teams.filter fun t => t.active && t.coreNo == core && t.part == part).map Team.tl).sum

/-- A queued team enters the active set (R138, R162); its stay is counted in issue cycles (R15). -/
def enterActive (s : State) (k : Nat) : State :=
  match s.teams[k]? with
  | some t => s.setTeam k { t.voidAll with active := true, age := (s.die t.die).cycle, entered := (s.die t.die).issueCycle }
  | none => s

/-- A queued team whose lanes fit. -/
def lanesFit (s : State) (t : Team) : Bool :=
  t.park.isNone && !t.active && decide (activeLanes s t.coreNo t.part + t.tl ≤ 1024)

/-- A parked team's wait ends: it enters the active set if its lanes fit, and is queued otherwise. -/
def unparkKey (s : State) (key : TeamKey) : State :=
  let o := nextOrder s
  let s := s.modKey key fun t => { t with park := none, order := o }
  match s.teams.findIdx? fun t => t.key == key, s.teamOf key with
  | some k, some t => if lanesFit s t then enterActive s k else s
  | _, _ => s

/-- The team parks for view-cache fills and page walks of its next instruction, which then goes on without another wait for them
(R137, R163, log entry 12). -/
def parkFill (s : State) (k : Nat) : State := (parkTeam s k .fill).modTeam k fun t => { t with walked := true }

/-- A team that has waited for a walk, and whose instruction traps, has left the active set: it is queued (R137, R138). -/
def departed (s : State) (key : TeamKey) : State :=
  let o := nextOrder s
  s.modKey key fun t => if t.park.isNone then { t.leaveActive with order := o } else t

/-! ## Signatures, releases and acquires -/

def Team.relSig (t : Team) : Sig := t.sigW ||| t.sigE0 ||| t.sigE1 ||| t.sigE2
def Team.orSig (t : Team) (g : Sig) : Team := { t with sigW := t.sigW ||| g, sigE0 := t.sigE0 ||| g }
def Team.insertSigs (t : Team) (pas : List Nat) : Team := t.orSig (pas.foldl sigInsert 0#512)

/-- What a release does before its own write: nothing at TEAM and CORE, else the drain of the core's L1 (R189). -/
def releaseDrain (s : State) (t : Team) (sc : Scope) : State := if inCore sc then s else drainCore s t.coreNo

/-- After its write a release clears W (R189). -/
def clearW (s : State) (k : Nat) : State := s.modTeam k fun t => { t with sigW := 0#512 }

/-- An acquire with the signature it read, or with none (R190, R192, R194, R195). -/
def acquireTeam (s : State) (k : Nat) (sc : Scope) (g : Option Sig) : State :=
  match s.teams[k]? with
  | none => s
  | some t =>
    let s := acquire s t.coreNo sc g
    match g with
    | some g =>
      s.modTeam k fun t => if sigFull g then { t.orSig g with sigW := ~~~0#512 } else t.orSig g
    | none => s

/-- Copies of the words that a signature names leave the core's L1 and its die's Canopy, whatever the scope: an asynchronous
operation has written them at their homes (R188, R202, R204). -/
def dropWritten (s : State) (c : Nat) (hit : Nat → Bool) : State := dropCanopy (invalidateL1 s c hit) (coreDie c) hit

/-- The acquire of a team that resumes from a barrier (R204). -/
def barrierAcquire (s : State) (key : TeamKey) (sc : Scope) (g : Sig) : State :=
  match s.teams.findIdx? fun t => t.key == key, s.teamOf key with
  | some k, some t => acquireTeam (dropWritten s t.coreNo (sigTest (some g))) k sc (some g)
  | _, _ => s

/-! ## Named barriers (R203, R204, R336) -/

/-- The scope of a block's barriers (R186). -/
def blockScope (coresN : Nat) : Scope := if coresN = 1 then .core else .quad

def Block.bar (b : Block) (n : Nat) : Barrier := b.bars.getD n ⟨0, 0, 0, 0#512, none⟩
def Block.setBar (b : Block) (n : Nat) (x : Barrier) : Block := { b with bars := b.bars.set n x }

/-- Teams of a block parked in a barrier. -/
def waiters (s : State) (key : TeamKey) (n : Nat) : List TeamKey :=
  (s.teams.filter fun t => t.key.q == key.q && t.key.seq == key.seq && t.key.blk == key.blk
    && t.park == some (.bar n)).map (·.key)

/-- The phase completes when the arrivals equal M and P is 0 (R203). -/
def tryBarrier (s : State) (key : TeamKey) (n : Nat) : State :=
  match s.blockOf key with
  | none => s
  | some b =>
    let x := b.bar n
    if x.arrivals = x.m ∧ x.pend = 0 then
      let s := (waiters s key n).foldl (fun s w => barrierAcquire (unparkKey s w) w (blockScope b.cfg.coresN) x.sig) s
      s.modBlock key fun b => b.setBar n ⟨x.held.getD x.m, 0, 0, 0#512, none⟩
    else s

/-- A unit of a copy completes at its barrier: its sectors, then P (R203). -/
def completeUnit (s : State) (key : TeamKey) (n : Nat) (g : Sig) : State :=
  tryBarrier (s.modBlock key fun b =>
    let x := b.bar n
    b.setBar n { x with pend := x.pend - 1, sig := x.sig ||| g }) key n

/-! ## BARX (R337) -/

/-- The instance of a scope that a core lies in. -/
def scopeInstance (sc : Scope) (core : Nat) : Nat :=
  match sc with
  | .team | .core => core
  | .quad => core / 4
  | .die => core / 16
  | .pkg | .pod => 0

/-- The entry with an identity in the scope instance of a core. -/
def barxFind (s : State) (sc : Scope) (core ident : Nat) : Option BarxEntry :=
  s.barx.find? fun e => e.scope == sc && e.inst == scopeInstance sc core && e.ident == ident

def barxOpen (s : State) (sc : Scope) (core : Nat) : Nat :=
  (s.barx.filter fun e => e.scope == sc && e.inst == scopeInstance sc core).length

/-- Teams of a saved block whose wait ends. -/
def wakeSaved (wake : Team → Team) (b : SavedBlock) : SavedBlock :=
  let ts := b.teams.map wake
  { b with teams := ts }

/-- An arrival is counted; a complete entry wakes its teams and closes. -/
def barxArrive (s : State) (sc : Scope) (core ident count : Nat) (g : Sig) : State :=
  let inst := scopeInstance sc core
  let old := (barxFind s sc core ident).getD ⟨sc, inst, ident, count, 0, 0#512⟩
  let e := { old with arrivals := old.arrivals + 1, sig := old.sig ||| g }
  let others := s.barx.filter fun x => !(x.scope == sc && x.inst == inst && x.ident == ident)
  if e.arrivals = e.count then
    let woken (t : Team) : Bool := t.park == some (.barx sc inst ident)
    let wake (t : Team) : Team := if woken t then { t with park := none } else t
    let s := { s with barx := others, saved := s.saved.map (wakeSaved wake) }
    ((s.teams.filter woken).map (·.key)).foldl
      (fun s w => barrierAcquire (unparkKey s w) w sc e.sig) s
  else { s with barx := others ++ [e] }

/-! ## Random-number state (R179, R180) -/

def rngSeed (seq blk num lane : Nat) : DWord :=
  let x := ((seq % 2 ^ 28) * 2 ^ 36 + (blk % 2 ^ 20) * 2 ^ 16 + (num % 64) * 2 ^ 10 + lane % 1024) * 0x9E3779B97F4A7C15
  let v := BitVec.ofNat 64 x
  if v = 0#64 then 1#64 else v

/-- One advance of a lane's state, and the 32 bits it yields. -/
def rngNext (x : DWord) : DWord × Word :=
  let x := x ^^^ (x <<< 13)
  let x := x ^^^ (x >>> 7)
  let x := x ^^^ (x <<< 17)
  (x, (x * 0x2545F4914F6CDD1D#64).extractLsb' 32 32)

end Sys2Proof.Machine
end

