-- ==== Sys2Proof/Machine/Tile.lean ====
section
/-! DEFINITION. Tile: tile-store addresses, placement and holding (R171 to R176), accumulator rows (R357), and ALLOC's runs
(R127, R311). -/

namespace Sys2Proof.Machine

/-! ## Tile-store addresses (R171) -/

def tileCore (a : Nat) : Nat := fieldOf a 21 2
def tileOff (a : Nat) : Nat := fieldOf a 0 21

/-- Bytes of a block's share on each of its cores. -/
def Block.shareBytes (b : Block) : Nat := b.tileLen * 4096

/-- TILEBOUND's test of an access of `n` bytes (R171). -/
def tileBound (b : Block) (a n : Nat) : Bool :=
  decide (2 ^ 23 ≤ a) || decide (b.cfg.coresN ≤ tileCore a) || decide (b.shareBytes < tileOff a + n)

/-- Units that an access reaches, by 512 × block core + unit. -/
def tileUnits (a n : Nat) : List Nat :=
  if n = 0 then [] else
    (List.range ((tileOff a + n - 1) / 4096 + 1 - tileOff a / 4096)).map fun i => 512 * tileCore a + tileOff a / 4096 + i

def Block.heldBy (b : Block) (t u : Nat) : Bool := look u b.units == some (.held t)

/-- TILEOWN's test (R175). -/
def tileNotOwn (b : Block) (t a n : Nat) : Bool := (tileUnits a n).any fun u => !b.heldBy t u

/-- The first of TILEBOUND and TILEOWN that an access meets. -/
def tileCause (b : Block) (t a n : Nat) : Option Cause :=
  if tileBound b a n then some .tilebound else if tileNotOwn b t a n then some .tileown else none

/-- The first byte of an access that meets such a cause (R340). -/
def tileFirst (b : Block) (t a n : Nat) (c : Cause) : Nat :=
  if c = .tilebound then
    if 2 ^ 23 ≤ a ∨ b.cfg.coresN ≤ tileCore a then a else a + (b.shareBytes - tileOff a)
  else match (tileUnits a n).findIdx? fun u => !b.heldBy t u with
    | some i => max a ((a / 4096 + i) * 4096)
    | none => a

/-! ## Banks (R172) -/

/-- BANK(m, a). -/
def tileBank (m a : Nat) : Nat :=
  let col := fieldOf a 4 5
  let s := fieldOf a 9 12
  if m = 0 then col
  else if m ≤ 5 then col ^^^ (s % 2 ^ m)
  else if m ≤ 10 then col ^^^ (s % 2 ^ (m - 5) * 2 ^ (10 - m))
  else (col + s * 2 ^ (m - 11)) % 32

/-- A byte's place in its core: bank word, bank, byte. `base` is the share's first unit. -/
def tilePlace (base m a : Nat) : Nat := ((fieldOf a 9 12 + 8 * base) * 32 + tileBank m a) * 16 + a % 16

/-- The core and the place of a byte of a block's tile store. -/
def tileSpot (b : Block) (m a : Nat) : Nat × Nat :=
  (b.cores.getD (tileCore a) 0, tilePlace (b.tileBase.getD (tileCore a) 0) m (tileOff a))

def tileByte (s : State) (b : Block) (m a : Nat) : Byte :=
  let p := tileSpot b m a
  Memory.read (s.core p.1).tile p.2

def tileRead (s : State) (b : Block) (m a n : Nat) : List Byte := (List.range n).map fun i => tileByte s b m (a + i)

def tileWriteByte (s : State) (b : Block) (m a : Nat) (v : Byte) : State :=
  let p := tileSpot b m a
  s.modCore p.1 fun k => { k with tile := Memory.write k.tile p.2 v }

def tileWrite (s : State) (b : Block) (m a : Nat) (bs : List Byte) : State :=
  (bs.zipIdx a).foldl (fun s x => tileWriteByte s b m x.2 x.1) s

/-- Every byte of a unit of a core reads as zero (R175). -/
def clearTile (s : State) (c base units : Nat) : State :=
  s.modCore c fun k => { k with tile := k.tile.filter fun e =>
    !(decide (4096 * base ≤ e.1 ∧ e.1 < 4096 * (base + units))) }

/-! ## Accumulator rows (R357) -/

/-- The row of a core that a row of a team's share names. -/
def accRow (b : Block) (bc r : Nat) : Nat := b.accBase.getD bc 0 + r

def accWord (s : State) (c row col : Nat) : Word := (look (128 * row + col) (s.core c).acc).getD 0#32

def setAcc (s : State) (c row col : Nat) (v : Word) : State :=
  s.modCore c fun k =>
    { k with acc := if v = 0#32 then del (128 * row + col) k.acc else put (128 * row + col) v k.acc }

def clearAcc (s : State) (c row n : Nat) : State :=
  s.modCore c fun k => { k with acc := k.acc.filter fun e => !(decide (128 * row ≤ e.1 ∧ e.1 < 128 * (row + n))) }

/-- Whether a team holds rows `r` to `r + n − 1` of its share. -/
def Team.holdsRows (t : Team) (r n : Nat) : Bool :=
  n == 0 || match t.accRun with
    | some (f, k) => decide (f ≤ r ∧ r + n ≤ f + k)
    | none => false

/-! ## Runs (R127, R311) -/

/-- The lowest-numbered run of `n` free places below `total`, given which are taken as runs (first, length). -/
def lowestRun (taken : List (Nat × Nat)) (total n : Nat) : Option Nat :=
  let free (a : Nat) : Bool := taken.all fun r => decide (a + n ≤ r.1 ∨ r.1 + r.2 ≤ a)
  ((0 :: taken.map fun r => r.1 + r.2).filter fun a => decide (a + n ≤ total) && free a).min?

/-- Units of a block core that are not free, as runs. -/
def Block.takenUnits (b : Block) (bc : Nat) : List (Nat × Nat) :=
  (b.units.filter fun e => e.1 / 512 == bc).map fun e => (e.1 % 512, 1)

def Block.takenRows (b : Block) (bc : Nat) : List (Nat × Nat) :=
  (b.accRuns.filter fun r => r.1 == bc).map fun r => (r.2.1, r.2.2.1)

/-- A buffer handle's fields (R176): units, first unit, block core, and whether reserved bits are zero. -/
def handleUnits (h : Nat) : Nat := fieldOf h 21 9 + 1
def handleFirst (h : Nat) : Nat := fieldOf h 12 9
def handleCore (h : Nat) : Nat := fieldOf h 10 2
def handleOk (b : Block) (h : Nat) : Bool :=
  fieldOf h 30 2 == 0 && fieldOf h 0 10 == 0 && decide (handleCore h < b.cfg.coresN)
    && decide (handleFirst h + handleUnits h ≤ b.tileLen)
def handleList (h : Nat) : List Nat := (List.range (handleUnits h)).map fun i => 512 * handleCore h + handleFirst h + i
def makeHandle (bc first n : Nat) : Nat := (n - 1) * 2 ^ 21 + first * 2 ^ 12 + bc * 2 ^ 10

end Sys2Proof.Machine
end

