-- ==== Sys2Proof/Machine/Bulk.lean ====
section
/-! DEFINITION. Bulk: how asynchronous operations read and write memory, views and the tile store (R84 to R87, R92 to R97,
R340, R341), and what each unit of a copy does (R343 to R348). -/

namespace Sys2Proof.Machine

/-! ## What an operation meets (R341) -/

/-- What a part of an operation has met: views read and counted, causes with their addresses, the first poisoned address,
and the sectors written. -/
structure Met where
  views : OpViews
  causes : List TrapInfo
  poison : Option Nat
  sigs : List Nat
deriving DecidableEq, Repr

def Met.start (v : OpViews) : Met := ⟨v, [], Option.none, []⟩
def Met.cause (m : Met) (c : Cause) (sub addr : Nat) : Met := { m with causes := m.causes ++ [⟨c, sub, 0, addr⟩] }
def Met.taint (m : Met) (addr : Nat) : Met := { m with poison := m.poison <|> some addr }

/-- A cause at an address, if there is one. -/
def Met.causeAt (m : Met) (c : Cause) (sub : Nat) (addr : Option Nat) : Met :=
  match addr with
  | some a => m.cause c sub a
  | none => m

/-- Bytes read, each with whether it was poison. -/
abbrev Taken := List (Byte × Bool)

def Taken.bytes (t : Taken) : List Byte := t.map (·.1)
def zerosTaken (n : Nat) : Taken := List.replicate n (0#8, false)

/-! ## Uncached pages (R212) -/

/-- An access of an uncached page first takes the words out of the issuing core's L1. -/
def evictWords (s : State) (c : Nat) (uncached : Bool) (ws : List Nat) : State :=
  if uncached then ws.foldl (fun s w => evict s c w) s else s

/-- Words that hold `n` bytes from an address. -/
def spanWords (a n : Nat) : List Nat := if n = 0 then [] else (List.range ((a + n - 1) / 4 + 1 - a / 4)).map (a / 4 + ·)

/-! ## Through views -/

/-- What a request met, added to what its operation met: each cause at its first failing view offset, which `addr` names as the
operation records it. -/
def Met.take (m : Met) (view : Nat) (f : BulkFlags) (v : OpViews) (addr : Nat → Nat) : Met :=
  let m := { m with views := v.count view f.counted }
  let m := match f.fault with
    | some t => m.cause t.cause t.sub (addr t.addr)
    | none => m
  let m := m.causeAt .gatherchk 0 f.gather
  let m := m.causeAt .pprot 3 (f.table.map addr)
  let m := m.causeAt .sealedC 0 (f.sealedW.map addr)
  match f.poison with
  | some o => m.taint (addr o)
  | none => m

/-- The requests of at most 128 view sectors that a run of view bytes is cut into: first sector and length (R84). -/
def viewRequests (o n : Nat) : List (Nat × Nat) :=
  let first := o / 32
  let total := if n = 0 then 0 else (o + n - 1) / 32 + 1 - first
  (List.range (ceilDiv total 128)).map fun q => (first + 128 * q, min 128 (total - 128 * q))

/-- One bulk read of `k` view sectors from `f0` for core `c`. -/
def readRequest (s : State) (c : Nat) (unc : Bool) (m : Met) (view f0 k : Nat) (addr : Nat → Nat) : Taken × Met × State :=
  let (e, h, s) := takeView s (coreDie c) view
  let (ix, p, v, s) := opIndices s (coreDie c) m.views e (32 * f0) (32 * k)
  let s := if unc then evictWords s c unc (((e.desc.bits ix (32 * f0) (32 * k)).filterMap fun b => b.map (· / 32)).dedup) else s
  let (bs, _, f, s) := (List.range k).foldl
    (fun (a : Taken × List (Nat × List Byte × Bool) × BulkFlags × State) i =>
      let (bs, buf, f, s) := composeRead a.2.2.2 h e ix a.2.1 a.2.2.1 (f0 + i)
      (a.1 ++ bs, buf, f, s)) (([] : Taken), [], v.flags view, s)
  let s := if f.fault.isSome then countViewFault s view else s
  (bs, m.take view { f with poison := (p.toList ++ f.poison.toList).min? } v addr, s)

/-- A bulk read of `n` view bytes from offset `o` for core `c`. -/
def viewRead (s : State) (c : Nat) (unc : Bool) (m : Met) (view o n : Nat) (addr : Nat → Nat) : Taken × Met × State :=
  let r := (viewRequests o n).foldl (fun (acc : Taken × Met × State) q =>
    let (bs, m, s) := readRequest acc.2.2 c unc acc.2.1 view q.1 q.2 addr
    (acc.1 ++ bs, m, s)) (([] : Taken), m, s)
  ((r.1.drop (o % 32)).take n, r.2.1, r.2.2)

/-- The part of a write that no home has refused as sealed. -/
def unsealed (s : State) (refused : Bool) (w : EnWrite) : EnWrite :=
  w.filter fun x => if isRemoteWord (x.1 / 4) then !refused else (sealAt s x.1).isNone

def writtenSectors (w : EnWrite) : List Nat := (w.map fun x => x.1 / 32 * 32).dedup

/-- One bulk write of the `k` view sectors from `f0`, of the view bytes from offset `o`: one write of the base sectors (R86). -/
def writeRequest (s : State) (c : Nat) (adm unc : Bool) (m : Met) (view f0 k o : Nat) (bytes : List Byte) (addr : Nat → Nat) :
    Met × State :=
  let (e, _, s) := takeView s (coreDie c) view
  let (ix, p, v, s) := opIndices s (coreDie c) m.views e (32 * f0) (32 * k)
  let (f, w, s) := (List.range k).foldl (fun (a : BulkFlags × EnWrite × State) i =>
    let lo := max o (32 * (f0 + i))
    let hi := min (o + bytes.length) (32 * (f0 + i) + 32)
    let (w, f, s) := composeWrite a.2.2 adm e ix a.1 lo ((bytes.drop (lo - o)).take (hi - lo))
    (f, a.2.1 ++ w, s)) (v.flags view, ([] : EnWrite), s)
  let (refused, s') := bulkWrite (evictWords s c unc ((w.map (·.1 / 4)).dedup)) w
  let f := { f with
    sealedW := f.sealedW <|> (if refused then some (max o (32 * f0)) else none)
    poison := p }
  let s' := if f.fault.isSome then countViewFault s' view else s'
  ({ m.take view f v addr with sigs := m.sigs ++ writtenSectors (unsealed s refused w) }, s')

/-- A bulk write of view bytes from offset `o`. -/
def viewWrite (s : State) (c : Nat) (adm unc : Bool) (m : Met) (view o : Nat) (bytes : List Byte) (addr : Nat → Nat) : Met × State :=
  (viewRequests o bytes.length).foldl (fun (acc : Met × State) q =>
    writeRequest acc.2 c adm unc acc.1 view q.1 q.2 o bytes addr) (m, s)

/-! ## Memory sides (R340, R344) -/

/-- The page that an operation took for a virtual address. -/
def pageOf (pages : List PageX) (va : Nat) : Option PageX := pages.find? fun p => p.vpage == va / 65536

/-- A run of virtual bytes cut at page ends: (address, length). -/
def pagePieces (va n : Nat) : List (Nat × Nat) :=
  if n = 0 then [] else
    (List.range ((va + n - 1) / 65536 + 1 - va / 65536)).map fun i =>
      let lo := max va ((va / 65536 + i) * 65536)
      (lo, min (va + n) ((va / 65536 + i + 1) * 65536) - lo)

/-- Bytes at their home, sector by sector, for core `c`; poison gives zeros. -/
def plainTaken (s : State) (c : Nat) (unc : Bool) (pa n : Nat) : Taken × State :=
  if n = 0 then ([], s)
  else
    let first := pa / 32
    let r := (List.range ((pa + n - 1) / 32 + 1 - first)).foldl (fun (acc : Taken × State) i =>
      let (bs, p, s) := bulkSector acc.2 (coreDie c) (first + i)
      (acc.1 ++ bs.map fun b => (b, p), s)) (([] : Taken), evictWords s c unc (spanWords pa n))
    ((r.1.drop (pa % 32)).take n, r.2)

/-- Narrowed halves widened (R66); a poisoned half gives zeros to a copy (R37). -/
def widenTaken (tol : Nat) : Nat → Taken → Taken
  | 0, _ => []
  | n + 1, a :: b :: r =>
    let w := if a.2 || b.2 then 0#32 else tolWiden tol (leNat [a.1, b.1])
    (leBytes 4 w.toNat).map (fun x => (x, a.2 || b.2)) ++ widenTaken tol n r
  | _, _ => []

def narrowBytes (tol : Nat) (bs : List Byte) : List Byte :=
  (List.range (bs.length / 4)).flatMap fun i => leBytes 2 (tolNarrow tol (wordOfBytes ((bs.drop (4 * i)).take 4)))

/-- Physical address in narrowed form of a word of a tolerant page (R65): a 512 MiB page keeps its own frame's lower half. -/
def PageX.tolAddr (p : PageX) (va : Nat) : Nat :=
  let off := p.base + va % 65536 - p.leaf.addr
  p.leaf.addr + off / 4 * 2

/-- One piece of a memory read, within a page. -/
def pieceRead (s : State) (c : Nat) (m : Met) (pages : List PageX) (va n : Nat) : Taken × Met × State :=
  match pageOf pages va with
  | none => (zerosTaken n, m.taint va, s)
  | some p =>
    let pa := p.base + va % 65536
    let unc := p.leaf.ca == 1
    let finish (t : Taken) (s : State) : Taken × Met × State :=
      (t, match t.findIdx? (·.2) with
        | some i => m.taint (va + i)
        | none => m, s)
    if p.leaf.typ = 1 then
      let o := pa % 2 ^ 36
      viewRead s c unc m (fieldOf pa 36 11) o n fun x => if o ≤ x then va + (x - o) else va
    else if p.leaf.typ = 3 then
      let (t, s) := readHost s c ((List.range (ceilDiv (pa % 4 + n) 4)).map fun i => hostBase + pa / 4 + i)
      ((((t.flatMap fun e => leBytes 4 e.2.1.toNat).drop (pa % 4)).take n).map fun b => (b, false), m, s)
    else if p.leaf.tol ≠ 0 then
      let lead := va % 4
      let k := ceilDiv (lead + n) 4
      let (t, s) := plainTaken s c unc (p.tolAddr va) (2 * k)
      finish (((widenTaken p.leaf.tol k t).drop lead).take n) s
    else
      let (t, s) := plainTaken s c unc pa n
      finish t s

/-- A memory read through the pages taken at issue. -/
def memRead (s : State) (c : Nat) (m : Met) (pages : List PageX) (va n : Nat) : Taken × Met × State :=
  (pagePieces va n).foldl (fun (acc : Taken × Met × State) x =>
    let (t, m, s) := pieceRead acc.2.2 c acc.2.1 pages x.1 x.2
    (acc.1 ++ t, m, s)) (([] : Taken), m, s)

/-- One piece of a memory write, within a page. -/
def pieceWrite (s : State) (c : Nat) (adm : Bool) (m : Met) (pages : List PageX) (va : Nat) (bs : List Byte) : Met × State :=
  match pageOf pages va with
  | none => (m, s)
  | some p =>
    let pa := p.base + va % 65536
    let unc := p.leaf.ca == 1
    let plain (w : EnWrite) : Met × State :=
      let (refused, s') := bulkWrite (evictWords s c unc ((w.map (·.1 / 4)).dedup)) w
      let scale := if p.leaf.tol = 0 then 1 else 2
      let at' := w.findIdx? fun x => isRemoteWord (x.1 / 4) || (sealAt s x.1).isSome
      let m := if refused then m.cause .sealedC 0 (va + scale * at'.getD 0) else m
      ({ m with sigs := if p.leaf.sync then m.sigs else m.sigs ++ writtenSectors (unsealed s refused w) }, s')
    if p.leaf.typ = 1 then
      let o := pa % 2 ^ 36
      viewWrite s c adm unc m (fieldOf pa 36 11) o bs fun x => if o ≤ x then va + (x - o) else va
    else if p.leaf.typ = 3 then
      ({ m with sigs := if p.leaf.sync then m.sigs else m.sigs ++ writtenSectors (bytesWrite pa bs) }, storeHost s c (bytesWrite pa bs))
    else if p.leaf.tol ≠ 0 then plain (bytesWrite (p.tolAddr va) (narrowBytes p.leaf.tol bs))
    else plain (bytesWrite pa bs)

def memWrite (s : State) (c : Nat) (adm : Bool) (m : Met) (pages : List PageX) (va : Nat) (bs : List Byte) : Met × State :=
  (pagePieces va bs.length).foldl (fun (acc : Met × State) x =>
    pieceWrite acc.2 c adm acc.1 pages x.1 ((bs.drop (x.1 - va)).take x.2)) (m, s)

/-- A side's bytes at an offset (R344). -/
def sideRead (s : State) (c : Nat) (b : Block) (m : Met) (side : Side) (off n : Nat) : Taken × Met × State :=
  match side with
  | .mem va pages => memRead s c m pages (va + off) n
  | .tile a mode => ((tileRead s b mode (a + off) n).map fun x => (x, false), m, s)

def sideWrite (s : State) (c : Nat) (b : Block) (m : Met) (side : Side) (off : Nat) (bs : List Byte) : Met × State :=
  match side with
  | .mem va pages => memWrite s c b.cfg.viewadm m pages (va + off) bs
  | .tile a mode => (m, tileWrite s b mode (a + off) bs)

/-! ## Reads ahead (R201, R358, R382) -/

/-- The tile stores with the bytes in them that an operation has read ahead. -/
def withEarly (s : State) (x : EarlyReads) : State :=
  x.foldl (fun s (e : Nat × Nat × Byte) => s.modCore e.1 fun k => { k with tile := Memory.write k.tile e.2.1 e.2.2 }) s

/-- The tile stores as another state has them, in the cores of a read ahead. -/
def restoreTiles (old new : State) (x : EarlyReads) : State :=
  x.foldl (fun s (e : Nat × Nat × Byte) => s.modCore e.1 fun k => { k with tile := (old.core e.1).tile }) new

/-- A side's bytes, of which a tile store gives those that were read ahead. -/
def sideTake (s : State) (c : Nat) (b : Block) (early : EarlyReads) (m : Met) (side : Side) (off n : Nat) :
    Taken × Met × State :=
  match side with
  | .mem .. => sideRead s c b m side off n
  | .tile .. => ((sideRead (withEarly s early) c b m side off n).1, m, s)

/-- A bank word, read ahead once. -/
def EarlyReads.take (x : EarlyReads) (s : State) (core word : Nat) : EarlyReads :=
  if x.any fun e => e.1 == core && e.2.1 / 16 == word then x
  else x ++ (List.range 16).map fun i => (core, 16 * word + i, Memory.read (s.core core).tile (16 * word + i))

/-! ## Compressed blocks (R346) -/

/-- A block's LEN, or none where its header is malformed; ZRUN's depends on its bitmap. -/
def blockLen (header : List Byte) (setBits : Nat) : Option Nat :=
  let h := leNat header
  let len := fieldOf h 32 32
  let want := match fieldOf h 0 2 with
    | 0 => some 4104
    | 1 => some (136 + 4 * setBits)
    | 2 => some 3096
    | _ => none
  if fieldOf h 2 30 = 0 ∧ want = some len then want else none

def countBits (bs : List Byte) : Nat := (bs.map fun b => (List.range 8).countP fun i => b.getLsbD i).sum

/-- ZRUN's payload: the words of the bitmap's set bits, in order. -/
def zrun (bitmap words : List Byte) : List Byte :=
  ((List.range 1024).foldl (fun (acc : List Byte × List Byte) i =>
    if bitOfBytes bitmap i then (acc.1 ++ acc.2.take 4, acc.2.drop 4) else (acc.1 ++ List.replicate 4 0#8, acc.2))
    (([] : List Byte), words)).1

/-- EXPD's payload: BF16 elements from sign, dictionary byte and fraction. -/
def expd (dict codes : List Byte) : List Byte :=
  let x := leNat codes
  (List.range 2048).flatMap fun j =>
    let c := fieldOf x (12 * j) 12
    let ex := (dict.getD (fieldOf c 7 4) 0#8).toNat
    leBytes 2 (fieldOf c 11 1 * 2 ^ 15 + ex * 2 ^ 7 + fieldOf c 0 7)

/-- The decompressed data of a row: blocks until `want` bytes are there; a malformed or poisoned block ends the stream,
its bytes and the rest of the row being zeros, as poison. -/
def decompress (s : State) (c : Nat) (b : Block) (m : Met) (side : Side) (off : Nat) :
    Nat → Nat → List Byte × Met × State
  | 0, _ => ([], m, s)
  | fuel + 1, want =>
    if want = 0 then ([], m, s)
    else
      let (h, m, s) := sideRead s c b m side off 8
      let isZrun := fieldOf (leNat h.bytes) 0 2 == 1
      let (bm, m, s) := if isZrun then sideRead s c b m side (off + 8) 128 else (([] : Taken), m, s)
      match blockLen h.bytes (countBits bm.bytes) with
      | none => (List.replicate want 0#8, m.taint (match side with
          | .mem va _ => va + off
          | .tile a _ => a + off), s)
      | some len =>
        let (p, m, s) := sideRead s c b m side (off + 8) (len - 8)
        let bs := p.bytes
        let data := match fieldOf (leNat h.bytes) 0 2 with
          | 0 => bs
          | 1 => zrun (bs.take 128) (bs.drop 128)
          | _ => expd (bs.take 16) (bs.drop 16)
        let (rest, m, s) := decompress s c b m side (off + roundUp len 16) fuel (want - 4096)
        (data.take want ++ rest, m, s)

/-! ## Bytes that are both read and written (R344) -/

/-- Where the bytes of a run of a copy's side lie, as half-open runs of places: base bytes, host bytes and the block's tile-store bytes
have places of their own. A GATHER view may reach any byte of its table (log entry 114). -/
def sideSpans (s : State) (c : Nat) (side : Side) (off n : Nat) : List (Nat × Nat) :=
  match side with
  | .tile a _ => [(2 ^ 60 + a + off, 2 ^ 60 + a + off + n)]
  | .mem va pages => (pagePieces (va + off) n).flatMap fun x => match pageOf pages x.1 with
    | none => []
    | some p =>
      let pa := p.base + x.1 % 65536
      if p.leaf.typ = 1 then
        let e := (engineView s (coreDie c) (idleEngine s (coreDie c)) (fieldOf pa 36 11)).1
        if e.outcome != .legal then []
        else if e.desc.isGather then [(e.desc.range.1.toNat, (e.desc.range.2 + 1).toNat)]
        else (((e.desc.bits [] (pa % 2 ^ 36) x.2).filterMap fun b => b.map (· / 8)).dedup).map fun b => (b, b + 1)
      else if p.leaf.typ = 3 then [(2 ^ 59 + pa, 2 ^ 59 + pa + x.2)]
      else if p.leaf.tol ≠ 0 then [(p.tolAddr x.1, p.tolAddr x.1 + 2 * ceilDiv (x.1 % 4 + x.2) 4)]
      else [(pa, pa + x.2)]

def spansMeet (x y : List (Nat × Nat)) : Bool := x.any fun a => y.any fun b => decide (a.1 < b.2 ∧ b.1 < a.2)

/-- Bytes of a compressed row's stream at most: a block of 4,104 bytes, rounded up to 16, for each 4,096 bytes. -/
def streamBytes (n : Nat) : Nat := 4112 * ceilDiv n 4096

/-- The bytes that a row of a copy writes: unpredictable where they overlap a source byte of the same copy (R10, R344, log
entry 114). -/
def overlapped (s : State) (c : Nat) (src dst : Side) (rows n sp dp u : Nat) (dc : Bool) (bs : List Byte) : List Byte × State :=
  let reads := (List.range rows).flatMap fun i => sideSpans s c src (i * sp) (if dc then streamBytes n else n)
  if spansMeet reads (sideSpans s c dst (u * dp) n) then
    (bs.zipIdx.map fun x =>
        if spansMeet reads (sideSpans s c dst (u * dp + x.2) 1) then (Config.unpredictable (s.tick + x.2)).setWidth 8 else x.1,
      { s with tick := s.tick + n })
  else (bs, s)

/-! ## Units of the copies -/

/-- CPYS's operation on a destination word (R345). -/
def cpysWord (eop : Nat) (d x : Word) : Word :=
  let half (h : Nat) : Nat := (Fmt.bf16.addF .rne false (Fmt.bf16.read (fieldOf d.toNat (16 * h) 16))
    (Fmt.bf16.read (fieldOf x.toNat (16 * h) 16))).1
  match eop with
  | 0 => BitVec.ofNat 32 (Fmt.fp32.addF .rne false (Fmt.fp32.read d.toNat) (Fmt.fp32.read x.toNat)).1
  | 1 => BitVec.ofNat 32 (half 0 + 2 ^ 16 * half 1)
  | 2 => d + x
  | _ => BitVec.ofNat 32 (Fmt.fp32.minMax true d.toNat x.toNat).1

/-- A row of CPYS: every destination word that a clean source word reaches. -/
def cpysRow (s : State) (c : Nat) (b : Block) (m : Met) (eop : Nat) (src dst : Side) (so do' n : Nat) : Met × State :=
  let (x, m, s) := sideRead s c b m src so n
  (List.range (n / 4)).foldl (fun (acc : Met × State) i =>
    let w := (x.drop (4 * i)).take 4
    if w.any (·.2) then acc
    else
      let (y, m, s) := sideRead acc.2 c b acc.1 dst (do' + 4 * i) 4
      sideWrite s c b m dst (do' + 4 * i)
        (leBytes 4 (cpysWord eop (wordOfBytes y.bytes) (wordOfBytes (Taken.bytes w))).toNat)) (m, s)

def GATHCNT (d : Nat) : Nat := 0x280 + 8 * d

/-- The counting die of a CPYG, by the pages taken at issue (R347); none where another device homes the table or its view. -/
def countingDie (s : State) (d : Nat) (va : Nat) (pages : List PageX) : Option Nat :=
  match pageOf pages va with
  | none => some d
  | some p =>
    let pa := p.base + va % 65536
    if p.leaf.typ = 1 then
      let base := (engineView s d (idleEngine s d) (fieldOf pa 36 11)).1.desc.base
      if fieldOf base 46 1 = 1 then none else some (homeDie base)
    else if p.leaf.typ = 2 then none
    else if p.leaf.typ = 3 then some d
    else some (homeDie pa)

/-- Whether a gather's table is plain memory. -/
def plainTable (table : Side) : Bool := match table with
  | .mem va pages => (pageOf pages va).any fun p => p.leaf.typ == 0
  | .tile .. => false

/-- The engine of a plain table's home composes row `i` of a gather: VSEC counts the sectors of the packed rows that start in it, and
BSEC the base sectors of the table's row (R96, R101, R347). -/
def countRow (s : State) (table : Side) (r : Option Nat) (rowb i : Nat) (cd : Option Nat) : State :=
  match cd, table with
  | some d, .mem va pages =>
    let starts := (ceilDiv ((i + 1) * rowb) 32) - ceilDiv (i * rowb) 32
    let s := s.countUnits (VECNT d) 32 32 starts
    match r with
    | some r =>
      let a := match pageOf pages (va + r * rowb) with
        | some p => p.base + (va + r * rowb) % 65536
        | none => 0
      s.countUnits (VECNT d) 0 32 ((a + rowb - 1) / 32 + 1 - a / 32)
    | none => s
  | _, _ => s

/-- Row `i` of a CPYG (R347); GATHERCHK is recorded at issue, where the indices are read. -/
def cpygRow (s : State) (c : Nat) (b : Block) (early : EarlyReads) (m : Met) (scatter : Bool) (packed table : Side) (x : Nat)
    (rowb trows i : Nat) (cd : Option Nat) : Met × State :=
  let count (lo : Nat) (s : State) : State := match cd with
    | some d => if lo = 0 then s.countUnits (GATHCNT d) 0 32 1 else s.count (GATHCNT d) 32 32 1
    | none => s
  let ix := RowIx.ofWord (BitVec.ofNat 32 x) trows
  let s := if scatter || !plainTable table then s else countRow s table (match ix with
    | .row r => some r
    | _ => none) rowb i cd
  match ix with
  | .row r =>
    let s := count 0 s
    if scatter then
      let (t, m, s) := sideTake s c b early m packed (i * rowb) rowb
      sideWrite s c b m table (r * rowb) t.bytes
    else
      let (t, m, s) := sideRead s c b m table (r * rowb) rowb
      sideWrite s c b m packed (i * rowb) t.bytes
  | .counted =>
    let s := count 32 s
    if scatter then (m, s) else sideWrite s c b m packed (i * rowb) (List.replicate rowb 0#8)
  | .null => if scatter then (m, s) else sideWrite s c b m packed (i * rowb) (List.replicate rowb 0#8)

/-- How many units a copy completes (R203, R344, R345, R347, R348). -/
def CopyKind.units : CopyKind → Nat
  | .cpy _ _ rows _ _ _ _ => rows
  | .cpys .. => 1
  | .cpyg _ _ _ _ idx _ _ _ => idx.length
  | .actld .. => 1

/-- A bank of an activation table filled from 2,048 bytes (R177, R348). -/
def fillBank (s : State) (c table : Nat) (owner : Nat × Nat) (bs : List Byte) : State :=
  let bank : ActBank := ⟨some owner, (List.range 256).map fun i => BitVec.ofNat 64 (leNat ((bs.drop (8 * i)).take 8))⟩
  s.modCore c fun k => { k with tables := modifyAt (fun t =>
    if t.active then { t with bank0 := bank } else { t with bank1 := bank }) table k.tables }

/-- One unit of a copy of core `c`. -/
def copyUnit (s : State) (c : Nat) (b : Block) (op : CopyOp) (u : Nat) : Met × State :=
  let m := Met.start op.views
  match op.kind with
  | .cpy src dst rows n sp dp dc =>
    if dc then
      let (bs, m, s) := decompress s c b m src (u * sp) (ceilDiv n 4096) n
      let (bs, s) := overlapped s c src dst rows n sp dp u dc bs
      sideWrite s c b m dst (u * dp) bs
    else
      let (t, m, s) := sideTake s c b op.early m src (u * sp) n
      let (bs, s) := overlapped s c src dst rows n sp dp u dc t.bytes
      sideWrite s c b m dst (u * dp) bs
  | .cpys eop src dst rows n sp dp =>
    (List.range rows).foldl (fun (acc : Met × State) i => cpysRow acc.2 c b acc.1 eop src dst (i * sp) (i * dp) n) (m, s)
  | .cpyg scatter _ packed table idx rowb trows cd =>
    cpygRow s c b op.early m scatter packed table (idx.getD u 0) rowb trows u cd
  | .actld table src =>
    let (t, m, s) := sideRead s c b m src 0 2048
    (m, fillBank s c table (op.team.q, op.team.seq) t.bytes)

end Sys2Proof.Machine
end

