-- ==== Sys2Proof/Machine/MatrixUnit.lean ====
section
/-! DEFINITION. MatrixUnit: the sums of the matrix unit (R244 to R248), its operands (R360 to R364), and what each entry of
the matrix queue does to the accumulator rows (R365 to R378, R382 to R384). -/

namespace Sys2Proof.Machine

/-! ## Exact sums (R244, R245) -/

def FVal.ofInt (i : Int) : FVal := .fin (decide (i < 0)) ⟨i, 0⟩
def FVal.one : FVal := FVal.ofInt 1
def FVal.plusZero : FVal := .fin false Dy.zero
def FVal.defaultNan : FVal := .nan false true 0 23

/-- An exact product. -/
def FVal.times (x y : FVal) : FVal :=
  if x.isNan || y.isNan || (x.isInf && y.isZero) || (x.isZero && y.isInf) then FVal.defaultNan
  else if x.isInf || y.isInf then .inf (x.sign != y.sign)
  else .fin (x.sign != y.sign) (x.real.mul y.real)

/-- An exact sum; an exact zero is + unless both terms are −0. -/
def FVal.plus (x y : FVal) : FVal :=
  if x.isNan || y.isNan || (x.isInf && y.isInf && x.sign != y.sign) then FVal.defaultNan
  else if x.isInf then x
  else if y.isInf then y
  else
    let r := x.real.add y.real
    .fin (if r.isZero then x.isZero && y.isZero && x.sign && y.sign else decide (r.m < 0)) r

/-- An exact value rounded to FP32 by RNE; a NaN gives the default NaN. -/
def FVal.toFp32 (x : FVal) : Word :=
  match x with
  | .nan .. => 0x7FC00000#32
  | .inf n => BitVec.ofNat 32 (Fmt.fp32.infBits n)
  | .fin n v => BitVec.ofNat 32 (Fmt.fp32.round .rne false n v).1

/-- Largest exponent of the finite non-zero products. -/
def topExponent (ps : List FVal) : Option Int :=
  ((ps.filter fun p => !p.isZero).map fun p => p.real.log2).max?

/-- A step sum (R245). -/
def stepSum (aligned : Bool) (ps : List FVal) : Word :=
  if ps.any FVal.isNan || (ps.any (fun p => p == .inf true) && ps.any fun p => p == .inf false) then 0x7FC00000#32
  else if ps.any fun p => p == .inf true then 0xFF800000#32
  else if ps.any fun p => p == .inf false then 0x7F800000#32
  else
    let terms := ps.map fun p => match aligned, topExponent ps with
      | true, some e => p.real.trunc (e - 40)
      | _, _ => p.real
    let r := terms.foldl Dy.add Dy.zero
    BitVec.ofNat 32 (Fmt.fp32.round .rne false (!ps.isEmpty && ps.all fun p => p.isZero && p.sign) r).1

/-- acc := ROUND_FP32(acc + s, RNE), with the default NaN for every NaN (R246). -/
def accAdd (acc x : Word) : Word :=
  let a := Fmt.fp32.read acc.toNat
  let b := Fmt.fp32.read x.toNat
  if a.isNan || b.isNan then 0x7FC00000#32 else BitVec.ofNat 32 (Fmt.fp32.addF .rne false a b).1

/-! ## Element values (R360, R363, R364) -/

/-- The value of an element code; `d` is the declared precision of a plane operand. -/
def elemValue (fmt : Nat) (d : Option Nat) (cb : List Nat) (cbf : Bool) (q : Nat) : FVal :=
  match fmt with
  | 0 => Fmt.e4m3.readSmall q
  | 1 => Fmt.e5m2.readSmall q
  | 2 => Fmt.e3m2.readSmall q
  | 3 => Fmt.e2m3.readSmall q
  | 4 => Fmt.e2m1.readSmall q
  | 5 => Fmt.bf16.read q
  | 6 => Fmt.fp16.read q
  | 7 => FVal.ofInt (sext 8 q)
  | 8 => FVal.ofInt q
  | 9 => FVal.ofInt (sext (d.getD 4) q)
  | 10 => FVal.ofInt (q % 2 ^ d.getD 4 : Nat)
  | 11 => FVal.ofInt (sext (d.getD 2) q)
  | 12 => FVal.ofInt (2 * (q % 2 : Nat) - 1)
  | 13 => (if cbf then Fmt.fp16 else Fmt.bf16).read (cb.getD q 0)
  | _ => FVal.plusZero

/-- A step of these formats falls in the aligned class (R245). -/
def alignedClass (fa fb : Nat) : Bool :=
  let f (x : Nat) : Bool := x == 5 || x == 6 || x == 13
  f fa || f fb

/-! ## Operands (R174, R361, R362) -/

def fieldsOf (x w n : Nat) : List Nat := (List.range n).map fun i => fieldOf x (w * i) w

/-- Element codes of row `i` of a layout operand over `k` positions. -/
def layoutRow (s : State) (b : Block) (addr mode rp pp cp w d k i : Nat) : List Nat :=
  (List.range (k / 32)).flatMap fun c =>
    let at' := addr + 16 * cp * c + rp * i
    if pp = 0 then fieldsOf (leNat (tileRead s b mode at' (4 * w))) w 32
    else
      let planes := (List.range d).map fun p => leNat (tileRead s b mode (at' + 16 * pp * p) 4)
      (List.range 32).map fun j => planes.foldr (fun x acc => 2 * acc + fieldOf x j 1) 0

/-- View rows and view-row length of a view read as a matrix (R362). -/
def viewMatrix (e : VDesc) : Nat × Nat :=
  if e.isGather then (e.icnt, 8 * e.rowb / e.width)
  else (e.count / e.dim 0, e.dim 0)

/-- Runs of consecutive view sectors of a rising list: first sector and length. -/
def sectorRuns : List Nat → List (Nat × Nat)
  | [] => []
  | k :: ks => match sectorRuns ks with
    | (j, n) :: r => if j = k + 1 then (k, n + 1) :: r else (k, 1) :: (j, n) :: r
    | [] => [(k, 1)]

/-- What makes a handle's operand zero as a whole, before anything is requested: an illegal descriptor, or an element width that
is not the operand's (R87, R362). -/
def handleFault (e : VEntry) (w : Nat) : Option TrapInfo :=
  match e.outcome with
  | .illegal sub =>
    if sub ≠ 5 then some ⟨.viewf, sub, 0, 0⟩ else if e.desc.width ≠ w then some ⟨.viewf, 2, 0, 0⟩ else none
  | _ => if e.desc.width ≠ w then some ⟨.viewf, 2, 0, 0⟩ else none

/-- The element codes of the named view rows, `cols` from `col0`, of a handle operand; what lies outside the view is 0. The
fetcher requests the view sectors that hold elements of the view, each run of consecutive ones as one bulk request of at most 128
(R84, R362, R384). -/
def handleRows (s : State) (c : Nat) (m : Met) (view w : Nat) (rows : List Nat) (col0 cols : Nat) :
    List (List Nat) × Met × State :=
  let (e, _, s) := takeView s (coreDie c) view
  let zeros := rows.map fun _ => List.replicate cols 0
  match handleFault e w with
  | some t => (zeros, m.cause t.cause t.sub 0, countViewFault s view)
  | none =>
    let (nr, cv) := viewMatrix e.desc
    let last := min (col0 + cols) cv
    let live (r : Nat) : Bool := decide (r < nr) && decide (col0 < last)
    let span (r : Nat) : Nat × Nat := (w * (r * cv + col0), w * (r * cv + last))
    let secs := ((rows.filter live).flatMap fun r =>
      (List.range (((span r).2 - 1) / 256 + 1 - (span r).1 / 256)).map fun i => (span r).1 / 256 + i).foldl (fun l k => insertNat k l) []
    let (tbl, m, s) := (sectorRuns secs).foldl (fun (acc : List (Nat × Nat) × Met × State) k =>
      let (t, m, s) := viewRead acc.2.2 c false acc.2.1 view (32 * k.1) (32 * k.2) fun x => x
      ((List.range k.2).foldl (fun l i => put (k.1 + i) (leNat (Taken.bytes ((t.drop (32 * i)).take 32))) l) acc.1, m, s))
      (([] : List (Nat × Nat)), m, s)
    let bit (x : Nat) : Nat := fieldOf ((look (x / 256) tbl).getD 0) (x % 256) 1
    let elem (r c : Nat) : Nat :=
      if live r && decide (c < last) then
        (List.range w).foldr (fun i acc => 2 * acc + bit (w * (r * cv + c) + i)) 0
      else 0
    (rows.map fun r => (List.range cols).map fun i => elem r (col0 + i), m, s)

/-- The rows of A: codes a(i, k) by i. -/
def rowsOfA (s : State) (c : Nat) (b : Block) (m : Met) (src : MatSrc) (w pd rows k : Nat) : List (List Nat) × Met × State :=
  match src with
  | .layout addr mode rp pp cp _ => ((List.range rows).map fun i => layoutRow s b addr mode rp pp cp w pd k i, m, s)
  | .handle view row0 col0 => handleRows s c m view w ((List.range rows).map (row0 + ·)) col0 k

def columnsOf (cols : Nat) (rows : List (List Nat)) : List (List Nat) :=
  (List.range cols).map fun j => rows.map fun r => r.getD j 0

/-- The columns of B: codes b(k, j) by j. -/
def colsOfB (s : State) (c : Nat) (b : Block) (m : Met) (src : MatSrc) (w pd cols k : Nat) : List (List Nat) × Met × State :=
  match src with
  | .layout addr mode rp pp cp _ => ((List.range cols).map fun j => layoutRow s b addr mode rp pp cp w pd k j, m, s)
  | .handle view row0 col0 =>
    let (rows, m, s) := handleRows s c m view w ((List.range k).map (row0 + ·)) col0 cols
    (columnsOf cols rows, m, s)

/-! ## MMA, MMAL and MBIN (R366 to R372) -/

def MmaOp.planeA (op : MmaOp) : Option Nat := if op.pln = 1 then some (op.prec + 1) else none
def MmaOp.planeB (op : MmaOp) : Option Nat := if op.pln = 2 then some (op.prec + 1) else none

/-- The partial block Q, or 0 (R368). -/
def MmaOp.q (op : MmaOp) : Nat :=
  if op.blka = 0 then op.blkb else if op.blkb = 0 then op.blka else min op.blka op.blkb

/-- Number of partials P. -/
def MmaOp.parts (op : MmaOp) : Nat := if op.q = 0 then 1 else op.k / op.q

/-- A list cut into runs of `n`. -/
def cutRuns {α : Type} (n : Nat) (xs : List α) : List (List α) :=
  (List.range (ceilDiv xs.length n)).map fun i => (xs.drop (n * i)).take n

/-- The step sums of products, accumulated from a value (R246). -/
def accumulate (aligned : Bool) (c : Word) (ps : List FVal) : Word :=
  (cutRuns 32 ps).foldl (fun c st => accAdd c (stepSum aligned st)) c

/-- PARTIAL's value over one block (R247). -/
def partialSum (aligned : Bool) (q : Nat) (ps : List FVal) : Word :=
  if q = 16 then stepSum aligned ps else accumulate aligned 0#32 ps

def writeRows (s : State) (c row : Nat) (vals : List (List Word)) : State :=
  vals.zipIdx.foldl (fun s (r : List Word × Nat) =>
    r.1.zipIdx.foldl (fun s (x : Word × Nat) => setAcc s c (row + r.2) x.2 x.1) s) s

/-- One MMA on a core; row numbers count from the share's base. What the array holds of A or c stands for the operand or the
rows. -/
def runMma (s : State) (c base : Nat) (b : Block) (m : Met) (op : MmaOp) (h : Resident) : Resident × Met × State :=
  let wa := (elemWidth op.fa).getD 8
  let wb := (elemWidth op.fb).getD 8
  let (ra, m, s) := match h.a with
    | some ra => (ra, m, s)
    | none => rowsOfA s c b m op.a wa (op.planeA.getD wa) op.m op.k
  let (cb, m, s) := colsOfB s c b m op.b wb (op.planeB.getD wb) op.n op.k
  let va := ra.map fun r => r.map (elemValue op.fa op.planeA op.codebook op.cbf)
  let vb := cb.map fun r => r.map (elemValue op.fb op.planeB op.codebook op.cbf)
  let al := alignedClass op.fa op.fb
  let old (i j : Nat) : Word := if op.zero then 0#32 else match h.c with
    | some x => (x.getD i []).getD j 0#32
    | none => accWord s c (base + op.acc + i) j
  let new : List (List Word) := if op.q = 0 then va.zipIdx.map fun a => vb.zipIdx.map fun x =>
      accumulate al (old a.2 x.2) (List.zipWith FVal.times a.1 x.1)
    else []
  let s :=
    if op.q = 0 then writeRows s c (base + op.acc) new
    else
      (List.range op.parts).foldl (fun s p =>
        let cut (r : List FVal) : List FVal := (r.drop (p * op.q)).take op.q
        writeRows s c (base + op.acc + p * op.m) (va.map fun a => vb.map fun x =>
          partialSum al op.q (List.zipWith FVal.times (cut a) (cut x)))) s
  let s :=
    if op.rsum then
      (List.range op.parts).foldl (fun s p =>
        let sums := va.map fun a =>
          let one := a.map fun x => x.times FVal.one
          if op.q = 0 then accumulate al 0#32 one else partialSum al op.q ((one.drop (p * op.q)).take op.q)
        writeRows s c (base + op.rs + p) [sums]) s
    else s
  (⟨some ra, some new⟩, m, s)

/-- Of what the array holds after a repeat, what the next one takes over. -/
def Resident.keep (h : Resident) (holdA holdC : Bool) : Resident := ⟨if holdA then h.a else none, if holdC then h.c else none⟩

/-- The repeats of an MMA, with what the array holds across them. -/
def runRepeats (s : State) (c base : Nat) (b : Block) (m : Met) (holdA holdC : Bool) (held : Resident) (reps : List MmaOp) :
    Met × State :=
  (reps.foldl (fun (acc : Resident × Met × State) r => runMma acc.2.2 c base b acc.2.1 r (acc.1.keep holdA holdC)) (held, m, s)).2

/-- MBIN's step sum over bits (R372). -/
def binStep (bop : Nat) (a b : List Nat) : Int :=
  let f (g : Nat → Nat → Nat) : Nat := (List.zipWith g a b).sum
  match bop with
  | 0 => f fun x y => x * y
  | 1 => f fun x y => (x + y) % 2
  | _ => (a.length : Int) - 2 * (f fun x y => (x + y) % 2 : Nat)

def runMbin (s : State) (c base : Nat) (b : Block) (m : Met) (bop : Nat) (op : MmaOp) : Met × State :=
  let (ra, m, s) := rowsOfA s c b m op.a 1 1 op.m op.k
  let (cb, m, s) := colsOfB s c b m op.b 1 1 op.n op.k
  let vals := ra.zipIdx.map fun a => cb.zipIdx.map fun x =>
    let c0 := if op.zero then 0#32 else accWord s c (base + op.acc + a.2) x.2
    ((cutRuns 32 a.1).zip (cutRuns 32 x.1)).foldl (fun acc st =>
      accAdd acc (BitVec.ofNat 32 (Fmt.fp32.ofInt (binStep bop st.1 st.2)))) c0
  (m, writeRows s c (base + op.acc) vals)

/-! ## MSPR (R373, R374) -/

/-- The named rows of B, as codes, by row number. -/
def msprRows (s : State) (c : Nat) (b : Block) (m : Met) (op : MmaOp) (w : Nat) (rows : List Nat) :
    List (Nat × List Nat) × Met × State :=
  match op.b with
  | .layout addr mode rp _ _ _ =>
    (rows.map fun k => (k, fieldsOf (leNat (tileRead s b mode (addr + rp * k) (op.n * w / 8))) w op.n), m, s)
  | .handle view row0 col0 =>
    let (rs, m, s) := handleRows s c m view w (rows.map (row0 + ·)) col0 op.n
    (rows.zip rs, m, s)

/-- A fibre's entries from its position: coordinate and value. -/
def fibreEntries (s : State) (c : Nat) (m : Met) (pages : List PageX) (f : Fibre) : List (Nat × FVal) × Met × State :=
  let w := (elemWidth f.elem).getD 8
  (List.range (f.count - f.pos)).foldl (fun (acc : List (Nat × FVal) × Met × State) i =>
    let q := f.pos + i
    let (ct, m, s) := memRead acc.2.2 c acc.2.1 pages (f.coord + 4 * q) 4
    match f.value with
    | none => (acc.1 ++ [(leNat ct.bytes, FVal.one)], m, s)
    | some va =>
      let (vt, m, s) := memRead s c m pages (va + q * (w / 8)) (w / 8)
      (acc.1 ++ [(leNat ct.bytes, elemValue f.elem none [] false (leNat vt.bytes))], m, s)) ([], m, s)

def runMspr (s : State) (c base : Nat) (b : Block) (m : Met) (fibres : List Fibre) (pages : List PageX) (op : MmaOp) :
    Met × State :=
  let w := (elemWidth op.fb).getD 8
  fibres.zipIdx.foldl (fun (acc : Met × State) fr =>
    let f := fr.1
    let (es, m, s) := fibreEntries acc.2 c acc.1 pages f
    let rows := ((es.map (·.1)).filter fun k => decide (k < op.k)).dedup
    let (tbl, m, s) := msprRows s c b m op w rows
    let row := base + op.acc + fr.2
    let vals := (List.range op.n).map fun j =>
      let prod (e : Nat × FVal) : FVal :=
        match (tbl.find? fun x => x.1 == e.1) with
        | some x => e.2.times (elemValue op.fb none op.codebook op.cbf (x.2.getD j 0))
        | none => FVal.plusZero
      accumulate (alignedClass f.elem op.fb) (if op.zero then 0#32 else accWord s c row j) (es.map prod)
    (m, writeRows s c row [vals])) (m, s)

/-! ## MSCA and MSZP (R248, R376) -/

/-- An accumulator input: a denormal reads as zero of its sign. -/
def flushIn (x : Word) : FVal :=
  if x.extractLsb' 23 8 = 0#8 then .fin (x.getLsbD 31) Dy.zero else Fmt.fp32.read x.toNat

/-- A result: a denormal is written as zero of its sign. -/
def flushOut (x : FVal) : Word :=
  let r := x.toFp32
  if r.extractLsb' 23 8 = 0#8 then r &&& 0x80000000#32 else r

/-- A scale of code SFA or SFB: 0 none, 1 E8M0, 2 UE4M3, 3 BF16. -/
def scaleAt (s : State) (b : Block) (code addr e : Nat) : FVal :=
  match code with
  | 0 => FVal.one
  | 1 => e8m0 (leNat (tileRead s b 0 (addr + e) 1))
  | 2 => ue4m3 (leNat (tileRead s b 0 (addr + e) 1))
  | _ => Fmt.bf16.read (leNat (tileRead s b 0 (addr + 2 * e) 2))

/-- A column scale of MSZP: 0 FP32, 1 BF16, 2 E8M0, 3 UE4M3. -/
def zpScaleAt (s : State) (b : Block) (code addr e : Nat) : FVal :=
  match code with
  | 0 => Fmt.fp32.read (leNat (tileRead s b 0 (addr + 4 * e) 4))
  | 1 => Fmt.bf16.read (leNat (tileRead s b 0 (addr + 2 * e) 2))
  | 2 => e8m0 (leNat (tileRead s b 0 (addr + e) 1))
  | _ => ue4m3 (leNat (tileRead s b 0 (addr + e) 1))

/-- A zero point of MSZP: 0 none, 1 INT8, 2 UINT8, 3 FP32. -/
def zeroPointAt (s : State) (b : Block) (code addr e : Nat) : FVal :=
  match code with
  | 0 => FVal.plusZero
  | 1 => FVal.ofInt (sext 8 (leNat (tileRead s b 0 (addr + e) 1)))
  | 2 => FVal.ofInt (leNat (tileRead s b 0 (addr + e) 1))
  | _ => Fmt.fp32.read (leNat (tileRead s b 0 (addr + 4 * e) 4))

/-- Every element of `m` rows and `n` columns in increasing order, each read before it is written (R376). -/
def eachElement (s : State) (m n : Nat) (f : State → Nat → Nat → State) : State :=
  (List.range m).foldl (fun s i => (List.range n).foldl (fun s j => f s i j) s) s

def runMsca (s : State) (c base : Nat) (b : Block) (dst src m n sfa sfb : Nat) (zero : Bool) (ta tb : Nat) : State :=
  eachElement s m n fun s i j =>
    let b0 := if zero then FVal.plusZero else flushIn (accWord s c (base + dst + i) j)
    let x := flushIn (accWord s c (base + src + i) j)
    setAcc s c (base + dst + i) j
      (flushOut (b0.plus (((scaleAt s b sfa ta i).times (scaleAt s b sfb tb j)).times x)))

def runMszp (s : State) (c base : Nat) (b : Block) (dst src m n sf zf : Nat) (zero : Bool) (ts tz rs : Nat) : State :=
  eachElement s m n fun s i j =>
    let b0 := if zero then FVal.plusZero else flushIn (accWord s c (base + dst + i) j)
    let x := flushIn (accWord s c (base + src + i) j)
    let zr := if zf = 0 then FVal.plusZero
      else (zeroPointAt s b zf tz j).times (flushIn (accWord s c (base + rs) i))
    setAcc s c (base + dst + i) j (flushOut (b0.plus ((zpScaleAt s b sf ts j).times (x.plus zr.negate))))

/-! ## The queue's entries -/

/-- What an entry does on its core; for an MRD, the values it reads (R358, R378). -/
def runKind (s : State) (c : Nat) (b : Block) (t : Team) (held : Resident) (kind : MatKind) : Met × Option Lanes × State :=
  let base := b.accBase.getD t.blockCore 0
  let m := Met.start OpViews.none
  match kind with
  | .mma holdA holdC reps =>
    let (m, s) := runRepeats s c base b m holdA holdC held reps
    (m, none, s)
  | .mbin bop r =>
    let (m, s) := runMbin s c base b m bop r
    (m, none, s)
  | .mspr fibres pages r =>
    let (m, s) := runMspr s c base b m fibres pages r
    (m, none, s)
  | .msca dst src rows n sfa sfb zero ta tb => (m, none, runMsca s c base b dst src rows n sfa sfb zero ta tb)
  | .mszp dst src rows n sf zf zero ts tz rs => (m, none, runMszp s c base b dst src rows n sf zf zero ts tz rs)
  | .mzero row count => (m, none, clearAcc s c (base + row) count)
  | .mwr row col w vals =>
    (m, none, vals.zipIdx.foldl (fun s (x : Word × Nat) => setAcc s c (base + row + x.2 / w) (col + x.2 % w) x.1) s)
  | .mrd _ row col w =>
    (m, some ((List.range t.tl).map fun l => accWord s c (base + row + l / w) (col + l % w)), s)

/-- An entry of the queue run: of the bank words that the fetcher has read ahead it takes what was read then (R358, R382). No
entry writes the tile store. -/
def runMatrix (s : State) (c : Nat) (b : Block) (t : Team) (op : MatOp) : Met × Option Lanes × State :=
  let (m, out, s') := runKind (withEarly s op.early) c b t op.held op.kind
  (m, out, restoreTiles s s' op.early)

/-- One repeat of an entry's MMA, with the bank words that the fetcher has read ahead for it; what the array holds after it. -/
def runRepeat (s : State) (c : Nat) (b : Block) (t : Team) (op : MatOp) (holdA holdC : Bool) (r : MmaOp) : Resident × Met × State :=
  let (h, m, s') := runMma (withEarly s op.early) c (b.accBase.getD t.blockCore 0) b (Met.start OpViews.none) r
    (op.held.keep holdA holdC)
  (h, m, restoreTiles s s' op.early)

end Sys2Proof.Machine
end

