-- ==== Sys2Proof/Machine/Async.lean ====
section
/-! DEFINITION. Async: outstanding loads (R324), deferred causes (R223), the queues of asynchronous operations and their
completions (R178, R201 to R203, R341, R342, R358, R380), tile-buffer offers (R176), and batches (R202, R350). -/

namespace Sys2Proof.Machine

/-! ## Deferred causes (R223) -/

def TRAPCNT : Nat := 0x248

/-- A cause becomes pending, or is discarded and counted when one is pending already. -/
def pendCause (s : State) (k : Nat) (i : TrapInfo) : State :=
  match s.teams[k]? with
  | none => s
  | some t => if t.pending.isSome then s.count TRAPCNT 32 16 1 else s.setTeam k { t with pending := some i }

/-- Poison reached a team: its sticky bit, and POISONT where it is enabled (R37, R223). -/
def deliverPoisonTo (s : State) (k addr lane : Nat) : State :=
  match s.teams[k]? with
  | none => s
  | some t =>
    let s := s.setTeam k (t.raise poisonBit)
    if t.trapen.getLsbD 0 then pendCause s k ⟨.poisont, 0, lane, addr⟩ else s

/-- A walk or an index read met poison: the sticky bit alone (R211). -/
def stainTeam (s : State) (k : Nat) (p : Bool) : State := if p then s.modTeam k fun t => t.raise poisonBit else s

/-! ## Loads (R324) -/

/-- The low `w` bytes of a value that a load of `n` bytes puts into its registers. -/
def loadValue (n : Nat) (signed : Bool) (v : Nat) : Nat := if signed then intBits 32 (sext (8 * n) v) else v

def LoadReq.writes (r : LoadReq) (n : Nat) : Bool := decide (r.dst ≤ n ∧ n < r.dst + ceilDiv r.n 4)

/-- A team parked for missed loads wakes once the last of them has arrived (R137). -/
def wakeLoad (s : State) (k : Nat) : State :=
  match s.teams[k]? with
  | none => s
  | some t => match t.park with
    | some (.load rs) => if t.loads.any fun r => rs.any r.writes then s else unparkKey s t.key
    | _ => s

/-- The 32-byte sector that all of a request's words lie in, if there is one. -/
def requestSector (rs : List WordReq) : Option Nat :=
  match (rs.map fun r => r.word / 8).dedup with
  | [x] => some x
  | _ => none

/-- The requests that the passes of one instruction send: of the words that each pass needs, those of a request that lies in one
32-byte sector join an earlier pass's request in the same sector, which is still outstanding (R324). -/
def coalesce (passes : List (List WordReq)) : List (List WordReq) :=
  passes.foldl (fun (sent : List (List WordReq)) rs =>
    let key (r : WordReq) := (r.word / 32, r.path)
    let (sent, joined) := (rs.map key).dedup.foldl (fun acc k =>
      let mine (xs : List WordReq) : List WordReq := xs.filter fun r => key r == k
      let sec := requestSector (mine rs)
      match (if sec.isSome then acc.1.findIdx? fun xs => requestSector (mine xs) == sec else none) with
      | some i => (modifyAt (fun xs => xs ++ mine rs) i acc.1, acc.2 ++ [k])
      | none => acc) (sent, [])
    sent ++ [rs.filter fun r => !joined.contains (key r)]) []

/-- The words that the passes of one instruction read, pass by pass; a pass whose request joined an earlier one takes that one's
words. -/
def readPasses (s : State) (c : Nat) (passes : List (List WordReq)) : List WordTable × State :=
  ((coalesce passes).foldl (fun (acc : (List WordTable × WordTable) × State) rs =>
    let (t, s) := readWords acc.2 c rs
    let all := t ++ acc.1.2
    ((acc.1.1 ++ [all], all), s)) (([], []), s)) |> fun r => (r.1.1, r.2)

/-- Data arrives for a whole load: its passes read in increasing order, and its registers are written. -/
def loadArrive (s : State) (k : Nat) (r : LoadReq) : State :=
  match s.teams[k]? with
  | none => s
  | some t =>
    let passes := passesOf Prod.fst r.reads
    let (tbls, s) := readPasses s t.coreNo (passes.map fun p => p.flatMap fun x => x.2.wordReqs)
    let (vals, bad) := (passes.zip tbls).foldl (fun (acc : List (Nat × Nat) × Option (Nat × Nat)) x =>
      let bad := (x.1.find? fun y => y.2.poisoned x.2).map fun y => (y.2.va, y.1)
      (acc.1 ++ x.1.map fun y => (y.1, loadValue r.n r.signed (y.2.value x.2)), acc.2 <|> bad)) ([], none)
    let regsN := ceilDiv r.n 4
    let s := s.modTeam k fun t => (List.range regsN).foldl (fun (t : Team) i =>
      let old := t.reg (r.dst + i)
      let word (v : Nat) : Word := BitVec.ofNat 32 (v / 2 ^ (32 * i))
      let new : Lanes :=
        if r.uni then List.replicate t.tl (word ((vals.head?.map (·.2)).getD 0))
        else old.zipIdx.map fun x => match look x.2 vals with
          | some v => word v
          | none => if r.zm then 0#32 else x.1
      t.setReg (r.dst + i) new) t
    wakeLoad (match bad with
    | some (va, lane) => deliverPoisonTo s k va lane
    | none => s) k

/-- Load `j` of a team arrives and leaves its list. -/
def arriveLoad (s : State) (k j : Nat) : State :=
  match s.teams[k]? with
  | none => s
  | some t => match t.loads[j]? with
    | none => s
    | some r => loadArrive (s.setTeam k { t with loads := t.loads.eraseIdx j }) k r

/-- Words that a load reads. -/
def LoadReq.words (r : LoadReq) : List Nat := r.reads.flatMap fun x => x.2.wordNames

/-- Loads cut into those that the test names, each with the earlier ones that read a word of it, and the rest; and the words that
the first read. Accesses of a team to one word take effect in program order (R187). -/
def splitLoads (p : LoadReq → Bool) : List LoadReq → List LoadReq × List LoadReq × List Nat
  | [] => ([], [], [])
  | r :: rs =>
    let x := splitLoads p rs
    if p r || r.words.any x.2.2.contains then (r :: x.1, x.2.1, r.words ++ x.2.2) else (x.1, r :: x.2.1, x.2.2)

/-- Every outstanding load that the test names arrives, in order. -/
def settleLoads (s : State) (k : Nat) (p : LoadReq → Bool) : State :=
  match s.teams[k]? with
  | none => s
  | some t =>
    let x := splitLoads p t.loads
    x.1.foldl (fun s r => loadArrive s k r) (s.setTeam k { t with loads := x.2.1 })

/-! ## Records of operations (R341) -/

def State.opRec (s : State) (id : Nat) : Option OpRec := s.ops.find? fun r => r.id == id
def State.modOp (s : State) (id : Nat) (f : OpRec → OpRec) : State :=
  { s with ops := s.ops.map fun r => if r.id = id then f r else r }

/-- What a part of an operation met, kept with the operation; poison also reaches its team. -/
def noteMet (s : State) (id : Nat) (m : Met) : State :=
  match s.opRec id with
  | none => s
  | some r =>
    let enabled := match s.teamOf r.team with
      | some t => t.trapen.getLsbD 0
      | none => false
    let extra : List TrapInfo := match m.poison with
      | some a => if enabled then [⟨.poisont, 0, 0, a⟩] else []
      | none => []
    let s := s.modOp id fun r =>
      { r with causes := r.causes ++ m.causes ++ extra, sig := m.sigs.foldl sigInsert r.sig, poison := r.poison || m.poison.isSome }
    if m.poison.isSome then s.modKey r.team fun t => t.raise poisonBit else s

/-- Whether every operation of the list has completed. -/
def opsDone (s : State) (ids : List Nat) : Bool := ids.all fun i => match s.opRec i with
  | some r => r.done
  | none => true

/-- Batches of a team that batch number `k` covers: unwaited, and not later than `k` (R350). -/
def coveredBy (t : Team) (k : Nat) : List Batch :=
  t.batches.filter fun b => !(let d := (b.num + 2 ^ 32 - k % 2 ^ 32) % 2 ^ 32
    decide (1 ≤ d ∧ d < 2 ^ 31))

/-- The cause that a batch's operations report: highest priority, its first address, and its lowest subcause (R218, R341). -/
def batchCause (s : State) (ids : List Nat) : Option TrapInfo :=
  (((s.ops.filter fun r => ids.contains r.id).flatMap (·.causes)).foldl (fun b x => some (worseFault b x)) (none : Option TrapInfo))

/-- The batches are waited for: their sectors enter W and E0, the copies that they hit in the core's L1 and its die's Canopy go, and
their records close; the cause to trap with. -/
def waitBatches (s : State) (k : Nat) (bs : List Batch) : Option TrapInfo × State :=
  match s.teams[k]? with
  | none => (none, s)
  | some t =>
    let ids := bs.flatMap (·.ops)
    let g := (s.ops.filter fun r => ids.contains r.id).foldl (fun g r => g ||| r.sig) (0#512 : Sig)
    let cause := batchCause s ids
    let s := dropWritten s t.coreNo (fun w => sigHits g (4 * w))
    let s := s.setTeam k { t.orSig g with batches := t.batches.filter fun b => !(bs.any fun x => x.num == b.num) }
    (cause, { s with ops := s.ops.filter fun r => !ids.contains r.id })

/-- AWAIT of a parked team ends: it acts on its batches, and the team enters its active set. A cause that they report is taken at the
AWAIT; behind a deferred cause, which comes first, the AWAIT issues again (R202, R223, R341, R350, log entry 36). -/
def endAwait (s : State) (key : TeamKey) (n : Nat) : State :=
  match s.teams.findIdx? fun t => t.key == key, s.teamOf key with
  | some k, some t =>
    let bs := coveredBy t n
    let atAwait (s : State) (p : Option TrapInfo) : State := s.setTeam k (match s.teams[k]? with
      | some t => { t with pc := t.pc - 4, pending := p }
      | none => t)
    let s := match t.pending, batchCause s (bs.flatMap (·.ops)) with
      | some j, some _ => atAwait s (some j)
      | none, some i => atAwait (waitBatches s k bs).2 (some i)
      | _, none => (waitBatches s k bs).2
    unparkKey s key
  | _, _ => s

/-- Teams parked in AWAIT whose batches have completed wake. -/
def wakeWaiters (s : State) : State :=
  s.teams.foldl (fun s t => match t.park with
    | some (.batch n) => if opsDone s ((coveredBy t n).flatMap (·.ops)) then endAwait s t.key n else s
    | _ => s) s

/-- An operation has completed: its record, and offers that waited for it (R176). -/
def completeOp (s : State) (id : Nat) : State :=
  let s := s.modOp id fun r => { r with done := true }
  let s := { s with blocks := s.blocks.map fun b => { b with units := b.units.map fun u => match u.2 with
    | .offering t ops => (u.1, .offering t (ops.filter (· != id)))
    | o => (u.1, o) } }
  wakeWaiters s

/-- Offers of a block whose giver's operations have all completed take effect (R176). -/
def offerEffect (s : State) (key : TeamKey) : State :=
  s.modBlock key fun b => { b with units := b.units.map fun u => match u.2 with
    | .offering t [] => (u.1, .offered t)
    | o => (u.1, o) }

/-! ## The copy engine (R342) -/

/-- The core and the entry of a copy that has not completed. -/
def findCopy (s : State) (id : Nat) : Option (Nat × CopyOp) :=
  s.cores.zipIdx.findSome? fun k => (k.1.copyQ.find? fun o => o.id == id).map fun o => (k.2, o)

def setCopy (s : State) (c : Nat) (op : CopyOp) : State :=
  s.modCore c fun k => { k with copyQ := k.copyQ.map fun o => if o.id = op.id then op else o }

/-- The table that an ACTLD fills. -/
def CopyOp.table (o : CopyOp) : Option Nat := match o.kind with
  | .actld t _ => some t
  | _ => none

/-- An ACTLD starts filling only after every earlier one to its table has flipped (R178). -/
def mayStart (s : State) (c : Nat) (op : CopyOp) : Bool :=
  op.table.isNone || ((s.core c).copyQ.takeWhile fun o => o.id != op.id).all fun o => o.table != op.table || o.flipped

/-- Unit `u` of a copy is performed, and completes at its barrier. Units complete in any order: of two rows of a scatter with one
index either may end last (DESIGN CHOICE, log entry 100). -/
def unitComplete (s : State) (id u : Nat) : State :=
  match findCopy s id with
  | none => s
  | some (c, op) =>
    if op.done.contains u || op.kind.units ≤ u || !mayStart s c op then s
    else match s.blockOf op.team with
      | none => s
      | some b =>
        let (m, s) := copyUnit s c b op u
        let s := setCopy s c { op with done := insertNat u op.done, views := m.views }
        let s := noteMet s id m
        match op.bar with
        | some n => completeUnit s op.team n (m.sigs.foldl sigInsert 0#512)
        | none => s

/-- A filled table's ACTIVE is inverted (R178). -/
def flipTable (s : State) (id : Nat) : State :=
  match findCopy s id with
  | none => s
  | some (c, op) => match op.table with
    | some n =>
      if op.flipped || op.done.isEmpty then s
      else setCopy (s.modCore c fun k => { k with tables := modifyAt (fun t => { t with active := !t.active }) n k.tables })
        c { op with flipped := true }
    | none => s

/-- An earlier ACTLD of the same table has not completed (R178). -/
def earlierFill (s : State) (c : Nat) (op : CopyOp) : Bool :=
  ((s.core c).copyQ.takeWhile fun o => o.id != op.id).any fun o => o.table == op.table

/-- A copy whose units have all completed leaves the queue; ACTLDs of one table leave it in issue order. -/
def copyComplete (s : State) (id : Nat) : State :=
  match findCopy s id with
  | none => s
  | some (c, op) =>
    if op.done.length < op.kind.units || (op.table.isSome && (!op.flipped || earlierFill s c op)) then s
    else completeOp (s.modCore c fun k => { k with copyQ := k.copyQ.filter fun o => o.id != id }) id

/-- A copy run to its end. -/
def finishCopy (s : State) (id : Nat) : State :=
  match findCopy s id with
  | none => s
  | some (_, op) => copyComplete (flipTable ((List.range op.kind.units).foldl (fun s u => unitComplete s id u) s) id) id

/-! ## The matrix unit (R358) -/

def setMat (s : State) (c : Nat) (q : List MatOp) : State := s.modCore c fun k => { k with matQ := q }

/-- A queue entry changed. -/
def modMat (s : State) (c id : Nat) (f : MatOp → MatOp) : State :=
  setMat s c ((s.core c).matQ.map fun o => if o.id = id then f o else o)

/-- An entry whose work has all been done: an MRD keeps its values to write, and every other completes and frees its entry. -/
def endMatrix (s : State) (c : Nat) (b : Block) (t : Team) (op : MatOp) : State :=
  let (m, out, s) := runMatrix s c b t op
  let s := noteMet s op.id m
  match out with
  | some vals => modMat s c op.id fun o => { o with ended := some vals }
  | none => completeOp (setMat s c ((s.core c).matQ.filter fun o => o.id != op.id)) op.id

/-- The oldest entry that has not run is executed; of an MMA with repeats to come, one repeat (R371, R382). -/
def matrixStep (s : State) (c : Nat) : State :=
  match (s.core c).matQ.find? fun o => o.ended.isNone with
  | none => s
  | some op => match s.blockOf op.team, s.teamOf op.team with
    | some b, some t => match op.kind with
      | .mma holdA holdC (r :: next :: rest) =>
        let (h, m, s) := runRepeat s c b t op holdA holdC r
        modMat (noteMet s op.id m) c op.id fun o => { o with kind := .mma holdA holdC (next :: rest), held := h, early := [] }
      | _ => endMatrix s c b t op
    | _, _ => setMat s c ((s.core c).matQ.filter fun o => o.id != op.id)

/-- The oldest MRD that the unit has ended writes its register (R378, R380). -/
def mrdWrite (s : State) (c : Nat) : State :=
  match (s.core c).matQ.find? fun o => o.ended.isSome with
  | none => s
  | some op =>
    let s := setMat s c ((s.core c).matQ.filter fun o => o.id != op.id)
    match op.kind, op.ended with
    | .mrd dst _ _ _, some vals => s.modKey op.team fun t => t.setReg dst vals
    | _, _ => s

/-- Entries run, oldest first, until none that the test names is left. -/
def matrixUntil (c : Nat) (p : MatOp → Bool) : Nat → State → State
  | 0, s => s
  | n + 1, s =>
    if (s.core c).matQ.any p then
      matrixUntil c p n (if ((s.core c).matQ.any fun o => o.ended.isNone) then mrdWrite (matrixStep s c) c else mrdWrite s c)
    else s

/-- Steps that a core's queue has left at most: its repeats, and the ends of its entries. -/
def matrixFuel (s : State) (c : Nat) : Nat :=
  ((s.core c).matQ.map fun o => 2 + match o.kind with
    | .mma _ _ reps => reps.length
    | _ => 0).sum

/-- MRDs of a team that write a register arrive. -/
def settleMrd (s : State) (k : Nat) (p : Nat → Bool) : State :=
  match s.teams[k]? with
  | none => s
  | some t => matrixUntil t.coreNo (fun o => o.team == t.key && match o.kind with
    | .mrd d _ _ _ => p d
    | _ => false) (matrixFuel s t.coreNo) s

/-- Every load and MRD of a team that writes one of the registers arrives (R166, R324). -/
def settleRegs (s : State) (k : Nat) (rs : List Nat) : State :=
  settleMrd (settleLoads s k fun r => rs.any r.writes) k fun d => rs.contains d

/-- Every load and MRD of a team arrives. -/
def settleAll (s : State) (k : Nat) : State := settleMrd (settleLoads s k fun _ => true) k fun _ => true

/-- Every asynchronous operation of a team runs to completion (R143, R305, R312). -/
def drainOps (s : State) (key : TeamKey) : State :=
  match s.teamOf key with
  | none => s
  | some t =>
    let c := t.coreNo
    let q := (s.core c).copyQ
    let tables := (q.filter fun o => o.team == key).filterMap (·.table)
    let s := q.foldl (fun s o =>
      if o.team == key || (match o.table with
        | some n => tables.contains n
        | none => false) then finishCopy s o.id else s) s
    offerEffect (matrixUntil c (fun o => o.team == key) (matrixFuel s c) s) key

/-! ## Reads ahead (R201, R358, R382) -/

/-- An asynchronous operation reads a bank word of one of its block's cores before its other reads. -/
def readAhead (s : State) (id core word : Nat) : State :=
  let inBlock (key : TeamKey) : Bool := match s.blockOf key with
    | some b => b.cores.contains core
    | none => false
  match findCopy s id with
  | some (c, op) => if inBlock op.team then setCopy s c { op with early := op.early.take s core word } else s
  | none =>
    let ahead (o : MatOp) : MatOp :=
      if o.id == id && inBlock o.team && o.ended.isNone then { o with early := o.early.take s core word } else o
    { s with cores := s.cores.map fun k => { k with matQ := k.matQ.map ahead } }

end Sys2Proof.Machine
end

