-- ==== Sys2Proof/Machine/Ops.lean ====
section
/-! DEFINITION. Ops: the named operations that the meanings share: taking a trap (R219, R221), demand paging's park (R227),
returning (R222), the end of a team (R149, R305), rejection (R325), the checkpoint (R167), and moving the pc. -/

namespace Sys2Proof.Machine

abbrev Out := Host.Outcome State Fault Refusal

/-- A meaning of the running team; with no running team there is none. -/
def withTeam (s : State) (f : Team → State) : Out :=
  match s.teams[s.cur]? with
  | some t => .next (f t)
  | none => .refused .noRunningTeam

/-! ## The end of a team (R149, R305, R341) -/

/-- A core forgets a team's ALLOC request and rejected instruction. -/
def dropTeam (key : TeamKey) (k : Core) : Core :=
  let a := k.allocQ.filter fun a => a.team != key
  let r := k.rejects.filter fun r => r.team != key
  { k with allocQ := a, rejects := r }

/-- A team whose operations have completed leaves: batches never waited that recorded a cause are counted, and its
registers and slot are free. The block's shares go with its last team. -/
def removeTeam (s : State) (t : Team) : State :=
  let lost (ids : List Nat) : Bool := (batchCause s ids).isSome
  let n := (t.batches.filter fun b => lost b.ops).length + (if lost t.openOps then 1 else 0)
  let s := if n = 0 then s else s.count TRAPCNT 32 16 n
  let s := { s with
    ops := s.ops.filter fun r => r.team != t.key
    teams := s.teams.filter fun x => x.key != t.key
    cores := s.cores.map (dropTeam t.key) }
  s.modBlock t.key fun b =>
    let live := b.live.filter (· != t.key.num)
    { b with
      live := live
      units := (if live.isEmpty then [] else b.units)
      accRuns := (if live.isEmpty then [] else b.accRuns) }

/-- EXIT's end: everything outstanding completes first. -/
def endTeam (s : State) (k : Nat) : State :=
  let s := settleAll s k
  match s.teams[k]? with
  | none => s
  | some t =>
    let s := drainOps s t.key
    removeTeam s ((s.teamOf t.key).getD t)

/-! ## Taking a trap (R219 to R221) -/

def Cause.code : Cause → Nat
  | .illins => 0x01 | .illop => 0x02 | .regbound => 0x03 | .priv => 0x04 | .bkpt => 0x05 | .trapi => 0x06
  | .pfault => 0x08 | .pprot => 0x09 | .viewf => 0x0A | .align => 0x0B | .tileown => 0x0C | .tilebound => 0x0D
  | .sealedC => 0x0E | .tolview => 0x0F | .barovf => 0x10 | .batchovf => 0x11 | .maskovf => 0x12 | .gatherchk => 0x13
  | .poisont => 0x14 | .accbound => 0x15

/-- What CAUSE records of a trap at a repetition. -/
def causeWord (i : TrapInfo) (rep : Nat) : Nat := rep % 64 * 2 ^ 16 + i.sub % 256 * 2 ^ 8 + i.cause.code

/-- A trap raised in privileged context ends the team, logs code 0x0003 with the cause and the pc, and counts DOUBLE. The entry's
detail holds the subcause above the cause code (DESIGN CHOICE, log entry 90). -/
def doubleTrap (s : State) (k : Nat) (i : TrapInfo) : State :=
  match s.teams[k]? with
  | none => s
  | some t =>
    let s := (s.logError (logDie s t.die) (agentWord t.die t.core t.part t.slot) 3 (causeWord i t.repIdx) t.pc).count TRAPCNT 48 16 1
    endTeam s k

/-- The state that trap entry gives a team in user context. -/
def Team.enterTrap (t : Team) (i : TrapInfo) (epc : Nat) : Team :=
  { t.voidAll with
    cause := causeWord i t.repIdx, epc := epc, flane := i.lane, faddr := i.addr, smask := t.mask, sdepth := t.stack.length
    priv := true, mask := allLanes t.tl, pc := t.cfg.tba, repIdx := 0, expect := none
    moved := false, walked := false }

/-- A trap is taken by a team: outstanding loads end first; RETURN_ADDRESS is `epc` (R219). A cause that those loads leave
pending comes first, at the instruction about to issue (R223). -/
def takeTrap (s : State) (k : Nat) (i : TrapInfo) (epc : Nat) : State :=
  let s := settleAll s k
  match s.teams[k]? with
  | none => s
  | some t =>
    if t.priv then doubleTrap s k (t.pending.getD i)
    else
      let s := s.count TRAPCNT 0 32 1
      match t.pending with
      | some j => s.setTeam k ({ t with pending := none }.enterTrap j t.pc)
      | none => s.setTeam k (t.enterTrap i epc)

/-- A cause that names the instruction at the pc. -/
def trapAt (s : State) (k : Nat) (i : TrapInfo) : State :=
  match s.teams[k]? with
  | none => s
  | some t => takeTrap s k i t.pc

def trapCause (s : State) (k : Nat) (c : Cause) (sub : Nat := 0) : State := trapAt s k ⟨c, sub, 0, 0⟩

/-! ## Demand paging (R227) -/

def PFQPTR : Nat := 0x268

/-- The page of a fault's address. -/
def faultPage (i : TrapInfo) : Nat := i.addr / 65536 % 2 ^ 39

/-- The open record of a page of an address space. -/
def openRecord (s : State) (asid page : Nat) : Option Nat := (s.pfOpen.find? fun r => r.asid == asid && r.page == page).map (·.idx)

/-- The fault of an access or a fetch: a PFAULT of subcause 1 of user context parks the team while demand paging is
enabled, where a record of its page is open on that record, and every other is taken. -/
def takeFail (s : State) (k : Nat) (f : Fail) : State :=
  match s.teams[k]? with
  | none => s
  | some t =>
    let s := settleAll s k
    let waiting := ((s.teams[k]?).bind (·.pending)).isSome
    if f.info.cause = .pfault ∧ f.info.sub = 1 ∧ t.priv = false ∧ s.field PFQPTR 63 1 = 1 ∧ !waiting then
      parkTeam s k (.pageFault f.info f.access f.lvl s.tick (openRecord s t.cfg.asid (faultPage f.info)))
    else trapAt s k f.info

/-! ## Waits for walks and fills (R137, R163) -/

/-- Whether a page walk took place between two states of a die. -/
def hasWalked (s0 s1 : State) (d : Nat) : Bool := (s1.die d).tlb2.any fun e => !(s0.die d).tlb2.contains e

/-- Whether a walk or a view-cache fill took place between two states of a core. -/
def hasWaited (s0 s1 : State) (c : Nat) : Bool :=
  hasWalked s0 s1 (coreDie c) || (s1.core c).vcache.any fun e => !(s0.core c).vcache.contains e

/-- A fault that a walk has found. -/
def walkFault (f : Fail) : Bool := f.info.cause == .pfault && f.info.sub != 2

/-- A team whose instruction fails as `f` says, after the state `s` of its trap: where its walks or fills had it wait, it has left its
active set. `s0` and `s1` are the states before and after them, and `free` tells whether the team may leave there. -/
def leaveAfter (s0 s1 : State) (t : Team) (f : Fail) (free : Bool) (s : State) : State :=
  if free && (hasWaited s0 s1 t.coreNo || walkFault f) then departed s t.key else s

/-- The fault of an access or a fetch, after its walks and fills. -/
def failAfter (s0 s1 : State) (k : Nat) (t : Team) (f : Fail) (free : Bool := true) : State :=
  leaveAfter s0 s1 t f free (takeFail s1 k f)

/-! ## Checkpoints and the pc -/

/-- The live-in registers of a REGION's mask. -/
def liveRegs (live : BitVec 160) : List Nat := (List.range 160).filter fun i => live.getLsbD i

/-- REGBOUND's test of a REGION (R167). -/
def regionBound (t : Team) (live : BitVec 160) : Bool :=
  let rs := liveRegs live
  decide (t.allot / 8 < rs.length) || rs.any fun r => decide (t.allot ≤ r)

/-- The checkpoint that a REGION takes; none in privileged context (R221). -/
def Team.checkpoint (t : Team) (live : BitVec 160) (head : Nat) : Team :=
  if t.priv then t
  else { t with ckpt := ⟨(liveRegs live).map fun r => (r, t.reg r), t.mask, t.stack, t.fibres, t.rng, head, true⟩ }

/-- The pc moves past an instruction of `n` words. -/
def Team.pass (t : Team) (n : Nat) : Team := { t with pc := t.pc + 4 * n, repIdx := 0, expect := none, moved := false }

/-- A transfer of control. -/
def Team.jump (t : Team) (target : Nat) : Team := { t with pc := target, repIdx := 0, expect := none, moved := true }

/-- The running team's pc moves past an instruction. -/
def passBy (s : State) (k n : Nat) : State := s.modTeam k fun t => t.pass n

/-- After a repetition: the next one, or past the instruction's words (R262). -/
def Team.passRep (t : Team) (rep : Option Rep) (words : Nat) : Team :=
  match rep with
  | some r => if t.repIdx < r.cnt.toNat then { t with repIdx := t.repIdx + 1, expect := none, moved := false } else t.pass (words + 1)
  | none => t.pass words

/-! ## Rejection (R325, R342, R358) -/

/-- An instruction that the core rejects at issue: it has no effect, and its team tries again; REJECT counts it at its
first rejection (R20). -/
def reject (s : State) (k : Nat) (kind : RejKind) (need : Nat) : State :=
  match s.teams[k]? with
  | none => s
  | some t =>
    if (s.core t.coreNo).rejects.any fun r => r.team == t.key && r.pc == t.pc then s
    else
      (s.countDie t.die .reject).modCore t.coreNo fun c =>
        { c with rejects := c.rejects.filter (fun r => r.team != t.key) ++ [⟨t.key, t.pc, (s.die t.die).issueCycle, kind, need⟩] }

/-- The instruction that issues is no longer rejected. -/
def issued (s : State) (t : Team) : State :=
  s.modCore t.coreNo fun c => { c with rejects := c.rejects.filter fun r => r.team != t.key }

/-- Entries of a core's load/store unit in use, with those that the requests past 1,024 of an instruction take ahead of every
other instruction as they free (R325). -/
def entriesUsed (s : State) (core : Nat) : Nat :=
  ((s.teams.filter fun t => t.coreNo == core).flatMap fun t => t.loads.map (·.entries)).sum

/-- What is left for a team's instruction of `free` entries: the core's rejected instructions of the kind come first in the order
of their first rejection, each as far as its need is free, and one that is reserved whether its need is met or not (R325). -/
def leftFor (s : State) (t : Team) (kind : RejKind) (free : Nat) : Nat :=
  let now := (s.die t.die).issueCycle
  let first := ((s.core t.coreNo).rejects.filter fun r => r.kind == kind).takeWhile fun r => r.team != t.key
  first.foldl (fun free r => if r.need ≤ free ∨ r.since + 4096 ≤ now then free - r.need else free) free

/-- Whether a lane or uniform memory instruction of this need may issue. -/
def entriesFree (s : State) (t : Team) (need : Nat) : Bool :=
  decide (min need 1024 ≤ leftFor s t .entries (2048 - entriesUsed s t.coreNo))

/-! ## Who accesses memory -/

def Team.who (t : Team) : Who := ⟨t.coreNo, t.cfg.asid, t.cfg.ptroot, t.priv, t.cfg.viewadm⟩

end Sys2Proof.Machine
end

