-- ==== Sys2Proof/Machine/Operands.lean ====
section
/-! DEFINITION. Operands: every operand form: registers, latches, specials, inline constants and wide operands (R254 to
R257), and the checks that each field of an instruction takes at issue (R256 to R262, R264). -/

namespace Sys2Proof.Machine

/-- The pipes of R150. -/
inductive Pipe where
  | l | x | u | m
deriving DecidableEq, Repr

/-- How an instruction reads an operand, which decides what an inline constant supplies (R255). -/
inductive Kind where
  | i32 | i64 | f32 | f64 | h16 | hbf | q128
deriving DecidableEq, Repr

/-- Registers that an operand of the kind names (R257). -/
def Kind.words : Kind → Nat
  | .i64 | .f64 => 2
  | .q128 => 4
  | _ => 1

/-! ## Values (R254, R255) -/

/-- The integer of an inline-constant code. -/
def inlineInt (code : Nat) : Int := (code : Int) - 224

def inlineValue (k : Kind) (code : Nat) : Nat :=
  let i := inlineInt code
  match k with
  | .i32 => intBits 32 i
  | .i64 => intBits 64 i
  | .q128 => intBits 128 i
  | .f32 => Fmt.fp32.ofInt i
  | .f64 => Fmt.fp64.ofInt i
  | .h16 => Fmt.fp16.ofInt i * 65537
  | .hbf => Fmt.bf16.ofInt i * 65537

/-- The special of a code 164 to 175 in lane `l`. -/
def specialValue (s : State) (t : Team) (code l : Nat) : Nat :=
  match code with
  | 165 => l
  | 166 => l % t.cfg.spanS
  | 167 => t.key.num
  | 168 => t.key.blk % t.cfg.gx
  | 169 => t.key.blk / t.cfg.gx % t.cfg.gy
  | 170 => t.key.blk / (t.cfg.gx * t.cfg.gy)
  | 171 => t.coreNo
  | 172 => t.tl
  | 173 => (s.die t.die).cycle % 2 ^ 32
  | 174 => t.cfg.argva % 2 ^ 32
  | 175 => t.cfg.argva / 2 ^ 32
  | _ => 0

def latchAt (t : Team) (p : Pipe) (i l : Nat) : Word :=
  match p with
  | .l => t.latL.at i l
  | .x => t.latX.at i l
  | .u => t.latU.at i
  | .m => 0#32

def latchVoid (t : Team) (p : Pipe) (i : Nat) : Bool :=
  match p with
  | .l => t.latL.isVoid i
  | .x => t.latX.isVoid i
  | .u => t.latU.isVoid i
  | .m => false

/-- A value of several words, the lower-numbered word the less significant (R5). -/
def joinWords (w : Nat) (f : Nat → Word) : Nat := (List.range w).foldr (fun i acc => (f i).toNat + 2 ^ 32 * acc) 0

/-- OPND, OPND64 and OPNDF's encoding: what a code supplies in lane `l`. -/
def opnd (s : State) (t : Team) (p : Pipe) (k : Kind) (code l : Nat) : Nat :=
  if code < 160 then joinWords k.words fun i => t.regAt (code + i) l
  else if code < 164 then joinWords k.words fun i => latchAt t p (code - 160 + i) l
  else if 192 ≤ code then inlineValue k code
  else specialValue s t code l % 2 ^ 32

/-- The registers that a code names. -/
def codeRegs (code w : Nat) : List Nat := if code < 160 then (List.range w).map (code + ·) else []

/-- Whether reading a code meets a dead register or a void latch (R162, R165). -/
def readsDead (t : Team) (p : Pipe) (code w : Nat) : Bool :=
  if code < 160 then (codeRegs code w).any t.isDead
  else if code < 164 then (List.range w).any fun i => latchVoid t p (code - 160 + i)
  else false

/-! ## Fields and their roles (R256, R257, R261, R262) -/

/-- What a field of an instruction is. -/
inductive Role where
  /-- Unused, or not an operand code. -/
  | field
  /-- A source of `w` words. -/
  | src (w : Nat)
  /-- A destination of `w` words. -/
  | dst (w : Nat)
  /-- A destination of `w` words that is also read, so that 160 is illegal. -/
  | rmw (w : Nat)
  /-- BXCH's D: read and written, and 160 is the latch x0 (R298). -/
  | xch
  /-- An even register, 0 to 158. -/
  | pair
  /-- A register and the `n − 1` registers after it, without alignment. -/
  | run (n : Nat)
  /-- A register code or 164 for none (OCDROP). -/
  | optReg
  /-- A group of eight registers that starts at a multiple of 8; its number is no operand code, so that one past v159 is
  beyond the allotment (R364). -/
  | book
  /-- ACTV's B: #0 to #3 (R293). -/
  | table
deriving DecidableEq, Repr

/-- Registers that a role covers from its first. -/
def Role.width : Role → Nat
  | .field | .table => 0
  | .src w | .dst w | .rmw w => w
  | .xch | .optReg => 1
  | .pair => 2
  | .run n => n
  | .book => 8

/-- The multiple that a register code must be. -/
def Role.align : Role → Nat
  | .src w | .dst w | .rmw w => w
  | .pair => 2
  | .book => 8
  | _ => 1

/-- ILLOP's test of a code that is no register. -/
def Role.forbids (r : Role) (p : Pipe) (code : Nat) : Bool :=
  match r with
  | .field => false
  | .src w =>
    if code < 164 then p == .m || decide (w = 2 ∧ code % 2 = 1) || decide (w = 4 ∧ code ≠ 160)
    else if code = 164 then false
    else if code < 176 then w != 1
    else if code < 192 then true
    else w == 4
  | .dst w => !(code == 160 && p != .m && w != 4)
  | .xch => code != 160
  | .rmw _ | .pair | .run _ => true
  | .book => code == 160 || code % 8 != 0
  | .optReg => code != 164
  | .table => !decide (224 ≤ code ∧ code ≤ 227)

/-- A field at issue: its code, its step, and the repetition. -/
structure FieldAt where
  code : Nat
  step : Int
  rep : Nat
deriving DecidableEq, Repr

/-- The stepped value. -/
def FieldAt.value (f : FieldAt) : Int := f.code + f.rep * f.step

/-- ILLOP's tests of a field (R256, R257, R262). -/
def FieldAt.illop (f : FieldAt) (r : Role) (p : Pipe) : Bool :=
  if r = .field then f.step != 0
  else if f.code < 160 then
    r == .table || (f.value % (r.align : Int)) != 0
  else f.step != 0 || r.forbids p f.code

/-- REGBOUND's tests of a field (R258, R262). -/
def FieldAt.bound (f : FieldAt) (r : Role) (allot : Nat) : Bool :=
  if r = .book ∧ 160 ≤ f.code then true
  else if r = .field ∨ 160 ≤ f.code then false
  else decide (f.value < 0) || decide (159 < f.value) || decide ((allot : Int) < f.value + r.width)

/-! ## The form of an instruction, as the checks of R264 see it -/

/-- What the checks at issue know of an instruction. -/
structure Form where
  pipe : Pipe
  (d a b c : Role)
  /-- It rounds, it saturates or clamps, it writes a register, it accepts a PFX with fields off their default (R260). -/
  (rounds sat writes pfx : Bool)
  /-- Its words alone make it ILLINS, its selector is not in the table, or the like (R264). -/
  ill : Bool
  /-- It needs privileged context. -/
  priv : Bool
  /-- Further operand codes with their roles: those of extension words. -/
  more : List (Role × Nat)
  /-- Further registers that it names. -/
  regs : List Nat
  /-- The structured transfers whose target it may be (R303); a closing instruction tests this after its pairing (R264). -/
  meets : List Nat
deriving Repr

def Form.of (p : Pipe) (d a b : Role) : Form :=
  ⟨p, d, a, b, .field, false, false, true, true, false, false, [], [], []⟩

/-- The kinds of target that IF, ELSE, and BRK and CONT require (R303). -/
def expectIf : Nat := 1
def expectElse : Nat := 2
def expectBrk : Nat := 3

/-- A form whose test of R303 falls after the pairing test. -/
def Form.closed (f : Form) : Form := { f with meets := [expectIf, expectElse, expectBrk] }

/-- The field steps of a REP, or none (R261). -/
def stepOf (x : BitVec 3) : Int := x.toInt

end Sys2Proof.Machine
end

