-- ==== Sys2Proof/Machine/Fetch.lean ====
section
/-! DEFINITION. Fetch: the words of an instruction through the team's translation and the core's instruction cache (R214,
R250), and the instruction that they hold (R251). -/

namespace Sys2Proof.Machine

/-- What a fetch finds: an instruction with its words, words that no instruction has, or the fault of one word. -/
inductive Fetched where
  | instr (i : Instr) (words : Nat)
  | bad
  | fail (f : Fail)
deriving DecidableEq, Repr

/-- The fault of a fetched word. -/
def fetchFail (c : Cause) (sub lvl va : Nat) : Fail := ⟨⟨c, sub, 0, va⟩, 3, lvl, none⟩

def icacheWords : Nat := 16384

/-- A code word read at its home; poison is delivered (R37). -/
def fetchHome (s : State) (c w : Nat) : Word × Bool × State :=
  let s := askHome (s.hear c) [w]
  let x := readForward s w
  (x.1, x.2, if x.2 then deliverSectors s [w / 8] else s)

/-- A code word at a physical address, from the instruction cache or its home (R250); a tolerant page's word is widened. -/
def fetchPa (s : State) (t : Team) (l : Leaf) (big : Bool) (va : Nat) : Word × Bool × State :=
  if l.tol ≠ 0 then
    let pa := l.tolPa big va
    let (w, p, s) := fetchHome s t.coreNo (pa / 4)
    (if p then poisonWord else tolWiden l.tol (w.toNat / 2 ^ (8 * (pa % 4)) % 2 ^ 16), p, s)
  else
    let w := l.pa big va / 4
    match look w (s.core t.coreNo).icache with
    | some x => (x, false, s)
    | none =>
      let (x, p, s) := fetchHome s t.coreNo w
      (x, p, if p then s else s.modCore t.coreNo fun k => { k with icache := ((w, x) :: k.icache).take icacheWords })

/-- One word of an instruction: the word, or the fault that its address or page gives, in the order of R218. A fetch through a view
page fails whatever the page permits (R68, R214), and counts in the view's FAULTS (R101). -/
def fetchWord (s : State) (k : Nat) (t : Team) (va : Nat) : Except Fail Word × State :=
  match translate s t.coreNo t.cfg.asid t.cfg.ptroot va with
  | (.fault sub lvl, p, s) => (.error (fetchFail .pfault sub lvl va), stainTeam s k p)
  | (.leaf l big, p, s) =>
    let s := stainTeam s k p
    if l.typ = 1 then
      if va % 4 ≠ 0 then (.error (fetchFail .align 0 0 va), s)
      else (.error (fetchFail .viewf 6 0 va), countViewFault s (fieldOf (l.pa big va) 36 11))
    else match permFault t.who l (l.pa big va) va ⟨4, .fetch, false, false⟩ with
    | some sub => (.error (fetchFail .pprot sub 0 va), s)
    | none =>
      if va % 4 ≠ 0 then (.error (fetchFail .align 0 0 va), s)
      else
        let (w, q, s) := fetchPa s t l big va
        (.ok w, stainTeam s k q)

/-- Words from an address until they hold an instruction. -/
def fetchFrom (k : Nat) (t : Team) (pc : Nat) : Nat → List IWord → State → Fetched × State
  | 0, _, s => (.bad, s)
  | fuel + 1, ws, s =>
    match fetchWord s k t (pc + 4 * ws.length) with
    | (.error f, s) => (.fail f, s)
    | (.ok w, s) =>
      let ws := ws ++ [IWord.ofBits w]
      if moreWords ws then fetchFrom k t pc fuel ws s
      else match decodeWords ws with
        | .ok (i, _) => (.instr i ws.length, s)
        | .error _ => (.bad, s)

/-- The instruction at an address, as a team fetches it. -/
def fetchInstr (s : State) (k : Nat) (t : Team) (pc : Nat) : Fetched × State := fetchFrom k t pc maxWords [] s

end Sys2Proof.Machine
end

