-- ==== Sys2Proof/Machine/Flags.lean ====
section
/-! DEFINITION. Flags: which STATUS bits the lane operations raise (R225, R240), and the flag-raising tests (R286, R291). -/

namespace Sys2Proof.Machine

/-- STATUS bits raised over the active lanes are ORed (R240, R269). -/
def Team.raiseFlags (t : Team) (f : FFlags) : Team := t.raise f.bits

def orFlags (fs : List FFlags) : FFlags := fs.foldl FFlags.or FFlags.none

/-- The compares of R286 on floating-point values. -/
inductive FTest where
  | eq | ne | lt | le | un
deriving DecidableEq, Repr

/-- A compare's result and flags: a signalling NaN sets NV, and so does a quiet one for < and ≤. -/
def FTest.run (c : FTest) (x y : FVal) : Bool × FFlags :=
  let nan := x.isNan || y.isNan
  let snan := x.isSnan || y.isSnan
  let r := match c with
    | .eq => !nan && x.eqv y
    | .ne => nan || !x.eqv y
    | .lt => !nan && x.lt y
    | .le => !nan && (x.lt y || x.eqv y)
    | .un => nan
  let nv := match c with
    | .lt | .le => nan
    | _ => snan
  (r, { FFlags.none with nv := nv })

end Sys2Proof.Machine
end

