-- ==== Sys2Proof/Machine/Issue.lean ====
section
/-! DEFINITION. Issue: the checks of R264 in their order, the frames of lane and uniform instructions (R152, R157, R161,
R165, R262, R269), and the pairing of closing instructions with their REGION (R168). -/

namespace Sys2Proof.Machine

/-- The operand codes of one repetition. -/
structure Codes where
  (d a b c : Nat)
deriving DecidableEq, Repr

/-! ## Checks at issue (R264) -/

def pfxOf (p : LPre) : Pfx := p.pfx.getD ⟨164#8, 164#8, false, 0#3, false, false, false, false⟩

/-- The fields of one repetition: D, A, B and the PFX's C. -/
structure Fields where
  (d a b c : FieldAt)
deriving DecidableEq, Repr

def fieldsFor (rep : Option Rep) (i d a b c : Nat) : Fields :=
  let step (f : Rep → BitVec 3) : Int := match rep with
    | some r => stepOf (f r)
    | none => 0
  ⟨⟨d, step (·.dd), i⟩, ⟨a, step (·.da), i⟩, ⟨b, step (·.db), i⟩, ⟨c, step (·.dc), i⟩⟩

def Fields.codes (f : Fields) : Codes := ⟨f.d.value.toNat, f.a.value.toNat, f.b.value.toNat, f.c.value.toNat⟩

/-- ILLINS of a PFX's fields (R260, R280). -/
def pfxIll (x : Pfx) (f : Form) : Bool :=
  decide (6 ≤ x.rm.toNat) || (x.rm != 0#3 && !f.rounds) || (x.sat && !f.sat) || (x.zm && !f.writes)
    || (!f.pfx && x != ⟨164#8, 164#8, false, 0#3, false, false, false, false⟩)

/-- The operand codes of extension words, as fields without a step. -/
def Form.moreFields (f : Form) : List (Role × FieldAt) := f.more.map fun m => (m.1, ⟨m.2, 0, 0⟩)

/-- An instruction that a structured transfer must not reach (R303). -/
def wrongTarget (t : Team) (f : Form) : Bool := match t.expect with
  | some e => !f.meets.contains e
  | none => false

/-- The checks that lane and uniform instructions share, and the first of their own causes; `mask` is the PFX's M. -/
def check (t : Team) (f : Form) (x : Fields) (ill : Bool) (mask : Nat) : Option Cause :=
  if ill || f.ill then some .illins
  else if x.d.illop f.d f.pipe || x.a.illop f.a f.pipe || x.b.illop f.b f.pipe
      || (f.c == .field && x.c.code != 164) || x.c.illop f.c f.pipe
      || (160 ≤ mask && mask != 164) || (f.moreFields.any fun m => m.2.illop m.1 f.pipe) then some .illop
  else if f.priv && !t.priv then some .priv
  else if x.d.bound f.d t.allot || x.a.bound f.a t.allot || x.b.bound f.b t.allot || x.c.bound f.c t.allot
      || (mask < 160 && t.allot ≤ mask) || (f.moreFields.any fun m => m.2.bound m.1 t.allot)
      || (f.regs.any fun r => decide (t.allot ≤ r)) then some .regbound
  else if wrongTarget t f then some .illins
  else none

/-- Registers that an instruction names, whose outstanding loads it waits for (R166). -/
def namedRegs (f : Form) (k : Codes) (mask : Nat) : List Nat :=
  codeRegs k.d f.d.width ++ codeRegs k.a f.a.width ++ codeRegs k.b f.b.width ++ codeRegs k.c f.c.width
    ++ codeRegs mask 1 ++ (f.more.flatMap fun m => codeRegs m.2 m.1.width) ++ f.regs

/-- Whether an operand of a role reads a latch. -/
def Role.readsLatch (r : Role) (code : Nat) : Bool :=
  match r with
  | .src _ | .xch => decide (160 ≤ code ∧ code < 164)
  | _ => false

def Form.readsLatch (f : Form) (k : Codes) : Bool :=
  f.d.readsLatch k.d || f.a.readsLatch k.a || f.b.readsLatch k.b || f.c.readsLatch k.c
    || f.more.any fun m => m.1.readsLatch m.2

/-- Registers that a lane instruction reads, through the banked file or the operand cache (R164). -/
def readRegs (f : Form) (k : Codes) : List Nat :=
  (match f.d with
    | .dst _ => []
    | r => codeRegs k.d r.width)
    ++ codeRegs k.a f.a.width ++ codeRegs k.b f.b.width ++ codeRegs k.c f.c.width
    ++ (f.more.flatMap fun m => codeRegs m.2 m.1.width) ++ f.regs

/-- Whether a request for a word misses both the core's L1 and the L2 of its own die (R137). -/
def missesDie (s : State) (c w : Nat) : Bool :=
  (l1Word s c w).isNone && !(isLocalWord w && homeDie (4 * w) == coreDie c && l2Holds s w)

/-- A load that the instruction waits for has missed (R137). -/
def missedLoad (s : State) (t : Team) (rs : List Nat) : Bool :=
  t.loads.any fun r => rs.any r.writes && r.reads.any fun x => x.2.wordNames.any fun w => missesDie s t.coreNo w

/-- Issue waits for the loads that write a named register. One that misses parks the team. The team does not leave its active set
before an instruction that reads a latch, unless a taken transfer came before it (R137, R163, R166, R324). -/
def waitFor (s : State) (k : Nat) (rs : List Nat) (latch : Bool) (go : State → State) : State :=
  match s.teams[k]? with
  | none => go s
  | some t =>
    let free := !latch || t.moved
    if free && missedLoad s t rs then parkTeam s k (.load rs)
    else go (settleRegs s k rs)

/-- An instruction goes on after its waits, unless a load that it waited for left a cause pending: that is taken at the
boundary before it (R223). -/
def afterWait (s : State) (body : State → Team → State) : State :=
  match s.teams[s.cur]? with
  | none => s
  | some t => match t.pending with
    | some i => trapAt s s.cur i
    | none => body s t

/-! ## Lane instructions -/

/-- The repetition's number is 0 for an instruction without REP. -/
def startRep (s : State) (rep : Option Rep) : State :=
  s.modTeam s.cur fun t => { t with repIdx := if rep.isSome then t.repIdx else 0 }

/-- A lane instruction at issue: its checks, its waits, and then what it does. -/
def laneIssue (s : State) (p : LPre) (f : Form) (d a b : Nat) (body : State → Team → Codes → State) : Out :=
  withTeam (startRep s p.rep) fun t =>
    let s := startRep s p.rep
    let x := pfxOf p
    let fl := fieldsFor p.rep t.repIdx d a b x.c.toNat
    match check t f fl (pfxIll x f) x.m.toNat with
    | some c => trapCause s s.cur c
    | none =>
      waitFor s s.cur (namedRegs f fl.codes x.m.toNat) (f.readsLatch fl.codes) fun s => afterWait s fun s t => body s t fl.codes

/-- The effective mask, and whether the mask register is dead (R152). -/
def effMask (t : Team) (p : LPre) : Mask × Bool :=
  let m := (pfxOf p).m.toNat
  if m < 160 then
    ((t.reg m).zipIdx.foldl (fun (acc : Mask) x => if x.1.getLsbD 0 then acc else acc &&& ~~~(1#1024 <<< x.2)) t.mask,
      t.isDead m)
  else (t.mask, false)

/-- Words of a lane instruction apart from its REP. -/
def laneWords (p : LPre) (base : Nat) : Nat := base + (if p.pfx.isSome then 1 else 0)

/-- The registers that KA, KB and KC mark dead (R165, R259). -/
def deadMarks (p : LPre) (f : Form) (k : Codes) : List Nat :=
  let x := pfxOf p
  (if x.ka then codeRegs k.a f.a.width else []) ++ (if x.kb then codeRegs k.b f.b.width else [])
    ++ (if x.kc then codeRegs k.c f.c.width else [])

/-- A lane instruction's read of void operand-cache entries refills them; a write leaves one void (R164). -/
def Team.refill (t : Team) (rs : List Nat) : Team :=
  { t with ocache := t.ocache.map fun e => (e.1, e.2 || rs.contains e.1) }

/-- A lane instruction whose effective mask is empty only moves on (R152). -/
def passEmpty (s : State) (p : LPre) (base : Nat) (deadM : Bool) : State :=
  s.modTeam s.cur fun t => (if deadM then t.raise deadReadBit else t).passRep p.rep (laneWords p base)

/-- After the passes: refilled entries, DEADREAD, dead marks, and the pc. -/
def Team.laneEnd (t : Team) (p : LPre) (f : Form) (k : Codes) (base : Nat) (dead : Bool) : Team :=
  let t := t.refill (readRegs f k)
  let t := if dead then t.raise deadReadBit else t
  ((deadMarks p f k).foldl Team.killReg t).passRep p.rep (laneWords p base)

/-- What lane `l` of a destination of `w` words holds before the instruction: for 160, the latches (R161). -/
def oldDest (t : Team) (pipe : Pipe) (w d l : Nat) : Nat :=
  if d < 160 then joinWords w fun i => t.regAt (d + i) l else joinWords w fun i => latchAt t pipe i l

/-- The result enters the pipe's latches: the low word last, so that it is x0 (R161). -/
def Team.shiftLane (t : Team) (pipe : Pipe) (new : Lanes) : Team :=
  match pipe with
  | .l => { t with latL := t.latL.shift new }
  | .x => { t with latX := t.latX.shift new }
  | _ => t

/-- The frame of R269: new values in the active lanes, zero or the old value elsewhere; the registers and the latches. -/
def Team.writeLanes (t : Team) (pipe : Pipe) (w d : Nat) (mask : Mask) (zm : Bool) (vals : Nat → Nat) : Team :=
  let new (l : Nat) : Nat := if mask.getLsbD l then vals l else if zm then 0 else oldDest t pipe w d l
  let all := (List.range t.tl).map new
  let word (i : Nat) : Lanes := all.map fun v => BitVec.ofNat 32 (v / 2 ^ (32 * i))
  let t := if d < 160 then (List.range w).foldl (fun t i => t.setReg (d + i) (word i)) t else t
  (List.range w).foldr (fun i t => t.shiftLane pipe (word i)) t

/-- How a lane instruction reads its operands: the kind of each that it reads. -/
structure Reads where
  (a b c d : Option Kind)
deriving DecidableEq, Repr

def Reads.dead (r : Reads) (t : Team) (p : Pipe) (k : Codes) : Bool :=
  let f (x : Option Kind) (code : Nat) : Bool := match x with
    | some kd => readsDead t p code kd.words
    | none => false
  f r.a k.a || f r.b k.b || f r.c k.c || f r.d k.d

def readOpt (s : State) (t : Team) (p : Pipe) (x : Option Kind) (code l : Nat) : Nat :=
  match x with
  | some kd => opnd s t p kd code l
  | none => 0

/-- What EFFECT sees of one lane: a, b, c and d as they stand at issue. -/
structure Args where
  (a b c d lane : Nat)
deriving DecidableEq, Repr

/-- A lane instruction that computes `w` words from its own lane's operands. -/
def laneCompute (s : State) (p : LPre) (f : Form) (d a b w : Nat) (r : Reads) (eff : Args → Nat × FFlags) : Out :=
  laneIssue s p f d a b fun s t k =>
    let (mask, deadM) := effMask t p
    if mask = 0#1024 then passEmpty s p 1 deadM
    else
      let res := (List.range t.tl).map fun l =>
        if mask.getLsbD l then
          eff ⟨readOpt s t f.pipe r.a k.a l, readOpt s t f.pipe r.b k.b l, readOpt s t f.pipe r.c k.c l,
            readOpt s t f.pipe r.d k.d l, l⟩
        else (0, FFlags.none)
      let t1 := t.writeLanes f.pipe w k.d mask (pfxOf p).zm fun l => (res.getD l (0, FFlags.none)).1
      s.setTeam s.cur (((t1.raiseFlags (orFlags (res.map (·.2))))).laneEnd p f k 1 (r.dead t f.pipe k))

/-- The rounding mode and SAT bit of an instruction (R237, R270). -/
def modeOf (p : LPre) : RMode := RMode.ofField (pfxOf p).rm
def satBit (p : LPre) : Bool := (pfxOf p).sat

/-! ## Uniform instructions (R157) -/

/-- A uniform instruction at issue: its checks, its waits, and then what it does. -/
def uniIssue (s : State) (rep : Option Rep) (f : Form) (d a b : Nat) (body : State → Team → Codes → State) : Out :=
  withTeam (startRep s rep) fun t =>
    let s := startRep s rep
    let fl := fieldsFor rep t.repIdx d a b 164
    match check t f fl false 164 with
    | some c => trapCause s s.cur c
    | none =>
      waitFor s s.cur (namedRegs f fl.codes 164) (f.readsLatch fl.codes) fun s => afterWait s fun s t => body s t fl.codes

/-- A uniform result of `w` words goes to every lane of D, and into the U latches from the U pipe (R157, R161). -/
def Team.writeUni (t : Team) (pipe : Pipe) (w d v : Nat) : Team :=
  let word (i : Nat) : Word := BitVec.ofNat 32 (v / 2 ^ (32 * i))
  let tl := t.tl
  let t := if d < 160 then (List.range w).foldl (fun t i => t.setReg (d + i) (List.replicate tl (word i))) t else t
  if pipe = .u then (List.range w).foldr (fun i t => { t with latU := t.latU.shift (word i) }) t else t

/-- DEADREAD of sources that a uniform instruction reads. -/
def Team.noteDead (t : Team) (b : Bool) : Team := if b then t.raise deadReadBit else t

/-- A uniform instruction that computes `w` words from operands of lane 0. -/
def uniCompute (s : State) (rep : Option Rep) (f : Form) (d a b w : Nat) (r : Reads) (eff : Args → Nat) : Out :=
  uniIssue s rep f d a b fun s t k =>
    let v := eff ⟨readOpt s t f.pipe r.a k.a 0, readOpt s t f.pipe r.b k.b 0, 0, readOpt s t f.pipe r.d k.d 0, 0⟩
    s.setTeam s.cur (((t.noteDead (r.dead t f.pipe k)).writeUni f.pipe w k.d v).passRep rep 1)

/-! ## Closing instructions (R168, R264) -/

/-- What follows a closing instruction: its REGION, or the cause that the pair traps with. -/
inductive Pair where
  | region (live : BitVec 160)
  | cause (f : Fail)
deriving DecidableEq, Repr

/-- The pairing test at the address after a closing instruction. -/
def pairTest (s : State) (k : Nat) (t : Team) (next : Nat) : Pair × State :=
  match fetchInstr s k t next with
  | (.fail f, s) => (.cause f, s)
  | (.bad, s) => (.cause ⟨⟨.illins, 0, 0, 0⟩, 0, 0, none⟩, s)
  | (.instr i _, s) => match i with
    | .region live =>
      if regionBound t live then (.cause ⟨⟨.regbound, 0, 0, 0⟩, 0, 0, none⟩, s) else (.region live, s)
    | _ => (.cause ⟨⟨.illins, 0, 0, 0⟩, 0, 0, none⟩, s)

/-- The fetch of a team's instruction or REGION walked, and the team may leave its active set for it: before an instruction that
reads no latch, or after a taken transfer (R137, R163). -/
def fetchWaits (s0 s1 : State) (t : Team) (latch : Bool) : Bool := (!latch || t.moved) && hasWalked s0 s1 t.die

/-- A closing instruction of `words` words after its checks of R264: the pairing test, its effect, and its REGION. The
effect answers an error where it has trapped, parked or been rejected; then neither the REGION nor the pc moves. The REGION
counts as an instruction issued (R20). `after` is what follows the pair; `latch` says that the instruction reads a latch. -/
def closing (s : State) (words : Nat) (body : State → Team → Except State State) (after : State → State := fun s => s)
    (latch : Bool := false) : State :=
  match s.teams[s.cur]? with
  | none => s
  | some t =>
    let next := t.pc + 4 * words
    match pairTest s s.cur t next with
    | (.cause f, s1) => failAfter s s1 s.cur t f (!latch || t.moved)
    | (.region live, s1) =>
      if fetchWaits s s1 t latch then parkTeam s1 s.cur .fill
      else if t.expect.isSome then trapCause s1 s.cur .illins
      else waitFor s1 s.cur (liveRegs live) latch fun s => afterWait s fun s t =>
        match body s t with
        | .ok s => after ((s.countDie t.die .issue).modTeam s.cur fun t =>
          let t1 := t.checkpoint live (next + 24)
          { t1.jump (next + 24) with moved := false })
        | .error s => s

end Sys2Proof.Machine
end

