-- ==== Sys2Proof/Machine/LaneInt.lean ====
section
/-! DEFINITION. LaneInt: integer, logic, shift, bit-field and integer compare instructions of the lane set (R281 to R286),
over effects that the uniform set shares (R299). -/

namespace Sys2Proof.Machine

/-! ## Effects on 32-bit values -/

/-- An exact signed result of `w` bits, clamped under SAT and narrowed otherwise (R282). -/
def narrowSat (sat : Bool) (w : Nat) (i : Int) : Nat :=
  intBits w (if sat then max (-(2 ^ (w - 1) : Nat)) (min i ((2 ^ (w - 1) : Nat) - 1)) else i)

def s32 (x : Nat) : Int := sext 32 x
def aluImulhi (a b : Nat) : Nat := intBits 32 ((s32 a * s32 b).fdiv (2 ^ 32 : Nat))
def aluUmulhi (a b : Nat) : Nat := a * b / 2 ^ 32 % 2 ^ 32
def aluImin (a b : Nat) : Nat := if s32 a ≤ s32 b then a else b
def aluImax (a b : Nat) : Nat := if s32 a ≤ s32 b then b else a
def notBits (a : Nat) : Nat := 2 ^ 32 - 1 - a % 2 ^ 32
def aluShl (a n : Nat) : Nat := if 32 ≤ n then 0 else a * 2 ^ n % 2 ^ 32
def aluShr (a n : Nat) : Nat := if 32 ≤ n then 0 else a / 2 ^ n
def aluSar (a n : Nat) : Nat := intBits 32 ((s32 a).fdiv (2 ^ min n 32 : Nat))
def aluRotl (a b : Nat) : Nat := (a * 2 ^ (b % 32) + a / 2 ^ (32 - b % 32)) % 2 ^ 32

/-- The field of R284: its place and its length. -/
def bfPos (b : Nat) : Nat := fieldOf b 0 5
def bfLen (b : Nat) : Nat := fieldOf b 8 5
def aluBfx (a b : Nat) : Nat := a / 2 ^ bfPos b % 2 ^ bfLen b
def aluBfxs (a b : Nat) : Nat := intBits 32 (sext (bfLen b) (intBits (bfLen b) ((s32 a).fdiv (2 ^ bfPos b : Nat))))
def aluBfi (d a b : Nat) : Nat :=
  let mm := (2 ^ bfLen b - 1) * 2 ^ bfPos b % 2 ^ 32
  (d &&& notBits mm) ||| ((a * 2 ^ bfPos b % 2 ^ 32) &&& mm)
def aluPopc (a : Nat) : Nat := (List.range 32).countP fun i => a.testBit i
def aluClz (a : Nat) : Nat := if a = 0 then 32 else 31 - Nat.log2 a
def aluBrev (a : Nat) : Nat := (List.range 32).foldl (fun x i => if a.testBit (31 - i) then x + 2 ^ i else x) 0

/-- PRMT (R285). -/
def aluPrmt (a b c : Nat) : Nat :=
  let w := a + 2 ^ 32 * c
  (List.range 4).foldl (fun x i =>
    let sel := fieldOf b (4 * i) 4
    let y := fieldOf w (8 * (sel % 8)) 8
    x + (if 8 ≤ sel then (if 128 ≤ y then 255 else 0) else y) * 2 ^ (8 * i)) 0

def oneIf (b : Bool) : Nat := if b then 1 else 0

/-! ## Frames -/

def noFlags (v : Nat) : Nat × FFlags := (v, FFlags.none)

/-- A form with two 32-bit integer sources. -/
def laneInt (s : State) (p : LPre) (d a b : Byte) (f : Nat → Nat → Nat) : Out :=
  laneCompute s p (Form.of .l (.dst 1) (.src 1) (.src 1)) d.toNat a.toNat b.toNat 1
    ⟨some .i32, some .i32, none, none⟩ fun x => noFlags (f x.a x.b)

/-- The same with signed saturation (R282). -/
def laneIntSat (s : State) (p : LPre) (d a b : Byte) (f : Int → Int → Int) : Out :=
  laneCompute s p { Form.of .l (.dst 1) (.src 1) (.src 1) with sat := true } d.toNat a.toNat b.toNat 1
    ⟨some .i32, some .i32, none, none⟩ fun x => noFlags (narrowSat (satBit p) 32 (f (s32 x.a) (s32 x.b)))

/-- A form with one 32-bit integer source. -/
def laneInt1 (s : State) (p : LPre) (d a : Byte) (f : Nat → Nat) : Out :=
  laneCompute s p (Form.of .l (.dst 1) (.src 1) .field) d.toNat a.toNat 0 1
    ⟨some .i32, none, none, none⟩ fun x => noFlags (f x.a)

/-- A form that also reads D (R281). -/
def laneIntD (s : State) (p : LPre) (d a b : Byte) (f : Nat → Nat → Nat → Nat) : Out :=
  laneCompute s p (Form.of .l (.rmw 1) (.src 1) (.src 1)) d.toNat a.toNat b.toNat 1
    ⟨some .i32, some .i32, none, some .i32⟩ fun x => noFlags (f x.d x.a x.b)

/-! ## R281 -/

/-- NOP accepts no PFX field off its default and writes nothing (R280, R281). -/
def execNop (p : LPre) (s : State) : Out :=
  laneCompute s p { Form.of .l .field .field .field with writes := false, pfx := false } 0 0 0 0
    ⟨none, none, none, none⟩ fun _ => noFlags 0

def execMov (p : LPre) (d a : Byte) (s : State) : Out := laneInt1 s p d a fun x => x

def execMovi (p : LPre) (d : Byte) (i : BitVec 16) (s : State) : Out :=
  laneCompute s p (Form.of .l (.dst 1) .field .field) d.toNat 0 0 1 ⟨none, none, none, none⟩
    fun _ => noFlags (intBits 32 i.toInt)

def execMovhi (p : LPre) (d : Byte) (i : BitVec 16) (s : State) : Out :=
  laneCompute s p (Form.of .l (.rmw 1) .field .field) d.toNat 0 0 1 ⟨none, none, none, some .i32⟩
    fun x => noFlags (i.toNat * 2 ^ 16 + x.d % 2 ^ 16)

def execIadd (p : LPre) (d a b : Byte) (s : State) : Out := laneIntSat s p d a b fun x y => x + y
def execIsub (p : LPre) (d a b : Byte) (s : State) : Out := laneIntSat s p d a b fun x y => x - y

def execIaddi (p : LPre) (d : Byte) (i : BitVec 16) (s : State) : Out :=
  laneCompute s p { Form.of .l (.rmw 1) .field .field with sat := true } d.toNat 0 0 1 ⟨none, none, none, some .i32⟩
    fun x => noFlags (narrowSat (satBit p) 32 (s32 x.d + i.toInt))

def execImul (p : LPre) (d a b : Byte) (s : State) : Out := laneIntSat s p d a b fun x y => x * y
def execImulhi (p : LPre) (d a b : Byte) (s : State) : Out := laneInt s p d a b aluImulhi
def execUmulhi (p : LPre) (d a b : Byte) (s : State) : Out := laneInt s p d a b aluUmulhi

def execImad (p : LPre) (d a b : Byte) (s : State) : Out :=
  laneCompute s p { Form.of .l (.dst 1) (.src 1) (.src 1) with sat := true, c := .src 1 } d.toNat a.toNat b.toNat 1
    ⟨some .i32, some .i32, some .i32, none⟩ fun x => noFlags (narrowSat (satBit p) 32 (s32 x.a * s32 x.b + s32 x.c))

def execIadd64 (p : LPre) (d a b : Byte) (s : State) : Out :=
  laneCompute s p { Form.of .l (.dst 2) (.src 2) (.src 2) with sat := true } d.toNat a.toNat b.toNat 2
    ⟨some .i64, some .i64, none, none⟩ fun x => noFlags (narrowSat (satBit p) 64 (sext 64 x.a + sext 64 x.b))

def execImin (p : LPre) (d a b : Byte) (s : State) : Out := laneInt s p d a b aluImin
def execImax (p : LPre) (d a b : Byte) (s : State) : Out := laneInt s p d a b aluImax
def execUmin (p : LPre) (d a b : Byte) (s : State) : Out := laneInt s p d a b min
def execUmax (p : LPre) (d a b : Byte) (s : State) : Out := laneInt s p d a b max

/-! ## R283 to R285 -/

def execAnd (p : LPre) (d a b : Byte) (s : State) : Out := laneInt s p d a b fun x y => x &&& y
def execOr (p : LPre) (d a b : Byte) (s : State) : Out := laneInt s p d a b fun x y => x ||| y
def execXor (p : LPre) (d a b : Byte) (s : State) : Out := laneInt s p d a b fun x y => x ^^^ y
def execAndn (p : LPre) (d a b : Byte) (s : State) : Out := laneInt s p d a b fun x y => x &&& notBits y
def execShl (p : LPre) (d a b : Byte) (s : State) : Out := laneInt s p d a b aluShl
def execShr (p : LPre) (d a b : Byte) (s : State) : Out := laneInt s p d a b aluShr
def execSar (p : LPre) (d a b : Byte) (s : State) : Out := laneInt s p d a b aluSar
def execRotl (p : LPre) (d a b : Byte) (s : State) : Out := laneInt s p d a b aluRotl
def execBfx (p : LPre) (d a b : Byte) (s : State) : Out := laneInt s p d a b aluBfx
def execBfxs (p : LPre) (d a b : Byte) (s : State) : Out := laneInt s p d a b aluBfxs
def execBfi (p : LPre) (d a b : Byte) (s : State) : Out := laneIntD s p d a b aluBfi
def execSel (p : LPre) (d a b : Byte) (s : State) : Out := laneIntD s p d a b fun x y z => if x % 2 = 1 then y else z
def execPopc (p : LPre) (d a : Byte) (s : State) : Out := laneInt1 s p d a aluPopc
def execClz (p : LPre) (d a : Byte) (s : State) : Out := laneInt1 s p d a aluClz
def execBrev (p : LPre) (d a : Byte) (s : State) : Out := laneInt1 s p d a aluBrev

def execPrmt (p : LPre) (d a b : Byte) (s : State) : Out :=
  laneCompute s p { Form.of .l (.dst 1) (.src 1) (.src 1) with c := .src 1 } d.toNat a.toNat b.toNat 1
    ⟨some .i32, some .i32, some .i32, none⟩ fun x => noFlags (aluPrmt x.a x.b x.c)

/-! ## R286, integer compares -/

def execIseteq (p : LPre) (d a b : Byte) (s : State) : Out := laneInt s p d a b fun x y => oneIf (x == y)
def execIsetne (p : LPre) (d a b : Byte) (s : State) : Out := laneInt s p d a b fun x y => oneIf (x != y)
def execIsetlt (p : LPre) (d a b : Byte) (s : State) : Out := laneInt s p d a b fun x y => oneIf (decide (s32 x < s32 y))
def execIsetle (p : LPre) (d a b : Byte) (s : State) : Out := laneInt s p d a b fun x y => oneIf (decide (s32 x ≤ s32 y))
def execUsetlt (p : LPre) (d a b : Byte) (s : State) : Out := laneInt s p d a b fun x y => oneIf (decide (x < y))
def execUsetle (p : LPre) (d a b : Byte) (s : State) : Out := laneInt s p d a b fun x y => oneIf (decide (x ≤ y))

end Sys2Proof.Machine
end

