-- ==== Sys2Proof/Machine/LaneFloat.lean ====
section
/-! DEFINITION. LaneFloat: floating-point compares, arithmetic, packed halves, conversions, special functions, FP64, random
numbers and activation tables (R177 to R180, R242, R243, R286 to R293). -/

namespace Sys2Proof.Machine

/-! ## Frames -/

/-- A form with two sources of a floating-point kind. -/
def laneF2 (s : State) (p : LPre) (d a b : Byte) (pipe : Pipe) (k : Kind) (dw : Nat) (rounds : Bool)
    (f : Nat → Nat → Nat × FFlags) : Out :=
  laneCompute s p { Form.of pipe (.dst dw) (.src k.words) (.src k.words) with rounds := rounds, sat := rounds }
    d.toNat a.toNat b.toNat dw ⟨some k, some k, none, none⟩ fun x => f x.a x.b

/-- A rounding form with three sources (R287, R289, R291). -/
def laneF3 (s : State) (p : LPre) (d a b : Byte) (pipe : Pipe) (k kc : Kind) (f : Nat → Nat → Nat → Nat × FFlags) : Out :=
  laneCompute s p { Form.of pipe (.dst kc.words) (.src k.words) (.src k.words) with
      rounds := true, sat := true, c := .src kc.words } d.toNat a.toNat b.toNat kc.words
    ⟨some k, some k, some kc, none⟩ fun x => f x.a x.b x.c

/-! ## Compares (R286, R291) -/

def cmpF (c : FTest) (f : Fmt) (a b : Nat) : Nat × FFlags :=
  let r := c.run (f.read a) (f.read b)
  (oneIf r.1, r.2)

def laneFset (s : State) (p : LPre) (d a b : Byte) (c : FTest) : Out := laneF2 s p d a b .l .f32 1 false (cmpF c .fp32)

def execFseteq (p : LPre) (d a b : Byte) (s : State) : Out := laneFset s p d a b .eq
def execFsetne (p : LPre) (d a b : Byte) (s : State) : Out := laneFset s p d a b .ne
def execFsetlt (p : LPre) (d a b : Byte) (s : State) : Out := laneFset s p d a b .lt
def execFsetle (p : LPre) (d a b : Byte) (s : State) : Out := laneFset s p d a b .le
def execFsetun (p : LPre) (d a b : Byte) (s : State) : Out := laneFset s p d a b .un

/-! ## FP32 (R287, R288) -/

def fltAdd (f : Fmt) (m : RMode) (sat : Bool) (a b : Nat) : Nat × FFlags := f.addF m sat (f.read a) (f.read b)
def fltSub (f : Fmt) (m : RMode) (sat : Bool) (a b : Nat) : Nat × FFlags := f.addF m sat (f.read a) (f.read b).negate
def fltMul (f : Fmt) (m : RMode) (sat : Bool) (a b : Nat) : Nat × FFlags := f.mulF m sat (f.read a) (f.read b)
def fltFma (f : Fmt) (m : RMode) (sat : Bool) (a b c : Nat) : Nat × FFlags :=
  f.fmaF m sat (f.read a) (f.read b) (f.read c)

/-- FSCALE: x × 2^s(b) rounded once; ±0 and ±∞ stay (R287). -/
def fltScale (m : RMode) (sat : Bool) (a b : Nat) : Nat × FFlags :=
  match Fmt.fp32.read a with
  | .nan n q fr fb => Fmt.fp32.nanResult [.nan n q fr fb] false
  | .inf _ => (a, FFlags.none)
  | .fin n v => if v.isZero then (a, FFlags.none) else
      -- beyond ±1,100 every exponent gives the same rounding
      Fmt.fp32.round m sat n (v.shift (max (-1100) (min 1100 (s32 b))))

def execFadd (p : LPre) (d a b : Byte) (s : State) : Out :=
  laneF2 s p d a b .l .f32 1 true (fltAdd .fp32 (modeOf p) (satBit p))
def execFsub (p : LPre) (d a b : Byte) (s : State) : Out :=
  laneF2 s p d a b .l .f32 1 true (fltSub .fp32 (modeOf p) (satBit p))
def execFmul (p : LPre) (d a b : Byte) (s : State) : Out :=
  laneF2 s p d a b .l .f32 1 true (fltMul .fp32 (modeOf p) (satBit p))
def execFfma (p : LPre) (d a b : Byte) (s : State) : Out :=
  laneF3 s p d a b .l .f32 .f32 (fltFma .fp32 (modeOf p) (satBit p))
def execFmin (p : LPre) (d a b : Byte) (s : State) : Out := laneF2 s p d a b .l .f32 1 false (Fmt.fp32.minMax false)
def execFmax (p : LPre) (d a b : Byte) (s : State) : Out := laneF2 s p d a b .l .f32 1 false (Fmt.fp32.minMax true)

/-- A form with one source that does not round. -/
def laneF1 (s : State) (p : LPre) (d a : Byte) (k : Kind) (f : Nat → Nat) : Out :=
  laneCompute s p (Form.of .l (.dst 1) (.src 1) .field) d.toNat a.toNat 0 1
    ⟨some k, none, none, none⟩ fun x => noFlags (f x.a)

/-- FABS and FNEG act on the 32 bits that A supplies (R255, R279, R288). -/
def execFabs (p : LPre) (d a : Byte) (s : State) : Out := laneF1 s p d a .i32 fun x => x % 2 ^ 31
def execFneg (p : LPre) (d a : Byte) (s : State) : Out := laneF1 s p d a .i32 fun x => x ^^^ 2 ^ 31
def execFclass (p : LPre) (d a : Byte) (s : State) : Out := laneF1 s p d a .f32 fun x => 2 ^ fclassBit x

def execFscale (p : LPre) (d a b : Byte) (s : State) : Out :=
  laneCompute s p { Form.of .l (.dst 1) (.src 1) (.src 1) with rounds := true, sat := true } d.toNat a.toNat b.toNat 1
    ⟨some .f32, some .i32, none, none⟩ fun x => fltScale (modeOf p) (satBit p) x.a x.b

/-! ## Packed halves (R289) -/

def halves2 (f : Nat → Nat → Nat × FFlags) (a b : Nat) : Nat × FFlags :=
  let lo := f (a % 65536) (b % 65536)
  let hi := f (a / 65536) (b / 65536)
  (lo.1 + 65536 * hi.1, lo.2.or hi.2)

def halves3 (f : Nat → Nat → Nat → Nat × FFlags) (a b c : Nat) : Nat × FFlags :=
  let lo := f (a % 65536) (b % 65536) (c % 65536)
  let hi := f (a / 65536) (b / 65536) (c / 65536)
  (lo.1 + 65536 * hi.1, lo.2.or hi.2)

/-- FDOT2: x0 × y0 + x1 × y1 + z, one rounding. 0 × ∞ and infinite terms of opposite sign set NV, and give the default NaN where no
source is NaN; else the first NaN source is delivered (R241, R289, log entry 93). -/
def fltDot2 (m : RMode) (sat : Bool) (a b c : Nat) : Nat × FFlags :=
  let x0 := Fmt.fp16.read (a % 65536)
  let x1 := Fmt.fp16.read (a / 65536)
  let y0 := Fmt.fp16.read (b % 65536)
  let y1 := Fmt.fp16.read (b / 65536)
  let z := Fmt.fp32.read c
  let zeroInf (x y : FVal) : Bool := (x.isInf && y.isZero) || (x.isZero && y.isInf)
  let s0 := x0.sign != y0.sign
  let s1 := x1.sign != y1.sign
  let infinite (x y : FVal) : Bool := (x.isInf && !y.isNan) || (y.isInf && !x.isNan)
  let infs := (if infinite x0 y0 then [s0] else []) ++ (if infinite x1 y1 then [s1] else [])
    ++ (if z.isInf then [z.sign] else [])
  let invalid := zeroInf x0 y0 || zeroInf x1 y1 || (infs.contains true && infs.contains false)
  if invalid || [x0, x1, y0, y1, z].any FVal.isNan then Fmt.fp32.nanResult [x0, x1, y0, y1, z] invalid
  else match infs with
    | n :: _ => Fmt.fp32.roundInf m sat n
    | [] =>
      let p0 := x0.real.mul y0.real
      let p1 := x1.real.mul y1.real
      let zeros := p0.isZero && p1.isZero && z.isZero
      let neg := if zeros then zeroSign m (zeroSign m s0 s1) z.sign else m == .rd
      Fmt.fp32.round m sat neg ((p0.add p1).add z.real)

def execHadd2 (p : LPre) (d a b : Byte) (s : State) : Out :=
  laneF2 s p d a b .l .h16 1 true (halves2 (fltAdd .fp16 (modeOf p) (satBit p)))
def execHmul2 (p : LPre) (d a b : Byte) (s : State) : Out :=
  laneF2 s p d a b .l .h16 1 true (halves2 (fltMul .fp16 (modeOf p) (satBit p)))
def execHfma2 (p : LPre) (d a b : Byte) (s : State) : Out :=
  laneF3 s p d a b .l .h16 .h16 (halves3 (fltFma .fp16 (modeOf p) (satBit p)))
def execBfma2 (p : LPre) (d a b : Byte) (s : State) : Out :=
  laneF3 s p d a b .l .hbf .hbf (halves3 (fltFma .bf16 (modeOf p) (satBit p)))
def execFdot2 (p : LPre) (d a b : Byte) (s : State) : Out :=
  laneF3 s p d a b .l .h16 .f32 (fltDot2 (modeOf p) (satBit p))

/-! ## CVT and SFU (R242, R243, R290) -/

/-- How a CVT selector reads A (R242, R255). -/
def cvtKind (sel : Nat) : Kind :=
  if sel = 0x0B ∨ sel = 0x0D then .f64
  else if sel = 0x04 ∨ sel = 0x05 then .h16
  else if sel = 0x06 ∨ sel = 0x07 then .hbf
  else if sel ≤ 0x01 ∨ sel = 0x0C ∨ (0x10 ≤ sel ∧ sel ≤ 0x27) ∨ (0x48 ≤ sel ∧ sel ≤ 0x80) ∨ sel = 0x82 then .i32
  else .f32

/-- CVT's form: reserved selectors are ILLINS, and the shape decides the widths and whether C and D are read. -/
def execCvt (p : LPre) (d a sel : Byte) (s : State) : Out :=
  match cvtShape sel.toNat with
  | none =>
    laneCompute s p { Form.of .x (.dst 1) (.src 1) .field with ill := true } d.toNat a.toNat 0 1
      ⟨none, none, none, none⟩ fun _ => noFlags 0
  | some c =>
    let dw := if c.d64 then 2 else 1
    laneCompute s p { Form.of .x (if c.merge then .rmw dw else .dst dw) (.src (if c.a64 then 2 else 1)) .field with
        rounds := true, sat := true, c := if c.usesC then .src 1 else .field } d.toNat a.toNat 0 dw
      ⟨some (cvtKind sel.toNat), none, if c.usesC then some .f32 else none, if c.merge then some .i32 else none⟩
      fun x => cvt sel.toNat (modeOf p) (satBit p) x.a x.c x.d

/-- SFU: a function number above 8 is ILLINS; RM is accepted and ignored (R243, R280). -/
def execSfu (p : LPre) (d a fn : Byte) (s : State) : Out :=
  laneCompute s p { Form.of .x (.dst 1) (.src 1) .field with rounds := true, ill := decide (8 < fn.toNat) }
    d.toNat a.toNat 0 1 ⟨some .f32, none, none, none⟩ fun x => sfu fn.toNat x.a

/-! ## FP64 (R291) -/

def execDadd (p : LPre) (d a b : Byte) (s : State) : Out :=
  laneF2 s p d a b .x .f64 2 true (fltAdd .fp64 (modeOf p) (satBit p))
def execDmul (p : LPre) (d a b : Byte) (s : State) : Out :=
  laneF2 s p d a b .x .f64 2 true (fltMul .fp64 (modeOf p) (satBit p))
def execDfma (p : LPre) (d a b : Byte) (s : State) : Out :=
  laneF3 s p d a b .x .f64 .f64 (fltFma .fp64 (modeOf p) (satBit p))
def execDmin (p : LPre) (d a b : Byte) (s : State) : Out := laneF2 s p d a b .x .f64 2 false (Fmt.fp64.minMax false)
def execDmax (p : LPre) (d a b : Byte) (s : State) : Out := laneF2 s p d a b .x .f64 2 false (Fmt.fp64.minMax true)
def execDsetlt (p : LPre) (d a b : Byte) (s : State) : Out := laneF2 s p d a b .x .f64 1 false (cmpF .lt .fp64)
def execDseteq (p : LPre) (d a b : Byte) (s : State) : Out := laneF2 s p d a b .x .f64 1 false (cmpF .eq .fp64)

/-! ## RNG (R180, R292) -/

def execRng (p : LPre) (d : Byte) (s : State) : Out :=
  let f := Form.of .l (.dst 1) .field .field
  laneIssue s p f d.toNat 0 0 fun s t k =>
    let (mask, deadM) := effMask t p
    if mask = 0#1024 then passEmpty s p 1 deadM
    else
      let nexts := t.rng.map rngNext
      let t1 := t.writeLanes .l 1 k.d mask (pfxOf p).zm fun l => ((nexts.map (·.2)).getD l 0#32).toNat
      let rng := t.rng.zipIdx.map fun x => if mask.getLsbD x.2 then (rngNext x.1).1 else x.1
      s.setTeam s.cur ({ t1 with rng := rng }.laneEnd p f k 1 false)

/-! ## ACTV (R178, R293) -/

/-- ACTV's value over the 256 entries of a bank. -/
def actvValue (m : RMode) (sat : Bool) (entries : List DWord) (a : Nat) : Nat × FFlags :=
  let f := Fmt.fp32
  let x := f.read a
  match x with
  | .nan .. => f.nanResult [x] false
  | _ =>
    let i : Nat := match x with
      | .inf n => if n then 0 else 255
      | _ => (max 0 (min 255 ((x.real.shift 5).floor + 128))).toNat
    let e := (entries.getD i 0#64).toNat
    let kn := f.read (e % 2 ^ 32)
    let sl := f.read (e / 2 ^ 32)
    if kn.isNan || sl.isNan then f.nanResult [kn, sl] false
    else match x with
      | .inf n => if sl.isZero then (e % 2 ^ 32, FFlags.none) else f.roundInf m false (n != sl.sign)
      | _ =>
        let g : Dy := ⟨(i : Int) - 128, -5⟩
        let r := x.real.sub g
        f.fmaF m sat sl (.fin (decide (r.m < 0)) r) kn

/-- The bank that ACTV uses, if its launch filled it. -/
def actvBank (s : State) (t : Team) (n : Nat) : Option (List DWord) :=
  let tab := ((s.core t.coreNo).tables[n]?).getD ActTable.reset
  let bank := if tab.active then tab.bank1 else tab.bank0
  if bank.owner = some (t.key.q, t.key.seq) then some bank.entries else none

def execActv (p : LPre) (d a b : Byte) (s : State) : Out :=
  let f := { Form.of .x (.dst 1) (.src 1) .table with rounds := true, sat := true }
  laneIssue s p f d.toNat a.toNat b.toNat fun s t k =>
    let (mask, deadM) := effMask t p
    if mask = 0#1024 then passEmpty s p 1 deadM
    else
      let bank := actvBank s t (b.toNat - 224)
      let res := (List.range t.tl).map fun l =>
        if mask.getLsbD l then match bank with
          | some es => actvValue (modeOf p) (satBit p) es (opnd s t .x .f32 k.a l)
          | none => (poisonWord.toNat, FFlags.none)
        else (0, FFlags.none)
      let t1 := t.writeLanes .x 1 k.d mask (pfxOf p).zm fun l => (res.getD l (0, FFlags.none)).1
      let t1 := if bank.isNone then t1.raise poisonBit else t1
      s.setTeam s.cur ((t1.raiseFlags (orFlags (res.map (·.2)))).laneEnd p f k 1 (readsDead t .x k.a 1))

end Sys2Proof.Machine
end

