-- ==== Sys2Proof/Machine/LaneCross.lean ====
section
/-! DEFINITION. LaneCross: the cross-lane instructions (R153, R159, R294 to R298). -/

namespace Sys2Proof.Machine

/-- First lane of the span of a lane. -/
def spanBase (t : Team) (l : Nat) : Nat := l / t.cfg.spanS * t.cfg.spanS

/-- A cross-lane instruction: EFFECT sees the mask, operand A and operand B by lane, and the old D. -/
def laneCross (s : State) (p : LPre) (f : Form) (d a b w : Nat) (r : Reads)
    (eff : Team → Mask → (Nat → Nat) → (Nat → Nat) → (Nat → Nat) → Nat → Nat × FFlags) : Out :=
  laneIssue s p f d a b fun s t k =>
    let (mask, deadM) := effMask t p
    if mask = 0#1024 then passEmpty s p 1 deadM
    else
      let col (x : Option Kind) (code : Nat) : List Nat := (List.range t.tl).map fun l => readOpt s t .x x code l
      let av := col r.a k.a
      let bv := col r.b k.b
      let dv := match r.d with
        | some _ => (List.range t.tl).map fun l => oldDest t .x 1 k.d l
        | none => []
      let res := (List.range t.tl).map fun l =>
        if mask.getLsbD l then eff t mask (av.getD · 0) (bv.getD · 0) (dv.getD · 0) l else (0, FFlags.none)
      let t1 := t.writeLanes .x w k.d mask (pfxOf p).zm fun l => (res.getD l (0, FFlags.none)).1
      s.setTeam s.cur ((t1.raiseFlags (orFlags (res.map (·.2)))).laneEnd p f k 1 (r.dead t .x k))

/-- A shuffle: the source slane from the lane's slane, b and S (R295). -/
def shuffle (s : State) (p : LPre) (d a b : Byte) (src : Nat → Nat → Nat → Nat) : Out :=
  laneCross s p (Form.of .x (.dst 1) (.src 1) (.src 1)) d.toNat a.toNat b.toNat 1 ⟨some .i32, some .i32, none, none⟩
    fun t _ av bv _ l => noFlags (av (spanBase t l + src (l % t.cfg.spanS) (bv l) t.cfg.spanS))

def execShfl (p : LPre) (d a b : Byte) (s : State) : Out := shuffle s p d a b fun _ x n => x % n
def execShflx (p : LPre) (d a b : Byte) (s : State) : Out := shuffle s p d a b fun sl x n => sl ^^^ (x % n)
def execShflu (p : LPre) (d a b : Byte) (s : State) : Out := shuffle s p d a b fun sl x _ => if x ≤ sl then sl - x else sl
def execShfld (p : LPre) (d a b : Byte) (s : State) : Out :=
  shuffle s p d a b fun sl x n => if sl + x < n then sl + x else sl

/-- The active lanes of the span of `l`. -/
def activeSpan (t : Team) (mask : Mask) (l : Nat) : List Nat :=
  ((List.range t.cfg.spanS).map (spanBase t l + ·)).filter fun m => mask.getLsbD m

/-- BALLOT writes a pair when the span is 64 (R296). -/
def execBallot (p : LPre) (d a : Byte) (s : State) : Out :=
  withTeam s fun t0 =>
    let w := if t0.cfg.spanS = 64 then 2 else 1
    match laneCross s p (Form.of .x (.dst w) (.src 1) .field) d.toNat a.toNat 0 w ⟨some .i32, none, none, none⟩
      fun t mask av _ _ l => noFlags ((activeSpan t mask l).foldl (fun r m =>
        if av m % 2 = 1 then r + 2 ^ (m % t.cfg.spanS) else r) 0) with
    | .next s => s
    | _ => s

/-- A reduction over the active lanes of the span (R297). -/
def reduce (s : State) (p : LPre) (d a : Byte) (sat rounds : Bool) (k : Kind)
    (eff : Team → Mask → (Nat → Nat) → Nat → Nat × FFlags) : Out :=
  laneCross s p { Form.of .x (.dst 1) (.src 1) .field with sat := sat, rounds := rounds } d.toNat a.toNat 0 1
    ⟨some k, none, none, none⟩ fun t mask av _ _ l => eff t mask av l

def sumLanes (av : Nat → Nat) (ms : List Nat) : Int := (ms.map fun m => s32 (av m)).sum

def execRedadd (p : LPre) (d a : Byte) (s : State) : Out :=
  reduce s p d a true false .i32 fun t mask av l => noFlags (narrowSat (satBit p) 32 (sumLanes av (activeSpan t mask l)))

/-- One level of REDFADD's tree. -/
def treeLevel (m : RMode) (sat : Bool) : List Nat → List Nat × FFlags
  | x :: y :: r =>
    let v := fltAdd .fp32 m sat x y
    let rest := treeLevel m sat r
    (v.1 :: rest.1, v.2.or rest.2)
  | _ => ([], FFlags.none)

/-- REDFADD's tree of `2^n` values (R297). -/
def treeSum (m : RMode) (sat : Bool) : Nat → List Nat → Nat × FFlags
  | 0, xs => (xs.headD 0, FFlags.none)
  | n + 1, xs =>
    let l := treeLevel m sat xs
    let r := treeSum m sat n l.1
    (r.1, l.2.or r.2)

def execRedfadd (p : LPre) (d a : Byte) (s : State) : Out :=
  reduce s p d a true true .f32 fun t mask av l =>
    treeSum (modeOf p) (satBit p) (Nat.log2 t.cfg.spanS) ((List.range t.cfg.spanS).map fun j =>
      let m := spanBase t l + j
      if mask.getLsbD m then av m else 2 ^ 31)

def execRedmax (p : LPre) (d a : Byte) (s : State) : Out :=
  reduce s p d a false false .i32 fun t mask av l =>
    noFlags ((activeSpan t mask l).foldl (fun r m => aluImax r (av m)) (2 ^ 31))
def execRedmin (p : LPre) (d a : Byte) (s : State) : Out :=
  reduce s p d a false false .i32 fun t mask av l =>
    noFlags ((activeSpan t mask l).foldl (fun r m => aluImin r (av m)) (2 ^ 31 - 1))
def execScanadd (p : LPre) (d a : Byte) (s : State) : Out :=
  reduce s p d a true false .i32 fun t mask av l =>
    noFlags (narrowSat (satBit p) 32 (sumLanes av ((activeSpan t mask l).filter fun m => decide (m ≤ l))))

/-- BXCH's distance is a power of two below S (R298). -/
def bxchDistance (k sp : Nat) : Bool := decide (k < sp) && (k == 1 || k == 2 || k == 4 || k == 8 || k == 16 || k == 32)

def execBxch (p : LPre) (d a b : Byte) (s : State) : Out :=
  laneCross s p (Form.of .x .xch (.src 1) (.src 1)) d.toNat a.toNat b.toNat 1 ⟨some .i32, some .i32, none, some .i32⟩
    fun t _ av bv dv l =>
      let k := bv 0
      noFlags (
        if !bxchDistance k t.cfg.spanS then dv l
        else
          let low := fieldOf (l % t.cfg.spanS) (Nat.log2 k) 1 == 0
          let lo := if low then l else l - k
          let t' := ((dv lo / 2 ^ k) ^^^ dv (lo + k)) &&& av lo
          if low then (dv lo ^^^ (t' * 2 ^ k)) % 2 ^ 32 else dv (lo + k) ^^^ t')

end Sys2Proof.Machine
end

