-- ==== Sys2Proof/Machine/Uniform.lean ====
section
/-! DEFINITION. Uniform: the uniform arithmetic of R299: each takes the effect of a lane form on lane 0 and writes every
lane. -/

namespace Sys2Proof.Machine

/-- A form with two 32-bit sources. -/
def uniInt (s : State) (r : Option Rep) (d a b : Byte) (f : Nat → Nat → Nat) : Out :=
  uniCompute s r (Form.of .u (.dst 1) (.src 1) (.src 1)) d.toNat a.toNat b.toNat 1
    ⟨some .i32, some .i32, none, none⟩ fun x => f x.a x.b

/-- A form with one 32-bit source. -/
def uniInt1 (s : State) (r : Option Rep) (d a : Byte) (f : Nat → Nat) : Out :=
  uniCompute s r (Form.of .u (.dst 1) (.src 1) .field) d.toNat a.toNat 0 1
    ⟨some .i32, none, none, none⟩ fun x => f x.a

/-- A form that also reads D. -/
def uniIntD (s : State) (r : Option Rep) (d a b : Byte) (f : Nat → Nat → Nat → Nat) : Out :=
  uniCompute s r (Form.of .u (.rmw 1) (.src 1) (.src 1)) d.toNat a.toNat b.toNat 1
    ⟨some .i32, some .i32, none, some .i32⟩ fun x => f x.d x.a x.b

/-- A result of `w` bits without saturation. -/
def wrapBits (w : Nat) (i : Int) : Nat := narrowSat false w i

def execUnop (r : Option Rep) (s : State) : Out :=
  uniIssue s r (Form.of .u .field .field .field) 0 0 0 fun s _ _ => s.modTeam s.cur fun t => t.passRep r 1

def execUmov (r : Option Rep) (d a : Byte) (s : State) : Out := uniInt1 s r d a fun x => x

def execUmovi (r : Option Rep) (d : Byte) (i : BitVec 16) (s : State) : Out :=
  uniCompute s r (Form.of .u (.dst 1) .field .field) d.toNat 0 0 1 ⟨none, none, none, none⟩
    fun _ => intBits 32 i.toInt

def execUmovhi (r : Option Rep) (d : Byte) (i : BitVec 16) (s : State) : Out :=
  uniCompute s r (Form.of .u (.rmw 1) .field .field) d.toNat 0 0 1 ⟨none, none, none, some .i32⟩
    fun x => i.toNat * 2 ^ 16 + x.d % 2 ^ 16

def execUiadd (r : Option Rep) (d a b : Byte) (s : State) : Out := uniInt s r d a b fun x y => wrapBits 32 (s32 x + s32 y)
def execUisub (r : Option Rep) (d a b : Byte) (s : State) : Out := uniInt s r d a b fun x y => wrapBits 32 (s32 x - s32 y)

def execUiaddi (r : Option Rep) (d : Byte) (i : BitVec 16) (s : State) : Out :=
  uniCompute s r (Form.of .u (.rmw 1) .field .field) d.toNat 0 0 1 ⟨none, none, none, some .i32⟩
    fun x => wrapBits 32 (s32 x.d + i.toInt)

def execUimul (r : Option Rep) (d a b : Byte) (s : State) : Out := uniInt s r d a b fun x y => wrapBits 32 (s32 x * s32 y)
def execUimad (r : Option Rep) (d a b : Byte) (s : State) : Out :=
  uniIntD s r d a b fun x y z => wrapBits 32 (s32 y * s32 z + s32 x)

def execUiadd64 (r : Option Rep) (d a b : Byte) (s : State) : Out :=
  uniCompute s r (Form.of .u (.dst 2) (.src 2) (.src 2)) d.toNat a.toNat b.toNat 2
    ⟨some .i64, some .i64, none, none⟩ fun x => wrapBits 64 (sext 64 x.a + sext 64 x.b)

def execUminUni (r : Option Rep) (d a b : Byte) (s : State) : Out := uniInt s r d a b aluImin
def execUmaxUni (r : Option Rep) (d a b : Byte) (s : State) : Out := uniInt s r d a b aluImax
def execUand (r : Option Rep) (d a b : Byte) (s : State) : Out := uniInt s r d a b fun x y => x &&& y
def execUor (r : Option Rep) (d a b : Byte) (s : State) : Out := uniInt s r d a b fun x y => x ||| y
def execUxor (r : Option Rep) (d a b : Byte) (s : State) : Out := uniInt s r d a b fun x y => x ^^^ y
def execUshl (r : Option Rep) (d a b : Byte) (s : State) : Out := uniInt s r d a b aluShl
def execUshr (r : Option Rep) (d a b : Byte) (s : State) : Out := uniInt s r d a b aluShr
def execUsar (r : Option Rep) (d a b : Byte) (s : State) : Out := uniInt s r d a b aluSar
def execUbfx (r : Option Rep) (d a b : Byte) (s : State) : Out := uniInt s r d a b aluBfx
def execUbfi (r : Option Rep) (d a b : Byte) (s : State) : Out := uniIntD s r d a b aluBfi
def execUpopc (r : Option Rep) (d a : Byte) (s : State) : Out := uniInt1 s r d a aluPopc
def execUclz (r : Option Rep) (d a : Byte) (s : State) : Out := uniInt1 s r d a aluClz
def execUsel (r : Option Rep) (d a b : Byte) (s : State) : Out := uniIntD s r d a b fun x y z => if x % 2 = 1 then y else z
def execUiseteq (r : Option Rep) (d a b : Byte) (s : State) : Out := uniInt s r d a b fun x y => oneIf (x == y)
def execUisetne (r : Option Rep) (d a b : Byte) (s : State) : Out := uniInt s r d a b fun x y => oneIf (x != y)
def execUisetlt (r : Option Rep) (d a b : Byte) (s : State) : Out :=
  uniInt s r d a b fun x y => oneIf (decide (s32 x < s32 y))
def execUisetle (r : Option Rep) (d a b : Byte) (s : State) : Out :=
  uniInt s r d a b fun x y => oneIf (decide (s32 x ≤ s32 y))
def execUusetlt (r : Option Rep) (d a b : Byte) (s : State) : Out := uniInt s r d a b fun x y => oneIf (decide (x < y))
def execUusetle (r : Option Rep) (d a b : Byte) (s : State) : Out := uniInt s r d a b fun x y => oneIf (decide (x ≤ y))

end Sys2Proof.Machine
end

