-- ==== Sys2Proof/Machine/Control.lean ====
section
/-! DEFINITION. Control: transfers of control, structured divergence, EXIT, TRAP, BKPT and YIELD (R155, R156, R300 to R307). -/

namespace Sys2Proof.Machine

/-! ## Transfers (R252, R300, R301) -/

/-- The target of an offset of words from the base word at `pc`. -/
def targetOf (pc : Nat) (off : Int) : Nat := intBits 64 ((pc : Int) + 4 * off)

/-- An instruction of the U pipe with one operand field, in the place of D's source roles. -/
def uniForm (a : Role) : Form := Form.of .u .field a .field

def execJmp (o : BitVec 24) (s : State) : Out :=
  uniIssue s none (uniForm .field) 0 0 0 fun s t _ => s.setTeam s.cur (t.jump (targetOf t.pc o.toInt))

def execCall (o : BitVec 24) (s : State) : Out :=
  uniIssue s none { uniForm .field with regs := [158, 159] } 0 0 0 fun s t _ =>
    s.setTeam s.cur ((t.writeUni .u 2 158 (t.pc + 4)).jump (targetOf t.pc o.toInt))

/-- A jump to an address that an operand gives: PFAULT or ALIGN on an unfit one (R250). -/
def jumpTo (s : State) (t : Team) (target : Nat) (dead : Bool) : State :=
  if 2 ^ 55 ≤ target then trapAt s s.cur ⟨.pfault, 2, 0, target⟩
  else if target % 4 ≠ 0 then trapAt s s.cur ⟨.align, 0, 0, target⟩
  else s.setTeam s.cur ((t.noteDead dead).jump target)

def execRet (s : State) : Out :=
  uniIssue s none { uniForm .field with regs := [158, 159] } 0 0 0 fun s t _ =>
    jumpTo s t (joinWords 2 fun i => t.regAt (158 + i) 0) (t.isDead 158 || t.isDead 159)

def execJmpr (a : Byte) (s : State) : Out :=
  uniIssue s none (uniForm (.src 2)) 0 a.toNat 0 fun s t k =>
    jumpTo s t (opnd s t .u .i64 k.a 0) (readsDead t .u k.a 2)

/-- A uniform branch on a test of its operand. -/
def uniBranch (s : State) (r : Byte) (o : BitVec 16) (taken : Nat → Bool) : Out :=
  uniIssue s none (uniForm (.src 1)) 0 r.toNat 0 fun s t k =>
    let t1 := t.noteDead (readsDead t .u k.a 1)
    s.setTeam s.cur (if taken (opnd s t .u .i32 k.a 0) then t1.jump (targetOf t.pc o.toInt) else t1.pass 1)

def execUbrz (r : Byte) (o : BitVec 16) (s : State) : Out := uniBranch s r o fun v => v == 0
def execUbrnz (r : Byte) (o : BitVec 16) (s : State) : Out := uniBranch s r o fun v => v != 0

/-! ## Structured divergence (R155, R156, R302, R303) -/

/-- The set of lanes in which an operand has bit 0 set. -/
def condMask (s : State) (t : Team) (code : Nat) : Mask :=
  (List.range t.tl).foldl (fun (m : Mask) l => if opnd s t .u .i32 code l % 2 = 1 then m ||| (1#1024 <<< l) else m) 0#1024

/-- The innermost LOOP entry of a stack whose top comes first. -/
def innerLoop (st : List CtlEntry) : Option CtlEntry := st.find? fun e => e.kind == .loopK

/-- LIVE() for the entries below the top. -/
def liveMask (below : List CtlEntry) : Mask :=
  match innerLoop below with
  | some e => ~~~(e.brk ||| e.cnt)
  | none => ~~~0#1024

/-- A structured transfer to an instruction of a required kind. -/
def Team.jumpExpecting (t : Team) (target e : Nat) : Team := { t.jump target with expect := some e }

def execIfI (r : Byte) (o : BitVec 16) (s : State) : Out :=
  uniIssue s none (uniForm (.src 1)) 0 r.toNat 0 fun s t k =>
    if 64 ≤ t.stack.length then trapCause s s.cur .maskovf
    else
      let c := condMask s t k.a
      let m := t.mask &&& c
      let e : CtlEntry := ⟨.ifK, t.mask, t.mask &&& ~~~c, 0#1024, 0#1024, 0⟩
      let t1 := { t.noteDead (readsDead t .u k.a 1) with stack := e :: t.stack, mask := m }
      s.setTeam s.cur (if m = 0#1024 then t1.jumpExpecting (targetOf t.pc o.toInt) expectIf else t1.pass 1)

def execElseI (o : BitVec 24) (s : State) : Out :=
  uniIssue s none { uniForm .field with meets := [expectIf] } 0 0 0 fun s t _ =>
    match t.stack with
    | ⟨.ifK, saved, other, brk, cnt, tg⟩ :: below =>
      let m := other &&& liveMask below
      let t1 := { t with stack := ⟨.elseK, saved, other, brk, cnt, tg⟩ :: below, mask := m }
      s.setTeam s.cur (if m = 0#1024 then t1.jumpExpecting (targetOf t.pc o.toInt) expectElse else t1.pass 1)
    | _ => trapCause s s.cur .illins

def execEndif (s : State) : Out :=
  uniIssue s none { uniForm .field with meets := [expectIf, expectElse] } 0 0 0 fun s t _ =>
    match t.stack with
    | e :: below =>
      if e.kind = .loopK then trapCause s s.cur .illins
      else
        let t1 := { t with stack := below, mask := e.saved &&& liveMask below }
        s.setTeam s.cur (t1.pass 1)
    | [] => trapCause s s.cur .illins

def execLoop (o : BitVec 24) (s : State) : Out :=
  uniIssue s none (uniForm .field) 0 0 0 fun s t _ =>
    if 64 ≤ t.stack.length then trapCause s s.cur .maskovf
    else
      let e : CtlEntry := ⟨.loopK, t.mask, 0#1024, 0#1024, 0#1024, targetOf t.pc o.toInt⟩
      let t1 := { t with stack := e :: t.stack }
      s.setTeam s.cur (t1.pass 1)

/-- BRK and CONT: `mark` puts the leaving lanes into the innermost LOOP entry. -/
def leaveLoop (s : State) (r : Byte) (mark : CtlEntry → Mask → CtlEntry) : Out :=
  uniIssue s none (uniForm (.src 1)) 0 r.toNat 0 fun s t k =>
    match innerLoop t.stack with
    | none => trapCause s s.cur .illins
    | some e =>
      let c := condMask s t k.a
      let e := mark e (t.mask &&& c)
      let above := t.stack.takeWhile fun x => x.kind != .loopK
      let below := (t.stack.dropWhile fun x => x.kind != .loopK).drop 1
      let m := t.mask &&& ~~~c
      let t0 := t.noteDead (readsDead t .u k.a 1)
      let t1 :=
        if m = 0#1024 then { t0 with stack := e :: below, mask := m }.jumpExpecting e.target expectBrk
        else { t0 with stack := above ++ e :: below, mask := m }.pass 1
      s.setTeam s.cur t1

def execBrk (r : Byte) (s : State) : Out := leaveLoop s r fun e m => { e with brk := e.brk ||| m }
def execCont (r : Byte) (s : State) : Out := leaveLoop s r fun e m => { e with cnt := e.cnt ||| m }

/-- ENDLOOP's transfer back is none of R162's taken transfers. -/
def execEndloop (o : BitVec 24) (s : State) : Out :=
  uniIssue s none { uniForm .field with meets := [expectBrk] } 0 0 0 fun s t _ =>
    match t.stack with
    | ⟨.loopK, saved, other, brk, cnt, tg⟩ :: below =>
      let live := saved &&& ~~~brk
      let again := { t with stack := ⟨.loopK, saved, other, brk, 0#1024, tg⟩ :: below, mask := live }
      let over' := { t with stack := below, mask := saved }
      let _ := cnt
      s.setTeam s.cur (if live ≠ 0#1024 then { again.jump (targetOf t.pc o.toInt) with moved := false } else over'.pass 1)
    | _ => trapCause s s.cur .illins

/-- UANY (R304). -/
def execUany (d a : Byte) (s : State) : Out :=
  uniIssue s none (Form.of .u (.dst 1) (.src 1) .field) d.toNat a.toNat 0 fun s t k =>
    let v := oneIf (t.mask &&& condMask s t k.a != 0#1024)
    s.setTeam s.cur (((t.noteDead (readsDead t .u k.a 1)).writeUni .u 1 k.d v).pass 1)

/-! ## Team control (R149, R223, R305 to R307) -/

/-- EXIT waits for the team's accesses and operations, takes a pending cause, and ends the team. -/
def execExit (s : State) : Out :=
  uniIssue s none (uniForm .field) 0 0 0 fun s t _ =>
    let s := drainOps (settleAll s s.cur) t.key
    match (s.teamOf t.key).bind (·.pending) with
    | some i => trapAt s s.cur i
    | none => endTeam s s.cur

/-- TRAP's trap follows its REGION, with the return address after it (R168, R219). -/
def execTrap (n : Byte) (s : State) : Out :=
  uniIssue s none (uniForm .field).closed 0 0 0 fun s _ _ =>
    let s := settleAll s s.cur
    match (s.teams[s.cur]?).bind (·.pending) with
    | some i => trapAt s s.cur i
    | none => closing s 1 (fun s _ => .ok s) fun s => trapAt s s.cur ⟨.trapi, n.toNat, 0, 0⟩

/-- BKPT returns to the next instruction (R219). -/
def execBkpt (n : Byte) (s : State) : Out :=
  uniIssue s none (uniForm .field) 0 0 0 fun s t _ => takeTrap s s.cur ⟨.bkpt, n.toNat, 0, 0⟩ (t.pc + 4)

/-- YIELD makes the team the youngest of its active set (R139). -/
def execYield (s : State) : Out :=
  uniIssue s none (uniForm .field) 0 0 0 fun s t _ =>
    let now := (s.die t.die).cycle
    let t1 := { t with age := now }
    s.setTeam s.cur (t1.pass 1)

end Sys2Proof.Machine
end

