-- ==== Sys2Proof/Machine/System.lean ====
section
/-! DEFINITION. System: REGION, the operand cache, allotment, system registers and the return from a trap (R134, R135, R164,
R167, R170, R222, R224, R308 to R315). -/

namespace Sys2Proof.Machine

/-! ## Regions and the operand cache (R164, R167, R308 to R310) -/

/-- REGION: a listed register at the allotment or above is found with the named registers of R264; a mask of too many registers is the
instruction's own cause. -/
def execRegion (live : BitVec 160) (s : State) : Out :=
  let beyond := match s.teams[s.cur]? with
    | some t => (liveRegs live).filter fun r => decide (t.allot ≤ r)
    | none => []
  uniIssue s none { uniForm .field with regs := beyond } 0 0 0 fun s t _ =>
    if regionBound t live then trapCause s s.cur .regbound
    else
      waitFor s s.cur (liveRegs live) false fun s => afterWait s fun s _ =>
        s.modTeam s.cur fun t => (t.checkpoint live (t.pc + 24)).pass 6

/-- The registers that OCLD lists. -/
def ocldRegs (ws : List Word) : List Nat := ((ocldEntries ws).filter (· != 0xFF#8)).map BitVec.toNat

/-- One register filled: a void entry in place, an untagged one at the end, in the place of the earliest of 16. -/
def fillTag (oc : List (Nat × Bool)) (r : Nat) : List (Nat × Bool) :=
  if oc.any fun e => e.1 == r then oc.map fun e => if e.1 = r then (r, true) else e
  else (if 16 ≤ oc.length then oc.drop 1 else oc) ++ [(r, true)]

def execOcld (ws : List Word) (s : State) : Out :=
  let more := (ocldRegs ws).map fun r => (Role.run 1, r)
  let es := ocldEntries ws
  let gap := es.head? == some 0xFF#8 || (es.dropWhile (· != 0xFF#8)).any fun e => decide (e.toNat < 160)
  uniIssue s none { uniForm .field with more := more, ill := gap } 0 0 0 fun s t _ =>
    let oc := (ocldRegs ws).foldl fillTag t.ocache
    let t1 := { t with ocache := oc }
    s.setTeam s.cur (t1.pass (ws.length + 1))

def execOcdrop (a b : Byte) (s : State) : Out :=
  uniIssue s none (Form.of .u .field .optReg .optReg) 0 a.toNat b.toNat fun s t k =>
    let oc := t.ocache.filter fun e => e.1 != k.a && e.1 != k.b
    let t1 := { t with ocache := oc }
    s.setTeam s.cur (t1.pass 1)

def execOcdropAll (s : State) : Out :=
  uniIssue s none (uniForm .field) 0 0 0 fun s t _ =>
    let t1 := { t with ocache := [] }
    s.setTeam s.cur (t1.pass 1)

/-! ## Allotment (R134, R135, R170, R175, R311, R312) -/

/-- Lane-registers of a partition that teams hold (R126). -/
def regsUsed (s : State) (core part : Nat) : Nat :=
  ((s.teams.filter fun t => t.coreNo == core && t.part == part).map fun t => t.allot * t.tl).sum

def partitionRegs : Nat := 65536

/-- A team's registers grow to a count; the new ones hold zero. -/
def Team.growRegs (t : Team) (n : Nat) : Team :=
  let add := List.replicate (n - t.allot) (zeroLanes t.tl)
  { t with regs := t.regs ++ add }

/-- Units that a team holds, by 512 × block core + unit. -/
def Block.unitsOf (b : Block) (num : Nat) : List Nat := (b.units.filter fun u => u.2 == .held num).map (·.1)

def unitsHeld (s : State) (t : Team) : List Nat :=
  match s.blockOf t.key with
  | some b => b.unitsOf t.key.num
  | none => []

def Team.accRows (t : Team) : Nat := (t.accRun.map (·.2)).getD 0

/-- The results of ALLOC: the buffer handle of its units and its first row, or 0 where it has none. -/
def allocResult (s : State) (t : Team) : Nat :=
  let h := match unitsHeld s t with
    | [] => 0
    | u :: r => match t.tileRun with
      | some (f, n) => makeHandle t.blockCore f n
      | none => makeHandle (u / 512) (u % 512) (r.length + 1)
  h + 2 ^ 32 * ((t.accRun.map (·.1)).getD 0)

/-- ALLOC completes for a team: with RES its results are written. -/
def allocDone (s : State) (t : Team) (dst : Option Nat) : Team :=
  (match dst with
    | some d => t.writeUni .u 2 d (allocResult s t)
    | none => t).pass 2

/-- ALLOC completes for the running team. -/
def allocEnd (s : State) (dst : Option Nat) : State :=
  match s.teams[s.cur]? with
  | none => s
  | some t => s.setTeam s.cur (allocDone s t dst)

/-- The request at the head of a core's queue is admitted if its registers fit. A team that waits completes its ALLOC, and is at
the boundary after it, its latches void (R135, R163). -/
def admitHead (s : State) (core : Nat) : State :=
  match (s.core core).allocQ with
  | [] => s
  | a :: rest =>
    match s.teamOf a.team with
    | none => s.modCore core fun k => { k with allocQ := rest }
    | some t =>
      if regsUsed s core t.part + (a.regs - t.allot) * t.tl ≤ partitionRegs then
        let s := s.modCore core fun k => { k with allocQ := rest }
        let s := s.modKey a.team fun t => t.growRegs a.regs
        if t.park = some .alloc then unparkKey (s.modKey a.team fun t => (allocDone s t a.dst).voidAll) a.team else s
      else s

/-- The runs of ALLOC are taken: units held and reading as zero, rows holding zero (R175, R357). -/
def takeRuns (s : State) (t : Team) (b : Block) (tile first acc row : Nat) : State :=
  let bc := t.blockCore
  let s := s.modBlock t.key fun b =>
    let units := (List.range tile).foldl (fun u i => put (512 * bc + first + i) (.held t.key.num) u) b.units
    let runs := if acc = 0 then b.accRuns else b.accRuns ++ [(bc, row, acc, t.key.num)]
    { b with units := units, accRuns := runs }
  let s := clearTile s t.coreNo (b.tileBase.getD bc 0 + first) tile
  let s := clearAcc s t.coreNo (accRow b bc row) acc
  s.modKey t.key fun t =>
    let tr := if tile = 0 then none else some (first, tile)
    let ar := if acc = 0 then none else some (row, acc)
    { t with tileRun := tr, accRun := ar, allotted := true }

def execAlloc (d : Byte) (res : Bool) (acc : BitVec 12) (tile : BitVec 10) (regs : BitVec 5) (s : State) : Out :=
  let f := Form.of .u (if res then .pair else .field) .field .field
  let bad := decide (2048 < acc.toNat) || decide (512 < tile.toNat)
  uniIssue s none { f with ill := bad } d.toNat 0 0 fun s t k =>
    let n := 8 * regs.toNat
    let dst := if res then some k.d else none
    let held := (unitsHeld s t).length
    if n = t.allot ∧ tile.toNat = held ∧ acc.toNat = t.accRows then allocEnd s dst
    else if t.cfg.pregs < t.allot ∨ 0 < held ∨ 0 < t.accRows ∨ n < t.cfg.pregs then trapCause s s.cur .illins
    else if t.cfg.regs < n then trapCause s s.cur .regbound
    else match s.blockOf t.key with
      | none => s
      | some b =>
        match lowestRun (b.takenUnits t.blockCore) b.tileLen tile.toNat with
        | none => trapCause s s.cur .tilebound
        | some first =>
          match lowestRun (b.takenRows t.blockCore) b.accLen acc.toNat with
          | none => trapCause s s.cur .accbound
          | some row =>
            let s := takeRuns s t b tile.toNat first acc.toNat row
            let now := (s.die t.die).issueCycle
            let s := s.modCore t.coreNo fun c => { c with allocQ := c.allocQ ++ [⟨t.key, n, now, dst⟩] }
            let s := admitHead s t.coreNo
            if (s.core t.coreNo).allocQ.any fun a => a.team == t.key then
              parkTeam (s.countDie t.die .allocwait) s.cur .alloc
            else allocEnd s dst

/-- What FREE returns: units held, rows, registers above PREGS. -/
def freeAllot (s : State) (t : Team) : State :=
  let s := s.modBlock t.key fun b =>
    let units := b.units.filter fun u => u.2 != .held t.key.num
    let runs := b.accRuns.filter fun r => r.2.2.2 != t.key.num
    { b with units := units, accRuns := runs }
  s.modKey t.key fun t =>
    let keep := BitVec.ofNat 160 (2 ^ t.cfg.pregs - 1)
    { t with regs := t.regs.take t.cfg.pregs, dead := t.dead &&& keep, accRun := none, tileRun := none, allotted := false }

/-- FREE waits for the team's operations; its checkpoint is then an empty one (R170). -/
def execFree (s : State) : Out :=
  uniIssue s none (uniForm .field) 0 0 0 fun s t _ =>
    let s := freeAllot (drainOps (settleAll s s.cur) t.key) t
    s.modTeam s.cur fun t =>
      let c : Checkpoint := ⟨[], t.mask, t.stack, t.fibres, t.rng, t.pc + 8, true⟩
      let t1 := { t with ckpt := c }
      t1.pass 2

/-! ## System registers (R224, R225, R313, R314) -/

inductive SysAccess where
  | rw | ro
deriving DecidableEq, Repr

/-- Access and privilege of a selector; SIGCLR is an instruction of its own. -/
def sysSel (n : Nat) : Option (SysAccess × Bool) :=
  if n ≤ 1 then some (.rw, false)
  else if n ≤ 4 then some (.ro, false)
  else if n < 8 then none
  else if n ≤ 0x0A then some (.rw, true)
  else if n ≤ 0x0F then some (.ro, true)
  else if n ≤ 0x13 then some (.rw, true)
  else if n ≤ 0x15 then some (.ro, true)
  else none

/-- The 32 bits [31:0] or [63:32] of a value. -/
def halfOf (v : Nat) (hi : Bool) : Nat := if hi then v / 2 ^ 32 % 2 ^ 32 else v % 2 ^ 32

/-- The value of a selector. -/
def sysRead (s : State) (t : Team) (n : Nat) : Nat :=
  match n with
  | 0x00 => t.status.toNat
  | 0x01 => t.trapen.toNat
  | 0x02 => oneIf t.priv + 2 * oneIf t.cfg.viewadm
  | 0x03 => s.devnum
  | 0x04 => t.cfg.asid
  | 0x08 => t.cause
  | 0x09 => halfOf t.epc false
  | 0x0A => halfOf t.epc true
  | 0x0B => halfOf t.faddr false
  | 0x0C => halfOf t.faddr true
  | 0x0D => t.flane
  | 0x0E => halfOf t.ckpt.head false
  | 0x0F => halfOf t.ckpt.head true
  | 0x10 => (t.tscr.getD 0 0#32).toNat
  | 0x11 => (t.tscr.getD 1 0#32).toNat
  | 0x12 => (t.tscr.getD 2 0#32).toNat
  | 0x13 => (t.tscr.getD 3 0#32).toNat
  | 0x14 => halfOf t.cfg.tba false
  | 0x15 => halfOf t.cfg.tba true
  | _ => 0

/-- A write of a selector; reserved bits are not written (R8). -/
def Team.sysWrite (t : Team) (n v : Nat) : Team :=
  match n with
  | 0x00 => { t with status := BitVec.ofNat 32 v &&& 0x1F03#32 }
  | 0x01 => { t with trapen := BitVec.ofNat 32 v &&& 1#32 }
  | 0x08 => { t with cause := v % 2 ^ 22 }
  | 0x09 => { t with epc := t.epc / 2 ^ 32 * 2 ^ 32 + v }
  | 0x0A => { t with epc := t.epc % 2 ^ 32 + 2 ^ 32 * v }
  | 0x10 => { t with tscr := t.tscr.set 0 (BitVec.ofNat 32 v) }
  | 0x11 => { t with tscr := t.tscr.set 1 (BitVec.ofNat 32 v) }
  | 0x12 => { t with tscr := t.tscr.set 2 (BitVec.ofNat 32 v) }
  | 0x13 => { t with tscr := t.tscr.set 3 (BitVec.ofNat 32 v) }
  | _ => t

/-- The form of an access to a selector: ILLINS where it is none or the access is not allowed. -/
def sysForm (d a : Role) (n : Nat) (write : Bool) : Form :=
  match sysSel n with
  | some (acc, pr) => { Form.of .u d a .field with ill := write && acc == .ro, priv := pr }
  | none => { Form.of .u d a .field with ill := true }

def execSrd (d sel : Byte) (s : State) : Out :=
  uniIssue s none (sysForm (.dst 1) .field sel.toNat false) d.toNat 0 0 fun s t k =>
    s.setTeam s.cur ((t.writeUni .u 1 k.d (sysRead s t sel.toNat)).pass 1)

def execSwr (src : Byte) (sel : BitVec 16) (s : State) : Out :=
  uniIssue s none (sysForm .field (.src 1) sel.toNat true) 0 src.toNat 0 fun s t k =>
    s.setTeam s.cur (((t.noteDead (readsDead t .u k.a 1)).sysWrite sel.toNat (opnd s t .u .i32 k.a 0)).pass 1)

/-! ## Return (R222, R315) -/

/-- Return to the instruction. -/
def Team.rtt (t : Team) : Team :=
  { t.voidAll with
    mask := t.smask, priv := false, pc := t.epc, repIdx := fieldOf t.cause 16 6, expect := none, moved := false }

def execRtt (s : State) : Out :=
  uniIssue s none { uniForm .field with priv := true } 0 0 0 fun s t _ =>
    if t.stack.length ≠ t.sdepth then trapCause s s.cur .illins else s.setTeam s.cur t.rtt

/-- Return to the region head. -/
def execRttHead (s : State) : Out :=
  uniIssue s none { uniForm .field with priv := true } 0 0 0 fun s _ _ =>
    (settleAll s s.cur).modTeam s.cur fun t =>
      let t1 := { t with priv := false }
      t1.restart

end Sys2Proof.Machine
end

