-- ==== Sys2Proof/Machine/LaneMem.lean ====
section
/-! DEFINITION. LaneMem: lane loads and stores, STBM, the tile-store forms and the fibre loads (R317 to R326, R353), and the
uniform loads and stores (R331), over frames that the ordered accesses share. -/

namespace Sys2Proof.Machine

/-! ## Addresses and frames (R317, R318) -/

/-- An address that a sum gives from a pair: a pair with a bit set in [63:55] is the address that faults, where the sum has none
(R319, log entry 115). -/
def fromPair (pair sum : Nat) : Nat := if 2 ^ 55 ≤ pair ∧ sum < 2 ^ 55 then pair else sum

/-- EA: an address pair plus an offset field in units of `n`. -/
def effAddr (pair : Nat) (off : Byte) (n : Nat) : Nat := fromPair pair (intBits 64 ((pair : Int) + off.toInt * n))

/-- A lane memory instruction: after its checks and waits, `body` with its mask, unless that is empty (R152, R320). -/
def laneMem (s : State) (p : LPre) (f : Form) (d a b base : Nat) (body : State → Team → Codes → Mask → State) : Out :=
  laneIssue s p f d a b fun s t k =>
    let (mask, deadM) := effMask t p
    if mask = 0#1024 then passEmpty s p base deadM else body s t k mask

def lanesOf (t : Team) (mask : Mask) : List Nat := (List.range t.tl).filter fun l => mask.getLsbD l

/-- Requests: the distinct base lines of each pass (R325). -/
def needOf (rs : List (Nat × Tgt)) : Nat :=
  ((passesOf Prod.fst rs).map fun p => ((p.flatMap fun x => x.2.lines).dedup).length).sum

/-- An instruction whose checks walked or filled a view cache waits for that, once. -/
def mustWait (s0 s1 : State) (t : Team) : Bool := !t.walked && hasWaited s0 s1 t.coreNo

/-- The accesses of a lane or uniform instruction, checked in every lane and granted entries; `sends` tells which lanes make
a request, and `extra` is a failure that the instruction adds. An error is the state after the trap, the wait or the rejection. -/
def targets (s : State) (t : Team) (f : AccForm) (addrs : List (Nat × Nat)) (sends : Nat → Bool) (extra : List Fail) :
    Except State (State × List (Nat × Tgt)) :=
  let (r, s1) := resolve s t.who f addrs
  match worst (r.fail.toList ++ extra) with
  | some x => .error (failAfter s (stainTeam s1 s.cur r.poison) s.cur t x)
  | none =>
    if mustWait s s1 t then .error (parkFill (resolveLanes s t.who f addrs).2.2 s.cur)
    else if entriesFree s1 t (needOf (r.tgts.filter fun x => sends x.1)) then .ok (stainTeam s1 s.cur r.poison, r.tgts)
    else .error (reject s s.cur .entries (min (needOf (r.tgts.filter fun x => sends x.1)) 1024))

/-- The same, then performed by `go`. -/
def withTargets (s : State) (t : Team) (f : AccForm) (addrs : List (Nat × Nat)) (sends : Nat → Bool)
    (go : State → List (Nat × Tgt) → State) : State :=
  match targets s t f addrs sends [] with
  | .error s => s
  | .ok (s, tgts) => go s tgts

/-- Outstanding loads of a team that read one of the base words arrive (R187: one word in program order). -/
def settleWords (s : State) (k : Nat) (ws : List Nat) : State :=
  settleLoads s k fun r => r.reads.any fun x => x.2.wordNames.any ws.contains

/-! ## Loads (R321, R324) -/

/-- What a load still outstanding keeps of its instruction. -/
structure LoadForm where
  n : Nat
  signed : Bool
  uni : Bool
  zm : Bool

/-- The load's requests go out. -/
def postLoad (s : State) (d : Nat) (f : LoadForm) (tgts : List (Nat × Tgt)) : State :=
  s.modTeam s.cur fun t =>
    let r : LoadReq := ⟨d, f.n, f.signed, f.uni, f.zm, needOf tgts, tgts⟩
    { t with loads := t.loads ++ [r] }

/-- After a lane memory instruction: dead marks, DEADREAD and the pc. -/
def endLane (s : State) (p : LPre) (f : Form) (k : Codes) (base : Nat) (dead : Bool) : State :=
  s.modTeam s.cur fun t => t.laneEnd p f k base dead

/-- A plain lane load of `n` bytes. -/
def laneLoad (s : State) (p : LPre) (d a o : Byte) (n : Nat) (signed : Bool) : Out :=
  let f := Form.of .m (.dst (ceilDiv n 4)) .pair .field
  laneMem s p f d.toNat a.toNat o.toNat 1 fun s t k mask =>
    let addrs := (lanesOf t mask).map fun l => (l, effAddr (opnd s t .m .i64 k.a l) o n)
    withTargets s t ⟨n, .read, false, false⟩ addrs (fun _ => true) fun s tgts =>
      endLane (postLoad s k.d ⟨n, signed, false, (pfxOf p).zm⟩ tgts) p f k 1 (readsDead t .m k.a 2)

def execLdb (p : LPre) (d a o : Byte) (s : State) : Out := laneLoad s p d a o 1 false
def execLdbs (p : LPre) (d a o : Byte) (s : State) : Out := laneLoad s p d a o 1 true
def execLdh (p : LPre) (d a o : Byte) (s : State) : Out := laneLoad s p d a o 2 false
def execLdhs (p : LPre) (d a o : Byte) (s : State) : Out := laneLoad s p d a o 2 true
def execLdw (p : LPre) (d a o : Byte) (s : State) : Out := laneLoad s p d a o 4 false
def execLdd (p : LPre) (d a o : Byte) (s : State) : Out := laneLoad s p d a o 8 false
def execLdq (p : LPre) (d a o : Byte) (s : State) : Out := laneLoad s p d a o 16 false

/-! ## Stores (R321, R323) -/

/-- Stores pass by pass in increasing lane order: signatures, and SEALED as a deferred cause of the lowest lane that met it. `bits`
holds of STBM (R91). -/
def doStores (s : State) (xs : List LaneStore) (bits : Bool := false) : State :=
  match s.teams[s.cur]? with
  | none => s
  | some t =>
    let s := settleWords s s.cur (xs.flatMap fun x => x.tgt.wordNames)
    let (sigs, bad, s) := (passesOf LaneStore.lane xs).foldl (fun (acc : List Nat × Option (Nat × Nat) × State) pass =>
      let (r, s) := storePass acc.2.2 t.coreNo pass bits
      (acc.1 ++ r.sigs, acc.2.1 <|> r.sealedAt, s)) (([] : List Nat), none, s)
    let s := s.modTeam s.cur fun t => t.insertSigs sigs
    match bad with
    | some (l, va) => pendCause s s.cur ⟨.sealedC, 0, l, va⟩
    | none => s

/-- Every bit of `n` bytes. -/
def fullBits (n : Nat) : Nat := 2 ^ (8 * n) - 1

def kindOfBytes (n : Nat) : Kind := if n = 16 then .q128 else if n = 8 then .i64 else .i32

def noWriteForm (d a : Role) : Form := { Form.of .m d a .field with writes := false }

/-- A plain lane store of `n` bytes. -/
def laneStore (s : State) (p : LPre) (d a o : Byte) (n : Nat) : Out :=
  let w := ceilDiv n 4
  let f := noWriteForm (.src w) .pair
  laneMem s p f d.toNat a.toNat o.toNat 1 fun s t k mask =>
    let addrs := (lanesOf t mask).map fun l => (l, effAddr (opnd s t .m .i64 k.a l) o n)
    withTargets s t ⟨n, .write, false, false⟩ addrs (fun _ => true) fun s tgts =>
      let xs := tgts.map fun x => LaneStore.mk x.1 x.2 (opnd s t .m (kindOfBytes n) k.d x.1) (fullBits n)
      endLane (doStores s xs) p f k 1 (readsDead t .m k.a 2 || readsDead t .m k.d w)

def execStb (p : LPre) (d a o : Byte) (s : State) : Out := laneStore s p d a o 1
def execSth (p : LPre) (d a o : Byte) (s : State) : Out := laneStore s p d a o 2
def execStw (p : LPre) (d a o : Byte) (s : State) : Out := laneStore s p d a o 4
def execStd (p : LPre) (d a o : Byte) (s : State) : Out := laneStore s p d a o 8
def execStq (p : LPre) (d a o : Byte) (s : State) : Out := laneStore s p d a o 16

/-- STBM: the bits that C enables; a lane with none is checked and makes no request. -/
def execStbm (p : LPre) (d a o : Byte) (s : State) : Out :=
  let f := { noWriteForm (.src 1) .pair with c := .src 1 }
  laneMem s p f d.toNat a.toNat o.toNat 1 fun s t k mask =>
    let addrs := (lanesOf t mask).map fun l => (l, effAddr (opnd s t .m .i64 k.a l) o 4)
    let en (l : Nat) : Nat := opnd s t .m .i32 k.c l
    withTargets s t ⟨4, .write, false, true⟩ addrs (fun l => en l != 0) fun s tgts =>
      let xs := (tgts.filter fun x => en x.1 != 0).map fun x =>
        LaneStore.mk x.1 x.2 (opnd s t .m .i32 k.d x.1) (en x.1)
      endLane (doStores s xs true) p f k 1
        (readsDead t .m k.a 2 || readsDead t .m k.d 1 || readsDead t .m k.c 1)

/-! ## The tile store (R326) -/

/-- The block of a team, as its placement made it. -/
def blockFor (s : State) (t : Team) : Block :=
  (s.blockOf t.key).getD
    ⟨t.key.q, t.key.seq, t.key.blk, t.cfg, [], [], [], 0, [], 0, [], [], [], [], 0⟩

/-- The failures of tile accesses of `n` bytes, by lane: ALIGN, TILEBOUND, TILEOWN. -/
def tileFails (s : State) (t : Team) (n : Nat) (addrs : List (Nat × Nat)) : List Fail :=
  let b := blockFor s t
  addrs.flatMap fun x =>
    let fail (c : Cause) : Fail := ⟨⟨c, 0, x.1, x.2⟩, 0, 0, none⟩
    (if x.2 % n = 0 then [] else [fail .align]) ++ ((tileCause b t.key.num x.2 n).toList.map fail)

/-- A tile address operand: a register, zero or a special (R326). -/
def tileAddrIll (a : Nat) : Bool := decide (192 ≤ a)

/-- The frame of the tile-store forms; `go` acts on the lanes' addresses. -/
def laneTile (s : State) (p : LPre) (f : Form) (d a : Nat) (o : BitVec 4) (n : Nat)
    (go : State → Team → Codes → List (Nat × Nat) → State) : Out :=
  let f := { f with more := if tileAddrIll a then [(Role.run 1, a)] else [] }
  laneMem s p f d a 0 1 fun s t k mask =>
    let addrs := (lanesOf t mask).map fun l => (l, opnd s t .m .i32 k.a l + o.toNat * n)
    match worst (tileFails s t n addrs) with
    | some x => takeFail s s.cur x
    | none => go s t k addrs

def tileLoad (s : State) (p : LPre) (d a : Byte) (m o : BitVec 4) (w : Nat) : Out :=
  let f := Form.of .m (.dst w) (.src 1) .field
  laneTile s p f d.toNat a.toNat o (4 * w) fun s t k addrs =>
    let b := blockFor s t
    let vals := addrs.map fun x => (x.1, leNat (tileRead s b m.toNat x.2 (4 * w)))
    let mask := addrs.foldl (fun (m : Mask) x => m ||| (1#1024 <<< x.1)) 0#1024
    let t1 := t.writeLanes .m w k.d mask (pfxOf p).zm fun l => (look l vals).getD 0
    s.setTeam s.cur (t1.laneEnd p f k 1 (readsDead t .m k.a 1))

def tileStore (s : State) (p : LPre) (d a : Byte) (m o : BitVec 4) (w : Nat) : Out :=
  let f := noWriteForm (.src w) (.src 1)
  laneTile s p f d.toNat a.toNat o (4 * w) fun s t k addrs =>
    let b := blockFor s t
    let s := addrs.foldl (fun s x =>
      tileWrite s b m.toNat x.2 (leBytes (4 * w) (opnd s t .m (kindOfBytes (4 * w)) k.d x.1))) s
    endLane s p f k 1 (readsDead t .m k.a 1 || readsDead t .m k.d w)

def execLdt (p : LPre) (d a : Byte) (m o : BitVec 4) (s : State) : Out := tileLoad s p d a m o 1
def execStt (p : LPre) (d a : Byte) (m o : BitVec 4) (s : State) : Out := tileStore s p d a m o 1
def execLdtq (p : LPre) (d a : Byte) (m o : BitVec 4) (s : State) : Out := tileLoad s p d a m o 4
def execSttq (p : LPre) (d a : Byte) (m o : BitVec 4) (s : State) : Out := tileStore s p d a m o 4

/-! ## Fibre loads (R353, R354) -/

def Team.fibre (t : Team) (n : Nat) : Fibre := t.fibres.getD n Fibre.closed

/-- A fibre load: its fibre checks fall before its mask is looked at; a lane past the end takes `past`. -/
def fibreLoad (s : State) (p : LPre) (d : Byte) (i : BitVec 3) (n : Fibre → Nat) (base : Fibre → Option Nat)
    (past : Nat) : Out :=
  let f := Form.of .m (.dst 1) .field .field
  laneIssue s p f d.toNat i.toNat 0 fun s t k =>
    let fb := t.fibre i.toNat
    if !fb.isOpen then trapCause s s.cur .illins
    else match base fb with
      | none => trapCause s s.cur .illop
      | some va =>
        let (mask, deadM) := effMask t p
        if mask = 0#1024 then passEmpty s p 1 deadM
        else
          let q (l : Nat) : Nat := fb.pos + l % 32
          let (ins, outs) := (lanesOf t mask).partition fun l => decide (q l < fb.count)
          let addrs := ins.map fun l => (l, fromPair va ((va + q l * n fb) % 2 ^ 64))
          withTargets s t ⟨n fb, .read, false, false⟩ addrs (fun _ => true) fun s tgts =>
            let imm := outs.map fun l => (l, Tgt.mk (.imm past) (n fb) 0 false false false)
            endLane (postLoad s k.d ⟨n fb, false, false, (pfxOf p).zm⟩ (tgts ++ imm)) p f k 1 false

def execFrdc (p : LPre) (d : Byte) (n : BitVec 3) (s : State) : Out :=
  fibreLoad s p d n (fun _ => 4) (fun fb => some fb.coord) (2 ^ 32 - 1)

def execFrdv (p : LPre) (d : Byte) (n : BitVec 3) (s : State) : Out :=
  fibreLoad s p d n (fun fb => (elemWidth fb.elem).getD 8 / 8) (fun fb => fb.value) 0

/-! ## Uniform loads and stores (R331) -/

/-- The frame of a uniform memory instruction's end. -/
def endUni (s : State) (words : Nat) (dead : Bool) : State := s.modTeam s.cur fun t => (t.noteDead dead).pass words

def uniLoad (s : State) (d a o : Byte) (w : Nat) : Out :=
  uniIssue s none (Form.of .m (.dst w) .pair .field) d.toNat a.toNat 0 fun s t k =>
    let va := effAddr (opnd s t .m .i64 k.a 0) o (4 * w)
    withTargets s t ⟨4 * w, .read, false, false⟩ [(0, va)] (fun _ => true) fun s tgts =>
      endUni (postLoad s k.d ⟨4 * w, false, true, false⟩ tgts) 1 (readsDead t .m k.a 2)

def uniStore (s : State) (d a o : Byte) (w : Nat) : Out :=
  uniIssue s none (noWriteForm (.src w) .pair) d.toNat a.toNat 0 fun s t k =>
    let va := effAddr (opnd s t .m .i64 k.a 0) o (4 * w)
    withTargets s t ⟨4 * w, .write, false, false⟩ [(0, va)] (fun _ => true) fun s tgts =>
      let v := opnd s t .m (kindOfBytes (4 * w)) k.d 0
      let xs := tgts.map fun x => LaneStore.mk x.1 x.2 v (fullBits (4 * w))
      endUni (doStores s xs) 1 (readsDead t .m k.a 2 || readsDead t .m k.d w)

def execUld (d a o : Byte) (s : State) : Out := uniLoad s d a o 1
def execUldd (d a o : Byte) (s : State) : Out := uniLoad s d a o 2
def execUst (d a o : Byte) (s : State) : Out := uniStore s d a o 1
def execUstd (d a o : Byte) (s : State) : Out := uniStore s d a o 2

end Sys2Proof.Machine
end

