-- ==== Sys2Proof/Machine/Sync.lean ====
section
/-! DEFINITION. Sync: ordered loads and stores, atomics, fences, promotion, barriers, seals, VINV and SIGCLR (R73, R187 to
R200, R203 to R205, R226, R327 to R339). -/

namespace Sys2Proof.Machine

def releases : Order → Bool
  | .rel | .ar | .sc => true
  | _ => false

def acquires : Order → Bool
  | .acq | .ar | .sc => true
  | _ => false

/-! ## Sync blocks as a core acts on them (R189 to R199) -/

/-- A word wanted from its home, or from the core's own registered copy (R190): another device's past every cache. -/
def homeReq (uncached : Bool) (w : Nat) : WordReq := ⟨w, uncached || isRemoteWord w, true, false⟩

/-- Words read at their homes, in one request for each line. -/
def homeWords (s : State) (c : Nat) (uncached : Bool) (ws : List Nat) : WordTable × State :=
  readWords s c (ws.map (homeReq uncached))

def blockOfPa (pa : Nat) : Nat := pa / 128 * 128

/-- The Brim slot of a sync block: none where it reads as poison. -/
def slotOf (s : State) (c pa : Nat) : Option Sig × State :=
  let ws := (List.range 16).map fun i => blockOfPa pa / 4 + 16 + i
  let (tbl, s) := homeWords s c false ws
  if ws.any tbl.poisoned then (none, s)
  else (some (BitVec.ofNat 512 (ws.foldr (fun w acc => (tbl.val w).toNat + 2 ^ 32 * acc) 0)), s)

def sigBytes (g : Sig) : List Byte := leBytes 64 g.toNat

/-- Bytes of a sync block written where the block stands: the core's registered copy, or its home. -/
def writeBlock (s : State) (c a : Nat) (bs : List Byte) : State :=
  let w := bytesWrite a bs
  if isRemoteWord (a / 4) then storeRemote s c w
  else if look (a / 4) s.registrants = some c then
    (EnWrite.words w).foldl (fun s (x : Nat × Word × Word) => match l1Word s c x.1 with
      | some y => setL1 s c x.1 { y with val := mergeWord y.val x.2.1 x.2.2, dirty := true }
      | none => s) s
  else homeWrite (revokeBlockBut s 64 (a / 4)) w

/-- A signature merged into the slot of a block (R194). -/
def mergeSlot (s : State) (c pa : Nat) (g : Sig) : State :=
  let a := blockOfPa pa + 64
  if isRemoteWord (pa / 4) then storeRemote s c ((sigBytes g).zipIdx.map fun x => (a + x.2, x.1, x.1))
  else match slotOf s c pa with
    | (some old, s) => writeBlock s c a (sigBytes (old ||| g))
    | (none, s) => s

/-- LATER of R197. -/
def stampLater (a b : BitVec 48) : Bool := decide (1 ≤ (a - b).toNat ∧ (a - b).toNat ≤ 2 ^ 47 - 1)

/-- The clock and stamp of an SC operation on a block (R197); a stamp that reads as poison, or that lies in a sealed granule, is
left alone (R205). -/
def stampBlock (s : State) (c pa : Nat) : State :=
  let w := blockOfPa pa / 4 + 2
  let (tbl, s) := homeWords s c false [w, w + 1]
  if tbl.poisoned w || tbl.poisoned (w + 1) || (!isRemoteWord w && (sealAt s (4 * w)).isSome) then s
  else
    let stamp := BitVec.ofNat 48 ((tbl.val w).toNat + 2 ^ 32 * (tbl.val (w + 1)).toNat)
    let clock := (s.core c).clock
    let t := (if stampLater stamp clock then stamp else clock) + 1#48
    writeBlock (s.modCore c fun k => { k with clock := t }) c (4 * w) (leBytes 8 t.toNat)

/-- A release's write on a poisoned block is dropped as one action (R189). -/
def dropRelease (s : State) (pa : Nat) : State :=
  let secs := (List.range 4).map fun i => blockOfPa pa / 32 + i
  let marked := secs.findSome? fun x => (place s (32 * x)).bind fun n => if homePoisoned s x then some n else none
  (match marked with
  | some n => s.count (STK (sectorStack n) 0x48) 16 16 1
  | none => s).countDrop

/-! ## The frame of closing lane instructions (R152, R168) -/

def laneClosing (s : State) (p : LPre) (f : Form) (d a b base : Nat)
    (body : State → Team → Codes → Mask → Except State State) : Out :=
  laneIssue s p f.closed d a b fun s _ k =>
    closing s (laneWords p base) fun s t =>
      let (mask, deadM) := effMask t p
      if mask = 0#1024 then .ok (if deadM then s.modTeam s.cur fun t => t.raise deadReadBit else s)
      else body s t k mask

def onlyPfx (p : Option Pfx) : LPre := ⟨none, p⟩

/-- Bytes of an access of SIZE 0 or 1. -/
def sizeBytes (b64 : Bool) : Nat := if b64 then 8 else 4

/-! ## LDX (R190, R194, R195, R327) -/

/-- The invalidation of an acquire by the slots that it read: with every slot by their OR, else fully. -/
def finishAcquire (s : State) (k : Nat) (sc : Scope) (slots : List (Option Sig)) : State :=
  let g := slots.foldl (fun (g : Sig) x => g ||| x.getD 0#512) 0#512
  if slots.all Option.isSome then acquireTeam s k sc (some g)
  else
    (acquireTeam s k sc none).modTeam k fun t =>
      if slots.any fun x => sigFull (x.getD 0#512) then { t.orSig g with sigW := ~~~0#512 } else t.orSig g

/-- The sync block address of a target, where it is a sync page's. -/
def Tgt.syncPa (t : Tgt) : Option Nat :=
  match t.loc with
  | .plain pa => if t.sync then some pa else none
  | _ => none

/-- What ordered accesses of an instruction gather: values by lane, the first poisoned lane, slots, sectors, the first
sealed lane and the first release dropped on a poisoned block. -/
structure Gather where
  vals : List (Nat × Nat)
  poison : Option (Nat × Nat)
  slots : List (Option Sig)
  sigs : List Nat
  sealedAt : Option (Nat × Nat)
  dropped : Option (Nat × Nat)

def Gather.start : Gather := ⟨[], none, [], [], none, none⟩

/-- One lane's ordered read, of the words that its pass has read: an acquire takes the slot of its sync block, and SC stamps it; a
stamp is a write, which a sealed granule refuses (R205). -/
def orderedLane (s : State) (c : Nat) (ord : Order) (tbl : WordTable) (g : Gather) (l : Nat) (t : Tgt) : Gather × State :=
  let bad := t.poisoned tbl
  let (slot, s) := match t.syncPa with
    | some pa => if acquires ord && !bad then slotOf s c pa else (none, s)
    | none => (none, s)
  let (refused, s) : Bool × State := match t.syncPa with
    | some pa =>
      if ord = .sc ∧ bad = false then
        (!isRemoteWord (pa / 4) && (sealAt s pa).isSome, stampBlock s c pa)
      else (false, s)
    | none => (false, s)
  ({ g with
      vals := g.vals ++ [(l, t.value tbl)]
      poison := g.poison <|> (if bad then some (l, t.va) else none)
      slots := g.slots ++ [slot]
      sealedAt := g.sealedAt <|> (if refused then some (l, t.va) else none) }, s)

/-- The ordered reads of one pass: one request for each distinct base line, then its lanes (R81, R182). -/
def orderedPass (s : State) (c : Nat) (ord : Order) (sc : Scope) (g : Gather) (xs : List (Nat × Tgt)) : Gather × State :=
  let (tbl, s) := readWords s c (xs.flatMap fun x =>
    if ord = .rlx ∨ inCore sc then x.2.wordReqs else x.2.wordNames.map (homeReq x.2.uncached))
  xs.foldl (fun (acc : Gather × State) x => orderedLane acc.2 c ord tbl acc.1 x.1 x.2) (g, s)

/-- The ordered reads of an instruction, pass by pass. -/
def orderedReads (s : State) (c : Nat) (ord : Order) (sc : Scope) (xs : List (Nat × Tgt)) : Gather × State :=
  (passesOf Prod.fst xs).foldl (fun (acc : Gather × State) p => orderedPass acc.2 c ord sc acc.1 p) (Gather.start, s)

/-- Poison and the deferred causes that an instruction's accesses met (R37, R189, R223). -/
def reportGather (s : State) (k : Nat) (g : Gather) (written : Bool) : State :=
  let s := match g.sealedAt with
    | some (l, va) => pendCause s k ⟨.sealedC, 0, l, va⟩
    | none => s
  let s := match g.dropped with
    | some (l, va) => deliverPoisonTo s k (va / 128 * 128) l
    | none => s
  match g.poison with
  | some (l, va) => if written then deliverPoisonTo s k va l else stainTeam s k true
  | none => s

def execLdx (p : Option Pfx) (d a o : Byte) (b64 : Bool) (ord : Order) (sc : Scope) (s : State) : Out :=
  let n := sizeBytes b64
  let w := n / 4
  let f := Form.of .m (.dst w) .pair .field
  laneMem s (onlyPfx p) f d.toNat a.toNat o.toNat 2 fun s t k mask =>
    let addrs := (lanesOf t mask).map fun l => (l, effAddr (opnd s t .m .i64 k.a l) o n)
    withTargets s t ⟨n, .read, ord == .sc, false⟩ addrs (fun _ => true) fun s tgts =>
      let s := settleWords s s.cur (tgts.flatMap fun x => x.2.wordNames)
      let (g, s) := orderedReads s t.coreNo ord sc tgts
      let s := s.modTeam s.cur fun t => t.writeLanes .m w k.d mask (pfxOf (onlyPfx p)).zm fun l => (look l g.vals).getD 0
      let s := reportGather s s.cur g true
      let s := if acquires ord then finishAcquire s s.cur sc g.slots else s
      endLane s (onlyPfx p) f k 2 (readsDead t .m k.a 2)

/-! ## STX (R189, R194, R327) -/

/-- A release's write on a sync block: the value and the merge of the slot as one. -/
def releaseSync (s : State) (c pa : Nat) (sc : Scope) (g : Sig) (bs : List Byte) : State :=
  let s :=
    if isRemoteWord (pa / 4) then s
    else if inCore sc then registerBlock s c (pa / 4)
    else revokeBlockBut s 64 (pa / 4)
  mergeSlot (writeBlock s c pa bs) c pa g

/-- The release's writes of one pass elsewhere: at QUAD or wider, at the home. -/
def releasePlain (s : State) (c : Nat) (sc : Scope) (xs : List LaneStore) : PassStored × State :=
  if inCore sc then storePass s c xs false
  else
    let toHome (x : LaneStore) : Bool := match x.tgt.loc with
      | .plain pa => !x.tgt.uncached && !isRemoteWord (pa / 4)
      | _ => false
    let (r, ps, s) := acceptStores s (xs.filter toHome) false
    let s := byLine s (mergeWrites (onPath ps fun p => p == .plain || p == .narrow)) fun s w => storeEnabled s c w
    let rest := xs.filter fun x => !toHome x
    let (q, s) := storePass s c rest false
    (⟨r.sigs ++ q.sigs, ((r.sealedAt.toList ++ q.sealedAt.toList).foldl (fun (b : Option (Nat × Nat)) x => match b with
        | some y => if x.1 < y.1 then some x else b
        | none => some x) none)⟩,
      (rest.filter fun x => !x.tgt.uncached).foldl (fun s x => x.tgt.wordNames.foldl (fun s w => drainWord s c w) s) s)

/-- One lane of a release store in a sync block. One that R189 drops on a poisoned block, whose stamp may still be read, neither
stamps the block nor advances the core's clock (log entry 109). -/
def releaseStore (s : State) (c : Nat) (ord : Order) (sc : Scope) (sig : Sig) (g : Gather) (x : LaneStore) :
    Gather × State :=
  match x.tgt.syncPa with
  | some pa =>
    match meetsSeal s (x.tgt.write x.val x.mask) with
    | (true, s) => ({ g with sealedAt := g.sealedAt <|> some (x.lane, x.tgt.va) }, s)
    | (false, s) =>
      if !isRemoteWord (pa / 4) && blockPoisoned s (pa / 4) then
        ({ g with dropped := g.dropped <|> some (x.lane, x.tgt.va) }, dropRelease (revokeBlockBut s 64 (pa / 4)) pa)
      else
        let s := releaseSync s c pa sc sig (leBytes x.tgt.n x.val)
        (g, if ord = .sc then stampBlock s c pa else s)
  | none => (g, s)

/-- One pass of a release store: the lanes in sync blocks one by one, and the others in one request for each line. -/
def releasePass (s : State) (c : Nat) (ord : Order) (sc : Scope) (sig : Sig) (g : Gather) (xs : List LaneStore) : Gather × State :=
  let (syncs, others) := xs.partition fun x => x.tgt.syncPa.isSome
  let (g, s) := syncs.foldl (fun (acc : Gather × State) x => releaseStore acc.2 c ord sc sig acc.1 x) (g, s)
  let (r, s) := releasePlain s c sc others
  ({ g with sigs := g.sigs ++ r.sigs, sealedAt := g.sealedAt <|> r.sealedAt }, s)

/-- The writes of a release store, pass by pass. -/
def releaseStores (s : State) (c : Nat) (ord : Order) (sc : Scope) (sig : Sig) (xs : List LaneStore) : Gather × State :=
  (passesOf LaneStore.lane xs).foldl (fun (acc : Gather × State) p => releasePass acc.2 c ord sc sig acc.1 p) (Gather.start, s)

/-- What a release does before its writes: earlier accesses are performed, and the L1 is drained (R189). -/
def beforeRelease (s : State) (k : Nat) (sc : Scope) : State :=
  let s := settleAll s k
  match s.teams[k]? with
  | some t => releaseDrain s t sc
  | none => s

def execStx (p : Option Pfx) (d a o : Byte) (b64 : Bool) (ord : Order) (sc : Scope) (s : State) : Out :=
  let n := sizeBytes b64
  let w := n / 4
  let f := noWriteForm (.src w) .pair
  let pre := onlyPfx p
  let body (s : State) (t : Team) (k : Codes) (mask : Mask) : Except State State :=
    let addrs := (lanesOf t mask).map fun l => (l, effAddr (opnd s t .m .i64 k.a l) o n)
    match targets s t ⟨n, .write, ord == .sc, false⟩ addrs (fun _ => true) [] with
    | .error s => .error s
    | .ok (s, tgts) =>
      let xs := tgts.map fun x => LaneStore.mk x.1 x.2 (opnd s t .m (kindOfBytes n) k.d x.1) (fullBits n)
      let dead := readsDead t .m k.a 2 || readsDead t .m k.d w
      if releases ord then
        let s := beforeRelease s s.cur sc
        let (g, s) := releaseStores s t.coreNo ord sc t.relSig xs
        let s := clearW (s.modTeam s.cur fun t => t.insertSigs g.sigs) s.cur
        .ok (endLane (reportGather s s.cur g false) pre f k 2 dead)
      else .ok (endLane (doStores s xs) pre f k 2 dead)
  if releases ord then laneClosing s pre f d.toNat a.toNat o.toNat 2 body
  else laneMem s pre f d.toNat a.toNat o.toNat 2 fun s t k mask =>
    match body s t k mask with
    | .ok s => s
    | .error s => s

/-! ## Atomics (R328 to R330, R332) -/

/-- The list in a free order (R187, R328: unspecified among the lanes). -/
def freeOrder {α : Type} (tick : Nat) : Nat → List α → List α
  | 0, xs => xs
  | _ + 1, [] => []
  | _ + 1, [x] => [x]
  | n + 1, xs =>
    let i := (Config.freeBits (tick + n)).toNat % xs.length
    match xs[i]? with
    | some x => x :: freeOrder tick n (xs.eraseIdx i)
    | none => xs

/-- Whether an operation uses C (R328). -/
def usesC : AOp → Bool
  | .cas | .inc => true
  | _ => false

/-- How the data of an operation is read (R255). -/
def aopKind (op : AOp) (b64 : Bool) : Kind :=
  match op with
  | .fadd | .fmin | .fmax => if b64 then .f64 else .f32
  | _ => if b64 then .i64 else .i32

def atomForm (x : AtomExt) (w : Nat) : Form :=
  { Form.of .m (if x.ret then .dst w else .field) .pair (.src w) with
    writes := x.ret, more := if usesC x.aop then [(Role.src w, x.c.toNat)] else [] }

/-- One lane's atomic with its order. -/
def atomicLane (s : State) (c : Nat) (x : AtomExt) (sig : Sig) (b cv : Nat) (g : Gather) (l : Nat) (t : Tgt) :
    Gather × State :=
  let (slot, s) := match t.syncPa with
    | some pa => if acquires x.ord then slotOf s c pa else (none, s)
    | none => (none, s)
  let drop := match t.syncPa with
    | some pa => releases x.ord && !isRemoteWord (pa / 4) && blockPoisoned s (pa / 4)
    | none => false
  if drop then
    let (tbl, s) := homeWords s c false t.wordNames
    ({ g with
        vals := g.vals ++ [(l, t.value tbl)]
        poison := g.poison <|> (if t.poisoned tbl then some (l, t.va) else none)
        slots := g.slots ++ [none]
        dropped := g.dropped <|> some (l, t.va) }, dropRelease s (t.syncPa.getD 0))
  else
    let (r, s) := atomicTgt s c t (fun old => aopApply x.aop t.n old b cv) x.sc
    let s := match t.syncPa with
      | some pa =>
        let s := if releases x.ord && !r.sealedW && !r.poison then mergeSlot s c pa sig else s
        if x.ord = .sc ∧ r.poison = false ∧ r.sealedW = false then stampBlock s c pa else s
      | none => s
    ({ g with
        vals := g.vals ++ [(l, r.old)]
        poison := g.poison <|> (if r.poison then some (l, t.va) else none)
        slots := g.slots ++ [if r.poison then none else slot]
        sigs := g.sigs ++ r.sigs
        sealedAt := g.sealedAt <|> (if r.sealedW then some (l, t.va) else none) }, s)

/-- The atomics of an instruction's lanes with its order's actions; what they gathered. -/
def doAtomics (s : State) (t : Team) (x : AtomExt) (tgts : List (Nat × Tgt)) (b cv : Nat → Nat) : Gather × State :=
  let s := if releases x.ord then beforeRelease s s.cur x.sc
    else settleWords s s.cur (tgts.flatMap fun y => y.2.wordNames)
  let free := x.ord != .sc && decide (1 < tgts.length)
  let order := if free then freeOrder s.tick tgts.length tgts else tgts
  let s := if free then { s with tick := s.tick + tgts.length } else s
  let (g, s) := order.foldl (fun (acc : Gather × State) y =>
    atomicLane acc.2 t.coreNo x t.relSig (b y.1) (cv y.1) acc.1 y.1 y.2) (Gather.start, s)
  let s := s.modTeam s.cur fun t => t.insertSigs g.sigs
  let s := if releases x.ord then clearW s s.cur else s
  (g, if acquires x.ord then finishAcquire s s.cur x.sc g.slots else s)

def execAtom (p : Option Pfx) (d a b : Byte) (x : AtomExt) (s : State) : Out :=
  let n := sizeBytes x.b64
  let w := n / 4
  let f := atomForm x w
  let pre := onlyPfx p
  laneClosing s pre f d.toNat a.toNat b.toNat 2 fun s t k mask =>
    let addrs := (lanesOf t mask).map fun l => (l, opnd s t .m .i64 k.a l)
    match targets s t ⟨n, .atomic, x.ord == .sc, false⟩ addrs (fun _ => true) [] with
    | .error s => .error s
    | .ok (s, tgts) =>
      let kd := aopKind x.aop x.b64
      let cv (l : Nat) : Nat := if usesC x.aop then opnd s t .m kd x.c.toNat l else 0
      let (g, s) := doAtomics s t x tgts (fun l => opnd s t .m kd k.b l) cv
      let s := if x.ret then s.modTeam s.cur fun t => t.writeLanes .m w k.d mask (pfxOf pre).zm fun l => (look l g.vals).getD 0
        else s
      let s := reportGather s s.cur g x.ret
      let dead := readsDead t .m k.a 2 || readsDead t .m k.b w || (usesC x.aop && readsDead t .m x.c.toNat w)
      let s := endLane s pre f k 2 dead
      .ok (if (pfxOf pre).kc && usesC x.aop then
        s.modTeam s.cur fun t => (codeRegs x.c.toNat w).foldl Team.killReg t else s)

/-- ATOMT: words of the tile store, in increasing lane order (R329). -/
def execAtomt (p : Option Pfx) (d a b : Byte) (x : AtomExt) (s : State) : Out :=
  let f0 := { atomForm x 1 with a := .src 1 }
  let f := { f0 with more := f0.more ++ if tileAddrIll a.toNat then [(Role.run 1, a.toNat)] else [] }
  let pre := onlyPfx p
  laneClosing s pre f d.toNat a.toNat b.toNat 2 fun s t k mask =>
    let addrs := (lanesOf t mask).map fun l => (l, opnd s t .m .i32 k.a l)
    match worst (tileFails s t 4 addrs) with
    | some e => .error (takeFail s s.cur e)
    | none =>
      let kd := aopKind x.aop false
      let blk := blockFor s t
      let (vals, s) := addrs.foldl (fun (acc : List (Nat × Nat) × State) y =>
        let old := leNat (tileRead acc.2 blk 0 y.2 4)
        let cv := if usesC x.aop then opnd s t .m kd x.c.toNat y.1 else 0
        let new := aopApply x.aop 4 old (opnd s t .m kd k.b y.1) cv
        (acc.1 ++ [(y.1, old)], tileWrite acc.2 blk 0 y.2 (leBytes 4 new))) (([] : List (Nat × Nat)), s)
      let s := if x.ret then s.modTeam s.cur fun t => t.writeLanes .m 1 k.d mask (pfxOf pre).zm fun l => (look l vals).getD 0
        else s
      let dead := readsDead t .m k.a 1 || readsDead t .m k.b 1 || (usesC x.aop && readsDead t .m x.c.toNat 1)
      let s := endLane s pre f k 2 dead
      .ok (if (pfxOf pre).kc && usesC x.aop then
        s.modTeam s.cur fun t => (codeRegs x.c.toNat 1).foldl Team.killReg t else s)

def execUatom (d a b : Byte) (x : AtomExt) (s : State) : Out :=
  let n := sizeBytes x.b64
  let w := n / 4
  uniIssue s none (atomForm x w).closed d.toNat a.toNat b.toNat fun s _ k =>
    closing s 2 fun s t =>
      match targets s t ⟨n, .atomic, x.ord == .sc, false⟩ [(0, opnd s t .m .i64 k.a 0)] (fun _ => true) [] with
      | .error s => .error s
      | .ok (s, tgts) =>
        let kd := aopKind x.aop x.b64
        let cv (_ : Nat) : Nat := if usesC x.aop then opnd s t .m kd x.c.toNat 0 else 0
        let (g, s) := doAtomics s t x tgts (fun _ => opnd s t .m kd k.b 0) cv
        let s := if x.ret then s.modTeam s.cur fun t => t.writeUni .m w k.d ((look 0 g.vals).getD 0) else s
        let s := reportGather s s.cur g x.ret
        let dead := readsDead t .m k.a 2 || readsDead t .m k.b w || (usesC x.aop && readsDead t .m x.c.toNat w)
        .ok (s.modTeam s.cur fun t => t.noteDead dead)

/-! ## FENCE and PROMOTE (R200, R333, R334) -/

/-- An SC fence draws its stamp from the core's clock alone. -/
def tickClock (s : State) (c : Nat) : State := s.modCore c fun k => { k with clock := k.clock + 1#48 }

def execFence (ord : Order) (sc : Scope) (s : State) : Out :=
  uniIssue s none { uniForm .field with pipe := .m } 0 0 0 fun s t _ =>
    let s := if releases ord then clearW (beforeRelease s s.cur sc) s.cur else s
    let s := if ord = .sc then tickClock s t.coreNo else s
    let s := if acquires ord then acquireTeam s s.cur sc none else s
    passBy s s.cur 2

/-- ALIGN of a PROMOTE off the value of its sync block. -/
def promoteAlign (va n : Nat) : List Fail :=
  let o := va % 128
  if (n = 4 ∧ (o = 0 ∨ o = 4)) ∨ (n = 8 ∧ o = 0) then [] else [⟨⟨.align, 0, 0, va⟩, 0, 0, none⟩]

def execPromote (d a : Byte) (b64 : Bool) (sc : Scope) (s : State) : Out :=
  let n := sizeBytes b64
  let w := n / 4
  uniIssue s none (Form.of .m (.dst w) .pair .field) d.toNat a.toNat 0 fun s t k =>
    let va := opnd s t .m .i64 k.a 0
    match targets s t ⟨n, .read, true, false⟩ [(0, va)] (fun _ => true) (promoteAlign va n) with
    | .error s => s
    | .ok (s, tgts) =>
      let s := settleWords s s.cur (tgts.flatMap fun x => x.2.wordNames)
      let s := tgts.foldl (fun s x => match x.2.syncPa with
        | some pa => if isRemoteWord (pa / 4) then s else revokeBlockBut s 64 (pa / 4)
        | none => s) s
      let (g, s) := orderedReads s t.coreNo .acq sc tgts
      let s := s.modTeam s.cur fun t => t.writeUni .m w k.d ((look 0 g.vals).getD 0)
      let s := reportGather s s.cur g true
      endUni (finishAcquire s s.cur sc g.slots) 2 (readsDead t .m k.a 2)

/-! ## Named barriers (R203, R204, R335, R336) -/

/-- A team that has parked in a barrier leaves the active set after the REGION. -/
def leaveIfParked (s : State) : State :=
  s.modTeam s.cur fun t => if t.park.isSome then t.leaveActive else t

/-- An arrival: a release at the barrier's scope; SYNC parks the team. -/
def arriveBar (s : State) (t : Team) (n : Nat) (sync : Bool) : Except State State :=
  let b := blockFor s t
  let x := b.bar n
  if x.m < x.arrivals + 1 then .error (trapCause s s.cur .barovf 3)
  else
    let s := clearW (beforeRelease s s.cur (blockScope b.cfg.coresN)) s.cur
    let s := s.modBlock t.key fun b => b.setBar n { x with arrivals := x.arrivals + 1, sig := x.sig ||| t.relSig }
    let s := if sync then s.modTeam s.cur fun t => { t with park := some (.bar n) } else s
    .ok (tryBarrier s t.key n)

def execBarSync (n : BitVec 4) (s : State) : Out :=
  uniIssue s none (Form.closed { uniForm .field with pipe := .m }) 0 0 0 fun s _ _ =>
    closing s 2 (fun s t => arriveBar s t n.toNat true) leaveIfParked

def execBarArv (n : BitVec 4) (s : State) : Out :=
  uniIssue s none (Form.closed { uniForm .field with pipe := .m }) 0 0 0 fun s _ _ =>
    closing s 2 fun s t => arriveBar s t n.toNat false

def execBarInit (n : BitVec 4) (a : Byte) (s : State) : Out :=
  uniIssue s none (Form.of .m .field (.src 1) .field).closed 0 a.toNat 0 fun s _ k =>
    closing s 2 fun s t =>
      let v := opnd s t .m .i32 k.a 0
      if v = 0 ∨ t.cfg.nt < v then .error (trapCause s s.cur .barovf 2)
      else
        let s := s.modBlock t.key fun b =>
          let x := b.bar n.toNat
          b.setBar n.toNat (if x.arrivals = 0 then { x with m := v } else { x with held := some v })
        .ok (s.modTeam s.cur fun t => t.noteDead (readsDead t .m k.a 1))

/-! ## BARX (R337) -/

def execBarx (a b : Byte) (sc : Scope) (s : State) : Out :=
  uniIssue s none (Form.of .m .field (.src 1) (.src 1)).closed 0 a.toNat b.toNat fun s _ k =>
    closing s 2 (fun s t =>
      let count := opnd s t .m .i32 k.a 0
      let ident := opnd s t .m .i32 k.b 0 % 65536
      let mismatch := match barxFind s sc t.coreNo ident with
        | some e => e.count != count
        | none => decide (64 ≤ barxOpen s sc t.coreNo)
      if mismatch then .error (trapCause s s.cur .barovf 4)
      else if count = 0 ∨ 65536 < count then .error (trapCause s s.cur .barovf 5)
      else
        let s := clearW (beforeRelease s s.cur sc) s.cur
        let dead := readsDead t .m k.a 1 || readsDead t .m k.b 1
        let s := s.modTeam s.cur fun t => { t.noteDead dead with park := some (.barx sc (scopeInstance sc t.coreNo) ident) }
        .ok (barxArrive s sc t.coreNo ident count t.relSig)) leaveIfParked

/-! ## SEAL and REOPEN (R205, R338) -/

/-- The failures of SEAL and REOPEN on a page: PPROT, and ALIGN of a view or host page or of the range. -/
def sealFails (who : Who) (l : Leaf) (big : Bool) (va len : Nat) : List Fail :=
  let fail (c : Cause) (sub : Nat) : Fail := ⟨⟨c, sub, 0, va⟩, 1, 0, none⟩
  let size := if big then 2 ^ 29 else 65536
  (if !l.r || !l.w then [fail .pprot 1] else if l.p && !who.priv then [fail .pprot 2] else [])
    ++ (if va % 65536 ≠ 0 ∨ len = 0 ∨ size < va % size + 65536 * len ∨ l.typ = 1 ∨ l.typ = 3 then [fail .align 0] else [])

/-- The checks of SEAL and REOPEN; the page's physical address. -/
def sealCheck (s : State) (t : Team) (va len : Nat) : Except State (State × Nat) :=
  match translate s t.coreNo t.cfg.asid t.cfg.ptroot va with
  | (.fault sub lvl, p, s1) =>
    .error (failAfter s (stainTeam s1 s.cur p) s.cur t ⟨⟨.pfault, sub, 0, va⟩, 1, lvl, none⟩)
  | (.leaf l big, p, s1) =>
    match worst (sealFails t.who l big va len) with
    | some e => .error (failAfter s (stainTeam s1 s.cur p) s.cur t e)
    | none => if mustWait s s1 t then .error (parkFill s1 s.cur) else .ok (stainTeam s1 s.cur p, l.pa big va)

/-- The frame of SEAL and REOPEN; `act` answers the result. -/
def sealIssue (s : State) (d a b : Byte) (act : State → Team → Nat → Nat → Nat × State) : Out :=
  uniIssue s none (Form.of .m (.dst 1) .pair (.src 1)).closed d.toNat a.toNat b.toNat fun s _ k =>
    closing s 1 fun s t =>
      let len := opnd s t .m .i32 k.b 0
      match sealCheck s t (opnd s t .m .i64 k.a 0) len with
      | .error s => .error s
      | .ok (s, pa) =>
        let dead := readsDead t .m k.a 2 || readsDead t .m k.b 1
        let (v, s) := act s t pa len
        .ok (s.modTeam s.cur fun t => (t.noteDead dead).writeUni .m 1 k.d v)

/-- A granule of a range is sealed already. -/
def sealOverlaps (es : List SealEntry) (first len : Nat) : Bool :=
  es.any fun e => decide (e.first < first + len ∧ first < e.first + e.len)

/-- SEAL at the home: every store of the range that a core holds goes home first, registered or about to be. -/
def sealAct (s : State) (pa len : Nat) : Nat × State :=
  if isRemoteWord (pa / 4) then ((Config.outsideWord s.tick).toNat % 3, s.nextTick)
  else
    let inRange (w : Nat) : Bool := decide (pa ≤ 4 * w ∧ 4 * w < pa + 65536 * len)
    let s := s.cores.zipIdx.foldl (fun s (k : Core × Nat) => k.1.l1.foldl (fun s (e : Nat × L1Word) =>
      if e.2.pend && inRange e.1 then registerWord s k.2 e.1 else s) s) s
    let s := (s.registrants.filter fun e => inRange e.1).foldl (fun s (e : Nat × Nat) => revoke s e.1) s
    let d := homeDie pa
    let es := (s.die d).seals
    let first := pa / 65536
    if sealOverlaps es first len then (2, s)
    else if 4096 ≤ es.length then (0, s)
    else
      let v := ((s.die d).sealVer + 1) % 65536
      (1, s.modDie d fun k => { k with seals := k.seals ++ [⟨first, len, v⟩], sealVer := v })

def execSeal (d a b : Byte) (s : State) : Out :=
  sealIssue s d a b fun s _ pa len => sealAct (clearW (beforeRelease s s.cur .pod) s.cur) pa len

def execReopen (d a b : Byte) (s : State) : Out :=
  sealIssue s d a b fun s _ pa len =>
    if isRemoteWord (pa / 4) then ((Config.outsideWord s.tick).toNat % 2, s.nextTick)
    else
      let d := homeDie pa
      let mine (e : SealEntry) : Bool := e.first == pa / 65536 && e.len == len
      let es := (s.die d).seals
      (oneIf (es.any mine), s.modDie d fun k => { k with seals := k.seals.filter fun e => !mine e })

/-! ## VINV and SIGCLR (R73, R196, R226, R339) -/

/-- The core's dirty words of the view table go to their home. -/
def drainViewTable (s : State) (c : Nat) : State :=
  (s.core c).l1.foldl (fun s (e : Nat × L1Word) =>
    if decide (DESCBASE ≤ 4 * e.1 ∧ 4 * e.1 < DESCBASE + 2048 * 64) && e.2.dirty then drainWord s c e.1 else s) s

/-- VINV's frame: PRIV without VIEWADM in unprivileged context. -/
def vinvIssue (s : State) (a : Role) (code : Nat) (drop : Nat → VEntry → Bool) : Out :=
  let adm := match s.teams[s.cur]? with
    | some t => t.cfg.viewadm
    | none => false
  uniIssue s none { Form.of .m .field a .field with priv := !adm } 0 code 0 fun s t k =>
    let s := dropViews (drainViewTable s t.coreNo) (drop (opnd s t .m .i32 k.a 0 % 2048))
    endUni s 1 (a != .field && readsDead t .m k.a 1)

def execVinv (a : Byte) (s : State) : Out := vinvIssue s (.src 1) a.toNat fun n e => e.view == n
def execVinvAll (s : State) : Out := vinvIssue s .field 0 fun _ _ => true

/-- SIGCLR: a release that clears the slot's two sectors, whole. A sector that it writes whole takes no poison from the block, so it is
not dropped on a poisoned one (R62, R196, R226, log entry 108). -/
def execSwrSigclr (src : Byte) (s : State) : Out :=
  uniIssue s none (Form.of .u .field .pair .field) 0 src.toNat 0 fun s t k =>
    let free := t.moved || !decide (160 ≤ src.toNat ∧ src.toNat < 164)
    let va := opnd s t .u .i64 k.a 0
    let (r, s1) := resolve s t.who ⟨8, .write, true, false⟩ [(0, va / 128 * 128)]
    let named (f : Fail) : Fail := { f with info := { f.info with addr := va } }
    let extra : List Fail := if va % 128 = 0 then [] else [⟨⟨.align, 0, 0, va⟩, 1, 0, none⟩]
    match worst ((r.fail.map named).toList ++ extra) with
    | some f => failAfter s (stainTeam s1 s.cur r.poison) s.cur t f free
    | none => if free && mustWait s s1 t then parkFill s1 s.cur else
      let s := beforeRelease (stainTeam s1 s.cur r.poison) s.cur .pkg
      let s := r.tgts.foldl (fun s x => match x.2.syncPa with
        | some pa =>
          let w := bytesWrite (blockOfPa pa + 64) (List.replicate 64 0#8)
          match meetsSeal s w with
          | (true, s) => pendCause s s.cur ⟨.sealedC, 0, 0, va⟩
          | (false, s) =>
            if isRemoteWord (pa / 4) then storeRemote s t.coreNo w else homeWrite (revokeBlockBut s 64 (pa / 4)) w
        | none => s) s
      endUni (clearW s s.cur) 1 (readsDead t .u k.a 2)

end Sys2Proof.Machine
end

