-- ==== Sys2Proof/Machine/AsyncOps.lean ====
section
/-! DEFINITION. AsyncOps: the issue of copies and table fills (R340, R342 to R348), batches (R349, R350) and fibres (R352,
R354). -/

namespace Sys2Proof.Machine

/-! ## Checks at issue (R340) -/

/-- The pages that one side of an operation reaches: those taken, those that failed, the failures in order, and whether a
walk met poison. -/
structure Scan where
  pages : List PageX
  bad : List Nat
  fails : List Fail
  poison : Bool

def Scan.start : Scan := ⟨[], [], [], false⟩

/-- The page of one address, translated once. -/
def scanPage (t : Team) (kind : AccKind) (va : Nat) (x : Scan × State) : Scan × State :=
  let vp := va / 65536
  if x.1.bad.contains vp || x.1.pages.any fun p => p.vpage == vp then x
  else
    let fail (c : Cause) (sub lvl : Nat) (s : State) (p : Bool) : Scan × State :=
      let f : Fail := ⟨⟨c, sub, 0, va⟩, kind.code, lvl, none⟩
      ({ x.1 with bad := vp :: x.1.bad, fails := x.1.fails ++ [f], poison := x.1.poison || p }, s)
    match translate x.2 t.coreNo t.cfg.asid t.cfg.ptroot va with
    | (.fault sub lvl, p, s) => fail .pfault sub lvl s p
    | (.leaf l big, p, s) =>
      match permFault t.who l (if l.tol = 0 then l.pa big va else l.tolPa big va) 0 ⟨8, kind, false, false⟩ with
      | some sub => fail .pprot sub 0 s p
      | none =>
        ({ x.1 with
            pages := x.1.pages ++ [⟨vp, l.pa big (vp * 65536), l⟩]
            poison := x.1.poison || p }, s)

/-- Every page of a run of bytes, in increasing address. -/
def scanRun (t : Team) (kind : AccKind) (va n : Nat) (x : Scan × State) : Scan × State :=
  (pagePieces va n).foldl (fun x p => scanPage t kind p.1 x) x

/-- The failure that R340 reports: the cause of highest priority, its lowest subcause, its first address. -/
def issueFault (fs : List Fail) : Option Fail :=
  match (fs.map fun f => f.info.cause.priority).min? with
  | none => none
  | some p =>
    let mine := fs.filter fun f => f.info.cause.priority == p
    match mine.head?, (mine.map fun f => f.info.sub).min? with
    | some f, some sub => some { f with info := { f.info with sub := sub } }
    | _, _ => none

def alignFail (va : Nat) : Fail := ⟨⟨.align, 0, 0, va⟩, 0, 0, none⟩

/-- ALIGN of a memory side: 16, and 32 where its first page is a view page (R343). -/
def sideAlign (va : Nat) (x : Scan) : List Fail :=
  let view := (pageOf x.pages va).any fun p => p.leaf.typ == 1
  if va % 16 ≠ 0 ∨ (view ∧ va % 32 ≠ 0) then [alignFail va] else []

/-- The failures of one tile-store row, at its first byte that fails (R171, R175, R340). -/
def tileRow (s : State) (t : Team) (a n : Nat) : List Fail :=
  let b := blockFor s t
  (tileCause b t.key.num a n).toList.map fun c => Fail.mk ⟨c, 0, 0, tileFirst b t.key.num a n c⟩ 0 0 none

def tileAlign (a : Nat) : List Fail := if a % 16 = 0 then [] else [alignFail a]

/-- BAROVF of the units that an operation posts (R203). -/
def postFails (s : State) (t : Team) (bar : Option Nat) (units : Nat) : List Fail :=
  match bar with
  | some n => if 1048575 < ((blockFor s t).bar n).pend + units then [Fail.mk ⟨.barovf, 1, 0, 0⟩ 0 0 none] else []
  | none => []

/-- An operation is rejected while no entry of the core's copy queue is left for it (R325, R342). -/
def copyQueueFull (s : State) (t : Team) : Bool := leftFor s t .copies (64 - (s.core t.coreNo).copyQ.length) == 0

/-- The operation joins its team's open set and the copy queue, and posts its units (R340); the registrations of the core's
stores reach their homes, so that it sees every earlier write of its team (R201). -/
def postCopy (s : State) (t : Team) (kind : CopyKind) (bar : Option Nat) (m : Met) : State :=
  let id := s.nextId
  let s := registerPending s t.coreNo
  let s := { s with nextId := id + 1, ops := s.ops ++ [OpRec.mk id t.key false [] 0#512 bar.isSome false] }
  let s := s.modCore t.coreNo fun k => { k with copyQ := k.copyQ ++ [CopyOp.mk id t.key kind bar [] false m.views []] }
  let s := s.modKey t.key fun t => { t with openOps := t.openOps ++ [id] }
  let s := match bar with
    | some n => s.modBlock t.key fun b =>
      let x := b.bar n
      b.setBar n { x with pend := x.pend + kind.units }
    | none => s
  noteMet s id { m with sigs := [] }

/-- What the checks of an operation found. -/
structure Checked where
  fails : List Fail
  poison : Bool

/-- The end of an asynchronous issue: the trap, the rejection, or the operation posted. `s0` is the state before the
checks, `s1` after them. -/
def asyncEnd (s0 s1 : State) (t : Team) (c : Checked) (dead : Bool) (post : State → State) : Except State State :=
  match issueFault c.fails with
  | some f => .error (leaveAfter s0 s1 t f true (trapAt (stainTeam s1 s0.cur c.poison) s0.cur f.info))
  | none =>
    if mustWait s0 s1 t then .error (parkFill s1 s0.cur)
    else if copyQueueFull s1 t then .error (reject s0 s0.cur .copies 1)
    else
      let s := post (stainTeam s1 s0.cur c.poison)
      .ok (s.modTeam s0.cur fun t => t.noteDead dead)

/-! ## CPY and CPYS (R343 to R346) -/

/-- Whether a DIR has a tile-store source or destination. -/
def tileSrc (dir : BitVec 2) : Bool := dir.getLsbD 1
def tileDst (dir : BitVec 2) : Bool := dir.getLsbD 0

/-- The pages of a compressed row, found by reading its block headers (R346); the reads themselves leave no trace. -/
def scanStream (t : Team) (va : Nat) : Nat → Nat → Nat → Scan × State → Scan × State
  | 0, _, _, x => x
  | fuel + 1, off, want, x =>
    if want = 0 then x
    else
      let x := scanRun t .read (va + off) 8 x
      let here (n : Nat) (y : Scan × State) : List Byte :=
        Taken.bytes (memRead y.2 t.coreNo (Met.start OpViews.none) y.1.pages (va + off) n).1
      let h := here 8 x
      let z := fieldOf (leNat h) 0 2 == 1
      let x := if z then scanRun t .read (va + off + 8) 128 x else x
      let bm := if z then (here 136 x).drop 8 else []
      match blockLen h (countBits bm) with
      | none => x
      | some len =>
        let x := scanRun t .read (va + off) len x
        scanStream t va fuel (off + roundUp len 16) (want - 4096) x

/-- The forms of CPY and CPYS: both pairs, the row count, and the combinations that are ILLINS. -/
def copyForm (ok : Bool) : Form := Form.closed { Form.of .m .pair .pair (.src 1) with ill := !ok, writes := false }

def copyBar (ben : Bool) (bar : BitVec 4) : Option Nat := if ben then some bar.toNat else none

/-- What the checks of a copy found: its sides' pages, the failures, and the state after them. -/
structure CopyScan where
  src : Scan
  dst : Scan
  fails : List Fail
  after : State

/-- The checks of CPY and CPYS: rows in order, the source side of each first, then alignment and the barrier's count. -/
def copyScan (s : State) (t : Team) (x : CopyExt) (src dst rows units : Nat) : CopyScan :=
  let n := 16 * (x.bytes.toNat + 1)
  let sp := 16 * x.spitch.toNat
  let dp := 16 * x.dpitch.toNat
  let ts := tileSrc x.dir
  let td := tileDst x.dir
  let s := if x.dc then registerPending s t.coreNo else s
  let (sx, dx, found, s1) := (List.range rows).foldl (fun (acc : Scan × Scan × List Fail × State) i =>
    let (sx0, dx0, fs, s) := acc
    let (sx1, sf, s) : Scan × List Fail × State :=
      if ts then (sx0, tileRow s t (src + i * sp) n, s)
      else
        let y := if x.dc then scanStream t (src + i * sp) (ceilDiv n 4096) 0 n (sx0, s)
          else scanRun t .read (src + i * sp) n (sx0, s)
        (y.1, y.1.fails.drop sx0.fails.length, y.2)
    let (dx1, df, s) : Scan × List Fail × State :=
      if td then (dx0, tileRow s t (dst + i * dp) n, s)
      else
        let y := scanRun t .write (dst + i * dp) n (dx0, s)
        (y.1, y.1.fails.drop dx0.fails.length, y.2)
    (sx1, dx1, fs ++ sf ++ df, s)) (Scan.start, Scan.start, ([] : List Fail), s)
  ⟨sx, dx, found ++ (if ts then tileAlign src else sideAlign src sx) ++ (if td then tileAlign dst else sideAlign dst dx)
    ++ postFails s t (copyBar x.ben x.bar) units, s1⟩

/-- A side of a copy from what its checks took. -/
def copySide (tile : Bool) (mode : BitVec 4) (va : Nat) (y : Scan) : Side :=
  if tile then .tile va mode.toNat else .mem va y.pages

/-- The addresses of a copy's sides (R343). -/
def copySrc (s : State) (t : Team) (x : CopyExt) (k : Codes) : Nat :=
  if tileSrc x.dir then opnd s t .m .i32 k.a 0 else opnd s t .m .i64 k.a 0

def copyDst (s : State) (t : Team) (x : CopyExt) (k : Codes) : Nat :=
  if tileDst x.dir then opnd s t .m .i32 k.d 0 else opnd s t .m .i64 k.d 0

/-- Whether a register that a copy reads is dead. -/
def copyDead (t : Team) (x : CopyExt) (k : Codes) : Bool :=
  readsDead t .m k.d (if tileDst x.dir then 1 else 2) || readsDead t .m k.a (if tileSrc x.dir then 1 else 2) || readsDead t .m k.b 1

/-- CPY and CPYS at issue; a copy of no rows posts nothing. -/
def copyIssue (s : State) (d a b : Byte) (x : CopyExt) (ok : Bool) (units : Nat → Nat)
    (kind : Side → Side → Nat → Nat → Nat → Nat → CopyKind) : Out :=
  uniIssue s none (copyForm ok) d.toNat a.toNat b.toNat fun s _ k =>
    closing s 3 fun s t =>
      let rows := opnd s t .m .i32 k.b 0
      let src := copySrc s t x k
      let dst := copyDst s t x k
      let c := copyScan s t x src dst rows (if rows = 0 then 0 else units rows)
      let dead := copyDead t x k
      if rows = 0 ∧ (issueFault c.fails).isNone then .ok (s.modTeam s.cur fun t => t.noteDead dead)
      else
        asyncEnd s c.after t ⟨c.fails, c.src.poison || c.dst.poison⟩ dead fun s =>
          postCopy s t (kind (copySide (tileSrc x.dir) x.mode src c.src) (copySide (tileDst x.dir) x.mode dst c.dst) rows
            (16 * (x.bytes.toNat + 1)) (16 * x.spitch.toNat) (16 * x.dpitch.toNat)) (copyBar x.ben x.bar)
            (Met.start OpViews.none)

def execCpy (d a b : Byte) (x : CopyExt) (s : State) : Out :=
  copyIssue s d a b x x.cpyOk (fun rows => rows) fun src dst rows n sp dp => .cpy src dst rows n sp dp x.dc

def execCpys (d a b : Byte) (x : CopyExt) (s : State) : Out :=
  copyIssue s d a b x x.cpysOk (fun _ => 1) fun src dst rows n sp dp => .cpys x.eop.toNat src dst rows n sp dp

/-! ## CPYG (R347) -/

/-- Index words read at issue, each once, with whether one was poison. -/
def readIndexList (s : State) (t : Team) (pages : List PageX) (va n : Nat) : List Nat × Met × State :=
  (List.range n).foldl (fun (acc : List Nat × Met × State) i =>
    let a := va + 4 * i
    match pageOf pages a with
    | some p =>
      if p.leaf.typ ≠ 1 ∧ p.leaf.typ ≠ 3 ∧ p.leaf.tol = 0 then
        let pa := p.base + a % 65536
        let (w, bad, s) := readIndexWord (evictWords acc.2.2 t.coreNo (p.leaf.ca == 1) [pa / 4]) t.die pa
        (acc.1 ++ [w.toNat], if bad then acc.2.1.taint a else acc.2.1, s)
      else
        let (bs, m, s) := memRead acc.2.2 t.coreNo acc.2.1 pages a 4
        let bad := bs.any (·.2)
        (acc.1 ++ [if bad then poisonWord.toNat else leNat (Taken.bytes bs)], m, s)
    | none => (acc.1 ++ [0], acc.2.1, acc.2.2)) (([] : List Nat), Met.start OpViews.none, s)

/-- The first packed row with a counted index, where GCHK asks for it (R94, R386). -/
def gatherCause (gchk : Bool) (packed rowb trows : Nat) (idx : List Nat) (m : Met) : Met :=
  match idx.findIdx? fun v => decide (trows ≤ v ∧ v < 2 ^ 32 - 1) with
  | some i => if gchk then m.cause .gatherchk 0 (packed + i * rowb) else m
  | none => m

/-- What the checks of a gather found: its indices and what reading them met, its sides, the failures, whether a walk met
poison, and the state after them. -/
structure GatherScan where
  idx : List Nat
  met : Met
  packed : Scan
  table : Scan
  fails : List Fail
  poison : Bool
  after : State

/-- The checks of CPYG: the index list, then the rows in order, each with its source side first (R340, R347). -/
def gatherScan (s : State) (t : Team) (x : GatherExt) (packed table idx : Nat) : GatherScan :=
  let n := x.n.toNat + 1
  let rowb := 16 * (x.rowb.toNat + 1)
  let trows := x.trows.toNat
  let (tk, pk) : AccKind × AccKind := if x.scat then (.write, .read) else (.read, .write)
  let (ix, s1) := scanRun t .read idx (4 * n) (Scan.start, s)
  let (vals, m, s2) := if ix.fails.isEmpty then readIndexList (registerPending s1 t.coreNo) t ix.pages idx n
    else (([] : List Nat), Met.start OpViews.none, s1)
  let (tx, s3) := scanPage t tk table (Scan.start, s2)
  let (tx, px, fails, s4) := (List.range n).foldl (fun (acc : Scan × Scan × List Fail × State) i =>
    let tableSide (tx : Scan) (s : State) : Scan × State :=
      match vals[i]? with
      | some v => if v < trows then scanRun t tk (table + v * rowb) rowb (tx, s) else (tx, s)
      | none => (tx, s)
    let packedSide (px : Scan) (s : State) : Scan × List Fail × State :=
      if x.ts then (px, tileRow s t (packed + i * rowb) rowb, s)
      else
        let y := scanRun t pk (packed + i * rowb) rowb (px, s)
        (y.1, [], y.2)
    let (tx0, px0, fs, s) := acc
    if x.scat then
      let (px1, tf, s) := packedSide px0 s
      let (tx1, s) := tableSide tx0 s
      (tx1, px1, fs ++ px1.fails.drop px0.fails.length ++ tf ++ tx1.fails.drop tx0.fails.length, s)
    else
      let (tx1, s) := tableSide tx0 s
      let (px1, tf, s) := packedSide px0 s
      (tx1, px1, fs ++ tx1.fails.drop tx0.fails.length ++ px1.fails.drop px0.fails.length ++ tf, s))
    (tx, Scan.start, tx.fails, s3)
  let aligns := (if idx % 4 = 0 then [] else [alignFail idx])
    ++ (if x.scat then (if x.ts then tileAlign packed else sideAlign packed px) ++ sideAlign table tx
      else sideAlign table tx ++ (if x.ts then tileAlign packed else sideAlign packed px))
  ⟨vals, m, px, tx, ix.fails ++ fails ++ aligns ++ postFails s t (copyBar x.ben x.bar) n,
    ix.poison || tx.poison || px.poison, s4⟩

/-- The pages of a gather's index list, of the first byte of its table and of its packed side, translated. -/
def gatherPages (s : State) (t : Team) (x : GatherExt) (packed table idx : Nat) : State :=
  let n := x.n.toNat + 1
  let rowb := 16 * (x.rowb.toNat + 1)
  let r := scanPage t (if x.scat then .write else .read) table (scanRun t .read idx (4 * n) (Scan.start, s))
  if x.ts then r.2 else (scanRun t (if x.scat then .read else .write) packed (n * rowb) (Scan.start, r.2)).2

/-- CPYG: the team is parked while the pages are translated and the index words read; the issue then goes on (R137, R347). -/
def execCpyg (d a b : Byte) (x : GatherExt) (s : State) : Out :=
  uniIssue s none (Form.closed { Form.of .m .pair .pair .pair with ill := !x.ok, writes := false }) d.toNat a.toNat b.toNat fun s _ k =>
    closing s 3 fun s t =>
      let rowb := 16 * (x.rowb.toNat + 1)
      let trows := x.trows.toNat
      let packed := if x.ts then opnd s t .m .i32 k.d 0 else opnd s t .m .i64 k.d 0
      let table := opnd s t .m .i64 k.a 0
      let idx := opnd s t .m .i64 k.b 0
      let c := gatherScan s t x packed table idx
      if (issueFault c.fails).isNone && !t.walked then .error (parkFill (gatherPages s t x packed table idx) s.cur) else
      let dead := readsDead t .m k.d (if x.ts then 1 else 2) || readsDead t .m k.a 2 || readsDead t .m k.b 2
      asyncEnd s c.after t ⟨c.fails, c.poison⟩ dead fun s =>
        postCopy s t (.cpyg x.scat x.gchk (copySide x.ts x.mode packed c.packed) (.mem table c.table.pages) c.idx rowb trows
          (countingDie s t.die table c.table.pages))
          (copyBar x.ben x.bar) (gatherCause x.gchk packed rowb trows c.idx c.met)

/-! ## ACTLD (R348) -/

def execActld (a : Byte) (tbl : BitVec 2) (s : State) : Out :=
  uniIssue s none (noWriteForm .field .pair).closed 0 a.toNat 0 fun s _ k =>
    closing s 1 fun s t =>
      let va := opnd s t .m .i64 k.a 0
      let (x, s1) := scanRun t .read va 2048 (Scan.start, s)
      let fails := x.fails ++ (if va % 8 = 0 then [] else [alignFail va])
      asyncEnd s s1 t ⟨fails, x.poison⟩ (readsDead t .m k.a 2) fun s =>
        postCopy s t (.actld tbl.toNat (.mem va x.pages)) none (Met.start OpViews.none)

/-! ## Batches (R349, R350) -/

def execAseal (d : Byte) (s : State) : Out :=
  uniIssue s none (Form.of .m (.dst 1) .field .field).closed d.toNat 0 0 fun s _ k =>
    closing s 1 fun s t =>
      if 8 ≤ t.batches.length then .error (trapCause s s.cur .batchovf 1)
      else
        let b : Batch := ⟨t.nextBatch, t.openOps⟩
        let next := (t.nextBatch + 1) % 2 ^ 32
        let t1 := { t with batches := t.batches ++ [b], openOps := [], nextBatch := next }
        .ok (s.setTeam s.cur (t1.writeUni .m 1 k.d t.nextBatch))

/-- Whether a batch number is later than the last that the team has sealed. -/
def laterBatch (t : Team) (k : Nat) : Bool :=
  let d := (k + 1 + 2 ^ 32 - t.nextBatch) % 2 ^ 32
  decide (1 ≤ d ∧ d < 2 ^ 31)

/-- AWAIT and ATEST: `fin` follows the wait, and `wait` acts where some covered batch has not completed. -/
def batchIssue (s : State) (d : Role) (dc : Nat) (a : Byte) (fin : State → Codes → State) (wait : State → Codes → Nat → State) :
    Out :=
  uniIssue s none (Form.of .m d (.src 1) .field) dc a.toNat 0 fun s t k =>
    let n := opnd s t .m .i32 k.a 0
    if laterBatch t n then trapCause s s.cur .batchovf 2
    else
      let s := s.modTeam s.cur fun t => t.noteDead (readsDead t .m k.a 1)
      let bs := coveredBy t n
      if opsDone s (bs.flatMap (·.ops)) then
        match waitBatches s s.cur bs with
        | (some i, s) => trapAt s s.cur i
        | (none, s) => fin s k
      else wait s k n

def execAwait (a : Byte) (s : State) : Out :=
  batchIssue s .field 0 a (fun s _ => passBy s s.cur 1) fun s _ n => parkTeam (passBy s s.cur 1) s.cur (.batch n)

def execAtest (d a : Byte) (s : State) : Out :=
  let put (s : State) (k : Codes) (v : Nat) : State := s.modTeam s.cur fun t => (t.writeUni .m 1 k.d v).pass 1
  batchIssue s (.dst 1) d.toNat a (fun s k => put s k 1) fun s k _ => put s k 0

/-! ## Fibres (R352, R354) -/

def fibreWidthOk (elem : Nat) : Bool :=
  match elemWidth elem with
  | some w => w == 8 || w == 16 || w == 32
  | none => false

def Team.setFibre (t : Team) (n : Nat) (f : Fibre) : Team := { t with fibres := t.fibres.set n f }

def execFopen (n : BitVec 3) (a b cnt : Byte) (elem : BitVec 6) (s : State) : Out :=
  let f := Form.of .m .field .pair (if b = 164#8 then .field else .pair)
  uniIssue s none { f with ill := !fibreWidthOk elem.toNat, more := [(Role.src 1, cnt.toNat)] } 0 a.toNat b.toNat
    fun s t k =>
      let coord := opnd s t .m .i64 k.a 0
      let value := if b = 164#8 then none else some (opnd s t .m .i64 k.b 0)
      let bytes := (elemWidth elem.toNat).getD 8 / 8
      if coord % 4 ≠ 0 then trapAt s s.cur ⟨.align, 0, 0, coord⟩
      else if (value.getD 0) % bytes ≠ 0 then trapAt s s.cur ⟨.align, 0, 0, value.getD 0⟩
      else
        let fb : Fibre := ⟨true, coord, value, opnd s t .m .i32 cnt.toNat 0, elem.toNat, 0⟩
        let dead := readsDead t .m k.a 2 || (value.isSome && readsDead t .m k.b 2) || readsDead t .m cnt.toNat 1
        s.setTeam s.cur (((t.noteDead dead).setFibre n.toNat fb).pass 2)

/-- The frame of FADV and FEND: ILLINS on a closed fibre. -/
def fibreIssue (s : State) (d : Role) (dc : Nat) (n : BitVec 3) (act : Team → Codes → Fibre → Team) : Out :=
  uniIssue s none (Form.of .m d .field .field) dc 0 0 fun s t k =>
    let f := t.fibre n.toNat
    if f.isOpen then s.setTeam s.cur ((act t k f).pass 1) else trapCause s s.cur .illins

def execFadv (n : BitVec 3) (s : State) : Out :=
  fibreIssue s .field 0 n fun t _ f => t.setFibre n.toNat { f with pos := min (f.pos + 32) f.count }

def execFend (d : Byte) (n : BitVec 3) (s : State) : Out :=
  fibreIssue s (.dst 1) d.toNat n fun t k f => t.writeUni .m 1 k.d (oneIf (decide (f.count ≤ f.pos)))

def execFclose (n : BitVec 3) (s : State) : Out :=
  uniIssue s none (Form.of .m .field .field .field) 0 0 0 fun s t _ =>
    let f := t.fibre n.toNat
    s.setTeam s.cur ((t.setFibre n.toNat { f with isOpen := false }).pass 1)

end Sys2Proof.Machine
end

