-- ==== Sys2Proof/Machine/Matrix.lean ====
section
/-! DEFINITION. Matrix: the issue of the matrix instructions (R357 to R378): their operands, their checks, and their entries
in the core's matrix queue. -/

namespace Sys2Proof.Machine

/-! ## The queue (R358, R359) -/

/-- An instruction is rejected while no entry of the core's matrix queue is left for it (R325, R358). -/
def matrixQueueFull (s : State) (t : Team) : Bool := leftFor s t .matrix (16 - (s.core t.coreNo).matQ.length) == 0

/-- An entry joins the queue, and the registrations of the core's stores reach their homes (R201); an asynchronous one also joins
its team's open set. -/
def postMatrix (s : State) (t : Team) (kind : MatKind) (async : Bool) : State :=
  let id := s.nextId
  let s := { registerPending s t.coreNo with nextId := id + 1 }
  let s := s.modCore t.coreNo fun k => { k with matQ := k.matQ ++ [MatOp.mk id t.key kind none [] ⟨none, none⟩] }
  if async then
    let s := { s with ops := s.ops ++ [OpRec.mk id t.key false [] 0#512 false false] }
    s.modKey t.key fun t => { t with openOps := t.openOps ++ [id] }
  else s

/-- The end of a matrix instruction's issue: the trap, the rejection, or its entry posted. -/
def matrixEnd (s0 s1 : State) (t : Team) (c : Checked) (dead : Bool) (kind : MatKind) (async : Bool) : Except State State :=
  match issueFault c.fails with
  | some f => .error (leaveAfter s0 s1 t f true (trapAt (stainTeam s1 s0.cur c.poison) s0.cur f.info))
  | none =>
    if mustWait s0 s1 t then .error (parkFill s1 s0.cur)
    else if matrixQueueFull s1 t then .error (reject s0 s0.cur .matrix 1)
    else
      let s := postMatrix (stainTeam s1 s0.cur c.poison) t kind async
      .ok (s.modTeam s0.cur fun t => t.noteDead dead)

/-! ## Operands (R174, R361 to R364) -/

/-- A, or B: an even pair for a handle, three registers for a layout word. -/
def srcRole (handle : Bool) : Role := if handle then .pair else .run 3

def srcRaw (t : Team) (handle : Bool) (code : Nat) : Nat := joinWords (if handle then 2 else 3) fun i => t.regAt (code + i) 0

/-- The operand of repeat `r` with the increment `inc` (R371). -/
def matSource (handle : Bool) (raw r inc : Nat) : MatSrc :=
  if handle then
    let tr := (fieldOf raw 16 16 + r * fieldOf inc 0 16) % 65536
    let tc := (fieldOf raw 32 16 + r * fieldOf inc 16 16) % 65536
    .handle (fieldOf raw 0 11) (tr * (16 * 2 ^ fieldOf raw 48 2)) (tc * (16 * 2 ^ fieldOf raw 50 2))
  else
    .layout ((fieldOf raw 0 23 + r * inc) % 2 ^ 23) (fieldOf raw 24 4) (fieldOf raw 32 16) (fieldOf raw 48 16)
      (fieldOf raw 64 16) (fieldOf raw 80 16)

/-- The reserved bits of a handle, or of word 0 of a layout word, that must be zero. -/
def srcReserved (handle : Bool) (raw : Nat) : Bool :=
  if handle then fieldOf raw 11 5 != 0 || fieldOf raw 52 12 != 0 else fieldOf raw 23 1 != 0 || fieldOf raw 28 4 != 0

/-- A run of bytes of an operand, from its base address. -/
structure TileSpan where
  (base off n : Nat)
deriving DecidableEq, Repr

/-- Whether a run leaves the share of the block core that its base names (R171, R361). -/
def TileSpan.outside (b : Block) (x : TileSpan) : Bool :=
  decide (b.cfg.coresN ≤ tileCore x.base) || decide (b.shareBytes < tileOff x.base + x.off + x.n)

def TileSpan.units (x : TileSpan) : List Nat := tileUnits (x.base + x.off) x.n

/-- The runs that a layout operand reads: `d` planes, or the packed form of width `w`. -/
def layoutSpans (addr rp pp cp w d rows k : Nat) : List TileSpan :=
  (List.range (k / 32)).flatMap fun c => (List.range rows).flatMap fun i =>
    let at' := 16 * cp * c + rp * i
    if pp = 0 then [⟨addr, at', 4 * w⟩] else (List.range d).map fun p => ⟨addr, at' + 16 * pp * p, 4⟩

def tileFail (c : Cause) (a : Nat) : Fail := ⟨⟨c, 0, 0, a⟩, 0, 0, none⟩

/-- The first byte of a run that lies outside (R340). -/
def TileSpan.firstOut (b : Block) (x : TileSpan) : Nat :=
  x.base + if b.cfg.coresN ≤ tileCore x.base then x.off else max x.off (b.shareBytes - tileOff x.base)

/-- The failures of a list of runs: TILEBOUND of any, else TILEOWN of any. -/
def spanFails (b : Block) (num : Nat) (xs : List TileSpan) : List Fail :=
  match xs.find? fun x => x.outside b with
  | some x => [tileFail .tilebound (x.firstOut b)]
  | none => match xs.find? fun x => x.units.any fun u => !b.heldBy num u with
    | some x => [tileFail .tileown (tileFirst b num (x.base + x.off) x.n .tileown)]
    | none => []

/-- The checks of an operand of `rows` rows over `k` positions; `d` is the declared precision of a plane operand. -/
def srcFails (s : State) (t : Team) (handle : Bool) (raw : Nat) (src : MatSrc) (w : Nat) (d : Option Nat) (rows k : Nat) :
    List Fail :=
  match src with
  | .handle .. => if srcReserved handle raw then [⟨⟨.viewf, 2, 0, 0⟩, 0, 0, none⟩] else []
  | .layout addr _ rp pp cp rc =>
    if srcReserved handle raw || (pp == 0 && decide (rp < 4 * w)) || (pp == 0) == d.isSome || decide (rc < rows) then
      [tileFail .tilebound addr]
    else spanFails (blockFor s t) t.key.num (layoutSpans addr rp pp cp w (d.getD w) rows k)

/-- ACCBOUND of rows `r` to `r + n − 1` (R357). -/
def accFails (t : Team) (r n : Nat) : List Fail := if t.holdsRows r n then [] else [⟨⟨.accbound, 0, 0, 0⟩, 0, 0, none⟩]

/-- The 16 entries of the codebook in eight registers from `cb` (R364). -/
def readBook (t : Team) (cb : Nat) : List Nat :=
  (List.range 16).map fun c => fieldOf (t.regAt (cb + c / 2) 0).toNat (16 * (c % 2)) 16

def bookFields (named : Bool) (cb : Byte) : List (Role × Nat) := if named then [(Role.book, cb.toNat)] else []

/-- The form of a matrix instruction on the M pipe; each but MRD is a closing instruction. -/
def matForm (d a b : Role) (ok : Bool) (more : List (Role × Nat)) : Form :=
  Form.closed { Form.of .m d a b with ill := !ok, more := more, writes := false }

/-- Whether a register that an operand reads is dead. -/
def srcDead (t : Team) (handle : Bool) (code : Nat) : Bool := readsDead t .m code (if handle then 2 else 3)

/-! ## MMA and MMAL (R366 to R371) -/

/-- LUT4 is one of the two formats (R360, R364). -/
def usesBook (x : MmaExt) : Bool := x.fa == 13#4 || x.fb == 13#4

/-- The MMA that repeat `r` performs, from the values read at issue. -/
def mmaRepeat (x : MmaExt) (book : List Nat) (ra rb acc rs ia ib ic r : Nat) : MmaOp :=
  let blka := blockSize x.blka
  let blkb := blockSize x.blkb
  { acc := (acc + r * ic) % 2 ^ 32, rs := (rs + r * ic) % 2 ^ 32,
    a := matSource x.ha ra r ia, b := matSource x.hb rb r ib,
    fa := x.fa.toNat, fb := x.fb.toNat, m := 16 * (x.m.toNat + 1), n := 16 * (x.n.toNat + 1), k := 32 * (x.k.toNat + 1),
    zero := x.zero && (r == 0 || ic != 0 || blka + blkb != 0),
    pln := x.pln.toNat, prec := x.prec.toNat, codebook := book, cbf := x.cbf,
    blka := blka, blkb := blkb, rsum := x.rsum }

/-- The checks of one repeat (R361 to R364, R369). -/
def mmaFails (s : State) (t : Team) (x : MmaExt) (ra rb : Nat) (op : MmaOp) : List Fail :=
  srcFails s t x.ha ra op.a ((elemWidth op.fa).getD 8) op.planeA op.m op.k
    ++ srcFails s t x.hb rb op.b ((elemWidth op.fb).getD 8) op.planeB op.n op.k
    ++ accFails t op.acc (op.parts * op.m) ++ (if op.rsum then accFails t op.rs op.parts else [])

/-- MMA, and MMAL with its increments: `reps` repeats in one entry. -/
def mmaIssue (s : State) (d a b : Byte) (x : MmaExt) (incs : List Byte) (reps words : Nat) : Out :=
  let more := bookFields (usesBook x) x.cb ++ (if x.rsum then [(Role.src 1, x.rs.toNat)] else [])
    ++ incs.map fun c => (Role.src 1, c.toNat)
  uniIssue s none (matForm (.src 1) (srcRole x.ha) (srcRole x.hb) x.ok more) d.toNat a.toNat b.toNat fun s _ k =>
    closing s words fun s t =>
      let read (c : Nat) : Nat := opnd s t .m .i32 c 0
      let inc (i : Nat) : Nat := match incs[i]? with
        | some c => read c.toNat
        | none => 0
      let book := if usesBook x then readBook t x.cb.toNat else []
      let ra := srcRaw t x.ha k.a
      let rb := srcRaw t x.hb k.b
      let ops := (List.range reps).map fun r =>
        mmaRepeat x book ra rb (read k.d) (read x.rs.toNat) (inc 0) (inc 1) (inc 2) r
      let dead := srcDead t x.ha k.a || srcDead t x.hb k.b || readsDead t .m k.d 1
        || more.any fun y => readsDead t .m y.2 y.1.width
      matrixEnd s s t ⟨ops.flatMap (mmaFails s t x ra rb), false⟩ dead
        (.mma (x.df == 1#2 && inc 0 == 0) (x.df == 0#2 && inc 2 == 0) ops) true

def execMma (d a b : Byte) (x : MmaExt) (s : State) : Out := mmaIssue s d a b x [] 1 3

def execMmal (d a b : Byte) (x : MmaExt) (ainc binc cinc steps : Byte) (s : State) : Out :=
  mmaIssue s d a b x [ainc, binc, cinc] (steps.toNat + 1) 4

/-! ## MBIN (R372) -/

/-- MBIN as an operation of the unit: packed BIN operands, without block scaling or row sums. -/
def mbinOp (x : MbinExt) (ra rb acc : Nat) : MmaOp :=
  { acc := acc, rs := 0, a := matSource x.ha ra 0 0, b := matSource x.hb rb 0 0, fa := 12, fb := 12,
    m := 16 * (x.m.toNat + 1), n := 16 * (x.n.toNat + 1), k := 32 * (x.k.toNat + 1), zero := x.zero,
    pln := 0, prec := 0, codebook := [], cbf := false, blka := 0, blkb := 0, rsum := false }

def execMbin (d a b : Byte) (x : MbinExt) (s : State) : Out :=
  uniIssue s none (matForm (.src 1) (srcRole x.ha) (srcRole x.hb) x.ok []) d.toNat a.toNat b.toNat fun s _ k =>
    closing s 3 fun s t =>
      let ra := srcRaw t x.ha k.a
      let rb := srcRaw t x.hb k.b
      let op := mbinOp x ra rb (opnd s t .m .i32 k.d 0)
      let fails := srcFails s t x.ha ra op.a 1 none op.m op.k ++ srcFails s t x.hb rb op.b 1 none op.n op.k
        ++ accFails t op.acc op.m
      let dead := srcDead t x.ha k.a || srcDead t x.hb k.b || readsDead t .m k.d 1
      matrixEnd s s t ⟨fails, false⟩ dead (.mbin x.bop.toNat op) true

/-! ## MSPR (R373, R374) -/

/-- The element codes of a fibre that MSPR takes. -/
def sparseElem (e : Nat) : Bool := e == 0 || e == 1 || e == 5 || e == 6 || e == 7 || e == 8

/-- The runs of B in row form. -/
def rowSpans (addr rp w n k : Nat) : List TileSpan := (List.range k).map fun i => ⟨addr, rp * i, n * w / 8⟩

/-- The checks of B in MSPR. -/
def sparseSrcFails (s : State) (t : Team) (handle : Bool) (raw : Nat) (src : MatSrc) (w n k : Nat) : List Fail :=
  match src with
  | .handle .. => if srcReserved handle raw then [⟨⟨.viewf, 2, 0, 0⟩, 0, 0, none⟩] else []
  | .layout addr _ rp pp _ rc =>
    if srcReserved handle raw || pp != 0 || decide (rc < k) || decide (8 * rp < n * w) then [tileFail .tilebound addr]
    else spanFails (blockFor s t) t.key.num (rowSpans addr rp w n k)

/-- The pages of the entries of a fibre, from its position. -/
def scanFibre (t : Team) (f : Fibre) (x : Scan × State) : Scan × State :=
  let left := f.count - f.pos
  let x := scanRun t .read (f.coord + 4 * f.pos) (4 * left) x
  match f.value with
  | some va =>
    let z := (elemWidth f.elem).getD 8 / 8
    scanRun t .read (va + z * f.pos) (z * left) x
  | none => x

def execMspr (d b : Byte) (fib : BitVec 3) (x : MsprExt) (s : State) : Out :=
  let book := x.fb == 13#4
  uniIssue s none (matForm (.src 1) .field (srcRole x.hb) (x.ok fib) (bookFields book x.cb)) d.toNat 0 b.toNat fun s _ k =>
    closing s 3 fun s t =>
      let fibres := (List.range (x.nf.toNat + 1)).map fun i => t.fibre (fib.toNat + i)
      if fibres.any fun f => !f.isOpen || !sparseElem f.elem then .error (trapCause s s.cur .illins)
      else
        let raw := srcRaw t x.hb k.b
        let op : MmaOp :=
          { acc := opnd s t .m .i32 k.d 0, rs := 0, a := .handle 0 0 0, b := matSource x.hb raw 0 0, fa := 0,
            fb := x.fb.toNat, m := fibres.length, n := 16 * (x.n.toNat + 1), k := 32 * (x.k.toNat + 1), zero := x.zero,
            pln := 0, prec := 0, codebook := if book then readBook t x.cb.toNat else [], cbf := x.cbf,
            blka := 0, blkb := 0, rsum := false }
        let w := (elemWidth op.fb).getD 8
        let (sc, s1) := fibres.foldl (fun y f => scanFibre t f y) (Scan.start, s)
        let fails := sc.fails ++ sparseSrcFails s t x.hb raw op.b w op.n op.k ++ accFails t op.acc op.m
        let dead := srcDead t x.hb k.b || readsDead t .m k.d 1 || (book && readsDead t .m x.cb.toNat 8)
        matrixEnd s s1 t ⟨fails, sc.poison⟩ dead (.mspr fibres sc.pages op) true

/-! ## MSCA and MSZP (R375, R376) -/

/-- The checks of a vector of `n` elements of `z` bytes in the tile store. -/
def vectorFails (s : State) (t : Team) (a n z : Nat) : List Fail :=
  (if a % z = 0 then [] else [tileFail .align a]) ++ tileRow s t a (n * z)

/-- Bytes of a scale of MSCA's codes. -/
def scaleSize (c : Nat) : Nat := if c = 3 then 2 else 1
/-- Bytes of a column scale, and of a zero point, of MSZP's codes. -/
def zpScaleSize (c : Nat) : Nat := if c = 0 then 4 else if c = 1 then 2 else 1
def zeroPointSize (c : Nat) : Nat := if c = 3 then 4 else 1

def execMsca (d a b : Byte) (x : MscaExt) (s : State) : Out :=
  let scaled := x.sfa != 0#2 || x.sfb != 0#2
  uniIssue s none (matForm (.src 1) (.src 1) (if scaled then .run 2 else .field) (x.ok b) []) d.toNat a.toNat b.toNat
    fun s _ k =>
    closing s 2 fun s t =>
      let m := x.m.toNat + 1
      let n := 16 * (x.n.toNat + 1)
      let dst := opnd s t .m .i32 k.d 0
      let src := opnd s t .m .i32 k.a 0
      let ta := if scaled then (t.regAt k.b 0).toNat else 0
      let tb := if scaled then (t.regAt (k.b + 1) 0).toNat else 0
      let fails := (if x.sfa = 0#2 then [] else vectorFails s t ta m (scaleSize x.sfa.toNat))
        ++ (if x.sfb = 0#2 then [] else vectorFails s t tb n (scaleSize x.sfb.toNat))
        ++ accFails t dst m ++ accFails t src m
      let dead := readsDead t .m k.d 1 || readsDead t .m k.a 1
        || (x.sfa != 0#2 && t.isDead k.b) || (x.sfb != 0#2 && t.isDead (k.b + 1))
      matrixEnd s s t ⟨fails, false⟩ dead (.msca dst src m n x.sfa.toNat x.sfb.toNat x.zero ta tb) true

def execMszp (d a b : Byte) (x : MszpExt) (s : State) : Out :=
  let zp := x.zf != 0#2
  let more := if zp then [(Role.src 1, x.rs.toNat)] else []
  uniIssue s none (matForm (.src 1) (.src 1) (.run 2) x.ok more) d.toNat a.toNat b.toNat fun s _ k =>
    closing s 2 fun s t =>
      let m := x.m.toNat + 1
      let n := 16 * (x.n.toNat + 1)
      let dst := opnd s t .m .i32 k.d 0
      let src := opnd s t .m .i32 k.a 0
      let rs := if zp then opnd s t .m .i32 x.rs.toNat 0 else 0
      let ts := (t.regAt k.b 0).toNat
      let tz := (t.regAt (k.b + 1) 0).toNat
      let fails := vectorFails s t ts n (zpScaleSize x.sf.toNat)
        ++ (if zp then vectorFails s t tz n (zeroPointSize x.zf.toNat) else [])
        ++ accFails t dst m ++ accFails t src m ++ (if zp then accFails t rs 1 else [])
      let dead := readsDead t .m k.d 1 || readsDead t .m k.a 1 || t.isDead k.b
        || (zp && (t.isDead (k.b + 1) || readsDead t .m x.rs.toNat 1))
      matrixEnd s s t ⟨fails, false⟩ dead (.mszp dst src m n x.sf.toNat x.zf.toNat x.zero ts tz rs) true

/-! ## MZERO, MRD and MWR (R377, R378) -/

def execMzero (a b : Byte) (s : State) : Out :=
  uniIssue s none (matForm .field (.src 1) (.src 1) true []) 0 a.toNat b.toNat fun s _ k =>
    closing s 1 fun s t =>
      let row := opnd s t .m .i32 k.a 0
      let count := opnd s t .m .i32 k.b 0
      if count = 0 then .error (trapCause s s.cur .illins)
      else
        matrixEnd s s t ⟨accFails t row count, false⟩ (readsDead t .m k.a 1 || readsDead t .m k.b 1) (.mzero row count) true

/-- Columns of a window. -/
def windowWidth (wc : BitVec 2) : Nat := 16 * 2 ^ wc.toNat

def execMrd (d a : Byte) (wc : BitVec 2) (col : BitVec 7) (s : State) : Out :=
  uniIssue s none { matForm (.run 1) (.src 1) .field (windowOk wc col) [] with meets := [] } d.toNat a.toNat 0 fun s t k =>
    let w := windowWidth wc
    let row := opnd s t .m .i32 k.a 0
    match matrixEnd s s t ⟨accFails t row (ceilDiv t.tl w), false⟩ (readsDead t .m k.a 1) (.mrd k.d row col.toNat w) false with
    | .ok s => passBy s s.cur 2
    | .error s => s

def execMwr (d a : Byte) (wc : BitVec 2) (col : BitVec 7) (s : State) : Out :=
  uniIssue s none (matForm (.run 1) (.src 1) .field (windowOk wc col) []) d.toNat a.toNat 0 fun s _ k =>
    closing s 2 fun s t =>
      let w := windowWidth wc
      let row := opnd s t .m .i32 k.a 0
      matrixEnd s s t ⟨accFails t row (ceilDiv t.tl w), false⟩ (readsDead t .m k.a 1 || t.isDead k.d)
        (.mwr row col.toNat w (t.reg k.d)) true

end Sys2Proof.Machine
end

