-- ==== Sys2Proof/Machine/Transfer.lean ====
section
/-! DEFINITION. Transfer: TSGIVE and TSTAKE, which pass tile-store units between teams of a block (R176, R351), and words
that no instruction has (R253, R265, R266). -/

namespace Sys2Proof.Machine

/-! ## The units that an operation touches -/

def sideUnits (x : Side) (rows bytes pitch : Nat) : List Nat :=
  match x with
  | .tile a _ => (List.range rows).flatMap fun i => tileUnits (a + i * pitch) bytes
  | .mem .. => []

def CopyKind.touches : CopyKind → List Nat
  | .cpy src dst rows bytes sp dp _ => sideUnits src rows bytes sp ++ sideUnits dst rows bytes dp
  | .cpys _ src dst rows bytes sp dp => sideUnits src rows bytes sp ++ sideUnits dst rows bytes dp
  | .cpyg _ _ packed _ idx rowb _ _ => sideUnits packed idx.length rowb rowb
  | .actld .. => []

def srcUnits (x : MatSrc) (w : Nat) (d : Option Nat) (rows k : Nat) : List Nat :=
  match x with
  | .layout addr _ rp pp cp _ => (layoutSpans addr rp pp cp w (d.getD w) rows k).flatMap TileSpan.units
  | .handle .. => []

def mmaUnits (op : MmaOp) : List Nat :=
  srcUnits op.a ((elemWidth op.fa).getD 8) op.planeA op.m op.k ++ srcUnits op.b ((elemWidth op.fb).getD 8) op.planeB op.n op.k

def MatKind.touches : MatKind → List Nat
  | .mma _ _ reps => reps.flatMap mmaUnits
  | .mbin _ op => mmaUnits op
  | .mspr _ _ op => match op.b with
    | .layout addr _ rp _ _ _ => (rowSpans addr rp ((elemWidth op.fb).getD 8) op.n op.k).flatMap TileSpan.units
    | .handle .. => []
  | .msca _ _ m n sfa sfb _ ta tb =>
    (if sfa = 0 then [] else tileUnits ta (m * scaleSize sfa)) ++ (if sfb = 0 then [] else tileUnits tb (n * scaleSize sfb))
  | .mszp _ _ _ n sf zf _ ts tz _ =>
    tileUnits ts (n * zpScaleSize sf) ++ (if zf = 0 then [] else tileUnits tz (n * zeroPointSize zf))
  | .mzero .. | .mwr .. | .mrd .. => []

/-- Asynchronous operations of a team that have not completed and touch one of the units. -/
def touching (s : State) (t : Team) (us : List Nat) : List Nat :=
  let meets (xs : List Nat) : Bool := xs.any us.contains
  (((s.core t.coreNo).copyQ.filter fun o => o.team == t.key && meets o.kind.touches).map (·.id))
    ++ (((s.core t.coreNo).matQ.filter fun o => o.team == t.key && meets o.kind.touches).map (·.id))

/-! ## TSGIVE and TSTAKE -/

def setUnits (s : State) (key : TeamKey) (us : List Nat) (o : UnitOwner) : State :=
  s.modBlock key fun b => { b with units := b.units.map fun u => if us.contains u.1 then (u.1, o) else u }

def execTsgive (a b : Byte) (s : State) : Out :=
  uniIssue s none (Form.closed { Form.of .m .field (.src 1) (.src 1) with writes := false }) 0 a.toNat b.toNat fun s _ k =>
    closing s 1 fun s t =>
      let h := opnd s t .m .i32 k.a 0
      let dest := opnd s t .m .i32 k.b 0
      let blk := blockFor s t
      if !handleOk blk h then .error (trapCause s s.cur .tilebound)
      else if t.cfg.nt ≤ dest ∨ (handleList h).any (fun u => !blk.heldBy t.key.num u) then .error (trapCause s s.cur .tileown)
      else
        let ops := touching s t (handleList h)
        let s := clearW (beforeRelease s s.cur .quad) s.cur
        let dead := readsDead t .m k.a 1 || readsDead t .m k.b 1
        let o : UnitOwner := if ops.isEmpty then .offered dest else .offering dest ops
        .ok ((setUnits s t.key (handleList h) o).modTeam s.cur fun t => t.noteDead dead)

def execTstake (d a : Byte) (s : State) : Out :=
  uniIssue s none (Form.closed { Form.of .m (.dst 1) (.src 1) .field with writes := false }) d.toNat a.toNat 0 fun s _ k =>
    closing s 1 fun s t =>
      let h := opnd s t .m .i32 k.a 0
      if !handleOk (blockFor s t) h then .error (trapCause s s.cur .tilebound)
      else
        let s := offerEffect s t.key
        let dead := readsDead t .m k.a 1
        let put (s : State) (v : Nat) : State := s.modTeam s.cur fun t => (t.noteDead dead).writeUni .m 1 k.d v
        if (handleList h).all fun u => look u (blockFor s t).units == some (.offered t.key.num) then
          .ok (acquireTeam (put (setUnits s t.key (handleList h) (.held t.key.num)) 1) s.cur .quad none)
        else .ok (put s 0)

/-! ## Reserved codes -/

/-- A word with a reserved opcode, or a prefix before one, traps with ILLINS (R253, R263 to R266). -/
def execReservedCodeIssue (_ : Option IWord) (_ : Option IWord) (_ : IWord) (s : State) : Out :=
  withTeam s fun _ => trapCause s s.cur .illins

end Sys2Proof.Machine
end

