-- ==== Sys2Proof/Machine/Lantern.lean ====
section
/-! DEFINITION. Lantern: write-back from the home L2s to the stacks, the rows of a parked bank (R59, R60), CRC-32C (R24,
R42), and the Lantern dump (R38 to R42). -/

namespace Sys2Proof.Machine

/-- An event of the powered module; with module power removed no agent acts (R14). -/
def withPower (s : State) (f : State → State) : Out := if s.powered then .next (f s) else .fault .noPower

/-! ## Write-back -/

/-- Every dirty byte of the L2s goes to the stacks. -/
def writeBackAll (s : State) : State := ((s.l2.map fun c => c.1 / 32).dedup).foldl writeBackSector s

/-- Every dirty word of the L1s, the L2s and the Canopies goes to its home memory (R36). -/
def flushAll (s : State) : State :=
  let s := (List.range 64).foldl drainCore s
  let s := (s.die 0).canopy.foldl (fun s (e : Nat × CanWord) =>
    returnHost s e.1 e.2) s
  writeBackAll s

/-- Bytes written to the stacks past the caches, from a sector boundary; the host loses the lines that it holds of them (R22). -/
def storeDirect (s : State) (a : Nat) (bs : List Byte) : State :=
  let s := backInvalidate s ((List.range ((a + bs.length + 127) / 128 - a / 128)).map (a / 128 + ·))
  (cutRuns 32 bs).zipIdx.foldl (fun s (x : List Byte × Nat) =>
    let sec := a / 32 + x.2
    let s := { s with l2 := s.l2.filter fun c => !(c.1 / 32 == sec && decide (c.1 % 32 < x.1.length)) }
    let s := { s with l2held := s.l2held.filter (· != sec) }
    match place s (32 * sec) with
    | some n => s.writeSector n (x.1.zipIdx.map fun y => (y.2, y.1))
    | none => s.countDrop) s

/-! ## Rows of a parked bank (R60) -/

/-- A sector's bytes and mark moved to another place: a burst read and a burst written (R50, R55). -/
def moveSector (s : State) (src dst : Nat) : State :=
  let bs := s.sectorBytes src
  let s := (s.countBurst (sectorStack src) 32).countBurst (sectorStack dst) 0
  let s := { s with dram := Memory.writeN s.dram (32 * dst) bs }
  if s.isPoisoned src then s.markPoison dst else s.clearPoison dst

/-- One row copied to the parking area, or back from it; the host loses a line that it holds of what is overwritten (R22). -/
def copyRow (s : State) (stack : Nat) (p : Parked) (row : Nat) (back : Bool) : State :=
  let line (col : Nat) : Nat := (stack / 2 * 2 ^ 37 + parkBase (stack / 2) + 32 * parkSlot (stack / 2) p stack (row * 32 + col)) / 128
  let s := if back then s else backInvalidate s ((List.range 32).map line)
  (List.range 32).foldl (fun s col =>
    let x : Spot := ⟨stack, p.pch, p.bg, p.bank, row, col⟩
    match parkSpot s p x with
    | some y => if back then moveSector s y.sector x.sector else moveSector s x.sector y.sector
    | none => s) s

/-- The controller's parked bank changes, and the parking record with it (R59, R60); the host loses the lines that it holds of the
record (R22). -/
def setParked (s : State) (n : Nat) (p : Option Parked) : State :=
  let s := backInvalidate s ((List.range 32).map ((n / 2 * 2 ^ 37 + parkBase (n / 2)) / 128 + ·))
  storeParkRecord (s.setStk n { s.stk n with parked := p }) (n / 2) (p.map fun p => (n, p))

/-- A test that a warm reset cuts short ends with the whole bank parked. -/
def parkWhole (s : State) (stack : Nat) : State :=
  match (s.stk stack).parked with
  | none => s
  | some p =>
    let rows := if p.restoring then List.range p.rows else (List.range (65536 - p.rows)).map (p.rows + ·)
    let s := rows.foldl (fun s row => copyRow s stack p row false) s
    setParked s stack (some { p with rows := 65536, restoring := false })

/-! ## CRC-32C -/

def crcByte (c : Word) (b : Byte) : Word :=
  (List.range 8).foldl (fun (c : Word) _ => if c.getLsbD 0 then (c >>> 1) ^^^ 0x82F63B78#32 else c >>> 1)
    (c ^^^ b.setWidth 32)

/-- CRC-32C of a list of bytes, as that code is commonly computed: reflected, with ones at both ends (PRESUMED, log entry 41). -/
def crc32c (bs : List Byte) : Word := ~~~(bs.foldl crcByte 0xFFFFFFFF#32)

/-! ## The dump's records (R42) -/

/-- The summary word of a hierarchical mask (R152). -/
def maskSummary (m : Mask) : Nat :=
  (List.range 32).foldl (fun v w => if m.extractLsb' (32 * w) 32 = 0#32 then v else v + 2 ^ w) 0

/-- The form in which a control-stack entry is dumped (R154). -/
def CtlEntry.code (e : CtlEntry) : Nat :=
  (match e.kind with
    | .ifK => 1
    | .elseK => 2
    | .loopK => 3) * 2 ^ 61 + maskSummary e.saved

/-- Bytes of an entry whose contents the manual names and whose layout it leaves open (log entry 8). -/
def openBytes (fields : List Nat) (n : Nat) : List Byte := (List.range n).map (Config.openContents fields)

/-- A record of a dump: type, agent and payload. -/
structure DumpRec where
  type : Nat
  agent : Word
  payload : List Byte
deriving DecidableEq, Repr

def DumpRec.bytes (r : DumpRec) : List Byte :=
  leBytes 2 r.type ++ leBytes 2 1 ++ leBytes 4 (16 + r.payload.length) ++ leBytes 4 r.agent.toNat
    ++ leBytes 4 (crc32c r.payload).toNat ++ r.payload

/-- An error-log entry as R21 lays it out. -/
def LogEntry.bytes (e : LogEntry) : List Byte :=
  leBytes 8 e.cycle ++ leBytes 4 e.agent.toNat ++ leBytes 2 e.code ++ leBytes 2 e.detail ++ leBytes 8 e.addr ++ leBytes 8 0

/-- The payload of a TEAMCTX record. Control-stack entries come in the order of their pushes; those not in use are zeros (log entry
94). -/
def teamPayload (t : Team) : List Byte :=
  leBytes 8 t.pc ++ leBytes 4 (maskSummary t.mask) ++ leBytes 4 t.status.toNat ++ leBytes 4 t.allot ++ leBytes 4 t.tl
    ++ leBytes 8 t.ckpt.head ++ leBytes 128 t.mask.toNat
    ++ t.stack.reverse.flatMap (fun e => leBytes 8 e.code) ++ List.replicate (8 * (64 - t.stack.length)) 0#8
    ++ (List.range t.allot).flatMap fun i => (t.reg i).flatMap fun w => leBytes 4 w.toNat

/-- The entry of a queue in the QUEUE record: ring base, head, tail, expected sequence number, priority, enable and current launch.
The head is the slot of the oldest held launch, or of the next record where none is held; the tail is the slot of the next record. -/
def queueEntry (s : State) (q : Nat) : List Byte :=
  let next := s.field (QSEQ q) 0 32
  let held := (heldBy s q).map (·.seq)
  openBytes ([s.field (QBASE q) 16 23, held.headD next % 256, next % 256, next, s.field (QCTL q) 8 3, s.field (QCTL q) 0 1] ++ held.take 1) 64

/-- The entry of a valid TLB entry in the XLATE record, of a core's L1 TLB or a die's L2 TLB (R215). -/
def tlbCode (unit : Nat) (e : TlbEntry) : List Byte :=
  let b (x : Bool) : Nat := if x then 1 else 0
  let l := e.leaf
  openBytes [unit, e.asid, b e.big, e.vpage, l.addr, b l.p, b l.sealedP, b l.sync, b l.x, b l.w, b l.r, l.ca, l.tol, l.typ] 16

/-- Walkers of the device (R215). -/
def walkers : Nat := 4 * 64

/-- The XLATE record: what every valid TLB entry holds, then the state of each walker, which is open (log entry 8). -/
def xlatePayload (s : State) : List Byte :=
  (s.cores.zipIdx.flatMap fun k => k.1.tlb.flatMap (tlbCode k.2)) ++ (s.dies.zipIdx.flatMap fun d => d.1.tlb2.flatMap (tlbCode (64 + d.2)))
    ++ (List.range walkers).flatMap fun w => openBytes [w, s.tick] 16

/-- The records of a dump, in the order of R42's table, with the teams as they stood at entry to the fatal state. A log's
entries come by slot, and a team's index is its slot (DESIGN CHOICE, log entry 94). -/
def dumpRecords (s : State) (teams : List Team) : List DumpRec :=
  let dieRec (type d : Nat) (bs : List Byte) : DumpRec := ⟨type, agentWord d 0 0 0, bs⟩
  [⟨1, 0#32, (List.range 64).flatMap (queueEntry s)⟩]
    ++ (List.range 4).map (fun d => dieRec 3 d ((s.die d).log.flatMap fun e => match e with
      | some e => e.bytes
      | none => []))
    ++ (List.range 4).map (fun d => dieRec 4 d (openBytes [d] 8
      ++ (List.range 32).flatMap fun i => leBytes 8 (s.mreg (CNT d i)).toNat))
    ++ [⟨5, 0#32, xlatePayload s⟩]
    ++ teams.map (fun t => ⟨2, agentWord t.die t.core t.part t.slot, teamPayload t⟩)
    ++ [⟨0xFFFF, 0#32, []⟩]

/-- The records that fit in the area after the header: their bytes, their number, and whether all fit. -/
def fitRecords : List DumpRec → Nat → List Byte × Nat × Bool
  | [], _ => ([], 0, true)
  | r :: rs, used =>
    let bs := r.bytes
    if 2 ^ 30 < used + bs.length then ([], 0, false)
    else
      let (tail, n, all) := fitRecords rs (used + bs.length)
      (bs ++ tail, n + 1, all)

/-! ## The area (R39 to R41) -/

/-- Device-local address of the Lantern area: die 0's offset. -/
def lanternBase : Nat := 0x1FC0000000
def lanternMagic : Nat := 0x4E52544C

def lanternFlags (s : State) : Nat := leNat (homeBytes s (lanternBase + 6) 2)

/-- A dump is unacknowledged while the magic is valid and ACK is 0 (R40). -/
def lanternUnacked (s : State) : Bool :=
  leNat (homeBytes s lanternBase 4) == lanternMagic && fieldOf (lanternFlags s) 3 1 == 0

def setLanternFlags (s : State) (v : Nat) : State :=
  storeDirect s lanternBase (homeBytes s lanternBase 6 ++ leBytes 2 v ++ homeBytes s (lanternBase + 8) 24)

/-- LANTSTAT as a header's contents give it. -/
def lantStat (valid done part ovwr : Bool) (bytes recs : Nat) : DWord :=
  let b (x : Bool) (i : Nat) : Nat := if x then 2 ^ i else 0
  BitVec.ofNat 64 (bytes % 2 ^ 32 * 2 ^ 32 + recs % 2 ^ 16 * 2 ^ 16 + b ovwr 3 + b part 2 + b done 1 + b valid 0)

/-- The device rebuilds LANTSTAT from the header (R40). -/
def reloadLantStat (s : State) : State :=
  let f := lanternFlags s
  s.setMreg LANTSTAT (lantStat (lanternUnacked s) (fieldOf f 0 1 == 1) (fieldOf f 1 1 == 1) (fieldOf f 2 1 == 1)
    (leNat (homeBytes s (lanternBase + 8) 8)) (leNat (homeBytes s (lanternBase + 0x10) 4)))

/-- Firmware writes a dump of the first `n` records, cut short or whole; nothing where none is due (R38 to R42). -/
def writeDump (s : State) (n : Nat) (cut : Bool) : State :=
  match s.dumpDue with
  | none => s
  | some due =>
    let (bs, recs, all) := fitRecords ((dumpRecords s due.teams).take n) 64
    let part := cut || !all
    let flags := 1 + (if part then 2 else 0) + (if due.unacked then 4 else 0)
    let header := leBytes 4 lanternMagic ++ leBytes 2 1 ++ leBytes 2 flags ++ leBytes 8 (64 + bs.length) ++ leBytes 4 recs
      ++ leBytes 4 (s.field MODSTAT 24 8) ++ leBytes 2 s.devnum ++ leBytes 2 (s.field INCARN 0 16) ++ leBytes 4 0
      ++ leBytes 8 due.cycle ++ leBytes 8 due.modstat.toNat ++ leBytes 16 0
    let s := storeDirect (storeDirect s (lanternBase + 0x40) bs) lanternBase header
    { s.nextTick with dumpDue := none }.setMreg LANTSTAT
      (lantStat true true part due.unacked (64 + bs.length) recs)

/-- Records of the dump that is due. -/
def dueRecords (s : State) : Nat := match s.dumpDue with
  | some due => (dumpRecords s due.teams).length
  | none => 0

/-- The whole dump. -/
def lanternDumpNow (s : State) : State := writeDump s (dueRecords s) false

end Sys2Proof.Machine
end

