-- ==== Sys2Proof/Machine/EvModule.lean ====
section
/-! DEFINITION. EvModule: the events of the module as a whole: power, bring-up, the move to full service, resets, thermal
events, fatal errors and dumps, the error log, configuration, IDE keys and MSI-X (R14 to R42, R104, R213). -/

namespace Sys2Proof.Machine

/-! ## Power and bring-up (R14, R33, R48) -/

/-- A device with no state of its own but its fused identity key (R36) and what the model keeps of its surroundings. -/
def State.bare (s : State) : State :=
  { State.reset with
    agenda := s.agenda, tick := s.tick, turn := s.turn, nextId := s.nextId, outbox := s.outbox, identityKey := s.identityKey }

/-- Module power is applied; memory lists nothing, so the view table's descriptors and the Lantern magic are zero (R40,
R69). -/
def execColdPowerOn (s : State) : Out := .next s.bare

def execPowerRemoved (s : State) : Out := withPower s fun s => { s.bare with powered := false }

/-- A stack trains, or one that has trained is calibrated too. In the fatal state none does (DESIGN CHOICE, log entry 103). -/
def execStackTrained (n : BitVec 3) (calibrated : Bool) (s : State) : Out :=
  withPower s fun s =>
    if s.svc = 3 then s
    else
      let s := s.setField MODSTAT (8 + n.toNat) 1 1
      let s := if calibrated then s.setField MODSTAT (16 + n.toNat) 1 1 else s
      s.setStk n.toNat { s.stk n.toNat with trainingSaved := true }

/-- The trained stack of a die that comes up with one. -/
def soleStack (s : State) (d : Nat) : Option Nat :=
  match s.stackTrained (2 * d), s.stackTrained (2 * d + 1) with
  | true, false => some (2 * d)
  | false, true => some (2 * d + 1)
  | _, _ => none

def dieTrained (s : State) (d : Nat) : Bool := s.stackTrained (2 * d) || s.stackTrained (2 * d + 1)

/-- A die may come up: one of its stacks is trained, and the dies before it are up (R33). In the fatal state none does (R38, DESIGN CHOICE,
log entry 103). -/
def mayComeUp (s : State) (d : Nat) : Bool :=
  s.svc != 3 && !(s.die d).up && dieTrained s d && (List.range d).all fun e => (s.die e).up

/-- A die and its cores take MODSTAT.WRCNT as their incarnations (R32). -/
def takeIncarnations (s : State) (d : Nat) : State :=
  let v := BitVec.ofNat 64 (s.field MODSTAT 32 16)
  (List.range 16).foldl (fun s c => s.setMreg (COREINC (16 * d + c)) v) (s.setMreg (DIEINC d) v)

def execDieUp (d : BitVec 2) (s : State) : Out :=
  withPower s fun s =>
    let d := d.toNat
    if mayComeUp s d then
      let single := soleStack s d
      let s := s.modDie d fun x => { x with up := true, single := single }
      let s := takeIncarnations (s.setField MODSTAT (4 + d) 1 1) d
      if d = 0 then
        let s := s.setField MODSTAT 0 2 1
        if s.coldBoot then s else reloadLantStat s
      else s
    else s

/-! ## Full service (R35, R48) -/

/-- The move to full service is due, once every stack is trained and calibrated and every die is up; from then on the dispatcher holds new
placements until it (R35, DESIGN CHOICE, log entry 104). -/
def moveDue (s : State) : Bool :=
  s.svc == 1 && (List.range 8).all (fun n => s.stackTrained n && s.stackCalibrated n)
    && (List.range 4).all fun d => (s.die d).up

/-- It takes place while no block is resident. -/
def mayMoveFull (s : State) : Bool := moveDue s && s.blocks.isEmpty

/-- The content of every die offset that R47 placed moves to the place that the new map gives it, a sector read and a sector
written each (R35, R55). -/
def remapDie (old new : State) (d : Nat) : State :=
  let offs := (List.range (2 ^ 32)).filter fun k => (placeRaw old d (32 * k)).isSome
  let cleared := { new with
    dram := new.dram.filter fun c => c.1 / 2 ^ 36 % 8 / 2 != d
    poison := new.poison.filter fun n => sectorStack n / 2 != d }
  offs.foldl (fun s k =>
    let a := d * 2 ^ 37 + 32 * k
    match place old a, place new a with
    | some x, some y =>
      let s := (s.countBurst (sectorStack x) 32).countBurst (sectorStack y) 0
      let s := { s with dram := Memory.writeN s.dram (32 * y) (old.sectorBytes x) }
      if old.isPoisoned x then s.markPoison y else s
    | _, _ => s) cleared

def execFullServiceMove (s : State) : Out :=
  withPower s fun s =>
    if mayMoveFull s then
      let s := (List.range 4).foldl (fun s d =>
        if (s.die d).single.isSome then remapDie s (s.modDie d fun x => { x with single := none }) d else s) s
      s.setField MODSTAT 0 2 2
    else s

/-! ## Warm reset (R36) -/

/-- The registers that survive a warm reset as they stand: REPAIRd and the shape records (R18, R53). -/
def survives (off : Nat) : Bool :=
  decide (0x20 ≤ off ∧ off < 0x40) || decide (0x1800 ≤ off ∧ off < 0x1C00)

/-- What a stack keeps: its parked bank, its repairs and its training values. -/
def Stack.keep (k : Stack) : Stack :=
  { Stack.reset with parked := k.parked, repairs := k.repairs, trainingSaved := k.trainingSaved }

def warmReset (s : State) (flush : Bool) : State :=
  let s := lanternDumpNow s
  let s := if flush then flushAll s else s
  let s := (List.range 8).foldl parkWhole s
  let kept : State := { s.bare with
    coldBoot := false, mregs := s.mregs.filter fun e => survives e.1
    stks := s.stks.map Stack.keep, dram := s.dram, poison := s.poison }
  ((kept.setField MODSTAT 32 16 (min (s.field MODSTAT 32 16 + 1) 0xFFFF)).setField INCARN 0 16
    (s.field INCARN 0 16 + 1)).setField INCARN 16 1 (s.field INCARN 16 1)

def execWarmReset (s : State) : Out := withPower s fun s => warmReset s (s.field MODCTL 1 1 == 1)
def execHostLinkHotReset (s : State) : Out := withPower s fun s => warmReset s false

/-! ## Thermal events and fatal errors (R15, R38) -/

/-- Whether a die gates a cycle: at most seven of every eight (log entry 88). -/
def gatedCycle (x : Die) (n : Nat) : Bool := x.gating.getLsbD (n % 8)

/-- A die at 105 °C starts to gate issue in some of the first seven of every eight cycles. -/
def execThermalGate (d : BitVec 2) (cycles : BitVec 7) (s : State) : Out :=
  withPower s fun s => if (s.die d.toNat).up then s.modDie d.toNat fun x => { x with gating := cycles } else s

def execThermalGateEnd (d : BitVec 2) (s : State) : Out :=
  withPower s fun s => s.modDie d.toNat fun x => { x with gating := 0#7 }

/-- The module enters the fatal state; a further fatal error while a dump is due ends that dump with PART. -/
def enterFatal (s : State) (code : Nat) : State :=
  if s.svc = 3 then
    let n := (Config.freeBits s.tick).toNat % (dueRecords s + 1)
    let s := if s.dumpDue.isSome then writeDump s.nextTick n true else s
    s.setField MODSTAT 24 8 code
  else
    let s := (s.setField MODSTAT 24 8 code).setField MODSTAT 0 2 3
    let due : DumpDue := ⟨(s.die 0).cycle, s.mreg MODSTAT, lanternUnacked s, s.teams⟩
    { s with dumpDue := if (s.die 0).up then some due else none }

def execThermalTrip (s : State) : Out := withPower s fun s => enterFatal s 4
def execHostDump (s : State) : Out := withPower s fun s => enterFatal s 6

/-- A fatal error of R38's table; the table has no other code. -/
def execFatalError (code : BitVec 8) (s : State) : Out :=
  withPower s fun s => if 1 ≤ code.toNat ∧ code.toNat ≤ 6 then enterFatal s code.toNat else s

/-! ## The Lantern dump (R40) -/

def execLanternDump (s : State) : Out := withPower s lanternDumpNow

def lanternAck (s : State) : State :=
  if s.field LANTSTAT 0 1 = 1 then
    let f := lanternFlags s
    setLanternFlags (s.setField LANTSTAT 0 1 0) (f ||| 8)
  else s

def lanternOvwrClear (s : State) : State :=
  if s.field LANTSTAT 3 1 = 1 then
    let f := lanternFlags s
    setLanternFlags (s.setField LANTSTAT 3 1 0) (f &&& (0xFFFF - 4))
  else s

def execLanternAck (s : State) : Out := withPower s lanternAck
def execLanternOvwrClear (s : State) : Out := withPower s lanternOvwrClear

/-! ## The error log (R21) -/

def elogClear (s : State) (d : Nat) : State :=
  let s := s.modDie d fun x => { x with log := List.replicate 64 none }
  (s.setField (ELOGCTL d) 8 6 0).setField (ELOGCTL d) 32 16 0

def execElogClear (d : BitVec 2) (s : State) : Out := withPower s fun s => elogClear s d.toNat

/-- The entry of a die's log that SEL names. -/
def elogEntry (s : State) (d : Nat) : Option LogEntry := ((s.die d).log[s.field (ELOGCTL d) 16 6]?).join

/-- What ELOGD0 to ELOGD3 read as: a quarter of that entry. -/
def elogData (s : State) (d k : Nat) : Nat := match elogEntry s d with
  | some e => leNat ((e.bytes.drop (8 * k)).take 8)
  | none => 0

/-- The entry then counts as read. -/
def elogMarkRead (s : State) (d : Nat) : State := match elogEntry s d with
  | some e =>
    let sel := s.field (ELOGCTL d) 16 6
    s.modDie d fun x => { x with log := x.log.set sel (some { e with wasRead := true }) }
  | none => s

def elogRead (s : State) (d k : Nat) : State :=
  elogMarkRead (s.emitHost (.regData (BitVec.ofNat 64 (elogData s d k)))) d

def execElogEntryRead (d k : BitVec 2) (s : State) : Out := withPower s fun s => elogRead s d.toNat k.toNat

/-! ## Identity (R31, R231) -/

def writeIncarn (s : State) (v : Nat) : State :=
  if s.field INCARN 16 1 = 0 then (s.setField INCARN 0 16 v).setField INCARN 16 1 1 else s

def writeDevnum (s : State) (v : Nat) : State :=
  if s.field DEVNUM 16 1 = 0 then (s.setField DEVNUM 0 10 v).setField DEVNUM 16 1 1 else s

def execIncarnWrite (v : BitVec 16) (s : State) : Out := withPower s fun s => writeIncarn s v.toNat
def execDevnumWrite (v : BitVec 10) (s : State) : Out := withPower s fun s => writeDevnum s v.toNat

/-! ## The host link (R22, R23, R33, R104, R181, R213) -/

def execIdeKeyProgram (s : State) : Out := withPower s fun s => { s with ideKeys := true }


/-- A CXL.cache snoop of a host line: die 0's Canopy writes its dirty words back and drops the line. -/
def execCxlCacheSnoop (line : BitVec 51) (s : State) : Out :=
  withPower s fun s =>
    let mine (w : Nat) : Bool := decide (hostBase ≤ w ∧ (w - hostBase) / 32 = line.toNat)
    let s := (s.die 0).canopy.foldl (fun s (e : Nat × CanWord) => if mine e.1 then returnHost s e.1 e.2 else s) s
    s.modDie 0 fun k => { k with canopy := k.canopy.filter fun e => !mine e.1 }

/-- MSI-X messages may be sent: MSI-X is enabled and the function is not masked (PCIe's rules; log entry 95). -/
def msixOpen (s : State) : Bool := s.hostCfg.msixEnable && !s.hostCfg.msixMask

/-- An MSI-X message is sent, or made pending while it is masked (R104). -/
def sendMsix (s : State) (e : Nat) : State :=
  match s.msix[e]? with
  | some v =>
    if v.masked || !msixOpen s then { s with msix := s.msix.set e { v with pending := true } } else s.emitHost (.msix e)
  | none => s

/-- A pending message is sent once nothing masks it. -/
def sendPending (s : State) (e : Nat) : State :=
  match s.msix[e]? with
  | some v =>
    if v.pending && !v.masked && msixOpen s then
      { s.emitHost (.msix e) with msix := s.msix.set e { v with pending := false } }
    else s
  | none => s

def unmaskMsix (s : State) (e : Nat) : State :=
  match s.msix[e]? with
  | some v => sendPending { s with msix := s.msix.set e { v with masked := false } } e
  | none => s

/-- Sizes of BAR0, BAR2 and BAR4: the address bits below them are not held (R102). -/
def barSize (n : Nat) : Nat := if n = 0 then 2 ^ 20 else if n = 1 then 2 ^ 39 else 2 ^ 30

/-- A BAR register as PCI lays it out (PRESUMED, log entry 116): of each pair the first holds bits [31:4] of the address over the
prefetchable bit and the code of a 64-bit memory BAR, and the second bits [63:32]. The registers of no pair read as zero (R102). -/
def barRegister (s : State) (r : Nat) : Word :=
  let a := (s.hostCfg.bars.getD (r / 2) 0#64).toNat
  if 6 ≤ r then 0#32
  else if r % 2 = 1 then BitVec.ofNat 32 (a / 2 ^ 32)
  else BitVec.ofNat 32 (a / 16 * 16 + (if r / 2 = 0 then 4 else 12))

def writeConfig (s : State) : ConfigAccess → State
  | .readBar _ => s
  | .bar n addr =>
    let a := BitVec.ofNat 64 (addr.toNat / barSize n.toNat * barSize n.toNat)
    { s with hostCfg := { s.hostCfg with bars := s.hostCfg.bars.set n.toNat a } }
  | .msix enable mask =>
    (List.range 65).foldl sendPending { s with hostCfg := { s.hostCfg with msixEnable := enable, msixMask := mask } }
  | .cxlCache on => { s with hostCfg := { s.hostCfg with cxlCache := on } }

/-- A configuration access that has been accepted, and its answer. -/
def serveConfig (s : State) : ConfigAccess → State
  | .readBar r => s.emitHost (.configData (barRegister s r.toNat))
  | w => writeConfig (s.emitHost .configDone) w

/-- A configuration request: answered with a retry until die 0 is up (R33). -/
def execConfigurationRequest (w : Option ConfigAccess) (s : State) : Out :=
  withPower s fun s =>
    if (s.die 0).up then
      match w with
      | some w => serveConfig s w
      | none => s.emitHost .configDone
    else s.emitHost .configRetry

def execMsixVectorUnmask (e : BitVec 7) (s : State) : Out := withPower s fun s => unmaskMsix s e.toNat

end Sys2Proof.Machine
end

