-- ==== Sys2Proof/Machine/EvLink.lean ====
section
/-! DEFINITION. EvLink: the Lemwyn Link ports, their flits and retransmission (R24 to R28), incarnations, heartbeats and dead
agents (R29 to R32, R207). -/

namespace Sys2Proof.Machine

/-! ## Ports (R27, R28) -/

def State.port (s : State) (p : Nat) : Port := (s.ports[p]?).getD Port.reset
def State.setPort (s : State) (p : Nat) (x : Port) : State := { s with ports := s.ports.set p x }

/-- STATE of LLSTATp: 0 off, 1 training, 2 up, 3 DOWN. -/
def State.portState (s : State) (p : Nat) : Nat := s.field (LLSTAT p) 0 4
def State.setPortState (s : State) (p v : Nat) : State := s.setField (LLSTAT p) 0 4 v

def llEnabled (s : State) (p : Nat) : Bool := s.field LLEN p 1 == 1

/-- The port starts to train, with nothing outstanding (log entry 42). -/
def trainPort (s : State) (p : Nat) : State := (s.setPortState p 1).setPort p Port.reset

/-- LLEN's bit of a port changes. -/
def setPortEnable (s : State) (p : Nat) (on : Bool) : State :=
  if llEnabled s p = on then s
  else if on then trainPort (s.setField LLEN p 1 1) p
  else ((s.setField LLEN p 1 0).setPortState p 0).setPort p Port.reset

def execLlPortEnable (p : BitVec 5) (s : State) : Out :=
  withPower s fun s => if p.toNat < 24 then setPortEnable s p.toNat true else s

def execLlPortDisable (p : BitVec 5) (s : State) : Out :=
  withPower s fun s => if p.toNat < 24 then setPortEnable s p.toNat false else s

/-- Firmware writes 1 to the STATE of a port that is DOWN. -/
def execLlStateRetrain (p : BitVec 5) (s : State) : Out :=
  withPower s fun s => if p.toNat < 24 ∧ s.portState p.toNat = 3 then trainPort s p.toNat else s

def execLlTrained (p : BitVec 5) (s : State) : Out :=
  withPower s fun s => if p.toNat < 24 ∧ s.portState p.toNat = 1 then s.setPortState p.toNat 2 else s

/-- The gate of numbered flits (R28). -/
def gateOpen (s : State) : Bool := s.field DEVNUM 16 1 == 1 && s.field INCARN 16 1 == 1

/-! ## Flits (R24 to R26) -/

/-- Flits that a port's input buffer takes (R26, log entry 20). -/
def rxSize : Nat := Config.rxBuffer + 1

/-- Some of the flits in the input buffer have left it since the port last moved: how many is free (log entry 20). -/
def drainPort (s : State) (p : Nat) : State :=
  let x := s.port p
  if x.held = 0 then s
  else s.nextTick.setPort p { x with held := x.held - (Config.freeBits s.tick).toNat % (x.held + 1) }

/-- STOP and GO of the next flit that a port sends. -/
def Port.stop (x : Port) : Bool := decide (3 * rxSize < 4 * x.held)
def Port.go (x : Port) : Bool := x.choked && decide (4 * x.held < rxSize)

/-- Bytes 2 and 3 of that flit. -/
def Port.control (x : Port) : Nat :=
  let bit (b : Bool) (i : Nat) : Nat := if b then 2 ^ i else 0
  (x.rxExpect + 4095) % 4096 + bit x.nak 12 + bit x.stop 13 + bit x.go 14

/-- A port that has sent it. -/
def Port.sent (x : Port) : Port := { x with nak := false, choked := x.stop || (x.choked && !x.go) }

/-- A flit of bytes 0 to 251 with its CRC. -/
def sealFlit (body : List Byte) : List Byte := body ++ leBytes 4 (crc32c body).toNat

/-- A flit as this device sends it. -/
def makeFlit (s : State) (p ty seq dst : Nat) (payload : List Byte) : List Byte :=
  sealFlit (leBytes 2 (seq % 4096 + 4096 * ty) ++ leBytes 2 (s.port p).control ++ leBytes 2 s.devnum
    ++ leBytes 2 (s.field INCARN 0 16) ++ leBytes 2 dst ++ leBytes 6 0 ++ (payload ++ List.replicate 236 0#8).take 236)

/-- A flit is sent: an idle flit, or a numbered one where the gate, the replay buffer and the flow control let it. While a STOP holds no
numbered flit goes out, and the idle flits acknowledge (R26, DESIGN CHOICE, log entry 112). -/
def execFlitSend (p : BitVec 5) (ty : BitVec 4) (dst : BitVec 10) (payload : List Byte) (s : State) : Out :=
  withPower s fun s =>
    let p := p.toNat
    if 24 ≤ p ∨ s.portState p ≠ 2 ∨ 4 ≤ ty.toNat then s
    else
      let s := drainPort s p
      let x := s.port p
      if ty = 0#4 then (s.emit (.flit p (makeFlit s p 0 (x.txSeq + 4095) dst.toNat []))).setPort p x.sent
      else if !gateOpen s || x.stopped || decide (512 ≤ x.replay.length) then s
      else
        let bs := makeFlit s p ty.toNat x.txSeq dst.toNat payload
        let replay := x.replay ++ [(x.txSeq, bs, 0)]
        (s.emit (.flit p bs)).setPort p { x.sent with txSeq := (x.txSeq + 1) % 4096, replay := replay }

/-- The port goes DOWN (R25); requests that wait on it have ended, since the model's link requests take no time. -/
def portDown (s : State) (p : Nat) : State :=
  ((s.setPortState p 3).setPort p Port.reset).logError (logDie s (p / 6)) (agentWord (p / 6) 0 0 0) 4 p 0

/-- A numbered flit is sent once more, with what the port has to say now. -/
def resend (s : State) (p : Nat) (f : Nat × List Byte × Nat) : State :=
  let x := s.port p
  (s.emit (.flit p (sealFlit (f.2.1.take 2 ++ leBytes 2 x.control ++ (f.2.1.drop 4).take 248)))).setPort p x.sent

/-- Retransmission from the first unacknowledged flit; one that sixteen retransmissions have left unacknowledged takes the port
DOWN. While a STOP holds nothing numbered is sent. -/
def retransmit (s : State) (p : Nat) : State :=
  let x := s.port p
  if x.replay.isEmpty || x.stopped then s
  else if x.replay.any fun f => decide (16 ≤ f.2.2) then portDown s p
  else
    let s := x.replay.foldl (fun s f => resend s p f) s
    let again := x.replay.map fun f => (f.1, f.2.1, f.2.2 + 1)
    (s.count (LLSTAT p) 32 16 1).setPort p { s.port p with replay := again }

def execLlReplayTimeout (p : BitVec 5) (s : State) : Out :=
  withPower s fun s => if p.toNat < 24 ∧ s.portState p.toNat = 2 then retransmit s p.toNat else s

/-- ACK, NAK, STOP and GO of a flit that arrived whole. -/
def flitControl (s : State) (p w1 : Nat) : State :=
  let x := s.port p
  let left := x.replay.filter fun f => !decide ((w1 % 4096 + 4096 - f.1) % 4096 < 2048)
  let s := s.setPort p { x with replay := left }
  let s := if fieldOf w1 13 1 = 1 then (s.count (LLSTAT p) 16 16 1).setPort p { s.port p with stopped := true } else s
  let s := if fieldOf w1 14 1 = 1 then s.setPort p { s.port p with stopped := false } else s
  if fieldOf w1 12 1 = 1 then retransmit s p else s

/-- A message of a device: dropped when it is stale, or from a dead device that does not return one incarnation later
(R29, R30, R32). -/
def acceptMessage (s : State) (p src inc : Nat) (payload : List Byte) : State :=
  let a := Agent.device (BitVec.ofNat 10 src)
  let cur := look src s.peerInc
  let behind := match cur with
    | some c => (c + 65536 - inc) % 65536
    | none => 0
  if 1 ≤ behind ∧ behind ≤ 32767 then (s.count INCARN 32 16 1).countDrop
  else if s.deadAgents.contains a && cur.map (fun c => (c + 1) % 65536) != some inc then s
  else
    let s := noteHeard { s with peerInc := put src inc s.peerInc, deadAgents := s.deadAgents.filter (· != a) } a
    s.emit (.delivered p payload)

/-- A port receives a flit. One whose SEQ is not the next expected one, and one that meets a full input buffer, is not counted in
DROP, which R25 names for a failed CRC alone (DESIGN CHOICE, log entry 87). -/
def receiveFlit (s : State) (p : Nat) (flit : List Byte) : State :=
  let word (i n : Nat) : Nat := leNat ((flit.drop i).take n)
  let s := drainPort s p
  let x := s.port p
  let ty := word 0 2 / 4096
  let seq := word 0 2 % 4096
  if flit.length ≠ 256 ∨ BitVec.ofNat 32 (word 252 4) ≠ crc32c (flit.take 252) then
    ((s.count (LLSTAT p) 48 16 1).countDrop).setPort p { x with nak := true }
  else if 4 ≤ ty then s.countDrop
  else if ty = 0 then flitControl s p (word 2 2)
  else if !gateOpen s then s.countDrop
  else
    let s := flitControl s p (word 2 2)
    if s.portState p ≠ 2 ∨ seq ≠ x.rxExpect ∨ rxSize ≤ x.held then s
    else
      let s := s.setPort p { s.port p with rxExpect := (x.rxExpect + 1) % 4096, held := x.held + 1 }
      acceptMessage s p (word 4 2 % 1024) (word 6 2) ((flit.drop 16).take 236)

def execFlitReceive (p : BitVec 5) (flit : List Byte) (s : State) : Out :=
  withPower s fun s => if p.toNat < 24 ∧ s.portState p.toNat = 2 then receiveFlit s p.toNat flit else s

/-! ## Heartbeats and dead agents (R30, R32, R207) -/

/-- The register of an agent's incarnation, for an agent of this device. -/
def incReg : Agent → Option Nat
  | .core c => some (COREINC c.toNat)
  | .die d => some (DIEINC d.toNat)
  | .device _ => none

/-- Whether a core, or its die, is declared dead. -/
def coreDead (s : State) (c : Nat) : Bool :=
  s.deadAgents.contains (.core (BitVec.ofNat 6 c)) || s.deadAgents.contains (.die (BitVec.ofNat 2 (coreDie c)))

/-- The cores of an agent of this device. -/
def agentCores : Agent → List Nat
  | .core c => [c.toNat]
  | .die d => (List.range 16).map (16 * d.toNat + ·)
  | .device _ => []

def execHeartbeatSend (a : Agent) (s : State) : Out :=
  withPower s fun s => if s.deadAgents.contains a then s else noteHeard s a

/-- One millisecond in cycles of the service state's clock. The fatal state's clock is not stated: it counts as that of reduced service,
1.0 GHz (R30, DESIGN CHOICE, log entry 102). -/
def silence (s : State) : Nat := if s.svc = 2 then 1750000 else 1000000

/-- A sector that holds a word becomes poisoned at its home. -/
def poisonSectorOf (s : State) (w : Nat) : State :=
  let sec := w / 8
  let s := { s with l2 := s.l2.filter fun c => c.1 / 32 != sec, l2held := s.l2held.filter (· != sec) }
  match place s (32 * sec) with
  | some n => s.markPoison n
  | none => s

/-- A team of a dead core ends as though a double trap had ended it; the entry's detail is 0, since there is no cause (log entry
90). -/
def endDeadTeam (s : State) (key : TeamKey) : State :=
  match s.teams.findIdx? fun t => t.key == key, s.teamOf key with
  | some k, some t =>
    endTeam ((s.logError (logDie s t.die) (agentWord t.die t.core t.part t.slot) 3 0 t.pc).count TRAPCNT 48 16 1) k
  | _, _ => s

/-- An agent is declared dead: code 0x0005 goes to its die's log, and for a device to die 0's, whose agent word names the device in
its low bits (log entry 90). -/
def declareDead (s : State) (a : Agent) : State :=
  let s := { s with deadAgents := a :: s.deadAgents }
  let s := match incReg a with
    | some r => s.setField r 16 1 1
    | none => s
  let s := match a with
    | .core c => s.logError (logDie s (coreDie c.toNat)) (agentWord (coreDie c.toNat) (c.toNat % 16) 0 0) 5 0 0
    | .die d => s.logError (logDie s d.toNat) (agentWord d.toNat 0 0 0) 5 0 0
    | .device n => s.logError (logDie s 0) (agentWord 0 0 0 n.toNat) 5 0 0
  (agentCores a).foldl (fun s c =>
    let words := (s.registrants.filter fun r => r.2 == c).map (·.1)
    let s := { s with registrants := s.registrants.filter fun r => r.2 != c }
    let s := words.foldl poisonSectorOf s
    let s := s.modCore c fun k => { k with l1 := [] }
    ((s.teams.filter fun t => t.coreNo == c).map (·.key)).foldl endDeadTeam s) s

def execAgentDead (a : Agent) (s : State) : Out :=
  withPower s fun s =>
    if s.deadAgents.contains a || decide ((s.die 0).cycle < heardAt s a + silence s) then s else declareDead s a

/-- The physical core that a die's map disables, and the one that serves as a logical core: ascending without it (R13). -/
def disabledPhysical (s : State) (d : Nat) : Nat := Nat.log2 (s.field (REPAIR d) 0 17)
def physicalCore (s : State) (d l : Nat) : Nat := if l < disabledPhysical s d then l else l + 1

/-- A run-time repair: the die's map becomes a soft one that disables a physical core. What the logical cores hold stays with
their numbers (DESIGN CHOICE, log entry 96). -/
def repairDie (s : State) (d p : Nat) : State :=
  if p ≤ 16 then (s.setField (REPAIR d) 0 17 (2 ^ p)).setField (REPAIR d) 31 1 1 else s

/-- The die of an agent of this device. -/
def agentDie : Agent → Option Nat
  | .core c => some (coreDie c.toNat)
  | .die d => some d.toNat
  | .device _ => none

/-- Firmware re-admits a dead agent once it has reinitialised it, through a run-time repair where needed: one incarnation later,
announced to its peers. -/
def execAgentReadmit (a : Readmission) (s : State) : Out :=
  withPower s fun s =>
    let repair := a.repair
    let a := a.agent
    if s.deadAgents.contains a then
      let s := noteHeard { s with deadAgents := s.deadAgents.filter (· != a) } a
      let s := match repair, agentDie a with
        | some p, some d => repairDie s d p.toNat
        | _, _ => s
      let s := (agentCores a).foldl (fun s c => s.setCore c Core.reset) s
      match a, incReg a with
      | .device n, _ => { s with peerInc := put n.toNat (((look n.toNat s.peerInc).getD 0 + 1) % 65536) s.peerInc }
      | _, some r =>
        let inc := (s.field r 0 16 + 1) % 65536
        ((s.setField r 16 1 0).setField r 0 16 inc).emit (.announce a inc)
      | _, none => s
    else s

end Sys2Proof.Machine
end

