-- ==== Sys2Proof/Machine/EvMemory.lean ====
section
/-! DEFINITION. EvMemory: the events of the stack controllers: demand reads with errors, write-backs, refresh, self-test and
parking, and scrubbing (R50, R55 to R64). -/

namespace Sys2Proof.Machine

/-! ## Addresses of sectors -/

/-- The die offset that R46 maps to a spot of a die. -/
def unmap46 (x : Spot) : Nat :=
  let hi := x.bg * 2 ^ 17 + x.bank * 2 ^ 19 + x.row * 2 ^ 21
  let low := (x.stack % 2 * 16 + x.pch / 4) ^^^ fieldOf hi 17 5 ^^^ fieldOf hi 27 5
  hi + x.col * 2 ^ 12 + low * 2 ^ 7 + x.pch % 4 * 2 ^ 5

/-- The device-local address of a sector under its die's map in force, for an error log. -/
def sectorAddr (s : State) (n : Nat) : Nat :=
  let x := Spot.ofSector n
  let d := x.stack / 2
  let off := match (s.die d).single with
    | some _ =>
      let b := unmap46 { x with stack := x.row / 2 ^ 15, row := x.row % 2 ^ 15 }
      if b < 0x0F80000000 then b else b + 0x1000000000
    | none =>
      -- a shape record changes only bank bits, by address bits that the row alone gives (R51)
      let y := mapShaped s d (x.row * 2 ^ 21)
      let z := map46 d (x.row * 2 ^ 21)
      unmap46 { x with bg := x.bg ^^^ y.bg ^^^ z.bg, bank := x.bank ^^^ y.bank ^^^ z.bank }
  d * 2 ^ 37 + off

/-! ## Demand reads and write-backs (R50, R62) -/

/-- A sector is marked poisoned, which is a write of it (R50). -/
def markSector (s : State) (n : Nat) : State := (s.countBurst (sectorStack n) 0).markPoison n

/-- One error in a sector of a demand read is corrected; more are detected, and mark the sector once. The log names the home die
(log entry 90). -/
def readErrors (s : State) (a n errs : Nat) : State :=
  let stack := sectorStack n
  if errs = 0 ∨ s.isPoisoned n then s
  else if errs = 1 then (s.count (STK stack 0x30) 0 32 1).countCorr
  else
    let d := homeDie a
    (((markSector s n).count (STK stack 0x30) 32 32 1).countUncorr).logError (logDie s d) (agentWord d 0 0 0) 2 0 a

/-- A demand read of a sector of device-local memory, with the number of erroneous symbols that it meets. -/
def execMemRead (sector : BitVec 34) (errs : BitVec 2) (s : State) : Out :=
  withPower s fun s =>
    let a := 32 * sector.toNat
    match place s a with
    | none => s.deliverPoison (homeDie a) a
    | some n =>
      let s := readErrors (s.countBurst (sectorStack n) 32) a n errs.toNat
      if s.isPoisoned n then s.deliverPoison (homeDie a) a else s

/-- A demand write-back of what the home L2 holds of a sector. -/
def execMemWrite (sector : BitVec 34) (s : State) : Out := withPower s fun s => writeBackSector s sector.toNat

/-! ## Refresh (R56 to R58) -/

def REFSTAT (n : Nat) : Nat := STK n 0x08

/-- A channel's debt changes; the peak follows it. -/
def setDebt (s : State) (n ch : Nat) (v : Int) : State :=
  let k := s.stk n
  s.setStk n { k with debt := k.debt.set ch v, peak := k.peak.set ch (max v (k.peak.getD ch 0)) }

/-- At its tick a channel takes its interval from MODE and its layer's temperature; HOT4's bit of the layer holds while one of its
two channels runs at TREFI / 4 (R57, R58, log entry 97). -/
def takeInterval (s : State) (n ch : Nat) (temp : LayerTemp) : State :=
  let k := s.stk n
  let q := k.quarter.set ch (s.field (STK n 0) 16 1 == 1 && temp == .hot)
  let layer := ch / 2
  let hot := q.getD (2 * layer) false || q.getD (2 * layer + 1) false
  (s.setStk n { k with temps := k.temps.set layer temp, quarter := q }).setField (REFSTAT n) (32 + layer) 1 (if hot then 1 else 0)

/-- An interval of a channel elapses: its layer's sensor is read, and a debt of 8 forces a refresh. -/
def execRefreshTick (n : BitVec 3) (ch : BitVec 5) (temp : LayerTemp) (s : State) : Out :=
  withPower s fun s =>
    let n := n.toNat
    let ch := ch.toNat
    if s.stackTrained n then
      let s := takeInterval s n ch temp
      let v := min ((s.stk n).debt.getD ch 0 + 1) 8
      let s := setDebt s n ch v
      if v = 8 then (setDebt s n ch 7).count (REFSTAT n) 48 16 1 else s
    else s

/-- A refresh of a channel with no demand pending and a debt of at least 1. -/
def execRefreshIssue (n : BitVec 3) (ch : BitVec 5) (s : State) : Out :=
  withPower s fun s =>
    let v := (s.stk n.toNat).debt.getD ch.toNat 0
    if s.stackTrained n.toNat ∧ 1 ≤ v then setDebt s n.toNat ch.toNat (v - 1) else s

/-- A refresh of an idle channel ahead of time. -/
def execRefreshPullIn (n : BitVec 3) (ch : BitVec 5) (s : State) : Out :=
  withPower s fun s =>
    let v := (s.stk n.toNat).debt.getD ch.toNat 0
    if s.stackTrained n.toNat ∧ -8 < v then setDebt s n.toNat ch.toNat (v - 1) else s

/-! ## Self-test and parking (R59 to R61) -/

def BISTCTL (n : Nat) : Nat := STK n 0x10
def BISTSTAT (n : Nat) : Nat := STK n 0x18

/-- STATE of BISTSTAT; from 4 on the device clears START. -/
def setBist (s : State) (n v : Nat) : State :=
  let s := s.setField (BISTSTAT n) 0 3 v
  if 4 ≤ v then s.setField (BISTCTL n) 16 1 0 else s

/-- A write of BISTCTL: ignored while a test runs or with PATTERN = 3; START starts a test, or is refused. -/
def writeBist (s : State) (n v : Nat) : State :=
  let st := s.field (BISTSTAT n) 0 3
  if (1 ≤ st ∧ st ≤ 3) ∨ fieldOf v 12 2 = 3 then s
  else
    let kept := fieldOf v 16 1 * 2 ^ 16 + fieldOf v 12 2 * 2 ^ 12 + v % 2 ^ 10
    let s := s.setMreg (BISTCTL n) (BitVec.ofNat 64 kept)
    if fieldOf v 16 1 = 0 then s
    else
      let other := if n % 2 = 0 then n + 1 else n - 1
      if !s.stackTrained n || (s.stk n).parked.isSome || (s.stk other).parked.isSome then setBist s n 7
      else
        setBist (setParked s n (some ⟨fieldOf v 0 6, fieldOf v 6 2, fieldOf v 8 2, fieldOf v 12 2, 0, false⟩)) n 1

def execBistStart (n : BitVec 3) (v : DWord) (s : State) : Out := withPower s fun s => writeBist s n.toNat v.toNat

/-- One row is copied to the parking area, or back. -/
def execBistRowCopy (n : BitVec 3) (s : State) : Out :=
  withPower s fun s =>
    let n := n.toNat
    match (s.stk n).parked, s.field (BISTSTAT n) 0 3 with
    | some p, 1 =>
      let s := copyRow s n p p.rows false
      let s := setParked s n (some { p with rows := p.rows + 1 })
      if p.rows + 1 = 65536 then setBist s n 2 else s
    | some p, 3 =>
      let s := copyRow s n p p.rows true
      if p.rows + 1 = 65536 then
        setBist (setParked s n none) n (if s.field (BISTSTAT n) 16 16 = 0 then 4 else 5)
      else setParked s n (some { p with rows := p.rows + 1 })
    | _, _ => s

/-- The pattern ends, with the rows that failed and those that spare rows repaired. -/
def execBistPatternDone (n : BitVec 3) (failing repaired : BitVec 16) (s : State) : Out :=
  withPower s fun s =>
    let n := n.toNat
    match (s.stk n).parked, s.field (BISTSTAT n) 0 3 with
    | some p, 2 =>
      let fixed := min repaired.toNat failing.toNat
      let s := (s.setField (BISTSTAT n) 16 16 failing.toNat).setField (BISTSTAT n) 32 16 fixed
      let k := s.stk n
      let repairs := if fixed = 0 then k.repairs else k.repairs ++ [(p.pch, p.bg, p.bank, fixed)]
      let s := s.setStk n { k with repairs := repairs }
      if fixed = failing.toNat then setBist (setParked s n (some { p with rows := 0, restoring := true })) n 3
      else setBist s n 6
    | _, _ => s

/-! ## The scrubber (R63, R64) -/

def SCRUBSTAT (n : Nat) : Nat := STK n 0x28

/-- The scrubber's next place; after the stack's last sector a pass ends. -/
def scrubAdvance (s : State) (n next : Nat) : State :=
  let k := s.stk n
  if 2 ^ 31 ≤ next then (s.setStk n { k with scrubAt := 0 }).count (SCRUBSTAT n) 0 16 1
  else s.setStk n { k with scrubAt := next }

/-- The scrubber reads its next sector; it skips a parked bank, and a stack that is not trained. -/
def execScrubRead (n : BitVec 3) (errs : BitVec 2) (s : State) : Out :=
  withPower s fun s =>
    let n := n.toNat
    let at' := (s.stk n).scrubAt
    let sec := n * 2 ^ 31 + at'
    let parked := match (s.stk n).parked with
      | some p => inBank p n (Spot.ofSector sec)
      | none => false
    if !s.stackTrained n || s.field (STK n 0x20) 16 1 == 0 || (s.stk n).scrubWb.isSome then s
    else if parked then scrubAdvance s n ((at' / 2 ^ 21 + 1) * 2 ^ 21)
    else
      let s := scrubAdvance (s.countBurst n 32) n (at' + 1)
      if errs = 0#2 ∨ s.isPoisoned sec then s
      else if errs = 1#2 then s.setStk n { s.stk n with scrubWb := some (sec, false, s.sectorBytes sec) }
      else
        (((markSector s sec).count (SCRUBSTAT n) 32 16 1).countUncorr).logError (logDie s (n / 2)) (agentWord (n / 2) 0 0 0) 1 0
          (sectorAddr s sec)

/-- The scrubber writes a corrected sector back, unless a demand write to it came first; a write-back that is cancelled does not
count in SCORR (DESIGN CHOICE, log entry 98). The write-back is a write of the whole sector with what was read: it clears a mark
that was set meanwhile, and it replaces a parking copy of that time (R50, R62). -/
def execScrubWriteback (n : BitVec 3) (s : State) : Out :=
  withPower s fun s =>
    let n := n.toNat
    let k := s.stk n
    match k.scrubWb with
    | some (sec, cancelled, bytes) =>
      let s := s.setStk n { k with scrubWb := none }
      if cancelled then s.count (SCRUBSTAT n) 48 16 1
      else ((s.putSector sec true (bytes.zipIdx.map Prod.swap)).count (SCRUBSTAT n) 16 16 1).countCorr
    | none => s

end Sys2Proof.Machine
end

