-- ==== Sys2Proof/Machine/EvView.lean ====
section
/-! DEFINITION. EvView: the events of the view caches and the view engines (R71 to R75, R84 to R87, R97 to R99). -/

namespace Sys2Proof.Machine

/-! ## View caches -/

/-- The teams of a core that wait for fills wake (R137). -/
def wakeFills (s : State) (c : Nat) : State :=
  ((s.teams.filter fun t => t.coreNo == c && t.park == some .fill).map (·.key)).foldl unparkKey s

/-- A view cache fills, or finds, a descriptor. -/
def execViewCacheFill (c : ViewCacheId) (view : BitVec 11) (s : State) : Out :=
  withPower s fun s => match c with
    | .lsu c => wakeFills (lsuView s c.toNat view.toNat).2 c.toNat
    | .engine d e => (engineView s d.toNat e.toNat view.toNat).2

def VTINV : Nat := 0x208

def execVtinvView (view : BitVec 11) (s : State) : Out :=
  withPower s fun s => dropViews s fun e => e.view == view.toNat

def execVtinvAll (s : State) : Out := withPower s fun s => dropViews s fun _ => true

/-! ## The tolerant-frame map (R99) -/

/-- A frame is named by bits [38:16] of its device-local address. -/
def clearFrame (s : State) (frame : Nat) : State :=
  s.modDie (frame / 2 ^ 21) fun k => { k with tolMap := k.tolMap.filter (· != frame % 2 ^ 21) }

def clearFrames (s : State) : State := { s with dies := s.dies.map fun k => { k with tolMap := [] } }

def execTfclrFrame (frame : BitVec 23) (s : State) : Out := withPower s fun s => clearFrame s frame.toNat
def execTfclrAll (s : State) : Out := withPower s clearFrames

/-! ## Bulk requests in the engines (R84 to R87, R97) -/

/-- A request of another device with the descriptor that it carries: an engine of BASE's home die checks it against its own map of
tolerant frames and composes it, or answers it (R97, R98). -/
def offerCarried (s : State) (desc first count : Nat) (data : Option (List Byte)) : State :=
  let x := carriedEntry s desc
  let r : EngReq := ⟨carriedView, some x, first, count, 0, data, [], [], false, OpViews.none, []⟩
  if x.outcome != .legal then engineFail s r else offerRequest s (homeDie x.desc.base) r

/-- A bulk request of die `d` for `count` + 1 view sectors from `first`, or of another device with the descriptor that it carries;
with data it writes. -/
def execBulkRequest (d : BitVec 2) (view : BitVec 11) (first : BitVec 31) (count : BitVec 7) (body : BulkBody) (s : State) :
    Out :=
  withPower s fun s =>
    let n := count.toNat + 1
    match body.carried with
    | some desc => offerCarried s desc.toNat first.toNat n body.data
    | none =>
      let r : EngReq := ⟨view.toNat, none, first.toNat, n, 0, body.data, [], [], false, OpViews.none, []⟩
      match (List.range 4).find? fun e => (s.engine d.toNat e).req.isNone with
      | some e => takeRequest s d.toNat e r
      | none => s.modDie d.toNat fun k => { k with engWait := k.engWait ++ [r] }

/-- The engine's request is a read, or a write. -/
def engineReads (s : State) (d e : Nat) : Bool := match (s.engine d e).req with
  | some r => r.data.isNone
  | none => false
def engineWrites (s : State) (d e : Nat) : Bool := match (s.engine d e).req with
  | some r => r.data.isSome
  | none => false

/-- The next view sector of a read is composed. -/
def execViewSectorCompose (d e : BitVec 2) (s : State) : Out :=
  withPower s fun s => if engineReads s d.toNat e.toNat then engineStep s d.toNat e.toNat else s

/-- The next view sector of a write is composed; with the last of them the write goes to its homes. -/
def execComposedWrite (d e : BitVec 2) (s : State) : Out :=
  withPower s fun s => if engineWrites s d.toNat e.toNat then engineStep s d.toNat e.toNat else s

end Sys2Proof.Machine
end

