-- ==== Sys2Proof/Machine/Launch.lean ====
section
/-! DEFINITION. Launch: launch records and their checks (R108 to R115), completion writes (R122, R124), dependences (R117 to
R120), and where a block fits (R126 to R130). -/

namespace Sys2Proof.Machine

/-- What the line monitor finds at the head slot: V = 1 and SEQ = EXPSEQ (R111). -/
def commitReady (s : State) (q : Nat) : Bool :=
  let c := leNat (homeBytes s (headSlot s q + 0xF8) 8)
  fieldOf c 0 1 == 1 && fieldOf c 32 32 == s.field (QSEQ q) 0 32

/-- A queue may parse a record. -/
def mayParse (s : State) (q : Nat) : Bool :=
  (s.svc == 1 || s.svc == 2) && queueEnabled s q && !queueAborting s q && decide ((heldBy s q).length < 2) && commitReady s q

/-! ## The record (R108, R114) -/

/-- A field of a record at a byte offset. -/
def recField (x off n : Nat) : Nat := fieldOf x (8 * off) (8 * n)

/-- A 16-bit two's complement number. -/
def signed16 (v : Nat) : Int := if v < 2 ^ 15 then v else (v : Int) - 2 ^ 16

def LaunchCfg.ofRecord (x : Nat) : LaunchCfg :=
  let ctrl := recField x 0 4
  let geom := recField x 0x2C 1
  { overlap := fieldOf ctrl 8 1 == 1, irq := fieldOf ctrl 12 1 == 1, inln := fieldOf ctrl 13 1 == 1
    viewadm := fieldOf ctrl 14 1 == 1, map := fieldOf ctrl 9 3, asid := recField x 4 2 % 4096, pc := recField x 8 8
    tba := recField x 0x10 8, ptroot := recField x 0x18 8, gx := recField x 0x20 2, gy := recField x 0x22 2
    gz := recField x 0x24 2, nt := recField x 0x26 2, tl := recField x 0x28 2, regs := recField x 0x2A 1
    pregs := recField x 0x2B 1, spanS := 16 * 2 ^ (geom % 4), coresN := fieldOf geom 4 3, accmax := recField x 0x2E 2
    tilemax := recField x 0x30 4, argva := recField x 0x38 8, compHost := recField x 0x40 8 / 2 ^ 63 == 1
    compaddr := recField x 0x40 8 % 2 ^ 63, compval := recField x 0x48 8, bmaddr := recField x 0x50 8
    prodseq := recField x 0x58 4, scaleS := recField x 0x5C 1, lo := signed16 (recField x 0x60 2)
    hi := signed16 (recField x 0x62 2), tabaddr := recField x 0x68 8 }

/-- Blocks of a launch (R109). -/
def LaunchCfg.blocks (c : LaunchCfg) : Nat := c.gx * c.gy * c.gz

/-- A device-local address of an 8-byte aligned location. -/
def localAligned (a : Nat) : Bool := a % 8 == 0 && decide (a < 2 ^ 39)

/-- COMPADDR is well formed (check 0x08). -/
def LaunchCfg.compOk (c : LaunchCfg) : Bool := if c.compHost then c.compaddr % 8 == 0 else localAligned c.compaddr

/-- PC's form: bits [63:55] zero, aligned. -/
def addrForm (a align : Nat) : Bool := decide (a < 2 ^ 55) && a % align == 0

/-! ## Partitions (R126, R128) -/

def partitions : Nat := 8
def teamSlots : Nat := 16

/-- Free lane-registers and free team slots of a partition. -/
structure PartUse where
  free : Nat
  slots : List Nat
deriving DecidableEq, Repr

def emptyPart : PartUse := ⟨partitionRegs, List.range teamSlots⟩

def partUse (s : State) (core part : Nat) : PartUse :=
  let taken := (s.teams.filter fun t => t.coreNo == core && t.part == part).map (·.slot)
  ⟨partitionRegs - regsUsed s core part, (List.range teamSlots).filter fun i => !taken.contains i⟩

/-- The partition that R128 gives the next team: the most free lane-registers among those with a slot, the lowest number
on a tie. -/
def bestPart (ps : List PartUse) : Option Nat :=
  (ps.zipIdx.foldl (fun (best : Option (Nat × Nat)) x =>
    if x.1.slots.isEmpty then best
    else match best with
      | some (f, _) => if f < x.1.free then some (x.1.free, x.2) else best
      | none => some (x.1.free, x.2)) none).map (·.2)

/-- Partition and slot of each team of one block core, whose needs in lane-registers are listed in order; a team that has
exited needs none. -/
def assignTeams : List (Option Nat) → List PartUse → Option (List (Nat × Nat))
  | [], _ => some []
  | none :: ns, ps => (assignTeams ns ps).map fun r => (0, 0) :: r
  | some n :: ns, ps =>
    match bestPart ps with
    | none => none
    | some i => match ps[i]? with
      | some p => match p.slots with
        | slot :: rest =>
          if p.free < n then none
          else (assignTeams ns (ps.set i ⟨p.free - n, rest⟩)).map fun r => (i, slot) :: r
        | [] => none
      | none => none

/-- Teams of a block core, in increasing number (R128). -/
def coreTeams (nt cores bc : Nat) : List Nat := (List.range nt).filter fun t => t % cores == bc

/-- R129: the block's teams fit on empty cores with PREGS registers. -/
def fitsEmpty (c : LaunchCfg) : Bool :=
  (List.range c.coresN).all fun bc =>
    (assignTeams ((coreTeams c.nt c.coresN bc).map fun _ => some (c.pregs * c.tl)) (List.replicate partitions emptyPart)).isSome

/-! ## Checks (R114, R118, R129) -/

def reservedClear (x : Nat) : Bool :=
  fieldOf x 0 8 == 1 && fieldOf x 15 17 == 0 && fieldOf (recField x 4 4) 12 20 == 0 && recField x 0x2D 1 == 0
    && recField x 0x34 4 == 0 && recField x 0x5D 3 == 0 && recField x 0x64 4 == 0 && recField x 0x70 16 == 0
    && fieldOf (recField x 0xF8 8) 1 31 == 0

def gridOk (c : LaunchCfg) : Bool :=
  c.gx != 0 && c.gy != 0 && c.gz != 0 && decide (c.blocks ≤ 1048576) && decide (1 ≤ c.nt ∧ c.nt ≤ 64)
    && decide (32 ≤ c.tl ∧ c.tl ≤ 1024) && c.tl % 32 == 0 && decide (c.nt * c.tl ≤ 65536)

def geomOk (x : Nat) (c : LaunchCfg) : Bool :=
  let geom := recField x 0x2C 1
  decide (16 ≤ c.regs ∧ c.regs ≤ 160) && c.regs % 8 == 0 && decide (8 ≤ c.pregs ∧ c.pregs ≤ 32) && c.pregs % 8 == 0
    && decide (c.pregs ≤ c.regs) && geom % 4 != 3 && fieldOf geom 2 2 == 0 && fieldOf geom 7 1 == 0
    && decide (1 ≤ c.coresN ∧ c.coresN ≤ 4) && decide (c.regs * c.tl ≤ 65536) && c.tl % c.spanS == 0 && fitsEmpty c

def sharesOk (c : LaunchCfg) : Bool := decide (c.tilemax ≤ 512 * c.coresN) && decide (c.accmax ≤ 2048 * c.coresN)

def formsOk (c : LaunchCfg) : Bool :=
  addrForm c.pc 4 && addrForm c.tba 4 && addrForm c.argva 8 && decide (c.ptroot < 2 ^ 39) && c.ptroot % 65536 == 0

/-- The dependence fields (R118); `prod` is the record before this one in the queue. -/
def dependsOk (seq : Nat) (c : LaunchCfg) (prod : Option LaunchCfg) : Bool :=
  let bands := c.map == 3 || c.map == 4
  c.overlap == (c.map != 0) && decide (c.map ≤ 5)
    && (c.map != 0 || c.prodseq == 0) && (bands || (c.scaleS == 0 && c.lo == 0 && c.hi == 0)) && (c.map == 5 || c.tabaddr == 0)
    && (c.map == 0 || c.prodseq == (seq + 2 ^ 32 - 1) % 2 ^ 32)
    && (!bands || (decide (1 ≤ c.scaleS) && decide (c.lo ≤ c.hi)))
    && (c.map == 0 || match prod with
      | some p => p.bmaddr != 0 && (c.map != 2 || c.blocks == p.blocks)
      | none => true)

/-- The record before this one, where its sequence number is the one before. -/
def producerOf (s : State) (q seq : Nat) : Option (Bool × LaunchCfg) :=
  match ((s.queues[q]?).getD ⟨none⟩).last with
  | some (n, ok, c) => if (n + 1) % 2 ^ 32 = seq then some (ok, c) else none
  | none => none

/-- Check 0x09: pages of the inline arguments, as an unprivileged context of the launch writes them (R110). -/
structure ArgPlan where
  ok : Bool
  writes : List (Nat × Leaf × Bool)

/-- The leaf of each of the 15 doublewords of the argument area, and whether all may be written. -/
def planArgs (s : State) (c : LaunchCfg) : ArgPlan × State :=
  (List.range 15).foldl (fun (acc : ArgPlan × State) i =>
    let va := c.argva + 8 * i
    match (if 2 ^ 55 ≤ va then (.fault 2 0, false, acc.2) else walk acc.2 0 c.asid c.ptroot va) with
    | (.fault _ _, _, s) => (⟨false, acc.1.writes⟩, s)
    | (.leaf l big, _, s) =>
      let s := if l.tol = 0 then s else markTolerant s l.addr (if big then 8192 else 1)
      let bad := (permFault ⟨0, c.asid, c.ptroot, false, c.viewadm⟩ l (if l.tol = 0 then l.pa big va else l.tolPa big va) va
          ⟨8, .write, false, false⟩).isSome
        || l.typ == 1 || l.typ == 3 || l.sync
      (⟨acc.1.ok && !bad, acc.1.writes ++ [(va, l, big)]⟩, s)) (⟨true, []⟩, s)

/-- The dispatcher's write of one doubleword: a plain store, narrowed on a tolerant page. -/
def writeArg (s : State) (va : Nat) (l : Leaf) (big : Bool) (v : List Byte) : State :=
  let w := if l.tol ≠ 0 then bytesWrite (l.tolPa big va) (narrowBytes l.tol v) else bytesWrite (l.pa big va) v
  (bulkWrite s w).2

/-- The code of the first check before the one of the arguments that fails, or 0. -/
def recordFailure (s : State) (q seq x : Nat) (c : LaunchCfg) : Nat :=
  let prod := producerOf s q seq
  if !reservedClear x then 1
  else if !gridOk c then 2
  else if !geomOk x c then 3
  else if !sharesOk c then 4
  else if !formsOk c then 5
  else if !dependsOk seq c (prod.map (·.2)) then 6
  else if c.overlap && prod.map (·.1) != some true then 7
  else if decide (2 ^ 63 ≤ c.compval) || !c.compOk || !localAligned c.bmaddr || !localAligned c.tabaddr then 8
  else 0

/-- The code of the first check that fails, or 0, with the pages of the inline arguments: they are walked once checks 0x01 to 0x08
have passed (R114). -/
def firstFailure (s : State) (q seq x : Nat) (c : LaunchCfg) : Nat × List (Nat × Leaf × Bool) × State :=
  match recordFailure s q seq x c with
  | 0 =>
    let (plan, s) := if c.inln then planArgs s c else (⟨true, []⟩, s)
    (if !plan.ok then 9 else if c.viewadm && s.field (QCTL q) 14 1 == 0 then 10 else 0, plan.writes, s)
  | code => (code, [], s)

/-! ## Completion writes (R115, R122, R124) -/

/-- A completion write of a queue that fails is counted and logged (R124, log entry 90). -/
def completionFails (s : State) (d q addr : Nat) : State :=
  (s.countDrop).logError (logDie s d) (agentWord 0 0 0 q) 6 0 addr

/-- Eight bytes at a queue's COMPADDR; a write that meets poison, or an error of the host link, fails. -/
def completionWrite (s : State) (q : Nat) (c : LaunchCfg) (v : Nat) (linkError : Bool) : State :=
  if c.compHost then
    if linkError then completionFails s 0 q c.compaddr else s.emitHost (.hostWrite c.compaddr (BitVec.ofNat 64 v))
  else if homePoisoned s (c.compaddr / 32) then completionFails s (homeDie c.compaddr) q c.compaddr
  else (bulkWrite s (bytesWrite c.compaddr (leBytes 8 v))).2

/-- A completion, or the error completion of a code, and the queue's MSI-X where IRQ = 1, which is sent also when the write has failed
(log entry 106). -/
def writeCompletion (s : State) (l : Launch) (linkError : Bool := false) : State :=
  let v := match l.err with
    | some code => 0x80 * 2 ^ 56 + code * 2 ^ 48 + l.seq
    | none => l.cfg.compval
  let s := completionWrite s l.q l.cfg v linkError
  if l.cfg.irq then sendMsix s l.q else s

/-! ## Rejection (R115, R116) -/

def noteRejection (s : State) (q seq code : Nat) : State :=
  let s := ((s.setField (QSTAT q) 40 8 code).count (QSTAT q) 48 16 1).count LCNT 0 32 1
  if s.field LERR 63 1 = 1 then s
  else sendMsix (s.setMreg LERR (BitVec.ofNat 64 (2 ^ 63 + q * 2 ^ 48 + code * 2 ^ 40 + seq))) 64

/-! ## Readiness of blocks (R117, R119, R120) -/

def Launch.complete (l : Launch) : Bool := decide (l.cfg.blocks ≤ l.done.length)

/-- Producer blocks that consumer block `c` needs; a table entry is (FIRST, COUNT). -/
def neededBlocks (c p : LaunchCfg) (blk : Nat) (tab : Nat × Nat) : List Nat :=
  let bx := blk % c.gx
  let by' := blk / c.gx % c.gy
  let bz := blk / (c.gx * c.gy)
  let inBand (at' i : Nat) : Bool := decide ((at' : Int) * c.scaleS + c.lo ≤ i ∧ (i : Int) ≤ at' * c.scaleS + c.hi)
  match c.map with
  | 1 => List.range p.blocks
  | 2 => [blk]
  | 3 => (List.range p.blocks).filter fun i => i / (p.gx * p.gy) == bz && inBand by' (i / p.gx % p.gy)
  | 4 => (List.range p.blocks).filter fun i => i / (p.gx * p.gy) == bz && inBand bx (i % p.gx)
  | 5 => (List.range p.blocks).filter fun i => decide (tab.1 ≤ i ∧ i < tab.1 + tab.2)
  | _ => []

/-- Whether a completion bitmap at an address has a block's bit set, as its home holds it. -/
def bitmapSet (s : State) (bm i : Nat) : Bool := (homeByte s (bm + i / 8)).getLsbD (i % 8)

/-- Earlier launches of the same queue that have not completed. -/
def earlierOpen (s : State) (l : Launch) : List Launch :=
  ((heldBy s l.q).takeWhile fun x => x.seq != l.seq).filter fun x => !x.complete

/-- The launch may place blocks at all (R117). -/
def launchOpen (s : State) (l : Launch) : Bool :=
  if l.cfg.overlap then (earlierOpen s l).all fun x => x.seq == l.cfg.prodseq else (earlierOpen s l).isEmpty

/-- A producer's bitmap has been zeroed, so that its bits are its own (R120). -/
def producerPrepared (s : State) (l : Launch) : Bool :=
  (s.launches.find? fun x => x.q == l.q && x.seq == l.cfg.prodseq).all (·.prepared)

/-- The bits that the launch's next block waits for are set (R120). -/
def bitsReady (s : State) (l : Launch) (blk : Nat) : Bool :=
  match l.cfg.overlap, l.producer with
  | true, some p =>
    let tab := match l.tab with
      | some (b, f, n) => if b = blk then (f, n) else (0, 0)
      | none => (0, 0)
    let need := neededBlocks l.cfg p blk tab
    need.isEmpty || (producerPrepared s l && need.all fun i => bitmapSet s p.bmaddr i)
  | _, _ => true

/-! ## Where a block fits (R127, R130) -/

/-- Sublists of a given length, in order. -/
def choose {α : Type} : Nat → List α → List (List α)
  | 0, _ => [[]]
  | _ + 1, [] => []
  | n + 1, x :: xs => (choose n xs).map (x :: ·) ++ choose (n + 1) xs

/-- Runs that resident blocks hold of a core's units, and of its rows. -/
def takenShares (s : State) (core : Nat) : List (Nat × Nat) × List (Nat × Nat) :=
  let mine := s.blocks.flatMap fun b =>
    if b.live.isEmpty then []
    else (b.cores.zipIdx.filter fun x => x.1 == core).map fun x =>
      ((b.tileBase.getD x.2 0, b.tileLen), (b.accBase.getD x.2 0, b.accLen))
  (mine.map (·.1), mine.map (·.2))

/-- Blocks that hold a block slot of a core. -/
def blocksOn (s : State) (core : Nat) : List Block := s.blocks.filter fun b => !b.live.isEmpty && b.cores.contains core

/-- What a core gives a block: first unit, first row, and partition and slot of each of its teams; `needs` lists the
lane-registers of its teams on this block core. -/
structure Seat where
  (unit row : Nat)
  teams : List (Nat × Nat)
deriving DecidableEq, Repr

def seatOn (s : State) (core tile acc : Nat) (needs : List (Option Nat)) : Option Seat :=
  let (us, rs) := takenShares s core
  if 16 ≤ (blocksOn s core).length ∨ (s.core core).allocQ ≠ [] ∨ coreDead s core then none
  else match lowestRun us 512 tile, lowestRun rs 2048 acc,
      assignTeams needs ((List.range partitions).map (partUse s core)) with
    | some u, some r, some ts => some ⟨u, r, ts⟩
    | _, _, _ => none

/-- The shares of a launch's blocks on each of their cores. -/
def shareOf (c : LaunchCfg) : Nat × Nat := (ceilDiv c.tilemax c.coresN, ceilDiv c.accmax c.coresN)

/-- The seats of a block on a set of cores; `need` gives the lane-registers of each team. -/
def seatsOn (s : State) (c : LaunchCfg) (need : Nat → Option Nat) (cores : List Nat) : Option (List Seat) :=
  let (tile, acc) := shareOf c
  (cores.zipIdx.map fun x => seatOn s x.1 tile acc ((coreTeams c.nt c.coresN x.2).map need)).foldr
    (fun x acc => match x, acc with
      | some a, some r => some (a :: r)
      | _, _ => none) (some [])

/-- Candidate sets: CORES cores of one quad of a die that is up. -/
def coreSets (s : State) (n : Nat) : List (List Nat) :=
  ((List.range 16).filter fun q => (s.die (q / 4)).up).flatMap fun q => choose n ((List.range 4).map (4 * q + ·))

def teamsOn (s : State) (cores : List Nat) : Nat := (s.teams.filter fun t => cores.contains t.coreNo).length

/-- The set with the fewest teams, and on a tie the lowest list, with its seats (R130). -/
def bestSet (s : State) (c : LaunchCfg) (need : Nat → Option Nat) : Option (List Nat × List Seat) :=
  (((coreSets s c.coresN).filterMap fun cs => (seatsOn s c need cs).map fun x => (cs, x)).foldl
    (fun (best : Option (Nat × List Nat × List Seat)) x =>
      let n := teamsOn s x.1
      match best with
      | some (m, _) => if n < m then some (n, x) else best
      | none => some (n, x)) none).map (·.2)

end Sys2Proof.Machine
end

