-- ==== Sys2Proof/Machine/EvHost.lean ====
section
/-! DEFINITION. EvHost: the host's accesses to memory (R103), the launch queues (R105 to R107, R111 to R115), and aborts
(R125). -/

namespace Sys2Proof.Machine

/-! ## Host memory accesses (R103) -/

/-- A device-local address in a parking area or the Lantern area, which the host cannot write. -/
def hostReadOnly (a : Nat) : Bool :=
  let d := homeDie a
  let o := dieOffset a
  (decide (parkBase d ≤ o) && decide (o < parkBase d + 2 ^ 27)) || (d == 0 && decide (lanternBase ≤ o))

/-- Whether a slot of a queue's ring holds a record that has not been parsed: V = 1 with a SEQ of that slot still to come. -/
def slotPending (s : State) (q slot : Nat) : Bool :=
  let c := leNat (homeBytes s (slot + 0xF8) 8)
  let seq := fieldOf c 32 32
  let base := s.field (QBASE q) 16 23 * 65536
  decide (base ≤ slot ∧ slot < base + 65536) && fieldOf c 0 1 == 1 && decide (seq % 256 = (slot - base) / 256)
    && decide ((seq + 2 ^ 32 - s.field (QSEQ q) 0 32) % 2 ^ 32 < 2 ^ 31)

/-- The host writes slots whose record has not been parsed: what a parse reads of them is unpredictable (R113, R10). A record that
is taken back may be written anew. -/
def noteTornSlots (old new : State) (w : EnWrite) : State :=
  ((w.map fun x => x.1 / 256 * 256).dedup).foldl (fun s slot =>
    if !(List.range 64).any fun q => slotPending s q slot then { s with tornSlots := s.tornSlots.filter (· != slot) }
    else if (List.range 64).any fun q => slotPending old q slot then { s with tornSlots := insertNat slot s.tornSlots }
    else s) new

/-- The device-local address that a host access names (R39, R102). -/
def hostAddress : HostPlace → Nat
  | .device a => a.toNat
  | .lantern off => lanternBase + off.toNat

/-- A write of the host; BAR4 is read-only, and a write there is ignored (R39). -/
def execHostMemWrite (a : HostPlace) (bytes : List Byte) (s : State) : Out :=
  withPower s fun s => match a with
    | .device a =>
      let w := bytesWrite a.toNat bytes
      let ok := w.filter fun x => !hostReadOnly x.1
      let t := if ok.length < w.length then s.countDrop else s
      noteTornSlots s (bulkWrite t ok).2 ok
    | .lantern _ => s

/-- Bytes of one sector for the host: each registered word from its registrant, and poison as its canonical bytes. -/
def hostSector (s : State) (sec : Nat) : List Byte × Bool × State :=
  let ws := (List.range 8).map (8 * sec + ·)
  let s := askHome s ws
  let vs := ws.map fun w => readForward s w
  let p := vs.any (·.2)
  (vs.flatMap fun v => leBytes 4 v.1.toNat, p, if p then deliverSectors s [sec] else s)

/-- A read of the host, which then holds the lines that it reads over CXL.mem (R22); a read through BAR4 is none of those. -/
def execHostMemRead (a : HostPlace) (n : HostRead) (s : State) : Out :=
  withPower s fun s =>
    let cxl := match a with
      | .device _ => n.cxl
      | .lantern _ => false
    let a := hostAddress a
    let n := n.bytes.toNat
    if n = 0 then s
    else
      let (bs, p, s) := (List.range ((a + n - 1) / 32 + 1 - a / 32)).foldl (fun (acc : List Byte × Bool × State) i =>
        let (bs, p, s) := hostSector acc.2.2 (a / 32 + i)
        (acc.1 ++ bs, acc.2.1 || p, s)) (([] : List Byte), false, s)
      let lines := if cxl then (List.range ((a + n - 1) / 128 + 1 - a / 128)).map (a / 128 + ·) else []
      let s := { s with hostLines := lines.foldl (fun m l => insertNat l m) s.hostLines }
      s.emitHost (.readData a ((bs.drop (a % 32)).take n) p)

/-! ## Enabling (R106, R107) -/

def setQueueEnable (s : State) (q : Nat) (on : Bool) : State := s.setField (QCTL q) 0 1 (if on then 1 else 0)

def execQueueEnable (q : BitVec 6) (s : State) : Out := withPower s fun s => setQueueEnable s q.toNat true
def execQueueDisable (q : BitVec 6) (s : State) : Out := withPower s fun s => setQueueEnable s q.toNat false

/-! ## Parsing (R110 to R115, R250) -/

/-- Every instruction cache is invalidated. -/
def dropCode (s : State) : State := { s with cores := s.cores.map fun k => { k with icache := [] } }

def setLast (s : State) (q : Nat) (x : Nat × Bool × LaunchCfg) : State := { s with queues := s.queues.set q ⟨some x⟩ }

/-- The record is accepted: inline arguments are written and instruction caches invalidated. -/
def acceptRecord (s : State) (l : Launch) (x : Nat) (pages : List (Nat × Leaf × Bool)) : State :=
  let s := if l.cfg.inln then pages.zipIdx.foldl (fun s (w : (Nat × Leaf × Bool) × Nat) =>
      writeArg s w.1.1 w.1.2.1 w.1.2.2 (leBytes 8 (recField x (0x80 + 8 * w.2) 8))) s
    else s
  dropCode { s with launches := s.launches ++ [l] }

/-- The contents of a slot as the dispatcher reads them. -/
def slotContents (s : State) (slot : Nat) : Nat × State :=
  let (bs, _, s) := bulkBytes s 0 slot 256
  if s.tornSlots.contains slot then
    let (x, s) := unpredictableBits s 32
    (x, { s with tornSlots := s.tornSlots.filter (· != slot) })
  else (leNat bs, s)

/-- The dispatcher parses the head slot of a queue. The commit word is written back with V = 0, SEQ unchanged and its reserved
bits zero (R8, R112). -/
def parseRecord (s : State) (q : Nat) : State :=
  let slot := headSlot s q
  let seq := s.field (QSEQ q) 0 32
  let (x, s) := slotContents s slot
  let c := LaunchCfg.ofRecord x
  let (code, pages, s) := firstFailure s q seq x c
  let l : Launch := ⟨q, seq, c, 0, [], false, none, (producerOf s q seq).map (·.2), none⟩
  let s :=
    if code = 0 then acceptRecord s l x pages
    else
      let s := noteRejection s q seq code
      if c.compOk then { s with launches := s.launches ++ [{ l with err := some code }] } else s
  let s := setLast s q (seq, code == 0, c)
  let s := (bulkWrite s (bytesWrite (slot + 0xF8) (leBytes 8 (seq * 2 ^ 32)))).2
  s.setField (QSEQ q) 0 32 (seq + 1)

def execRecordParse (q : BitVec 6) (s : State) : Out :=
  withPower s fun s => if mayParse s q.toNat then parseRecord s q.toNat else s

/-! ## Aborts (R125, R147) -/

/-- The outstanding lane accesses of a team, and its asynchronous operations, complete (R342). -/
def settleTeam (s : State) (key : TeamKey) : State :=
  match s.teams.findIdx? fun t => t.key == key with
  | some k => drainOps (settleAll s k) key
  | none => s

/-- A block goes with its teams, whose asynchronous operations complete first. -/
def removeBlock (s : State) (b : Block) : State :=
  let keys := (s.teams.filter fun t => b.holds t.key).map (·.key)
  let s := keys.foldl (fun s key =>
    let s := settleTeam s key
    match s.teamOf key with
    | some t => removeTeam s t
    | none => s) s
  { s with blocks := s.blocks.filter fun x => !(x.q == b.q && x.seq == b.seq && x.idx == b.idx) }

def CTXSIZE : Nat := 0x9008
def SUSP : Nat := 0x9020

/-- USED follows the saved contexts (R146, R148). -/
def updateUsed (s : State) : State := s.setField CTXSIZE 32 24 (ceilDiv (s.saved.map (·.bytes)).sum 65536)

def startAbort (s : State) (q : Nat) : State :=
  if queueAborting s q then s
  else
    let held := heldBy s q
    let s := s.setField (QCTL q) 15 1 1
    let s := ((s.blocks.filter fun b => b.q == q).reverse).foldl removeBlock s
    let s := updateUsed { s with saved := s.saved.filter fun b => b.block.q != q }
    let mark (l : Launch) : Launch := if l.q = q ∧ l.err.isNone then { l with err := some 0x40 } else l
    let s := { s with launches := s.launches.map mark }
    let s := if held.isEmpty then s else s.setField (QSTAT q) 40 8 0x40
    let s := s.count LCNT 32 32 held.length
    -- a consumer of an aborted launch is refused (R114, 0x07)
    match ((s.queues[q]?).getD ⟨none⟩).last with
    | some (n, _, c) => if held.any fun l => l.seq == n then setLast s q (n, false, c) else s
    | none => s

def execQueueAbort (q : BitVec 6) (s : State) : Out := withPower s fun s => startAbort s q.toNat

/-- The error completions of an aborted queue are written, in order, and STATE leaves 3; `failed` tells which of them the host link
fails. The queue's suspension ends with the abort (log entry 107). -/
def finishAbort (s : State) (q : Nat) (failed : List Bool) : State :=
  if queueAborting s q then
    let s := (s.launches.filter fun l => l.q == q).zipIdx.foldl (fun s x => writeCompletion s x.1 (failed.getD x.2 false)) s
    let s := { s with launches := s.launches.filter fun l => l.q != q }
    (s.setField (QCTL q) 15 1 0).setField SUSP q 1 0
  else s

def execAbortFinish (q : AbortTurn) (s : State) : Out := withPower s fun s => finishAbort s q.queue.toNat q.failed

end Sys2Proof.Machine
end

