-- ==== Sys2Proof/Machine/Latch.lean ====
section
/-! DEFINITION. Latch: whether an instruction reads a latch, which R163's boundaries turn on, and the end of latch chains (R10, R162). -/

namespace Sys2Proof.Machine

/-- The operand code that a PFX adds. -/
def pfxLatch (p : Option Pfx) : List Byte := (p.map (·.c)).toList

/-- The fields of an instruction whose latch codes are reads; BXCH's destination is one (R161, R298). -/
def latchFields : Instr → List Byte
  | .nop p | .movi p _ _ | .movhi p _ _ | .iaddi p _ _ | .rng p _ | .frdc p _ _ | .frdv p _ _ => pfxLatch p.pfx
  | .mov p _ a | .popc p _ a | .clz p _ a | .brev p _ a | .fabs p _ a | .fneg p _ a | .fclass p _ a | .cvt p _ a _
  | .sfu p _ a _ | .ballot p _ a | .redadd p _ a | .redfadd p _ a | .redmax p _ a | .redmin p _ a | .scanadd p _ a
  | .ldb p _ a _ | .ldbs p _ a _ | .ldh p _ a _ | .ldhs p _ a _ | .ldw p _ a _ | .ldd p _ a _ | .ldq p _ a _
  | .ldt p _ a _ _ | .ldtq p _ a _ _ => pfxLatch p.pfx ++ [a]
  | .iadd p _ a b | .isub p _ a b | .imul p _ a b | .imulhi p _ a b | .umulhi p _ a b | .imad p _ a b
  | .iadd64 p _ a b | .imin p _ a b | .imax p _ a b | .umin p _ a b | .umax p _ a b | .and p _ a b | .or p _ a b
  | .xor p _ a b | .andn p _ a b | .shl p _ a b | .shr p _ a b | .sar p _ a b | .rotl p _ a b | .bfx p _ a b
  | .bfxs p _ a b | .bfi p _ a b | .sel p _ a b | .prmt p _ a b | .iseteq p _ a b | .isetne p _ a b
  | .isetlt p _ a b | .isetle p _ a b | .usetlt p _ a b | .usetle p _ a b | .fseteq p _ a b | .fsetne p _ a b
  | .fsetlt p _ a b | .fsetle p _ a b | .fsetun p _ a b | .fadd p _ a b | .fsub p _ a b | .fmul p _ a b
  | .ffma p _ a b | .fmin p _ a b | .fmax p _ a b | .hadd2 p _ a b | .hmul2 p _ a b | .hfma2 p _ a b
  | .bfma2 p _ a b | .fdot2 p _ a b | .fscale p _ a b | .dadd p _ a b | .dmul p _ a b | .dfma p _ a b
  | .dmin p _ a b | .dmax p _ a b | .dsetlt p _ a b | .dseteq p _ a b | .actv p _ a b | .shfl p _ a b
  | .shflx p _ a b | .shflu p _ a b | .shfld p _ a b => pfxLatch p.pfx ++ [a, b]
  | .bxch p d a b => pfxLatch p.pfx ++ [d, a, b]
  | .stb p d a _ | .sth p d a _ | .stw p d a _ | .std p d a _ | .stq p d a _ | .stbm p d a _ | .stt p d a _ _
  | .sttq p d a _ _ => pfxLatch p.pfx ++ [d, a]
  | .ldx p _ a _ _ _ _ => pfxLatch p ++ [a]
  | .stx p d a _ _ _ _ => pfxLatch p ++ [d, a]
  | .atom p _ a b x | .atomt p _ a b x => pfxLatch p ++ [a, b, x.c]
  | .umov _ _ a | .upopc _ _ a | .uclz _ _ a | .jmpr a | .uany _ a | .uld _ a _ | .uldd _ a _ | .barInit _ a
  | .promote _ a _ _ | .vinv a | .actld a _ | .await a | .atest _ a | .tstake _ a => [a]
  | .uiadd _ _ a b | .uisub _ _ a b | .uimul _ _ a b | .uimad _ _ a b | .uiadd64 _ _ a b | .uminUni _ _ a b
  | .umaxUni _ _ a b | .uand _ _ a b | .uor _ _ a b | .uxor _ _ a b | .ushl _ _ a b | .ushr _ _ a b | .usar _ _ a b
  | .ubfx _ _ a b | .ubfi _ _ a b | .usel _ _ a b | .uiseteq _ _ a b | .uisetne _ _ a b | .uisetlt _ _ a b
  | .uisetle _ _ a b | .uusetlt _ _ a b | .uusetle _ _ a b | .barx a b _ | .seal _ a b
  | .reopen _ a b | .cpy _ a b _ | .cpyg _ a b _ | .cpys _ a b _ | .tsgive a b => [a, b]
  | .uatom _ a b x => [a, b, x.c]
  | .fopen _ a b cnt _ => [a, b, cnt]
  | .ubrz r _ | .ubrnz r _ | .ifI r _ | .brk r | .cont r => [r]
  | .swr s _ => [s]
  | .ust d a _ | .ustd d a _ => [d, a]
  | _ => []

/-- Whether an instruction names a latch as a source. -/
def namesLatch (i : Instr) : Bool := (latchFields i).any fun c => decide (160 ≤ c.toNat ∧ c.toNat < 164)

/-- The boundaries at which a team may leave the active set: before an instruction that reads no latch, or after a taken
transfer (R163). -/
def mayLeave (s : State) (k : Nat) (t : Team) : Bool :=
  t.moved || match (fetchInstr s k t t.pc).1 with
    | .instr i _ => !namesLatch i
    | _ => true

/-! ## Chains (R10, R162) -/

/-- Latch values whose chain has ended are unpredictable to what reads them; void latches stay void (log entry 9). -/
def Team.breakChains (t : Team) (n : Nat) : Team :=
  let free (i : Nat) : Word := (Config.unpredictable (n + i)).setWidth 32
  let lanes (p : Nat) (x : LaneLatches) : LaneLatches :=
    { x with vals := x.vals.zipIdx.map fun v => (List.range t.tl).map fun l => free (4096 * p + 1024 * v.2 + l) }
  { t with latL := lanes 0 t.latL, latX := lanes 1 t.latX
           latU := { t.latU with vals := t.latU.vals.zipIdx.map fun v => free (8192 + v.2) } }

/-- Whether the instruction ends the chains before it: it reads no latch, or follows a taken transfer. -/
def endsChains (t : Team) (i : Instr) : Bool := (t.moved || !namesLatch i)
  && !(t.latL.vals.isEmpty && t.latX.vals.isEmpty && t.latU.vals.isEmpty)

/-- The state in which a team's instruction issues. -/
def endChains (s : State) (k : Nat) (t : Team) (i : Instr) : State :=
  if endsChains t i then { s.modTeam k fun t => t.breakChains s.tick with tick := s.tick + 8196 } else s

end Sys2Proof.Machine
end

