-- ==== Sys2Proof/Machine/EvSched.lean ====
section
/-! DEFINITION. EvSched: placing, restoring, pre-empting and completing blocks (R117 to R133, R142 to R149), completing
launches (R122), ALLOC's queue (R135, R136), context switches (R147, R148), and the active sets (R138). -/

namespace Sys2Proof.Machine

/-! ## New teams (R133, R179, R192) -/

def sigOnes : Sig := ~~~0#512

/-- A newly placed team. -/
def newTeam (cfg : LaunchCfg) (key : TeamKey) (core part slot order : Nat) : Team :=
  let rng := (List.range cfg.tl).map (rngSeed key.seq key.blk key.num)
  let fibres := List.replicate 8 Fibre.closed
  { key := key, cfg := cfg, die := core / 16, core := core % 16, part := part, slot := slot, pc := cfg.pc, repIdx := 0
    mask := allLanes cfg.tl, stack := [], regs := List.replicate cfg.pregs (zeroLanes cfg.tl), dead := 0#160
    latL := LaneLatches.empty, latX := LaneLatches.empty, latU := UniLatches.empty, ocache := [], rng := rng
    status := 0#32, trapen := 0#32, priv := false, cause := 0, epc := 0, faddr := 0, flane := 0
    tscr := List.replicate 4 0#32, smask := 0#1024, sdepth := 0
    ckpt := ⟨[], allLanes cfg.tl, [], fibres, rng, cfg.pc, false⟩
    fibres := fibres, allotted := false, accRun := none, tileRun := none, openOps := [], batches := [], nextBatch := 0
    pending := none, loads := [], sigW := sigOnes, sigE0 := 0#512, sigE1 := 0#512, sigE2 := 0#512, park := none
    active := false, age := 0, entered := 0, order := order, expect := none, moved := false
    walked := false, issuedAt := 0 }

/-- Core, partition and slot of each team of a block, by team number. -/
def seatOf (cores : List Nat) (seats : List Seat) (n num : Nat) : Nat × Nat × Nat :=
  let bc := num % n
  let ps := ((seats[bc]?).getD ⟨0, 0, []⟩).teams.getD (num / n) (0, 0)
  (cores.getD bc 0, ps.1, ps.2)

/-- The block that its seats make. -/
def newBlock (q seq idx : Nat) (cfg : LaunchCfg) (cores : List Nat) (seats : List Seat) (placed : Nat) : Block :=
  let (tile, acc) := shareOf cfg
  { q := q, seq := seq, idx := idx, cfg := cfg, cores := cores, past := [], tileBase := seats.map (·.unit), tileLen := tile,
    accBase := seats.map (·.row), accLen := acc, units := [], accRuns := [],
    bars := List.replicate 16 ⟨cfg.nt, 0, 0, 0#512, none⟩, live := List.range cfg.nt, placed := placed }

/-! ## Placing (R117, R120, R123, R130, R131, R133) -/

def prologueNeed (c : LaunchCfg) : Nat → Option Nat := fun _ => some (c.pregs * c.tl)

/-- The launch's bitmap is zeroed before its first block (R120, R121). -/
def prepareLaunch (s : State) (l : Launch) : State :=
  if l.prepared then s
  else
    let mark (x : Launch) : Launch := if x.q = l.q ∧ x.seq = l.seq then { x with prepared := true } else x
    let s := { s with launches := s.launches.map mark }
    if l.cfg.bmaddr = 0 then s
    else (bulkWrite s (bytesWrite l.cfg.bmaddr (List.replicate (8 * ceilDiv l.cfg.blocks 64) 0#8))).2

/-- The cores of a block that is placed or restored meet no stale copy: what its launch's producers wrote, and what its teams' completed
waits were to remove (R120, R188, R204). -/
def freshen (s : State) (c : Nat) : State := dropWritten s c fun _ => true

/-- A new block of a launch on its seats. A core's clock is 0 until its first block, but for what an epoch boundary has raised it to,
which stays (DESIGN CHOICE, log entry 110). -/
def seatBlock (s : State) (l : Launch) (cores : List Nat) (seats : List Seat) : State :=
  let s := cores.foldl freshen (prepareLaunch s l)
  let c := l.cfg
  let order := nextOrder s
  let teams := (List.range c.nt).map fun num =>
    let (core, part, slot) := seatOf cores seats c.coresN num
    newTeam c ⟨l.q, l.seq, l.nextBlk, num⟩ core part slot (order + num)
  let bump (x : Launch) : Launch := if x.q = l.q ∧ x.seq = l.seq then { x with nextBlk := x.nextBlk + 1 } else x
  { s with
    blocks := s.blocks ++ [newBlock l.q l.seq l.nextBlk c cores seats s.placeCount]
    teams := s.teams ++ teams
    launches := s.launches.map bump
    placeCount := s.placeCount + 1 }

/-! ## Contexts (R143, R145, R146) -/

/-- Bytes of the region save store entries of a team. -/
def saveBytes (t : Team) : Nat := 4 * t.tl * t.ckpt.regs.length

/-- A block's context size. A team that has exited has no 4 KiB in it (log entry 111). -/
def contextSize (s : State) (b : Block) : Nat :=
  let ts := s.teams.filter fun t => b.holds t.key
  8192 + 4096 * ts.length
    + b.cfg.coresN * (roundUp (4096 * b.tileLen) 4096 + roundUp (512 * b.accLen) 4096)
    + (ts.map fun t => roundUp (saveBytes t) 4096).sum

def poolBase (s : State) : Nat := s.field 0x9000 16 23 * 65536
def poolSize (s : State) : Nat := s.field CTXSIZE 0 24 * 65536

/-- The pool lies within one die's home memory, outside the reserved areas (R148). -/
def poolPlaced (s : State) : Bool :=
  let a := poolBase s
  let d := homeDie a
  let e := dieOffset a + poolSize s
  let top := if d = 0 then dieOffset DESCBASE else parkBase d
  decide (e ≤ top)

def contextFits (s : State) (b : Block) : Bool :=
  poolSize s != 0 && poolPlaced s && decide ((s.saved.map (·.bytes)).sum + contextSize s b ≤ poolSize s)

/-- The block runs, no team of it is in a handler (R144), and no higher block of its launch is resident (R132). -/
def removable (s : State) (b : Block) : Bool :=
  !b.live.isEmpty && !(s.teams.any fun t => b.holds t.key && t.priv)
    && !(s.blocks.any fun x => x.q == b.q && x.seq == b.seq && decide (b.idx < x.idx) && !x.live.isEmpty) && contextFits s b

/-- A team as its context keeps it: an ALLOC is withdrawn, and a wait but a barrier's is over. -/
def saveTeam (t : Team) : Team :=
  let p := match t.park with
    | some (.bar n) => some (.bar n)
    | some (.barx sc n i) => some (.barx sc n i)
    | _ => none
  { t.voidAll with park := p, active := false, loads := [] }

/-! ### The context in the pool (R143, R146) -/

/-- The 4 KiB pages of the pool that a context of `n` bytes takes: the lowest that no saved context holds, by device-local page number
(log entry 69). -/
def poolPages (s : State) (n : Nat) : List Nat :=
  let taken := s.saved.flatMap (·.pages)
  (((List.range (poolSize s / 4096)).map (poolBase s / 4096 + ·)).filter fun p => !taken.contains p).take (ceilDiv n 4096)

/-- The numbers that a team's part of a context holds: its region save store entries with the rest of its checkpoint, its allotment,
sticky status, pending cause, and unwaited batches. -/
def teamCode (t : Team) : List Nat :=
  [t.key.num, t.ckpt.head, t.ckpt.mask.toNat, t.allot, t.status.toNat, t.nextBatch]
    ++ (t.ckpt.regs.flatMap fun r => r.1 :: r.2.map (·.toNat)) ++ t.ckpt.rng.map (·.toNat)
    ++ (t.ckpt.stack.flatMap fun e => [e.saved.toNat, e.other.toNat, e.brk.toNat, e.cnt.toNat, e.target])
    ++ (t.ckpt.fibres.flatMap fun f => [if f.isOpen then 1 else 0, f.coord, f.value.getD 0, f.count, f.elem, f.pos])
    ++ (t.pending.toList.flatMap fun i => [i.cause.code, i.sub, i.lane, i.addr]) ++ t.batches.flatMap fun b => b.num :: b.ops

/-- The numbers that a block's context holds: its teams', its named barriers, its tile-buffer holdings, and its shares. -/
def contextCode (x : SavedBlock) : List Nat :=
  x.teams.flatMap teamCode ++ (x.block.bars.flatMap fun b => [b.m, b.arrivals, b.pend, b.sig.toNat, b.held.getD 0])
    ++ (x.block.units.flatMap fun u => u.1 :: (match u.2 with
      | .held t => [0, t]
      | .offered t => [1, t]
      | .offering t ops => 2 :: t :: ops))
    ++ (x.tile.flatMap fun c => c.flatMap fun e => [e.1, e.2.toNat]) ++ x.acc.flatMap fun c => c.flatMap fun e => [e.1, e.2.toNat]

/-- Whole 4 KiB pages written at their home, in the stacks: no copy of them stays in a cache, no mark in a stack, and a sealed granule
takes none of them. -/
def storePages (s : State) (pages : List Nat) (byte : Nat → Nat → Byte) : State :=
  let pages := pages.filter fun p => (sealAt s (4096 * p)).isNone
  let hit (a : Nat) : Bool := pages.contains (a / 4096)
  let s := backInvalidate ((s.registrants.filter fun e => hit (4 * e.1)).foldl (fun s e => revoke s e.1) s)
    (s.hostLines.filter fun l => hit (128 * l))
  let spots := pages.zipIdx.flatMap fun p => (List.range 128).filterMap fun i => (place s (4096 * p.1 + 32 * i)).map fun n => (n, p.2, i)
  let quit (k : Stack) : Stack := { k with scrubWb := k.scrubWb.map fun w => (w.1, w.2.1 || spots.any (·.1 == w.1), w.2.2) }
  let s := { s with
    dram := spots.foldl (fun m x => (List.range 32).foldl (fun m j => Memory.write m (32 * x.1 + j) (byte x.2.1 (32 * x.2.2 + j))) m) s.dram
    l2 := s.l2.filter fun c => !hit c.1
    l2held := s.l2held.filter fun sec => !hit (32 * sec)
    poison := s.poison.filter fun n => !spots.any (·.1 == n)
    stks := s.stks.map quit }
  (List.range 8).foldl (fun s k => s.countUnits (STK k 0x38) 0 32 (spots.countP fun x => sectorStack x.1 == k)) s

/-- The context of a saved block is written to its pages of the pool. Its form is open: its bytes are free, and depend on what it
holds alone (log entry 69). -/
def writeContext (s : State) (x : SavedBlock) : State :=
  storePages s x.pages fun p i => Config.openContents (p :: contextCode x) i

/-- The contents of a block's share on one core, from its start. -/
def shareTile (s : State) (b : Block) (bc : Nat) : List (Nat × Byte) :=
  let base := 4096 * b.tileBase.getD bc 0
  ((s.core (b.cores.getD bc 0)).tile.filter fun e => decide (base ≤ e.1 ∧ e.1 < base + 4096 * b.tileLen)).map fun e =>
    (e.1 - base, e.2)

def shareAcc (s : State) (b : Block) (bc : Nat) : List (Nat × Word) :=
  let base := 128 * b.accBase.getD bc 0
  ((s.core (b.cores.getD bc 0)).acc.filter fun e => decide (base ≤ e.1 ∧ e.1 < base + 128 * b.accLen)).map fun e =>
    (e.1 - base, e.2)

/-- An ALLOC that waits is withdrawn: its runs go back with its request (R143). -/
def withdrawAlloc (s : State) (t : Team) : State :=
  if t.park = some .alloc then
    let s := s.modCore t.coreNo fun k => { k with allocQ := k.allocQ.filter fun a => a.team != t.key }
    freeAllot s t
  else s

/-- A team that waits in AWAIT stops waiting: it repeats the AWAIT after it is restored (R145). -/
def withdrawAwait (b : Block) (t : Team) : Team :=
  match t.park with
  | some (.batch _) => if b.holds t.key then { t with park := none } else t
  | _ => t

/-- A block is pre-empted (R143). -/
def preempt (s : State) (b : Block) : State :=
  let keys := (s.teams.filter fun t => b.holds t.key).map (·.key)
  let s := { s with teams := s.teams.map (withdrawAwait b) }
  let s := keys.foldl (fun s key =>
    let s := settleTeam s key
    match s.teamOf key with
    | some t => withdrawAlloc s t
    | none => s) s
  match s.blocks.find? fun x => x.q == b.q && x.seq == b.seq && x.idx == b.idx with
  | none => s
  | some b =>
    let teams := (s.teams.filter fun t => b.holds t.key).map saveTeam
    let cs := List.range b.cfg.coresN
    let n := contextSize s b
    let ctx : SavedBlock := ⟨b, teams, cs.map (shareTile s b), cs.map (shareAcc s b), n, poolPages s n⟩
    let s := { writeContext s ctx with
      saved := s.saved ++ [ctx]
      teams := s.teams.filter fun t => !b.holds t.key
      blocks := s.blocks.filter fun x => !(x.q == b.q && x.seq == b.seq && x.idx == b.idx)
      cores := s.cores.map fun k => keys.foldl (fun k key => dropTeam key k) k }
    updateUsed s

/-- Placement of the shares of a restored block. -/
def putShares (s : State) (x : SavedBlock) (cores : List Nat) (seats : List Seat) : State :=
  (cores.zip seats).zipIdx.foldl (fun s (y : (Nat × Seat) × Nat) =>
    let c := y.1.1
    let u := 4096 * y.1.2.unit
    let r := 128 * y.1.2.row
    let s := clearAcc (clearTile s c y.1.2.unit x.block.tileLen) c y.1.2.row x.block.accLen
    let tile := x.tile.getD y.2 []
    let acc := x.acc.getD y.2 []
    s.modCore c fun k =>
      { k with
        tile := tile.foldl (fun m (e : Nat × Byte) => Memory.write m (u + e.1) e.2) k.tile
        acc := acc.foldl (fun m (e : Nat × Word) => put (r + e.1) e.2 m) k.acc }) s

/-- A restored team: at its barrier, or at the head of its region; one that has executed no REGION has its sticky bits clear
(R133, R145); its signatures are those of R192. -/
def restoreTeam (t : Team) (core part slot order : Nat) : Team :=
  let r := t.restart
  let barrier := t.park.isSome
  { r with
    die := core / 16, core := core % 16, part := part, slot := slot, order := order
    pc := (if barrier then t.pc else r.pc), park := t.park, active := false
    status := (if t.ckpt.taken then t.status else 0#32)
    sigW := sigOnes, sigE0 := 0#512, sigE1 := 0#512, sigE2 := 0#512 }

/-- A saved block is restored on its seats. -/
def restoreBlock (s : State) (x : SavedBlock) (cores : List Nat) (seats : List Seat) : State :=
  let s := putShares (cores.foldl freshen s) x cores seats
  let order := nextOrder s
  let teams := x.teams.zipIdx.map fun t =>
    let (core, part, slot) := seatOf cores seats x.block.cfg.coresN t.1.key.num
    restoreTeam t.1 core part slot (order + t.2)
  let units := seats.map Seat.unit
  let rows := seats.map Seat.row
  let past := (x.block.past ++ x.block.cores).dedup
  let b := { x.block with cores := cores, past := past, tileBase := units, accBase := rows, placed := s.placeCount }
  let s := { s with
    saved := s.saved.filter fun y => !(y.block.q == b.q && y.block.seq == b.seq && y.block.idx == b.idx)
    blocks := s.blocks ++ [b], teams := s.teams ++ teams, placeCount := s.placeCount + 1 }
  updateUsed (s.count 0x9018 0 16 1)

/-- Lane-registers that a saved block's teams take with their allotments; a team that has exited takes none. -/
def savedNeed (x : SavedBlock) (num : Nat) : Option Nat :=
  (x.teams.find? fun t => t.key.num == num).map fun t => t.allot * t.tl

/-! ## Placement opportunities (R123) -/

/-- What a launch could place next. -/
inductive Candidate where
  | fresh (l : Launch) (cores : List Nat) (seats : List Seat)
  | kept (x : SavedBlock) (cores : List Nat) (seats : List Seat)

def queueSuspended (s : State) (q : Nat) : Bool := s.field SUSP q 1 == 1

/-- The saved block of a launch with the lowest index. -/
def lowestSaved (s : State) (l : Launch) : Option SavedBlock :=
  (s.saved.filter fun x => x.block.q == l.q && x.block.seq == l.seq).foldl (fun (best : Option SavedBlock) x =>
    match best with
    | some y => if x.block.idx < y.block.idx then some x else best
    | none => some x) none

/-- Entry `blk` of a dependence table is read once, when the block first comes up (R119). -/
def readTable (s : State) (l : Launch) : Launch × State :=
  if l.cfg.map = 5 ∧ (l.tab.map fun t => t.1) ≠ some l.nextBlk then
    let (bs, _, s) := bulkBytes s 0 (l.cfg.tabaddr + 8 * l.nextBlk) 8
    let x := leNat bs
    let l' := { l with tab := some (l.nextBlk, x % 2 ^ 32, x / 2 ^ 32) }
    let mark (y : Launch) : Launch := if y.q = l.q ∧ y.seq = l.seq then l' else y
    (l', { s with launches := s.launches.map mark })
  else (l, s)

/-- The launch's next block has come up for placement (R117). -/
def comesUp (s : State) (l : Launch) : Bool :=
  (lowestSaved s l).isNone && decide (l.nextBlk < l.cfg.blocks) && launchOpen s l

/-- The table entry of the launch's next block, where it needs one, has been read. -/
def tableRead (l : Launch) : Bool := decide (l.cfg.map ≠ 5) || (l.tab.map fun t => t.1) == some l.nextBlk

/-- The launch has a block that is ready: a saved one, or the next one under R117 and R120. -/
def readyNow (s : State) (l : Launch) : Bool :=
  (lowestSaved s l).isSome || (comesUp s l && tableRead l && bitsReady s l l.nextBlk)

/-- The same once the table entry has been read. -/
def launchReady (s : State) (l : Launch) : Bool × State :=
  if comesUp s l then
    let (l, s) := readTable s l
    (readyNow s l, s)
  else (readyNow s l, s)

/-- Where the launch's next block fits. -/
def candidate (s : State) (l : Launch) : Option Candidate :=
  match lowestSaved s l with
  | some x => (bestSet s l.cfg (savedNeed x)).map fun y => .kept x y.1 y.2
  | none => (bestSet s l.cfg (prologueNeed l.cfg)).map fun y => .fresh l y.1 y.2

/-- The first launch of a queue, oldest first, with a ready block and space for it. -/
def queueCandidate (s : State) (q : Nat) : Option Candidate × State :=
  if queueSuspended s q || queueAborting s q then (none, s)
  else (heldBy s q).foldl (fun (acc : Option Candidate × State) l =>
    match acc.1 with
    | some x => (some x, acc.2)
    | none =>
      let (ok, s) := launchReady acc.2 l
      -- a table entry that was read now stands in the launch
      let l := ((s.launches.find? fun x => x.q == l.q && x.seq == l.seq)).getD l
      (if ok then candidate s l else none, s)) (none, s)

/-- Queues in the order in which they are offered an opportunity: priorities from 7 down, round-robin within each. -/
def queueOrder (s : State) : List Nat :=
  (List.range 8).flatMap fun i =>
    let p := 7 - i
    ((List.range 64).map fun j => (s.lastQueue.getD p 63 + 1 + j) % 64).filter fun q => queuePrio s q == p

def nextCandidate (s : State) : Option (Nat × Candidate) × State :=
  (queueOrder s).foldl (fun (acc : Option (Nat × Candidate) × State) q =>
    match acc.1 with
    | some x => (some x, acc.2)
    | none =>
      if (heldBy acc.2 q).isEmpty then (none, acc.2)
      else
        let (c, s) := queueCandidate acc.2 q
        (c.map fun x => (q, x), s)) (none, s)

def Candidate.take (s : State) : Candidate → State
  | .fresh l cores seats => seatBlock s l cores seats
  | .kept x cores seats => restoreBlock s x cores seats

/-- The service states in which the distributor places blocks (R34, R38). -/
def serving (s : State) : Bool := s.svc == 1 || s.svc == 2

/-- Blocks may be placed: new placements wait for a move to full service that is due (R35). -/
def placing (s : State) : Bool := serving s && !moveDue s

/-- The opportunity goes to a queue's candidate. -/
def Candidate.serve (s : State) (q : Nat) (c : Candidate) : State :=
  c.take { s with lastQueue := s.lastQueue.set (queuePrio s q) q }

/-- One placement opportunity. -/
def placeNext (s : State) : State :=
  if placing s then
    match nextCandidate s with
    | (some (q, c), s) => c.serve s q
    | (none, s) => s
  else s

def execBlockPlace (s : State) : Out := withPower s placeNext

/-- A placement opportunity that restores a saved block of a launch: the one that the opportunity chooses (R123, R145). -/
def execBlockRestore (q : BitVec 6) (seq : Word) (s : State) : Out :=
  withPower s fun s =>
    if placing s then
      match nextCandidate s with
      | (some (n, .kept x cores seats), u) =>
        if n = q.toNat ∧ x.block.seq = seq.toNat then (Candidate.kept x cores seats).serve u n else s
      | _ => s
    else s

/-! ## Pre-emption (R142) -/

def sameBlock (a b : Block) : Bool := a.q == b.q && a.seq == b.seq && a.idx == b.idx

/-- The victim below a priority: of the lowest-priority launch with a resident block that may be removed, its highest
block; of launches of one priority, the one placed last. -/
def victimBelow (s : State) (prio : Nat) (own : Option Block) (on : Block → Bool) : Option Block :=
  (s.blocks.filter fun b => decide (queuePrio s b.q < prio) && on b && removable s b
      && !(own.any fun o => sameBlock o b)).foldl
    (fun (best : Option Block) b =>
      match best with
      | some v =>
        let pb := queuePrio s b.q
        let pv := queuePrio s v.q
        if pb < pv ∨ (pb = pv ∧ v.placed < b.placed) then some b else best
      | none => some b) none

/-- The block as though it had been removed. -/
def without (s : State) (b : Block) : State :=
  { s with
    teams := s.teams.filter fun t => !b.holds t.key
    blocks := s.blocks.filter fun x => !sameBlock x b
    cores := s.cores.map fun k => { k with allocQ := k.allocQ.filter fun a => !b.holds a.team } }

/-- Whether removing victims below a priority would let a launch's next block fit. -/
def removalHelps (l : Launch) (prio : Nat) : Nat → State → Bool
  | 0, s => (candidate s l).isSome
  | n + 1, s => (candidate s l).isSome || match victimBelow s prio none (fun _ => true) with
    | some b => removalHelps l prio n (without s b)
    | none => false

/-- A launch with a ready block that fits nowhere, for which removing blocks of lower priority would help. -/
def preemptsFor (s : State) : List (Nat × Launch) :=
  (queueOrder s).flatMap fun q =>
    if queueSuspended s q || queueAborting s q then []
    else ((heldBy s q).filter fun l => readyNow s l && (candidate s l).isNone
      && removalHelps l (queuePrio s q) s.blocks.length s).map fun l => (queuePrio s q, l)

/-- The block to pre-empt for priority now. -/
def preemptVictim (s : State) : Option Block :=
  (preemptsFor s).head?.bind fun x => victimBelow s x.1 none fun _ => true

/-- A priority pre-emption of the block that R142 chooses; another block is not pre-empted. -/
def execBlockPreempt (q : BitVec 6) (seq : Word) (blk : BitVec 20) (s : State) : Out :=
  withPower s fun s =>
    match preemptVictim s with
    | some b =>
      if serving s ∧ b.q = q.toNat ∧ b.seq = seq.toNat ∧ b.idx = blk.toNat then preempt (s.count 0x9018 48 16 1) b else s
    | none => s

/-! ## Completion (R120, R122, R149) -/

/-- A block whose teams have all exited completes: its stores reach their homes from every core that it ran on, its bit is set,
its slot is free. -/
def completeBlock (s : State) (b : Block) : State :=
  let s := (b.past ++ b.cores).foldl drainCore s
  let s := if b.cfg.bmaddr = 0 then s
    else
      let a := b.cfg.bmaddr + b.idx / 8
      let s := revoke s (a / 4)
      (bulkWrite s [(a, homeByte s a ||| (1#8 <<< (b.idx % 8)), fullMask)]).2
  let mark (l : Launch) : Launch := if l.q = b.q ∧ l.seq = b.seq then { l with done := insertNat b.idx l.done } else l
  { s with blocks := s.blocks.filter fun x => !sameBlock x b, launches := s.launches.map mark }

def execBlockComplete (q : BitVec 6) (seq : Word) (blk : BitVec 20) (s : State) : Out :=
  withPower s fun s =>
    match s.blocks.find? fun b => b.q == q.toNat && b.seq == seq.toNat && b.idx == blk.toNat && b.live.isEmpty with
    | some b => completeBlock s b
    | none => s

/-- The oldest launch of a queue whose completion is not written, where it may be written (R115, R122, R147). -/
def completable (s : State) (q : Nat) : Option Launch :=
  match s.launches.find? fun l => l.q == q with
  | some l =>
    if queueAborting s q then none
    else if l.err.isSome then some l
    else if l.complete && !queueSuspended s q then some l
    else none
  | none => none

def completeLaunch (s : State) (q : Nat) (linkError : Bool := false) : State :=
  match completable s q with
  | some l =>
    let s := writeCompletion s l linkError
    { s with launches := s.launches.filter fun x => !(x.q == l.q && x.seq == l.seq) }
  | none => s

def execLaunchComplete (q : CompletionTurn) (s : State) : Out :=
  withPower s fun s => completeLaunch s q.queue.toNat q.linkError

/-! ## ALLOC's queue (R135, R136) -/

def execAllocAdmit (c : BitVec 6) (s : State) : Out := withPower s fun s => admitHead s c.toNat

/-- A block is evicted for the request at the head of a core's queue, after each 32,768 cycles of its wait. -/
def allocEvict (s : State) (c : Nat) : State :=
  match (s.core c).allocQ with
  | a :: rest =>
    match s.teamOf a.team, s.blockOf a.team with
    | some t, some own =>
      let now := (s.die (coreDie c)).issueCycle
      if now < a.since + 32768 then s
      else
        let onPart (b : Block) : Bool := s.teams.any fun x => b.holds x.key && x.coreNo == c && x.part == t.part
        let s := s.modCore c fun k => { k with allocQ := { a with since := now } :: rest }
        match victimBelow s 8 (some own) onPart with
        | some b => preempt (s.count 0x9018 32 16 1) b
        | none => s
    | _, _ => s
  | [] => s

def execAllocEvict (c : BitVec 6) (s : State) : Out := withPower s fun s => allocEvict s c.toNat

/-! ## Context switches (R147, R148) -/

def CSW : Nat := 0x9010

/-- The result of an act of CSW. -/
def cswDone (s : State) (result : Nat) : State := ((s.setField CSW 60 3 result).setField CSW 63 1 0).setField CSW 8 2 0

/-- Blocks of a queue are pre-empted, the later ones first, until one is in a handler or does not fit in the pool. -/
def suspendBlocks (q : Nat) : Nat → State → State
  | 0, s => cswDone s 0
  | n + 1, s =>
    let top := (s.blocks.filter fun b => b.q == q && !b.live.isEmpty).foldl (fun (best : Option Block) b =>
      match best with
      | some v => if v.placed < b.placed then some b else best
      | none => some b) none
    -- the highest block of its launch
    match top.bind fun v => (s.blocks.filter fun b => b.q == q && b.seq == v.seq && !b.live.isEmpty).foldl
        (fun (best : Option Block) b => match best with
          | some w => if w.idx < b.idx then some b else best
          | none => some b) none with
    | none => cswDone s 0
    | some b =>
      if s.teams.any fun t => b.holds t.key && t.priv then s
      else if contextFits s b then suspendBlocks q n (preempt (s.count 0x9018 16 16 1) b)
      else cswDone s 1

/-- A suspension starts, or goes on after it has waited for a handler. -/
def suspendQueue (s : State) (q : Nat) : State :=
  let busy := s.field CSW 63 1 == 1
  if busy && s.field CSW 0 6 != q then s
  else if (heldBy s q).isEmpty then cswDone (s.setField CSW 0 6 q) 2
  else
    let s := ((s.setField CSW 0 6 q).setField CSW 63 1 1).setField SUSP q 1 1
    if poolPlaced s then suspendBlocks q (s.blocks.length + 1) s else cswDone s 1

def resumeQueue (s : State) (q : Nat) : State :=
  if s.field CSW 63 1 = 1 then s
  else
    let s := s.setField CSW 0 6 q
    if !queueSuspended s q then cswDone s (if (heldBy s q).isEmpty then 2 else 3)
    else cswDone (s.setField SUSP q 1 0) 0

def execCswSuspend (q : BitVec 6) (s : State) : Out := withPower s fun s => suspendQueue s q.toNat
def execCswResume (q : BitVec 6) (s : State) : Out := withPower s fun s => resumeQueue s q.toNat

/-! ## Active sets (R138) -/

/-- The queued team of a partition that became unparked first. -/
def queueHead (s : State) (core part : Nat) : Option Nat :=
  (s.teams.zipIdx.foldl (fun (best : Option (Nat × Nat)) x =>
    if x.1.park.isNone && !x.1.active && x.1.coreNo == core && x.1.part == part then
      match best with
      | some (o, _) => if x.1.order < o then some (x.1.order, x.2) else best
      | none => some (x.1.order, x.2)
    else best) none).map (·.2)

/-- The head of a queue enters as soon as its lanes fit; no other queued team enters before it. -/
def mayEnter (s : State) (k : Nat) : Bool :=
  match s.teams[k]? with
  | some t => lanesFit s t && queueHead s t.coreNo t.part == some k
  | none => false

def execTeamEnterActive (k : Nat) (s : State) : Out :=
  withPower s fun s => if mayEnter s k then enterActive s k else s

/-- The active team of a partition that entered first. -/
def longestActive (s : State) (core part : Nat) : Option Nat :=
  (s.teams.zipIdx.foldl (fun (best : Option (Nat × Nat)) x =>
    if x.1.active && x.1.coreNo == core && x.1.part == part then
      match best with
      | some (e, _) => if x.1.entered < e then some (x.1.entered, x.2) else best
      | none => some (x.1.entered, x.2)
    else best) none).map (·.2)

/-- A partition rotates while a team is queued on it. -/
def rotate (s : State) (core part : Nat) : State :=
  match queueHead s core part, longestActive s core part with
  | some h, some k =>
    match s.teams[k]? with
    | some t =>
      if (s.die t.die).issueCycle < t.entered + 4096 || !mayLeave s k t then s
      else
        let o := nextOrder s
        let s := s.setTeam k { t.leaveActive with order := o }
        if mayEnter s h then enterActive s h else s
    | none => s
  | _, _ => s

def execRotation (c : BitVec 6) (part : BitVec 3) (s : State) : Out := withPower s fun s => rotate s c.toNat part.toNat

end Sys2Proof.Machine
end

