-- ==== Sys2Proof/Machine/EvTeam.lean ====
section
/-! DEFINITION. EvTeam: the events of a team's loads, translations, traps and page faults (R211 to R229, R324). -/

namespace Sys2Proof.Machine

/-! ## Loads (R187, R324) -/

/-- Load `j` of a team arrives, after the team's earlier loads of a word that it reads. -/
def loadDataArrive (s : State) (k j : Nat) : State :=
  match s.teams[k]? with
  | none => s
  | some t => match t.loads[j]? with
    | none => s
    | some r =>
      let words (x : LoadReq) : List Nat := x.reads.flatMap fun y => y.2.wordNames
      let mine := words r
      let earlier := (List.range j).filter fun i => match t.loads[i]? with
        | some x => (words x).any fun w => mine.contains w
        | none => false
      let s := earlier.zipIdx.foldl (fun s (x : Nat × Nat) => arriveLoad s k (x.1 - x.2)) s
      arriveLoad s k (j - earlier.length)

def execLoadDataArrive (k j : Nat) (s : State) : Out := withPower s fun s => loadDataArrive s k j

/-! ## Translation (R211, R215, R216) -/

/-- A team that waits for fills and walks wakes (R137). -/
def wakeFill (s : State) (k : Nat) : State :=
  match s.teams[k]? with
  | some t => if t.park = some .fill then unparkKey s t.key else s
  | none => s

/-- A walk for an address of a team ends; poison stains the team, and one that waits for walks wakes. -/
def execWalkComplete (k : Nat) (va : DWord) (s : State) : Out :=
  withPower s fun s => match s.teams[k]? with
    | none => s
    | some t =>
      let (_, p, s) := translate s t.coreNo t.cfg.asid t.cfg.ptroot va.toNat
      wakeFill (stainTeam s k p) k

def TLBINV : Nat := 0x240

/-- Every entry. -/
def tlbinvEvery (s : State) : State := dropTlbs s (fun _ => true) fun _ => true

/-- The entries of one ASID. -/
def tlbinvAsidOf (s : State) (asid : Nat) : State := dropTlbs s (fun e => e.asid == asid) fun e => e.asid == asid

/-- One page of one ASID, by bits [54:16] of an address in it. -/
def tlbinvPageOf (s : State) (asid page : Nat) : State :=
  let va := page * 2 ^ 16
  dropTlbs s (fun e => e.hits asid va) fun e => e.asid == asid && e.prefixVa == va / 2 ^ (13 * e.lvl + 16)

def execTlbinvAll (s : State) : Out := withPower s tlbinvEvery
def execTlbinvAsid (asid : BitVec 12) (s : State) : Out := withPower s fun s => tlbinvAsidOf s asid.toNat
def execTlbinvPage (asid : BitVec 12) (page : BitVec 39) (s : State) : Out :=
  withPower s fun s => tlbinvPageOf s asid.toNat page.toNat

/-! ## Traps (R219, R223) -/

/-- A pending cause is taken at the boundary where the team stands. -/
def takePending (s : State) (k : Nat) : State :=
  match s.teams[k]? with
  | none => s
  | some t => match t.pending with
    | some i => trapAt s k i
    | none => s

/-- A parked team's instruction is not at a boundary where a trap may be taken. -/
def execTrapEntry (k : Nat) (s : State) : Out :=
  withPower s fun s => match s.teams[k]? with
    | some t => if t.park.isNone then takePending s k else s
    | none => s

/-- The report of a store to a sealed granule, or of poison delivered to a register. -/
def execDeferredCauseReport (k : Nat) (isSealed : Bool) (addr : DWord) (s : State) : Out :=
  withPower s fun s =>
    if isSealed then pendCause s k ⟨.sealedC, 0, 0, addr.toNat⟩ else deliverPoisonTo s k addr.toNat 0

/-! ## Demand paging (R227 to R229) -/

def PFQBASE : Nat := 0x260
def PFRESP : Nat := 0x270
def PFNOTE : Nat := 0x278

/-- Teams that wait on a page of an address space. -/
def pageWaiters (s : State) (asid page : Nat) : List Team :=
  s.teams.filter fun t => match t.park with
    | some (.pageFault i _ _ _ _) => t.cfg.asid == asid && faultPage i == page
    | _ => false

/-- The 32 bytes of a fault record of a team (R228). -/
def faultRecord (t : Team) (page access lvl idx waiting : Nat) : List Byte :=
  leBytes 8 (page * 65536) ++ leBytes 2 (t.cfg.asid % 4096) ++ leBytes 1 (access % 4) ++ leBytes 1 (t.key.q % 64)
    ++ leBytes 4 t.key.seq ++ leBytes 2 (idx % 1024) ++ leBytes 2 waiting ++ leBytes 1 lvl ++ leBytes 11 0

/-- Of the teams that wait, the one that faulted first, with its access and table level. -/
def firstFaulting (ts : List Team) : Option (Team × Nat × Nat) :=
  (ts.foldl (fun (best : Option (Nat × Team × Nat × Nat)) t => match t.park with
    | some (.pageFault _ access lvl n _) => match best with
      | some (m, _) => if n < m then some (n, t, access, lvl) else best
      | none => some (n, t, access, lvl)
    | _ => best) none).map (·.2)

/-- Every team that waits on a page of an address space waits on a record. -/
def joinRecord (s : State) (asid page idx : Nat) : State :=
  let join (t : Team) : Team := match t.park with
    | some (.pageFault i a l n none) =>
      if t.cfg.asid = asid ∧ faultPage i = page then { t with park := some (.pageFault i a l n (some idx)) } else t
    | _ => t
  { s with teams := s.teams.map join }

/-- The ring has room. -/
def ringHasRoom (s : State) : Bool := decide ((s.field PFQPTR 0 10 + 1) % 1024 ≠ s.field PFQPTR 32 10)

/-- The teams that wait on a parked team's page join its open record, or a record is written for them when the ring has room. -/
def writeFaultRecord (s : State) (k : Nat) : State :=
  match s.teams[k]? with
  | none => s
  | some t => match t.park with
    | some (.pageFault i _ _ _ none) =>
      let page := faultPage i
      match openRecord s t.cfg.asid page with
      | some idx => joinRecord s t.cfg.asid page idx
      | none =>
        if ringHasRoom s then
          let tail := s.field PFQPTR 0 10
          let waiting := pageWaiters s t.cfg.asid page
          let bs := match firstFaulting waiting with
            | some (u, access, lvl) => faultRecord u page access lvl tail waiting.length
            | none => []
          let s := (bulkWrite s (bytesWrite (s.field PFQBASE 16 23 * 65536 + 32 * tail) bs)).2
          let open' := s.pfOpen ++ [PfRec.mk tail t.cfg.asid page]
          let s := { s with pfOpen := open' }
          let s := (joinRecord s t.cfg.asid page tail).setField PFQPTR 0 10 (tail + 1)
          if s.field PFNOTE 63 1 = 1 then
            s.emitHost (.hostWrite (s.field PFNOTE 0 63) (BitVec.ofNat 64 (s.field PFQPTR 0 10)))
          else s
        else s
    | _ => s

def execPfRecordWrite (k : Nat) (s : State) : Out := withPower s fun s => writeFaultRecord s k

/-- Places and faults of the teams that wait on a record. -/
def recordWaiters (s : State) (idx : Nat) : List (TeamKey × TrapInfo) :=
  s.teams.filterMap fun t => match t.park with
    | some (.pageFault i _ _ _ (some r)) => if r = idx then some (t.key, i) else none
    | _ => none

/-- A waiting team takes its own fault, with its own pc. -/
def deliverFault (s : State) (x : TeamKey × TrapInfo) : State :=
  let s := unparkKey s x.1
  match s.teams.findIdx? fun t => t.key == x.1 with
  | some k => trapAt s k x.2
  | none => s

def closeRecord (s : State) (idx : Nat) : State := { s with pfOpen := s.pfOpen.filter fun r => r.idx != idx }

def recordOpen (s : State) (idx : Nat) : Bool := s.pfOpen.any fun r => r.idx == idx

/-- Retry: every waiting team restarts at its region head, and the record is closed. -/
def retryRecord (s : State) (idx : Nat) : State :=
  if recordOpen s idx then
    closeRecord ((recordWaiters s idx).foldl (fun s (x : TeamKey × TrapInfo) =>
      (unparkKey s x.1).modKey x.1 Team.restart) s) idx
  else s

/-- Deliver: every waiting team takes its PFAULT, and the record is closed. -/
def deliverRecord (s : State) (idx : Nat) : State :=
  if recordOpen s idx then closeRecord ((recordWaiters s idx).foldl deliverFault s) idx else s

/-- EN is cleared: every waiting team takes its PFAULT. -/
def disablePaging (s : State) : State :=
  let waiting := s.teams.filterMap fun t => match t.park with
    | some (.pageFault i _ _ _ _) => some (t.key, i)
    | _ => none
  { (waiting.foldl deliverFault (s.setField PFQPTR 63 1 0)) with pfOpen := [] }

def execPfrespRetry (idx : BitVec 10) (s : State) : Out := withPower s fun s => retryRecord s idx.toNat
def execPfrespDeliver (idx : BitVec 10) (s : State) : Out := withPower s fun s => deliverRecord s idx.toNat
def execPfDisable (s : State) : Out := withPower s disablePaging

end Sys2Proof.Machine
end

