-- ==== Sys2Proof/Machine/EvCoherence.lean ====
section
/-! DEFINITION. EvCoherence: the events of the caches and of the Brim epochs (R183, R184, R192, R197, R206). Words are named
by physical address ÷ 4, lines by physical address ÷ 128. -/

namespace Sys2Proof.Machine

/-! ## Registration (R183, R191) -/

/-- The home receives a core's registration of a device-local word that the core holds dirty. -/
def execRegistration (c : BitVec 6) (word : BitVec 56) (s : State) : Out :=
  withPower s fun s =>
    let c := c.toNat
    let w := word.toNat
    match l1Word s c w with
    | some x =>
      if !isLocalWord w || !x.pend then s
      else if x.sync then registerBlock s c w
      else
        let s := match look w s.registrants with
          | some r => if r = c then s else revoke s w
          | none => s
        registerPair s c w
    | none => s

/-- A registrant receives the revocation of a word. -/
def execRevocation (c : BitVec 6) (word : BitVec 56) (s : State) : Out :=
  withPower s fun s => if look word.toNat s.registrants = some c.toNat then revoke s word.toNat else s

/-- An L1 evicts a word. -/
def execL1Eviction (c : BitVec 6) (word : BitVec 56) (s : State) : Out :=
  withPower s fun s => evict s c.toNat word.toNat

/-! ## Reads at the home (R184) -/

/-- A core's read of a span of a device-local line, served where its caches do not hold it. -/
def execHomeRead (c : BitVec 6) (line : BitVec 51) (start count : BitVec 5) (s : State) : Out :=
  withPower s fun s =>
    let n := min (count.toNat + 1) (32 - start.toNat)
    if isLocalWord (32 * line.toNat) then (readSpan s c.toNat line.toNat start.toNat n).2 else s

/-- Core `r` answers a forwarded read of core `c` with its value, which the reader's caches then hold. -/
def execForwardedRead (c r : BitVec 6) (word : BitVec 56) (s : State) : Out :=
  withPower s fun s =>
    let w := word.toNat
    if look w s.registrants = some r.toNat && r != c && (l1Word s c.toNat w).isNone && isLocalWord w then
      match l1Word s r.toNat w with
      | some x => if x.sync then s else (fillWord (requestWords s c.toNat [w]) c.toNat w).2.2
      | none => s
    else s

/-! ## Versions (R206) -/

/-- A hit on an unchecked entry queries its home. -/
def execVersionQuery (d : BitVec 2) (dev : BitVec 10) (granule : BitVec 23) (s : State) : Out :=
  withPower s fun s =>
    match (s.die d.toNat).versions.find? fun e => e.dev == dev.toNat && e.granule == granule.toNat && !e.checked with
    | some e => queryVersion s d.toNat e.dev e.granule e.ver
    | none => s

/-! ## Brim epochs (R192, R197) -/

/-- A team's signatures at a boundary. -/
def Team.shiftEpoch (t : Team) : Team := { t with sigE2 := t.sigE1, sigE1 := t.sigE0, sigE0 := 0#512 }

/-- LATER of R197. -/
def laterStamp (a b : BitVec 48) : Bool := decide (1 ≤ (a - b).toNat ∧ (a - b).toNat < 2 ^ 47)

/-- The largest Lamport clock of the device. -/
def largestClock (s : State) : BitVec 48 :=
  match s.cores with
  | [] => 0#48
  | k :: ks => ks.foldl (fun (m : BitVec 48) x => if laterStamp x.clock m then x.clock else m) k.clock

/-- Words of a core's L1 that a sweep keeps: dirty or registered there. -/
def keptL1 (e : Nat × L1Word) : Bool := e.2.dirty || e.2.reg

/-- A sweep of a die: its L1s and its Canopy drop their clean unregistered words, host memory excepted. -/
def sweepDie (s : State) (d : Nat) : State :=
  let cores := (List.range 16).map (16 * d + ·)
  let lost := (cores.map fun c => ((s.core c).l1.filter fun e => !keptL1 e).length).sum
    + ((s.die d).canopy.filter fun e => !e.2.host && !e.2.dirty).length
  let s := cores.foldl (fun s c => s.modCore c fun k => { k with l1 := k.l1.filter keptL1 }) s
  let s := s.modDie d fun k => { k with sweepDue := false, canopy := k.canopy.filter fun e => e.2.host || e.2.dirty }
  s.countUnits (CNT d DieCnt.sweeps.index) 0 64 lost

/-- The sweep that a die owes since the last boundary. -/
def dueSweep (s : State) (d : Nat) : State := if (s.die d).sweepDue then sweepDie s d else s

def execBrimSweep (d : BitVec 2) (s : State) : Out := withPower s fun s => dueSweep s d.toNat

/-- A boundary: no sweep is still owed from the one before; every die then owes one. -/
def epochBoundary (s : State) : State :=
  let s := (List.range 4).foldl dueSweep s
  let m := largestClock s
  let raise (k : Core) : Core := { k with clock := m }
  let owe (x : Die) : Die := { x with sweepDue := true }
  { s with teams := s.teams.map Team.shiftEpoch, cores := s.cores.map raise, dies := s.dies.map owe }

def execBrimEpochBoundary (s : State) : Out := withPower s epochBoundary

end Sys2Proof.Machine
end

