-- ==== Sys2Proof/Machine/EvAsync.lean ====
section
/-! DEFINITION. EvAsync: the events of asynchronous work (R176, R178, R203, R341, R358, R380), and writes and reads of the
module registers (R6, R8, R102 and the registers' own rules). -/

namespace Sys2Proof.Machine

/-! ## Asynchronous work -/

def execCopyUnitComplete (op unit : Nat) (s : State) : Out := withPower s fun s => unitComplete s op unit
def execAsyncOpComplete (op : Nat) (s : State) : Out := withPower s fun s => copyComplete s op
def execMatrixExecute (c : BitVec 6) (s : State) : Out := withPower s fun s => matrixStep s c.toNat
def execMrdWriteback (c : BitVec 6) (s : State) : Out := withPower s fun s => mrdWrite s c.toNat
def execActldFlip (op : Nat) (s : State) : Out := withPower s fun s => flipTable s op

/-- The offers of a team's block that wait for nothing more take effect. -/
def execTsOfferEffect (k : Nat) (s : State) : Out :=
  withPower s fun s => match s.teams[k]? with
    | some t => offerEffect s t.key
    | none => s

/-! ## Register writes (R6, R8) -/

/-- Fields of a write go to a register: (low bit, width), all of them RW. -/
def writeFields (s : State) (off v : Nat) (fs : List (Nat × Nat)) : State :=
  fs.foldl (fun s (f : Nat × Nat) => s.setField off f.1 f.2 (fieldOf v f.1 f.2)) s

/-- A field that takes only the values of a test (R8). -/
def writeChecked (s : State) (off v lo w : Nat) (ok : Nat → Bool) : State :=
  if ok (fieldOf v lo w) then s.setField off lo w (fieldOf v lo w) else s

/-- MODCTL: a dump, then a reset (R17). -/
def writeModctl (s : State) (v : Nat) : State :=
  let s := s.setField MODCTL 1 1 (fieldOf v 1 1)
  let s := if fieldOf v 2 1 = 1 then enterFatal s 6 else s
  if fieldOf v 0 1 = 1 then warmReset s (fieldOf v 1 1 == 1) else s

def writeLantstat (s : State) (v : Nat) : State :=
  let s := if fieldOf v 3 1 = 1 then lanternOvwrClear s else s
  if fieldOf v 0 1 = 1 then lanternAck s else s

def writeLlen (s : State) (v : Nat) : State :=
  (List.range 24).foldl (fun s p => setPortEnable s p (fieldOf v p 1 == 1)) s

def writeVtinv (s : State) (v : Nat) : State :=
  let s := writeFields s VTINV v [(0, 11), (12, 1)]
  if fieldOf v 16 1 = 0 then s
  else if fieldOf v 12 1 = 1 then dropViews s fun _ => true
  else dropViews s fun e => e.view == fieldOf v 0 11

def TFCLR : Nat := 0x210

def writeTfclr (s : State) (v : Nat) : State :=
  let s := writeFields s TFCLR v [(1, 1), (16, 23)]
  if fieldOf v 0 1 = 0 then s
  else if fieldOf v 1 1 = 1 then clearFrames s
  else clearFrame s (fieldOf v 16 23)

/-- TLBINV; a KIND of 3 is reserved, and the field keeps its value. -/
def writeTlbinv (s : State) (v : Nat) : State :=
  let s := writeChecked (writeFields s TLBINV v [(0, 39), (40, 12)]) TLBINV v 60 2 (· != 3)
  if fieldOf v 62 1 = 0 then s
  else match s.field TLBINV 60 2 with
    | 0 => tlbinvEvery s
    | 1 => tlbinvAsidOf s (fieldOf v 40 12)
    | _ => tlbinvPageOf s (fieldOf v 40 12) (fieldOf v 0 39)

def writePfqptr (s : State) (v : Nat) : State :=
  let s := writeFields s PFQPTR v [(32, 10)]
  if fieldOf v 63 1 = 1 then s.setField PFQPTR 63 1 1
  else if s.field PFQPTR 63 1 = 1 then disablePaging s
  else s

def writePfresp (s : State) (v : Nat) : State :=
  let s := writeFields s PFRESP v [(0, 10), (62, 1)]
  if fieldOf v 63 1 = 0 then s
  else if fieldOf v 62 1 = 1 then deliverRecord s (fieldOf v 0 10)
  else retryRecord s (fieldOf v 0 10)

/-- A write of PEAK sets the peak of the channel that CHSEL names, a two's complement number (R58). -/
def writeRefstat (s : State) (n v : Nat) : State :=
  let ch := s.field (STK n 0) 17 5
  let p := fieldOf v 8 5
  let x : Int := if p < 16 then p else (p : Int) - 32
  let k := s.stk n
  writeFields (s.setStk n { k with peak := k.peak.set ch x }) (REFSTAT n) v [(48, 16)]

/-- The registers of a stack, by offset in its block (R54 to R64). -/
def writeStk (s : State) (n r v : Nat) : State :=
  match r with
  | 0x00 => writeChecked (writeFields s (STK n 0) v [(16, 1), (17, 5)]) (STK n 0) v 0 16 fun x => decide (100 ≤ x)
  | 0x08 => writeRefstat s n v
  | 0x10 => writeBist s n v
  | 0x20 => writeChecked (writeFields s (STK n 0x20) v [(16, 1)]) (STK n 0x20) v 0 16 (· != 0)
  | 0x28 => writeFields s (STK n r) v [(0, 64)]
  | 0x30 => writeFields s (STK n r) v [(0, 64)]
  | 0x38 => writeFields s (STK n r) v [(0, 64)]
  | 0x40 => writeFields s (STK n r) v [(0, 64)]
  | 0x48 => writeFields s (STK n r) v [(0, 64)]
  | _ => s

/-- A shape record's configuration (R53). -/
def writeShcfg (s : State) (off v : Nat) : State :=
  let s := writeFields s off v [(0, 1), (8, 3), (48, 16)]
  let s := writeChecked s off v 1 5 fun x => decide (7 ≤ x)
  writeChecked s off v 16 6 fun x => decide (x ≤ 20) && x != 15

/-- QCTL: the enable, the privilege, the priority, and an abort (R106, R125). -/
def writeQctl (s : State) (q v : Nat) : State :=
  let s := writeFields s (QCTL q) v [(0, 1), (8, 3), (14, 1)]
  if fieldOf v 15 1 = 1 then startAbort s q else s

/-- The registers of a queue, by offset in its block (R106). -/
def writeQueue (s : State) (q r v : Nat) : State :=
  match r with
  | 0x00 => if queueEnabled s q then s else writeChecked s (QBASE q) v 16 23 fun x => x / 2 ^ 21 == 0
  | 0x08 => writeQctl s q v
  | 0x10 => if queueEnabled s q then s else writeFields s (QSEQ q) v [(0, 32)]
  | _ => writeFields s (QSTAT q) v [(48, 16)]

/-- The scheduler's registers (R148). -/
def writeSched (s : State) (off v : Nat) : State :=
  let free := s.field CTXSIZE 32 24 == 0
  match off with
  | 0x9000 => if free then writeFields s off v [(16, 23)] else s
  | 0x9008 => if free then writeFields s off v [(0, 24)] else s
  | 0x9010 =>
    if s.field CSW 63 1 = 1 then s
    else
      let s := writeFields s off v [(0, 6)]
      if fieldOf v 8 2 = 1 then suspendQueue s (fieldOf v 0 6)
      else if fieldOf v 8 2 = 2 then resumeQueue s (fieldOf v 0 6)
      else s
  | 0x9018 => writeFields s off v [(0, 64)]
  | _ => s

/-- The MSI-X table, in doublewords: message address, then data and vector control (R102, R104). -/
def writeMsix (s : State) (off v : Nat) : State :=
  let e := (off - 0xF0000) / 16
  match s.msix[e]? with
  | none => s
  | some x =>
    if off % 16 = 0 then { s with msix := s.msix.set e { x with addr := BitVec.ofNat 64 v } }
    else
      let masked := fieldOf v 32 1 == 1
      let y : MsixVec := { x with data := BitVec.ofNat 32 v, masked := masked || x.masked }
      let s := { s with msix := s.msix.set e y }
      if masked then s else unmaskMsix s e

/-- A 64-bit write of a module register, by offset; what no register lies at is reserved. -/
def writeReg (s : State) (off v : Nat) : State :=
  let full := writeFields s off v [(0, 64)]
  let within (lo hi : Nat) : Bool := decide (lo ≤ off) && decide (off < hi)
  if off % 8 ≠ 0 then s
  else if off = MODCTL then writeModctl s v
  else if off = INCARN then writeIncarn (writeFields s off v [(32, 16)]) (v % 2 ^ 16)
  else if off = DEVNUM then writeDevnum s (v % 2 ^ 10)
  else if off = ERRCNT0 || off = ERRCNT1 then full
  else if off = LANTSTAT then writeLantstat s v
  else if off = LLEN then writeLlen s v
  else if within 0x100 0x1C0 then writeFields s off v [(16, 48)]
  else if off = VTINV then writeVtinv s v
  else if off = TFCLR then writeTfclr s v
  else if within 0x220 0x240 then full
  else if off = TLBINV then writeTlbinv s v
  else if off = TRAPCNT then full
  else if off = PFQBASE then (if s.field PFQPTR 63 1 = 1 then s else writeFields s off v [(16, 23)])
  else if off = PFQPTR then writePfqptr s v
  else if off = PFRESP then writePfresp s v
  else if off = PFNOTE then full
  else if within 0x280 0x2A0 then full
  else if within 0x400 0x800 then (if off % 0x100 / 8 < 14 then full else s)
  else if within 0x800 0x900 then
    if off % 0x40 = 0 then
      let s := writeFields s off v [(16, 6)]
      if fieldOf v 0 1 = 1 then elogClear s ((off - 0x800) / 0x40) else s
    else s
  else if within 0x1000 0x1400 then writeStk s ((off - 0x1000) / 0x80) (off % 0x80) v
  else if within 0x1800 0x1C00 then
    if off % 0x10 = 0 then writeFields s off v [(21, 16)] else writeShcfg s off v
  else if within 0x4000 0x8000 then full
  else if within 0x8000 0x8800 then writeQueue s ((off - 0x8000) / 0x20) (off % 0x20) v
  else if off = LERR then (if fieldOf v 63 1 = 1 then s.setField LERR 63 1 0 else s)
  else if off = LCNT then full
  else if within 0x9000 0x9028 then writeSched s off v
  else if within 0xF0000 0xF0410 then writeMsix s off v
  else s

def execRegisterWrite (off : BitVec 20) (v : DWord) (s : State) : Out :=
  withPower s fun s => writeReg s off.toNat v.toNat

/-! ## Register reads (R6) -/

/-- STATE of a queue (R106). -/
def queueState (s : State) (q : Nat) : Nat :=
  if queueAborting s q then 3
  else if 0 < (heldBy s q).length then 2
  else if queueEnabled s q then 1
  else 0

/-- A doubleword of the MSI-X table: message address, or data and vector control. -/
def readMsix (s : State) (off : Nat) : Nat :=
  match s.msix[(off - 0xF0000) / 16]? with
  | some x => if off % 16 = 0 then x.addr.toNat else x.data.toNat + (if x.masked then 2 ^ 32 else 0)
  | none => 0

/-- A doubleword of the pending-bit array. -/
def readPending (s : State) (i : Nat) : Nat :=
  (List.range 64).foldl (fun v b => if (s.msix[64 * i + b]?).any (·.pending) then v + 2 ^ b else v) 0

/-- Die and quarter of an offset of ELOGD0 to ELOGD3. -/
def elogSlot (off : Nat) : Option (Nat × Nat) :=
  if 0x800 ≤ off ∧ off < 0x900 ∧ off % 8 = 0 ∧ 8 ≤ off % 0x40 ∧ off % 0x40 ≤ 0x20 then
    some ((off - 0x800) / 0x40, off % 0x40 / 8 - 1)
  else none

/-- What a read of a module register returns: the fields that the device derives from its state are filled in. -/
def readReg (s : State) (off : Nat) : Nat :=
  let v := (s.mreg off).toNat
  if 0x8000 ≤ off ∧ off < 0x8800 ∧ off % 0x20 = 0x18 then
    let q := (off - 0x8000) / 0x20
    let held := heldBy s q
    let next := (held.head?.map (·.nextBlk)).getD 0
    withField (withField (withField v 0 2 (queueState s q)) 2 2 held.length) 8 20 next
  else if 0x1000 ≤ off ∧ off < 0x1400 ∧ off % 0x80 = 8 then
    let n := (off - 0x1000) / 0x80
    let ch := s.field (STK n 0) 17 5
    let bits (x : Int) : Nat := intBits 5 x
    withField (withField v 0 5 (bits ((s.stk n).debt.getD ch 0))) 8 5 (bits ((s.stk n).peak.getD ch 0))
  else if 0xF0000 ≤ off ∧ off < 0xF0410 then readMsix s off
  else if off = 0xF8000 ∨ off = 0xF8008 then readPending s ((off - 0xF8000) / 8)
  else match elogSlot off with
    | some (d, k) => elogData s d k
    | none => v

/-- The host reads a register of BAR0; an entry of an error log then counts as read (R21, R102). -/
def hostReadReg (s : State) (off : Nat) : State :=
  let s := s.emitHost (.regData (BitVec.ofNat 64 (readReg s off)))
  match elogSlot off with
  | some (d, _) => elogMarkRead s d
  | none => s

end Sys2Proof.Machine
end

