-- ==== Sys2Proof/Machine/Dispatch.lean ====
section
/-! DEFINITION. Dispatch: which meaning each row of the table has. -/

namespace Sys2Proof.Machine

def exec (i : Instr) (s : State) : Host.Outcome State Fault Refusal :=
  match i with
  | .nop p => Sys2Proof.Machine.execNop p s
  | .mov p d a => Sys2Proof.Machine.execMov p d a s
  | .movi p d v => Sys2Proof.Machine.execMovi p d v s
  | .movhi p d v => Sys2Proof.Machine.execMovhi p d v s
  | .iadd p d a b => Sys2Proof.Machine.execIadd p d a b s
  | .isub p d a b => Sys2Proof.Machine.execIsub p d a b s
  | .iaddi p d v => Sys2Proof.Machine.execIaddi p d v s
  | .imul p d a b => Sys2Proof.Machine.execImul p d a b s
  | .imulhi p d a b => Sys2Proof.Machine.execImulhi p d a b s
  | .umulhi p d a b => Sys2Proof.Machine.execUmulhi p d a b s
  | .imad p d a b => Sys2Proof.Machine.execImad p d a b s
  | .iadd64 p d a b => Sys2Proof.Machine.execIadd64 p d a b s
  | .imin p d a b => Sys2Proof.Machine.execImin p d a b s
  | .imax p d a b => Sys2Proof.Machine.execImax p d a b s
  | .umin p d a b => Sys2Proof.Machine.execUmin p d a b s
  | .umax p d a b => Sys2Proof.Machine.execUmax p d a b s
  | .and p d a b => Sys2Proof.Machine.execAnd p d a b s
  | .or p d a b => Sys2Proof.Machine.execOr p d a b s
  | .xor p d a b => Sys2Proof.Machine.execXor p d a b s
  | .andn p d a b => Sys2Proof.Machine.execAndn p d a b s
  | .shl p d a b => Sys2Proof.Machine.execShl p d a b s
  | .shr p d a b => Sys2Proof.Machine.execShr p d a b s
  | .sar p d a b => Sys2Proof.Machine.execSar p d a b s
  | .rotl p d a b => Sys2Proof.Machine.execRotl p d a b s
  | .bfx p d a b => Sys2Proof.Machine.execBfx p d a b s
  | .bfxs p d a b => Sys2Proof.Machine.execBfxs p d a b s
  | .bfi p d a b => Sys2Proof.Machine.execBfi p d a b s
  | .sel p d a b => Sys2Proof.Machine.execSel p d a b s
  | .popc p d a => Sys2Proof.Machine.execPopc p d a s
  | .clz p d a => Sys2Proof.Machine.execClz p d a s
  | .brev p d a => Sys2Proof.Machine.execBrev p d a s
  | .prmt p d a b => Sys2Proof.Machine.execPrmt p d a b s
  | .iseteq p d a b => Sys2Proof.Machine.execIseteq p d a b s
  | .isetne p d a b => Sys2Proof.Machine.execIsetne p d a b s
  | .isetlt p d a b => Sys2Proof.Machine.execIsetlt p d a b s
  | .isetle p d a b => Sys2Proof.Machine.execIsetle p d a b s
  | .usetlt p d a b => Sys2Proof.Machine.execUsetlt p d a b s
  | .usetle p d a b => Sys2Proof.Machine.execUsetle p d a b s
  | .fseteq p d a b => Sys2Proof.Machine.execFseteq p d a b s
  | .fsetne p d a b => Sys2Proof.Machine.execFsetne p d a b s
  | .fsetlt p d a b => Sys2Proof.Machine.execFsetlt p d a b s
  | .fsetle p d a b => Sys2Proof.Machine.execFsetle p d a b s
  | .fsetun p d a b => Sys2Proof.Machine.execFsetun p d a b s
  | .fadd p d a b => Sys2Proof.Machine.execFadd p d a b s
  | .fsub p d a b => Sys2Proof.Machine.execFsub p d a b s
  | .fmul p d a b => Sys2Proof.Machine.execFmul p d a b s
  | .ffma p d a b => Sys2Proof.Machine.execFfma p d a b s
  | .fmin p d a b => Sys2Proof.Machine.execFmin p d a b s
  | .fmax p d a b => Sys2Proof.Machine.execFmax p d a b s
  | .fabs p d a => Sys2Proof.Machine.execFabs p d a s
  | .fneg p d a => Sys2Proof.Machine.execFneg p d a s
  | .hadd2 p d a b => Sys2Proof.Machine.execHadd2 p d a b s
  | .hmul2 p d a b => Sys2Proof.Machine.execHmul2 p d a b s
  | .hfma2 p d a b => Sys2Proof.Machine.execHfma2 p d a b s
  | .bfma2 p d a b => Sys2Proof.Machine.execBfma2 p d a b s
  | .fdot2 p d a b => Sys2Proof.Machine.execFdot2 p d a b s
  | .fscale p d a b => Sys2Proof.Machine.execFscale p d a b s
  | .fclass p d a => Sys2Proof.Machine.execFclass p d a s
  | .cvt p d a x => Sys2Proof.Machine.execCvt p d a x s
  | .sfu p d a f => Sys2Proof.Machine.execSfu p d a f s
  | .dadd p d a b => Sys2Proof.Machine.execDadd p d a b s
  | .dmul p d a b => Sys2Proof.Machine.execDmul p d a b s
  | .dfma p d a b => Sys2Proof.Machine.execDfma p d a b s
  | .dmin p d a b => Sys2Proof.Machine.execDmin p d a b s
  | .dmax p d a b => Sys2Proof.Machine.execDmax p d a b s
  | .dsetlt p d a b => Sys2Proof.Machine.execDsetlt p d a b s
  | .dseteq p d a b => Sys2Proof.Machine.execDseteq p d a b s
  | .rng p d => Sys2Proof.Machine.execRng p d s
  | .actv p d a b => Sys2Proof.Machine.execActv p d a b s
  | .shfl p d a b => Sys2Proof.Machine.execShfl p d a b s
  | .shflx p d a b => Sys2Proof.Machine.execShflx p d a b s
  | .shflu p d a b => Sys2Proof.Machine.execShflu p d a b s
  | .shfld p d a b => Sys2Proof.Machine.execShfld p d a b s
  | .ballot p d a => Sys2Proof.Machine.execBallot p d a s
  | .redadd p d a => Sys2Proof.Machine.execRedadd p d a s
  | .redfadd p d a => Sys2Proof.Machine.execRedfadd p d a s
  | .redmax p d a => Sys2Proof.Machine.execRedmax p d a s
  | .redmin p d a => Sys2Proof.Machine.execRedmin p d a s
  | .scanadd p d a => Sys2Proof.Machine.execScanadd p d a s
  | .bxch p d a b => Sys2Proof.Machine.execBxch p d a b s
  | .frdc p d n => Sys2Proof.Machine.execFrdc p d n s
  | .frdv p d n => Sys2Proof.Machine.execFrdv p d n s
  | .ldb p d a o => Sys2Proof.Machine.execLdb p d a o s
  | .ldbs p d a o => Sys2Proof.Machine.execLdbs p d a o s
  | .ldh p d a o => Sys2Proof.Machine.execLdh p d a o s
  | .ldhs p d a o => Sys2Proof.Machine.execLdhs p d a o s
  | .ldw p d a o => Sys2Proof.Machine.execLdw p d a o s
  | .ldd p d a o => Sys2Proof.Machine.execLdd p d a o s
  | .ldq p d a o => Sys2Proof.Machine.execLdq p d a o s
  | .stb p d a o => Sys2Proof.Machine.execStb p d a o s
  | .sth p d a o => Sys2Proof.Machine.execSth p d a o s
  | .stw p d a o => Sys2Proof.Machine.execStw p d a o s
  | .std p d a o => Sys2Proof.Machine.execStd p d a o s
  | .stq p d a o => Sys2Proof.Machine.execStq p d a o s
  | .stbm p d a o => Sys2Proof.Machine.execStbm p d a o s
  | .ldt p d a m o => Sys2Proof.Machine.execLdt p d a m o s
  | .stt p d a m o => Sys2Proof.Machine.execStt p d a m o s
  | .ldtq p d a m o => Sys2Proof.Machine.execLdtq p d a m o s
  | .sttq p d a m o => Sys2Proof.Machine.execSttq p d a m o s
  | .ldx p d a o b64 ord sc => Sys2Proof.Machine.execLdx p d a o b64 ord sc s
  | .stx p d a o b64 ord sc => Sys2Proof.Machine.execStx p d a o b64 ord sc s
  | .atom p d a b x => Sys2Proof.Machine.execAtom p d a b x s
  | .atomt p d a b x => Sys2Proof.Machine.execAtomt p d a b x s
  | .unop r => Sys2Proof.Machine.execUnop r s
  | .umov r d a => Sys2Proof.Machine.execUmov r d a s
  | .umovi r d v => Sys2Proof.Machine.execUmovi r d v s
  | .umovhi r d v => Sys2Proof.Machine.execUmovhi r d v s
  | .uiadd r d a b => Sys2Proof.Machine.execUiadd r d a b s
  | .uisub r d a b => Sys2Proof.Machine.execUisub r d a b s
  | .uiaddi r d v => Sys2Proof.Machine.execUiaddi r d v s
  | .uimul r d a b => Sys2Proof.Machine.execUimul r d a b s
  | .uimad r d a b => Sys2Proof.Machine.execUimad r d a b s
  | .uiadd64 r d a b => Sys2Proof.Machine.execUiadd64 r d a b s
  | .uminUni r d a b => Sys2Proof.Machine.execUminUni r d a b s
  | .umaxUni r d a b => Sys2Proof.Machine.execUmaxUni r d a b s
  | .uand r d a b => Sys2Proof.Machine.execUand r d a b s
  | .uor r d a b => Sys2Proof.Machine.execUor r d a b s
  | .uxor r d a b => Sys2Proof.Machine.execUxor r d a b s
  | .ushl r d a b => Sys2Proof.Machine.execUshl r d a b s
  | .ushr r d a b => Sys2Proof.Machine.execUshr r d a b s
  | .usar r d a b => Sys2Proof.Machine.execUsar r d a b s
  | .ubfx r d a b => Sys2Proof.Machine.execUbfx r d a b s
  | .ubfi r d a b => Sys2Proof.Machine.execUbfi r d a b s
  | .upopc r d a => Sys2Proof.Machine.execUpopc r d a s
  | .uclz r d a => Sys2Proof.Machine.execUclz r d a s
  | .usel r d a b => Sys2Proof.Machine.execUsel r d a b s
  | .uiseteq r d a b => Sys2Proof.Machine.execUiseteq r d a b s
  | .uisetne r d a b => Sys2Proof.Machine.execUisetne r d a b s
  | .uisetlt r d a b => Sys2Proof.Machine.execUisetlt r d a b s
  | .uisetle r d a b => Sys2Proof.Machine.execUisetle r d a b s
  | .uusetlt r d a b => Sys2Proof.Machine.execUusetlt r d a b s
  | .uusetle r d a b => Sys2Proof.Machine.execUusetle r d a b s
  | .jmp o => Sys2Proof.Machine.execJmp o s
  | .call o => Sys2Proof.Machine.execCall o s
  | .ret => Sys2Proof.Machine.execRet s
  | .jmpr a => Sys2Proof.Machine.execJmpr a s
  | .ubrz r o => Sys2Proof.Machine.execUbrz r o s
  | .ubrnz r o => Sys2Proof.Machine.execUbrnz r o s
  | .ifI r o => Sys2Proof.Machine.execIfI r o s
  | .elseI o => Sys2Proof.Machine.execElseI o s
  | .endif => Sys2Proof.Machine.execEndif s
  | .loop o => Sys2Proof.Machine.execLoop o s
  | .brk r => Sys2Proof.Machine.execBrk r s
  | .cont r => Sys2Proof.Machine.execCont r s
  | .endloop o => Sys2Proof.Machine.execEndloop o s
  | .uany d a => Sys2Proof.Machine.execUany d a s
  | .exit => Sys2Proof.Machine.execExit s
  | .trap n => Sys2Proof.Machine.execTrap n s
  | .bkpt n => Sys2Proof.Machine.execBkpt n s
  | .yield => Sys2Proof.Machine.execYield s
  | .region live => Sys2Proof.Machine.execRegion live s
  | .ocld ws => Sys2Proof.Machine.execOcld ws s
  | .ocdrop a b => Sys2Proof.Machine.execOcdrop a b s
  | .ocdropAll => Sys2Proof.Machine.execOcdropAll s
  | .alloc d res acc tile regs => Sys2Proof.Machine.execAlloc d res acc tile regs s
  | .free => Sys2Proof.Machine.execFree s
  | .srd d x => Sys2Proof.Machine.execSrd d x s
  | .swr x e => Sys2Proof.Machine.execSwr x e s
  | .swrSigclr x => Sys2Proof.Machine.execSwrSigclr x s
  | .rtt => Sys2Proof.Machine.execRtt s
  | .rttHead => Sys2Proof.Machine.execRttHead s
  | .uld d a o => Sys2Proof.Machine.execUld d a o s
  | .uldd d a o => Sys2Proof.Machine.execUldd d a o s
  | .ust d a o => Sys2Proof.Machine.execUst d a o s
  | .ustd d a o => Sys2Proof.Machine.execUstd d a o s
  | .fence ord sc => Sys2Proof.Machine.execFence ord sc s
  | .barSync n => Sys2Proof.Machine.execBarSync n s
  | .barArv n => Sys2Proof.Machine.execBarArv n s
  | .barInit n a => Sys2Proof.Machine.execBarInit n a s
  | .barx a b sc => Sys2Proof.Machine.execBarx a b sc s
  | .promote d a b64 sc => Sys2Proof.Machine.execPromote d a b64 sc s
  | .uatom d a b x => Sys2Proof.Machine.execUatom d a b x s
  | .seal d a b => Sys2Proof.Machine.execSeal d a b s
  | .reopen d a b => Sys2Proof.Machine.execReopen d a b s
  | .vinv a => Sys2Proof.Machine.execVinv a s
  | .vinvAll => Sys2Proof.Machine.execVinvAll s
  | .actld a t => Sys2Proof.Machine.execActld a t s
  | .cpy d a b x => Sys2Proof.Machine.execCpy d a b x s
  | .cpyg d a b x => Sys2Proof.Machine.execCpyg d a b x s
  | .cpys d a b x => Sys2Proof.Machine.execCpys d a b x s
  | .aseal d => Sys2Proof.Machine.execAseal d s
  | .await a => Sys2Proof.Machine.execAwait a s
  | .atest d a => Sys2Proof.Machine.execAtest d a s
  | .tsgive a b => Sys2Proof.Machine.execTsgive a b s
  | .tstake d a => Sys2Proof.Machine.execTstake d a s
  | .fopen n a b cnt elem => Sys2Proof.Machine.execFopen n a b cnt elem s
  | .fadv n => Sys2Proof.Machine.execFadv n s
  | .fend d n => Sys2Proof.Machine.execFend d n s
  | .fclose n => Sys2Proof.Machine.execFclose n s
  | .mma d a b x => Sys2Proof.Machine.execMma d a b x s
  | .mmal d a b x ainc binc cinc steps => Sys2Proof.Machine.execMmal d a b x ainc binc cinc steps s
  | .mbin d a b x => Sys2Proof.Machine.execMbin d a b x s
  | .mspr d b fib x => Sys2Proof.Machine.execMspr d b fib x s
  | .msca d a b x => Sys2Proof.Machine.execMsca d a b x s
  | .mszp d a b x => Sys2Proof.Machine.execMszp d a b x s
  | .mzero a b => Sys2Proof.Machine.execMzero a b s
  | .mrd d a wc col => Sys2Proof.Machine.execMrd d a wc col s
  | .mwr d a wc col => Sys2Proof.Machine.execMwr d a wc col s
  | .reservedCodeIssue rep pfx w => Sys2Proof.Machine.execReservedCodeIssue rep pfx w s
  | .coldPowerOn => Sys2Proof.Machine.execColdPowerOn s
  | .powerRemoved => Sys2Proof.Machine.execPowerRemoved s
  | .stackTrained n calibrated => Sys2Proof.Machine.execStackTrained n calibrated s
  | .dieUp d => Sys2Proof.Machine.execDieUp d s
  | .fullServiceMove => Sys2Proof.Machine.execFullServiceMove s
  | .warmReset => Sys2Proof.Machine.execWarmReset s
  | .hostLinkHotReset => Sys2Proof.Machine.execHostLinkHotReset s
  | .thermalGate d cycles => Sys2Proof.Machine.execThermalGate d cycles s
  | .thermalTrip => Sys2Proof.Machine.execThermalTrip s
  | .fatalError code => Sys2Proof.Machine.execFatalError code s
  | .hostDump => Sys2Proof.Machine.execHostDump s
  | .lanternDump => Sys2Proof.Machine.execLanternDump s
  | .lanternAck => Sys2Proof.Machine.execLanternAck s
  | .lanternOvwrClear => Sys2Proof.Machine.execLanternOvwrClear s
  | .elogClear d => Sys2Proof.Machine.execElogClear d s
  | .elogEntryRead d k => Sys2Proof.Machine.execElogEntryRead d k s
  | .incarnWrite v => Sys2Proof.Machine.execIncarnWrite v s
  | .devnumWrite v => Sys2Proof.Machine.execDevnumWrite v s
  | .llPortEnable p => Sys2Proof.Machine.execLlPortEnable p s
  | .llPortDisable p => Sys2Proof.Machine.execLlPortDisable p s
  | .llStateRetrain p => Sys2Proof.Machine.execLlStateRetrain p s
  | .llTrained p => Sys2Proof.Machine.execLlTrained p s
  | .flitSend p ty dst payload => Sys2Proof.Machine.execFlitSend p ty dst payload s
  | .flitReceive p flit => Sys2Proof.Machine.execFlitReceive p flit s
  | .llReplayTimeout p => Sys2Proof.Machine.execLlReplayTimeout p s
  | .heartbeatSend a => Sys2Proof.Machine.execHeartbeatSend a s
  | .agentDead a => Sys2Proof.Machine.execAgentDead a s
  | .agentReadmit a => Sys2Proof.Machine.execAgentReadmit a s
  | .ideKeyProgram => Sys2Proof.Machine.execIdeKeyProgram s
  | .cxlCacheSnoop line => Sys2Proof.Machine.execCxlCacheSnoop line s
  | .memRead sector errs => Sys2Proof.Machine.execMemRead sector errs s
  | .memWrite sector => Sys2Proof.Machine.execMemWrite sector s
  | .refreshTick n ch temp => Sys2Proof.Machine.execRefreshTick n ch temp s
  | .refreshIssue n ch => Sys2Proof.Machine.execRefreshIssue n ch s
  | .refreshPullIn n ch => Sys2Proof.Machine.execRefreshPullIn n ch s
  | .bistStart n v => Sys2Proof.Machine.execBistStart n v s
  | .bistRowCopy n => Sys2Proof.Machine.execBistRowCopy n s
  | .bistPatternDone n failing repaired => Sys2Proof.Machine.execBistPatternDone n failing repaired s
  | .scrubRead n errs => Sys2Proof.Machine.execScrubRead n errs s
  | .scrubWriteback n => Sys2Proof.Machine.execScrubWriteback n s
  | .viewCacheFill c view => Sys2Proof.Machine.execViewCacheFill c view s
  | .bulkRequest d view first count body => Sys2Proof.Machine.execBulkRequest d view first count body s
  | .viewSectorCompose d e => Sys2Proof.Machine.execViewSectorCompose d e s
  | .composedWrite d e => Sys2Proof.Machine.execComposedWrite d e s
  | .vtinvView view => Sys2Proof.Machine.execVtinvView view s
  | .vtinvAll => Sys2Proof.Machine.execVtinvAll s
  | .tfclrFrame frame => Sys2Proof.Machine.execTfclrFrame frame s
  | .tfclrAll => Sys2Proof.Machine.execTfclrAll s
  | .hostMemWrite a bytes => Sys2Proof.Machine.execHostMemWrite a bytes s
  | .hostMemRead a n => Sys2Proof.Machine.execHostMemRead a n s
  | .queueEnable q => Sys2Proof.Machine.execQueueEnable q s
  | .queueDisable q => Sys2Proof.Machine.execQueueDisable q s
  | .queueAbort q => Sys2Proof.Machine.execQueueAbort q s
  | .abortFinish q => Sys2Proof.Machine.execAbortFinish q s
  | .recordParse q => Sys2Proof.Machine.execRecordParse q s
  | .blockPlace => Sys2Proof.Machine.execBlockPlace s
  | .blockComplete q seq blk => Sys2Proof.Machine.execBlockComplete q seq blk s
  | .launchComplete q => Sys2Proof.Machine.execLaunchComplete q s
  | .allocAdmit c => Sys2Proof.Machine.execAllocAdmit c s
  | .allocEvict c => Sys2Proof.Machine.execAllocEvict c s
  | .blockPreempt q seq blk => Sys2Proof.Machine.execBlockPreempt q seq blk s
  | .blockRestore q seq => Sys2Proof.Machine.execBlockRestore q seq s
  | .cswSuspend q => Sys2Proof.Machine.execCswSuspend q s
  | .cswResume q => Sys2Proof.Machine.execCswResume q s
  | .teamEnterActive k => Sys2Proof.Machine.execTeamEnterActive k s
  | .rotation c part => Sys2Proof.Machine.execRotation c part s
  | .loadDataArrive k j => Sys2Proof.Machine.execLoadDataArrive k j s
  | .walkComplete k va => Sys2Proof.Machine.execWalkComplete k va s
  | .tlbinvAll => Sys2Proof.Machine.execTlbinvAll s
  | .tlbinvAsid asid => Sys2Proof.Machine.execTlbinvAsid asid s
  | .tlbinvPage asid page => Sys2Proof.Machine.execTlbinvPage asid page s
  | .trapEntry k => Sys2Proof.Machine.execTrapEntry k s
  | .deferredCauseReport k isSealed addr => Sys2Proof.Machine.execDeferredCauseReport k isSealed addr s
  | .pfRecordWrite k => Sys2Proof.Machine.execPfRecordWrite k s
  | .pfrespRetry idx => Sys2Proof.Machine.execPfrespRetry idx s
  | .pfrespDeliver idx => Sys2Proof.Machine.execPfrespDeliver idx s
  | .pfDisable => Sys2Proof.Machine.execPfDisable s
  | .registration c word => Sys2Proof.Machine.execRegistration c word s
  | .revocation c word => Sys2Proof.Machine.execRevocation c word s
  | .homeRead c line start count => Sys2Proof.Machine.execHomeRead c line start count s
  | .forwardedRead c r word => Sys2Proof.Machine.execForwardedRead c r word s
  | .l1Eviction c word => Sys2Proof.Machine.execL1Eviction c word s
  | .versionQuery d dev granule => Sys2Proof.Machine.execVersionQuery d dev granule s
  | .brimEpochBoundary => Sys2Proof.Machine.execBrimEpochBoundary s
  | .brimSweep d => Sys2Proof.Machine.execBrimSweep d s
  | .copyUnitComplete op unit => Sys2Proof.Machine.execCopyUnitComplete op unit s
  | .asyncOpComplete op => Sys2Proof.Machine.execAsyncOpComplete op s
  | .matrixExecute c => Sys2Proof.Machine.execMatrixExecute c s
  | .mrdWriteback c => Sys2Proof.Machine.execMrdWriteback c s
  | .actldFlip op => Sys2Proof.Machine.execActldFlip op s
  | .tsOfferEffect k => Sys2Proof.Machine.execTsOfferEffect k s
  | .registerWrite off v => Sys2Proof.Machine.execRegisterWrite off v s
  | .configurationRequest w => Sys2Proof.Machine.execConfigurationRequest w s
  | .thermalGateEnd d => Sys2Proof.Machine.execThermalGateEnd d s
  | .msixVectorUnmask e => Sys2Proof.Machine.execMsixVectorUnmask e s

end Sys2Proof.Machine
end

