-- ==== Sys2Proof/Machine/Run.lean ====
section
/-! DEFINITION. Run: what one step does: an act of the agenda, or where the agenda is empty the next act of the default order
(log entry 2): a team's next instruction, work that the device does by itself, or the passing of time. -/

namespace Sys2Proof.Machine

/-! ## Issue (R138, R139, R217, R223) -/

/-- A die's cores issue: the module serves, the die is up and does not gate the cycle. -/
def dieIssues (s : State) (d : Nat) : Bool := serving s && (s.die d).up && !gatedCycle (s.die d) (s.die d).cycle

/-- A team may issue: it is in its active set, waits on nothing, and its core lives. -/
def mayIssue (s : State) (t : Team) : Bool :=
  t.active && t.park.isNone && dieIssues s t.die && !coreDead s t.coreNo

/-- After an instruction: one that was not rejected, and does not wait at its own address, has issued (R20, R325). -/
def afterIssue (t : Team) (s : State) : State :=
  let waits := match s.teamOf t.key with
    | some u => u.park.isSome && u.pc == t.pc
    | none => false
  let rejected := (s.core t.coreNo).rejects.any fun r => r.team == t.key && r.pc == t.pc
  let stays := match s.teamOf t.key with
    | some u => u.pc == t.pc && u.repIdx == t.repIdx && u.priv == t.priv
    | none => false
  if (rejected && stays) || waits then s
  else
    let now := s.tick
    ((issued s t).countDie t.die .issue).modKey t.key fun u => { u with issuedAt := now, walked := false }

/-- A team's instruction at its pc is fetched and runs. A fetch that walks parks the team, which fetches again after it, unless the
instruction reads a latch and no taken transfer came before it (R137, R163). An instruction that ends the latch chains issues with
their values gone (R162). -/
def runInstr (s : State) (k : Nat) (t : Team) : Out :=
  let s0 : State := { s with cur := k }
  match fetchInstr s0 k t t.pc with
  | (.fail f, s) => .next (failAfter s0 s k t f)
  | (.bad, s) => .next (afterIssue t (leaveAfter s0 s t (fetchFail .illins 0 0 t.pc) true (trapCause s k .illins)))
  | (.instr i _, s) =>
    if fetchWaits s0 s t (namesLatch i) then .next (parkTeam s k .fill)
    else match exec i (endChains s k t i) with
      | .next s => .next (afterIssue t s)
      | r => r

/-- A team takes its pending cause, or runs its next instruction. -/
def issueTeam (s : State) (k : Nat) : Out :=
  match s.teams[k]? with
  | some t => if mayIssue s t then (if t.pending.isSome then .next (takePending s k) else runInstr s k t) else .next s
  | none => .next s

/-- The active team that issued least recently. -/
def nextTeam (s : State) : Option Nat :=
  (s.teams.zipIdx.foldl (fun (best : Option (Nat × Nat)) x =>
    if mayIssue s x.1 then
      match best with
      | some (n, _) => if x.1.issuedAt < n then some (x.1.issuedAt, x.2) else best
      | none => some (x.1.issuedAt, x.2)
    else best) none).map (·.2)

/-! ## Work that the device does by itself -/

/-- The first applicable work of a list. -/
def firstWork (s : State) : List (State → Option State) → Option State
  | [] => none
  | f :: fs => match f s with
    | some s' => some s'
    | none => firstWork s fs

def guarded (b : Bool) (s : State) : Option State := if b then some s else none

/-- A queued team that may enter its active set. -/
def enterWork (s : State) : Option State :=
  ((List.range s.teams.length).find? fun k => mayEnter s k).map fun k => enterActive s k

/-- Data for a team that waits for it. -/
def awaitedLoadWork (s : State) : Option State :=
  (s.teams.findIdx? fun t => !t.loads.isEmpty && match t.park with
    | some (.load _) => true
    | _ => false).map fun k => loadDataArrive s k 0

def loadWork (s : State) : Option State :=
  (s.teams.findIdx? fun t => !t.loads.isEmpty).map fun k => loadDataArrive s k 0

/-- The oldest copy of a core goes on: a unit, the flip of its table, or its completion. -/
def copyStep (s : State) (c : Nat) (op : CopyOp) : Option State :=
  match (List.range op.kind.units).find? fun u => !op.done.contains u with
  | some u => guarded (mayStart s c op) (unitComplete s op.id u)
  | none =>
    if op.table.isSome && !op.flipped then some (flipTable s op.id) else some (copyComplete s op.id)

def copyWork (s : State) : Option State :=
  s.cores.zipIdx.findSome? fun x => x.1.copyQ.findSome? fun op => copyStep s x.2 op

def matrixWork (s : State) : Option State :=
  s.cores.zipIdx.findSome? fun x =>
    if x.1.matQ.isEmpty then none
    else if x.1.matQ.any fun o => o.ended.isSome then some (mrdWrite s x.2)
    else some (matrixStep s x.2)

def offerWork (s : State) : Option State :=
  (s.blocks.find? fun b => b.units.any fun u => match u.2 with
    | .offering _ [] => true
    | _ => false).map fun b => offerEffect s ⟨b.q, b.seq, b.idx, 0⟩

/-- A registration of a stored word reaches its home. -/
def registerWork (s : State) : Option State :=
  s.cores.zipIdx.findSome? fun x => (x.1.l1.find? fun e => e.2.pend && !e.2.sync).map fun e => registerPair s x.2 e.1

/-- A view engine composes its next view sector, or takes a request that waits. -/
def composeWork (s : State) : Option State :=
  (List.range 4).findSome? fun d =>
    match (s.die d).engines.findIdx? fun e => e.req.isSome with
    | some e => some (engineStep s d e)
    | none => guarded (!(s.die d).engWait.isEmpty) (refillEngine d 0 1 s)

/-- A die sweeps its caches after an epoch boundary. -/
def sweepWork (s : State) : Option State :=
  ((List.range 4).find? fun d => (s.die d).sweepDue).map fun d => sweepDie s d

def admitWork (s : State) : Option State :=
  s.cores.zipIdx.findSome? fun x =>
    if x.1.allocQ.isEmpty then none
    else
      let s' := admitHead s x.2
      guarded (decide ((s'.core x.2).allocQ.length < x.1.allocQ.length)) s'

/-- A request that has waited long enough evicts a block. -/
def evictWork (s : State) : Option State :=
  s.cores.zipIdx.findSome? fun x => match x.1.allocQ with
    | a :: _ => guarded (decide (a.since + 32768 ≤ (s.die (coreDie x.2)).issueCycle)) (allocEvict s x.2)
    | [] => none

def faultWork (s : State) : Option State :=
  (s.teams.findIdx? fun t => match t.park with
    | some (.pageFault i _ _ _ none) =>
      ringHasRoom s || (openRecord s t.cfg.asid (faultPage i)).isSome
    | _ => false).map fun k => writeFaultRecord s k

def abortWork (s : State) : Option State :=
  ((List.range 64).find? fun q => queueAborting s q).map fun q => finishAbort s q []

def parseWork (s : State) : Option State := ((List.range 64).find? fun q => mayParse s q).map fun q => parseRecord s q

def blockWork (s : State) : Option State := (s.blocks.find? fun b => b.live.isEmpty).map fun b => completeBlock s b

def launchWork (s : State) : Option State :=
  s.launches.findSome? fun l => (completable s l.q).map fun _ => completeLaunch s l.q

def placeWork (s : State) : Option State :=
  if s.launches.isEmpty then none
  else
    let s' := placeNext s
    guarded (s'.placeCount != s.placeCount || decide (s'.launches ≠ s.launches)) s'

def preemptWork (s : State) : Option State :=
  if s.launches.isEmpty || s.blocks.isEmpty then none
  else (preemptVictim s).map fun b => preempt (s.count 0x9018 48 16 1) b

/-- A suspension that waited for a handler goes on. -/
def suspendWork (s : State) : Option State :=
  if s.field CSW 63 1 = 1 then
    let s' := suspendQueue s (s.field CSW 0 6)
    guarded (s'.field CSW 63 1 == 0 || s'.saved.length != s.saved.length) s'
  else none

/-- A rotation that is due. -/
def rotateWork (s : State) : Option State :=
  (s.teams.filter fun t => t.park.isNone && !t.active).findSome? fun t =>
    match longestActive s t.coreNo t.part with
    | some k => match s.teams[k]? with
      | some u => guarded (decide (u.entered + 4096 ≤ (s.die u.die).issueCycle) && mayLeave s k u) (rotate s t.coreNo t.part)
      | none => none
    | none => none

/-- The fills and walks of a team that waits for them are over. -/
def fillWork (s : State) : Option State :=
  (s.teams.findIdx? fun t => t.park == some .fill).map fun k => wakeFill s k

def dumpWork (s : State) : Option State := if s.dumpDue.isSome then some (lanternDumpNow s) else none

/-- All of it, in the default order; none of it goes on in the fatal state but the dump (R38). -/
def deviceWork (s : State) : Option State :=
  if s.svc = 3 then dumpWork s
  else firstWork s [awaitedLoadWork, fillWork, copyWork, matrixWork, offerWork, registerWork, composeWork, admitWork, faultWork, abortWork,
    blockWork, launchWork, suspendWork, parseWork, placeWork, rotateWork, evictWork, preemptWork, sweepWork]

/-! ## The default order -/

/-- Teams enter first; then issue and other work take turns; loads arrive when they are waited for, or last. -/
def defaultAct (s : State) : Out :=
  match enterWork s with
  | some s' => .next s'
  | none =>
    let flip : State := { s with turn := s.turn + 1 }
    if s.turn % 2 = 0 then
      match nextTeam s with
      | some k => issueTeam flip k
      | none => .next ((deviceWork flip <|> loadWork flip).getD s)
    else
      match deviceWork flip with
      | some s' => .next s'
      | none => match nextTeam s with
        | some k => issueTeam flip k
        | none => .next ((loadWork flip).getD s)

/-! ## Acts and time -/

/-- Whether a row of the table is an event and not an instruction of a team. -/
def isEvent (i : Instr) : Bool := decide (Instr.coldPowerOn.ctorIdx ≤ i.ctorIdx)

/-- Cycles that a die gates of the next `n`. -/
def gatedOf (x : Die) (n : Nat) : Nat :=
  if x.gating ≠ 0#7 then (List.range n).countP fun i => gatedCycle x (x.cycle + i) else 0

/-- GATED counts them (R15, R20). -/
def countGated (s : State) (n : Nat) : State :=
  (List.range 4).foldl (fun s d => if (s.die d).gating ≠ 0#7 then s.countDie d .gated (gatedOf (s.die d) n) else s) s

/-- One step's time (log entry 5): a cycle and a free number more, the same on every die; its gated cycles are no issue cycles (R15). -/
def passTime (s : State) : State :=
  let n := 1 + Config.extraCycles s.tick
  let s := countGated s n
  let age (x : Die) : Die := { x with cycle := x.cycle + n, issueCycle := x.issueCycle + (n - gatedOf x n) }
  { s with dies := s.dies.map age, tick := s.tick + 1 }

def thenTime (r : Out) : Out :=
  match r with
  | .next s => .next (passTime s)
  | x => x

/-- An act of the agenda; an instruction of a team is no event. -/
def runAct (s : State) (a : Act) : Out :=
  match a with
  | .ev i => if isEvent i then exec i s else .next s
  | .issue k => if s.powered then issueTeam s k else .fault .noPower
  | .readReg off => withPower s fun s => hostReadReg s off
  | .readAhead id core word => withPower s fun s => readAhead s id core word

/-- What a step does. -/
def stepOnce (s : State) : Out :=
  match s.agenda with
  | a :: rest => thenTime (runAct { s with agenda := rest } a)
  | [] => if s.powered then thenTime (defaultAct s) else .fault .noPower

/-! ## A program loaded from outside (log entry 45) -/

/-- Where a loaded program lies: its virtual and device-local addresses, and its page tables. -/
def loadVa : Nat := 0x10000
def loadPa : Nat := 0x10000000
def loadTables : Nat := 0x20000000

/-- The launch that a loaded program runs under: one block of one team of 32 lanes on one core, with every register. -/
def loadCfg : LaunchCfg :=
  { overlap := false, irq := false, inln := false, viewadm := false, map := 0, asid := 0, pc := loadVa, tba := 0x18000
    ptroot := loadTables, gx := 1, gy := 1, gz := 1, nt := 1, tl := 32, regs := 160, pregs := 32, spanS := 32, coresN := 1
    accmax := 2048, tilemax := 512, argva := 0x1F000, compHost := false, compaddr := 0x30000000, compval := 1, bmaddr := 0
    prodseq := 0, scaleS := 0, lo := 0, hi := 0, tabaddr := 0 }

/-- Its page: 64 KiB that a user context may read, write and execute. -/
def loadLeaf : Leaf := ⟨loadPa, false, false, false, true, true, true, 0, 0, 0⟩

def loadTeam : Team :=
  let t := newTeam loadCfg ⟨0, 0, 0, 0⟩ 0 0 0 0
  { t with regs := List.replicate 160 (zeroLanes 32), allotted := true, active := true }

def loadBlock : Block := newBlock 0 0 0 loadCfg [0] [⟨0, 0, [(0, 0)]⟩] 0

/-- The bytes of the page tables and of the words, at their homes. -/
def loadBytes (ws : List Word) : List Host.Cell :=
  (ws.zipIdx.flatMap fun x => (leBytes 4 x.1.toNat).zipIdx (loadPa + 4 * x.2)).map (fun y => (y.2, y.1))
    ++ ([(loadTables, loadTables + 0x10001), (loadTables + 0x10000, loadTables + 0x20001),
        (loadTables + 0x20008, loadPa + 0x1039)].flatMap fun x => (leBytes 8 x.2).zipIdx x.1).map fun y => (y.2, y.1)

/-- The device in reduced service on die 0 with the words as the program of its one team, which is about to issue them. -/
def State.loadProgram (s : State) (ws : List Word) : State :=
  let tlb : TlbEntry := ⟨0, false, loadVa / 65536, loadLeaf⟩
  let code := ws.zipIdx.map fun x => (loadPa / 4 + x.2, x.1)
  let core : Core := { Core.reset with tlb := [tlb], icache := code }
  let die : Die := { Die.reset with up := true }
  let launch : Launch := ⟨0, 0, loadCfg, 1, [], true, none, none, none⟩
  { s with
    powered := true, agenda := [], cur := 0, turn := 0, dumpDue := none
    mregs := put MODSTAT 0x311#64 (s.mregs.filter fun e => decide (0x1800 ≤ e.1 ∧ e.1 < 0x1C00))
    dies := die :: (s.dies.drop 1), cores := core :: (s.cores.drop 1), l2 := loadBytes ws, registrants := [], poison := []
    launches := [launch], blocks := [loadBlock], saved := [], teams := [loadTeam], ops := [], barx := [], pfOpen := []
    deadAgents := [] }

end Sys2Proof.Machine
end

