-- ==== Sys2Proof/Machine/Step.lean ====
section
/-! DEFINITION. Step: the machine's step, and a state whose next step runs a given instruction. -/

namespace Sys2Proof.Machine

/-- One step of the device. -/
def step (s : State) : Host.Outcome State Fault Refusal := stepOnce s

/-- The state whose next step runs the instruction in a number, its first word least significant. -/
def State.withFetchWord (s : State) (nbits w : Nat) : State :=
  s.loadProgram ((wordsOfNat maxWords (w % 2 ^ nbits)).map IWord.bits)

end Sys2Proof.Machine
end

