-- ==== Sys2Proof/Safety.lean ====
section
/-! DEFINITION. Safety: the terms in which claims speak of runs and of instructions: what stops a step, the forms that states
keep, when an instruction issues, and what an instruction that computes leaves of its team. -/

namespace Sys2Proof

open Machine

/-! ## Steps and states -/

/-- A step went on. -/
def Goes (r : Out) : Prop := ∃ s, r = .next s

/-- A step stopped because module power is off (R14), the one fault of the machine. -/
def PowerStop (r : Out) : Prop := r = .fault .noPower

/-- The sparse contents of the device are in their canonical form. -/
def Canonical (s : State) : Prop := Memory.wf s.dram = true ∧ rising s.l2 = true

/-- The parts of the package are all there (R12, R13, R24, R43, R105). -/
def Whole (s : State) : Prop :=
  s.dies.length = 4 ∧ s.cores.length = 64 ∧ s.stks.length = 8 ∧ s.ports.length = 24 ∧ s.queues.length = 64

/-- A run of steps. -/
inductive Run : State → State → Prop where
  | done (s : State) : Run s s
  | more {s t u : State} (h : step s = .next t) (r : Run t u) : Run s u

/-! ## When an instruction issues (R152, R166, R264) -/

/-- An outstanding load or MRD of the team writes one of the registers. -/
def waitsFor (s : State) (t : Team) (rs : List Nat) : Bool :=
  t.loads.any (fun r => rs.any r.writes) || (s.core t.coreNo).matQ.any fun o => o.team == t.key && match o.kind with
    | .mrd d _ _ _ => rs.contains d
    | _ => false

/-- The operand codes of a lane instruction at its repetition. -/
def laneCodes (t : Team) (p : LPre) (d a b : Nat) : Codes := (fieldsFor p.rep t.repIdx d a b (pfxOf p).c.toNat).codes

/-- The operand codes of a uniform instruction at its repetition. -/
def uniCodes (t : Team) (rep : Option Rep) (d a b : Nat) : Codes := (fieldsFor rep t.repIdx d a b 164).codes

/-- The running team `t` issues a lane instruction of this form: it passes the checks of R264, no outstanding load writes a
register that it names, and no cause is pending. -/
abbrev LaneRuns (s : State) (t : Team) (p : LPre) (f : Form) (d a b : Nat) : Prop :=
  s.teams[s.cur]? = some t ∧ (p.rep = none → t.repIdx = 0)
    ∧ check t f (fieldsFor p.rep t.repIdx d a b (pfxOf p).c.toNat) (pfxIll (pfxOf p) f) (pfxOf p).m.toNat = none
    ∧ waitsFor s t (namedRegs f (laneCodes t p d a b) (pfxOf p).m.toNat) = false ∧ t.pending = none

/-- The same for a uniform instruction. -/
abbrev UniRuns (s : State) (t : Team) (rep : Option Rep) (f : Form) (d a b : Nat) : Prop :=
  s.teams[s.cur]? = some t ∧ (rep = none → t.repIdx = 0)
    ∧ check t f (fieldsFor rep t.repIdx d a b 164) false 164 = none
    ∧ waitsFor s t (namedRegs f (uniCodes t rep d a b) 164) = false ∧ t.pending = none

/-- The REGION of a closing instruction of `words` words is there: the pairing test of R168 finds it, its fetch leaves the
state `s1` and walks no page table, no structured transfer reached the instruction (R303), and no outstanding load writes a register
of its mask. -/
abbrev Pairs (s : State) (t : Team) (words : Nat) (live : BitVec 160) (s1 : State) : Prop :=
  pairTest s s.cur t (t.pc + 4 * words) = (.region live, s1) ∧ hasWalked s s1 t.die = false ∧ t.expect = none ∧ s1.cur = s.cur
    ∧ s1.teams[s.cur]? = some t ∧ waitsFor s1 t (liveRegs live) = false

/-- The closing instructions that a REGION must follow (R168). -/
def closesRegion (i : Instr) : Bool :=
  match i with
  | .atom .. | .atomt .. | .uatom .. | .cpy .. | .cpyg .. | .cpys .. | .actld .. | .aseal .. | .mma .. | .mmal .. | .mbin ..
  | .mspr .. | .msca .. | .mszp .. | .mzero .. | .mwr .. | .tsgive .. | .tstake .. | .seal .. | .reopen .. | .barSync ..
  | .barArv .. | .barInit .. | .barx .. | .trap .. => true
  | .stx _ _ _ _ _ ord _ => releases ord
  | _ => false

/-- The instructions that a structured transfer of a kind may reach (R303). -/
def mayBeReached (e : Nat) (i : Instr) : Bool :=
  match i with
  | .elseI _ => e == expectIf
  | .endif => e == expectIf || e == expectElse
  | .endloop _ => e == expectBrk
  | _ => false

/-- After a pair: the REGION is counted, its checkpoint taken, and the pc is past it (R20, R167, R168). -/
def afterPair (s : State) (die pc words : Nat) (live : BitVec 160) : State :=
  (s.countDie die .issue).modTeam s.cur fun t =>
    let t1 := t.checkpoint live (pc + 4 * words + 24)
    { t1.jump (pc + 4 * words + 24) with moved := false }

/-! ## Instructions that compute (R152, R157, R161, R165, R240, R262, R269) -/

/-- What EFFECT sees in a lane. -/
def laneArgs (s : State) (t : Team) (f : Form) (k : Codes) (r : Reads) (l : Nat) : Args :=
  ⟨readOpt s t f.pipe r.a k.a l, readOpt s t f.pipe r.b k.b l, readOpt s t f.pipe r.c k.c l, readOpt s t f.pipe r.d k.d l, l⟩

/-- The flags of the active lanes, ORed. -/
def laneFlags (t : Team) (p : LPre) (res : Nat → Nat × FFlags) : FFlags :=
  orFlags ((List.range t.tl).map fun l => if (effMask t p).1.getLsbD l then (res l).2 else FFlags.none)

/-- The DEADREAD bit where some operand read is dead. -/
def deadBits (b : Bool) : Word := if b then deadReadBit else 0#32

/-- Everything of a team but what an instruction that computes may write: registers with their dead marks, latches, operand
cache, STATUS, and its place. -/
structure SameElse (t u : Team) : Prop where
  same : { u with
    regs := t.regs, dead := t.dead, latL := t.latL, latX := t.latX, latU := t.latU, ocache := t.ocache
    status := t.status, pc := t.pc, repIdx := t.repIdx, expect := t.expect, moved := t.moved } = t

/-- The team went on past an instruction of `words` words, or to its next repetition (R262). -/
def Moved (t u : Team) (rep : Option Rep) (words : Nat) : Prop :=
  u.moved = false ∧ u.expect = none ∧ match rep with
  | some r => if t.repIdx < r.cnt.toNat then u.pc = t.pc ∧ u.repIdx = t.repIdx + 1 else u.pc = t.pc + 4 * (words + 1) ∧ u.repIdx = 0
  | none => u.pc = t.pc + 4 * words ∧ u.repIdx = 0

/-- Word `j` of what lane `l` of D holds after a lane instruction with the results `res` (R152, R269). -/
def laneWord (t : Team) (p : LPre) (f : Form) (k : Codes) (w : Nat) (res : Nat → Nat × FFlags) (j l : Nat) : Word :=
  BitVec.ofNat 32 ((if (effMask t p).1.getLsbD l then (res l).1
    else if (pfxOf p).zm then 0 else oldDest t f.pipe w k.d l) / 2 ^ (32 * j))

/-- Latches after `w` result words entered them, the low word last (R161). -/
def enteredLatch (w : Nat) (x : LaneLatches) (word : Nat → Lanes) : LaneLatches :=
  (List.range w).foldr (fun j x => x.shift (word j)) x

/-- The same for the U latches. -/
def enteredUni (w : Nat) (x : UniLatches) (word : Nat → Word) : UniLatches :=
  (List.range w).foldr (fun j x => x.shift (word j)) x

/-- What a lane instruction with the results `res` leaves of its team: each active lane of D holds its result, every other
lane its old value or zero; the results enter the latches of the pipe; dead marks, tags and STATUS follow the rules; and the
rest is as it was. -/
structure LaneResult (t u : Team) (p : LPre) (f : Form) (k : Codes) (w : Nat) (dead : Bool) (res : Nat → Nat × FFlags) : Prop where
  dest : k.d < 160 → ∀ j, j < w → k.d + j ∉ deadMarks p f k → ∀ l, l < t.tl →
    u.regAt (k.d + j) l = laneWord t p f k w res j l
  others : ∀ n, (160 ≤ k.d ∨ n < k.d ∨ k.d + w ≤ n) → u.regs[n]? = t.regs[n]?
  marks : ∀ n, n < 160 → u.isDead n = (decide (n ∈ deadMarks p f k)
    || (t.isDead n && !decide (k.d < 160 ∧ k.d ≤ n ∧ n < k.d + w)))
  latL : u.latL = if f.pipe = .l then enteredLatch w t.latL fun j => (List.range t.tl).map (laneWord t p f k w res j)
    else t.latL
  latX : u.latX = if f.pipe = .x then enteredLatch w t.latX fun j => (List.range t.tl).map (laneWord t p f k w res j)
    else t.latX
  latU : u.latU = t.latU
  tags : u.ocache = (t.ocache.filter fun e => decide (e.1 ∉ deadMarks p f k)).map fun e =>
    (e.1, e.2 || (readRegs f k).contains e.1)
  status : u.status = t.status ||| (laneFlags t p res).bits ||| deadBits dead
  moves : Moved t u p.rep (laneWords p 1)
  frame : SameElse t u

/-- Everything of a team but its STATUS and its place. -/
structure OnlyMoved (t u : Team) : Prop where
  same : { u with status := t.status, pc := t.pc, repIdx := t.repIdx, expect := t.expect, moved := t.moved } = t

/-- A lane instruction gives the results `eff` to its active lanes, and with an empty mask it only moves on. -/
def LaneGives (i : Instr) (p : LPre) (f : Form) (d a b w : Nat) (r : Reads) (eff : Args → Nat × FFlags) : Prop :=
  ∀ s t, LaneRuns s t p f d a b →
    ((effMask t p).1 ≠ 0#1024 → ∃ u, exec i s = .next (s.setTeam s.cur u) ∧
      LaneResult t u p f (laneCodes t p d a b) w (r.dead t f.pipe (laneCodes t p d a b))
        fun l => eff (laneArgs s t f (laneCodes t p d a b) r l))
    ∧ ((effMask t p).1 = 0#1024 → ∃ u, exec i s = .next (s.setTeam s.cur u)
      ∧ u.status = t.status ||| deadBits (effMask t p).2 ∧ Moved t u p.rep (laneWords p 1) ∧ OnlyMoved t u)

/-- A lane form of two 32-bit integer sources gives `eff` of them, as words. -/
def LaneGives2 (i : Instr) (p : LPre) (d a b : Byte) (eff : Word → Word → Word) : Prop :=
  LaneGives i p (Form.of .l (.dst 1) (.src 1) (.src 1)) d.toNat a.toNat b.toNat 1 ⟨some .i32, some .i32, none, none⟩
    fun x => ((eff (BitVec.ofNat 32 x.a) (BitVec.ofNat 32 x.b)).toNat, FFlags.none)

/-- A lane form of one 32-bit integer source. -/
def LaneGives1 (i : Instr) (p : LPre) (d a : Byte) (eff : Word → Word) : Prop :=
  LaneGives i p (Form.of .l (.dst 1) (.src 1) .field) d.toNat a.toNat 0 1 ⟨some .i32, none, none, none⟩
    fun x => ((eff (BitVec.ofNat 32 x.a)).toNat, FFlags.none)

/-- A lane form that also reads D, the first argument. -/
def LaneGivesD (i : Instr) (p : LPre) (d a b : Byte) (eff : Word → Word → Word → Word) : Prop :=
  LaneGives i p (Form.of .l (.rmw 1) (.src 1) (.src 1)) d.toNat a.toNat b.toNat 1 ⟨some .i32, some .i32, none, some .i32⟩
    fun x => ((eff (BitVec.ofNat 32 x.d) (BitVec.ofNat 32 x.a) (BitVec.ofNat 32 x.b)).toNat, FFlags.none)

/-- A lane form of floating-point sources of kind `k`, with its results and flags. -/
def LaneGivesF (i : Instr) (p : LPre) (pipe : Pipe) (d a b : Byte) (k : Kind) (dw : Nat) (rounds : Bool)
    (eff : Nat → Nat → Nat × FFlags) : Prop :=
  LaneGives i p { Form.of pipe (.dst dw) (.src k.words) (.src k.words) with rounds := rounds, sat := rounds }
    d.toNat a.toNat b.toNat dw ⟨some k, some k, none, none⟩ fun x => eff x.a x.b

/-- The same with a third source C of kind `kc`. -/
def LaneGivesF3 (i : Instr) (p : LPre) (pipe : Pipe) (d a b : Byte) (k kc : Kind) (eff : Nat → Nat → Nat → Nat × FFlags) :
    Prop :=
  LaneGives i p { Form.of pipe (.dst kc.words) (.src k.words) (.src k.words) with
      rounds := true, sat := true, c := .src kc.words } d.toNat a.toNat b.toNat kc.words ⟨some k, some k, some kc, none⟩
    fun x => eff x.a x.b x.c

/-- A signed result of `w` bits: clamped under SAT, wrapped without (R282). -/
def satWord (w : Nat) (sat : Bool) (i : Int) : BitVec w :=
  BitVec.ofInt w (if sat then max (-(2 ^ (w - 1) : Int)) (min (2 ^ (w - 1) - 1 : Int) i) else i)

/-- The magnitude of a pattern of a format without its sign, as a rational (R232, R233). -/
def Machine.Fmt.magnitude (f : Fmt) (bits : Nat) : ℚ := (f.read bits).real.m * (2 : ℚ) ^ (f.read bits).real.e

/-- The exact value of a finite value, as a rational (R232). -/
def Machine.FVal.exact (v : FVal) : ℚ := v.real.m * (2 : ℚ) ^ v.real.e

/-- ROUND of an exact value (R238); `negZero` is the sign of an exact zero. -/
def Machine.Fmt.roundExact (f : Fmt) (m : RMode) (sat negZero : Bool) (x : ℚ) : Nat × FFlags :=
  if x = 0 then (f.signBit negZero, FFlags.none) else f.roundRat m sat (decide (x < 0)) x.num.natAbs x.den

/-- One factor is infinite and the other zero. -/
def zeroTimesInf (x y : FVal) : Bool := (x.isInf && y.isZero) || (x.isZero && y.isInf)

/-- What a NaN source gives: NAN_OUT of the sources, with NV for a signalling one (R240, R241). -/
def Machine.Fmt.nanGiven (f : Fmt) (xs : List FVal) : Nat × FFlags := (f.nanOut xs, { FFlags.none with nv := xs.any FVal.isSnan })

/-! ### Conversions and special functions (R242, R243) -/

/-- A source converted to a wide format: NAN_OUT, its infinity, or its exact value rounded once. -/
def ConvertsTo (f : Fmt) (m : RMode) (sat : Bool) (x : FVal) (r : Nat × FFlags) : Prop :=
  (x.isNan = true → r = f.nanGiven [x]) ∧ (∀ n, x = .inf n → r = (f.infBits n, FFlags.none))
  ∧ ∀ n v, x = .fin n v → r = f.roundExact m sat n x.exact

/-- A source of a narrower format in a wider one: the same value and sign, and no flag; a NaN gives `nan`. -/
def WidensTo (f : Fmt) (x : FVal) (nan r : Nat × FFlags) : Prop :=
  (x.isNan = true → r = nan) ∧ (∀ n, x = .inf n → r = (f.infBits n, FFlags.none))
  ∧ ∀ n v, x = .fin n v → r.1 < 2 ^ f.width ∧ r.2 = FFlags.none ∧ ∃ w, f.read r.1 = .fin n w ∧ (f.read r.1).exact = x.exact

/-- The integer that a rounding mode gives of an exact value (R237). -/
def RoundsToInt (m : RMode) (x : ℚ) (i : Int) : Prop :=
  match m with
  | .rne => |x - i| ≤ 1 / 2 ∧ (|x - i| = 1 / 2 → i % 2 = 0)
  | .rna => |x - i| ≤ 1 / 2 ∧ (|x - i| = 1 / 2 → |x| ≤ |(i : ℚ)|)
  | .rz => |x - i| < 1 ∧ |(i : ℚ)| ≤ |x|
  | .rd => i = ⌊x⌋
  | .ru => i = ⌈x⌉

/-- A source converted to an integer from `lo` to `hi` of 32 bits: 0 of a NaN, and the nearer end of what lies out of range, with NV; else
its rounded value, with NX where that is another. -/
def ToInteger (m : RMode) (lo hi : Int) (x : FVal) (r : Nat × FFlags) : Prop :=
  let bits (i : Int) : Nat := (BitVec.ofInt 32 i).toNat
  (x.isNan = true → r = (0, FFlags.invalid)) ∧ (∀ n, x = .inf n → r = (bits (if n then lo else hi), FFlags.invalid))
  ∧ ∀ n v i, x = .fin n v → RoundsToInt m x.exact i →
    r = if i < lo then (bits lo, FFlags.invalid) else if hi < i then (bits hi, FFlags.invalid)
      else (bits i, { FFlags.none with nx := decide ((i : ℚ) ≠ x.exact) })

/-- Result of an overflow in a format without infinity: ±max, and NaN with the sign for E4M3, but ±max under SAT and where the mode rounds
toward zero (R238). -/
def smallOverflow (f : Fmt) (m : RMode) (sat n : Bool) : Nat :=
  if f = .e4m3 ∧ sat = false ∧ (m = .rne ∨ m = .rna ∨ m = .rd ∧ n = true ∨ m = .ru ∧ n = false) then f.signBit n + 0x7F
  else f.signBit n + f.maxBits

/-- An FP32 source converted to a small format: the NaN of the format with the sign, or +0 with NV where it has none; an infinity, or its
overflow where the format has none; else its exact value rounded once. -/
def NarrowsTo (f : Fmt) (m : RMode) (sat : Bool) (x : FVal) (r : Nat × FFlags) : Prop :=
  (x.isNan = true → r = if f = .e4m3 ∨ f = .e5m2 then
      (f.signBit x.sign + (if f = .e4m3 then 0x7F else 0x7E), { FFlags.none with nv := x.isSnan }) else (0, FFlags.invalid))
  ∧ (∀ n, x = .inf n → r = if f = .e5m2 then (f.infBits n, FFlags.none) else (smallOverflow f m sat n, ⟨false, false, true, false, true⟩))
  ∧ ∀ n v, x = .fin n v → r = f.roundExact m sat n x.exact

/-- `r` is `d` with its `w` bits at bit `lo` replaced by those of `v`. -/
def Merges (d lo w v r : Nat) : Prop := ∀ i, r.testBit i = if lo ≤ i ∧ i < lo + w then v.testBit (i - lo) else d.testBit i

/-- Conversions from small formats: first selector, elements, format, bits between elements, bits read. -/
def widenings : List (Nat × Nat × Fmt × Nat × Nat) :=
  [(0x10, 4, .e4m3, 8, 8), (0x14, 4, .e5m2, 8, 8), (0x18, 4, .e3m2, 8, 6), (0x1C, 4, .e2m3, 8, 6), (0x20, 8, .e2m1, 4, 4)]

/-- Conversions to small formats: first selector, elements, format, bits of an element in the register. -/
def narrowings : List (Nat × Nat × Fmt × Nat) :=
  [(0x30, 4, .e4m3, 8), (0x34, 4, .e5m2, 8), (0x38, 4, .e3m2, 8), (0x3C, 4, .e2m3, 8), (0x40, 8, .e2m1, 4)]

/-- INT32 to an element: first selector, elements, bits, range. -/
def intNarrowings : List (Nat × Nat × Nat × Int × Int) := [(0x48, 4, 8, -128, 127), (0x4C, 4, 8, 0, 255), (0x50, 8, 4, -8, 7)]

/-- An element to INT32: first selector, elements, bits, whether it is signed. -/
def intWidenings : List (Nat × Nat × Nat × Bool) :=
  [(0x58, 4, 8, true), (0x5C, 4, 8, false), (0x60, 8, 4, true), (0x68, 8, 4, false), (0x70, 16, 2, true)]

/-- One unit in the last place of FP32 at a value of at least `2^e` and less than `2^(e+1)`. -/
def ulpOf (e : Int) : ℚ := (2 : ℚ) ^ (max e (-126) - 23)

/-- An FP32 pattern of a finite value within a bound of a real number. -/
def NearTo (r : Nat) (y b : ℝ) : Prop :=
  (Fmt.fp32.read r).isNan = false ∧ (Fmt.fp32.read r).isInf = false ∧ |((Fmt.fp32.read r).exact : ℝ) - y| ≤ b

/-- Between the two numbers of an enclosure. -/
def Encloses (e : Enclosure) (y : ℝ) : Prop :=
  (((FVal.fin false e.1).exact : ℚ) : ℝ) ≤ y ∧ y ≤ (((FVal.fin false e.2).exact : ℚ) : ℝ)

/-- A word that is 1 where a test holds and 0 elsewhere. -/
def boolWord (b : Bool) : Word := if b then 1#32 else 0#32

/-- An operand of the X pipe by lane; 0 beyond the team. -/
def crossColumn (s : State) (t : Team) (k : Option Kind) (code l : Nat) : Nat := if l < t.tl then readOpt s t .x k code l else 0

/-- The old D by lane, for the forms that read it; 0 elsewhere. -/
def oldColumn (t : Team) (k : Option Kind) (d l : Nat) : Nat :=
  match k with
  | some _ => if l < t.tl then oldDest t .x 1 d l else 0
  | none => 0

/-- A cross-lane instruction gives `eff` of the team, its mask, and the columns of A, B and the old D (R294). -/
def CrossGives (i : Instr) (p : LPre) (f : Form) (d a b w : Nat) (r : Reads)
    (eff : Team → Mask → (Nat → Nat) → (Nat → Nat) → (Nat → Nat) → Nat → Nat × FFlags) : Prop :=
  ∀ s t, LaneRuns s t p f d a b →
    ((effMask t p).1 ≠ 0#1024 → ∃ u, exec i s = .next (s.setTeam s.cur u) ∧
      LaneResult t u p f (laneCodes t p d a b) w (r.dead t .x (laneCodes t p d a b)) fun l =>
        eff t (effMask t p).1 (crossColumn s t r.a (laneCodes t p d a b).a) (crossColumn s t r.b (laneCodes t p d a b).b)
          (oldColumn t r.d (laneCodes t p d a b).d) l)
    ∧ ((effMask t p).1 = 0#1024 → ∃ u, exec i s = .next (s.setTeam s.cur u)
      ∧ u.status = t.status ||| deadBits (effMask t p).2 ∧ Moved t u p.rep (laneWords p 1) ∧ OnlyMoved t u)

/-- SPAN_LANE: slane `j` of the span of lane `l` (R153). -/
def spanLane (t : Team) (l j : Nat) : Nat := l / t.cfg.spanS * t.cfg.spanS + j

/-- The active lanes of the span of a lane, in increasing order. -/
def spanActive (t : Team) (mask : Mask) (l : Nat) : List Nat :=
  ((List.range t.cfg.spanS).map (spanLane t l)).filter fun m => mask.getLsbD m

/-- A 32-bit value of a column as a signed number. -/
def signedAt (av : Nat → Nat) (m : Nat) : Int := (BitVec.ofNat 32 (av m)).toInt

/-- What a uniform instruction with the result `v` leaves of its team: every lane of D holds the result (R157). -/
structure UniResult (t u : Team) (pipe : Pipe) (rep : Option Rep) (words : Nat) (k : Codes) (w : Nat) (dead : Bool) (v : Nat) : Prop where
  dest : k.d < 160 → ∀ j, j < w → ∀ l, l < t.tl → u.regAt (k.d + j) l = BitVec.ofNat 32 (v / 2 ^ (32 * j))
  others : ∀ n, (160 ≤ k.d ∨ n < k.d ∨ k.d + w ≤ n) → u.regs[n]? = t.regs[n]?
  marks : ∀ n, n < 160 → u.isDead n = (t.isDead n && !decide (k.d < 160 ∧ k.d ≤ n ∧ n < k.d + w))
  latU : u.latU = if pipe = .u then enteredUni w t.latU fun j => BitVec.ofNat 32 (v / 2 ^ (32 * j)) else t.latU
  latches : u.latL = t.latL ∧ u.latX = t.latX
  tags : u.ocache = t.ocache
  status : u.status = t.status ||| deadBits dead
  moves : Moved t u rep words
  frame : SameElse t u

/-- A uniform instruction gives the result `eff` of lane 0's operands to every lane. -/
def UniGives (i : Instr) (rep : Option Rep) (f : Form) (d a b w : Nat) (r : Reads) (eff : Args → Nat) : Prop :=
  ∀ s t, UniRuns s t rep f d a b → ∃ u, exec i s = .next (s.setTeam s.cur u) ∧
    UniResult t u f.pipe rep 1 (uniCodes t rep d a b) w (r.dead t f.pipe (uniCodes t rep d a b))
      (eff ⟨readOpt s t f.pipe r.a (uniCodes t rep d a b).a 0, readOpt s t f.pipe r.b (uniCodes t rep d a b).b 0, 0,
        readOpt s t f.pipe r.d (uniCodes t rep d a b).d 0, 0⟩)

/-- A uniform form of two 32-bit sources gives `eff` of them, as words. -/
def UniGives2 (i : Instr) (rep : Option Rep) (d a b : Byte) (eff : Word → Word → Word) : Prop :=
  UniGives i rep (Form.of .u (.dst 1) (.src 1) (.src 1)) d.toNat a.toNat b.toNat 1 ⟨some .i32, some .i32, none, none⟩
    fun x => (eff (BitVec.ofNat 32 x.a) (BitVec.ofNat 32 x.b)).toNat

/-- A uniform form of one 32-bit source. -/
def UniGives1 (i : Instr) (rep : Option Rep) (d a : Byte) (eff : Word → Word) : Prop :=
  UniGives i rep (Form.of .u (.dst 1) (.src 1) .field) d.toNat a.toNat 0 1 ⟨some .i32, none, none, none⟩
    fun x => (eff (BitVec.ofNat 32 x.a)).toNat

/-- A uniform form that also reads D, the first argument. -/
def UniGivesD (i : Instr) (rep : Option Rep) (d a b : Byte) (eff : Word → Word → Word → Word) : Prop :=
  UniGives i rep (Form.of .u (.rmw 1) (.src 1) (.src 1)) d.toNat a.toNat b.toNat 1 ⟨some .i32, some .i32, none, some .i32⟩
    fun x => (eff (BitVec.ofNat 32 x.d) (BitVec.ofNat 32 x.a) (BitVec.ofNat 32 x.b)).toNat

/-! ## Transfers, traps and the end of a team (R149, R219, R252) -/

/-- The address that an offset of words names, from the base word of the instruction (R252). -/
def farTarget (t : Team) (off : Int) : Nat := (((t.pc : Int) + 4 * off) % 2 ^ 64).toNat

/-- The lanes of a team whose operand has bit 0 set. -/
def BitZero (s : State) (t : Team) (code : Nat) (c : Mask) : Prop :=
  ∀ l, l < 1024 → c.getLsbD l = (decide (l < t.tl) && decide (opnd s t .u .i32 code l % 2 = 1))

/-- The team after a structured transfer or after the instruction that would have taken it: `go` says whether it is taken. -/
def Machine.Team.structured (t : Team) (go : Prop) [Decidable go] (target kind : Nat) : Team :=
  { t with pc := if go then target else t.pc + 4, repIdx := 0, expect := if go then some kind else none, moved := decide go }

/-- No load, MRD or cause of the team is outstanding. -/
def Quiet (s : State) (t : Team) : Prop :=
  t.loads = [] ∧ t.pending = none ∧ ∀ o ∈ (s.core t.coreNo).matQ, o.team ≠ t.key

/-- Nothing that the team started is outstanding, and its key names it. -/
def Finished (s : State) (t : Team) : Prop :=
  Quiet s t ∧ (∀ o ∈ (s.core t.coreNo).copyQ, o.team ≠ t.key) ∧ s.teamOf t.key = some t

/-- The team that a trap with RETURN_ADDRESS `epc` leaves (R219). -/
structure TrapEntered (t u : Team) (i : TrapInfo) (epc : Nat) : Prop where
  cause : u.cause = t.repIdx % 64 * 2 ^ 16 + i.sub % 256 * 2 ^ 8 + i.cause.code
  saved : u.epc = epc ∧ u.flane = i.lane ∧ u.faddr = i.addr ∧ u.smask = t.mask ∧ u.sdepth = t.stack.length
  entry : u.priv = true ∧ u.mask = allLanes t.tl ∧ u.pc = t.cfg.tba ∧ u.repIdx = 0 ∧ u.expect = none ∧ u.moved = false ∧ u.walked = false
  voids : u.latL = LaneLatches.empty ∧ u.latX = LaneLatches.empty ∧ u.latU = UniLatches.empty
    ∧ u.ocache = t.ocache.map fun e => (e.1, false)
  frame : { u with
    cause := t.cause, epc := t.epc, flane := t.flane, faddr := t.faddr, smask := t.smask, sdepth := t.sdepth, priv := t.priv
    mask := t.mask, pc := t.pc, repIdx := t.repIdx, expect := t.expect, moved := t.moved, walked := t.walked, latL := t.latL, latX := t.latX
    latU := t.latU, ocache := t.ocache } = t

/-- The running team traps: the trap is counted, and the team enters its handler. -/
def TrapsTo (s : State) (t : Team) (r : Out) (i : TrapInfo) (epc : Nat) : Prop :=
  ∃ u, r = .next ((s.count TRAPCNT 0 32 1).setTeam s.cur u) ∧ TrapEntered t u i epc

/-- A cause without subcause, lane or address. -/
def plainCause (c : Cause) : TrapInfo := ⟨c, 0, 0, 0⟩

/-! ## Instructions that reach memory (R152, R217, R317 to R326) -/

/-- What a lane memory instruction leaves of its team, its data apart. -/
structure LaneEnds (t u : Team) (p : LPre) (f : Form) (k : Codes) (words : Nat) (dead : Bool) : Prop where
  regs : u.regs = t.regs
  marks : ∀ n, n < 160 → u.isDead n = (decide (n ∈ deadMarks p f k) || t.isDead n)
  latches : u.latL = t.latL ∧ u.latX = t.latX ∧ u.latU = t.latU
  tags : u.ocache = (t.ocache.filter fun e => decide (e.1 ∉ deadMarks p f k)).map fun e =>
    (e.1, e.2 || (readRegs f k).contains e.1)
  status : u.status = t.status ||| deadBits dead
  moves : Moved t u p.rep (laneWords p words)
  frame : SameElse t u

/-- A lane instruction with an empty mask only moves on (R152, R320). -/
def PassesEmpty (i : Instr) (s : State) (t : Team) (p : LPre) (words : Nat) : Prop :=
  (effMask t p).1 = 0#1024 → ∃ u, exec i s = .next (s.setTeam s.cur u) ∧ u.status = t.status ||| deadBits (effMask t p).2
    ∧ Moved t u p.rep (laneWords p words) ∧ OnlyMoved t u

/-- The address that faults where a pair has a bit set in [63:55]: the sum, or the pair where the sum has none (R319, the model's
choice of the address that FADDR records: log entry 115). -/
def faultyPair (pair sum : Nat) : Nat := if 2 ^ 55 ≤ pair ∧ sum < 2 ^ 55 then pair else sum

/-- EA of R318: a pair plus an offset in units of `n`. -/
def pairAddress (pair : Nat) (off : Byte) (n : Nat) : Nat := faultyPair pair (((pair : Int) + off.toInt * n) % 2 ^ 64).toNat

/-- The active lanes with the addresses of their accesses. -/
def laneAddresses (s : State) (t : Team) (p : LPre) (code : Nat) (off : Byte) (n : Nat) : List (Nat × Nat) :=
  ((List.range t.tl).filter fun l => (effMask t p).1.getLsbD l).map fun l =>
    (l, pairAddress (opnd s t .m .i64 code l) off n)

/-- A device-local target of whole words that is neither uncached nor in a sync page. -/
def PlainWords (x : Tgt) (pa : Nat) : Prop :=
  x.loc = .plain pa ∧ pa + x.n ≤ 2 ^ 46 ∧ pa % x.n = 0 ∧ (x.n = 4 ∨ x.n = 8 ∨ x.n = 16) ∧ x.uncached = false ∧ x.sync = false

/-- The bytes of memory below the caches, and who holds words of them, are as before. -/
def HomesKept (s w : State) : Prop := w.dram = s.dram ∧ w.l2 = s.l2 ∧ w.registrants = s.registrants ∧ w.poison = s.poison

/-- A device-local word that no core caches or holds registered, at a home that holds no poison there. -/
def OnlyAtHome (s : State) (c w : Nat) : Prop :=
  l1Word s c w = none ∧ look w s.registrants = none ∧ homePoisoned s (w / 8) = false

/-- A sync block of this device stands at its home alone: no core caches or registers a word of it, no sector of it is poisoned, no granule
is sealed, the core has nothing to drain or to register, and the L2s have room (R189, R191). -/
structure BlockAtHome (s : State) (c pa : Nat) : Prop where
  place : isLocalWord (pa / 4) = true ∧ c < s.cores.length
  words : ∀ i, i < 32 → OnlyAtHome s c (pa / 128 * 32 + i)
  clean : ∀ e ∈ (s.core c).l1, e.2.dirty = false ∧ e.2.pend = false
  seals : ∀ d, (s.die d).seals = []
  room : s.l2.length + s.l2held.length + 256 ≤ l2Size

/-- The slot of the sync block of an address, as its home holds it (R191, R194). -/
def homeSlot (s : State) (pa : Nat) : Sig := BitVec.ofNat 512 (leNat (homeBytes s (pa / 128 * 128 + 64) 64))

/-- The stamp of an SC operation of core `c` on the sync block of an address: 1 past the later of the block's stamp and the core's clock
(R197). -/
def scStamp (s : State) (c pa : Nat) : BitVec 48 :=
  let m := BitVec.ofNat 48 (leNat (homeBytes s (pa / 128 * 128 + 8) 8))
  (if 1 ≤ (m - (s.core c).clock).toNat ∧ (m - (s.core c).clock).toNat < 2 ^ 47 then m else (s.core c).clock) + 1#48

/-- What an ordered access of core `c` leaves of the sync block of an address: the bytes `bs` that it writes from there, the slot with the
release signature `sig` of a release, the stamp of an SC operation, which is the core's clock then, and every other byte. -/
structure BlockAfter (s w : State) (c pa : Nat) (bs : List Byte) (sig : Option Sig) (sc : Bool) : Prop where
  value : ∀ i x, bs[i]? = some x → homeByte w (pa + i) = x
  slot : homeSlot w pa = homeSlot s pa ||| sig.getD 0#512
  stamp : sc = true → leNat (homeBytes w (pa / 128 * 128 + 8) 8) = (scStamp s c pa).toNat
  clock : (w.core c).clock = if sc then scStamp s c pa else (s.core c).clock
  others : ∀ a, (a < pa ∨ pa + bs.length ≤ a) → (sc = true → a < pa / 128 * 128 + 8 ∨ pa / 128 * 128 + 16 ≤ a) →
    (sig ≠ none → a < pa / 128 * 128 + 64 ∨ pa / 128 * 128 + 128 ≤ a) → homeByte w a = homeByte s a
  registered : w.registrants = s.registrants

/-- What an acquire that read the slot `g` leaves of its team, whose W was `base`, and of its core's L1 (R190, R194). -/
structure AcquiredSlot (t u : Team) (w : State) (base g : Sig) : Prop where
  sigW : u.sigW = if sigFull g then ~~~0#512 else base ||| g
  epochs : u.sigE0 = t.sigE0 ||| g ∧ u.sigE1 = t.sigE1 ∧ u.sigE2 = t.sigE2
  dropped : ∀ e ∈ (w.core t.coreNo).l1, e.2.reg = true ∨ (sigFull g || sigHits g (4 * e.1)) = false

/-- A target in bytes 0 to 7 of a sync block (R191, R327). -/
def SyncTarget (y : Tgt) (pa n : Nat) : Prop :=
  y.loc = .plain pa ∧ y.n = n ∧ y.uncached = false ∧ y.sync = true ∧ (n = 4 ∧ (pa % 128 = 0 ∨ pa % 128 = 4) ∨ n = 8 ∧ pa % 128 = 0)

/-- The lanes' stores and atomics leave the signatures and nothing else in the team: what remains when those are set aside. -/
def Machine.Team.sameSigs (u t : Team) : Team := { u with sigW := t.sigW, sigE0 := t.sigE0, sigE1 := t.sigE1, sigE2 := t.sigE2 }

/-- The atomics of lanes on 4-byte words of a tile store, one lane after another: the old value that each lane meets, and the bytes
by address after them. `new` gives a lane's new value from the old one. -/
def tileAtomics (new : Nat → Nat → Nat) : List (Nat × Nat) → (Nat → Byte) → List (Nat × Nat) × (Nat → Byte)
  | [], f => ([], f)
  | (l, v) :: r, f =>
    let old := leNat ((List.range 4).map fun j => f (v + j))
    let x := tileAtomics new r fun a => if v ≤ a ∧ a < v + 4 then BitVec.ofNat 8 (new l old / 2 ^ (8 * (a - v))) else f a
    ((l, old) :: x.1, x.2)

/-- What a team that waited leaves a barrier with: it is no longer parked, its signatures hold the barrier's, and its core's L1 keeps
no unregistered word that the signature hits (R204). -/
def Resumes (w : State) (y : Team) (g : Sig) : Prop :=
  ∃ z, w.teamOf y.key = some z ∧ z.park = none ∧ z.regs = y.regs ∧ z.pc = y.pc ∧ z.mask = y.mask
    ∧ z.sigW = (if sigFull g then ~~~0#512 else y.sigW ||| g) ∧ z.sigE0 = y.sigE0 ||| g
    ∧ ∀ e ∈ (w.core y.coreNo).l1, e.2.reg = true ∨ (sigFull g || sigHits g (4 * e.1)) = false

/-- A lane instruction that closes a region. -/
abbrev LaneCloses (s : State) (t : Team) (p : LPre) (f : Form) (d a b words : Nat) (live : BitVec 160) (s1 : State) : Prop :=
  LaneRuns s t p f d a b ∧ Pairs s t (laneWords p words) live s1

/-- A uniform instruction that closes a region. -/
abbrev UniCloses (s : State) (t : Team) (f : Form) (d a b words : Nat) (live : BitVec 160) (s1 : State) : Prop :=
  UniRuns s t none f d a b ∧ Pairs s t words live s1

/-- An asynchronous instruction issues: its team's operation number enters the open set, its earlier stores
are at the home or registered (R201), and the REGION follows (R168, R340). -/
def JoinsTheOpenSet (i : Instr) (s s1 : State) (t : Team) (words : Nat) (live : BitVec 160) (w : State) (u : Team) : Prop :=
  exec i s = .next (afterPair (w.setTeam s.cur u) t.die t.pc words live)
    ∧ u = { t with openOps := t.openOps ++ [s1.nextId], status := u.status } ∧ w.nextId = s1.nextId + 1
    ∧ (∃ r, w.ops = s1.ops ++ [r] ∧ r.id = s1.nextId ∧ r.team = t.key ∧ r.done = false) ∧ HomesKept (registerPending s1 t.coreNo) w

/-- What the checks of an asynchronous instruction have to leave for it to be posted: no failure, no poison, no wait of its
team, and a place in the queue. -/
def PostsFrom (s0 s1 : State) (t : Team) (fails : List Fail) : Prop :=
  fails = [] ∧ hasWaited s0 s1 t.coreNo = false ∧ s1.cur = s0.cur ∧ s1.teams[s0.cur]? = some t ∧ t.coreNo < s1.cores.length

/-- The copy enters its core's copy queue and posts its units to its barrier. -/
def CopyPosted (i : Instr) (s s1 : State) (t : Team) (words : Nat) (live : BitVec 160) (kind : CopyKind) (bar : Option Nat) : Prop :=
  ∃ w u, JoinsTheOpenSet i s s1 t words live w u
    ∧ (w.core t.coreNo).copyQ = (s1.core t.coreNo).copyQ ++ [⟨s1.nextId, t.key, kind, bar, [], false, OpViews.none, []⟩]
    ∧ (∀ b, s1.blockOf t.key = some b → w.blockOf t.key = some (match bar with
        | some n => b.setBar n { b.bar n with pend := (b.bar n).pend + kind.units }
        | none => b))

/-- The matrix instruction enters its core's matrix queue. -/
def MatrixPosted (i : Instr) (s s1 : State) (t : Team) (words : Nat) (live : BitVec 160) (kind : MatKind) : Prop :=
  ∃ w u, JoinsTheOpenSet i s s1 t words live w u ∧ w.cores.map (·.acc) = s1.cores.map (·.acc)
    ∧ (w.core t.coreNo).matQ = (s1.core t.coreNo).matQ ++ [⟨s1.nextId, t.key, kind, none, [], ⟨none, none⟩⟩]

/-! ## Translation and the checks of an access (R209 to R218, R319) -/

/-- The priorities of the causes, the highest first (R218). -/
def causeTable : List (Cause × Nat) :=
  [(.illins, 1), (.illop, 2), (.priv, 3), (.regbound, 4), (.maskovf, 5), (.batchovf, 6), (.pfault, 7), (.pprot, 8), (.align, 9),
    (.viewf, 10), (.tolview, 11), (.tilebound, 12), (.tileown, 13), (.accbound, 14), (.barovf, 15), (.gatherchk, 16), (.sealedC, 17),
    (.poisont, 18)]

/-- What the checks of an instruction leave as it was: the teams with their registers, the blocks, the outstanding operations, the words
that cores cache and hold registered, the tile stores and the accumulators. TLBs, view caches, counters and logs may differ (R217). -/
def OnlyLooked (s w : State) : Prop :=
  w.teams = s.teams ∧ w.cur = s.cur ∧ w.blocks = s.blocks ∧ w.launches = s.launches ∧ w.ops = s.ops ∧ w.registrants = s.registrants
  ∧ (w.cores.map fun k => { k with tlb := [], vcache := [] }) = s.cores.map fun k => { k with tlb := [], vcache := [] }

/-- The L2s have room for `n` more sectors, so that none gives one up. -/
def RoomFor (s : State) (n : Nat) : Prop := s.l2.length + s.l2held.length + n ≤ l2Size

/-- Bits [hi:lo] of a page-table entry. -/
def entryBits (e hi lo : Nat) : Nat := e / 2 ^ lo % 2 ^ (hi + 1 - lo)

/-- MALFORMED of an entry in a table of level `lvl` (R213). -/
def MalformedEntry (devnum e lvl : Nat) : Prop :=
  let b := entryBits e
  b 63 58 ≠ 0 ∨ b 15 14 ≠ 0 ∨ 2 ≤ b 11 10 ∨ b 7 6 = 3
  ∨ b 12 12 = 1 ∧ lvl = 2 ∨ b 12 12 = 0 ∧ lvl = 0
  ∨ b 12 12 = 0 ∧ (b 11 1 ≠ 0 ∨ b 13 13 ≠ 0 ∨ b 57 39 ≠ 0)
  ∨ b 12 12 = 1 ∧ (lvl = 1 ∧ b 28 16 ≠ 0
    ∨ b 2 1 = 0 ∧ b 57 46 ≠ 0
    ∨ b 2 1 = 1 ∧ (b 57 48 ≠ 0 ∨ b 47 47 = 0)
    ∨ b 2 1 = 2 ∧ (b 47 47 = 1 ∨ b 46 46 = 0 ∨ b 57 48 = devnum)
    ∨ b 7 6 ≠ 0 ∧ b 2 1 ≠ 0
    ∨ b 8 8 = 1 ∧ (b 2 1 = 1 ∨ b 2 1 = 3 ∨ b 7 6 ≠ 0 ∨ b 11 10 ≠ 0))

/-- A leaf whose address no access may have: one of host memory without CXL.cache, or one that is of no form of R210. -/
def ForbiddenLeaf (cxlCache : Bool) (e : Nat) : Prop :=
  entryBits e 2 1 = 3 ∧ cxlCache = false ∨ (entryBits e 2 1 = 0 ∨ entryBits e 2 1 = 2) ∧ entryBits e 45 39 ≠ 0

/-- The leaf that an entry holds, field by field (R212). -/
def entryLeaf (e : Nat) : Leaf :=
  { addr := entryBits e 57 16 * 2 ^ 16, p := e.testBit 13, sealedP := e.testBit 9, sync := e.testBit 8, x := e.testBit 5
    w := e.testBit 4, r := e.testBit 3, ca := entryBits e 11 10, tol := entryBits e 7 6, typ := entryBits e 2 1 }

/-- The address of the entry of a table at `t` of level `lvl` that maps `va`. -/
def entryAddress (t lvl va : Nat) : Nat := t + 8 * (va / 2 ^ (13 * lvl + 16) % 2 ^ 13)

/-- The entry at an address, as its home or a registrant gives it; none where a half of it is poison. -/
def entryAt (s : State) (a : Nat) : Option Nat :=
  if (readForward s (a / 4)).2 || (readForward s (a / 4 + 1)).2 then none
  else some ((readForward s (a / 4)).1.toNat + 2 ^ 32 * (readForward s (a / 4 + 1)).1.toNat)

/-- The walk of R211 and R213 from a table of level `lvl` at an address, over the entries that their homes give: the leaf or the fault
that it ends with, and whether it met poison. -/
inductive Walked (entry : Nat → Option Nat) (devnum : Nat) (cxlCache : Bool) (va : Nat) : Nat → Nat → WalkRes → Bool → Prop
  | poisoned {lvl t : Nat} : entry (entryAddress t lvl va) = none → Walked entry devnum cxlCache va lvl t (.fault 3 lvl) true
  | invalid {lvl t e : Nat} : entry (entryAddress t lvl va) = some e → e.testBit 0 = false →
      Walked entry devnum cxlCache va lvl t (.fault 1 lvl) false
  | malformed {lvl t e : Nat} : entry (entryAddress t lvl va) = some e → e.testBit 0 = true → MalformedEntry devnum e lvl →
      Walked entry devnum cxlCache va lvl t (.fault 3 lvl) false
  | next {lvl t e : Nat} {r : WalkRes} {p : Bool} : entry (entryAddress t (lvl + 1) va) = some e → e.testBit 0 = true →
      ¬ MalformedEntry devnum e (lvl + 1) → e.testBit 12 = false →
      Walked entry devnum cxlCache va lvl (entryBits e 57 16 * 2 ^ 16) r p → Walked entry devnum cxlCache va (lvl + 1) t r p
  | forbidden {lvl t e : Nat} : entry (entryAddress t lvl va) = some e → e.testBit 0 = true → ¬ MalformedEntry devnum e lvl →
      e.testBit 12 = true → ForbiddenLeaf cxlCache e → Walked entry devnum cxlCache va lvl t (.fault 4 lvl) false
  | leaf {lvl t e : Nat} : entry (entryAddress t lvl va) = some e → e.testBit 0 = true → ¬ MalformedEntry devnum e lvl →
      e.testBit 12 = true → ¬ ForbiddenLeaf cxlCache e →
      Walked entry devnum cxlCache va lvl t (.leaf (entryLeaf e) (decide (lvl = 1))) false

/-- The conditions of R214's table, by subcause, for an access of `who` at `va`, whose physical address is `pa`. -/
def PageRefuses (who : Who) (l : Leaf) (pa va : Nat) (f : AccForm) (sub : Nat) : Prop :=
  let reads := f.kind = .read ∨ f.kind = .atomic
  let writes := f.kind = .write ∨ f.kind = .atomic
  sub = 1 ∧ (reads ∧ l.r = false ∨ writes ∧ l.w = false ∨ f.kind = .fetch ∧ l.x = false)
  ∨ sub = 2 ∧ l.p = true ∧ who.priv = false
  ∨ sub = 3 ∧ writes ∧ l.typ = 0 ∧ (0x1FB7FE0000 ≤ pa ∧ pa < 0x1FB8000000) ∧ who.viewadm = false
  ∨ sub = 4 ∧ l.sync = true ∧ writes ∧ ¬ (f.n = 4 ∧ (va % 128 = 0 ∨ va % 128 = 4) ∨ f.n = 8 ∧ va % 128 = 0)
  ∨ sub = 5 ∧ f.needsSync = true ∧ l.sync = false
  ∨ sub = 6 ∧ f.kind = .fetch ∧ (l.typ = 2 ∨ l.typ = 3)

/-- The lowest condition of R214 that an access meets. -/
def LowestRefusal (who : Who) (l : Leaf) (pa va : Nat) (f : AccForm) (sub : Nat) : Prop :=
  PageRefuses who l pa va f sub ∧ ∀ j, j < sub → ¬ PageRefuses who l pa va f j

/-- The causes that an access of a form meets at offset `o` of a view: VIEWF, TOLVIEW, and ALIGN of an atomic that does not cover exactly
one element of 4 or 8 bytes (R83, R98, R100). -/
def ViewRefuses (e : VEntry) (f : AccForm) (o : Nat) (c : Cause) (sub : Nat) : Prop :=
  c = .viewf ∧ e.outcome = .illegal sub
  ∨ c = .tolview ∧ sub = 0 ∧ e.outcome = .tolerantD
  ∨ (e.outcome = .legal ∨ e.outcome = .tolerantD ∨ e.outcome = .illegal 5)
    ∧ (c = .viewf ∧ sub = 3 ∧ e.desc.extent < o + f.n
      ∨ c = .viewf ∧ sub = 4 ∧ (f.kind = .write ∨ f.kind = .atomic) ∧ e.desc.wr = false
      ∨ c = .align ∧ sub = 0 ∧ f.kind = .atomic ∧ ¬ (e.desc.width = 8 * f.n ∧ (f.n = 4 ∨ f.n = 8)))

/-- Physical address of a virtual address under a leaf of 512 MiB or 64 KiB (R209). -/
def leafAddress (l : Leaf) (big : Bool) (va : Nat) : Nat := l.addr + va % if big then 2 ^ 29 else 2 ^ 16

/-- Physical address of the narrowed form of a word of a tolerant page (R65). -/
def narrowAddress (l : Leaf) (big : Bool) (va : Nat) : Nat := l.addr + (va % if big then 2 ^ 29 else 2 ^ 16) / 4 * 2

/-! ## Views (R76 to R94) -/

/-- The element codes with their widths in bits (R77). -/
def elementTable : List (Nat × Nat) :=
  [(0, 8), (1, 8), (2, 6), (3, 6), (4, 4), (5, 16), (6, 16), (7, 8), (8, 8), (9, 4), (10, 4), (11, 2), (12, 1), (13, 4), (14, 32),
    (16, 64), (17, 16), (18, 32), (19, 64), (20, 8)]

/-- Bits [hi:lo] of the doubleword or word at byte offset `o` of a descriptor (R76). -/
def descBits (x o hi lo : Nat) : Nat := x / 2 ^ (8 * o + lo) % 2 ^ (hi + 1 - lo)

/-- The coordinates of a view element, the innermost first (R79). -/
def Coordinates (v : VDesc) (e : Nat) (i : Nat → Nat) : Prop :=
  (∀ k, k < v.rank → i k < v.dim k) ∧ e = ∑ k ∈ Finset.range v.rank, i k * ∏ j ∈ Finset.range k, v.dim j

/-- The selectors of a PERM view are a permutation (R78). -/
def Permutes (v : VDesc) : Prop := (∀ k, k < v.rank → v.sel k < v.rank) ∧ ∀ j, j < v.rank → ∃ k, k < v.rank ∧ v.sel k = j

/-- What R78 asks of a descriptor, but for the rule that subcause 5 reports. -/
def LegalShape (v : VDesc) (devnum : Nat) : Prop :=
  v.kind ≤ 5 ∧ 1 ≤ v.rank ∧ v.rank ≤ 4 ∧ (elemWidth v.elem).isSome = true ∧ (∀ k, k < v.rank → v.dim k ≠ 0)
  ∧ (v.kind = 1 → Permutes v)
  ∧ (v.kind = 2 → 2 ≤ v.rank ∧ v.t0 ≠ 0 ∧ v.t1 ≠ 0 ∧ v.t0 ∣ v.dim 0 ∧ v.t1 ∣ v.dim 1)
  ∧ (v.kind = 4 → v.width ≤ 8 ∧ 32 ∣ v.t0 ∧ 32 ≤ v.t0 ∧ v.t0 ≤ 32768 ∧ v.t0 ∣ v.count)
  ∧ (v.kind = 5 → v.rowb ≠ 0 ∧ v.width ∣ 8 * v.rowb ∧ v.icnt ≠ 0)
  ∧ (8 ≤ v.width → v.width / 8 ∣ v.base)
  ∧ v.base.testBit 47 = false ∧ v.base / 2 ^ 39 % 2 ^ 7 = 0 ∧ (v.base.testBit 46 = false → v.base / 2 ^ 48 % 2 ^ 10 = 0)
  ∧ (v.base.testBit 46 = true → v.base / 2 ^ 48 % 2 ^ 10 ≠ devnum) ∧ v.extent ≤ 2 ^ 36

/-- The first and the last byte of the base range (R80). -/
def BaseRange (v : VDesc) (lo hi : Int) : Prop :=
  (v.kind = 3 → lo = (8 * (v.base : Int) + v.width * ∑ k ∈ Finset.range v.rank, min 0 (((v.dim k : Int) - 1) * v.stride k)) / 8
    ∧ hi = (8 * (v.base : Int) + v.width * ((∑ k ∈ Finset.range v.rank, max 0 (((v.dim k : Int) - 1) * v.stride k)) + 1) - 1) / 8)
  ∧ (v.kind = 5 → lo = v.base ∧ hi = (v.base : Int) + v.dim 0 * v.rowb - 1)
  ∧ (v.kind ≠ 3 → v.kind ≠ 5 → lo = v.base ∧ hi = (v.base : Int) + v.extent - 1)

/-- The base range and the index list of a view lie within the home range of BASE's die (R78). -/
def WithinHome (v : VDesc) : Prop :=
  ∃ lo hi, BaseRange v lo hi ∧ (v.base : Int) / 2 ^ 37 * 2 ^ 37 ≤ lo ∧ hi < ((v.base : Int) / 2 ^ 37 + 1) * 2 ^ 37
    ∧ lo < ((v.base : Int) / 2 ^ 37 + 1) * 2 ^ 37 ∧ (v.base : Int) / 2 ^ 37 * 2 ^ 37 ≤ hi
    ∧ (v.kind = 5 → 4 * v.idxoff + 4 * v.icnt ≤ 2 ^ 37)

/-- The cause and subcause of a view sector at offset `o` that fails (R87, R98, R100). -/
def sectorCause (e : VEntry) (o : Nat) : Option (Cause × Nat) :=
  match e.outcome with
  | .illegal sub => some (.viewf, if sub = 5 ∧ e.desc.extent ≤ o then 3 else sub)
  | .tolerantD => some (if e.desc.extent ≤ o then (.viewf, 3) else (.tolview, 0))
  | .legal => if e.desc.extent ≤ o then some (.viewf, 3) else none

/-- A base bit as its home or a registrant gives it. -/
def baseBitAt (s : State) (k : Nat) : Bool := (readForward s (k / 32)).1.getLsbD (k % 32)

/-! ## What statements about events and words speak of -/

/-- The selectors that can be read, with their values (R224). -/
def selectorValues (s : State) (t : Team) : List (Nat × Nat) :=
  [(0x00, t.status.toNat), (0x01, t.trapen.toNat), (0x02, (if t.priv then 1 else 0) + if t.cfg.viewadm then 2 else 0),
    (0x03, s.devnum), (0x04, t.cfg.asid), (0x08, t.cause), (0x09, t.epc % 2 ^ 32), (0x0A, t.epc / 2 ^ 32 % 2 ^ 32),
    (0x0B, t.faddr % 2 ^ 32), (0x0C, t.faddr / 2 ^ 32 % 2 ^ 32), (0x0D, t.flane), (0x0E, t.ckpt.head % 2 ^ 32),
    (0x0F, t.ckpt.head / 2 ^ 32 % 2 ^ 32), (0x10, (t.tscr.getD 0 0#32).toNat), (0x11, (t.tscr.getD 1 0#32).toNat),
    (0x12, (t.tscr.getD 2 0#32).toNat), (0x13, (t.tscr.getD 3 0#32).toNat), (0x14, t.cfg.tba % 2 ^ 32),
    (0x15, t.cfg.tba / 2 ^ 32 % 2 ^ 32)]

/-- Only the registers of a list may differ. -/
def OtherRegisters (s t : State) (offs : List Nat) : Prop := ∀ o, o ∉ offs → t.mreg o = s.mreg o

/-- A write of a register: fields (low bit, width, value) of it take their values, its other bits and all other registers stay. -/
def Wrote (s t : State) (off : Nat) (fs : List (Nat × Nat × Nat)) : Prop :=
  OtherRegisters s t [off] ∧ { t with mregs := s.mregs } = s
  ∧ ∀ i, i < 64 → (t.mreg off).getLsbD i = match fs.find? fun f => decide (f.1 ≤ i ∧ i < f.1 + f.2.1) with
    | some f => f.2.2.testBit (i - f.1)
    | none => (s.mreg off).getLsbD i

/-- A write of `v` at an offset does nothing but to the fields (low bit, width) of a list. -/
def WritesFields (s : State) (v : DWord) (off : Nat) (fs : List (Nat × Nat)) : Prop :=
  ∃ t, exec (.registerWrite (BitVec.ofNat 20 off) v) s = .next t
    ∧ Wrote s t off (fs.map fun f => (f.1, f.2, fieldOf v.toNat f.1 f.2))

/-- Registers of the module, of die `d`, stack `n` and queue `q`, with the fields that a write of `v` reaches where it gives no command: the
fields of access RW in the register's table, but for reserved values (R8) and where the table says that a write is ignored. -/
def plainWrites (s : State) (v d i n q : Nat) : List (Nat × List (Nat × Nat)) :=
  [(CNT d (i % 14), [(0, 64)]), (SHBASE d i, [(21, 16)]),
    (SHCFG d i, [(0, 1), (8, 3), (48, 16)] ++ (if 7 ≤ fieldOf v 1 5 then [(1, 5)] else [])
      ++ if fieldOf v 16 6 ≤ 20 ∧ fieldOf v 16 6 ≠ 15 then [(16, 6)] else []),
    (STK n 0, [(16, 1), (17, 5)] ++ if 100 ≤ fieldOf v 0 16 then [(0, 16)] else []),
    (STK n 0x20, [(16, 1)] ++ if fieldOf v 0 16 ≠ 0 then [(0, 16)] else []), (STK n 0x28, [(0, 64)]),
    (QBASE q, if s.field (QCTL q) 0 1 = 1 ∨ fieldOf v 37 2 ≠ 0 then [] else [(16, 23)]),
    (QSEQ q, if s.field (QCTL q) 0 1 = 1 then [] else [(0, 32)]), (QSTAT q, [(48, 16)]),
    (0x9000, if s.field 0x9008 32 24 = 0 then [(16, 23)] else []),
    (0x9008, if s.field 0x9008 32 24 = 0 then [(0, 24)] else []), (0x9018, [(0, 64)])]
  ++ (if s.field INCARN 16 1 = 1 then [(INCARN, [(32, 16)])] else [])
  ++ (if s.field DEVNUM 16 1 = 1 then [(DEVNUM, [])] else [])
  ++ (if fieldOf v 15 1 = 0 then [(QCTL q, [(0, 1), (8, 3), (14, 1)])] else [])
  ++ (if fieldOf v 0 1 = 0 ∧ fieldOf v 2 1 = 0 then [(MODCTL, [(1, 1)])] else [])
  ++ if s.field CSW 63 1 = 1 then [(CSW, [])]
    else if fieldOf v 8 2 = 0 ∨ fieldOf v 8 2 = 3 then [(CSW, [(0, 6)])] else []

/-- The same for the registers of translation, trap counts and demand paging (R216, R229, R230). -/
def pagingWrites (s : State) (v : Nat) : List (Nat × List (Nat × Nat)) :=
  [(PFQBASE, if s.field PFQPTR 63 1 = 1 then [] else [(16, 23)]), (PFNOTE, [(0, 64)]), (TRAPCNT, [(0, 64)])]
  ++ (if fieldOf v 63 1 = 0 then [(PFRESP, [(0, 10), (62, 1)])] else [])
  ++ (if fieldOf v 63 1 = 1 then [(PFQPTR, [(32, 10), (63, 1)])] else if s.field PFQPTR 63 1 = 0 then [(PFQPTR, [(32, 10)])] else [])
  ++ if fieldOf v 62 1 = 0 then [(TLBINV, [(0, 39), (40, 12)] ++ if fieldOf v 60 2 ≠ 3 then [(60, 2)] else [])] else []

/-- R36: a reset of a module with no dump due and no parked bank leaves the stacks' contents, REPAIRd and the shape records,
raises WRCNT and INCARN by 1, and leaves no work; service is down until die 0 comes up. -/
def ResetLeaves (s t : State) : Prop :=
  t.teams = [] ∧ t.blocks = [] ∧ t.launches = [] ∧ t.saved = [] ∧ t.powered = true ∧ t.coldBoot = false ∧ t.svc = 0
    ∧ t.dram = s.dram ∧ t.poison = s.poison ∧ (∀ o, survives o = true → t.mreg o = s.mreg o)
    ∧ t.field MODSTAT 32 16 = min (s.field MODSTAT 32 16 + 1) 0xFFFF
    ∧ t.field INCARN 0 16 = (s.field INCARN 0 16 + 1) % 2 ^ 16 ∧ t.field INCARN 16 1 = s.field INCARN 16 1

/-- No view cache holds the views of a test. -/
def NoCachedView (t : State) (p : Nat → Bool) : Prop :=
  (∀ k ∈ t.cores, ∀ e ∈ k.vcache, p e.view = false) ∧ ∀ k ∈ t.dies, ∀ x ∈ k.engines, ∀ e ∈ x.vcache, p e.view = false

/-- The block of a launch. -/
def isBlock (q seq blk : Nat) (b : Block) : Bool := b.q == q && b.seq == seq && b.idx == blk

/-- A team as R133 places it. -/
structure FreshTeam (u : Team) (cfg : LaunchCfg) : Prop where
  place : u.pc = cfg.pc ∧ u.repIdx = 0 ∧ u.mask = allLanes cfg.tl ∧ u.stack = [] ∧ u.priv = false
  regs : u.regs = List.replicate cfg.pregs (zeroLanes cfg.tl) ∧ u.dead = 0#160 ∧ u.ocache = []
  clear : u.status = 0#32 ∧ u.trapen = 0#32 ∧ u.cause = 0 ∧ u.epc = 0 ∧ u.faddr = 0 ∧ u.tscr = List.replicate 4 0#32
  idle : u.park = none ∧ u.pending = none ∧ u.loads = [] ∧ u.openOps = [] ∧ u.active = false

/-! ### Blocks that leave and come back (R132, R136, R142 to R148) -/

/-- R132, R144, R146, R148: the block runs, none of its teams is in a handler, no higher block of its launch is resident, and
its context fits in the free part of the pool. -/
structure Removable (s : State) (b : Block) : Prop where
  resident : b ∈ s.blocks ∧ b.live ≠ []
  handlers : ∀ u ∈ s.teams, b.holds u.key = true → u.priv = false
  highest : ∀ x ∈ s.blocks, x.q = b.q → x.seq = b.seq → x.live ≠ [] → x.idx ≤ b.idx
  pool : poolSize s ≠ 0 ∧ poolPlaced s = true ∧ (s.saved.map (·.bytes)).sum + contextSize s b ≤ poolSize s

/-- Of two blocks that may be removed, the first goes before the second: its launch has the lower priority, or the same and it was
placed later. -/
def GoesFirst (s : State) (v b : Block) : Prop :=
  queuePrio s v.q < queuePrio s b.q ∨ queuePrio s v.q = queuePrio s b.q ∧ b.placed ≤ v.placed

/-- The blocks that may be evicted for a request of a team of `own` on a partition of a core (R136). -/
def MayEvict (s : State) (c part : Nat) (own b : Block) : Prop :=
  Removable s b ∧ sameBlock own b = false ∧ ∃ x ∈ s.teams, b.holds x.key = true ∧ x.coreNo = c ∧ x.part = part

/-- R123, R142: a launch of a queue has a ready block that fits nowhere, and removing blocks of lower priority would let it fit. -/
def WantsRoom (s : State) (q : Nat) (l : Launch) : Prop :=
  q < 64 ∧ l ∈ heldBy s q ∧ queueSuspended s q = false ∧ queueAborting s q = false ∧ readyNow s l = true ∧ candidate s l = none
    ∧ removalHelps l (queuePrio s q) s.blocks.length s = true

/-- Nothing that the teams of a block started is outstanding, none of them waits in ALLOC, and no core or host holds words of the
context pool. -/
structure Settled (s : State) (b : Block) : Prop where
  known : s.blocks.find? (fun x => sameBlock x b) = some b
  teams : ∀ u ∈ s.teams, b.holds u.key = true → Finished s u ∧ u.park ≠ some .alloc
  units : ∀ e ∈ b.units, ∀ n, e.2 ≠ .offering n []
  pool : (∀ e ∈ s.registrants, 4 * e.1 < poolBase s ∨ poolBase s + poolSize s ≤ 4 * e.1)
    ∧ ∀ l ∈ s.hostLines, 128 * l < poolBase s ∨ poolBase s + poolSize s ≤ 128 * l

/-- What the context of a block keeps of a team (R143, R145). -/
structure TeamSaved (u y : Team) : Prop where
  key : y.key = u.key ∧ y.cfg = u.cfg
  kept : y.ckpt = u.ckpt ∧ y.regs.length = u.regs.length ∧ y.status = u.status ∧ y.pending = u.pending ∧ y.batches = u.batches
    ∧ y.nextBatch = u.nextBatch ∧ y.pc = u.pc
  park : y.park = (match u.park with
    | some (.bar n) => some (.bar n)
    | some (.barx sc n i) => some (.barx sc n i)
    | _ => none)
  void : y.latL = LaneLatches.empty ∧ y.latX = LaneLatches.empty ∧ y.latU = UniLatches.empty ∧ ∀ e ∈ y.ocache, e.2 = false

/-- R143, R146: the block and its teams have left; its context holds its shares, its barriers, its holdings and its teams, has the
size of R146, and lies in the pool; no byte of a sector outside the context's pages changes. -/
def BlockSaved (s t : State) (b : Block) : Prop :=
  t.teams = s.teams.filter (fun u => !b.holds u.key) ∧ t.blocks = s.blocks.filter (fun x => !sameBlock x b)
  ∧ t.launches = s.launches ∧ t.cores.map (·.l1) = s.cores.map (·.l1) ∧ t.registrants = s.registrants ∧ t.hostLines = s.hostLines
  ∧ ∃ x, t.saved = s.saved ++ [x] ∧ x.block = b
    ∧ List.Forall₂ TeamSaved (s.teams.filter fun u => b.holds u.key) x.teams
    ∧ x.bytes = 8192 + 4096 * (s.teams.filter fun u => b.holds u.key).length
        + b.cfg.coresN * (4096 * b.tileLen + roundUp (512 * b.accLen) 4096)
        + ((s.teams.filter fun u => b.holds u.key).map fun u => roundUp (4 * u.tl * u.ckpt.regs.length) 4096).sum
    ∧ (∀ p ∈ x.pages, poolBase s ≤ 4096 * p ∧ 4096 * p + 4096 ≤ poolBase s + poolSize s ∧ ∀ y ∈ s.saved, p ∉ y.pages)
    ∧ (∀ k c, k < b.cfg.coresN → b.cores[k]? = some c → ∀ o,
        (o < 4096 * b.tileLen →
          Memory.read (x.tile.getD k []) o = Memory.read (s.core c).tile (4096 * b.tileBase.getD k 0 + o))
        ∧ (o < 128 * b.accLen → look o (x.acc.getD k []) = look (128 * b.accBase.getD k 0 + o) (s.core c).acc))
    ∧ (∀ n, (∀ p ∈ x.pages, ∀ i, i < 128 → place s (4096 * p + 32 * i) ≠ some n) →
        ∀ a, a / 32 = n → Memory.read t.dram a = Memory.read s.dram a)
    ∧ t.l2 = s.l2.filter fun e => decide (∀ p ∈ x.pages, sealAt s (4096 * p) = none → e.1 / 4096 ≠ p)

/-- A team as R145 restores it. -/
structure TeamRestored (y u : Team) (core part slot : Nat) : Prop where
  place : u.key = y.key ∧ u.cfg = y.cfg ∧ u.coreNo = core ∧ u.part = part ∧ u.slot = slot
  regs : u.regs.length = y.regs.length ∧ u.dead = 0#160
    ∧ ∀ n, n < y.regs.length → u.regs[n]? = some ((look n y.ckpt.regs).getD (zeroLanes y.tl))
  region : u.mask = y.ckpt.mask ∧ u.stack = y.ckpt.stack ∧ u.fibres = y.ckpt.fibres ∧ u.rng = y.ckpt.rng ∧ u.ckpt = y.ckpt
  goes : u.park = y.park ∧ u.pc = (if y.park = none then y.ckpt.head else y.pc) ∧ u.repIdx = 0 ∧ u.active = false
  kept : u.status = (if y.ckpt.taken then y.status else 0#32) ∧ u.pending = y.pending ∧ u.batches = y.batches
  void : u.latL = LaneLatches.empty ∧ u.latX = LaneLatches.empty ∧ u.latU = UniLatches.empty ∧ ∀ e ∈ u.ocache, e.2 = false
  sigs : u.sigW = ~~~0#512 ∧ u.sigE0 = 0#512 ∧ u.sigE1 = 0#512 ∧ u.sigE2 = 0#512

/-- R145: the block of a context is resident again on its seats, its block core numbers kept, with its shares, barriers and holdings,
and its teams restored. -/
def BlockRestored (s t : State) (x : SavedBlock) (cores : List Nat) (seats : List Seat) : Prop :=
  t.saved = s.saved.filter (fun y => !(y.block.q == x.block.q && y.block.seq == x.block.seq && y.block.idx == x.block.idx))
  ∧ (∃ b, t.blocks = s.blocks ++ [b] ∧ b.q = x.block.q ∧ b.seq = x.block.seq ∧ b.idx = x.block.idx ∧ b.cfg = x.block.cfg
    ∧ b.cores = cores ∧ b.tileBase = seats.map (·.unit) ∧ b.accBase = seats.map (·.row) ∧ b.bars = x.block.bars
    ∧ b.units = x.block.units ∧ b.accRuns = x.block.accRuns ∧ b.live = x.block.live)
  ∧ (∃ new, t.teams = s.teams ++ new ∧ List.Forall₂ (fun y u => TeamRestored y u (seatOf cores seats x.block.cfg.coresN y.key.num).1
      (seatOf cores seats x.block.cfg.coresN y.key.num).2.1 (seatOf cores seats x.block.cfg.coresN y.key.num).2.2) x.teams new)
  ∧ t.launches = s.launches ∧ HomesKept s t
  ∧ ∀ k c z, cores[k]? = some c → seats[k]? = some z → c < s.cores.length → rising (s.core c).tile = true →
      rising (s.core c).acc = true → rising (x.tile.getD k []) = true → rising (x.acc.getD k []) = true →
      (∀ o, o < 4096 * x.block.tileLen → (∀ e ∈ x.tile.getD k [], e.1 < 4096 * x.block.tileLen) →
        Memory.read (t.core c).tile (4096 * z.unit + o) = Memory.read (x.tile.getD k []) o)
      ∧ (∀ o, o < 128 * x.block.accLen → (∀ e ∈ x.acc.getD k [], e.1 < 128 * x.block.accLen) →
        look (128 * z.row + o) (t.core c).acc = look o (x.acc.getD k []))

/-- The lanes of the active teams of a partition (R138). -/
def lanesActive (s : State) (c part : Nat) : Nat :=
  ((s.teams.filter fun x => x.active && decide (x.coreNo = c) && decide (x.part = part)).map (·.tl)).sum

/-- A team is queued on a partition: it runs, and is not in the active set (R138). -/
def QueuedOn (x : Team) (c part : Nat) : Prop := x.park = none ∧ x.active = false ∧ x.coreNo = c ∧ x.part = part

/-- No TLB and no walk cache holds entries of a test. -/
def NoCachedTranslation (t : State) (p : TlbEntry → Bool) (q : WalkEntry → Bool) : Prop :=
  (∀ k ∈ t.cores, ∀ e ∈ k.tlb, p e = false) ∧ ∀ k ∈ t.dies, (∀ e ∈ k.tlb2, p e = false) ∧ ∀ e ∈ k.walks, q e = false

/-- The team waits in demand paging for a record that is not written yet. -/
def waitsForRecord (t : Team) : Bool := match t.park with
  | some (.pageFault _ _ _ _ none) => true
  | _ => false

/-- A lane instruction without prefixes. -/
def noPrefixes : LPre := ⟨none, none⟩

/-- Words written out from the encodings of the manual, and what they stand for: a number with the first word least
significant. -/
def sampleWords : List (Nat × Nat × Instr) :=
  [(32, 0x00000000, .nop noPrefixes), (32, 0x0105A500, .mov noPrefixes 0x05 0xA5), (32, 0x0605FFFF, .iaddi noPrefixes 0x05 0xFFFF),
    (32, 0x230605A4, .isetle noPrefixes 0x06 0x05 0xA4), (32, 0x48090201, .sfu noPrefixes 0x09 0x02 0x01),
    (32, 0x620308E1, .bxch noPrefixes 0x03 0x08 0xE1), (32, 0x63090300, .frdc noPrefixes 0x09 3)]

/-- More of them: control, registers, memory and barriers. -/
def sampleWords' : List (Nat × Nat × Instr) :=
  [(32, 0xAB000004, .loop 4), (32, 0xAEFFFFFD, .endloop 0xFFFFFD), (32, 0xAC060000, .brk 0x06), (32, 0xB0000000, .exit),
    (32, 0xB1000007, .trap 0x07), (32, 0xBA040000, .srd 0x04 0), (32, 0xC0060CFE, .uld 0x06 0x0C 0xFE),
    (32, 0xD4000600, .await 0x06), (32, 0xD3060000, .aseal 0x06)]

def longWords : List (Nat × Nat × Instr) :=
  [(192, 0xB4000000 + 0x3F4 * 2 ^ 32, .region 0x3F4), (64, 0xB5010000 + 0xFFFF0504 * 2 ^ 32, .ocld [0xFFFF0504]),
    (64, 0xB8140000 + 0x81000808 * 2 ^ 32, .alloc 0x14 true 512 64 8), (64, 0xC4000000 + 0x12 * 2 ^ 32, .fence .rel .quad),
    (64, 0xC5000503 + 0x2 * 2 ^ 32, .barInit 3 0x05), (64, 0xC6000405 + 0x3 * 2 ^ 32, .barx 0x04 0x05 .die),
    (64, 0x79040A00 + 0xB * 2 ^ 32, .ldx none 0x04 0x0A 0 false .acq .die),
    (64, 0x7B040AE1 + 0x1003 * 2 ^ 32, .atom none 0x04 0x0A 0xE1 ⟨0, true, .add, false, .rlx, .die⟩),
    (64, 0x7F07A400 + 0x74050A01 * 2 ^ 32, .stbm ⟨none, some ⟨0x07, 0xA4, false, 0, false, false, false, false⟩⟩ 0x05 0x0A 0x01)]

/-- The words that a team fetches from word `j` on (R214, R250). -/
def WordsAt (k : Nat) (t : Team) (pc : Nat) : List IWord → Nat → State → State → Prop
  | [], _, s, u => s = u
  | w :: ws, j, s, u => ∃ v, fetchWord s k t (pc + 4 * j) = (.ok w.bits, v) ∧ WordsAt k t pc ws (j + 1) v u

end Sys2Proof
end

