-- ==== Sys2Proof/Certificates/Slice0/Obligations.lean ====
section
/-! DEFINITION. Obligations: the statements for the provers. A statement that names several families is the conjunction of
their statements, which stand before it. -/

open Sys2Proof Sys2Proof.Machine

/-! ## Lane instructions that compute (R281 to R293) -/

/-- R281: NOP writes nothing, MOV copies its source, MOVI extends its immediate, MOVHI replaces the high half of D. -/
def Sys2Proof.LaneMovesWriteTheirSources : Prop :=
  ∀ (p : LPre) (d a : Byte) (i : BitVec 16),
    LaneGives (.nop p) p { Form.of .l .field .field .field with writes := false, pfx := false } 0 0 0 0
        ⟨none, none, none, none⟩ (fun _ => (0, FFlags.none))
    ∧ LaneGives1 (.mov p d a) p d a (fun x => x)
    ∧ LaneGives (.movi p d i) p (Form.of .l (.dst 1) .field .field) d.toNat 0 0 1 ⟨none, none, none, none⟩
        (fun _ => ((i.signExtend 32).toNat, FFlags.none))
    ∧ LaneGives (.movhi p d i) p (Form.of .l (.rmw 1) .field .field) d.toNat 0 0 1 ⟨none, none, none, some .i32⟩
        (fun x => ((i ++ (BitVec.ofNat 16 x.d)).toNat, FFlags.none))

/-- R281 and R282: the exact sums, differences and products, clamped under SAT and wrapped without. -/
def Sys2Proof.LaneSumsAndProductsSaturate : Prop :=
  ∀ (p : LPre) (d a b : Byte) (i : BitVec 16),
    (∀ j f, (j, f) ∈ [(Instr.iadd p d a b, fun x y : Int => x + y), (.isub p d a b, fun x y => x - y),
        (.imul p d a b, fun x y => x * y)] →
      LaneGives j p { Form.of .l (.dst 1) (.src 1) (.src 1) with sat := true } d.toNat a.toNat b.toNat 1
        ⟨some .i32, some .i32, none, none⟩
        (fun x => ((satWord 32 (satBit p) (f (BitVec.ofNat 32 x.a).toInt (BitVec.ofNat 32 x.b).toInt)).toNat, FFlags.none)))
    ∧ LaneGives (.iaddi p d i) p { Form.of .l (.rmw 1) .field .field with sat := true } d.toNat 0 0 1
        ⟨none, none, none, some .i32⟩
        (fun x => ((satWord 32 (satBit p) ((BitVec.ofNat 32 x.d).toInt + i.toInt)).toNat, FFlags.none))
    ∧ LaneGives (.imad p d a b) p { Form.of .l (.dst 1) (.src 1) (.src 1) with sat := true, c := .src 1 }
        d.toNat a.toNat b.toNat 1 ⟨some .i32, some .i32, some .i32, none⟩
        (fun x => ((satWord 32 (satBit p) ((BitVec.ofNat 32 x.a).toInt * (BitVec.ofNat 32 x.b).toInt
          + (BitVec.ofNat 32 x.c).toInt)).toNat, FFlags.none))
    ∧ LaneGives (.iadd64 p d a b) p { Form.of .l (.dst 2) (.src 2) (.src 2) with sat := true } d.toNat a.toNat b.toNat 2
        ⟨some .i64, some .i64, none, none⟩
        (fun x => ((satWord 64 (satBit p) ((BitVec.ofNat 64 x.a).toInt + (BitVec.ofNat 64 x.b).toInt)).toNat, FFlags.none))

/-- R281: the high halves of products, and the signed and unsigned least and greatest. -/
def Sys2Proof.LaneHighProductsAndExtremes : Prop :=
  ∀ (p : LPre) (d a b : Byte),
    LaneGives2 (.imulhi p d a b) p d a b (fun x y => (x.signExtend 64 * y.signExtend 64).extractLsb' 32 32)
    ∧ LaneGives2 (.umulhi p d a b) p d a b (fun x y => (x.setWidth 64 * y.setWidth 64).extractLsb' 32 32)
    ∧ LaneGives2 (.imin p d a b) p d a b (fun x y => if x.toInt ≤ y.toInt then x else y)
    ∧ LaneGives2 (.imax p d a b) p d a b (fun x y => if y.toInt ≤ x.toInt then x else y)
    ∧ LaneGives2 (.umin p d a b) p d a b (fun x y => if x.toNat ≤ y.toNat then x else y)
    ∧ LaneGives2 (.umax p d a b) p d a b (fun x y => if y.toNat ≤ x.toNat then x else y)

/-- Lane moves, sums, products and extremes (R281, R282, R152). The model's own choices in it: log entry 17. -/
def Obligations.LaneIntegerArithmetic : Prop :=
  LaneMovesWriteTheirSources ∧ LaneSumsAndProductsSaturate ∧ LaneHighProductsAndExtremes

/-- R283: the logic and shift forms; a shift of 32 or more gives 0, or the sign. -/
def Sys2Proof.LaneLogicAndShifts : Prop :=
  ∀ (p : LPre) (d a b : Byte),
    LaneGives2 (.and p d a b) p d a b (fun x y => x &&& y)
    ∧ LaneGives2 (.or p d a b) p d a b (fun x y => x ||| y)
    ∧ LaneGives2 (.xor p d a b) p d a b (fun x y => x ^^^ y)
    ∧ LaneGives2 (.andn p d a b) p d a b (fun x y => x &&& ~~~y)
    ∧ LaneGives2 (.shl p d a b) p d a b (fun x y => x <<< y.toNat)
    ∧ LaneGives2 (.shr p d a b) p d a b (fun x y => x >>> y.toNat)
    ∧ LaneGives2 (.sar p d a b) p d a b (fun x y => x.sshiftRight y.toNat)
    ∧ LaneGives2 (.rotl p d a b) p d a b (fun x y => x.rotateLeft (y.toNat % 32))

/-- R284 and R285: bit fields, selection, counts, reversal and byte permutation. -/
def Sys2Proof.LaneBitFieldsAndPermutation : Prop :=
  ∀ (p : LPre) (d a b : Byte),
    LaneGives2 (.bfx p d a b) p d a b (fun x y => (x >>> bfPos y.toNat) &&& ((1#32 <<< bfLen y.toNat) - 1#32))
    ∧ LaneGives2 (.bfxs p d a b) p d a b (fun x y =>
        ((x.sshiftRight (bfPos y.toNat)).setWidth (bfLen y.toNat)).signExtend 32)
    ∧ LaneGivesD (.bfi p d a b) p d a b (fun z x y =>
        (z &&& ~~~(((1#32 <<< bfLen y.toNat) - 1#32) <<< bfPos y.toNat))
          ||| ((x <<< bfPos y.toNat) &&& (((1#32 <<< bfLen y.toNat) - 1#32) <<< bfPos y.toNat)))
    ∧ LaneGivesD (.sel p d a b) p d a b (fun z x y => if z.getLsbD 0 then x else y)
    ∧ LaneGives1 (.popc p d a) p d a (fun x => BitVec.ofNat 32 ((List.range 32).countP x.getLsbD))
    ∧ LaneGives1 (.clz p d a) p d a (fun x => BitVec.ofNat 32 (((List.range 32).map fun i => x.getLsbD (31 - i)).takeWhile (!·)).length)
    ∧ LaneGives1 (.brev p d a) p d a (fun x => x.reverse)
    ∧ LaneGives (.prmt p d a b) p { Form.of .l (.dst 1) (.src 1) (.src 1) with c := .src 1 } d.toNat a.toNat b.toNat 1
        ⟨some .i32, some .i32, some .i32, none⟩
        (fun x =>
          let w : BitVec 64 := BitVec.ofNat 32 x.c ++ BitVec.ofNat 32 x.a
          let byte (i : Nat) : Byte :=
            let y := w.extractLsb' (8 * (fieldOf x.b (4 * i) 4 % 8)) 8
            if x.b.testBit (4 * i + 3) then (if y.getLsbD 7 then 0xFF#8 else 0x00#8) else y
          ((byte 3 ++ byte 2 ++ byte 1 ++ byte 0).toNat, FFlags.none))

/-- Lane logic, shifts, bit fields and byte permutation (R283, R284, R285). The model's own choices in it: log entry
17. -/
def Obligations.LaneLogicShiftsAndBitFields : Prop :=
  LaneLogicAndShifts ∧ LaneBitFieldsAndPermutation

/-- R286: the integer compares give 1 where their test holds and 0 elsewhere, and set no STATUS bit. -/
def Sys2Proof.LaneIntegerCompares : Prop :=
  ∀ (p : LPre) (d a b : Byte),
    LaneGives2 (.iseteq p d a b) p d a b (fun x y => boolWord (x == y))
    ∧ LaneGives2 (.isetne p d a b) p d a b (fun x y => boolWord (x != y))
    ∧ LaneGives2 (.isetlt p d a b) p d a b (fun x y => boolWord (x.slt y))
    ∧ LaneGives2 (.isetle p d a b) p d a b (fun x y => boolWord (x.sle y))
    ∧ LaneGives2 (.usetlt p d a b) p d a b (fun x y => boolWord (x.ult y))
    ∧ LaneGives2 (.usetle p d a b) p d a b (fun x y => boolWord (x.ule y))

/-- R286: the floating-point compares: a NaN operand fails every test but FSETNE and FSETUN, a signalling NaN sets NV, and
so does a quiet one in FSETLT and FSETLE. -/
def Sys2Proof.LaneFloatCompares : Prop :=
  ∀ (p : LPre) (d a b : Byte),
    let nan (x y : Nat) : Bool := (Fmt.fp32.read x).isNan || (Fmt.fp32.read y).isNan
    let snan (x y : Nat) : Bool := (Fmt.fp32.read x).isSnan || (Fmt.fp32.read y).isSnan
    let less (x y : Nat) : Bool := (Fmt.fp32.read x).lt (Fmt.fp32.read y)
    let gives (i : Instr) (test nv : Nat → Nat → Bool) : Prop :=
      LaneGivesF i p .l d a b .f32 1 false fun x y => (if test x y then 1 else 0, { FFlags.none with nv := nv x y })
    gives (.fseteq p d a b) (fun x y => !nan x y && !less x y && !less y x) snan
    ∧ gives (.fsetne p d a b) (fun x y => nan x y || less x y || less y x) snan
    ∧ gives (.fsetlt p d a b) (fun x y => !nan x y && less x y) nan
    ∧ gives (.fsetle p d a b) (fun x y => !nan x y && !less y x) nan
    ∧ gives (.fsetun p d a b) nan snan

/-- The compare forms write 1 when their test holds and 0 otherwise (R286). The model's own choices in it: log entry
17. -/
def Obligations.LaneComparesGiveTheirTests : Prop :=
  LaneIntegerCompares ∧ LaneFloatCompares

/-- R287 and R288: FP32 arithmetic, with one rounding by MODE() and SATBIT(); the sign forms and FCLASS work on the bits. -/
def Sys2Proof.LaneFp32Arithmetic : Prop :=
  ∀ (p : LPre) (d a b : Byte),
    let m := modeOf p
    let sat := satBit p
    let rd := Fmt.fp32.read
    LaneGivesF (.fadd p d a b) p .l d a b .f32 1 true (fun x y => Fmt.fp32.addF m sat (rd x) (rd y))
    ∧ LaneGivesF (.fsub p d a b) p .l d a b .f32 1 true (fun x y => Fmt.fp32.addF m sat (rd x) (rd y).negate)
    ∧ LaneGivesF (.fmul p d a b) p .l d a b .f32 1 true (fun x y => Fmt.fp32.mulF m sat (rd x) (rd y))
    ∧ LaneGivesF3 (.ffma p d a b) p .l d a b .f32 .f32 (fun x y z => Fmt.fp32.fmaF m sat (rd x) (rd y) (rd z))
    ∧ LaneGivesF (.fmin p d a b) p .l d a b .f32 1 false (Fmt.fp32.minMax false)
    ∧ LaneGivesF (.fmax p d a b) p .l d a b .f32 1 false (Fmt.fp32.minMax true)
    ∧ LaneGives (.fscale p d a b) p { Form.of .l (.dst 1) (.src 1) (.src 1) with rounds := true, sat := true }
        d.toNat a.toNat b.toNat 1 ⟨some .f32, some .i32, none, none⟩ (fun x => fltScale m sat x.a x.b)
    ∧ LaneGives1 (.fabs p d a) p d a (fun x => x &&& 0x7FFFFFFF#32)
    ∧ LaneGives1 (.fneg p d a) p d a (fun x => x ^^^ 0x80000000#32)
    ∧ LaneGives (.fclass p d a) p (Form.of .l (.dst 1) (.src 1) .field) d.toNat a.toNat 0 1 ⟨some .f32, none, none, none⟩
        (fun x => (2 ^ fclassBit x.a, FFlags.none))

/-- R289: the packed forms act on the two halves apart and OR their flags; FDOT2 rounds its sum of two products once. -/
def Sys2Proof.LanePackedArithmetic : Prop :=
  ∀ (p : LPre) (d a b : Byte),
    let m := modeOf p
    let sat := satBit p
    let two (f : Nat → Nat → Nat × FFlags) (x y : Nat) : Nat × FFlags :=
      ((f (x % 2 ^ 16) (y % 2 ^ 16)).1 + 2 ^ 16 * (f (x / 2 ^ 16) (y / 2 ^ 16)).1,
        (f (x % 2 ^ 16) (y % 2 ^ 16)).2.or (f (x / 2 ^ 16) (y / 2 ^ 16)).2)
    let three (f : Nat → Nat → Nat → Nat × FFlags) (x y z : Nat) : Nat × FFlags :=
      ((f (x % 2 ^ 16) (y % 2 ^ 16) (z % 2 ^ 16)).1 + 2 ^ 16 * (f (x / 2 ^ 16) (y / 2 ^ 16) (z / 2 ^ 16)).1,
        (f (x % 2 ^ 16) (y % 2 ^ 16) (z % 2 ^ 16)).2.or (f (x / 2 ^ 16) (y / 2 ^ 16) (z / 2 ^ 16)).2)
    let fma (f : Fmt) (x y z : Nat) : Nat × FFlags := f.fmaF m sat (f.read x) (f.read y) (f.read z)
    LaneGivesF (.hadd2 p d a b) p .l d a b .h16 1 true
        (two fun x y => Fmt.fp16.addF m sat (Fmt.fp16.read x) (Fmt.fp16.read y))
    ∧ LaneGivesF (.hmul2 p d a b) p .l d a b .h16 1 true
        (two fun x y => Fmt.fp16.mulF m sat (Fmt.fp16.read x) (Fmt.fp16.read y))
    ∧ LaneGivesF3 (.hfma2 p d a b) p .l d a b .h16 .h16 (three (fma .fp16))
    ∧ LaneGivesF3 (.bfma2 p d a b) p .l d a b .hbf .hbf (three (fma .bf16))
    ∧ LaneGivesF3 (.fdot2 p d a b) p .l d a b .h16 .f32 (fltDot2 m sat)

/-- R291: the FP64 forms. -/
def Sys2Proof.LaneFp64Arithmetic : Prop :=
  ∀ (p : LPre) (d a b : Byte),
    let m := modeOf p
    let sat := satBit p
    let rd := Fmt.fp64.read
    LaneGivesF (.dadd p d a b) p .x d a b .f64 2 true (fun x y => Fmt.fp64.addF m sat (rd x) (rd y))
    ∧ LaneGivesF (.dmul p d a b) p .x d a b .f64 2 true (fun x y => Fmt.fp64.mulF m sat (rd x) (rd y))
    ∧ LaneGivesF3 (.dfma p d a b) p .x d a b .f64 .f64 (fun x y z => Fmt.fp64.fmaF m sat (rd x) (rd y) (rd z))
    ∧ LaneGivesF (.dmin p d a b) p .x d a b .f64 2 false (Fmt.fp64.minMax false)
    ∧ LaneGivesF (.dmax p d a b) p .x d a b .f64 2 false (Fmt.fp64.minMax true)
    ∧ LaneGivesF (.dsetlt p d a b) p .x d a b .f64 1 false (fun x y =>
        (if !(rd x).isNan && !(rd y).isNan && (rd x).lt (rd y) then 1 else 0,
          { FFlags.none with nv := (rd x).isNan || (rd y).isNan }))
    ∧ LaneGivesF (.dseteq p d a b) p .x d a b .f64 1 false (fun x y =>
        (if !(rd x).isNan && !(rd y).isNan && !(rd x).lt (rd y) && !(rd y).lt (rd x) then 1 else 0,
          { FFlags.none with nv := (rd x).isSnan || (rd y).isSnan }))

/-- R232, R238, R241: the values of the patterns of the wide formats, an infinity delivered to them, their default NaNs, and NAN_OUT: the first
NaN source, quiet, with its sign and its leading payload bits. -/
def Sys2Proof.WideFormatsHaveTheirValues : Prop := ∀ f ∈ [Fmt.fp64, .fp32, .fp16, .bf16], ∀ bits, bits < 2 ^ f.width →
  ∀ S E F : Nat, bits = S * 2 ^ (f.ebits + f.fbits) + E * 2 ^ f.fbits + F → S < 2 → E < 2 ^ f.ebits → F < 2 ^ f.fbits →
  (E = 2 ^ f.ebits - 1 → F = 0 → f.read bits = .inf (S == 1))
  ∧ (E = 2 ^ f.ebits - 1 → F ≠ 0 → f.read bits = .nan (S == 1) (decide (2 ^ (f.fbits - 1) ≤ F)) F f.fbits
    ∧ ∀ g ∈ [Fmt.fp64, .fp32, .fp16, .bf16], ∀ xs ys, xs.any FVal.isNan = false → g.nanOut (xs ++ f.read bits :: ys)
      = S * 2 ^ (g.ebits + g.fbits) + (2 ^ g.ebits - 1) * 2 ^ g.fbits
        + ((if f.fbits ≤ g.fbits then F * 2 ^ (g.fbits - f.fbits) else F / 2 ^ (f.fbits - g.fbits)) ||| 2 ^ (g.fbits - 1)))
  ∧ (E ≠ 2 ^ f.ebits - 1 → (f.read bits).isNan = false ∧ (f.read bits).isInf = false ∧ (f.read bits).sign = (S == 1)
    ∧ (f.read bits).exact = (-1) ^ S * (if E = 0 then (2 : ℚ) ^ ((1 : ℤ) - (2 ^ (f.ebits - 1) - 1)) * (F / 2 ^ f.fbits)
      else (2 : ℚ) ^ ((E : ℤ) - (2 ^ (f.ebits - 1) - 1)) * (1 + F / 2 ^ f.fbits)))
  ∧ (∀ m sat n, f.roundInf m sat n = (f.infBits n, FFlags.none) ∧ f.infBits n = f.signBit n + (2 ^ f.ebits - 1) * 2 ^ f.fbits)
  ∧ f.nanOut [] = (if f = .fp64 then 0x7FF8000000000000 else if f = .fp32 then 0x7FC00000 else if f = .fp16 then 0x7E00 else 0x7FC0)

/-- R240, R241, R287, R289, R291: sums, products and fused products of the wide formats: the exact result rounded once, the sign of an exact
zero, infinities, invalid operations and NaN sources. -/
def Sys2Proof.SumsAndProductsRoundOnce : Prop := ∀ f ∈ [Fmt.fp64, .fp32, .fp16, .bf16], ∀ m sat a b c x y z,
  x = f.read a → y = f.read b → z = f.read c →
  (x.isNan = true ∨ y.isNan = true → f.addF m sat x y = f.nanGiven [x, y] ∧ f.mulF m sat x y = f.nanGiven [x, y])
  ∧ (∀ n k, x = .inf n → y = .inf k → f.addF m sat x y = if n = k then (f.infBits n, FFlags.none) else (f.nanBits false, FFlags.invalid))
  ∧ (∀ n k v, x = .inf n ∧ y = .fin k v ∨ x = .fin k v ∧ y = .inf n → f.addF m sat x y = (f.infBits n, FFlags.none))
  ∧ (∀ n k v w, x = .fin n v → y = .fin k w →
    f.addF m sat x y = f.roundExact m sat (if x.exact = 0 ∧ y.exact = 0 ∧ n = k then n else m == .rd) (x.exact + y.exact)
    ∧ f.mulF m sat x y = f.roundExact m sat (n != k) (x.exact * y.exact))
  ∧ (zeroTimesInf x y = true → f.mulF m sat x y = (f.nanBits false, FFlags.invalid)
    ∧ (z.isNan = false → f.fmaF m sat x y z = (f.nanBits false, FFlags.invalid))
    ∧ (z.isNan = true → f.fmaF m sat x y z = (f.nanOut [z], FFlags.invalid)))
  ∧ (x.isNan = false → y.isNan = false → x.isInf = true ∨ y.isInf = true → zeroTimesInf x y = false →
    f.mulF m sat x y = (f.infBits (x.sign != y.sign), FFlags.none)
    ∧ (z.isNan = false → f.fmaF m sat x y z = if z = .inf (x.sign == y.sign) then (f.nanBits false, FFlags.invalid)
      else (f.infBits (x.sign != y.sign), FFlags.none)))
  ∧ (zeroTimesInf x y = false → x.isNan = true ∨ y.isNan = true ∨ z.isNan = true → f.fmaF m sat x y z = f.nanGiven [x, y, z])
  ∧ (∀ n k v w, x = .fin n v → y = .fin k w →
    (∀ i, z = .inf i → f.fmaF m sat x y z = (f.infBits i, FFlags.none))
    ∧ ∀ i u, z = .fin i u → f.fmaF m sat x y z = f.roundExact m sat
      (if x.exact * y.exact = 0 ∧ z.exact = 0 ∧ (n != k) = i then i else m == .rd) (x.exact * y.exact + z.exact))

/-- R288: FMIN and FMAX of patterns, −0 below +0, the other operand of one NaN and NAN_OUT of two; and FCLASS's bits. -/
def Sys2Proof.ExtremesAndClasses : Prop :=
  (∀ f ∈ [Fmt.fp64, .fp32], ∀ a b x y, x = f.read a → y = f.read b → ∀ big : Bool,
    (f.minMax big a b).2 = { FFlags.none with nv := x.isSnan || y.isSnan }
    ∧ (x.isNan = true → y.isNan = true → (f.minMax big a b).1 = f.nanOut [x, y])
    ∧ (x.isNan = true → y.isNan = false → (f.minMax big a b).1 = b) ∧ (x.isNan = false → y.isNan = true → (f.minMax big a b).1 = a)
    ∧ (∀ n, x = .inf n → y.isNan = false → y ≠ .inf n → (f.minMax big a b).1 = if n = big then b else a)
    ∧ (∀ n k v, x = .fin k v → y = .inf n → (f.minMax big a b).1 = if n = big then a else b)
    ∧ (x = y → a < 2 ^ f.width → b < 2 ^ f.width → (f.minMax big a b).1 = a ∧ a = b ∨ x.isNan = true)
    ∧ ∀ n k v w, x = .fin n v → y = .fin k w →
      (x.exact < y.exact ∨ x.exact = y.exact ∧ n = true ∧ k = false → (f.minMax big a b).1 = if big then b else a)
      ∧ (y.exact < x.exact ∨ x.exact = y.exact ∧ n = false ∧ k = true → (f.minMax big a b).1 = if big then a else b))
  ∧ ∀ a x, x = Fmt.fp32.read a →
    (∀ n q fr fb, x = .nan n q fr fb → fclassBit a = if q then 1 else 0) ∧ (∀ n, x = .inf n → fclassBit a = if n then 2 else 9)
    ∧ ∀ n v, x = .fin n v →
      (x.exact = 0 → fclassBit a = if n then 5 else 6)
      ∧ (x.exact ≠ 0 → |x.exact| < (2 : ℚ) ^ (-126 : ℤ) → fclassBit a = if n then 4 else 7)
      ∧ ((2 : ℚ) ^ (-126 : ℤ) ≤ |x.exact| → fclassBit a = if n then 3 else 8)

/-- R241, R287, R289: FSCALE and FDOT2: the exact result rounded once; FSCALE leaves ±0 and ±∞; a product 0 × ∞ and infinite terms of opposite
sign make FDOT2 invalid. Where a source is NaN as well, FDOT2 gives NAN_OUT: log entry 93. -/
def Sys2Proof.ScalesAndDotProductsRoundOnce : Prop := ∀ m sat,
  (∀ a b x, x = Fmt.fp32.read a →
    (x.isNan = true → fltScale m sat a b = Fmt.fp32.nanGiven [x]) ∧ (x.isInf = true ∨ x.isZero = true → fltScale m sat a b = (a, FFlags.none))
    ∧ ∀ n v, x = .fin n v → x.exact ≠ 0 →
      fltScale m sat a b = Fmt.fp32.roundExact m sat n (x.exact * (2 : ℚ) ^ (BitVec.ofNat 32 b).toInt))
  ∧ ∀ a b c x0 x1 y0 y1 z, x0 = Fmt.fp16.read (a % 2 ^ 16) → x1 = Fmt.fp16.read (a / 2 ^ 16) → y0 = Fmt.fp16.read (b % 2 ^ 16) →
    y1 = Fmt.fp16.read (b / 2 ^ 16) → z = Fmt.fp32.read c → ∀ infs : Bool → Prop,
    (∀ n, infs n ↔ (x0.isInf = true ∨ y0.isInf = true) ∧ (x0.sign != y0.sign) = n ∨ (x1.isInf = true ∨ y1.isInf = true) ∧ (x1.sign != y1.sign) = n
      ∨ z = .inf n) →
    ([x0, x1, y0, y1, z].any FVal.isNan = true → (fltDot2 m sat a b c).1 = Fmt.fp32.nanOut [x0, x1, y0, y1, z]
      ∧ ([x0, x1, y0, y1, z].any FVal.isSnan = true → (fltDot2 m sat a b c).2 = FFlags.invalid))
    ∧ ([x0, x1, y0, y1, z].any FVal.isNan = false →
      (zeroTimesInf x0 y0 = true ∨ zeroTimesInf x1 y1 = true ∨ infs true ∧ infs false →
        fltDot2 m sat a b c = (0x7FC00000, FFlags.invalid))
      ∧ (zeroTimesInf x0 y0 = false → zeroTimesInf x1 y1 = false →
        (∀ n, infs n → ¬ infs (!n) → fltDot2 m sat a b c = (Fmt.fp32.infBits n, FFlags.none))
        ∧ ((∀ n, ¬ infs n) → fltDot2 m sat a b c = Fmt.fp32.roundExact m sat
          (if x0.exact * y0.exact = 0 ∧ x1.exact * y1.exact = 0 ∧ z.exact = 0 ∧ (x0.sign != y0.sign) = z.sign ∧ (x1.sign != y1.sign) = z.sign
            then z.sign else m == .rd)
          (x0.exact * y0.exact + x1.exact * y1.exact + z.exact))))

/-- FP32, packed 16-bit and FP64 lane arithmetic (R287, R288, R289, R291). The model's own choices in it: log entries
17, 93. -/
def Obligations.LaneFloatingPointArithmetic : Prop :=
  LaneFp32Arithmetic ∧ LanePackedArithmetic ∧ LaneFp64Arithmetic ∧ WideFormatsHaveTheirValues ∧ SumsAndProductsRoundOnce ∧ ExtremesAndClasses
    ∧ ScalesAndDotProductsRoundOnce

/-- R242, R243, R290: CVT with a selector of the table, and SFU with a function number of 0 to 8, write their results. -/
def Sys2Proof.ConversionsAndFunctionsAreWritten : Prop :=
  ∀ (p : LPre) (d a n : Byte),
    (∀ c, cvtShape n.toNat = some c →
      let dw := if c.d64 then 2 else 1
      LaneGives (.cvt p d a n) p { Form.of .x (if c.merge then .rmw dw else .dst dw) (.src (if c.a64 then 2 else 1)) .field with
          rounds := true, sat := true, c := if c.usesC then .src 1 else .field } d.toNat a.toNat 0 dw
        ⟨some (cvtKind n.toNat), none, if c.usesC then some .f32 else none, if c.merge then some .i32 else none⟩
        (fun x => cvt n.toNat (modeOf p) (satBit p) x.a x.c x.d))
    ∧ (n.toNat ≤ 8 → LaneGives (.sfu p d a n) p { Form.of .x (.dst 1) (.src 1) .field with rounds := true } d.toNat a.toNat 0 1
        ⟨some .f32, none, none, none⟩ (fun x => sfu n.toNat x.a))

/-- R242: what each selector of CVT gives of what it reads: integers to and from FP32 and FP64, the halves and elements widened, FP32 and FP64
rounded once to a narrower format, and the elements written, with the other bits of D kept where the selector merges. -/
def Sys2Proof.ConversionsGiveTheTable : Prop := ∀ m sat a c d x, x = Fmt.fp32.read (a % 2 ^ 32) →
  cvt 0x00 m sat a c d = Fmt.fp32.roundExact m sat false ((BitVec.ofNat 32 a).toInt : ℚ)
  ∧ cvt 0x01 m sat a c d = Fmt.fp32.roundExact m sat false ((a % 2 ^ 32 : Nat) : ℚ)
  ∧ ToInteger m (-2 ^ 31) (2 ^ 31 - 1) x (cvt 0x02 m sat a c d) ∧ ToInteger m 0 (2 ^ 32 - 1) x (cvt 0x03 m sat a c d)
  ∧ (∀ h, h < 2 → ∀ y z, y = Fmt.fp16.read (a / 2 ^ (16 * h) % 2 ^ 16) → z = Fmt.bf16.read (a / 2 ^ (16 * h) % 2 ^ 16) →
    WidensTo .fp32 y (Fmt.fp32.nanGiven [y]) (cvt (0x04 + h) m sat a c d)
    ∧ WidensTo .fp32 z (Fmt.fp32.nanGiven [z]) (cvt (0x06 + h) m sat a c d))
  ∧ (∀ s f, (s, f) ∈ [(0x08, Fmt.fp16), (0x09, Fmt.bf16)] → ∃ r q, ConvertsTo f m sat x r ∧ ConvertsTo f m sat (Fmt.fp32.read c) q
    ∧ cvt s m sat a c d = (r.1 + 2 ^ 16 * q.1, r.2.or q.2))
  ∧ WidensTo .fp64 x (Fmt.fp64.nanGiven [x]) (cvt 0x0A m sat a c d)
  ∧ ConvertsTo .fp32 m sat (Fmt.fp64.read a) (cvt 0x0B m sat a c d)
  ∧ WidensTo .fp64 (.fin (decide ((BitVec.ofNat 32 a).toInt < 0)) ⟨(BitVec.ofNat 32 a).toInt, 0⟩) (0, FFlags.none) (cvt 0x0C m sat a c d)
  ∧ ToInteger m (-2 ^ 31) (2 ^ 31 - 1) (Fmt.fp64.read a) (cvt 0x0D m sat a c d)
  ∧ (∀ s n f w b k, (s, n, f, w, b) ∈ widenings → k < n → ∀ y, y = f.read (a / 2 ^ (w * k) % 2 ^ b) →
    WidensTo .fp32 y (Fmt.fp32.signBit y.sign + 0x7FC00000, FFlags.none) (cvt (s + k) m sat a c d))
  ∧ (∀ s n f w k, (s, n, f, w) ∈ narrowings → k < n →
    ∃ r, NarrowsTo f m sat x r ∧ Merges d (w * k) w r.1 (cvt (s + k) m sat a c d).1 ∧ (cvt (s + k) m sat a c d).2 = r.2)
  ∧ (∀ s n w lo hi k, (s, n, w, lo, hi) ∈ intNarrowings → k < n → ∀ i j, i = (BitVec.ofNat 32 a).toInt → j = max lo (min hi i) →
    Merges d (w * k) w (BitVec.ofInt w (if sat then j else i)).toNat (cvt (s + k) m sat a c d).1
    ∧ (cvt (s + k) m sat a c d).2 = { FFlags.none with nv := i != j })
  ∧ (∀ s n w signed k, (s, n, w, signed) ∈ intWidenings → k < n → ∀ y : BitVec w, y = BitVec.ofNat w (a / 2 ^ (w * k)) →
    cvt (s + k) m sat a c d = ((if signed then y.signExtend 32 else y.zeroExtend 32).toNat, FFlags.none))
  ∧ (a % 256 = 255 → cvt 0x80 m sat a c d = (0x7FC00000, FFlags.none))
  ∧ (a % 256 ≠ 255 → (cvt 0x80 m sat a c d).2 = FFlags.none
    ∧ (Fmt.fp32.read (cvt 0x80 m sat a c d).1).exact = (2 : ℚ) ^ (((a % 256 : Nat) : Int) - 127))
  ∧ (x.isNan = true → cvt 0x81 m sat a c d = (0xFF, FFlags.invalid))
  ∧ (∀ n, x = .inf n → cvt 0x81 m sat a c d = (if sat then if n then 0 else 0xFE else 0xFF, FFlags.invalid))
  ∧ (∀ n v, x = .fin n v → x.exact ≤ 0 → cvt 0x81 m sat a c d = (if sat then 0 else 0xFF, FFlags.invalid))
  ∧ (∀ n v e r, x = .fin n v → (2 : ℚ) ^ (e : Int) ≤ x.exact → x.exact < (2 : ℚ) ^ (e + 1) →
    r = (if m = .ru ∧ x.exact ≠ (2 : ℚ) ^ e ∨ (m = .rne ∨ m = .rna) ∧ 3 / 2 * (2 : ℚ) ^ e ≤ x.exact then e + 1 else e) →
    cvt 0x81 m sat a c d = if 127 < r then (if sat then 0xFE else 0xFF, ⟨false, false, true, false, true⟩)
      else if r < -127 then (0, ⟨false, false, false, true, true⟩)
      else ((r + 127).toNat, { FFlags.none with nx := decide (x.exact ≠ (2 : ℚ) ^ r) }))
  ∧ (a % 128 = 127 → cvt 0x82 m sat a c d = (0x7FC00000, FFlags.none))
  ∧ (a % 128 ≠ 127 → WidensTo .fp32 (Fmt.e4m3.read (a % 128)) (0, FFlags.none) (cvt 0x82 m sat a c d))
  ∧ (x.isNan = true ∨ x.sign = true → cvt 0x83 m sat a c d = (0x7F, FFlags.invalid))
  ∧ (∀ v, x = .inf false ∨ x = .fin false v ∧ (Fmt.e4m3.roundExact m sat false x.exact).2.of = true →
    cvt 0x83 m sat a c d = (if sat then 0x7E else 0x7F, ⟨false, false, true, false, true⟩))
  ∧ (∀ v, x = .fin false v → (Fmt.e4m3.roundExact m sat false x.exact).2.of = false →
    cvt 0x83 m sat a c d = Fmt.e4m3.roundExact m sat false x.exact)

/-- R241, R243: the special cases of the special functions: NaN, infinities, zeros and negative operands. -/
def Sys2Proof.FunctionsHaveTheirSpecialCases : Prop := ∀ x v, x < 2 ^ 32 → v = Fmt.fp32.read x →
  let dz : FFlags := { FFlags.none with dz := true }
  let nan : Nat × FFlags := (0x7FC00000, FFlags.invalid)
  (∀ fn, fn ≤ 8 → v.isNan = true → sfu fn x = Fmt.fp32.nanGiven [v])
  ∧ (x = 0x7F800000 → ∀ fn r, (fn, r) ∈ [(0, (0x00000000, FFlags.none)), (1, (0x00000000, FFlags.none)), (2, (x, FFlags.none)),
      (3, (x, FFlags.none)), (4, (x, FFlags.none)), (5, nan), (6, nan), (7, (0x3F800000, FFlags.none)), (8, (0x3F800000, FFlags.none))] →
    sfu fn x = r)
  ∧ (x = 0xFF800000 → ∀ fn r, (fn, r) ∈ [(0, (0x80000000, FFlags.none)), (1, nan), (2, nan), (3, (0x00000000, FFlags.none)), (4, nan),
      (5, nan), (6, nan), (7, (0xBF800000, FFlags.none)), (8, (0x00000000, FFlags.none))] → sfu fn x = r)
  ∧ (x = 0x00000000 → ∀ fn r, (fn, r) ∈ [(0, (0x7F800000, dz)), (1, (0x7F800000, dz)), (2, (x, FFlags.none)), (3, (0x3F800000, FFlags.none)),
      (4, (0xFF800000, dz)), (5, (x, FFlags.none)), (7, (x, FFlags.none))] → sfu fn x = r)
  ∧ (x = 0x80000000 → ∀ fn r, (fn, r) ∈ [(0, (0xFF800000, dz)), (1, (0xFF800000, dz)), (2, (x, FFlags.none)), (3, (0x3F800000, FFlags.none)),
      (4, (0xFF800000, dz)), (5, (x, FFlags.none)), (7, (x, FFlags.none))] → sfu fn x = r)
  ∧ (∀ w, v = .fin true w → v.exact ≠ 0 → sfu 1 x = nan ∧ sfu 2 x = nan ∧ sfu 4 x = nan)
  ∧ (x = 0x3F800000 → sfu 4 x = (0x00000000, FFlags.none))

/-- R243: the reciprocal and the reciprocal root lie within 1 ulp of the exact result, and the root is correctly rounded. NX tells whether the
result is exact. Which value within the bound is delivered is free: log entry 6. -/
def Sys2Proof.ReciprocalsAndRootsMeetTheirBounds : Prop := ∀ x v n w q, x < 2 ^ 32 → v = Fmt.fp32.read x → v = .fin n w → q = v.exact → q ≠ 0 →
  ((2 : ℚ) ^ (128 : Int) - (2 : ℚ) ^ (103 : Int) ≤ |1 / q| → sfu 0 x = (Fmt.fp32.infBits n, ⟨false, false, true, false, true⟩))
  ∧ (∀ e : Int, |1 / q| < (2 : ℚ) ^ (128 : Int) - (2 : ℚ) ^ (103 : Int) → (2 : ℚ) ^ e ≤ |1 / q| → |1 / q| < (2 : ℚ) ^ (e + 1) →
    NearTo (sfu 0 x).1 ((1 / q : ℚ) : ℝ) (ulpOf e : ℝ) ∧ ∀ r, r = (Fmt.fp32.read (sfu 0 x).1).exact →
      (sfu 0 x).2 = ⟨false, false, false, decide (r * q ≠ 1 ∧ e < -126), decide (r * q ≠ 1)⟩)
  ∧ (0 < q → (∀ e : Int, (2 : ℚ) ^ (2 * e) * q ≤ 1 → 1 < (2 : ℚ) ^ (2 * e + 2) * q →
      NearTo (sfu 1 x).1 (1 / Real.sqrt q) (ulpOf e : ℝ) ∧ ∀ r, r = (Fmt.fp32.read (sfu 1 x).1).exact →
        (sfu 1 x).2 = { FFlags.none with nx := decide (r * r * q ≠ 1) })
    ∧ (sfu 2 x).1 ≤ Fmt.fp32.maxBits ∧ (∀ k, k ≤ Fmt.fp32.maxBits →
      |(Fmt.fp32.magnitude (sfu 2 x).1 : ℝ) - Real.sqrt q| ≤ |(Fmt.fp32.magnitude k : ℝ) - Real.sqrt q|)
    ∧ (sfu 2 x).2 = { FFlags.none with nx := decide (Fmt.fp32.magnitude (sfu 2 x).1 * Fmt.fp32.magnitude (sfu 2 x).1 ≠ q) })

/-- R243: EXP2, LOG2, SIN, COS, TANH and SIGM lie within their bounds of the exact result wherever the model's enclosure of it holds it (log entry
6), with the exact powers of EXP2 of integers; and NX is set where the exact result is no FP32 value. -/
def Sys2Proof.FunctionsMeetTheirBounds : Prop := ∀ x v n w q, x < 2 ^ 32 → v = Fmt.fp32.read x → v = .fin n w → q = v.exact →
  (128 ≤ q → sfu 3 x = (0x7F800000, ⟨false, false, true, false, true⟩))
  ∧ (∀ i : Int, q = i → -149 ≤ i → i < 128 → (sfu 3 x).2 = FFlags.none ∧ (Fmt.fp32.read (sfu 3 x).1).exact = (2 : ℚ) ^ i)
  ∧ (q < -149 → NearTo (sfu 3 x).1 ((2 : ℝ) ^ (q : ℝ)) (2 * ulpOf (-149) : ℚ) ∧ (sfu 3 x).2.nx = true)
  ∧ (-149 ≤ q → q < 128 → q ≠ ⌊q⌋ → Encloses (exp2Bounds w) ((2 : ℝ) ^ (q : ℝ)) →
    NearTo (sfu 3 x).1 ((2 : ℝ) ^ (q : ℝ)) (2 * ulpOf ⌊q⌋ : ℚ) ∧ (sfu 3 x).2.nx = true)
  ∧ (0 < q → q ≠ 1 → Encloses (log2Bounds w) (Real.logb 2 q) → ∀ e : Int, (2 : ℝ) ^ e ≤ |Real.logb 2 q| → |Real.logb 2 q| < (2 : ℝ) ^ (e + 1) →
    NearTo (sfu 4 x).1 (Real.logb 2 q) (2 * ulpOf e : ℚ)
      ∨ 1 / 2 ≤ q ∧ q ≤ 2 ∧ NearTo (sfu 4 x).1 (Real.logb 2 q) ((2 : ℚ) ^ (-22 : Int) : ℚ))
  ∧ (q ≠ 0 → Encloses (trigBounds false w) (Real.sin q) →
    NearTo (sfu 5 x).1 (Real.sin q) ((2 : ℚ) ^ (-21 : Int) + |q| * (2 : ℚ) ^ (-41 : Int) : ℚ) ∧ (sfu 5 x).2.nx = true)
  ∧ (q ≠ 0 → Encloses (trigBounds true w) (Real.cos q) →
    NearTo (sfu 6 x).1 (Real.cos q) ((2 : ℚ) ^ (-21 : Int) + |q| * (2 : ℚ) ^ (-41 : Int) : ℚ) ∧ (sfu 6 x).2.nx = true)
  ∧ (q = 0 → NearTo (sfu 6 x).1 1 ((2 : ℚ) ^ (-21 : Int) : ℚ) ∧ NearTo (sfu 8 x).1 (1 / 2) ((2 : ℚ) ^ (-22 : Int) : ℚ))
  ∧ (q ≠ 0 → Encloses (tanhBounds w) (Real.tanh q) → NearTo (sfu 7 x).1 (Real.tanh q) ((2 : ℚ) ^ (-21 : Int) : ℚ) ∧ (sfu 7 x).2.nx = true)
  ∧ (q ≠ 0 → Encloses (sigmBounds w) (1 / (1 + Real.exp (-q))) →
    NearTo (sfu 8 x).1 (1 / (1 + Real.exp (-q))) ((2 : ℚ) ^ (-22 : Int) : ℚ) ∧ (sfu 8 x).2.nx = true)

/-- CVT and SFU: their completion, R242's table, and R243's bounds and special cases (R242, R243, R290). The model's own choices in it: log
entries 6, 17. -/
def Obligations.LaneConversionsAndFunctions : Prop :=
  ConversionsAndFunctionsAreWritten ∧ ConversionsGiveTheTable ∧ FunctionsHaveTheirSpecialCases ∧ ReciprocalsAndRootsMeetTheirBounds
    ∧ FunctionsMeetTheirBounds

/-- R237 and R238: a value that does not overflow rounds to a value of the format that no other is nearer to, ties to the
even pattern or away from zero; the directed modes give the neighbour on their side; and NX tells whether it is exact. -/
def Obligations.RoundingPicksTheNeighbour : Prop :=
  ∀ (f : Fmt) (mode : RMode) (sat neg : Bool) (n d : Nat),
    f ∈ [Fmt.fp64, .fp32, .fp16, .bf16, .e4m3, .e5m2, .e3m2, .e2m3, .e2m1] → 0 < n → 0 < d →
    (f.roundRat mode sat neg n d).2.of = false →
    ∃ r, r ≤ f.maxBits ∧ (f.roundRat mode sat neg n d).1 = f.signBit neg + r ∧
      let x : ℚ := n / d
      let v := f.magnitude r
      ((f.roundRat mode sat neg n d).2.nx = false ↔ v = x)
      ∧ match mode with
        | .rz => v ≤ x ∧ ∀ w, w ≤ f.maxBits → f.magnitude w ≤ x → f.magnitude w ≤ v
        | .rd => if neg then x ≤ v ∧ ∀ w, w ≤ f.maxBits → x ≤ f.magnitude w → v ≤ f.magnitude w
            else v ≤ x ∧ ∀ w, w ≤ f.maxBits → f.magnitude w ≤ x → f.magnitude w ≤ v
        | .ru => if neg then v ≤ x ∧ ∀ w, w ≤ f.maxBits → f.magnitude w ≤ x → f.magnitude w ≤ v
            else x ≤ v ∧ ∀ w, w ≤ f.maxBits → x ≤ f.magnitude w → v ≤ f.magnitude w
        | .rne => ∀ w, w ≤ f.maxBits → |v - x| ≤ |f.magnitude w - x| ∧ (|v - x| = |f.magnitude w - x| → w ≠ r → r % 2 = 0)
        | .rna => ∀ w, w ≤ f.maxBits → |v - x| ≤ |f.magnitude w - x| ∧ (|v - x| = |f.magnitude w - x| → f.magnitude w ≤ v)

/-- R180 and R292: RNG advances the state of each active lane once and writes the 32 bits that it yields. -/
def Sys2Proof.RngAdvancesActiveLanes : Prop :=
  ∀ (p : LPre) (d : Byte) (s : State) (t : Team), LaneRuns s t p (Form.of .l (.dst 1) .field .field) d.toNat 0 0 →
    (effMask t p).1 ≠ 0#1024 →
    let x1 (x : DWord) : DWord := x ^^^ (x <<< 13)
    let x2 (x : DWord) : DWord := x1 x ^^^ (x1 x >>> 7)
    let x3 (x : DWord) : DWord := x2 x ^^^ (x2 x <<< 17)
    let out (x : DWord) : Word := (x3 x * 0x2545F4914F6CDD1D#64).extractLsb' 32 32
    ∃ u rng, exec (.rng p d) s = .next (s.setTeam s.cur { u with rng := rng })
      ∧ LaneResult t u p (Form.of .l (.dst 1) .field .field) (laneCodes t p d.toNat 0 0) 1 false
          (fun l => (((t.rng[l]?).map fun x => (out x).toNat).getD 0, FFlags.none))
      ∧ rng.length = t.rng.length
      ∧ ∀ l, rng[l]? = (t.rng[l]?).map fun x => if (effMask t p).1.getLsbD l then x3 x else x

/-- R178 and R293: ACTV evaluates the knots and slopes of the active bank, rounding once; a bank of another launch gives the
poison word in every active lane and sets POISON. -/
def Sys2Proof.ActvReadsTheActiveBank : Prop :=
  ∀ (p : LPre) (d a b : Byte) (s : State) (t : Team) (tab : ActTable),
    let f : Form := { Form.of .x (.dst 1) (.src 1) .table with rounds := true, sat := true }
    let k := laneCodes t p d.toNat a.toNat b.toNat
    let bank := if tab.active then tab.bank1 else tab.bank0
    let value (l : Nat) : Nat × FFlags := actvValue (modeOf p) (satBit p) bank.entries (opnd s t .x .f32 k.a l)
    LaneRuns s t p f d.toNat a.toNat b.toNat → (effMask t p).1 ≠ 0#1024 →
    (s.core t.coreNo).tables[b.toNat - 224]? = some tab →
    (bank.owner = some (t.key.q, t.key.seq) → ∃ u, exec (.actv p d a b) s = .next (s.setTeam s.cur u)
      ∧ LaneResult t u p f k 1 (readsDead t .x k.a 1) value)
    ∧ (bank.owner ≠ some (t.key.q, t.key.seq) → ∃ u, exec (.actv p d a b) s = .next (s.setTeam s.cur (u.raise 1#32))
      ∧ LaneResult t u p f k 1 (readsDead t .x k.a 1) (fun _ => (0x7FC0DEAD, FFlags.none)))

/-- R293: what a table gives for a finite x that lies on the grid of one of its entries: the knot of that entry, if it and
its slope are finite. -/
def Sys2Proof.ActvOnTheGridGivesTheKnot : Prop :=
  ∀ (m : RMode) (entries : List DWord) (a i : Nat) (e : DWord) (neg kneg sneg : Bool) (v kv sv : Dy),
    entries[i]? = some e → i < 256 → Fmt.fp32.read a = .fin neg v → v.m * 32 = ((i : Int) - 128) * 2 ^ (-v.e).toNat → v.e ≤ 0 →
    Fmt.fp32.read (e.toNat % 2 ^ 32) = .fin kneg kv → kv.m ≠ 0 → Fmt.fp32.read (e.toNat / 2 ^ 32) = .fin sneg sv →
    (actvValue m false entries a).1 = e.toNat % 2 ^ 32

/-- RNG and ACTV: the random state of active lanes, the active bank of a table (R178, R180, R292, R293). The model's own
choices in it: log entry 17. -/
def Obligations.RngAndActvReadTheirState : Prop :=
  RngAdvancesActiveLanes ∧ ActvReadsTheActiveBank ∧ ActvOnTheGridGivesTheKnot

/-- R295: the shuffles copy A from the source lane of the span. The model's own choices in it: log entry 17. -/
def Obligations.ShufflesCopyWithinTheSpan : Prop :=
  ∀ (p : LPre) (d a b : Byte),
    let gives (i : Instr) (src : Nat → Nat → Nat → Nat) : Prop :=
      CrossGives i p (Form.of .x (.dst 1) (.src 1) (.src 1)) d.toNat a.toNat b.toNat 1 ⟨some .i32, some .i32, none, none⟩
        fun t _ av bv _ l => (av (spanLane t l (src (l % t.cfg.spanS) (bv l) t.cfg.spanS)), FFlags.none)
    gives (.shfl p d a b) (fun _ b n => b % n)
    ∧ gives (.shflx p d a b) (fun slane b n => slane ^^^ (b % n))
    ∧ gives (.shflu p d a b) (fun slane b _ => if b ≤ slane then slane - b else slane)
    ∧ gives (.shfld p d a b) (fun slane b n => if slane + b < n then slane + b else slane)

/-- R296: BALLOT gives each span its vote, in a pair where the span has 64 lanes. -/
def Sys2Proof.BallotGivesTheVote : Prop :=
  ∀ (p : LPre) (d a : Byte) (s : State) (t : Team),
    let w := if t.cfg.spanS = 64 then 2 else 1
    let f := Form.of .x (.dst w) (.src 1) .field
    let k := laneCodes t p d.toNat a.toNat 0
    LaneRuns s t p f d.toNat a.toNat 0 → (effMask t p).1 ≠ 0#1024 →
    ∃ u, exec (.ballot p d a) s = .next (s.setTeam s.cur u)
      ∧ LaneResult t u p f k w (readsDead t .x k.a 1) fun l =>
          (((List.range t.cfg.spanS).map fun j =>
            if (effMask t p).1.getLsbD (spanLane t l j) ∧ crossColumn s t (some .i32) k.a (spanLane t l j) % 2 = 1
            then 2 ^ j else 0).sum, FFlags.none)

/-- R297: the reductions and the scan take the active lanes of the span. -/
def Sys2Proof.ReductionsOfTheSpan : Prop :=
  ∀ (p : LPre) (d a : Byte),
    let gives (i : Instr) (sat : Bool) (eff : Team → Mask → (Nat → Nat) → Nat → Int) : Prop :=
      CrossGives i p { Form.of .x (.dst 1) (.src 1) .field with sat := sat } d.toNat a.toNat 0 1
        ⟨some .i32, none, none, none⟩
        fun t m av _ _ l => ((satWord 32 (sat && satBit p) (eff t m av l)).toNat, FFlags.none)
    gives (.redadd p d a) true (fun t m av l => ((spanActive t m l).map (signedAt av)).sum)
    ∧ gives (.scanadd p d a) true (fun t m av l => (((spanActive t m l).filter fun j => decide (j ≤ l)).map (signedAt av)).sum)
    ∧ gives (.redmax p d a) false (fun t m av l => ((spanActive t m l).map (signedAt av)).foldl max (-2 ^ 31))
    ∧ gives (.redmin p d a) false (fun t m av l => ((spanActive t m l).map (signedAt av)).foldl min (2 ^ 31 - 1))
    ∧ CrossGives (.redfadd p d a) p { Form.of .x (.dst 1) (.src 1) .field with sat := true, rounds := true }
        d.toNat a.toNat 0 1 ⟨some .f32, none, none, none⟩
        fun t m av _ _ l => treeSum (modeOf p) (satBit p) (Nat.log2 t.cfg.spanS)
          ((List.range t.cfg.spanS).map fun j => if m.getLsbD (spanLane t l j) then av (spanLane t l j) else 2 ^ 31)

/-- R298: BXCH exchanges the masked bits of the two lanes of each pair; another distance leaves D as it is. -/
def Sys2Proof.BxchExchangesMaskedBits : Prop :=
  ∀ (p : LPre) (d a b : Byte),
    CrossGives (.bxch p d a b) p (Form.of .x .xch (.src 1) (.src 1)) d.toNat a.toNat b.toNat 1
      ⟨some .i32, some .i32, none, some .i32⟩
      fun t _ av bv dv l =>
        let k := bv 0
        let lo := if l % t.cfg.spanS / k % 2 = 0 then l else l - k
        let dl := BitVec.ofNat 32 (dv lo)
        let dh := BitVec.ofNat 32 (dv (lo + k))
        let x := ((dl >>> k) ^^^ dh) &&& BitVec.ofNat 32 (av lo)
        (if k ∈ [1, 2, 4, 8, 16, 32] ∧ k < t.cfg.spanS then
          (if l = lo then (dl ^^^ (x <<< k)).toNat else (dh ^^^ x).toNat) else dv l, FFlags.none)

/-- BALLOT, the reductions and the scan, and BXCH (R296, R297, R298). The model's own choices in it: log entry 17. -/
def Obligations.VotesReductionsAndExchanges : Prop :=
  BallotGivesTheVote ∧ ReductionsOfTheSpan ∧ BxchExchangesMaskedBits

/-! ## Uniform instructions (R157, R299) -/

/-- R299: UNOP writes nothing, and the uniform moves, sums and products give lane 0's result to every lane; they wrap. -/
def Sys2Proof.UniformMovesAndSums : Prop :=
  ∀ (r : Option Rep) (d a b : Byte) (i : BitVec 16),
    (∀ s t, UniRuns s t r (Form.of .u .field .field .field) 0 0 0 →
      ∃ u, exec (.unop r) s = .next (s.setTeam s.cur u) ∧ u.status = t.status ∧ Moved t u r 1 ∧ OnlyMoved t u)
    ∧ UniGives1 (.umov r d a) r d a (fun x => x)
    ∧ UniGives (.umovi r d i) r (Form.of .u (.dst 1) .field .field) d.toNat 0 0 1 ⟨none, none, none, none⟩
        (fun _ => (i.signExtend 32).toNat)
    ∧ UniGives (.umovhi r d i) r (Form.of .u (.rmw 1) .field .field) d.toNat 0 0 1 ⟨none, none, none, some .i32⟩
        (fun x => (i ++ (BitVec.ofNat 16 x.d)).toNat)
    ∧ UniGives2 (.uiadd r d a b) r d a b (fun x y => x + y)
    ∧ UniGives2 (.uisub r d a b) r d a b (fun x y => x - y)
    ∧ UniGives (.uiaddi r d i) r (Form.of .u (.rmw 1) .field .field) d.toNat 0 0 1 ⟨none, none, none, some .i32⟩
        (fun x => (BitVec.ofNat 32 x.d + i.signExtend 32).toNat)
    ∧ UniGives2 (.uimul r d a b) r d a b (fun x y => x * y)
    ∧ UniGivesD (.uimad r d a b) r d a b (fun z x y => x * y + z)
    ∧ UniGives (.uiadd64 r d a b) r (Form.of .u (.dst 2) (.src 2) (.src 2)) d.toNat a.toNat b.toNat 2
        ⟨some .i64, some .i64, none, none⟩ (fun x => (BitVec.ofNat 64 x.a + BitVec.ofNat 64 x.b).toNat)

/-- R299: the uniform extremes, logic and shifts. -/
def Sys2Proof.UniformLogicAndShifts : Prop :=
  ∀ (r : Option Rep) (d a b : Byte),
    UniGives2 (.uminUni r d a b) r d a b (fun x y => if x.toInt ≤ y.toInt then x else y)
    ∧ UniGives2 (.umaxUni r d a b) r d a b (fun x y => if y.toInt ≤ x.toInt then x else y)
    ∧ UniGives2 (.uand r d a b) r d a b (fun x y => x &&& y)
    ∧ UniGives2 (.uor r d a b) r d a b (fun x y => x ||| y)
    ∧ UniGives2 (.uxor r d a b) r d a b (fun x y => x ^^^ y)
    ∧ UniGives2 (.ushl r d a b) r d a b (fun x y => x <<< y.toNat)
    ∧ UniGives2 (.ushr r d a b) r d a b (fun x y => x >>> y.toNat)
    ∧ UniGives2 (.usar r d a b) r d a b (fun x y => x.sshiftRight y.toNat)

/-- R299: the uniform bit fields, counts and selection. -/
def Sys2Proof.UniformBitFields : Prop :=
  ∀ (r : Option Rep) (d a b : Byte),
    UniGives2 (.ubfx r d a b) r d a b (fun x y => (x >>> bfPos y.toNat) &&& ((1#32 <<< bfLen y.toNat) - 1#32))
    ∧ UniGivesD (.ubfi r d a b) r d a b (fun z x y =>
        (z &&& ~~~(((1#32 <<< bfLen y.toNat) - 1#32) <<< bfPos y.toNat))
          ||| ((x <<< bfPos y.toNat) &&& (((1#32 <<< bfLen y.toNat) - 1#32) <<< bfPos y.toNat)))
    ∧ UniGives1 (.upopc r d a) r d a (fun x => BitVec.ofNat 32 ((List.range 32).countP x.getLsbD))
    ∧ UniGives1 (.uclz r d a) r d a (fun x =>
        BitVec.ofNat 32 (((List.range 32).map fun i => x.getLsbD (31 - i)).takeWhile (!·)).length)
    ∧ UniGivesD (.usel r d a b) r d a b (fun z x y => if z.getLsbD 0 then x else y)

/-- R299: the uniform compares. -/
def Sys2Proof.UniformCompares : Prop :=
  ∀ (r : Option Rep) (d a b : Byte),
    UniGives2 (.uiseteq r d a b) r d a b (fun x y => boolWord (x == y))
    ∧ UniGives2 (.uisetne r d a b) r d a b (fun x y => boolWord (x != y))
    ∧ UniGives2 (.uisetlt r d a b) r d a b (fun x y => boolWord (x.slt y))
    ∧ UniGives2 (.uisetle r d a b) r d a b (fun x y => boolWord (x.sle y))
    ∧ UniGives2 (.uusetlt r d a b) r d a b (fun x y => boolWord (x.ult y))
    ∧ UniGives2 (.uusetle r d a b) r d a b (fun x y => boolWord (x.ule y))

/-- R299: the uniform forms that read D must have it from 0 to 159: operand code 160 traps with ILLOP. -/
def Sys2Proof.UniformFormsThatReadD : Prop :=
  ∀ (s : State) (t : Team) (a b : Byte) (i : BitVec 16), s.teams[s.cur]? = some t → t.repIdx = 0 →
    ∀ j ∈ [Instr.umovhi none 160 i, .uiaddi none 160 i, .uimad none 160 a b, .ubfi none 160 a b, .usel none 160 a b],
      exec j s = .next (trapCause s s.cur .illop)

/-- The uniform integer instructions (R157, R299). -/
def Obligations.UniformInstructionsGiveTheirResults : Prop :=
  UniformMovesAndSums ∧ UniformLogicAndShifts ∧ UniformBitFields ∧ UniformCompares ∧ UniformFormsThatReadD

/-! ## Control (R155, R156, R300 to R307) -/

/-- R252, R300, R301: the transfers that name their target, and the uniform branches. A CALL leaves its link in v158:v159. -/
def Sys2Proof.TransfersReachTheirTargets : Prop :=
  ∀ (s : State) (t : Team) (r : Byte) (o : BitVec 24) (b : BitVec 16),
    (UniRuns s t none (uniForm .field) 0 0 0 →
      exec (.jmp o) s = .next (s.setTeam s.cur (t.jump (farTarget t o.toInt))))
    ∧ (UniRuns s t none { uniForm .field with regs := [158, 159] } 0 0 0 →
      ∃ u, exec (.call o) s = .next (s.setTeam s.cur (u.jump (farTarget t o.toInt)))
        ∧ UniResult t u .u none 1 ⟨158, 0, 0, 0⟩ 2 false (t.pc + 4))
    ∧ (UniRuns s t none (uniForm (.src 1)) 0 r.toNat 0 → ∃ u v,
        u = { t with status := t.status ||| deadBits (readsDead t .u r.toNat 1) } ∧ v = opnd s t .u .i32 r.toNat 0
        ∧ exec (.ubrz r b) s = .next (s.setTeam s.cur (if v = 0 then u.jump (farTarget t b.toInt) else u.pass 1))
        ∧ exec (.ubrnz r b) s = .next (s.setTeam s.cur (if v = 0 then u.pass 1 else u.jump (farTarget t b.toInt))))

/-- R250, R300: RET and JMPR go to the 64-bit value of lane 0, or trap with PFAULT or ALIGN on an unfit one. -/
def Sys2Proof.ReturnsAndJumpsThroughRegisters : Prop :=
  ∀ (s : State) (t : Team) (a : Byte),
    (UniRuns s t none { uniForm .field with regs := [158, 159] } 0 0 0 → ∃ u v,
        u = { t with status := t.status ||| deadBits (t.isDead 158 || t.isDead 159) }
        ∧ v = (t.regAt 158 0).toNat + 2 ^ 32 * (t.regAt 159 0).toNat
        ∧ exec .ret s = .next (if 2 ^ 55 ≤ v then trapAt s s.cur ⟨.pfault, 2, 0, v⟩
          else if v % 4 ≠ 0 then trapAt s s.cur ⟨.align, 0, 0, v⟩ else s.setTeam s.cur (u.jump v)))
    ∧ (UniRuns s t none (uniForm (.src 2)) 0 a.toNat 0 → ∃ u v,
        u = { t with status := t.status ||| deadBits (readsDead t .u a.toNat 2) } ∧ v = opnd s t .u .i64 a.toNat 0
        ∧ exec (.jmpr a) s = .next (if 2 ^ 55 ≤ v then trapAt s s.cur ⟨.pfault, 2, 0, v⟩
          else if v % 4 ≠ 0 then trapAt s s.cur ⟨.align, 0, 0, v⟩ else s.setTeam s.cur (u.jump v)))

/-- Transfers that name their target, branches, RET and JMPR (R250, R252, R300, R301). The model's own choices in it:
log entry 29. -/
def Obligations.TransfersAndReturns : Prop :=
  TransfersReachTheirTargets ∧ ReturnsAndJumpsThroughRegisters

/-- R155, R302: IF, ELSE and ENDIF move the mask over the control stack, and a side without lanes is skipped. -/
def Sys2Proof.IfElseEndifMoveTheMask : Prop :=
  ∀ (s : State) (t : Team) (r : Byte) (b : BitVec 16) (o : BitVec 24),
    (UniRuns s t none (uniForm (.src 1)) 0 r.toNat 0 →
      (64 ≤ t.stack.length → exec (.ifI r b) s = .next (trapCause s s.cur .maskovf))
      ∧ (t.stack.length < 64 → ∃ c, BitZero s t r.toNat c ∧ exec (.ifI r b) s = .next (s.setTeam s.cur
          { t.structured (t.mask &&& c = 0#1024) (farTarget t b.toInt) expectIf with
            status := t.status ||| deadBits (readsDead t .u r.toNat 1)
            stack := ⟨.ifK, t.mask, t.mask &&& ~~~c, 0#1024, 0#1024, 0⟩ :: t.stack
            mask := t.mask &&& c })))
    ∧ (UniRuns s t none { uniForm .field with meets := [expectIf] } 0 0 0 →
      ((∀ e below, t.stack = e :: below → e.kind ≠ .ifK) → exec (.elseI o) s = .next (trapCause s s.cur .illins))
      ∧ (∀ e below, t.stack = e :: below → e.kind = .ifK → exec (.elseI o) s = .next (s.setTeam s.cur
          { t.structured (e.other &&& liveMask below = 0#1024) (farTarget t o.toInt) expectElse with
            stack := { e with kind := .elseK } :: below
            mask := e.other &&& liveMask below })))
    ∧ (UniRuns s t none { uniForm .field with meets := [expectIf, expectElse] } 0 0 0 →
      ((∀ e below, t.stack = e :: below → e.kind = .loopK) → exec .endif s = .next (trapCause s s.cur .illins))
      ∧ (∀ e below, t.stack = e :: below → e.kind ≠ .loopK → exec .endif s = .next (s.setTeam s.cur
          { t.pass 1 with stack := below, mask := e.saved &&& liveMask below })))

/-- R156, R302: LOOP pushes its entry, BRK and CONT take lanes out, and ENDLOOP goes round with the lanes that did not break. -/
def Sys2Proof.LoopsRunUntilNoLaneIsLive : Prop :=
  ∀ (s : State) (t : Team) (r : Byte) (o : BitVec 24),
    (UniRuns s t none (uniForm .field) 0 0 0 →
      (64 ≤ t.stack.length → exec (.loop o) s = .next (trapCause s s.cur .maskovf))
      ∧ (t.stack.length < 64 → exec (.loop o) s = .next (s.setTeam s.cur
          { t.pass 1 with stack := ⟨.loopK, t.mask, 0#1024, 0#1024, 0#1024, farTarget t o.toInt⟩ :: t.stack })))
    ∧ (UniRuns s t none { uniForm .field with meets := [expectBrk] } 0 0 0 →
      ((∀ e below, t.stack = e :: below → e.kind ≠ .loopK) → exec (.endloop o) s = .next (trapCause s s.cur .illins))
      ∧ (∀ e below, t.stack = e :: below → e.kind = .loopK →
          (e.saved &&& ~~~e.brk ≠ 0#1024 → exec (.endloop o) s = .next (s.setTeam s.cur
            { t.jump (farTarget t o.toInt) with
              stack := { e with cnt := 0#1024 } :: below, mask := e.saved &&& ~~~e.brk, moved := false }))
          ∧ (e.saved &&& ~~~e.brk = 0#1024 → exec (.endloop o) s = .next (s.setTeam s.cur
            { t.pass 1 with stack := below, mask := e.saved }))))
    ∧ (UniRuns s t none (uniForm (.src 1)) 0 r.toNat 0 →
      ((∀ e ∈ t.stack, e.kind ≠ .loopK) → exec (.brk r) s = .next (trapCause s s.cur .illins)
          ∧ exec (.cont r) s = .next (trapCause s s.cur .illins))
      ∧ (∀ above e below, t.stack = above ++ e :: below → (∀ x ∈ above, x.kind ≠ .loopK) → e.kind = .loopK →
          ∃ c, BitZero s t r.toNat c ∧ ∀ i e', (i = .brk r ∧ e' = { e with brk := e.brk ||| (t.mask &&& c) }
              ∨ i = .cont r ∧ e' = { e with cnt := e.cnt ||| (t.mask &&& c) }) →
            exec i s = .next (s.setTeam s.cur
              { t.structured (t.mask &&& ~~~c = 0#1024) e.target expectBrk with
                status := t.status ||| deadBits (readsDead t .u r.toNat 1)
                stack := if t.mask &&& ~~~c = 0#1024 then e' :: below else above ++ e' :: below
                mask := t.mask &&& ~~~c })))

/-- R264, R303: an instruction that a structured transfer reached and that is not of its kind traps there: with ILLINS,
after its other checks of R264, and a closing instruction after its pairing test. -/
def Sys2Proof.StructuredTransfersReachTheirKind : Prop :=
  ∀ (s : State) (t : Team) (e : Nat), s.teams[s.cur]? = some t → t.repIdx = 0 → t.expect = some e →
    (∀ i, isEvent i = false → mayBeReached e i = false → closesRegion i = false →
      ∃ c ∈ [Cause.illins, .illop, .priv, .regbound], exec i s = .next (trapCause s s.cur c))
    ∧ (∀ (r d a : Byte) (b : BitVec 16) (o : BitVec 24), ∀ x ∈ [(Instr.unop none, Form.of .u .field .field .field, 0, 0),
        (.umov none d a, Form.of .u (.dst 1) (.src 1) .field, d.toNat, a.toNat), (.jmp o, uniForm .field, 0, 0),
        (.ubrz r b, uniForm (.src 1), 0, r.toNat), (.ifI r b, uniForm (.src 1), 0, r.toNat), (.elseI o, uniForm .field, 0, 0),
        (.endif, uniForm .field, 0, 0), (.loop o, uniForm .field, 0, 0), (.brk r, uniForm (.src 1), 0, r.toNat),
        (.cont r, uniForm (.src 1), 0, r.toNat), (.endloop o, uniForm .field, 0, 0), (.exit, uniForm .field, 0, 0)],
      mayBeReached e x.1 = false →
      check { t with expect := none } x.2.1 (fieldsFor none 0 x.2.2.1 x.2.2.2 0 164) false 164 = none →
      exec x.1 s = .next (trapCause s s.cur .illins))
    ∧ (∀ (n : BitVec 4) (a : Byte) (live : BitVec 160) (s1 : State), hasWalked s s1 t.die = false → t.pending = none →
      pairTest s s.cur t (t.pc + 8) = (.region live, s1) → s1.cur = s.cur →
      exec (.barArv n) s = .next (trapCause s1 s.cur .illins) ∧ exec (.barSync n) s = .next (trapCause s1 s.cur .illins)
      ∧ (check t (Form.of .m .field (.src 1) .field).closed (fieldsFor none 0 0 a.toNat 0 164) false 164 = none →
        waitsFor s t (codeRegs a.toNat 1) = false → exec (.barInit n a) s = .next (trapCause s1 s.cur .illins)))

/-- IF, ELSE, ENDIF, LOOP, BRK, CONT and ENDLOOP over the control stack (R155, R156, R302, R303).  -/
def Obligations.MaskAndStackTransfers : Prop :=
  IfElseEndifMoveTheMask ∧ LoopsRunUntilNoLaneIsLive ∧ StructuredTransfersReachTheirKind

/-- R304, R307: UANY asks every lane of the mask, and YIELD makes its team the youngest. -/
def Obligations.UanyAndYield : Prop :=
  ∀ (s : State) (t : Team) (d a : Byte),
    (UniRuns s t none (Form.of .u (.dst 1) (.src 1) .field) d.toNat a.toNat 0 → ∃ c u, BitZero s t a.toNat c
      ∧ exec (.uany d a) s = .next (s.setTeam s.cur u)
      ∧ UniResult t u .u none 1 (uniCodes t none d.toNat a.toNat 0) 1 (readsDead t .u a.toNat 1)
          (if t.mask &&& c = 0#1024 then 0 else 1))
    ∧ (UniRuns s t none (uniForm .field) 0 0 0 →
      exec .yield s = .next (s.setTeam s.cur { t.pass 1 with age := (s.die t.die).cycle }))

/-- R149, R305: EXIT of a team with nothing outstanding ends it whatever its mask: the team is gone, with its
registers and its slot; its block's shares go with its last team; no byte changes. The model's own choices in it: log
entry 38. -/
def Obligations.ExitEndsTheTeam : Prop :=
  ∀ (s : State) (t : Team), UniRuns s t none (uniForm .field) 0 0 0 → Finished s t →
    ∃ u, exec .exit s = .next u ∧ u.teams = s.teams.filter (fun x => x.key != t.key)
      ∧ u.dram = s.dram ∧ u.l2 = s.l2 ∧ u.cores.map (·.l1) = s.cores.map (·.l1)
      ∧ u.ops = s.ops.filter (fun r => r.team != t.key) ∧ u.blocks.length = s.blocks.length
      ∧ ∀ (j : Nat) (b b' : Block), s.blocks[j]? = some b → u.blocks[j]? = some b' →
        b'.live = (if b.holds t.key then b.live.filter (· != t.key.num) else b.live)
          ∧ b'.bars = b.bars ∧ b'.cores = b.cores
          ∧ (b.holds t.key = true → b'.live = [] → b'.units = [] ∧ b'.accRuns = [])

/-! ## Traps and the return from one (R219 to R222, R264, R306, R315) -/

/-- R219, R220: a trap in user context saves its cause, the return address, the recorded lane and address, the mask and the
depth, and goes to TBA in privileged context with every lane on. -/
def Sys2Proof.TrapEntrySavesAndGoesToTheHandler : Prop :=
  ([Cause.illins, .illop, .regbound, .priv, .bkpt, .trapi, .pfault, .pprot, .viewf, .align, .tileown, .tilebound, .sealedC,
      .tolview, .barovf, .batchovf, .maskovf, .gatherchk, .poisont, .accbound].map Cause.code
    = [1, 2, 3, 4, 5, 6, 8, 9, 10, 11, 12, 13, 14, 15, 16, 17, 18, 19, 20, 21])
  ∧ ∀ (s : State) (k epc : Nat) (t : Team) (i : TrapInfo), s.teams[k]? = some t → Quiet s t → t.priv = false →
    ∃ u, takeTrap s k i epc = (s.count TRAPCNT 0 32 1).setTeam k u ∧ TrapEntered t u i epc

/-- R221: a trap in privileged context ends a team with nothing outstanding: the die's log (another die's, where the die is
dead) records the cause and the pc under code 3, and DOUBLE counts it. -/
def Sys2Proof.DoubleTrapEndsTheTeam : Prop :=
  ∀ (s : State) (k epc : Nat) (t : Team) (i : TrapInfo), s.teams[k]? = some t → Finished s t → t.batches = [] → t.openOps = [] →
    t.priv = true → ∃ u w, takeTrap s k i epc = u ∧ u.teams = s.teams.filter (fun x => x.key != t.key)
      ∧ u.mregs = (w.count TRAPCNT 48 16 1).mregs
      ∧ w = s.logError (logDie s t.die) (agentWord t.die t.core t.part t.slot) 3
          (t.repIdx % 64 * 2 ^ 16 + i.sub % 256 * 2 ^ 8 + i.cause.code) t.pc
      ∧ u.dies = w.dies

/-- Trap entry saves the state and goes to TBA; a double trap ends the team (R219, R220, R221). The model's own
choices in it: log entries 49, 80, 90. -/
def Obligations.TrapsEnterTheHandlerOrEndTheTeam : Prop :=
  TrapEntrySavesAndGoesToTheHandler ∧ DoubleTrapEndsTheTeam

/-- R306: TRAP traps after its REGION and BKPT at once, each with its number as the subcause and the address after it. -/
def Sys2Proof.TrapAndBreakpointEnterTheHandler : Prop :=
  ∀ (s s1 : State) (t : Team) (n : Byte) (live : BitVec 160), UniRuns s t none (uniForm .field) 0 0 0 → Quiet s t →
    t.priv = false →
    TrapsTo s t (exec (.bkpt n) s) ⟨.bkpt, n.toNat, 0, 0⟩ (t.pc + 4)
    ∧ (Pairs s t 1 live s1 → Quiet s1 t → ∃ u,
        exec (.trap n) s = .next (((s1.countDie t.die .issue).count TRAPCNT 0 32 1).setTeam s.cur u)
        ∧ TrapEntered { t.checkpoint live (t.pc + 28) with pc := t.pc + 28, repIdx := 0, expect := none, moved := false } u
            ⟨.trapi, n.toNat, 0, 0⟩ (t.pc + 28))

/-- R222, R315: RTT returns to the saved instruction with the saved mask, RTT.HEAD to the region head with the
checkpoint's registers and zero elsewhere; both leave privileged context, and outside it they trap with PRIV. The
model's own choices in it: log entry 79. -/
def Obligations.ReturnsLeaveTheHandler : Prop :=
  ∀ (s : State) (t : Team), s.teams[s.cur]? = some t → t.repIdx = 0 →
    (t.priv = false → exec .rtt s = .next (trapCause s s.cur .priv) ∧ exec .rttHead s = .next (trapCause s s.cur .priv))
    ∧ (t.priv = true → UniRuns s t none { uniForm .field with priv := true } 0 0 0 → Quiet s t →
      (t.stack.length ≠ t.sdepth → exec .rtt s = .next (trapCause s s.cur .illins))
      ∧ (t.stack.length = t.sdepth → exec .rtt s = .next (s.setTeam s.cur { t.voidAll with
          mask := t.smask, priv := false, pc := t.epc, repIdx := t.cause / 2 ^ 16 % 64, expect := none, moved := false }))
      ∧ ∃ u, exec .rttHead s = .next (s.setTeam s.cur u) ∧ u.priv = false ∧ u.pc = t.ckpt.head ∧ u.mask = t.ckpt.mask
        ∧ u.stack = t.ckpt.stack ∧ u.fibres = t.ckpt.fibres ∧ u.rng = t.ckpt.rng ∧ u.dead = 0#160
        ∧ u.regs.length = t.regs.length
        ∧ ∀ n, n < t.regs.length → u.regs[n]? = some ((look n t.ckpt.regs).getD (zeroLanes t.tl)))

/-! ## Regions, operand cache, allotment and system registers (R134, R135, R164, R167, R170, R224, R308 to R314) -/

/-- R167, R221, R308: REGION takes its checkpoint, but in privileged context; a mask that names too many registers, or
one beyond the allotment, traps with REGBOUND. The model's own choices in it: log entry 46. -/
def Obligations.RegionTakesACheckpoint : Prop :=
  ∀ (s : State) (t : Team) (live : BitVec 160), UniRuns s t none (uniForm .field) 0 0 0 →
    ((t.regs.length / 8 < ((List.range 160).filter fun r => live.getLsbD r).length
        ∨ ∃ r, live.getLsbD r = true ∧ t.regs.length ≤ r) → exec (.region live) s = .next (trapCause s s.cur .regbound))
    ∧ (((List.range 160).filter fun r => live.getLsbD r).length ≤ t.regs.length / 8 →
      (∀ r, live.getLsbD r = true → r < t.regs.length) → waitsFor s t (liveRegs live) = false →
      ∃ c, exec (.region live) s = .next (s.setTeam s.cur { t.pass 6 with ckpt := c }) ∧ (t.priv = true → c = t.ckpt)
        ∧ (t.priv = false → c.mask = t.mask ∧ c.stack = t.stack ∧ c.fibres = t.fibres ∧ c.rng = t.rng ∧ c.head = t.pc + 24 ∧ c.taken = true
          ∧ ∀ r, look r c.regs = if live.getLsbD r then some (t.reg r) else none))

/-- R164, R309, R310: OCLD fills the tags of its registers in their order, OCDROP drops two tags, OCDROP ALL all of
them. The model's own choices in it: log entry 46. -/
def Obligations.OperandCacheFillsAndDrops : Prop :=
  ∀ (s : State) (t : Team) (ws : List Word) (rs : List Byte) (m : Nat) (a b : Byte),
    (ocldEntries ws = rs ++ List.replicate m 0xFF#8 → rs ≠ [] → (∀ r ∈ rs, r ≠ 0xFF#8) →
      UniRuns s t none { uniForm .field with more := rs.map fun r => (.run 1, r.toNat) } 0 0 0 → ∃ u,
        exec (.ocld ws) s = .next (s.setTeam s.cur { t.pass (ws.length + 1) with ocache := u })
        ∧ u = rs.foldl (fun oc r => if r.toNat ∈ oc.map (·.1) then oc.map fun e => (e.1, e.2 || decide (e.1 = r.toNat))
            else (if oc.length < 16 then oc else oc.tail) ++ [(r.toNat, true)]) t.ocache)
    ∧ (UniRuns s t none (Form.of .u .field .optReg .optReg) 0 a.toNat b.toNat → exec (.ocdrop a b) s = .next (s.setTeam s.cur
        { t.pass 1 with ocache := t.ocache.filter fun e => decide (e.1 ≠ a.toNat ∧ e.1 ≠ b.toNat) }))
    ∧ (UniRuns s t none (uniForm .field) 0 0 0 →
      exec .ocdropAll s = .next (s.setTeam s.cur { t.pass 1 with ocache := [] }))

/-- R134, R311: an ALLOC that asks for what the team holds completes at once; otherwise its own checks come in their order. -/
def Sys2Proof.AllocChecksItsRequest : Prop :=
  ∀ (s : State) (t : Team) (d : Byte) (res : Bool) (acc : BitVec 12) (tile : BitVec 10) (regs : BitVec 5),
    acc.toNat ≤ 2048 → tile.toNat ≤ 512 → UniRuns s t none (Form.of .u (if res then .pair else .field) .field .field) d.toNat 0 0 →
    let n := 8 * regs.toNat
    let same := n = t.regs.length ∧ tile.toNat = (unitsHeld s t).length ∧ acc.toNat = t.accRows
    let more := t.cfg.pregs < t.regs.length ∨ 0 < (unitsHeld s t).length ∨ 0 < t.accRows ∨ n < t.cfg.pregs
    let r := exec (.alloc d res acc tile regs) s
    (same → ∃ u, r = .next (s.setTeam s.cur u) ∧ (res = false → u = t.pass 2)
        ∧ (res = true → UniResult t u .u none 2 ⟨d.toNat, 0, 0, 0⟩ 2 false (allocResult s t)))
    ∧ (¬ same → more → r = .next (trapCause s s.cur .illins))
    ∧ (¬ same → ¬ more → t.cfg.regs < n → r = .next (trapCause s s.cur .regbound))
    ∧ (¬ same → ¬ more → n ≤ t.cfg.regs → ∀ b, s.blockOf t.key = some b →
      (lowestRun (b.takenUnits t.blockCore) b.tileLen tile.toNat = none → r = .next (trapCause s s.cur .tilebound))
      ∧ (lowestRun (b.takenUnits t.blockCore) b.tileLen tile.toNat ≠ none →
        lowestRun (b.takenRows t.blockCore) b.accLen acc.toNat = none → r = .next (trapCause s s.cur .accbound)))

/-- R135, R137, R175, R311: an ALLOC that passes its checks takes the lowest free runs, and at once the registers that fit, which
hold zero; where they do not fit, or where other teams' requests wait, whatever fits, the team parks at the ALLOC with its request
last in the core's queue, until the requests before it are admitted. -/
def Sys2Proof.AllocGrantsRegistersUnitsAndRows : Prop :=
  ∀ (s : State) (t : Team) (b : Block) (d : Byte) (res : Bool) (acc : BitVec 12) (tile : BitVec 10) (regs : BitVec 5)
    (first row : Nat), UniRuns s t none (Form.of .u (if res then .pair else .field) .field .field) d.toNat 0 0 →
    s.teamOf t.key = some t → t.park = none → s.blockOf t.key = some b → t.coreNo < s.cores.length → t.regs.length ≤ t.cfg.pregs →
    unitsHeld s t = [] → t.accRows = 0 → t.cfg.pregs ≤ 8 * regs.toNat → 8 * regs.toNat ≤ t.cfg.regs → acc.toNat ≤ 2048 →
    tile.toNat ≤ 512 → ¬ (8 * regs.toNat = t.regs.length ∧ tile.toNat = 0 ∧ acc.toNat = 0) →
    lowestRun (b.takenUnits t.blockCore) b.tileLen tile.toNat = some first →
    lowestRun (b.takenRows t.blockCore) b.accLen acc.toNat = some row →
    ∃ w u, exec (.alloc d res acc tile regs) s = .next w ∧ w.teams[s.cur]? = some u ∧ u.allotted = true
      ∧ u.tileRun = (if tile.toNat = 0 then none else some (first, tile.toNat))
      ∧ u.accRun = (if acc.toNat = 0 then none else some (row, acc.toNat))
      ∧ ((s.core t.coreNo).allocQ = [] →
          regsUsed s t.coreNo t.part + (8 * regs.toNat - t.regs.length) * t.tl ≤ 65536 →
          u.pc = t.pc + 8 ∧ u.regs.length = max t.regs.length (8 * regs.toNat) ∧ u.park = none
          ∧ (∀ n, t.regs.length ≤ n → n < 8 * regs.toNat → u.regs[n]? = some (List.replicate t.tl 0#32))
          ∧ (res = true → ∀ l, l < t.tl →
              u.regAt d.toNat l = BitVec.ofNat 32 (if tile.toNat = 0 then 0 else makeHandle t.blockCore first tile.toNat)
              ∧ u.regAt (d.toNat + 1) l = BitVec.ofNat 32 (if acc.toNat = 0 then 0 else row)))
      ∧ ((s.core t.coreNo).allocQ = [] →
          65536 < regsUsed s t.coreNo t.part + (8 * regs.toNat - t.regs.length) * t.tl →
          u.pc = t.pc ∧ u.regs = t.regs ∧ u.park = some .alloc ∧ u.active = false
            ∧ (∃ r, (w.core t.coreNo).allocQ = [r] ∧ r.team = t.key ∧ r.regs = 8 * regs.toNat))
      ∧ (∀ h rest x, (s.core t.coreNo).allocQ = h :: rest → (∀ r ∈ h :: rest, r.team ≠ t.key) → s.teamOf h.team = some x →
          u.pc = t.pc ∧ u.regs = t.regs ∧ u.park = some .alloc ∧ u.active = false
            ∧ (∃ r, (w.core t.coreNo).allocQ
                = (if regsUsed s t.coreNo x.part + (h.regs - x.regs.length) * x.tl ≤ 65536 then rest else h :: rest) ++ [r]
              ∧ r.team = t.key ∧ r.regs = 8 * regs.toNat))

/-- ALLOC checks its request and takes registers, units and rows (R134, R135, R175, R311). The model's own choices in
it: log entries 36, 55. -/
def Obligations.AllocGrantsOrRefuses : Prop :=
  AllocChecksItsRequest ∧ AllocGrantsRegistersUnitsAndRows

/-- R170, R312: FREE returns the team to its prologue allotment, gives its units and rows back, and takes an empty
checkpoint. The model's own choices in it: log entry 38. -/
def Obligations.FreeReturnsTheAllotment : Prop :=
  ∀ (s : State) (t : Team), UniRuns s t none (uniForm .field) 0 0 0 → Finished s t →
    ∃ w, exec .free s = .next w ∧ (∃ u, w.teams[s.cur]? = some u ∧ u.regs = t.regs.take t.cfg.pregs ∧ u.allotted = false
        ∧ u.tileRun = none ∧ u.accRun = none ∧ u.ckpt = ⟨[], t.mask, t.stack, t.fibres, t.rng, t.pc + 8, true⟩ ∧ u.pc = t.pc + 8
        ∧ u.status = t.status ∧ u.mask = t.mask ∧ u.stack = t.stack)
      ∧ w.dram = s.dram ∧ w.l2 = s.l2 ∧ w.cores = s.cores
      ∧ ∀ (j : Nat) (b b' : Block), s.blocks[j]? = some b → w.blocks[j]? = some b' →
        (∀ e ∈ b'.units, b.holds t.key = true → e.2 ≠ .held t.key.num)
        ∧ (∀ e ∈ b'.accRuns, b.holds t.key = true → e.2.2.2 ≠ t.key.num)
        ∧ (∀ e ∈ b.accRuns, e.2.2.2 ≠ t.key.num → e ∈ b'.accRuns) ∧ b'.bars = b.bars ∧ b'.live = b.live

/-- R224, R313: SRD gives a system register to every lane; a privileged one traps in user context with PRIV, and a selector of
no register, or SIGCLR, with ILLINS. -/
def Sys2Proof.SrdReadsTheSystemRegisters : Prop :=
  ∀ (s : State) (t : Team) (d : Byte) (n v : Nat),
    ((n, v) ∈ selectorValues s t →
      UniRuns s t none { Form.of .u (.dst 1) .field .field with priv := decide (8 ≤ n) } d.toNat 0 0 →
      ∃ u, exec (.srd d (BitVec.ofNat 8 n)) s = .next (s.setTeam s.cur u)
        ∧ UniResult t u .u none 1 ⟨d.toNat, 0, 0, 164⟩ 1 false v)
    ∧ (s.teams[s.cur]? = some t → t.repIdx = 0 →
      ((n, v) ∈ selectorValues s t → 8 ≤ n → t.priv = false → d.toNat < 160 →
        exec (.srd d (BitVec.ofNat 8 n)) s = .next (trapCause s s.cur .priv))
      ∧ (n < 256 → n ∉ (selectorValues s t).map (·.1) →
        exec (.srd d (BitVec.ofNat 8 n)) s = .next (trapCause s s.cur .illins)))

/-- R224, R225, R314: SWR writes the bits that a system register has, and a register that is only read traps with ILLINS. -/
def Sys2Proof.SwrWritesTheSystemRegisters : Prop :=
  ∀ (s : State) (t : Team) (r : Byte) (n : Nat) (f : Word → Team → Team),
    ((n, f) ∈ [((0x00 : Nat), fun (v : Word) (u : Team) => { u with status := v &&& 0x1F03#32 }),
        (0x01, fun v u => { u with trapen := v &&& 1#32 }), (0x08, fun v u => { u with cause := v.toNat % 2 ^ 22 }),
        (0x09, fun v u => { u with epc := u.epc / 2 ^ 32 * 2 ^ 32 + v.toNat }),
        (0x0A, fun v u => { u with epc := u.epc % 2 ^ 32 + 2 ^ 32 * v.toNat }),
        (0x10, fun v u => { u with tscr := u.tscr.set 0 v }), (0x11, fun v u => { u with tscr := u.tscr.set 1 v }),
        (0x12, fun v u => { u with tscr := u.tscr.set 2 v }), (0x13, fun v u => { u with tscr := u.tscr.set 3 v })] →
      UniRuns s t none { Form.of .u .field (.src 1) .field with priv := decide (8 ≤ n) } 0 r.toNat 0 →
      exec (.swr r (BitVec.ofNat 16 n)) s = .next (s.setTeam s.cur (f (BitVec.ofNat 32 (opnd s t .u .i32 r.toNat 0))
        { t.pass 1 with status := t.status ||| deadBits (readsDead t .u r.toNat 1) })))
    ∧ (s.teams[s.cur]? = some t → t.repIdx = 0 → n ∈ [2, 3, 4, 0x0B, 0x0C, 0x0D, 0x0E, 0x0F, 0x14, 0x15] →
      exec (.swr r (BitVec.ofNat 16 n)) s = .next (trapCause s s.cur .illins))

/-- SRD and SWR: every system register, with its privilege and its writable bits (R224, R225, R313, R314).  -/
def Obligations.SystemRegistersAreReadAndWritten : Prop :=
  SrdReadsTheSystemRegisters ∧ SwrWritesTheSystemRegisters

/-! ## Lane and uniform accesses (R183, R187, R217, R227, R317 to R326, R331) -/

/-- R218: each cause has its priority, and of several failures the one recorded is of the cause of the highest priority, of the lowest
lane that meets it, and of the lowest subcause that this lane meets. -/
def Sys2Proof.CausesHaveTheirPriorities : Prop :=
  (∀ x ∈ causeTable, x.1.priority = x.2) ∧ ∀ fs : List Fail, (worst fs = none ↔ fs = [])
    ∧ ∀ x, worst fs = some x → x ∈ fs ∧ ∀ y ∈ fs, x.info.cause.priority < y.info.cause.priority
      ∨ x.info.cause.priority = y.info.cause.priority ∧ (x.info.lane < y.info.lane
        ∨ x.info.lane = y.info.lane ∧ x.info.sub ≤ y.info.sub)

/-- R211, R213, R214: the conditions of a malformed entry, and the subcauses of PPROT, the lowest of those that an access meets. -/
def Sys2Proof.PagesPermitAccesses : Prop :=
  (∀ devnum e lvl, e < 2 ^ 64 → (malformed devnum e lvl = true ↔ MalformedEntry devnum e lvl))
  ∧ ∀ who l pa va f, (permFault who l pa va f = none ↔ ∀ k, ¬ PageRefuses who l pa va f k)
    ∧ ∀ k, permFault who l pa va f = some k → LowestRefusal who l pa va f k

/-- R209 to R213, R215: an address with a bit set in [63:55] is of no page; a hit in a TLB gives its leaf; any other address is walked from
PTROOT, or from a table that the die's walkers hold for it, and the leaf enters both TLBs, where a fault enters none. Nothing but TLBs, view
caches, counters and logs changes, and where the L2s have room nothing in memory. Which tables a walker holds is free: log entry 10. -/
def Sys2Proof.TranslationsWalkTheTables : Prop := ∀ s c asid ptroot va r p w, Whole s → c < 64 →
  translate s c asid ptroot va = (r, p, w) → OnlyLooked s w ∧ (RoomFor s 8 → HomesKept s w)
    ∧ (2 ^ 55 ≤ va → r = .fault 2 0 ∧ p = false)
    ∧ (va < 2 ^ 55 → ∀ e, (s.core c).tlb.find? (fun e => e.hits asid va) = some e → r = .leaf e.leaf e.big ∧ p = false)
    ∧ (va < 2 ^ 55 → (s.core c).tlb.find? (fun e => e.hits asid va) = none →
      (∀ e, (s.die (c / 16)).tlb2.find? (fun e => e.hits asid va) = some e → r = .leaf e.leaf e.big ∧ p = false)
      ∧ ((s.die (c / 16)).tlb2.find? (fun e => e.hits asid va) = none → RoomFor s 8 →
        (∃ lvl t, Walked (entryAt s) s.devnum s.hostCfg.cxlCache va lvl t r p ∧ (lvl = 2 ∧ t = ptroot
          ∨ ∃ x ∈ (s.die (c / 16)).walks, x.asid = asid ∧ x.lvl = lvl + 1 ∧ x.prefixVa = va / 2 ^ (13 * x.lvl + 16) ∧ x.table = t))
        ∧ (∀ l big, r = .leaf l big → ∃ e : TlbEntry, e = ⟨asid, big, va / (if big then 2 ^ 29 else 2 ^ 16), l⟩
          ∧ (w.core c).tlb[0]? = some e ∧ (w.die (c / 16)).tlb2[0]? = some e)
        ∧ (∀ sub lvl, r = .fault sub lvl → (w.core c).tlb = (s.core c).tlb ∧ (w.die (c / 16)).tlb2 = (s.die (c / 16)).tlb2)))

/-- R65, R66, R81, R83, R98, R100, R209, R214, R319: what the checks of one lane's access find, and where the access goes when they find
nothing. -/
def Sys2Proof.LanesAreChecked : Prop := ∀ s m who f lane va tr q m1 s1 r p m2 w, translateOnce s m who va = (tr, q, m1, s1) →
  resolveLane s m who f lane va = (r, p, m2, w) →
  r.lane = lane ∧ r.va = va ∧ (∀ x ∈ r.fails, x.info.lane = lane ∧ x.info.addr = va ∧ x.access = f.kind.code)
  ∧ (∀ sub lvl, tr = .fault sub lvl → r.fails ≠ [] ∧ ∀ c k, (∃ x ∈ r.fails, x.info.cause = c ∧ x.info.sub = k)
      ↔ c = .pfault ∧ k = sub ∨ c = .align ∧ k = 0 ∧ va % f.n ≠ 0)
  ∧ (∀ l big, tr = .leaf l big → l.typ ≠ 1 →
      (∀ c k, (∃ x ∈ r.fails, x.info.cause = c ∧ x.info.sub = k)
        ↔ c = .pprot ∧ LowestRefusal who l (if l.tol = 0 then leafAddress l big va else narrowAddress l big va) va f k
          ∨ c = .align ∧ k = 0 ∧ (va % f.n ≠ 0
            ∨ l.typ ≠ 3 ∧ l.tol ≠ 0 ∧ (f.kind = .write ∨ f.kind = .atomic) ∧ (f.n < 4 ∨ f.bits = true)))
      ∧ r.pre = some (.ready ⟨if l.typ = 3 then .host (leafAddress l big va)
          else if l.tol ≠ 0 then .tolerant (narrowAddress l big va) l.tol (va % 4) else .plain (leafAddress l big va),
        f.n, va, l.ca == 1, l.sync, l.sealedP⟩))
  ∧ ∀ l big e m3 s3, tr = .leaf l big → l.typ = 1 → l.tol = 0 →
      viewOnce s1 m1 who.core (leafAddress l big va / 2 ^ 36 % 2 ^ 11) = (e, m3, s3) →
      (∀ c k, (c ≠ .pprot ∨ k ≠ 3) → ((∃ x ∈ r.fails, x.info.cause = c ∧ x.info.sub = k)
        ↔ c = .pprot ∧ LowestRefusal who l (leafAddress l big va) va f k ∨ c = .align ∧ k = 0 ∧ va % f.n ≠ 0
          ∨ ViewRefuses e f (leafAddress l big va % 2 ^ 36) c k))
      ∧ ((∃ x ∈ r.fails, x.info.cause = .pprot ∧ x.info.sub = 3) ↔ (∀ k, ¬ PageRefuses who l (leafAddress l big va) va f k)
        ∧ (f.kind = .write ∨ f.kind = .atomic) ∧ who.viewadm = false ∧ e.outcome = .legal ∧ e.desc.isGather = false
        ∧ ∃ b ∈ e.desc.bits [] (leafAddress l big va % 2 ^ 36) f.n, ∃ k, b = some k ∧ inViewTable (k / 8) = true)
      ∧ r.pre = some (.through e (leafAddress l big va % 2 ^ 36)
          ⟨.plain (leafAddress l big va), f.n, va, l.ca == 1, l.sync, l.sealedP⟩)

/-- R217, R319: an instruction checks its lanes in their order, and fails with the failure to record; each lane has its target where none
fails. The checks leave registers, blocks, tile stores and accumulators, and those that fail before any index is read leave memory and
every cached word as well. -/
def Sys2Proof.LanesAreCheckedBeforeAnyEffect : Prop := ∀ s who f lanes r w, resolve s who f lanes = (r, w) →
  w.teams = s.teams ∧ w.cur = s.cur ∧ w.blocks = s.blocks ∧ w.cores.map (fun k => (k.tile, k.acc)) = s.cores.map (fun k => (k.tile, k.acc))
  ∧ (r.fail = none → r.tgts.map Prod.fst = lanes.map Prod.fst)
  ∧ ∀ ls p s1, resolveLanes s who f lanes = (ls, p, s1) → OnlyLooked s s1 ∧ (RoomFor s (8 * lanes.length) → HomesKept s s1)
    ∧ ls.map (fun x => (x.lane, x.va)) = lanes
    ∧ ∀ x, worst (ls.flatMap (·.fails)) = some x → r.fail = some x ∧ r.tgts = [] ∧ OnlyLooked s w
      ∧ (RoomFor s (8 * lanes.length) → HomesKept s w)

/-- R137, R217, R325: an instruction whose checks fail traps, or parks its team, and its team has left the active set where its walks or
fills had it wait; one whose checks walked or filled a view cache parks its team for them, once; one whose requests exceed the free
entries is rejected; any other goes on to its lanes' targets. -/
def Sys2Proof.AccessesFailWaitOrGoOn : Prop := ∀ (s : State) (t : Team) (f : AccForm) (addrs : List (Nat × Nat)) (sends : Nat → Bool)
    (extra : List Fail) (r : Resolved) (w : State) (n : Nat), resolve s t.who f addrs = (r, w) →
  n = needOf (r.tgts.filter fun x => sends x.1) →
  (∀ x, worst (r.fail.toList ++ extra) = some x → targets s t f addrs sends extra
      = .error (leaveAfter s (stainTeam w s.cur r.poison) t x true (takeFail (stainTeam w s.cur r.poison) s.cur x)))
  ∧ (r.fail = none → extra = [] →
    (mustWait s w t = true → targets s t f addrs sends extra = .error (parkFill (resolveLanes s t.who f addrs).2.2 s.cur))
    ∧ (mustWait s w t = false →
      targets s t f addrs sends extra = if entriesFree w t n then .ok (stainTeam w s.cur r.poison, r.tgts)
        else .error (reject s s.cur .entries (min n 1024))))

/-- R217, R227: where demand paging is on, a PFAULT of subcause 1 parks a team in user context with its access, on the open record of its page
where there is one; every other failure traps at its instruction. -/
def Sys2Proof.PageFaultsPark : Prop := ∀ (s : State) (k : Nat) (t : Team) (x : Fail), s.teams[k]? = some t → Quiet s t →
  (x.info.cause = .pfault ∧ x.info.sub = 1 ∧ t.priv = false ∧ s.field PFQPTR 63 1 = 1 →
    ∃ rec, takeFail s k x = s.setTeam k { t.voidAll with
        active := false, walked := false, park := some (.pageFault x.info x.access x.lvl s.tick rec) }
      ∧ (∀ i, rec = some i → ∃ y ∈ s.pfOpen, y.idx = i ∧ y.asid = t.cfg.asid ∧ y.page = x.info.addr / 2 ^ 16 % 2 ^ 39)
      ∧ (rec = none → ∀ y ∈ s.pfOpen, ¬ (y.asid = t.cfg.asid ∧ y.page = x.info.addr / 2 ^ 16 % 2 ^ 39)))
  ∧ (¬ (x.info.cause = .pfault ∧ x.info.sub = 1 ∧ t.priv = false ∧ s.field PFQPTR 63 1 = 1) →
    takeFail s k x = takeTrap s k x.info t.pc)

/-- R68, R214, R218, R250: the checks of a fetched word by priority: the translation, R214's table or the fetch from a view page, and the
alignment. An exact page's word comes from the instruction cache where that holds it. -/
def Sys2Proof.FetchesAreChecked : Prop := ∀ s k t va tr p w, translate s t.coreNo t.cfg.asid t.cfg.ptroot va = (tr, p, w) →
  (∀ sub lvl, tr = .fault sub lvl →
    fetchWord s k t va = (.error ⟨⟨.pfault, sub, 0, va⟩, 3, lvl, none⟩, stainTeam w k p))
  ∧ ∀ l big, tr = .leaf l big →
    (l.typ = 1 → (fetchWord s k t va).1 = .error ⟨if va % 4 = 0 then ⟨.viewf, 6, 0, va⟩ else ⟨.align, 0, 0, va⟩, 3, 0, none⟩)
    ∧ (l.typ ≠ 1 →
      (∀ j, LowestRefusal t.who l (leafAddress l big va) va ⟨4, .fetch, false, false⟩ j →
        fetchWord s k t va = (.error ⟨⟨.pprot, j, 0, va⟩, 3, 0, none⟩, stainTeam w k p))
      ∧ ((∀ j, ¬ PageRefuses t.who l (leafAddress l big va) va ⟨4, .fetch, false, false⟩ j) →
        (va % 4 ≠ 0 → fetchWord s k t va = (.error ⟨⟨.align, 0, 0, va⟩, 3, 0, none⟩, stainTeam w k p))
        ∧ (va % 4 = 0 → ∃ x u, fetchWord s k t va = (.ok x, u) ∧ ∀ y, l.tol = 0 →
          look (leafAddress l big va / 4) ((stainTeam w k p).core t.coreNo).icache = some y → x = y)))

/-- R217, R227: accesses are translated, checked in every lane before any effect, and trap or park where they fail. The model's own choices
in it: log entries 10, 12, 62, 115. -/
def Obligations.FailedAccessesTrapOrPark : Prop :=
  CausesHaveTheirPriorities ∧ PagesPermitAccesses ∧ TranslationsWalkTheTables ∧ LanesAreChecked ∧ LanesAreCheckedBeforeAnyEffect
    ∧ AccessesFailWaitOrGoOn ∧ PageFaultsPark ∧ FetchesAreChecked

/-- R317, R318, R321: a lane load checks every active lane, and its requests for the addresses A + offset × n go out. -/
def Sys2Proof.LaneLoadsGoOut : Prop :=
  ∀ (p : LPre) (d a o : Byte) (i : Instr) (n : Nat) (signed : Bool), (i, n, signed) ∈ [(Instr.ldb p d a o, 1, false),
      (.ldbs p d a o, 1, true), (.ldh p d a o, 2, false), (.ldhs p d a o, 2, true), (.ldw p d a o, 4, false),
      (.ldd p d a o, 8, false), (.ldq p d a o, 16, false)] →
    ∀ s t f k, f = Form.of .m (.dst ((n + 3) / 4)) .pair .field → k = laneCodes t p d.toNat a.toNat o.toNat →
    LaneRuns s t p f d.toNat a.toNat o.toNat → PassesEmpty i s t p 1
    ∧ ((effMask t p).1 ≠ 0#1024 →
      (∀ w, targets s t ⟨n, .read, false, false⟩ (laneAddresses s t p k.a o n) (fun _ => true) [] = .error w → exec i s = .next w)
      ∧ ∀ s1 tgts t1, targets s t ⟨n, .read, false, false⟩ (laneAddresses s t p k.a o n) (fun _ => true) [] = .ok (s1, tgts) →
        s1.teams[s1.cur]? = some t1 → ∃ u, exec i s = .next (s1.setTeam s1.cur u)
          ∧ u.loads = t1.loads ++ [⟨k.d, n, signed, false, (pfxOf p).zm, needOf tgts, tgts⟩]
          ∧ LaneEnds t1 { u with loads := t1.loads } p f k 1 (readsDead t .m k.a 2))

/-- R37, R137, R321, R324: the data of a load of one pass goes to the lanes that asked for it, extended as the form says; under ZM the
other lanes are zero, and without it they keep their old value. Other registers stay, and a team that waits for the load alone is
queued. -/
def Sys2Proof.LoadsWriteTheirRegisters : Prop :=
  ∀ (s s1 : State) (k : Nat) (t t1 : Team) (r : LoadReq) (tbl : WordTable), s.teams[k]? = some t → (∀ x ∈ r.reads, x.1 < 32) →
    r.reads ≠ [] → readWords s t.coreNo (r.reads.flatMap fun x => x.2.wordReqs) = (tbl, s1) → s1.teams[k]? = some t1 →
    (∀ x ∈ r.reads, x.2.poisoned tbl = false) → r.dst + (r.n + 3) / 4 ≤ t1.regs.length → t1.regs.length ≤ 160 →
    (∀ v ∈ t1.regs, v.length = t1.tl) → ∃ u,
      loadArrive s k r = (match t1.park with
        | some (.load rs) => if t1.loads.any (fun x => rs.any x.writes) then s1.setTeam k u else unparkKey (s1.setTeam k u) t1.key
        | _ => s1.setTeam k u)
      ∧ (∀ n, n < r.dst ∨ r.dst + (r.n + 3) / 4 ≤ n → u.regs[n]? = t1.regs[n]?)
      ∧ (∀ j l, j < (r.n + 3) / 4 → l < t1.tl →
        (∀ x y, (if r.uni then r.reads.head? else r.reads.find? fun x => x.1 == l) = some (x, y) →
          u.regAt (r.dst + j) l = BitVec.ofNat 32 ((if r.signed then intBits 32 (sext (8 * r.n) (y.value tbl)) else y.value tbl)
            / 2 ^ (32 * j)))
        ∧ (r.uni = false → (∀ x ∈ r.reads, x.1 ≠ l) →
          u.regAt (r.dst + j) l = if r.zm then 0#32 else t1.regAt (r.dst + j) l))
      ∧ { u with regs := t1.regs, dead := t1.dead } = t1

/-- Lane loads go out and write their registers (R37, R317, R318, R321, R324). The model's own choices in it: log
entries 24, 38. -/
def Obligations.LaneLoadsReadMemory : Prop :=
  LaneLoadsGoOut ∧ LoadsWriteTheirRegisters

/-- R181, R182, R184: a cached word is read from the core's L1; where the L1 lacks it and the core's die homes it,
from the core that holds it registered, or else from its home, and the L1 keeps it. The model's own choices in it: log
entries 15, 25. -/
def Obligations.ReadsSeeTheL1OrTheHome : Prop :=
  ∀ (s : State) (c w : Nat), isLocalWord w = true → c < s.cores.length →
    (∀ x, l1Word s c w = some x → readWords s c [⟨w, false, false, false⟩] = ([(w, x.val, false)], s))
    ∧ (l1Word s c w = none → homeDie (4 * w) = coreDie c → homePoisoned s (4 * w / 32) = false →
      s.l2.length + s.l2held.length < l2Size → (s.core c).l1.length < l1Lines →
      ∃ v u, readWords s c [⟨w, false, false, false⟩] = ([(w, v, false)], u) ∧ HomesKept s u ∧ u.teams = s.teams
        ∧ l1Word u c w = some ⟨v, false, false, false, false, none⟩
        ∧ (∀ k, k ≠ w → l1Word u c k = l1Word s c k) ∧ (∀ e, e ≠ c → (u.core e).l1 = (s.core e).l1)
        ∧ (∀ r x, look w s.registrants = some r → l1Word s r w = some x → v = x.val)
        ∧ (look w s.registrants = none → v = wordOfBytes (homeBytes s (4 * w) 4)))

/-- R317, R321, R323: a lane store checks every active lane and then performs its lanes' stores in their order, the
bits that C enables for STBM. The model's own choices in it: log entries 15, 55. -/
def Obligations.LaneStoresPerformTheirLanes : Prop :=
  ∀ (p : LPre) (d a o : Byte) (s : State) (t : Team) (f : Form) (k : Codes), k = laneCodes t p d.toNat a.toNat o.toNat →
    (∀ i n, (i, n) ∈ [(Instr.stb p d a o, 1), (.sth p d a o, 2), (.stw p d a o, 4), (.std p d a o, 8), (.stq p d a o, 16)] →
      f = noWriteForm (.src ((n + 3) / 4)) .pair → LaneRuns s t p f d.toNat a.toNat o.toNat → PassesEmpty i s t p 1
      ∧ ((effMask t p).1 ≠ 0#1024 →
        (∀ w, targets s t ⟨n, .write, false, false⟩ (laneAddresses s t p k.a o n) (fun _ => true) [] = .error w →
          exec i s = .next w)
        ∧ ∀ s1 tgts xs t1, targets s t ⟨n, .write, false, false⟩ (laneAddresses s t p k.a o n) (fun _ => true) []
            = .ok (s1, tgts) →
          xs = tgts.map (fun x => ⟨x.1, x.2, opnd s1 t .m (kindOfBytes n) k.d x.1, 2 ^ (8 * n) - 1⟩) →
          (doStores s1 xs).teams[(doStores s1 xs).cur]? = some t1 → ∃ u,
            exec i s = .next ((doStores s1 xs).setTeam (doStores s1 xs).cur u)
            ∧ LaneEnds t1 u p f k 1 (readsDead t .m k.a 2 || readsDead t .m k.d ((n + 3) / 4))))
    ∧ (f = { noWriteForm (.src 1) .pair with c := .src 1 } → LaneRuns s t p f d.toNat a.toNat o.toNat →
      PassesEmpty (.stbm p d a o) s t p 1
      ∧ ((effMask t p).1 ≠ 0#1024 → ∀ s1 tgts xs t1,
        targets s t ⟨4, .write, false, true⟩ (laneAddresses s t p k.a o 4) (fun l => opnd s t .m .i32 k.c l != 0) []
          = .ok (s1, tgts) →
        xs = (tgts.filter fun x => opnd s t .m .i32 k.c x.1 != 0).map
          (fun x => ⟨x.1, x.2, opnd s1 t .m .i32 k.d x.1, opnd s t .m .i32 k.c x.1⟩) →
        (doStores s1 xs true).teams[(doStores s1 xs true).cur]? = some t1 → ∃ u,
          exec (.stbm p d a o) s = .next ((doStores s1 xs true).setTeam (doStores s1 xs true).cur u)
          ∧ LaneEnds t1 u p f k 1 (readsDead t .m k.a 2 || readsDead t .m k.d 1 || readsDead t .m k.c 1)))

/-- R183, R187, R321: stores of whole words of plain memory stay in the core's L1, dirty and on their way to be registered; the
lane of highest index that covers a word gives its final value, for every word that some lane covers; no other word of any core and
no byte at home changes. -/
def Sys2Proof.WordStoresStayInTheL1 : Prop :=
  ∀ (s w : State) (t : Team) (xs : List LaneStore), s.teams[s.cur]? = some t → t.loads = [] → t.coreNo < s.cores.length →
    (∀ d, (s.die d).seals = []) → (s.core t.coreNo).l1.length + 4 * xs.length ≤ l1Lines →
    (∀ x ∈ xs, x.mask = 2 ^ (8 * x.tgt.n) - 1 ∧ ∃ pa, PlainWords x.tgt pa) → w = doStores s xs →
    HomesKept s w ∧ (∀ c, c ≠ t.coreNo → (w.core c).l1 = (s.core c).l1)
    ∧ (∀ k, (∀ x ∈ xs, ∀ pa, x.tgt.loc = .plain pa → 4 * k < pa ∨ pa + x.tgt.n ≤ 4 * k) →
      l1Word w t.coreNo k = l1Word s t.coreNo k)
    ∧ ∀ ys x zs pa j, xs = ys ++ x :: zs → x.tgt.loc = .plain pa → 4 * j < x.tgt.n →
      (∀ z ∈ zs, ∀ pz, z.tgt.loc = .plain pz → pa + 4 * j < pz ∨ pz + z.tgt.n ≤ pa + 4 * j) → ∃ y, l1Word w t.coreNo (pa / 4 + j) = some y
      ∧ y.val = BitVec.ofNat 32 (x.val / 2 ^ (32 * j)) ∧ y.dirty = true ∧ (y.reg = true ∨ y.pend = true)

/-- R91, R321, R323: a store of enabled bits to a word that no core holds goes to its home: each byte takes the enabled bits of
its value and keeps its others, and every other byte reads as before; below the caches at most its own sector is written. -/
def Sys2Proof.NarrowStoresGoToTheHome : Prop :=
  ∀ (s w : State) (c pa v mask : Nat) (t : Tgt) (bits : Bool) (r : Stored), t.loc = .plain pa → t.n = 1 ∨ t.n = 2 ∨ t.n = 4 → pa % t.n = 0 →
    pa < 2 ^ 46 → t.uncached = false → t.sync = false → mask < 2 ^ (8 * t.n) → mask ≠ 2 ^ 32 - 1 ∨ bits = true → (∀ d, (s.die d).seals = []) →
    l1Word s c (pa / 4) = none → look (pa / 4) s.registrants = none → homePoisoned s (pa / 32) = false →
    s.l2.length + s.l2held.length < l2Size → storeTgt s c t v mask bits = (r, w) → r.sealedW = false
      ∧ (∀ i, i < t.n → homeByte w (pa + i) = (homeByte s (pa + i) &&& ~~~BitVec.ofNat 8 (mask / 2 ^ (8 * i)))
          ||| (BitVec.ofNat 8 (v / 2 ^ (8 * i)) &&& BitVec.ofNat 8 (mask / 2 ^ (8 * i))))
      ∧ (∀ a, a < pa ∨ pa + t.n ≤ a → a / 32 = pa / 32 ∨ place s a ≠ place s pa → homeByte w a = homeByte s a)
      ∧ (∀ n, place s pa = some n → ∀ b, b / 32 ≠ n → Memory.read w.dram b = Memory.read s.dram b)
      ∧ w.registrants = s.registrants ∧ w.teams = s.teams ∧ ∀ e, (w.core e).l1 = (s.core e).l1

/-- Word stores stay in the L1, narrower ones go to the home; every other byte is kept (R91, R183, R187, R321, R323).
The model's own choices in it: log entries 15, 23. -/
def Obligations.StoresReachTheL1OrTheHome : Prop :=
  WordStoresStayInTheL1 ∧ NarrowStoresGoToTheHome

/-- R171, R326: the tile-store forms read and write the bytes at A + offset × n of the block's tile store, the last lane that covers a
byte giving its value, and trap where an access is out of bounds, misaligned or not the team's. The model's own choices in it: log
entries 17, 18, 55. -/
def Obligations.TileStoreForms : Prop :=
  ∀ (p : LPre) (d a : Byte) (m o : BitVec 4) (s : State) (t : Team) (n : Nat) (more : List (Role × Nat)) (k : Codes)
    (addrs : List (Nat × Nat)), n = 4 ∨ n = 16 → more = (if 192 ≤ a.toNat then [(.run 1, a.toNat)] else []) →
    k = laneCodes t p d.toNat a.toNat 0 →
    addrs = ((List.range t.tl).filter fun l => (effMask t p).1.getLsbD l).map
      (fun l => (l, opnd s t .m .i32 k.a l + o.toNat * n)) →
    (∀ i f, i = (if n = 4 then Instr.ldt p d a m o else .ldtq p d a m o) →
      f = { Form.of .m (.dst (n / 4)) (.src 1) .field with more := more } → LaneRuns s t p f d.toNat a.toNat 0 →
      PassesEmpty i s t p 1
      ∧ ((effMask t p).1 ≠ 0#1024 →
        (∀ x, worst (tileFails s t n addrs) = some x → exec i s = .next (takeFail s s.cur x))
        ∧ (tileFails s t n addrs = [] → ∃ u, exec i s = .next (s.setTeam s.cur u)
          ∧ LaneResult t u p f k (n / 4) (readsDead t .m k.a 1)
            fun l => (leNat (tileRead s (blockFor s t) m.toNat (opnd s t .m .i32 k.a l + o.toNat * n) n), FFlags.none))))
    ∧ (∀ i f, i = (if n = 4 then Instr.stt p d a m o else .sttq p d a m o) →
      f = { noWriteForm (.src (n / 4)) (.src 1) with more := more } → LaneRuns s t p f d.toNat a.toNat 0 →
      PassesEmpty i s t p 1
      ∧ ((effMask t p).1 ≠ 0#1024 →
        (∀ x, worst (tileFails s t n addrs) = some x → exec i s = .next (takeFail s s.cur x))
        ∧ (tileFails s t n addrs = [] → ∃ w u, exec i s = .next (w.setTeam w.cur u) ∧ w.teams = s.teams ∧ HomesKept s w
          ∧ LaneEnds t u p f k 1 (readsDead t .m k.a 1 || readsDead t .m k.d (n / 4))
          ∧ (∀ e, (w.core e).l1 = (s.core e).l1)
          ∧ (∀ c q, (∀ x ∈ addrs, ∀ j, j < n → (c, q) ≠ tileSpot (blockFor s t) m.toNat (x.2 + j)) →
              Memory.read (w.core c).tile q = Memory.read (s.core c).tile q)
          ∧ ∀ l x ys zs, addrs = ys ++ (l, x) :: zs → ∀ j, j < n → (tileSpot (blockFor s t) m.toNat (x + j)).1 < s.cores.length →
              (∀ z ∈ zs, ∀ i, i < n → tileSpot (blockFor s t) m.toNat (z.2 + i) ≠ tileSpot (blockFor s t) m.toNat (x + j)) →
              tileByte w (blockFor s t) m.toNat (x + j)
                = BitVec.ofNat 8 (opnd s t .m (kindOfBytes n) k.d l / 2 ^ (8 * j)))))

/-- R331: the uniform loads and stores access the address of lane 0 once; a load's data goes to every lane. The
model's own choices in it: log entries 15, 24, 55. -/
def Obligations.UniformLoadsAndStores : Prop :=
  ∀ (d a o : Byte) (s : State) (t : Team) (n va : Nat), n = 4 ∨ n = 8 → va = pairAddress (opnd s t .m .i64 a.toNat 0) o n →
    (∀ i, i = (if n = 4 then Instr.uld d a o else .uldd d a o) →
      UniRuns s t none (Form.of .m (.dst (n / 4)) .pair .field) d.toNat a.toNat 0 →
      (∀ w, targets s t ⟨n, .read, false, false⟩ [(0, va)] (fun _ => true) [] = .error w → exec i s = .next w)
      ∧ ∀ s1 tgts t1, targets s t ⟨n, .read, false, false⟩ [(0, va)] (fun _ => true) [] = .ok (s1, tgts) →
        s1.teams[s1.cur]? = some t1 → exec i s = .next (s1.setTeam s1.cur { t1.pass 1 with
          loads := t1.loads ++ [⟨d.toNat, n, false, true, false, needOf tgts, tgts⟩]
          status := t1.status ||| deadBits (readsDead t .m a.toNat 2) }))
    ∧ (∀ i, i = (if n = 4 then Instr.ust d a o else .ustd d a o) →
      UniRuns s t none (noWriteForm (.src (n / 4)) .pair) d.toNat a.toNat 0 →
      (∀ w, targets s t ⟨n, .write, false, false⟩ [(0, va)] (fun _ => true) [] = .error w → exec i s = .next w)
      ∧ ∀ s1 tgts xs t1, targets s t ⟨n, .write, false, false⟩ [(0, va)] (fun _ => true) [] = .ok (s1, tgts) →
        xs = tgts.map (fun x => ⟨x.1, x.2, opnd s1 t .m (kindOfBytes n) d.toNat 0, 2 ^ (8 * n) - 1⟩) →
        (doStores s1 xs).teams[(doStores s1 xs).cur]? = some t1 →
        exec i s = .next ((doStores s1 xs).setTeam (doStores s1 xs).cur { t1.pass 1 with
          status := t1.status ||| deadBits (readsDead t .m a.toNat 2 || readsDead t .m d.toNat (n / 4)) }))

/-! ## Ordered accesses and atomics (R187 to R190, R327 to R332) -/

/-- R190, R194, R195: an acquire at QUAD or wider drops every word of the core's L1 that is not registered and that the signature
names, or every one where there is no signature or a full one; at PKG and POD the die's Canopy likewise. The core's registrations on
their way are granted first; with none on its way, nothing else changes. -/
def Sys2Proof.AcquiresDropStaleWords : Prop :=
  ∀ (s : State) (c : Nat) (sc : Scope) (g : Option Sig), c < s.cores.length → coreDie c < s.dies.length →
    (inCore sc = true → acquire s c sc g = s)
    ∧ (inCore sc = false → (acquire s c sc g).teams = s.teams
      ∧ ∀ e ∈ ((acquire s c sc g).core c).l1, e.2.reg = true ∨ (match g with
          | none => true
          | some g => sigFull g || sigHits g (4 * e.1)) = false)
    ∧ (inCore sc = false → (∀ e ∈ (s.core c).l1, e.2.pend = false) → HomesKept s (acquire s c sc g)
      ∧ (∀ e, e ≠ c → ((acquire s c sc g).core e).l1 = (s.core e).l1)
      ∧ ((acquire s c sc g).core c).l1 = (s.core c).l1.filter (fun e => e.2.reg || !(match g with
          | none => true
          | some g => sigFull g || sigHits g (4 * e.1)))
      ∧ ((acquire s c sc g).die (coreDie c)).canopy = if sc = .pkg ∨ sc = .pod then
          (s.die (coreDie c)).canopy.filter (fun e => e.2.host || !(match g with
            | none => true
            | some g => sigFull g || sigHits g (4 * e.1))) else (s.die (coreDie c)).canopy)

/-- R327: a relaxed LDX, or an acquiring one within a core, gives each lane the words that its core's L1 holds; a relaxed STX
stores as the plain forms do, and a releasing one at the scope of its core also clears W before its REGION. -/
def Sys2Proof.OrderedLoadsAndStores : Prop :=
  ∀ (x : Option Pfx) (p : LPre) (d a o : Byte) (b64 : Bool) (sc : Scope) (n : Nat) (s : State) (t : Team) (f : Form) (k : Codes),
    p = ⟨none, x⟩ → n = (if b64 then 8 else 4) → k = laneCodes t p d.toNat a.toNat o.toNat → (effMask t p).1 ≠ 0#1024 →
    (∀ ord s1 tgts, ord = .rlx ∨ ord = .acq ∧ inCore sc = true → f = Form.of .m (.dst (n / 4)) .pair .field →
      LaneRuns s t p f d.toNat a.toNat o.toNat → t.loads = [] →
      targets s t ⟨n, .read, false, false⟩ (laneAddresses s t p k.a o n) (fun _ => true) [] = .ok (s1, tgts) →
      s1.teams[s1.cur]? = some t → (∀ y ∈ tgts, ∃ pa, PlainWords y.2 pa ∧ y.2.n = n
        ∧ ∀ j, j < 32 → (l1Word s1 t.coreNo (pa / 128 * 32 + j)).isSome = true) →
      ∃ u, exec (.ldx x d a o b64 ord sc) s = .next (s1.setTeam s1.cur u)
        ∧ LaneResult t { u with pc := u.pc - 4 } p f k (n / 4) (readsDead t .m k.a 2) fun l => ((match look l tgts with
          | some y => match y.loc with
            | .plain pa => joinWords (n / 4) fun j => ((l1Word s1 t.coreNo (pa / 4 + j)).map L1Word.val).getD 0#32
            | _ => 0
          | none => 0), FFlags.none))
    ∧ (f = noWriteForm (.src (n / 4)) .pair → LaneRuns s t p f d.toNat a.toNat o.toNat →
      (∀ s1 tgts xs t1, targets s t ⟨n, .write, false, false⟩ (laneAddresses s t p k.a o n) (fun _ => true) []
          = .ok (s1, tgts) →
        xs = tgts.map (fun y => ⟨y.1, y.2, opnd s1 t .m (kindOfBytes n) k.d y.1, 2 ^ (8 * n) - 1⟩) →
        (doStores s1 xs).teams[(doStores s1 xs).cur]? = some t1 → ∃ u,
          exec (.stx x d a o b64 .rlx sc) s = .next ((doStores s1 xs).setTeam (doStores s1 xs).cur u)
          ∧ LaneEnds t1 u p f k 2 (readsDead t .m k.a 2 || readsDead t .m k.d (n / 4)))
      ∧ (∀ live s0 s1 tgts, Pairs s t (laneWords p 2) live s0 → inCore sc = true → Quiet s1 t → (∀ e, (s1.die e).seals = []) →
        targets s0 t ⟨n, .write, false, false⟩ (laneAddresses s0 t p k.a o n) (fun _ => true) [] = .ok (s1, tgts) →
        s1.cur = s.cur → s1.teams[s1.cur]? = some t → t.coreNo < s1.cores.length →
        (s1.core t.coreNo).l1.length + 4 * tgts.length ≤ l1Lines → (∀ y ∈ tgts, ∃ pa, PlainWords y.2 pa ∧ y.2.n = n) →
        ∃ w u, exec (.stx x d a o b64 .rel sc) s = .next (afterPair (w.setTeam s.cur u) t.die t.pc (laneWords p 2) live)
          ∧ u.sigW = 0#512 ∧ LaneEnds t (u.sameSigs t) p f k 2 (readsDead t .m k.a 2 || readsDead t .m k.d (n / 4))
          ∧ HomesKept s1 w ∧ ∀ ys l y zs pa j, tgts = ys ++ (l, y) :: zs → y.loc = .plain pa → 4 * j < n →
            (∀ z ∈ zs, z.2.loc ≠ .plain pa) →
            ∃ v, l1Word w t.coreNo (pa / 4 + j) = some v ∧ v.dirty = true
              ∧ v.val = BitVec.ofNat 32 (opnd s1 t .m (kindOfBytes n) k.d l / 2 ^ (32 * j))))

/-- R189, R190, R194, R197, R327: at QUAD scope or wider an acquiring or SC load of a sync block reads the value and the slot at the home and
acquires by that slot; a releasing or SC store writes the value there, merges its team's release signature into the slot, and clears W;
and an SC operation stamps the block. -/
def Sys2Proof.WideLoadsAndStoresOfSyncBlocks : Prop :=
  ∀ (x : Option Pfx) (p : LPre) (d a o : Byte) (b64 : Bool) (ord : Order) (sc : Scope) (n l pa : Nat) (s s1 : State) (t : Team) (f : Form)
    (k : Codes) (y : Tgt), p = ⟨none, x⟩ → n = (if b64 then 8 else 4) → k = laneCodes t p d.toNat a.toNat o.toNat → inCore sc = false →
    (effMask t p).1 = 1#1024 <<< l → l < t.tl → s1.teams[s1.cur]? = some t → Quiet s1 t → SyncTarget y pa n →
    BlockAtHome s1 t.coreNo pa → LaneRuns s t p f d.toNat a.toNat o.toNat →
    (ord = .acq ∨ ord = .sc → f = Form.of .m (.dst (n / 4)) .pair .field →
      targets s t ⟨n, .read, ord == .sc, false⟩ (laneAddresses s t p k.a o n) (fun _ => true) [] = .ok (s1, [(l, y)]) →
      ∃ w u, exec (.ldx x d a o b64 ord sc) s = .next (w.setTeam s1.cur u) ∧ BlockAfter s1 w t.coreNo pa [] none (ord == .sc)
        ∧ AcquiredSlot t u w t.sigW (homeSlot s1 pa)
        ∧ LaneResult t { u.sameSigs t with pc := u.pc - 4 } p f k (n / 4) (readsDead t .m k.a 2)
          fun _ => (leNat (homeBytes s1 pa n), FFlags.none))
    ∧ (∀ live s0, ord = .rel ∨ ord = .sc → f = noWriteForm (.src (n / 4)) .pair → Pairs s t (laneWords p 2) live s0 →
      targets s0 t ⟨n, .write, ord == .sc, false⟩ (laneAddresses s0 t p k.a o n) (fun _ => true) [] = .ok (s1, [(l, y)]) → s1.cur = s.cur →
      ∃ w u, exec (.stx x d a o b64 ord sc) s = .next (afterPair (w.setTeam s.cur u) t.die t.pc (laneWords p 2) live)
        ∧ BlockAfter s1 w t.coreNo pa (leBytes n (opnd s1 t .m (kindOfBytes n) k.d l)) (some (t.sigW ||| t.sigE0 ||| t.sigE1 ||| t.sigE2))
          (ord == .sc)
        ∧ u.sigW = 0#512 ∧ u.sigE0 = t.sigE0 ∧ u.sigE1 = t.sigE1 ∧ u.sigE2 = t.sigE2
        ∧ LaneEnds t (u.sameSigs t) p f k 2 (readsDead t .m k.a 2 || readsDead t .m k.d (n / 4)))

/-- R189, R190, R194, R197, R328, R332: an ordered ATOM or UATOM on a sync block at QUAD scope or wider replaces the value at the home by
that of its operation; it releases where its order does, acquires by the slot that it met where its order does, and stamps the block where
it is SC. -/
def Sys2Proof.WideAtomicsOnSyncBlocks : Prop :=
  ∀ (q : Option Pfx) (d a b : Byte) (x : AtomExt) (s s0 s1 : State) (t : Team) (live : BitVec 160) (n l pa old new : Nat) (y : Tgt)
    (i : Instr) (k : Codes) (kd : Kind) (dead : Bool), n = (if x.b64 then 8 else 4) → SyncTarget y pa n → BlockAtHome s1 t.coreNo pa →
    x.ord ≠ .rlx → inCore x.sc = false → Quiet s1 t → s1.cur = s.cur → s1.teams[s1.cur]? = some t →
    kd = aopKind x.aop x.b64 → old = leNat (homeBytes s1 pa n) →
    dead = (readsDead t .m k.a 2 || readsDead t .m k.b (n / 4) || (usesC x.aop && readsDead t .m x.c.toNat (n / 4))) →
    new = aopApply x.aop n old (opnd s1 t .m kd k.b l) (if usesC x.aop then opnd s1 t .m kd x.c.toNat l else 0) →
    (i = .atom q d a b x ∧ k = laneCodes t ⟨none, q⟩ d.toNat a.toNat b.toNat ∧ (pfxOf ⟨none, q⟩).kc = false
        ∧ LaneCloses s t ⟨none, q⟩ (atomForm x (n / 4)) d.toNat a.toNat b.toNat 2 live s0
        ∧ targets s0 t ⟨n, .atomic, x.ord == .sc, false⟩ ((lanesOf t (effMask t ⟨none, q⟩).1).map fun l => (l, opnd s0 t .m .i64 k.a l))
            (fun _ => true) [] = .ok (s1, [(l, y)]) ∧ (effMask t ⟨none, q⟩).1 = 1#1024 <<< l ∧ l < t.tl
      ∨ i = .uatom d a b x ∧ k = uniCodes t none d.toNat a.toNat b.toNat ∧ l = 0
        ∧ UniCloses s t (atomForm x (n / 4)) d.toNat a.toNat b.toNat 2 live s0
        ∧ targets s0 t ⟨n, .atomic, x.ord == .sc, false⟩ [(0, opnd s0 t .m .i64 k.a 0)] (fun _ => true) [] = .ok (s1, [(0, y)])) →
    ∃ w u, exec i s = .next (afterPair (w.setTeam s.cur u) t.die t.pc
          (if i = .uatom d a b x then 2 else laneWords ⟨none, q⟩ 2) live)
      ∧ BlockAfter s1 w t.coreNo pa (leBytes n new)
        (if releases x.ord then some (t.sigW ||| t.sigE0 ||| t.sigE1 ||| t.sigE2) else none) (x.ord == .sc)
      ∧ (acquires x.ord = true → AcquiredSlot t u w (if releases x.ord then 0#512 else t.sigW) (homeSlot s1 pa))
      ∧ (acquires x.ord = false → u.sigW = 0#512 ∧ u.sigE0 = t.sigE0 ∧ u.sigE1 = t.sigE1 ∧ u.sigE2 = t.sigE2)
      ∧ (i = .atom q d a b x → (x.ret = true →
            LaneResult t (u.sameSigs t) ⟨none, q⟩ (atomForm x (n / 4)) k (n / 4) dead fun _ => (old, FFlags.none))
          ∧ (x.ret = false → LaneEnds t (u.sameSigs t) ⟨none, q⟩ (atomForm x (n / 4)) k 2 dead))
      ∧ (i = .uatom d a b x → (x.ret = true → UniResult t (u.sameSigs t) .m none 2 k (n / 4) dead old)
          ∧ (x.ret = false → u.regs = t.regs ∧ u.dead = t.dead))

/-- LDX and STX, the ordered atomics, and what an acquire drops (R189, R190, R194, R195, R197, R327, R328, R332). The model's own choices in it: log entries 15, 17, 55. -/
def Obligations.OrderedAccessesAndAcquires : Prop :=
  AcquiresDropStaleWords ∧ OrderedLoadsAndStores ∧ WideLoadsAndStoresOfSyncBlocks ∧ WideAtomicsOnSyncBlocks

/-- R288, R330: the new values of the atomic operations. FADD rounds the sum of finite values once to the nearest; FMIN and FMAX put
−0 below +0, give the other operand of one NaN, and NAN_OUT of two. -/
def Obligations.AtomicOperationsComputeTheNewValue : Prop :=
  ∀ (n : Nat) (x y z : BitVec (8 * n)), n = 4 ∨ n = 8 →
    aopApply .add n x.toNat y.toNat z.toNat = (x + y).toNat ∧ aopApply .sub n x.toNat y.toNat z.toNat = (x - y).toNat
    ∧ aopApply .min n x.toNat y.toNat z.toNat = (if x.toInt < y.toInt then x else y).toNat
    ∧ aopApply .max n x.toNat y.toNat z.toNat = (if x.toInt < y.toInt then y else x).toNat
    ∧ aopApply .umin n x.toNat y.toNat z.toNat = (if x < y then x else y).toNat
    ∧ aopApply .umax n x.toNat y.toNat z.toNat = (if x < y then y else x).toNat
    ∧ aopApply .and n x.toNat y.toNat z.toNat = (x &&& y).toNat ∧ aopApply .or n x.toNat y.toNat z.toNat = (x ||| y).toNat
    ∧ aopApply .xor n x.toNat y.toNat z.toNat = (x ^^^ y).toNat ∧ aopApply .xchg n x.toNat y.toNat z.toNat = y.toNat
    ∧ aopApply .cas n x.toNat y.toNat z.toNat = (if x = z then y else x).toNat
    ∧ aopApply .inc n x.toNat y.toNat z.toNat = (if z ≤ x then 0 else x + 1).toNat
    ∧ ∀ f, f = (if n = 8 then Fmt.fp64 else .fp32) → ∀ v w, v = f.read x.toNat → w = f.read y.toNat →
      aopApply .fadd n x.toNat y.toNat z.toNat = (f.addF .rne false v w).1
      ∧ (∀ a b q r, v = .fin a q → w = .fin b r →
        aopApply .fadd n x.toNat y.toNat z.toNat = (f.round .rne false (a && b && q.isZero && r.isZero) (q.add r)).1)
      ∧ (v.isNan = false → w.isNan = false → ∀ less, less = (v.lt w || (v.eqv w && v.sign && !w.sign)) →
        aopApply .fmin n x.toNat y.toNat z.toNat = (if less then x else y).toNat
        ∧ aopApply .fmax n x.toNat y.toNat z.toNat = (if less then y else x).toNat)
      ∧ (v.isNan = true → w.isNan = false →
        aopApply .fmin n x.toNat y.toNat z.toNat = y.toNat ∧ aopApply .fmax n x.toNat y.toNat z.toNat = y.toNat)
      ∧ (v.isNan = false → w.isNan = true →
        aopApply .fmin n x.toNat y.toNat z.toNat = x.toNat ∧ aopApply .fmax n x.toNat y.toNat z.toNat = x.toNat)
      ∧ (v.isNan = true → w.isNan = true →
        aopApply .fmin n x.toNat y.toNat z.toNat = f.nanOut [v, w] ∧ aopApply .fmax n x.toNat y.toNat z.toNat = f.nanOut [v, w])

/-- R328, R330, R332: an atomic on a word that only its home holds replaces the value there by that of its operation,
and gives the old value to its lane, or to every lane for UATOM, where RET asks for it; no other byte changes. The
model's own choices in it: log entries 17, 43, 47, 55, 73. -/
def Obligations.AtomicsReadAndReplaceAtTheHome : Prop :=
  ∀ (q : Option Pfx) (d a b : Byte) (x : AtomExt) (s s0 s1 : State) (t : Team) (live : BitVec 160) (n l pa old new : Nat) (g : Tgt)
    (i : Instr) (k : Codes) (kd : Kind) (dead : Bool), n = (if x.b64 then 8 else 4) → PlainWords g pa → g.n = n →
    (∀ j, 4 * j < n → OnlyAtHome s1 t.coreNo (pa / 4 + j)) → (∀ e, (s1.die e).seals = []) →
    s1.l2.length + s1.l2held.length < l2Size → x.ord = .rlx → inCore x.sc = false → t.loads = [] → s1.cur = s.cur → s1.teams[s1.cur]? = some t →
    kd = aopKind x.aop x.b64 → old = leNat (homeBytes s1 pa n) →
    dead = (readsDead t .m k.a 2 || readsDead t .m k.b (n / 4) || (usesC x.aop && readsDead t .m x.c.toNat (n / 4))) →
    new = aopApply x.aop n old (opnd s1 t .m kd k.b l) (if usesC x.aop then opnd s1 t .m kd x.c.toNat l else 0) →
    (i = .atom q d a b x ∧ k = laneCodes t ⟨none, q⟩ d.toNat a.toNat b.toNat ∧ (pfxOf ⟨none, q⟩).kc = false
        ∧ LaneCloses s t ⟨none, q⟩ (atomForm x (n / 4)) d.toNat a.toNat b.toNat 2 live s0 ∧ (effMask t ⟨none, q⟩).1 ≠ 0#1024
        ∧ targets s0 t ⟨n, .atomic, false, false⟩ ((lanesOf t (effMask t ⟨none, q⟩).1).map fun l => (l, opnd s0 t .m .i64 k.a l))
            (fun _ => true) [] = .ok (s1, [(l, g)]) ∧ (effMask t ⟨none, q⟩).1 = 1#1024 <<< l ∧ l < t.tl
      ∨ i = .uatom d a b x ∧ k = uniCodes t none d.toNat a.toNat b.toNat ∧ l = 0
        ∧ UniCloses s t (atomForm x (n / 4)) d.toNat a.toNat b.toNat 2 live s0
        ∧ targets s0 t ⟨n, .atomic, false, false⟩ [(0, opnd s0 t .m .i64 k.a 0)] (fun _ => true) [] = .ok (s1, [(0, g)])) →
    ∃ w u, exec i s = .next (afterPair (w.setTeam s.cur u) t.die t.pc
          (if i = .uatom d a b x then 2 else laneWords ⟨none, q⟩ 2) live)
      ∧ leNat (homeBytes w pa n) = new % 2 ^ (8 * n) ∧ (∀ e, e < pa ∨ pa + n ≤ e → homeByte w e = homeByte s1 e)
      ∧ w.dram = s1.dram ∧ w.registrants = s1.registrants
      ∧ (i = .atom q d a b x → (x.ret = true →
            LaneResult t (u.sameSigs t) ⟨none, q⟩ (atomForm x (n / 4)) k (n / 4) dead fun _ => (old, FFlags.none))
          ∧ (x.ret = false → LaneEnds t (u.sameSigs t) ⟨none, q⟩ (atomForm x (n / 4)) k 2 dead))
      ∧ (i = .uatom d a b x → (x.ret = true → UniResult t (u.sameSigs t) .m none 2 k (n / 4) dead old)
          ∧ (x.ret = false → u.regs = t.regs ∧ u.dead = t.dead))

/-- R171, R329: ATOMT does the same to words of the tile store, lane after lane in increasing order: each lane meets the word as the
lanes before it left it, and every other byte of the tile store stays. The model's own choices in it: log entries 17, 18, 43, 47,
55. -/
def Obligations.TileAtomicsReadAndReplace : Prop :=
  ∀ (q : Option Pfx) (d a b : Byte) (x : AtomExt) (s s1 : State) (t : Team) (live : BitVec 160) (f : Form) (k : Codes) (kd : Kind)
    (blk : Block) (dead : Bool) (addrs : List (Nat × Nat)) (after : List (Nat × Nat) × (Nat → Byte)),
    k = laneCodes t ⟨none, q⟩ d.toNat a.toNat b.toNat → (pfxOf ⟨none, q⟩).kc = false →
    f = { atomForm x 1 with
      a := .src 1, more := (atomForm x 1).more ++ if 192 ≤ a.toNat then [(.run 1, a.toNat)] else [] } →
    LaneCloses s t ⟨none, q⟩ f d.toNat a.toNat b.toNat 2 live s1 → (effMask t ⟨none, q⟩).1 ≠ 0#1024 →
    addrs = ((List.range t.tl).filter fun l => (effMask t ⟨none, q⟩).1.getLsbD l).map (fun l => (l, opnd s1 t .m .i32 k.a l)) →
    blk = blockFor s1 t → (∀ c ∈ blk.cores, c < s1.cores.length) → blk.cores.Nodup → blk.cfg.coresN ≤ blk.cores.length →
    kd = aopKind x.aop false →
    after = tileAtomics (fun l old => aopApply x.aop 4 old (opnd s1 t .m kd k.b l)
      (if usesC x.aop then opnd s1 t .m kd x.c.toNat l else 0)) addrs (tileByte s1 blk 0) →
    dead = (readsDead t .m k.a 1 || readsDead t .m k.b 1 || (usesC x.aop && readsDead t .m x.c.toNat 1)) →
    (∀ e, worst (tileFails s1 t 4 addrs) = some e → exec (.atomt q d a b x) s = .next (takeFail s1 s1.cur e))
    ∧ (tileFails s1 t 4 addrs = [] → ∃ w u,
      exec (.atomt q d a b x) s = .next (afterPair (w.setTeam s.cur u) t.die t.pc (laneWords ⟨none, q⟩ 2) live) ∧ HomesKept s1 w
      ∧ (∀ e, tileBound blk e 1 = false → tileByte w blk 0 e = after.2 e)
      ∧ (∀ c j, (∀ y ∈ addrs, ∀ i, i < 4 → (c, j) ≠ tileSpot blk 0 (y.2 + i)) →
          Memory.read (w.core c).tile j = Memory.read (s1.core c).tile j)
      ∧ (x.ret = true → LaneResult t u ⟨none, q⟩ f k 1 dead fun l => ((look l after.1).getD 0, FFlags.none))
      ∧ (x.ret = false → LaneEnds t u ⟨none, q⟩ f k 2 dead))

/-! ## Fences, barriers, seals and view invalidation (R73, R189, R196, R200, R203 to R205, R226, R333 to R339) -/

/-- R187, R189, R195, R197, R333: FENCE clears W where it releases, draws a stamp from its core's clock where it is
SC, and where it acquires at QUAD or wider it leaves no unregistered word in the core's L1. Where no core holds a dirty word or one
whose registration is on its way, every home keeps its bytes. The model's own
choices in it: log entries 48, 55. -/
def Obligations.FencesReleaseAndAcquire : Prop :=
  ∀ (s : State) (t : Team) (ord : Order) (sc : Scope), UniRuns s t none { uniForm .field with pipe := .m } 0 0 0 → Quiet s t →
    t.coreNo < s.cores.length → ∃ w u, exec (.fence ord sc) s = .next w ∧ w.teams[s.cur]? = some u ∧ u.pc = t.pc + 8
      ∧ u.regs = t.regs ∧ u.status = t.status
      ∧ ((∀ c, ∀ e ∈ (s.core c).l1, e.2.dirty = false ∧ e.2.pend = false) → HomesKept s w)
      ∧ u.sigW = (if ord = .rel ∨ ord = .ar ∨ ord = .sc then 0#512 else t.sigW)
      ∧ (w.core t.coreNo).clock = (s.core t.coreNo).clock + (if ord = .sc then 1#48 else 0#48)
      ∧ (inCore sc = false → ord = .acq ∨ ord = .ar ∨ ord = .sc → ∀ e ∈ (w.core t.coreNo).l1, e.2.reg = true)
      ∧ (inCore sc = true → HomesKept s w ∧ ∀ c, (w.core c).l1 = (s.core c).l1)

/-- R203, R204, R335, R336: an arrival adds to its barrier and its release signature enters it; a SYNC parks its team until the
arrivals equal the member count with no transfer pending; then every team of the block that waits there resumes with an acquire of
the barrier's signature, and the phase starts anew; an arrival too many traps. INIT sets the member count. -/
def Sys2Proof.NamedBarriersCountArrivals : Prop :=
  ∀ (s s1 : State) (t : Team) (b : Block) (x : Barrier) (n : BitVec 4) (a : Byte) (live : BitVec 160),
    s1.blockOf t.key = some b → b.bars[n.toNat]? = some x → t.park = none →
    (UniCloses s t { uniForm .field with pipe := .m } 0 0 0 2 live s1 → Quiet s1 t →
      (x.m < x.arrivals + 1 → exec (.barSync n) s = .next (trapCause s1 s.cur .barovf 3)
        ∧ exec (.barArv n) s = .next (trapCause s1 s.cur .barovf 3))
      ∧ (x.arrivals + 1 ≤ x.m → ∀ i, i = .barSync n ∨ i = .barArv n → ∃ w u, exec i s = .next w ∧ w.teams[s.cur]? = some u
        ∧ u.pc = t.pc + 32 ∧ u.regs = t.regs
        ∧ w.blockOf t.key = some (b.setBar n.toNat (if x.arrivals + 1 = x.m ∧ x.pend = 0
            then ⟨x.held.getD x.m, 0, 0, 0#512, none⟩
            else { x with arrivals := x.arrivals + 1, sig := x.sig ||| t.relSig }))
        ∧ u.park = (if i = .barSync n ∧ ¬ (x.arrivals + 1 = x.m ∧ x.pend = 0) then some (.bar n.toNat) else none)
        ∧ ((s1.teams.map (·.key)).Nodup → ∀ y ∈ s1.teams, y.key ≠ t.key →
          (¬ (x.arrivals + 1 = x.m ∧ x.pend = 0) → w.teamOf y.key = some y)
          ∧ (x.arrivals + 1 = x.m → x.pend = 0 → y.park = some (.bar n.toNat) →
            y.key.q = t.key.q ∧ y.key.seq = t.key.seq ∧ y.key.blk = t.key.blk → Resumes w y (x.sig ||| t.relSig)))))
    ∧ (UniCloses s t (Form.of .m .field (.src 1) .field) 0 a.toNat 0 2 live s1 → ∀ v, v = opnd s1 t .m .i32 a.toNat 0 →
      (v = 0 ∨ t.cfg.nt < v → exec (.barInit n a) s = .next (trapCause s1 s.cur .barovf 2))
      ∧ (0 < v → v ≤ t.cfg.nt → ∃ w u, exec (.barInit n a) s = .next w ∧ w.teams[s.cur]? = some u ∧ u.pc = t.pc + 32
        ∧ u.regs = t.regs ∧ HomesKept s1 w ∧ w.blockOf t.key = some (b.setBar n.toNat
            (if x.arrivals = 0 then { x with m := v } else { x with held := some v }))))

/-- R204, R337: an arrival at BARX opens or joins the entry of its identity and parks its team; the arrival that completes the count
closes the entry, and every team that waits there, of any block, resumes with an acquire of the entry's signature; a mismatch or a
full table, and then a bad count, traps. -/
def Sys2Proof.BarxJoinsTeamsAcrossBlocks : Prop :=
  ∀ (s s1 : State) (t : Team) (a b : Byte) (sc : Scope) (live : BitVec 160) (count ident arrived : Nat) (g : Sig)
    (old : Option BarxEntry) (clash : Prop),
    UniCloses s t (Form.of .m .field (.src 1) (.src 1)) 0 a.toNat b.toNat 2 live s1 → Quiet s1 t → t.park = none →
    count = opnd s1 t .m .i32 a.toNat 0 → ident = opnd s1 t .m .i32 b.toNat 0 % 65536 → old = barxFind s1 sc t.coreNo ident →
    clash = ((∃ e, old = some e ∧ e.count ≠ count) ∨ old = none ∧ 64 ≤ barxOpen s1 sc t.coreNo) →
    arrived = (old.map (·.arrivals)).getD 0 + 1 → g = (old.map (·.sig)).getD 0#512 ||| t.relSig →
    (clash → exec (.barx a b sc) s = .next (trapCause s1 s.cur .barovf 4))
    ∧ (¬ clash → count = 0 ∨ 65536 < count → exec (.barx a b sc) s = .next (trapCause s1 s.cur .barovf 5))
    ∧ (¬ clash → 0 < count → count ≤ 65536 → ∃ w u, exec (.barx a b sc) s = .next w ∧ w.teams[s.cur]? = some u
      ∧ u.pc = t.pc + 32 ∧ u.regs = t.regs
      ∧ (arrived ≠ count → u.park = some (.barx sc (scopeInstance sc t.coreNo) ident)
        ∧ barxFind w sc t.coreNo ident = some ⟨sc, scopeInstance sc t.coreNo, ident, count, arrived, g⟩
        ∧ ∀ y ∈ s1.teams, y.key ≠ t.key → y ∈ w.teams)
      ∧ (arrived = count → u.park = none ∧ barxFind w sc t.coreNo ident = none
        ∧ ((s1.teams.map (·.key)).Nodup → ∀ y ∈ s1.teams, y.key ≠ t.key →
          y.park = some (.barx sc (scopeInstance sc t.coreNo) ident) → Resumes w y g)
        ∧ ∀ x ∈ w.saved, ∀ y ∈ x.teams, y.park ≠ some (.barx sc (scopeInstance sc t.coreNo) ident)))

/-- Named barriers and BARX count arrivals, park and release their teams (R203, R204, R335, R336, R337). The model's
own choices in it: log entries 38, 40, 55. -/
def Obligations.BarriersCountArrivals : Prop :=
  NamedBarriersCountArrivals ∧ BarxJoinsTeamsAcrossBlocks

/-- R200, R334: PROMOTE of a sync block that only its home holds gives the value to every lane. -/
def Sys2Proof.PromoteReadsTheValueAtTheHome : Prop :=
  ∀ (s s1 : State) (t : Team) (d a : Byte) (b64 : Bool) (sc : Scope) (n pa : Nat) (g : Tgt), n = (if b64 then 8 else 4) →
    UniRuns s t none (Form.of .m (.dst (n / 4)) .pair .field) d.toNat a.toNat 0 → t.loads = [] →
    (∀ w, targets s t ⟨n, .read, true, false⟩ [(0, opnd s t .m .i64 a.toNat 0)] (fun _ => true)
      (promoteAlign (opnd s t .m .i64 a.toNat 0) n) = .error w → exec (.promote d a b64 sc) s = .next w)
    ∧ (targets s t ⟨n, .read, true, false⟩ [(0, opnd s t .m .i64 a.toNat 0)] (fun _ => true)
        (promoteAlign (opnd s t .m .i64 a.toNat 0) n) = .ok (s1, [(0, g)]) → s1.cur = s.cur → s1.teams[s1.cur]? = some t →
      g.loc = .plain pa → g.n = n → g.sync = true → g.uncached = false → pa < 2 ^ 46 → pa % 128 + n ≤ 8 → pa % 4 = 0 →
      t.regs.length ≤ 160 → d.toNat < 160 → (∀ j, j < 32 → OnlyAtHome s1 t.coreNo (pa / 128 * 32 + j)) →
      s1.l2.length + s1.l2held.length + 4 ≤ l2Size → (∀ e ∈ (s1.core t.coreNo).l1, e.2.pend = false) →
      ∃ w u, exec (.promote d a b64 sc) s = .next w ∧ w.teams[s.cur]? = some u ∧ u.pc = t.pc + 8 ∧ HomesKept s1 w
        ∧ ∀ j l, j < n / 4 → l < t.tl → u.regAt (d.toNat + j) l = BitVec.ofNat 32 (leNat (homeBytes s1 pa n) / 2 ^ (32 * j)))

/-- R205, R338: SEAL enters a range that is not sealed in its home's table and answers 1, 2 where a granule is sealed already, 0
where the table is full; REOPEN removes the entry of its own range and answers 1, or 0 where there is none. -/
def Sys2Proof.SealsAreEnteredAndRemoved : Prop :=
  ∀ (s s0 s1 : State) (t : Team) (d a b : Byte) (live : BitVec 160) (len pa : Nat) (es : List SealEntry),
    UniCloses s t (Form.of .m (.dst 1) .pair (.src 1)) d.toNat a.toNat b.toNat 1 live s0 →
    len = opnd s0 t .m .i32 b.toNat 0 →
    (∀ w, sealCheck s0 t (opnd s0 t .m .i64 a.toNat 0) len = .error w →
      exec (.seal d a b) s = .next w ∧ exec (.reopen d a b) s = .next w)
    ∧ (sealCheck s0 t (opnd s0 t .m .i64 a.toNat 0) len = .ok (s1, pa) → s1.cur = s.cur → s1.teams[s1.cur]? = some t →
      Quiet s1 t → isRemoteWord (pa / 4) = false → homeDie pa < s1.dies.length → es = (s1.die (homeDie pa)).seals →
      t.regs.length ≤ 160 → d.toNat < 160 →
      (∃ w u v, exec (.seal d a b) s = .next w ∧ w.teams[s.cur]? = some u ∧ u.pc = t.pc + 28
        ∧ (∀ l, l < t.tl → u.regAt d.toNat l = BitVec.ofNat 32 v)
        ∧ v = (if es.any fun e => decide (e.first < pa / 65536 + len ∧ pa / 65536 < e.first + e.len) then 2
            else if 4096 ≤ es.length then 0 else 1)
        ∧ (w.die (homeDie pa)).seals = (if v = 1
            then es ++ [⟨pa / 65536, len, ((s1.die (homeDie pa)).sealVer + 1) % 65536⟩] else es))
      ∧ ∃ w u, exec (.reopen d a b) s = .next w ∧ w.teams[s.cur]? = some u ∧ u.pc = t.pc + 28
        ∧ (∀ l, l < t.tl → u.regAt d.toNat l
            = if es.any fun e => decide (e.first = pa / 65536 ∧ e.len = len) then 1#32 else 0#32)
        ∧ (w.die (homeDie pa)).seals = es.filter fun e => decide (¬ (e.first = pa / 65536 ∧ e.len = len)))

/-- PROMOTE, SEAL and REOPEN (R200, R205, R334, R338). The model's own choices in it: log entries 44, 55. -/
def Obligations.PromotionsAndSeals : Prop :=
  PromoteReadsTheValueAtTheHome ∧ SealsAreEnteredAndRemoved

/-- R73, R196, R226, R339: VINV drops a view, or every view, from every view cache and traps in user context without
VIEWADM; SIGCLR clears the slot of its sync block at the home and the team's W. The model's own choices in it: log
entry 55. -/
def Obligations.VinvDropsViewsAndSigclrClearsSlots : Prop :=
  ∀ (s : State) (t : Team) (a : Byte),
    (∀ i f code, i = .vinv a ∧ f = Form.of .m .field (.src 1) .field ∧ code = a.toNat
        ∨ i = .vinvAll ∧ f = Form.of .m .field .field .field ∧ code = 0 →
      (s.teams[s.cur]? = some t → t.repIdx = 0 → t.cfg.viewadm = false → t.priv = false → code < 160 →
        exec i s = .next (trapCause s s.cur .priv))
      ∧ (UniRuns s t none { f with priv := !t.cfg.viewadm } 0 code 0 → ∃ w u, exec i s = .next w ∧ w.teams[s.cur]? = some u
        ∧ u.pc = t.pc + 4 ∧ u.regs = t.regs
        ∧ ((∀ e ∈ (s.core t.coreNo).l1, e.2.dirty = false) → HomesKept s w)
        ∧ ∀ v ∈ (w.cores.flatMap (·.vcache)) ++ w.dies.flatMap (fun x => x.engines.flatMap (·.vcache)),
          i = .vinv a ∧ v.view ≠ opnd s t .m .i32 a.toNat 0 % 2048))
    ∧ (∀ s1 g pa, UniRuns s t none (Form.of .u .field .pair .field) 0 a.toNat 0 → Quiet s1 t →
      resolve s t.who ⟨8, .write, true, false⟩ [(0, opnd s t .u .i64 a.toNat 0)] = (⟨none, [(0, g)], false⟩, s1) →
      opnd s t .u .i64 a.toNat 0 % 128 = 0 → hasWaited s s1 t.coreNo = false → s1.cur = s.cur → s1.teams[s1.cur]? = some t →
      g.loc = .plain pa → g.sync = true → pa < 2 ^ 46 → pa % 128 = 0 → (s1.core t.coreNo).l1 = [] → (∀ e, (s1.die e).seals = []) →
      (∀ j, j < 32 → OnlyAtHome s1 t.coreNo (pa / 4 + j)) → s1.l2.length + s1.l2held.length + 64 ≤ l2Size →
      ∃ w u, exec (.swrSigclr a) s = .next w ∧ w.teams[s.cur]? = some u ∧ u.pc = t.pc + 4 ∧ u.sigW = 0#512 ∧ u.regs = t.regs
        ∧ (∀ j, 64 ≤ j → j < 128 → homeByte w (pa + j) = 0#8)
        ∧ ∀ e, e < pa + 64 ∨ pa + 128 ≤ e → homeByte w e = homeByte s1 e)

/-! ## Asynchronous operations, batches, tile shares and fibres (R176, R201 to R203, R340 to R354) -/

/-- R340, R342 to R348: a copy whose checks find nothing joins its team's open set and the copy queue, with its units posted to
its barrier; one that fails traps with the cause of R340, one that walks or fills a view cache parks its team first (R137, R163), and
one that finds the queue full is rejected. -/
def Sys2Proof.CopiesJoinTheQueue : Prop :=
  ∀ (s s0 : State) (t : Team) (d a b : Byte) (live : BitVec 160) (k : Codes), k = ⟨d.toNat, a.toNat, b.toNat, 164⟩ →
    (∀ (x : CopyExt) (i : Instr) (rows : Nat) (c : CopyScan) (kind : CopyKind), rows = opnd s0 t .m .i32 k.b 0 →
      UniCloses s t (copyForm true) d.toNat a.toNat b.toNat 3 live s0 →
      (i = .cpy d a b x ∧ x.cpyOk = true
          ∧ c = copyScan s0 t x (copySrc s0 t x k) (copyDst s0 t x k) rows (if rows = 0 then 0 else rows)
          ∧ kind = .cpy (copySide (tileSrc x.dir) x.mode (copySrc s0 t x k) c.src)
              (copySide (tileDst x.dir) x.mode (copyDst s0 t x k) c.dst) rows (16 * (x.bytes.toNat + 1)) (16 * x.spitch.toNat)
              (16 * x.dpitch.toNat) x.dc
        ∨ i = .cpys d a b x ∧ x.cpysOk = true
          ∧ c = copyScan s0 t x (copySrc s0 t x k) (copyDst s0 t x k) rows (if rows = 0 then 0 else 1)
          ∧ kind = .cpys x.eop.toNat (copySide (tileSrc x.dir) x.mode (copySrc s0 t x k) c.src)
              (copySide (tileDst x.dir) x.mode (copyDst s0 t x k) c.dst) rows (16 * (x.bytes.toNat + 1)) (16 * x.spitch.toNat)
              (16 * x.dpitch.toNat)) →
      (∀ f, issueFault c.fails = some f →
        exec i s = .next (leaveAfter s0 c.after t f true
          (trapAt (stainTeam c.after s0.cur (c.src.poison || c.dst.poison)) s0.cur f.info)))
      ∧ (issueFault c.fails = none → 0 < rows → mustWait s0 c.after t = true → exec i s = .next (parkFill c.after s0.cur))
      ∧ (issueFault c.fails = none → 0 < rows → mustWait s0 c.after t = false → copyQueueFull c.after t = true →
          exec i s = .next (reject s0 s0.cur .copies 1))
      ∧ (rows = 0 → issueFault c.fails = none → exec i s = .next (afterPair (s0.setTeam s.cur
          { t with status := t.status ||| deadBits (copyDead t x k) }) t.die t.pc 3 live))
      ∧ (0 < rows → PostsFrom s0 c.after t c.fails → c.src.poison = false → c.dst.poison = false →
          copyQueueFull c.after t = false →
          CopyPosted i s c.after t 3 live kind (if x.ben then some x.bar.toNat else none)))
    ∧ (∀ (x : GatherExt) (packed : Nat) (c : GatherScan), x.ok = true →
      UniCloses s t { Form.of .m .pair .pair .pair with writes := false } d.toNat a.toNat b.toNat 3 live s0 →
      packed = (if x.ts then opnd s0 t .m .i32 k.d 0 else opnd s0 t .m .i64 k.d 0) →
      c = gatherScan s0 t x packed (opnd s0 t .m .i64 k.a 0) (opnd s0 t .m .i64 k.b 0) →
      (∀ f, issueFault c.fails = some f → exec (.cpyg d a b x) s = .next (leaveAfter s0 c.after t f true
        (trapAt (stainTeam c.after s0.cur c.poison) s0.cur f.info)))
      ∧ (issueFault c.fails = none → t.walked = false → exec (.cpyg d a b x) s
        = .next (parkFill (gatherPages s0 t x packed (opnd s0 t .m .i64 k.a 0) (opnd s0 t .m .i64 k.b 0)) s0.cur))
      ∧ (issueFault c.fails = none → t.walked = true → copyQueueFull c.after t = true →
        exec (.cpyg d a b x) s = .next (reject s0 s0.cur .copies 1))
      ∧ (PostsFrom s0 c.after t c.fails → t.walked = true → c.poison = false → copyQueueFull c.after t = false →
        gatherCause x.gchk packed (16 * (x.rowb.toNat + 1)) x.trows.toNat c.idx c.met = Met.start OpViews.none →
        CopyPosted (.cpyg d a b x) s c.after t 3 live
          (.cpyg x.scat x.gchk (copySide x.ts x.mode packed c.packed) (.mem (opnd s0 t .m .i64 k.a 0) c.table.pages) c.idx
            (16 * (x.rowb.toNat + 1)) x.trows.toNat (countingDie s0 t.die (opnd s0 t .m .i64 k.a 0) c.table.pages)) (if x.ben then some x.bar.toNat else none)))
    ∧ (∀ (n : BitVec 2) (va : Nat) (x : Scan) (s1 : State), UniCloses s t (noWriteForm .field .pair) 0 a.toNat 0 1 live s0 →
      va = opnd s0 t .m .i64 k.a 0 → scanRun t .read va 2048 (Scan.start, s0) = (x, s1) →
      (va % 8 ≠ 0 → x.fails = [] → exec (.actld a n) s = .next (leaveAfter s0 s1 t (alignFail va) true
        (trapAt (stainTeam s1 s0.cur x.poison) s0.cur ⟨.align, 0, 0, va⟩)))
      ∧ (va % 8 = 0 → x.fails = [] → mustWait s0 s1 t = true → exec (.actld a n) s = .next (parkFill s1 s0.cur))
      ∧ (va % 8 = 0 → x.fails = [] → mustWait s0 s1 t = false → copyQueueFull s1 t = true →
        exec (.actld a n) s = .next (reject s0 s0.cur .copies 1))
      ∧ (va % 8 = 0 → PostsFrom s0 s1 t x.fails → x.poison = false → copyQueueFull s1 t = false →
        CopyPosted (.actld a n) s s1 t 1 live (.actld n.toNat (.mem va x.pages)) none))

/-- R342, R343, R344: a row of a copy within the tile store moves its bytes from its source to its destination; a byte of its
destination that lies in no row of its source holds the source's byte (R10: where they overlap, its value is unpredictable). -/
def Sys2Proof.TileCopiesMoveTheirRows : Prop :=
  ∀ (s w : State) (c : Nat) (b : Block) (op : CopyOp) (u a d ma md rows n sp dp : Nat) (m : Met),
    op.kind = .cpy (.tile a ma) (.tile d md) rows n sp dp false → op.early = [] → copyUnit s c b op u = (m, w) → b.cores ≠ [] →
    (∀ e ∈ b.cores, e < s.cores.length) → 0 < s.cores.length → tileOff (d + u * dp) + n ≤ 2 ^ 21 →
    m = Met.start op.views ∧ HomesKept s w ∧ w.teams = s.teams
    ∧ (∀ j, j < n → (∀ i, i < rows → ¬ (a + i * sp ≤ d + u * dp + j ∧ d + u * dp + j < a + i * sp + n)) →
        tileByte w b md (d + u * dp + j) = tileByte s b ma (a + u * sp + j))
    ∧ ∀ e q, (∀ j, j < n → (e, q) ≠ tileSpot b md (d + u * dp + j)) → Memory.read (w.core e).tile q = Memory.read (s.core e).tile q

/-- CPY, CPYG, CPYS and ACTLD join the copy queue; a tile-store row moves its bytes (R340, R342, R343, R344, R345,
R346, R347, R348). The model's own choices in it: log entries 32, 33, 39, 55, 83, 100. -/
def Obligations.CopiesArePostedAndMoveBytes : Prop :=
  CopiesJoinTheQueue ∧ TileCopiesMoveTheirRows

/-- R202, R349, R350: ASEAL makes a batch of the open set and numbers it; AWAIT and ATEST wait for the batches up to a
number, park or answer 0 while one of them is not complete, and trap on a number that was never sealed. The model's
own choices in it: log entries 36, 37. -/
def Obligations.BatchesAreSealedAndWaitedFor : Prop :=
  ∀ (s s0 : State) (t : Team) (d a : Byte) (live : BitVec 160) (n : Nat),
    (UniCloses s t (Form.of .m (.dst 1) .field .field) d.toNat 0 0 1 live s0 →
      (8 ≤ t.batches.length → exec (.aseal d) s = .next (trapCause s0 s.cur .batchovf 1))
      ∧ (t.batches.length < 8 → ∃ u, exec (.aseal d) s = .next (afterPair (s0.setTeam s.cur u) t.die t.pc 1 live)
        ∧ u.batches = t.batches ++ [⟨t.nextBatch, t.openOps⟩] ∧ u.openOps = [] ∧ u.nextBatch = (t.nextBatch + 1) % 2 ^ 32
        ∧ UniResult t { u with batches := t.batches, openOps := t.openOps, nextBatch := t.nextBatch } .m none 1
            ⟨d.toNat, 0, 0, 0⟩ 1 false t.nextBatch))
    ∧ (∀ i f dc, i = .await a ∧ f = Form.of .m .field (.src 1) .field ∧ dc = 0
        ∨ i = .atest d a ∧ f = Form.of .m (.dst 1) (.src 1) .field ∧ dc = d.toNat →
      UniRuns s t none f dc a.toNat 0 → n = opnd s t .m .i32 a.toNat 0 →
      ((1 ≤ (n + 1 + 2 ^ 32 - t.nextBatch) % 2 ^ 32 ∧ (n + 1 + 2 ^ 32 - t.nextBatch) % 2 ^ 32 < 2 ^ 31) →
        exec i s = .next (trapCause s s.cur .batchovf 2))
      ∧ (¬ (1 ≤ (n + 1 + 2 ^ 32 - t.nextBatch) % 2 ^ 32 ∧ (n + 1 + 2 ^ 32 - t.nextBatch) % 2 ^ 32 < 2 ^ 31) →
        ∀ ids, ids = (coveredBy t n).flatMap (·.ops) →
        (opsDone s ids = false → ∃ u, exec i s = .next (s.setTeam s.cur u)
          ∧ (i = .await a → u.park = some (.batch n) ∧ u.active = false ∧ u.pc = t.pc + 4 ∧ u.regs = t.regs)
          ∧ (i = .atest d a → UniResult t u .m none 1 ⟨d.toNat, 0, 0, 0⟩ 1 (readsDead t .m a.toNat 1) 0))
        ∧ (opsDone s ids = true → batchCause s ids = none → ∃ w u, exec i s = .next w ∧ w.teams[s.cur]? = some u
          ∧ u.batches = t.batches.filter (fun b => !((coveredBy t n).any fun x => x.num == b.num)) ∧ u.pc = t.pc + 4
          ∧ (∀ r ∈ w.ops, r.id ∉ ids) ∧ HomesKept (registerPending s t.coreNo) w
          ∧ (∀ e ∈ (w.core t.coreNo).l1, e.2.reg = true
              ∨ ¬ ∃ r ∈ s.ops, r.id ∈ ids ∧ sigHits r.sig (4 * e.1) = true)
          ∧ (i = .await a → u.regs = t.regs)
          ∧ (i = .atest d a → d.toNat < 160 → t.regs.length ≤ 160 → ∀ l, l < t.tl → u.regAt d.toNat l = 1#32))))

/-- R176, R351: TSGIVE offers units that its team holds to a team of the block, at once or when the operations that
touch them have completed, and TSTAKE takes units offered to its team, or answers 0; bad handles and units of others
trap. The model's own choices in it: log entry 75. -/
def Obligations.TileUnitsPassBetweenTeams : Prop :=
  ∀ (s s0 : State) (t : Team) (d a b : Byte) (live : BitVec 160) (blk : Block) (h dest : Nat) (units : List (Nat × UnitOwner)),
    s0.blockOf t.key = some blk → h = opnd s0 t .m .i32 a.toNat 0 → units = blk.units →
    (UniCloses s t { Form.of .m .field (.src 1) (.src 1) with writes := false } 0 a.toNat b.toNat 1 live s0 → Quiet s0 t →
      dest = opnd s0 t .m .i32 b.toNat 0 →
      (handleOk blk h = false → exec (.tsgive a b) s = .next (trapCause s0 s.cur .tilebound))
      ∧ (handleOk blk h = true → t.cfg.nt ≤ dest ∨ (∃ u ∈ handleList h, look u units ≠ some (.held t.key.num)) →
        exec (.tsgive a b) s = .next (trapCause s0 s.cur .tileown))
      ∧ (handleOk blk h = true → dest < t.cfg.nt → (∀ u ∈ handleList h, look u units = some (.held t.key.num)) →
        ∃ w v, exec (.tsgive a b) s = .next w ∧ w.teams[s.cur]? = some v ∧ v.pc = t.pc + 28 ∧ v.regs = t.regs ∧ v.sigW = 0#512
          ∧ w.blockOf t.key = some { blk with
              units := units.map fun u => if u.1 ∈ handleList h then (u.1,
                if touching s0 t (handleList h) = [] then .offered dest else .offering dest (touching s0 t (handleList h)))
                else u }))
    ∧ (UniCloses s t { Form.of .m (.dst 1) (.src 1) .field with writes := false } d.toNat a.toNat 0 1 live s0 →
      (handleOk blk h = false → exec (.tstake d a) s = .next (trapCause s0 s.cur .tilebound))
      ∧ (handleOk blk h = true → (∀ u ∈ units, ∀ n, u.2 ≠ .offering n []) → d.toNat < 160 → t.regs.length ≤ 160 →
        ∃ w v, exec (.tstake d a) s = .next w ∧ w.teams[s.cur]? = some v ∧ v.pc = t.pc + 28
        ∧ ((∀ u ∈ handleList h, look u units = some (.offered t.key.num)) →
          HomesKept (registerPending s0 t.coreNo) w ∧ (∀ e ∈ (w.core t.coreNo).l1, e.2.reg = true) ∧ (∀ l, l < t.tl → v.regAt d.toNat l = 1#32)
          ∧ w.blockOf t.key = some { blk with
              units := units.map fun u => if u.1 ∈ handleList h then (u.1, .held t.key.num) else u })
        ∧ ((∃ u ∈ handleList h, look u units ≠ some (.offered t.key.num)) → HomesKept s0 w ∧ (∀ l, l < t.tl → v.regAt d.toNat l = 0#32)
          ∧ w.blockOf t.key = some blk)))

/-- R352 to R354: FOPEN opens a fibre at its first entry, FADV moves it on by up to 32, FEND tells whether it is at its end,
FCLOSE closes it, and FRDC and FRDV load the entry of lane mod 32, all ones or zero beyond the end. -/
def Obligations.FibresWalkTheirEntries : Prop :=
  ∀ (s : State) (t : Team) (n : BitVec 3) (d a b cnt : Byte) (e : BitVec 6) (p : LPre) (fb : Fibre), fb = t.fibre n.toNat →
    (fibreWidthOk e.toNat = true → UniRuns s t none { Form.of .m .field .pair (if b = 164#8 then .field else .pair) with
        more := [(.src 1, cnt.toNat)] } 0 a.toNat b.toNat → ∀ co va, co = opnd s t .m .i64 a.toNat 0 →
      va = (if b = 164#8 then none else some (opnd s t .m .i64 b.toNat 0)) →
      (co % 4 ≠ 0 → exec (.fopen n a b cnt e) s = .next (trapAt s s.cur ⟨.align, 0, 0, co⟩))
      ∧ (co % 4 = 0 → ∀ v, va = some v → v % ((elemWidth e.toNat).getD 8 / 8) ≠ 0 →
        exec (.fopen n a b cnt e) s = .next (trapAt s s.cur ⟨.align, 0, 0, v⟩))
      ∧ (co % 4 = 0 → (∀ v, va = some v → v % ((elemWidth e.toNat).getD 8 / 8) = 0) →
        exec (.fopen n a b cnt e) s = .next (s.setTeam s.cur { t.pass 2 with
          fibres := t.fibres.set n.toNat ⟨true, co, va, opnd s t .m .i32 cnt.toNat 0, e.toNat, 0⟩
          status := t.status ||| deadBits (readsDead t .m a.toNat 2 || (va.isSome && readsDead t .m b.toNat 2)
            || readsDead t .m cnt.toNat 1) })))
    ∧ (UniRuns s t none (Form.of .m .field .field .field) 0 0 0 →
      (fb.isOpen = false → exec (.fadv n) s = .next (trapCause s s.cur .illins))
      ∧ (fb.isOpen = true → exec (.fadv n) s = .next (s.setTeam s.cur { t.pass 1 with
          fibres := t.fibres.set n.toNat { fb with pos := min (fb.pos + 32) fb.count } }))
      ∧ exec (.fclose n) s = .next (s.setTeam s.cur { t.pass 1 with
          fibres := t.fibres.set n.toNat { fb with isOpen := false } }))
    ∧ (UniRuns s t none (Form.of .m (.dst 1) .field .field) d.toNat 0 0 →
      (fb.isOpen = false → exec (.fend d n) s = .next (trapCause s s.cur .illins))
      ∧ (fb.isOpen = true → ∃ u, exec (.fend d n) s = .next (s.setTeam s.cur u)
        ∧ UniResult t u .m none 1 ⟨d.toNat, 0, 0, 0⟩ 1 false (if fb.count ≤ fb.pos then 1 else 0)))
    ∧ (∀ i w base past, i = .frdc p d n ∧ w = 4 ∧ base = some fb.coord ∧ past = 2 ^ 32 - 1
        ∨ i = .frdv p d n ∧ w = (elemWidth fb.elem).getD 8 / 8 ∧ base = fb.value ∧ past = 0 →
      ∀ f k, f = Form.of .m (.dst 1) .field .field → k = laneCodes t p d.toNat n.toNat 0 → LaneRuns s t p f d.toNat n.toNat 0 →
      (fb.isOpen = false → exec i s = .next (trapCause s s.cur .illins))
      ∧ (fb.isOpen = true → base = none → exec i s = .next (trapCause s s.cur .illop))
      ∧ (fb.isOpen = true → ∀ va, base = some va → PassesEmpty i s t p 1 ∧ ((effMask t p).1 ≠ 0#1024 → ∀ s1 tgts t1 lanes,
        lanes = (List.range t.tl).filter (fun l => (effMask t p).1.getLsbD l) →
        targets s t ⟨w, .read, false, false⟩ ((lanes.filter fun l => decide (fb.pos + l % 32 < fb.count)).map fun l =>
          (l, faultyPair va ((va + (fb.pos + l % 32) * w) % 2 ^ 64))) (fun _ => true) [] = .ok (s1, tgts) → s1.teams[s1.cur]? = some t1 →
        ∃ u all, all = tgts ++ ((lanes.filter fun l => decide (¬ fb.pos + l % 32 < fb.count)).map fun l =>
            (l, ⟨.imm past, w, 0, false, false, false⟩)) ∧ exec i s = .next (s1.setTeam s1.cur u)
          ∧ u.loads = t1.loads ++ [⟨k.d, w, false, false, (pfxOf p).zm, needOf all, all⟩]
          ∧ LaneEnds t1 { u with loads := t1.loads } p f k 1 false)))

/-! ## Matrix instructions (R357 to R378) -/

/-- R357 to R359, R361, R366, R371, R372: MMA, MMAL and MBIN check their operands and rows, and enter the matrix queue with the
values read at issue; one that finds the queue full is rejected. -/
def Sys2Proof.MatrixProductsEnterTheQueue : Prop :=
  ∀ (s s0 : State) (t : Team) (d a b : Byte) (live : BitVec 160) (i : Instr) (f : Form) (words : Nat) (kind : MatKind)
    (fails : List Fail), UniCloses s t f d.toNat a.toNat b.toNat words live s0 → t.coreNo < s0.cores.length →
    ((∃ x book more, i = .mma d a b x ∧ x.ok = true ∧ words = 3
        ∧ book = (if usesBook x then readBook t x.cb.toNat else [])
        ∧ more = (if usesBook x then [(Role.book, x.cb.toNat)] else []) ++ (if x.rsum then [(.src 1, x.rs.toNat)] else [])
        ∧ f = matForm (.src 1) (srcRole x.ha) (srcRole x.hb) true more
        ∧ kind = .mma (x.df == 1#2) (x.df == 0#2) [mmaRepeat x book (srcRaw t x.ha a.toNat) (srcRaw t x.hb b.toNat) (opnd s0 t .m .i32 d.toNat 0)
            (opnd s0 t .m .i32 x.rs.toNat 0) 0 0 0 0]
        ∧ fails = mmaFails s0 t x (srcRaw t x.ha a.toNat) (srcRaw t x.hb b.toNat)
            (mmaRepeat x book (srcRaw t x.ha a.toNat) (srcRaw t x.hb b.toNat) (opnd s0 t .m .i32 d.toNat 0)
              (opnd s0 t .m .i32 x.rs.toNat 0) 0 0 0 0))
      ∨ (∃ x ia ib ic steps book more ops, i = .mmal d a b x ia ib ic steps ∧ x.ok = true ∧ words = 4
        ∧ book = (if usesBook x then readBook t x.cb.toNat else [])
        ∧ more = (if usesBook x then [(Role.book, x.cb.toNat)] else []) ++ (if x.rsum then [(.src 1, x.rs.toNat)] else [])
            ++ [(.src 1, ia.toNat), (.src 1, ib.toNat), (.src 1, ic.toNat)]
        ∧ f = matForm (.src 1) (srcRole x.ha) (srcRole x.hb) true more
        ∧ ops = (List.range (steps.toNat + 1)).map (fun r => mmaRepeat x book (srcRaw t x.ha a.toNat) (srcRaw t x.hb b.toNat)
            (opnd s0 t .m .i32 d.toNat 0) (opnd s0 t .m .i32 x.rs.toNat 0) (opnd s0 t .m .i32 ia.toNat 0)
            (opnd s0 t .m .i32 ib.toNat 0) (opnd s0 t .m .i32 ic.toNat 0) r)
        ∧ kind = .mma (x.df == 1#2 && opnd s0 t .m .i32 ia.toNat 0 == 0) (x.df == 0#2 && opnd s0 t .m .i32 ic.toNat 0 == 0) ops
        ∧ fails = ops.flatMap (mmaFails s0 t x (srcRaw t x.ha a.toNat) (srcRaw t x.hb b.toNat)))
      ∨ ∃ x op, i = .mbin d a b x ∧ x.ok = true ∧ words = 3
        ∧ f = matForm (.src 1) (srcRole x.ha) (srcRole x.hb) true []
        ∧ op = mbinOp x (srcRaw t x.ha a.toNat) (srcRaw t x.hb b.toNat) (opnd s0 t .m .i32 d.toNat 0)
        ∧ kind = .mbin x.bop.toNat op
        ∧ fails = srcFails s0 t x.ha (srcRaw t x.ha a.toNat) op.a 1 none op.m op.k
            ++ srcFails s0 t x.hb (srcRaw t x.hb b.toNat) op.b 1 none op.n op.k ++ accFails t op.acc op.m) →
    (∀ x, issueFault fails = some x → exec i s = .next (trapAt s0 s.cur x.info))
    ∧ (fails = [] → matrixQueueFull s0 t = true → exec i s = .next (reject s0 s.cur .matrix 1))
    ∧ (fails = [] → matrixQueueFull s0 t = false → MatrixPosted i s s0 t words live kind)

/-- R357 to R359, R373 to R378: the other matrix instructions do likewise; MRD closes no region and joins no open set. -/
def Sys2Proof.MatrixRowInstructionsEnterTheQueue : Prop :=
  ∀ (s s0 : State) (t : Team) (d a b : Byte) (live : BitVec 160), t.coreNo < s0.cores.length →
    (∀ row count, row = opnd s0 t .m .i32 a.toNat 0 → count = opnd s0 t .m .i32 b.toNat 0 →
      UniCloses s t (matForm .field (.src 1) (.src 1) true []) 0 a.toNat b.toNat 1 live s0 →
      (count = 0 → exec (.mzero a b) s = .next (trapCause s0 s.cur .illins))
      ∧ (0 < count → t.holdsRows row count = false →
        exec (.mzero a b) s = .next (trapAt s0 s.cur (plainCause .accbound)))
      ∧ (0 < count → t.holdsRows row count = true →
        (matrixQueueFull s0 t = true → exec (.mzero a b) s = .next (reject s0 s.cur .matrix 1))
        ∧ (matrixQueueFull s0 t = false → MatrixPosted (.mzero a b) s s0 t 1 live (.mzero row count))))
    ∧ (∀ wc col row, row = opnd s0 t .m .i32 a.toNat 0 → windowOk wc col = true →
      UniCloses s t (matForm (.run 1) (.src 1) .field true []) d.toNat a.toNat 0 2 live s0 →
      (t.holdsRows row (ceilDiv t.tl (windowWidth wc)) = false →
        exec (.mwr d a wc col) s = .next (trapAt s0 s.cur (plainCause .accbound)))
      ∧ (t.holdsRows row (ceilDiv t.tl (windowWidth wc)) = true →
        (matrixQueueFull s0 t = true → exec (.mwr d a wc col) s = .next (reject s0 s.cur .matrix 1))
        ∧ (matrixQueueFull s0 t = false → MatrixPosted (.mwr d a wc col) s s0 t 2 live
          (.mwr row col.toNat (windowWidth wc) (t.reg d.toNat)))))
    ∧ (∀ x : MscaExt, x.ok b = true → ∀ dst src n fails scaled ta tb, scaled = (x.sfa != 0#2 || x.sfb != 0#2) →
      UniCloses s t (matForm (.src 1) (.src 1) (if scaled then .run 2 else .field) true []) d.toNat a.toNat b.toNat 2 live s0 →
      dst = opnd s0 t .m .i32 d.toNat 0 → src = opnd s0 t .m .i32 a.toNat 0 → n = 16 * (x.n.toNat + 1) →
      ta = (if scaled then (t.regAt b.toNat 0).toNat else 0) → tb = (if scaled then (t.regAt (b.toNat + 1) 0).toNat else 0) →
      fails = (if x.sfa = 0#2 then [] else vectorFails s0 t ta (x.m.toNat + 1) (scaleSize x.sfa.toNat))
        ++ (if x.sfb = 0#2 then [] else vectorFails s0 t tb n (scaleSize x.sfb.toNat))
        ++ accFails t dst (x.m.toNat + 1) ++ accFails t src (x.m.toNat + 1) →
      (∀ e, issueFault fails = some e → exec (.msca d a b x) s = .next (trapAt s0 s.cur e.info))
      ∧ (fails = [] → matrixQueueFull s0 t = true → exec (.msca d a b x) s = .next (reject s0 s.cur .matrix 1))
      ∧ (fails = [] → matrixQueueFull s0 t = false → MatrixPosted (.msca d a b x) s s0 t 2 live
          (.msca dst src (x.m.toNat + 1) n x.sfa.toNat x.sfb.toNat x.zero ta tb)))
    ∧ (∀ x : MszpExt, x.ok = true → ∀ dst src n fails zp ts tz rs, zp = (x.zf != 0#2) →
      UniCloses s t (matForm (.src 1) (.src 1) (.run 2) true (if zp then [(.src 1, x.rs.toNat)] else []))
        d.toNat a.toNat b.toNat 2 live s0 →
      dst = opnd s0 t .m .i32 d.toNat 0 → src = opnd s0 t .m .i32 a.toNat 0 → n = 16 * (x.n.toNat + 1) →
      rs = (if zp then opnd s0 t .m .i32 x.rs.toNat 0 else 0) → ts = (t.regAt b.toNat 0).toNat →
      tz = (t.regAt (b.toNat + 1) 0).toNat →
      fails = vectorFails s0 t ts n (zpScaleSize x.sf.toNat)
        ++ (if zp then vectorFails s0 t tz n (zeroPointSize x.zf.toNat) else [])
        ++ accFails t dst (x.m.toNat + 1) ++ accFails t src (x.m.toNat + 1) ++ (if zp then accFails t rs 1 else []) →
      (∀ e, issueFault fails = some e → exec (.mszp d a b x) s = .next (trapAt s0 s.cur e.info))
      ∧ (fails = [] → matrixQueueFull s0 t = true → exec (.mszp d a b x) s = .next (reject s0 s.cur .matrix 1))
      ∧ (fails = [] → matrixQueueFull s0 t = false → MatrixPosted (.mszp d a b x) s s0 t 2 live
          (.mszp dst src (x.m.toNat + 1) n x.sf.toNat x.zf.toNat x.zero ts tz rs)))
    ∧ (∀ (fib : BitVec 3) (x : MsprExt), x.ok fib = true → ∀ fibres, UniCloses s t (matForm (.src 1) .field (srcRole x.hb) true
        (bookFields (x.fb == 13#4) x.cb)) d.toNat 0 b.toNat 3 live s0 →
      fibres = (List.range (x.nf.toNat + 1)).map (fun j => t.fibre (fib.toNat + j)) →
      ((∃ f ∈ fibres, f.isOpen = false ∨ sparseElem f.elem = false) →
        exec (.mspr d b fib x) s = .next (trapCause s0 s.cur .illins))
      ∧ ((∀ f ∈ fibres, f.isOpen = true ∧ sparseElem f.elem = true) → ∀ sc s1 op raw, raw = srcRaw t x.hb b.toNat →
        fibres.foldl (fun y f => scanFibre t f y) (Scan.start, s0) = (sc, s1) →
        op = ⟨opnd s0 t .m .i32 d.toNat 0, 0, .handle 0 0 0, matSource x.hb raw 0 0, 0, x.fb.toNat, fibres.length,
          16 * (x.n.toNat + 1), 32 * (x.k.toNat + 1), x.zero, 0, 0, if x.fb = 13#4 then readBook t x.cb.toNat else [], x.cbf,
          0, 0, false⟩ →
        ∀ fails, fails = sc.fails ++ sparseSrcFails s0 t x.hb raw op.b ((elemWidth op.fb).getD 8) op.n op.k
          ++ accFails t op.acc op.m →
        (∀ e, issueFault fails = some e →
          exec (.mspr d b fib x) s
            = .next (leaveAfter s0 s1 t e true (trapAt (stainTeam s1 s0.cur sc.poison) s0.cur e.info)))
        ∧ (fails = [] → mustWait s0 s1 t = true → exec (.mspr d b fib x) s = .next (parkFill s1 s0.cur))
        ∧ (fails = [] → mustWait s0 s1 t = false → matrixQueueFull s1 t = true →
          exec (.mspr d b fib x) s = .next (reject s0 s0.cur .matrix 1))
        ∧ (PostsFrom s0 s1 t fails → sc.poison = false → matrixQueueFull s1 t = false →
          MatrixPosted (.mspr d b fib x) s s1 t 3 live (.mspr fibres sc.pages op))))
    ∧ (∀ wc col row, windowOk wc col = true → UniRuns s0 t none { matForm (.run 1) (.src 1) .field true [] with meets := [] } d.toNat a.toNat 0 →
      row = opnd s0 t .m .i32 a.toNat 0 →
      (t.holdsRows row (ceilDiv t.tl (windowWidth wc)) = false →
        exec (.mrd d a wc col) s0 = .next (trapAt s0 s0.cur (plainCause .accbound)))
      ∧ (t.holdsRows row (ceilDiv t.tl (windowWidth wc)) = true → matrixQueueFull s0 t = true →
        exec (.mrd d a wc col) s0 = .next (reject s0 s0.cur .matrix 1))
      ∧ (t.holdsRows row (ceilDiv t.tl (windowWidth wc)) = true → matrixQueueFull s0 t = false → ∃ w, exec (.mrd d a wc col) s0 = .next (w.setTeam s0.cur
            { t.pass 2 with status := t.status ||| deadBits (readsDead t .m a.toNat 1) })
        ∧ HomesKept (registerPending s0 t.coreNo) w ∧ w.teams = s0.teams ∧ w.ops = s0.ops
        ∧ (w.core t.coreNo).matQ = (s0.core t.coreNo).matQ
            ++ [⟨s0.nextId, t.key, .mrd d.toNat row col.toNat (windowWidth wc), none, [], ⟨none, none⟩⟩]))

/-- R378, R380: the register of an MRD is written in two acts: the unit reads the window of the team's rows, oldest entry first, and
the write-back gives each lane its element and frees the entry. -/
def Sys2Proof.MrdsWriteTheirRegisters : Prop :=
  ∀ (s : State) (c : BitVec 6) (op : MatOp) (rest : List MatOp) (t : Team) (b : Block) (dst row col wd : Nat) (vals : Lanes),
    s.powered = true → c.toNat < s.cores.length → s.teamOf op.team = some t → op.kind = .mrd dst row col wd →
    (∀ o ∈ rest, o.id ≠ op.id) →
    (s.blockOf op.team = some b → op.early = [] → op.ended = none → (s.core c.toNat).matQ = op :: rest →
      vals = (List.range t.tl).map (fun l => accWord s c.toNat (accRow b t.blockCore (row + l / wd)) (col + l % wd)) →
      ∃ w, exec (.matrixExecute c) s = .next w ∧ w.teams = s.teams ∧ HomesKept s w
        ∧ (w.core c.toNat).matQ = { op with ended := some vals } :: rest)
    ∧ (op.ended = some vals → (s.core c.toNat).matQ = op :: rest → dst < t.regs.length → ∃ w u,
      exec (.mrdWriteback c) s = .next w ∧ (w.core c.toNat).matQ = rest ∧ w.teamOf op.team = some u ∧ u.regs[dst]? = some vals
        ∧ u.isDead dst = false ∧ (∀ n, n ≠ dst → u.regs[n]? = t.regs[n]?) ∧ HomesKept s w)

/-- The matrix instructions check their rows and enter the matrix queue, and MRD writes its register (R357, R358, R359, R361, R366, R371, R372,
R373, R375, R377, R378). The model's own choices in it: log entries 55, 75, 76, 83. -/
def Obligations.MatrixInstructionsEnterTheQueue : Prop :=
  MatrixProductsEnterTheQueue ∧ MatrixRowInstructionsEnterTheQueue ∧ MrdsWriteTheirRegisters

/-- R246, R247, R357, R366, R377, R378: what the unit does with a product over two tile-store operands, a zeroing and
a window: each element is written by its rule and no other element of the accumulator changes. What the array holds of A or of c
stands for the operand or the rows (R371). The model's own choices
in it: log entry 16. -/
def Obligations.MatrixUnitWritesItsElements : Prop :=
  ∀ (s : State) (c base : Nat) (b : Block) (m : Met) (op : MmaOp) (h : Resident) (aa am ar ap ac an ba bm br bp bc bn : Nat), c < s.cores.length →
    op.a = .layout aa am ar ap ac an → op.b = .layout ba bm br bp bc bn → op.q = 0 → op.rsum = false → op.n ≤ 128 →
    (∀ x, h.a = some x → x.length = op.m) →
    ∃ r w, runMma s c base b m op h = (r, m, w) ∧ HomesKept s w ∧ w.teams = s.teams
      ∧ (∀ i j, i < op.m → j < op.n → accWord w c (base + op.acc + i) j
        = accumulate (alignedClass op.fa op.fb) (if op.zero then 0#32 else match h.c with
              | some x => (x.getD i []).getD j 0#32
              | none => accWord s c (base + op.acc + i) j)
            (List.zipWith FVal.times
              ((match h.a with
                | some x => x.getD i []
                | none => layoutRow s b aa am ar ap ac ((elemWidth op.fa).getD 8) (op.planeA.getD ((elemWidth op.fa).getD 8)) op.k i).map
                (elemValue op.fa op.planeA op.codebook op.cbf))
              ((layoutRow s b ba bm br bp bc ((elemWidth op.fb).getD 8) (op.planeB.getD ((elemWidth op.fb).getD 8)) op.k j).map
                (elemValue op.fb op.planeB op.codebook op.cbf))))
      ∧ (∀ i j, i < op.m → j < op.n → ((r.c.getD []).getD i []).getD j 0#32 = accWord w c (base + op.acc + i) j)
      ∧ (∀ r j, j < 128 → ¬ (base + op.acc ≤ r ∧ r < base + op.acc + op.m ∧ j < op.n) → accWord w c r j = accWord s c r j)
      ∧ (∀ t o row count r j, o.kind = .mzero row count → o.early = [] → j < 128 → ∃ z, runMatrix s c b t o = (Met.start OpViews.none, none, z)
        ∧ accWord z c r j = if b.accBase.getD t.blockCore 0 + row ≤ r ∧ r < b.accBase.getD t.blockCore 0 + row + count then 0#32
            else accWord s c r j)
      ∧ (∀ t o row col wd vals, o.kind = .mwr row col wd vals → o.early = [] → 0 < wd → col + wd ≤ 128 →
        ∃ z, runMatrix s c b t o = (Met.start OpViews.none, none, z) ∧ ∀ l v, vals[l]? = some v →
          accWord z c (b.accBase.getD t.blockCore 0 + row + l / wd) (col + l % wd) = v)
      ∧ (∀ t o dst row col wd, o.kind = .mrd dst row col wd → o.early = [] → runMatrix s c b t o = (Met.start OpViews.none,
          some ((List.range t.tl).map fun l => accWord s c (b.accBase.getD t.blockCore 0 + row + l / wd) (col + l % wd)), s))

/-! ## Events (R14 to R149, R176 to R229) -/

/-- The instructions of a list issue under one form: each goes on past its words, or to its next repetition. -/
def Sys2Proof.GoOn (p : LPre) (f : Form) (d a b : Byte) (is : List Instr) : Prop :=
  ∀ i ∈ is, ∀ s t, LaneRuns s t p f d.toNat a.toNat b.toNat →
    ∃ u, exec i s = .next (s.setTeam s.cur u) ∧ Moved t u p.rep (laneWords p 1)

/-- R152, R281 to R289: the lane instructions on 32-bit integers and packed or single floating-point values go on. -/
def Sys2Proof.LaneInstructionsGoOn : Prop := ∀ (p : LPre) (d a b : Byte) (i : BitVec 16),
  let f2 := Form.of .l (.dst 1) (.src 1) (.src 1)
  GoOn p { Form.of .l .field .field .field with writes := false, pfx := false } 0 0 0 [.nop p]
  ∧ GoOn p (Form.of .l (.dst 1) .field .field) d 0 0 [.movi p d i, .rng p d]
  ∧ GoOn p (Form.of .l (.rmw 1) .field .field) d 0 0 [.movhi p d i]
  ∧ GoOn p { Form.of .l (.rmw 1) .field .field with sat := true } d 0 0 [.iaddi p d i]
  ∧ GoOn p (Form.of .l (.dst 1) (.src 1) .field) d a 0
      [.mov p d a, .popc p d a, .clz p d a, .brev p d a, .fabs p d a, .fneg p d a, .fclass p d a]
  ∧ GoOn p { f2 with sat := true } d a b [.iadd p d a b, .isub p d a b, .imul p d a b]
  ∧ GoOn p { f2 with sat := true, c := .src 1 } d a b [.imad p d a b]
  ∧ GoOn p { f2 with c := .src 1 } d a b [.prmt p d a b]
  ∧ GoOn p { Form.of .l (.dst 2) (.src 2) (.src 2) with sat := true } d a b [.iadd64 p d a b]
  ∧ GoOn p f2 d a b ([.imulhi p d a b, .umulhi p d a b, .imin p d a b, .imax p d a b, .umin p d a b, .umax p d a b]
      ++ [.and p d a b, .or p d a b, .xor p d a b, .andn p d a b, .shl p d a b, .shr p d a b, .sar p d a b, .rotl p d a b]
      ++ [.bfx p d a b, .bfxs p d a b, .iseteq p d a b, .isetne p d a b, .isetlt p d a b, .isetle p d a b]
      ++ [.usetlt p d a b, .usetle p d a b])
  ∧ GoOn p (Form.of .l (.rmw 1) (.src 1) (.src 1)) d a b [.bfi p d a b, .sel p d a b]
  ∧ GoOn p { f2 with rounds := false, sat := false } d a b [.fseteq p d a b, .fsetne p d a b, .fsetlt p d a b, .fsetle p d a b,
      .fsetun p d a b, .fmin p d a b, .fmax p d a b]
  ∧ GoOn p { f2 with rounds := true, sat := true } d a b [.fadd p d a b, .fsub p d a b, .fmul p d a b, .fscale p d a b,
      .hadd2 p d a b, .hmul2 p d a b]
  ∧ GoOn p { f2 with rounds := true, sat := true, c := .src 1 } d a b [.ffma p d a b, .hfma2 p d a b, .bfma2 p d a b, .fdot2 p d a b]

/-- R152, R290 to R298: the lane instructions of the X pipe go on. -/
def Sys2Proof.CrossLaneInstructionsGoOn : Prop := ∀ (p : LPre) (d a b : Byte),
  let f1 := Form.of .x (.dst 1) (.src 1) .field
  GoOn p { Form.of .x (.dst 2) (.src 2) (.src 2) with rounds := true, sat := true } d a b [.dadd p d a b, .dmul p d a b]
  ∧ GoOn p { Form.of .x (.dst 2) (.src 2) (.src 2) with rounds := true, sat := true, c := .src 2 } d a b [.dfma p d a b]
  ∧ GoOn p { Form.of .x (.dst 2) (.src 2) (.src 2) with rounds := false, sat := false } d a b [.dmin p d a b, .dmax p d a b]
  ∧ GoOn p { Form.of .x (.dst 1) (.src 2) (.src 2) with rounds := false, sat := false } d a b [.dsetlt p d a b, .dseteq p d a b]
  ∧ (∀ c, cvtShape b.toNat = some c →
      let dw := if c.d64 then 2 else 1
      let f := Form.of .x (if c.merge then .rmw dw else .dst dw) (.src (if c.a64 then 2 else 1)) .field
      GoOn p { f with rounds := true, sat := true, c := if c.usesC then .src 1 else .field } d a 0 [.cvt p d a b])
  ∧ (b.toNat ≤ 8 → GoOn p { f1 with rounds := true } d a 0 [.sfu p d a b])
  ∧ GoOn p { Form.of .x (.dst 1) (.src 1) .table with rounds := true, sat := true } d a b [.actv p d a b]
  ∧ GoOn p (Form.of .x (.dst 1) (.src 1) (.src 1)) d a b [.shfl p d a b, .shflx p d a b, .shflu p d a b, .shfld p d a b]
  ∧ GoOn p (Form.of .x .xch (.src 1) (.src 1)) d a b [.bxch p d a b]
  ∧ GoOn p { f1 with sat := true } d a 0 [.redadd p d a, .scanadd p d a]
  ∧ GoOn p { f1 with sat := false } d a 0 [.redmax p d a, .redmin p d a]
  ∧ GoOn p { f1 with sat := true, rounds := true } d a 0 [.redfadd p d a]
  ∧ (∀ s t, LaneRuns s t p (Form.of .x (.dst (if t.cfg.spanS = 64 then 2 else 1)) (.src 1) .field) d.toNat a.toNat 0 →
      ∃ u, exec (.ballot p d a) s = .next (s.setTeam s.cur u) ∧ Moved t u p.rep (laneWords p 1))

/-- R14: with module power removed no agent acts; with it, every event that may occur completes. And every lane instruction
that computes goes on to the next instruction, whatever its mask and its operands (R152). The model's own choices in it: log
entries 14, 82. -/
def Obligations.EventsNeedModulePower : Prop :=
  (∀ i s, isEvent i = true → i ≠ .coldPowerOn →
    (s.powered = false → exec i s = .fault .noPower) ∧ (s.powered = true → ∃ t, exec i s = .next t))
  ∧ LaneInstructionsGoOn ∧ CrossLaneInstructionsGoOn

/-! ### Events of the module -/

/-- R14, R33: power, a stack's training, and a die's bring-up, which takes WRCNT as the incarnations of the die and its
cores; die 0 opens reduced service. -/
def Sys2Proof.PowerAndBringUp : Prop := ∀ s,
  exec .coldPowerOn s = .next s.bare
  ∧ { s.bare with agenda := [], tick := 0, turn := 0, nextId := 0, outbox := [] }
      = { State.reset with agenda := [], tick := 0, turn := 0, nextId := 0, outbox := [], identityKey := s.identityKey }
  ∧ (s.powered = true →
    exec .powerRemoved s = .next { s.bare with powered := false }
    ∧ (∀ n c, s.svc ≠ 3 → n.toNat < s.stks.length → ∃ t, exec (.stackTrained n c) s = .next t ∧ t.svc = s.svc
        ∧ t.stackTrained n.toNat = true ∧ t.stackCalibrated n.toNat = (c || s.stackCalibrated n.toNat)
        ∧ (t.stk n.toNat).trainingSaved = true ∧ OtherRegisters s t [(MODSTAT)])
    ∧ (∀ n c, s.svc = 3 → exec (.stackTrained n c) s = .next s)
    ∧ (∀ d, mayComeUp s d.toNat = true → s.dies.length = 4 → ∃ t, exec (.dieUp d) s = .next t
        ∧ (t.die d.toNat).up = true ∧ (t.die d.toNat).single = soleStack s d.toNat
        ∧ t.field MODSTAT (4 + d.toNat) 1 = 1 ∧ t.svc = (if d = 0#2 then 1 else s.svc)
        ∧ (t.mreg (DIEINC d.toNat)).toNat = s.field MODSTAT 32 16
        ∧ ∀ c, c < 16 → (t.mreg (COREINC (16 * d.toNat + c))).toNat = s.field MODSTAT 32 16)
    ∧ (∀ d, mayComeUp s d.toNat = false → exec (.dieUp d) s = .next s)
    ∧ (mayMoveFull s = true → ∃ t, exec .fullServiceMove s = .next t ∧ t.svc = 2 ∧ ∀ d, d < 4 → (t.die d).single = none)
    ∧ (mayMoveFull s = false → exec .fullServiceMove s = .next s))

/-- R15, R36, R38: the resets; a die that gates; and fatal errors, of which the first is followed by a dump. -/
def Sys2Proof.ResetsAndFatalErrors : Prop := ∀ s, s.powered = true →
  (s.dumpDue = none → (∀ n, n < 8 → (s.stk n).parked = none) →
    (∃ t, exec .hostLinkHotReset s = .next t ∧ ResetLeaves s t)
    ∧ (s.field MODCTL 1 1 = 0 → ∃ t, exec .warmReset s = .next t ∧ ResetLeaves s t))
  ∧ (∀ d cycles, (s.die d.toNat).up = true → s.dies.length = 4 → ∃ t, exec (.thermalGate d cycles) s = .next t
      ∧ (t.die d.toNat).gating = cycles ∧ (∀ n, n % 8 = 7 → gatedCycle (t.die d.toNat) n = false) ∧ t.mregs = s.mregs ∧ ∀ e, e ≠ d.toNat → t.die e = s.die e)
  ∧ (∀ d cycles, (s.die d.toNat).up = false → exec (.thermalGate d cycles) s = .next s)
  ∧ (∀ d, s.dies.length = 4 → ∃ t, exec (.thermalGateEnd d) s = .next t ∧ (t.die d.toNat).gating = 0#7 ∧ t.mregs = s.mregs)
  ∧ (∀ i code, (i = .thermalTrip ∧ code = 4 ∨ i = .hostDump ∧ code = 6
        ∨ ∃ c : BitVec 8, i = .fatalError c ∧ code = c.toNat ∧ 1 ≤ code ∧ code ≤ 6) →
      (s.svc ≠ 3 → ∃ t, exec i s = .next t ∧ t.svc = 3 ∧ t.field MODSTAT 24 8 = code ∧ OtherRegisters s t [(MODSTAT)]
        ∧ t.dumpDue = (if (s.die 0).up then some ⟨(s.die 0).cycle, t.mreg MODSTAT, lanternUnacked s, s.teams⟩ else none)
        ∧ { t with mregs := s.mregs, dumpDue := s.dumpDue } = s)
      ∧ (s.svc = 3 → s.dumpDue = none → ∃ t, exec i s = .next t ∧ t.svc = 3 ∧ t.field MODSTAT 24 8 = code
        ∧ { t with mregs := s.mregs } = s)
      ∧ (s.svc = 3 → s.dumpDue.isSome = true → ∃ t, exec i s = .next t ∧ t.svc = 3 ∧ t.field MODSTAT 24 8 = code
        ∧ t.dumpDue = none ∧ t.field LANTSTAT 0 2 = 3))
  ∧ (∀ c : BitVec 8, (c = 0#8 ∨ 6 < c.toNat) → exec (.fatalError c) s = .next s)

/-- Power, bring-up, full service, resets, gating and fatal errors (R14, R15, R32, R33, R35, R36, R38, R48). The
model's own choices in it: log entries 14, 52, 59, 60, 61. -/
def Obligations.PowerResetsAndFatalErrors : Prop :=
  PowerAndBringUp ∧ ResetsAndFatalErrors

/-- R19, R21, R40: the dump, its acknowledgement and its overwrite mark; the error log cleared and read; the error counters written; a
write that locks INCARN or DEVNUM (R31, R231). -/
def Sys2Proof.DumpsLogsAndIdentity : Prop := ∀ s, s.powered = true →
  (s.dumpDue = none → exec .lanternDump s = .next s)
  ∧ (s.dumpDue.isSome = true → ∃ t, exec .lanternDump s = .next t ∧ t.dumpDue = none ∧ t.field LANTSTAT 0 2 = 3)
  ∧ (s.field LANTSTAT 0 1 = 1 → ∃ t, exec .lanternAck s = .next t ∧ t.field LANTSTAT 0 1 = 0)
  ∧ (s.field LANTSTAT 0 1 = 0 → exec .lanternAck s = .next s)
  ∧ (s.field LANTSTAT 3 1 = 1 → ∃ t, exec .lanternOvwrClear s = .next t ∧ t.field LANTSTAT 3 1 = 0)
  ∧ (s.field LANTSTAT 3 1 = 0 → exec .lanternOvwrClear s = .next s)
  ∧ (∀ d, s.dies.length = 4 → ∃ t, exec (.elogClear d) s = .next t ∧ (t.die d.toNat).log = List.replicate 64 none
      ∧ t.field (ELOGCTL d.toNat) 8 6 = 0 ∧ t.field (ELOGCTL d.toNat) 32 16 = 0 ∧ OtherRegisters s t [ELOGCTL d.toNat])
  ∧ (∀ d k e, ((s.die d.toNat).log[s.field (ELOGCTL d.toNat) 16 6]?).join = some e → s.dies.length = 4 →
      ∃ t, exec (.elogEntryRead d k) s = .next t
        ∧ t.outbox = .host s.ideKeys (.regData (BitVec.ofNat 64 (leNat ((e.bytes.drop (8 * k.toNat)).take 8)))) :: s.outbox
        ∧ (t.die d.toNat).log[s.field (ELOGCTL d.toNat) 16 6]? = some (some { e with wasRead := true }))
  ∧ (∀ d k, ((s.die d.toNat).log[s.field (ELOGCTL d.toNat) 16 6]?).join = none →
      exec (.elogEntryRead d k) s = .next (s.emit (.host s.ideKeys (.regData 0#64))))
  ∧ (∀ off : BitVec 20, off.toNat = ERRCNT0 ∨ off.toNat = ERRCNT1 → ∀ v, WritesFields s v off.toNat [(0, 64)])
  ∧ (∀ v, s.field INCARN 16 1 = 0 → ∃ t, exec (.incarnWrite v) s = .next t ∧ t.field INCARN 0 16 = v.toNat
      ∧ t.field INCARN 16 1 = 1 ∧ OtherRegisters s t [INCARN])
  ∧ (∀ v, s.field INCARN 16 1 = 1 → exec (.incarnWrite v) s = .next s)
  ∧ (∀ v, s.field DEVNUM 16 1 = 0 → ∃ t, exec (.devnumWrite v) s = .next t ∧ t.devnum = v.toNat
      ∧ t.field DEVNUM 16 1 = 1 ∧ OtherRegisters s t [DEVNUM])
  ∧ (∀ v, s.field DEVNUM 16 1 = 1 → exec (.devnumWrite v) s = .next s)

/-- R22, R23, R33, R104, R181, R213: keys, after which IDE protects the traffic; configuration requests; snoops; and the unmasking of an
MSI-X vector, which sends its pending message if the function may send. -/
def Sys2Proof.TheHostLinkIsServed : Prop := ∀ s, s.powered = true →
  exec .ideKeyProgram s = .next { s with ideKeys := true }
  ∧ (∀ x, (s.die 0).up = false → exec (.configurationRequest x) s = .next (s.emit (.host s.ideKeys .configRetry)))
  ∧ ((s.die 0).up = true → exec (.configurationRequest none) s = .next (s.emit (.host s.ideKeys .configDone))
    ∧ (∀ on, exec (.configurationRequest (some (.cxlCache on))) s
        = .next { s.emit (.host s.ideKeys .configDone) with hostCfg := { s.hostCfg with cxlCache := on } })
    ∧ (∀ (n : BitVec 2) (a : DWord), s.hostCfg.bars.length = 3 → n.toNat < 3 → ∃ t,
        exec (.configurationRequest (some (.bar n a))) s = .next t ∧ t.outbox = .host s.ideKeys .configDone :: s.outbox
          ∧ t.hostCfg.bars[n.toNat]? = some (BitVec.ofNat 64 (a.toNat / barSize n.toNat * barSize n.toNat))
          ∧ ∀ k, k ≠ n.toNat → t.hostCfg.bars[k]? = s.hostCfg.bars[k]?)
    ∧ (∀ (r : BitVec 3) (v : Word), (∀ a, s.hostCfg.bars[r.toNat / 2]? = some a → r.toNat < 6 →
          v = if r.toNat % 2 = 1 then a.extractLsb' 32 32
            else (a.extractLsb' 4 28 ++ (if r.toNat = 0 then 0x4#4 else 0xC#4))) →
        (r.toNat < 6 → (s.hostCfg.bars[r.toNat / 2]?).isSome = true) → (6 ≤ r.toNat → v = 0#32) →
        exec (.configurationRequest (some (.readBar r))) s = .next (s.emit (.host s.ideKeys (.configData v))))
    ∧ (∀ on masked, ∃ t, exec (.configurationRequest (some (.msix on masked))) s = .next t
        ∧ t.hostCfg = { s.hostCfg with msixEnable := on, msixMask := masked }
        ∧ (on = true → masked = false → s.msix.length = 65 → t.msix = s.msix.map fun v => { v with pending := v.pending && v.masked })
        ∧ (on = false ∨ masked = true → t.msix = s.msix)))
  ∧ (∀ line : BitVec 51, s.dies.length = 4 → ∃ t, exec (.cxlCacheSnoop line) s = .next t ∧ t.mregs = s.mregs
      ∧ (t.die 0).canopy = (s.die 0).canopy.filter fun e => !decide (hostBase ≤ e.1 ∧ (e.1 - hostBase) / 32 = line.toNat))
  ∧ (∀ (e : BitVec 7) v, s.msix[e.toNat]? = some v → ∃ t, exec (.msixVectorUnmask e) s = .next t
      ∧ t.msix = s.msix.set e.toNat { v with masked := false, pending := v.pending && !msixOpen s }
      ∧ t.outbox = if v.pending && msixOpen s then .host s.ideKeys (.msix e.toNat) :: s.outbox else s.outbox)
  ∧ (∀ e : BitVec 7, s.msix[e.toNat]? = none → exec (.msixVectorUnmask e) s = .next s)

/-- The Lantern dump, the error log, identity, and the host link (R19, R21, R22, R31, R33, R40, R104, R181, R231). The
model's own choices in it: log entries 8, 14, 21, 22, 89, 95. -/
def Obligations.DumpsLogsIdentityAndHostLink : Prop :=
  DumpsLogsAndIdentity ∧ TheHostLinkIsServed

/-! ### Links and agents -/

/-- R27, R28: STATE of a port that is enabled, disabled, retrained, trained. -/
def Sys2Proof.PortsAreEnabledAndTrained : Prop := ∀ s (p : BitVec 5), s.powered = true → s.ports.length = 24 → p.toNat < 24 →
  (s.field LLEN p.toNat 1 = 0 → ∃ t, exec (.llPortEnable p) s = .next t ∧ t.field LLEN p.toNat 1 = 1
      ∧ t.portState p.toNat = 1 ∧ t.port p.toNat = Port.reset ∧ OtherRegisters s t [LLEN, LLSTAT p.toNat])
  ∧ (s.field LLEN p.toNat 1 = 1 → exec (.llPortEnable p) s = .next s)
  ∧ (s.field LLEN p.toNat 1 = 1 → ∃ t, exec (.llPortDisable p) s = .next t ∧ t.field LLEN p.toNat 1 = 0
      ∧ t.portState p.toNat = 0 ∧ t.port p.toNat = Port.reset ∧ OtherRegisters s t [LLEN, LLSTAT p.toNat])
  ∧ (s.field LLEN p.toNat 1 = 0 → exec (.llPortDisable p) s = .next s)
  ∧ (s.portState p.toNat = 3 → ∃ t, exec (.llStateRetrain p) s = .next t ∧ t.portState p.toNat = 1
      ∧ t.port p.toNat = Port.reset ∧ OtherRegisters s t [LLSTAT p.toNat])
  ∧ (s.portState p.toNat ≠ 3 → exec (.llStateRetrain p) s = .next s)
  ∧ (s.portState p.toNat = 1 → ∃ t, exec (.llTrained p) s = .next t ∧ t.portState p.toNat = 2
      ∧ t.ports = s.ports ∧ OtherRegisters s t [LLSTAT p.toNat])
  ∧ (s.portState p.toNat ≠ 1 → exec (.llTrained p) s = .next s)

/-- R24 to R26, R28: numbered flits wait in the replay buffer for their acknowledgement; the gate, STOP and a full buffer hold
them back; a flit with a wrong CRC counts and asks for retransmission; a retransmission sends the buffer again, unless a STOP holds;
and a flit that sixteen retransmissions left unacknowledged takes the port DOWN. Spoken of a port whose input buffer is empty. -/
def Sys2Proof.FlitsAreSentAndReplayed : Prop := ∀ s (p : BitVec 5) x, s.powered = true → s.ports.length = 24 → p.toNat < 24 →
  s.portState p.toNat = 2 → x = s.port p.toNat → x.held = 0 →
    (∀ ty dst pay, 1 ≤ ty.toNat → ty.toNat ≤ 3 → gateOpen s = true → x.stopped = false →
      x.replay.length < 512 → ∃ t bs, exec (.flitSend p ty dst pay) s = .next t ∧ bs.length = 256
        ∧ leNat (bs.take 2) = x.txSeq % 4096 + 4096 * ty.toNat ∧ leNat ((bs.drop 2).take 2) = x.control
        ∧ leNat (bs.drop 252) = (crc32c (bs.take 252)).toNat ∧ t.outbox = .flit p.toNat bs :: s.outbox
        ∧ t.port p.toNat = { x.sent with txSeq := (x.txSeq + 1) % 4096, replay := x.replay ++ [(x.txSeq, bs, 0)] })
    ∧ (∀ ty dst pay, 1 ≤ ty.toNat → ty.toNat ≤ 3 → (gateOpen s = false ∨ x.stopped = true ∨ 512 ≤ x.replay.length) →
        exec (.flitSend p ty dst pay) s = .next s)
    ∧ (∀ dst pay, ∃ t bs, exec (.flitSend p 0#4 dst pay) s = .next t ∧ t.outbox = .flit p.toNat bs :: s.outbox
        ∧ t.port p.toNat = x.sent)
    ∧ (∀ flit, (flit.length ≠ 256 ∨ leNat (flit.drop 252) ≠ (crc32c (flit.take 252)).toNat) →
        ∃ t, exec (.flitReceive p flit) s = .next t ∧ t.port p.toNat = { x with nak := true }
          ∧ t.field (LLSTAT p.toNat) 48 16 = min (s.field (LLSTAT p.toNat) 48 16 + 1) (2 ^ 16 - 1)
          ∧ t.field ERRCNT1 32 32 = min (s.field ERRCNT1 32 32 + 1) (2 ^ 32 - 1) ∧ t.outbox = s.outbox)
    ∧ (∀ flit, flit.length = 256 → leNat (flit.drop 252) = (crc32c (flit.take 252)).toNat →
        4 ≤ leNat (flit.take 2) / 4096 → exec (.flitReceive p flit) s = .next s.countDrop)
    ∧ (∀ flit, flit.length = 256 → leNat (flit.drop 252) = (crc32c (flit.take 252)).toNat →
        1 ≤ leNat (flit.take 2) / 4096 → leNat (flit.take 2) / 4096 < 4 → gateOpen s = true →
        leNat ((flit.drop 2).take 2) / 4096 % 8 = 0 → ∃ t, exec (.flitReceive p flit) s = .next t
          ∧ (t.port p.toNat).rxExpect = (if leNat (flit.take 2) % 4096 = x.rxExpect then (x.rxExpect + 1) % 4096 else x.rxExpect)
          ∧ (t.port p.toNat).held = if leNat (flit.take 2) % 4096 = x.rxExpect then 1 else 0)
    ∧ ((x.replay = [] ∨ x.stopped = true) → exec (.llReplayTimeout p) s = .next s)
    ∧ (x.replay ≠ [] → x.stopped = false → (∀ f ∈ x.replay, f.2.1.length = 256 ∧ f.2.2 < 16) → ∃ (t : State) (fs : List OutMsg),
        exec (.llReplayTimeout p) s = .next t ∧ t.portState p.toNat = 2
        ∧ t.port p.toNat = { x.sent with replay := x.replay.map fun f => (f.1, f.2.1, f.2.2 + 1) }
        ∧ t.field (LLSTAT p.toNat) 32 16 = min (s.field (LLSTAT p.toNat) 32 16 + 1) (2 ^ 16 - 1)
        ∧ t.outbox = fs.reverse ++ s.outbox ∧ fs.length = x.replay.length
        ∧ ∀ (i : Nat) f, x.replay[i]? = some f → ∃ bs : List Byte, fs[i]? = some (.flit p.toNat bs) ∧ bs.take 2 = f.2.1.take 2
          ∧ (bs.drop 4).take 248 = (f.2.1.drop 4).take 248 ∧ leNat (bs.drop 252) = (crc32c (bs.take 252)).toNat)
    ∧ (x.stopped = false → (∃ f ∈ x.replay, 16 ≤ f.2.2) → ∃ t, exec (.llReplayTimeout p) s = .next t
        ∧ t.portState p.toNat = 3 ∧ t.port p.toNat = Port.reset)

/-- R18, R30, R32, R207: an agent that was silent for a millisecond is declared dead: its incarnation is marked, no word is
registered to its cores, and their L1s are empty; it comes back one incarnation later. The registers of the repairs and of the
incarnations of dies and cores are read-only. -/
def Sys2Proof.AgentsDieAndComeBack : Prop := ∀ s (a : Agent), s.powered = true →
  (s.deadAgents.contains a = false → ∃ t, exec (.heartbeatSend a) s = .next t ∧ heardAt t a = (s.die 0).cycle
      ∧ { t with heard := s.heard } = s)
  ∧ (s.deadAgents.contains a = true → exec (.heartbeatSend a) s = .next s ∧ exec (.agentDead a) s = .next s)
  ∧ ((s.die 0).cycle < heardAt s a + silence s → exec (.agentDead a) s = .next s)
  ∧ (s.deadAgents.contains a = false → heardAt s a + silence s ≤ (s.die 0).cycle → s.cores.length = 64 →
      (∀ t ∈ s.teams, t.coreNo ∉ agentCores a) → ∃ t, exec (.agentDead a) s = .next t ∧ t.deadAgents = a :: s.deadAgents
        ∧ (∀ r ∈ t.registrants, r.2 ∉ agentCores a) ∧ (∀ c ∈ agentCores a, (t.core c).l1 = [])
        ∧ (∀ r, incReg a = some r → t.field r 16 1 = 1) ∧ t.teams = s.teams)
  ∧ (∀ repair, s.deadAgents.contains a = true → ∃ t, exec (.agentReadmit ⟨a, repair⟩) s = .next t ∧ t.deadAgents.contains a = false
      ∧ (∀ r, incReg a = some r → t.field r 0 16 = (s.field r 0 16 + 1) % 65536 ∧ t.field r 16 1 = 0
        ∧ t.outbox = .announce a ((s.field r 0 16 + 1) % 65536) :: s.outbox)
      ∧ ∀ d x, agentDie a = some d → repair = some x → x.toNat ≤ 16 → t.field (REPAIR d) 0 17 = 2 ^ x.toNat ∧ t.field (REPAIR d) 31 1 = 1)
  ∧ (∀ repair, s.deadAgents.contains a = false → exec (.agentReadmit ⟨a, repair⟩) s = .next s)
  ∧ (∀ (off : BitVec 20) v, (0x20 ≤ off.toNat ∧ off.toNat < 0x40 ∨ 0xA00 ≤ off.toNat ∧ off.toNat < 0x1000) →
      exec (.registerWrite off v) s = .next s)

/-- Link ports, flits and their replay; dead agents (R18, R24, R25, R26, R27, R28, R30, R32, R207). The model's own choices
in it: log entries 14, 20, 41, 42, 53, 87, 90, 96. -/
def Obligations.LinksAndAgents : Prop :=
  PortsAreEnabledAndTrained ∧ FlitsAreSentAndReplayed ∧ AgentsDieAndComeBack

/-! ### The stack controllers -/

/-- R50, R62: a demand read of a placed sector with one erroneous symbol is corrected, with more it is marked poisoned; a
write-back takes the dirty bytes of the home L2 to the stack. -/
def Sys2Proof.DemandReadsAndWriteBacks : Prop := ∀ s (sec : BitVec 34), s.powered = true →
  (∀ (e : BitVec 2) n, place s (32 * sec.toNat) = some n → ∃ t, exec (.memRead sec e) s = .next t ∧ t.dram = s.dram
      ∧ t.poison = (if 2 ≤ e.toNat ∧ s.isPoisoned n = false then insertNat n s.poison else s.poison))
  ∧ (∀ e : BitVec 2, place s (32 * sec.toNat) = none →
      exec (.memRead sec e) s = .next (s.deliverPoison (homeDie (32 * sec.toNat)) (32 * sec.toNat)))
  ∧ ((∀ c ∈ s.l2, c.1 / 32 ≠ sec.toNat) → exec (.memWrite sec) s = .next s)
  ∧ (∀ n, place s (32 * sec.toNat) = some n → s.isPoisoned n = false → rising s.l2 = true →
      ∃ t, exec (.memWrite sec) s = .next t ∧ t.l2 = s.l2.filter (fun c => c.1 / 32 != sec.toNat)
        ∧ (∀ i, i < 32 → Memory.read t.dram (32 * n + i)
            = (look (32 * sec.toNat + i) s.l2).getD (Memory.read s.dram (32 * n + i)))
        ∧ ∀ a, (a < 32 * n ∨ 32 * n + 32 ≤ a) → Memory.read t.dram a = Memory.read s.dram a)

/-- R56 to R58: an interval raises a channel's refresh debt by 1, a debt of 8 forces a refresh; a refresh lowers it, and one
ahead of time may take it to −8. -/
def Sys2Proof.RefreshDebtStaysInRange : Prop := ∀ s (n : BitVec 3) (ch : BitVec 5), s.powered = true → n.toNat < s.stks.length →
  (s.stackTrained n.toNat = false → (∀ x, exec (.refreshTick n ch x) s = .next s) ∧ exec (.refreshIssue n ch) s = .next s
    ∧ exec (.refreshPullIn n ch) s = .next s)
  ∧ ∀ d, (s.stk n.toNat).debt[ch.toNat]? = some d → s.stackTrained n.toNat = true →
    (∀ x, ∃ t, exec (.refreshTick n ch x) s = .next t ∧ (t.stk n.toNat).debt[ch.toNat]? = some (if 7 ≤ d then 7 else d + 1)
        ∧ t.field (REFSTAT n.toNat) 48 16 = (if 7 ≤ d then min (s.field (REFSTAT n.toNat) 48 16 + 1) (2 ^ 16 - 1)
            else s.field (REFSTAT n.toNat) 48 16)
        ∧ t.dram = s.dram ∧ t.poison = s.poison)
    ∧ (1 ≤ d → ∃ t, exec (.refreshIssue n ch) s = .next t ∧ (t.stk n.toNat).debt[ch.toNat]? = some (d - 1) ∧ t.mregs = s.mregs)
    ∧ (d < 1 → exec (.refreshIssue n ch) s = .next s)
    ∧ (-8 < d → ∃ t, exec (.refreshPullIn n ch) s = .next t ∧ (t.stk n.toNat).debt[ch.toNat]? = some (d - 1)
        ∧ t.mregs = s.mregs)
    ∧ (d ≤ -8 → exec (.refreshPullIn n ch) s = .next s)

/-- R59 to R61: a self-test parks its bank row by row (STATE 1), runs its pattern (2), and restores the bank (3) when every
failing row is repaired; it ends as passed (4) or repaired (5), or keeps the bank parked (6); a test that may not start is
refused (7). A start writes the first 4 KiB of the parking area alone. -/
def Sys2Proof.SelfTestsParkAndRestore : Prop := ∀ s (n : BitVec 3), s.powered = true → s.stks.length = 8 →
  (∀ v : DWord, (1 ≤ s.field (BISTSTAT n.toNat) 0 3 ∧ s.field (BISTSTAT n.toNat) 0 3 ≤ 3 ∨ fieldOf v.toNat 12 2 = 3) →
      exec (.bistStart n v) s = .next s)
  ∧ (∀ v : DWord, ¬ (1 ≤ s.field (BISTSTAT n.toNat) 0 3 ∧ s.field (BISTSTAT n.toNat) 0 3 ≤ 3) → fieldOf v.toNat 12 2 ≠ 3 →
      fieldOf v.toNat 16 1 = 1 → s.stackTrained n.toNat = true → (∀ k, k / 2 = n.toNat / 2 → (s.stk k).parked = none) →
      ∃ t, exec (.bistStart n v) s = .next t ∧ t.field (BISTSTAT n.toNat) 0 3 = 1
        ∧ (t.stk n.toNat).parked
          = some ⟨fieldOf v.toNat 0 6, fieldOf v.toNat 6 2, fieldOf v.toNat 8 2, fieldOf v.toNat 12 2, 0, false⟩
        ∧ ∀ a, (∀ i x, i < 128 → placeRaw s (n.toNat / 2) (parkBase (n.toNat / 2) + 32 * i) = some x →
            a < 32 * x.sector ∨ 32 * x.sector + 32 ≤ a) → Memory.read t.dram a = Memory.read s.dram a)
  ∧ (∀ v : DWord, ¬ (1 ≤ s.field (BISTSTAT n.toNat) 0 3 ∧ s.field (BISTSTAT n.toNat) 0 3 ≤ 3) → fieldOf v.toNat 12 2 ≠ 3 →
      fieldOf v.toNat 16 1 = 1 → (s.stackTrained n.toNat = false ∨ ∃ k, k / 2 = n.toNat / 2 ∧ (s.stk k).parked.isSome = true) →
      ∃ t, exec (.bistStart n v) s = .next t ∧ t.field (BISTSTAT n.toNat) 0 3 = 7 ∧ t.field (BISTCTL n.toNat) 16 1 = 0
        ∧ t.stks = s.stks ∧ t.dram = s.dram)
  ∧ ((s.stk n.toNat).parked = none → exec (.bistRowCopy n) s = .next s
      ∧ ∀ f r, exec (.bistPatternDone n f r) s = .next s)
  ∧ (∀ p, (s.stk n.toNat).parked = some p → s.field (BISTSTAT n.toNat) 0 3 = 1 →
      ∃ t, exec (.bistRowCopy n) s = .next t ∧ (t.stk n.toNat).parked = some { p with rows := p.rows + 1 }
        ∧ t.field (BISTSTAT n.toNat) 0 3 = if p.rows + 1 = 65536 then 2 else 1)
  ∧ (∀ p, (s.stk n.toNat).parked = some p → s.field (BISTSTAT n.toNat) 0 3 = 3 → ∃ t, exec (.bistRowCopy n) s = .next t
      ∧ (t.stk n.toNat).parked = (if p.rows + 1 = 65536 then none else some { p with rows := p.rows + 1 })
      ∧ t.field (BISTSTAT n.toNat) 0 3
        = if p.rows + 1 = 65536 then (if s.field (BISTSTAT n.toNat) 16 16 = 0 then 4 else 5) else 3)
  ∧ (∀ p (f r : BitVec 16), (s.stk n.toNat).parked = some p → s.field (BISTSTAT n.toNat) 0 3 = 2 →
      ∃ t, exec (.bistPatternDone n f r) s = .next t ∧ t.field (BISTSTAT n.toNat) 16 16 = f.toNat
        ∧ t.field (BISTSTAT n.toNat) 32 16 = min r.toNat f.toNat
        ∧ t.field (BISTSTAT n.toNat) 0 3 = (if f.toNat ≤ r.toNat then 3 else 6)
        ∧ (t.stk n.toNat).parked = if f.toNat ≤ r.toNat then some { p with rows := 0, restoring := true } else some p)

/-- R63, R64: the scrubber reads sector after sector of a trained stack, writes what it read of a corrected one back unless a demand
write came first, and marks one with more errors. -/
def Sys2Proof.ScrubberWalksItsStack : Prop := ∀ s (n : BitVec 3), s.powered = true → n.toNat < s.stks.length →
  (∀ e, (s.stackTrained n.toNat = false ∨ s.field (STK n.toNat 0x20) 16 1 = 0 ∨ (s.stk n.toNat).scrubWb.isSome = true) →
      exec (.scrubRead n e) s = .next s)
  ∧ (∀ e : BitVec 2, s.stackTrained n.toNat = true → s.field (STK n.toNat 0x20) 16 1 = 1 → (s.stk n.toNat).scrubWb = none →
      (s.stk n.toNat).parked = none → s.isPoisoned (n.toNat * 2 ^ 31 + (s.stk n.toNat).scrubAt) = false →
      ∃ t, exec (.scrubRead n e) s = .next t
        ∧ (t.stk n.toNat).scrubAt = (if 2 ^ 31 ≤ (s.stk n.toNat).scrubAt + 1 then 0 else (s.stk n.toNat).scrubAt + 1)
        ∧ (t.stk n.toNat).scrubWb = (if e = 1#2 then some (n.toNat * 2 ^ 31 + (s.stk n.toNat).scrubAt, false,
            (List.range 32).map fun i => Memory.read s.dram (32 * (n.toNat * 2 ^ 31 + (s.stk n.toNat).scrubAt) + i)) else none)
        ∧ t.poison = (if 2 ≤ e.toNat then insertNat (n.toNat * 2 ^ 31 + (s.stk n.toNat).scrubAt) s.poison else s.poison)
        ∧ t.dram = s.dram)
  ∧ ((s.stk n.toNat).scrubWb = none → exec (.scrubWriteback n) s = .next s)
  ∧ (∀ sec c bs, (s.stk n.toNat).scrubWb = some (sec, c, bs) → bs.length = 32 → ∃ t, exec (.scrubWriteback n) s = .next t
      ∧ (t.stk n.toNat).scrubWb = none ∧ (c = true → t.dram = s.dram)
      ∧ (c = false → ∀ a, Memory.read t.dram a = if a / 32 = sec then bs.getD (a % 32) 0#8 else Memory.read s.dram a)
      ∧ t.poison = (if c then s.poison else s.poison.filter (· != sec))
      ∧ t.field ERRCNT0 0 32 = (if c then s.field ERRCNT0 0 32 else min (s.field ERRCNT0 0 32 + 1) (2 ^ 32 - 1)))

/-- Demand reads, write-backs, refresh, self-test and scrubbing (R50, R56, R57, R58, R59, R60, R61, R62, R63, R64).
The model's own choices in it: log entries 5, 14, 23, 26, 62, 90, 97, 98. -/
def Obligations.StackControllersKeepTheirMemory : Prop :=
  DemandReadsAndWriteBacks ∧ RefreshDebtStaysInRange ∧ SelfTestsParkAndRestore ∧ ScrubberWalksItsStack

/-! ### Views and the host's memory accesses -/

/-- R71 to R75, R98, R99, R137: a cached view moves to the front of its cache, a missing one is read, and the teams of the core
that wait for fills wake; VTINV and TFCLR drop what they name. -/
def Sys2Proof.ViewCachesFillAndDrop : Prop := ∀ s, s.powered = true →
  (∀ (c : BitVec 6) (view : BitVec 11), c.toNat < s.cores.length → (s.teams.map (·.key)).Nodup → ∃ t,
      exec (.viewCacheFill (.lsu c) view) s = .next t ∧ (∃ e, ((t.core c.toNat).vcache[0]?) = some e ∧ e.view = view.toNat)
        ∧ ∀ x ∈ t.teams, x.coreNo = c.toNat → x.park ≠ some .fill)
  ∧ (∀ (c : BitVec 6) (view : BitVec 11) e, (∀ x ∈ s.teams, x.coreNo = c.toNat → x.park ≠ some .fill) →
      (s.core c.toNat).vcache.find? (fun x => x.view == view.toNat) = some e →
      exec (.viewCacheFill (.lsu c) view) s
        = .next (s.modCore c.toNat fun k => { k with vcache := cacheView 32 e k.vcache }))
  ∧ (∀ (c : BitVec 6) (view : BitVec 11), (∀ x ∈ s.teams, x.coreNo = c.toNat → x.park ≠ some .fill) →
      (s.core c.toNat).vcache.find? (fun x => x.view == view.toNat) = none →
      exec (.viewCacheFill (.lsu c) view) s = .next ((((fillView s view.toNat).2).countDie (coreDie c.toNat) .vcmiss).modCore
        c.toNat fun k => { k with vcache := cacheView 32 (fillView s view.toNat).1 k.vcache }))
  ∧ (∀ (d e : BitVec 2) (view : BitVec 11),
      exec (.viewCacheFill (.engine d e) view) s = .next (engineView s d.toNat e.toNat view.toNat).2)
  ∧ (∀ off : BitVec 20, 0x4000 ≤ off.toNat → off.toNat < 0x8000 → off.toNat % 8 = 0 → ∀ v, WritesFields s v off.toNat [(0, 64)])
  ∧ (∀ (off : BitVec 20) (v : DWord), off.toNat = VTINV → fieldOf v.toNat 16 1 = 1 → ∃ t, exec (.registerWrite off v) s = .next t
      ∧ NoCachedView t fun x => fieldOf v.toNat 12 1 == 1 || x == fieldOf v.toNat 0 11)
  ∧ (∀ view : BitVec 11, ∃ t, exec (.vtinvView view) s = .next t ∧ NoCachedView t (· == view.toNat) ∧ t.mregs = s.mregs
      ∧ t.dram = s.dram)
  ∧ (∃ t, exec .vtinvAll s = .next t ∧ NoCachedView t (fun _ => true) ∧ t.mregs = s.mregs ∧ t.dram = s.dram)
  ∧ (∀ frame : BitVec 23, s.dies.length = 4 → ∃ t, exec (.tfclrFrame frame) s = .next t
      ∧ (t.die (frame.toNat / 2 ^ 21)).tolMap
        = (s.die (frame.toNat / 2 ^ 21)).tolMap.filter (· != frame.toNat % 2 ^ 21)
      ∧ { t with dies := s.dies } = s)
  ∧ (∃ t, exec .tfclrAll s = .next t ∧ (∀ k ∈ t.dies, k.tolMap = []) ∧ { t with dies := s.dies } = s)

/-- R76, R77, R78, R80, R100: a descriptor's fields and its element width; and what a fill finds of it: not valid, of no legal shape, not within
one home, tolerant, or legal. A fill reads the 64 bytes at the descriptor's place, and poison makes it illegal. -/
def Sys2Proof.DescriptorsAreChecked : Prop :=
  (∀ e, e < 64 → elemWidth e = (elementTable.find? fun x => x.1 == e).map (·.2))
  ∧ (∀ x v, v = VDesc.ofNat x → v.v = x.testBit 24 ∧ v.gchk = x.testBit 25 ∧ v.wr = x.testBit 14
    ∧ v.kind = descBits x 0 3 0 ∧ v.rank = descBits x 0 7 4 ∧ v.elem = descBits x 0 13 8 ∧ v.base = descBits x 8 57 0
    ∧ (∀ k, k < 4 → v.sel k = descBits x 0 (17 + 2 * k) (16 + 2 * k) ∧ v.dim k = descBits x (0x10 + 4 * k) 31 0
      ∧ v.stride k = (BitVec.ofNat 32 (descBits x (0x20 + 4 * k) 31 0)).toInt)
    ∧ v.t0 = descBits x 0x30 15 0 ∧ v.t1 = descBits x 0x30 31 16 ∧ v.rowb = descBits x 0x34 19 0
    ∧ v.idxoff = descBits x 0x38 34 0 ∧ v.icnt = descBits x 0x38 63 40)
  ∧ (∀ s (v : VDesc), v.base < 2 ^ 58 → (v.v = false → v.outcome s = .illegal 1)
    ∧ (v.v = true → (¬ LegalShape v s.devnum → v.outcome s = .illegal 2)
      ∧ (LegalShape v s.devnum → (¬ WithinHome v → v.outcome s = .illegal 5)
        ∧ (WithinHome v → v.outcome s = .legal ∨ v.outcome s = .tolerantD
          ∧ v.base.testBit 46 = false ∧ (s.die (homeDie v.base)).tolMap ≠ []))))
  ∧ (∀ s (v : VDesc) lo hi (f : Nat), v.v = true → LegalShape v s.devnum → WithinHome v → BaseRange v lo hi → v.base.testBit 46 = false →
      f ∈ (s.die (homeDie v.base)).tolMap → (lo % 2 ^ 37 / 2 ^ 16 ≤ (f : Int) ∧ (f : Int) ≤ hi % 2 ^ 37 / 2 ^ 16
        ∨ v.kind = 5 ∧ 4 * v.idxoff / 2 ^ 16 ≤ f ∧ f ≤ (4 * v.idxoff + 4 * v.icnt - 1) / 2 ^ 16) → v.outcome s = .tolerantD)
  ∧ ∀ s n bs p w, s.tornViews.contains n = false → bulkBytes s 0 (0x1FB7FE0000 + 64 * n) 64 = (bs, p, w) →
      fillView s n = (⟨n, VDesc.ofNat (leNat bs), if p then .illegal 2 else (VDesc.ofNat (leNat bs)).outcome w⟩, w)

/-- R79, R92: the base bit of each view bit, by the kind of the view: by the element's coordinates, by its place in its group of planes, by
the index of a gathered row; none past the last element, and none of a row that its index does not give. -/
def Sys2Proof.ViewBitsHaveTheirBaseBits : Prop := ∀ v : VDesc,
  (v.isGather = false → v.count = ∏ k ∈ Finset.range v.rank, v.dim k
    ∧ v.count * v.width ≤ 8 * v.extent ∧ 8 * v.extent < v.count * v.width + 8)
  ∧ (v.isGather = true → v.extent = v.icnt * v.rowb)
  ∧ (v.kind = 0 → ∀ e, v.element e = e)
  ∧ (∀ e i, Coordinates v e i →
    (v.kind = 3 → v.element e = ∑ k ∈ Finset.range v.rank, (i k : Int) * v.stride k)
    ∧ ∀ size : Nat → Nat, v.kind = 1 → Permutes v → (∀ k, k < v.rank → size (v.sel k) = v.dim k) →
      v.element e = (∑ k ∈ Finset.range v.rank, i k * ∏ j ∈ Finset.range (v.sel k), size j : Nat))
  ∧ (v.kind = 2 → ∀ c rw tc tr h, c < v.t0 → rw < v.t1 → tc < v.dim 0 / v.t0 → tr < v.dim 1 / v.t1 →
      v.element (c + v.t0 * (rw + v.t1 * (tc + v.dim 0 / v.t0 * (tr + v.dim 1 / v.t1 * h))))
        = (tc * v.t0 + c + v.dim 0 * (tr * v.t1 + rw) + v.dim 0 * v.dim 1 * h : Nat))
  ∧ (∀ b, v.count * v.width ≤ b → v.baseBit b = none)
  ∧ (v.kind ≠ 4 → 0 < v.width → ∀ e t n : Nat, t < v.width → e < v.count → (n : Int) = 8 * v.base + v.width * v.element e + t →
      v.baseBit (v.width * e + t) = some n)
  ∧ (v.kind = 4 → ∀ q p j, p < v.width → j < v.t0 → v.width * v.t0 * q + v.t0 * p + j < v.count * v.width →
      v.baseBit (v.width * v.t0 * q + v.t0 * p + j) = some (8 * v.base + v.width * (q * v.t0 + j) + p))
  ∧ (∀ ix : Nat → RowIx, ∀ i y j, y < v.rowb → j < 8 → v.gatherBit ix (8 * (i * v.rowb + y) + j) = match ix i with
      | .row n => some (8 * (v.base + n * v.rowb + y) + j)
      | _ => none)
  ∧ (∀ x : Word, RowIx.ofWord x (v.dim 0) = if x = 0xFFFFFFFF#32 then .null else if x.toNat < v.dim 0 then .row x.toNat else .counted)
  ∧ v.indexBase = v.base / 2 ^ 37 * 2 ^ 37 + 4 * v.idxoff
  ∧ ∀ ix o n, (v.bits ix o n).length = 8 * n ∧ ∀ j, j < 8 * n → (v.bits ix o n)[j]?
      = some (if v.isGather then v.gatherBit ix.at (8 * o + j) else v.baseBit (8 * o + j))

/-- R79, R81, R90, R91: a store through a view enables each base bit that some view bit names, with the value of the highest of them; a
load takes each view bit from its base bit, and zero where there is none. A store of elements below 8 bits, of planes, or of STBM
carries its enables home. -/
def Sys2Proof.ViewAccessesReachTheirBaseBits : Prop :=
  (∀ (bits : List (Option Nat)) (val : Nat → Bool), ((bitsWrite bits val).map Prod.fst).Nodup
    ∧ (∀ p b : Nat, bits[p]? = some (some b) → b / 8 ∈ (bitsWrite bits val).map Prod.fst)
    ∧ ∀ a x en, (a, x, en) ∈ bitsWrite bits val → ∀ j, j < 8 →
      (en.getLsbD j = true ↔ ∃ p : Nat, bits[p]? = some (some (8 * a + j)))
      ∧ ∀ p : Nat, bits[p]? = some (some (8 * a + j)) → (∀ q : Nat, p < q → bits[q]? ≠ some (some (8 * a + j))) → x.getLsbD j = val p)
  ∧ (∀ e o (t : Tgt) ixs, ((Pre.through e o t).tgt ixs).loc
      = .view (decide (e.desc.width < 8) || e.desc.kind == 4) (e.desc.bits ((look e.view ixs).getD []) o t.n))
  ∧ (∀ (t : Tgt) sub bits, t.loc = .view sub bits →
    (∀ tbl j, j < bits.length → (t.value tbl).testBit j = match (bits[j]?).join with
      | some k => (tbl.val (k / 32)).getLsbD (k % 32)
      | none => false)
    ∧ ∀ v mask, t.write v mask = bitsWrite (bits.zipIdx.map fun x => if mask.testBit x.2 then x.1 else none) fun i => v.testBit i)
  ∧ ∀ (x : LaneStore) stbm, (∃ bits, x.tgt.loc = .view true bits) ∨ (∃ pa tol off, x.tgt.loc = .tolerant pa tol off) ∨ stbm = true →
      ∀ y ∈ x.parts stbm, y.1 ≠ .plain

/-- R94: a load that meets counted indices of a view with GCHK traps with GATHERCHK at the first lane, in lane order, that met one, and at
none otherwise. -/
def Sys2Proof.GathersTrapWhereTheyAreChecked : Prop := ∀ s who f lanes ls p s1 ixs q s2, f.kind = .read →
  resolveLanes s who f lanes = (ls, p, s1) → worst (ls.flatMap (·.fails)) = none → laneIndices s1 who.core f ls = (ixs, q, s2) →
  (∀ v r l a, (laneCounted f ixs ls).find? (fun x => x.2.2.2.2) = some (v, r, l, a, true) →
    (resolve s who f lanes).1.fail = some ⟨⟨.gatherchk, 0, l, a⟩, 0, 0, some v⟩)
  ∧ ((laneCounted f ixs ls).find? (fun x => x.2.2.2.2) = none → (resolve s who f lanes).1.fail = none)

/-- R79, R85, R86, R87, R100: a composed read gives each view bit its base bit as the home gives it, and zero where there is none; a
composed write writes the base bits of its view bits; a view sector past the window, of an illegal or tolerant descriptor, or written
through a view with WR = 0, gives zeros, or writes nothing, and is the request's fault. -/
def Sys2Proof.ViewSectorsAreComposed : Prop := ∀ s (e : VEntry) ix vs,
  (∀ d f n, d < 4 → e.outcome = .legal → 32 * vs < e.desc.extent → n = min 32 (e.desc.extent - 32 * vs) → RoomFor s 256 →
    (∀ k, some k ∈ e.desc.bits ix (32 * vs) n → isRemoteWord (8 * (k / 256)) = false
      ∧ ∀ i, i < 8 → (readForward s (8 * (k / 256) + i)).2 = false) →
    (composeRead s d e ix [] f vs).1.length = 32
    ∧ ∀ i, i < 32 → ∃ x, (composeRead s d e ix [] f vs).1[i]? = some (x, false) ∧ ∀ j, j < 8 →
      x.getLsbD j = match ((e.desc.bits ix (32 * vs) n)[8 * i + j]?).join with
        | some k => baseBitAt s k
        | none => false)
  ∧ (∀ f bytes, e.outcome = .legal → e.desc.wr = true → 32 * vs < e.desc.extent → ∀ o n, o / 32 = vs → n = min bytes.length (e.desc.extent - o) →
      (composeWrite s true e ix f o bytes).1 = bitsWrite (e.desc.bits ix o n) fun i => ((bytes[i / 8]?).getD 0#8).getLsbD (i % 8))
  ∧ (∀ d (t : Cause × Nat), t ∈ sectorCause e (32 * vs) →
      (composeRead s d e ix [] BulkFlags.none vs).1 = List.replicate 32 (0#8, false)
      ∧ (composeRead s d e ix [] BulkFlags.none vs).2.2.1.fault = some ⟨t.1, t.2, 0, 32 * vs⟩)
  ∧ ∀ adm o bytes, o / 32 = vs → e.outcome = .legal → e.desc.wr = false → 32 * vs < e.desc.extent →
      (composeWrite s adm e ix BulkFlags.none o bytes).1 = []
      ∧ (composeWrite s adm e ix BulkFlags.none o bytes).2.1.fault = some ⟨.viewf, 4, 0, 32 * vs⟩

/-- R84 to R87, R97: a bulk request waits while no engine of its die is idle, and an engine without a request composes nothing. A
request of another device goes with its descriptor to an engine of BASE's home die, or is answered with zeros. -/
def Sys2Proof.BulkRequestsGoToAnEngine : Prop := ∀ s, s.powered = true →
  (∀ (d : BitVec 2) (view : BitVec 11) (first : BitVec 31) (count : BitVec 7) data,
    (∀ e, e < 4 → (s.engine d.toNat e).req.isSome = true) → s.dies.length = 4 →
      ∃ t r, exec (.bulkRequest d view first count ⟨data, none⟩) s = .next t
        ∧ (t.die d.toNat).engWait = (s.die d.toNat).engWait ++ [r] ∧ r.view = view.toNat ∧ r.first = first.toNat
        ∧ r.count = count.toNat + 1 ∧ r.data = data ∧ r.done = 0)
  ∧ (∀ (d : BitVec 2) (view : BitVec 11) (first : BitVec 31) (count : BitVec 7) data e x, e < 4 →
    (s.engine d.toNat e).req = none → (∀ j, j < e → (s.engine d.toNat j).req.isSome = true) →
    (s.engine d.toNat e).vcache.find? (fun x => x.view == view.toNat) = some x → x.outcome = .legal →
    (fieldOf x.desc.base 46 1 ≠ 0 ∧ reachable s (remoteDevice x.desc.base) = false
      ∨ fieldOf x.desc.base 46 1 = 0 ∧ homeDie x.desc.base = d.toNat) → s.dies.length = 4 →
    e < (s.die d.toNat).engines.length → ∃ t r, exec (.bulkRequest d view first count ⟨data, none⟩) s = .next t
        ∧ (t.engine d.toNat e).req = some r ∧ r.view = view.toNat ∧ r.first = first.toNat ∧ r.entry = some x
        ∧ r.count = count.toNat + 1 ∧ r.data = data ∧ r.done = 0)
  ∧ (∀ (d : BitVec 2) (view : BitVec 11) (first : BitVec 31) (count : BitVec 7) desc x, x = carriedEntry s desc.toNat →
    (x.outcome ≠ .legal → exec (.bulkRequest d view first count ⟨none, some desc⟩) s
        = .next (s.emit (.composed carriedView first.toNat (List.replicate (32 * (count.toNat + 1)) 0#8) false))
      ∧ ∀ bs, exec (.bulkRequest d view first count ⟨some bs, some desc⟩) s = .next s)
    ∧ (x.outcome = .legal → ∀ h e data, h = homeDie x.desc.base → e < 4 → (s.engine h e).req = none →
        (∀ j, j < e → (s.engine h j).req.isSome = true) → s.dies.length = 4 → e < (s.die h).engines.length →
        ∃ t r, exec (.bulkRequest d view first count ⟨data, some desc⟩) s = .next t ∧ (t.engine h e).req = some r
          ∧ r.entry = some x ∧ r.first = first.toNat ∧ r.count = count.toNat + 1 ∧ r.data = data ∧ r.done = 0))
  ∧ (∀ d e : BitVec 2, (s.engine d.toNat e.toNat).req = none →
      exec (.viewSectorCompose d e) s = .next s ∧ exec (.composedWrite d e) s = .next s)
  ∧ (∀ (d e : BitVec 2) r, (s.engine d.toNat e.toNat).req = some r → r.data.isSome = true →
      exec (.viewSectorCompose d e) s = .next s)
  ∧ (∀ (d e : BitVec 2) r, (s.engine d.toNat e.toNat).req = some r → r.data = none →
      exec (.composedWrite d e) s = .next s)
  ∧ (∀ (d e : BitVec 2) r x, (s.engine d.toNat e.toNat).req = some r → r.entry = some x → r.data = none →
      exec (.viewSectorCompose d e) s = .next (engineStep s d.toNat e.toNat))
  ∧ (∀ (d e : BitVec 2) r x bs, (s.engine d.toNat e.toNat).req = some r → r.entry = some x → r.data = some bs →
      exec (.composedWrite d e) s = .next (engineStep s d.toNat e.toNat))

/-- R22, R39, R103: the host's write to a parking area or to the Lantern area is dropped and counted once, and one through BAR4 is
ignored; its read answers with `n` bytes, and over CXL.mem the host then holds the lines. -/
def Sys2Proof.HostAccessesReachDeviceMemory : Prop := ∀ s (a : BitVec 39), s.powered = true →
  (∀ bs : List Byte, bs ≠ [] → (∀ i, i < bs.length → hostReadOnly (a.toNat + i) = true) →
      exec (.hostMemWrite (.device a) bs) s = .next s.countDrop)
  ∧ (∀ bs : List Byte, (∀ i, i < bs.length → hostReadOnly (a.toNat + i) = false) →
      ∃ t, exec (.hostMemWrite (.device a) bs) s = .next t
        ∧ { t with tornSlots := s.tornSlots } = { (bulkWrite s (bytesWrite a.toNat bs)).2 with tornSlots := s.tornSlots })
  ∧ (∀ off bs, exec (.hostMemWrite (.lantern off) bs) s = .next s)
  ∧ (∀ x cxl, exec (.hostMemRead x ⟨0#12, cxl⟩) s = .next s)
  ∧ (∀ off (n : BitVec 12) cxl, n ≠ 0#12 → ∃ t ide bs p rest, exec (.hostMemRead (.lantern off) ⟨n, cxl⟩) s = .next t
      ∧ bs.length = n.toNat ∧ t.outbox = .host ide (.readData (lanternBase + off.toNat) bs p) :: rest)
  ∧ (∀ (n : BitVec 12) cxl, n ≠ 0#12 → ∃ t ide bs p rest, exec (.hostMemRead (.device a) ⟨n, cxl⟩) s = .next t ∧ bs.length = n.toNat
      ∧ t.outbox = .host ide (.readData a.toNat bs p) :: rest
      ∧ (cxl = true → ∀ l, a.toNat / 128 ≤ l → l ≤ (a.toNat + n.toNat - 1) / 128 → l ∈ t.hostLines))

/-- View caches, view engines, and the host's memory accesses (R71, R73, R76 to R80, R84 to R87, R90 to R92, R94, R103). The
model's own choices in it: log entries 7, 9, 14, 70, 77, 84, 89, 92. -/
def Obligations.ViewCachesEnginesAndHostAccesses : Prop :=
  ViewCachesFillAndDrop ∧ DescriptorsAreChecked ∧ ViewBitsHaveTheirBaseBits ∧ ViewAccessesReachTheirBaseBits
    ∧ GathersTrapWhereTheyAreChecked ∧ ViewSectorsAreComposed ∧ BulkRequestsGoToAnEngine ∧ HostAccessesReachDeviceMemory

/-! ### Queues, launches and blocks -/

/-- R106, R111, R115, R122, R125: a queue's enable; a parsed record moves EXPSEQ on; an abort marks the queue's launches and
ends when their error completions are written; a completed launch leaves its queue. -/
def Sys2Proof.QueuesParseAbortAndComplete : Prop := ∀ s (q : BitVec 6), s.powered = true →
  (∃ t, exec (.queueEnable q) s = .next t ∧ t.field (QCTL q.toNat) 0 1 = 1 ∧ OtherRegisters s t [QCTL q.toNat]
      ∧ { t with mregs := s.mregs } = s)
  ∧ (∃ t, exec (.queueDisable q) s = .next t ∧ t.field (QCTL q.toNat) 0 1 = 0 ∧ OtherRegisters s t [QCTL q.toNat]
      ∧ { t with mregs := s.mregs } = s)
  ∧ (mayParse s q.toNat = false → exec (.recordParse q) s = .next s)
  ∧ (mayParse s q.toNat = true → ∃ t, exec (.recordParse q) s = .next t
      ∧ t.field (QSEQ q.toNat) 0 32 = (s.field (QSEQ q.toNat) 0 32 + 1) % 2 ^ 32)
  ∧ (queueAborting s q.toNat = true → exec (.queueAbort q) s = .next s)
  ∧ (queueAborting s q.toNat = false → (∀ b ∈ s.blocks, b.q ≠ q.toNat) → ∃ t, exec (.queueAbort q) s = .next t
      ∧ queueAborting t q.toNat = true ∧ (∀ l ∈ t.launches, l.q = q.toNat → l.err.isSome = true)
      ∧ (∀ x ∈ t.saved, x.block.q ≠ q.toNat) ∧ t.blocks = s.blocks ∧ t.teams = s.teams)
  ∧ (∀ e, queueAborting s q.toNat = false → exec (.abortFinish ⟨q, e⟩) s = .next s)
  ∧ (queueAborting s q.toNat = true → (∀ l ∈ s.launches, l.q = q.toNat → l.cfg.compHost = true ∧ l.cfg.irq = false
        ∧ l.err = some 0x40) →
      ∃ t, exec (.abortFinish ⟨q, []⟩) s = .next t ∧ queueAborting t q.toNat = false
        ∧ t.launches = s.launches.filter (fun l => l.q != q.toNat)
        ∧ t.outbox = ((s.launches.filter fun l => l.q == q.toNat).map fun l =>
            OutMsg.host s.ideKeys (.hostWrite l.cfg.compaddr (BitVec.ofNat 64 (0x80 * 2 ^ 56 + 0x40 * 2 ^ 48 + l.seq)))).reverse ++ s.outbox)
  ∧ (∀ e, completable s q.toNat = none → exec (.launchComplete ⟨q, e⟩) s = .next s)
  ∧ (∀ l e, completable s q.toNat = some l → ∃ t, exec (.launchComplete ⟨q, e⟩) s = .next t
      ∧ (∀ x ∈ t.launches, ¬ (x.q = l.q ∧ x.seq = l.seq))
      ∧ (l.err = none → l.cfg.compHost = true → l.cfg.irq = false → t.dram = s.dram ∧ t.teams = s.teams
        ∧ (e = false → t.outbox = .host s.ideKeys (.hostWrite l.cfg.compaddr (BitVec.ofNat 64 l.cfg.compval)) :: s.outbox)
        ∧ (e = true → t.outbox = s.outbox ∧ t.field ERRCNT1 32 32 = min (s.field ERRCNT1 32 32 + 1) (2 ^ 32 - 1))))

/-- R35, R117, R120, R123, R133, R149: in service, with no move to full service due, the first candidate is placed with its new
teams; a block whose teams have all exited completes and sets its bit. -/
def Sys2Proof.BlocksArePlacedAndComplete : Prop := ∀ s, s.powered = true →
  (placing s = false → exec .blockPlace s = .next s)
  ∧ ((serving s = false ∨ moveDue s = true) → exec .blockPlace s = .next s)
  ∧ (placing s = true → ∀ s1, nextCandidate s = (none, s1) → exec .blockPlace s = .next s1)
  ∧ (placing s = true → ∀ s1 q l cores seats, nextCandidate s = (some (q, .fresh l cores seats), s1) → l.cfg.bmaddr = 0 →
      ∃ t new, exec .blockPlace s = .next t ∧ t.teams = s1.teams ++ new ∧ new.length = l.cfg.nt
        ∧ (∀ u ∈ new, FreshTeam u l.cfg ∧ u.cfg = l.cfg ∧ u.key.q = l.q ∧ u.key.seq = l.seq ∧ u.key.blk = l.nextBlk)
        ∧ new.map (·.key.num) = List.range l.cfg.nt
        ∧ t.blocks = s1.blocks ++ [newBlock l.q l.seq l.nextBlk l.cfg cores seats s1.placeCount]
        ∧ ((∀ c ∈ cores, ∀ e ∈ (s1.core c).l1, e.2.pend = false) → HomesKept s1 t))
  ∧ (placing s = true → ∀ s1 q x cores seats, nextCandidate s = (some (q, .kept x cores seats), s1) → exec .blockPlace s
      = .next (restoreBlock { s1 with lastQueue := s1.lastQueue.set (queuePrio s1 q) q } x cores seats))
  ∧ (∀ (q : BitVec 6) (seq : Word) (blk : BitVec 20),
      (s.blocks.find? fun b => isBlock q.toNat seq.toNat blk.toNat b && b.live.isEmpty) = none →
      exec (.blockComplete q seq blk) s = .next s)
  ∧ (∀ (q : BitVec 6) (seq : Word) (blk : BitVec 20) b,
      (s.blocks.find? fun b => isBlock q.toNat seq.toNat blk.toNat b && b.live.isEmpty) = some b →
      ∃ t, exec (.blockComplete q seq blk) s = .next t ∧ (∀ x ∈ t.blocks, isBlock q.toNat seq.toNat blk.toNat x = false)
        ∧ ∀ l ∈ t.launches, l.q = q.toNat → l.seq = seq.toNat → blk.toNat ∈ l.done)

/-- Queues parse, abort and complete; blocks are placed and complete (R106, R111, R115, R120, R122, R123, R125, R133,
R149). The model's own choices in it: log entries 14, 63, 65, 89, 90. -/
def Obligations.QueuesLaunchesAndBlocks : Prop :=
  QueuesParseAbortAndComplete ∧ BlocksArePlacedAndComplete

/-- R135: the head of ALLOC's queue is admitted when its registers fit, and no later request before it. -/
def Sys2Proof.AllocRequestsAreAdmitted : Prop := ∀ s, s.powered = true →
  (∀ c : BitVec 6, (s.core c.toNat).allocQ = [] → exec (.allocAdmit c) s = .next s)
  ∧ (∀ (c : BitVec 6) a rest t, (s.core c.toNat).allocQ = a :: rest → s.teamOf a.team = some t →
      65536 < regsUsed s c.toNat t.part + (a.regs - t.regs.length) * t.tl → exec (.allocAdmit c) s = .next s)
  ∧ (∀ (c : BitVec 6) a rest t, (s.core c.toNat).allocQ = a :: rest → s.teamOf a.team = some t → s.cores.length = 64 →
      regsUsed s c.toNat t.part + (a.regs - t.regs.length) * t.tl ≤ 65536 → t.park = some .alloc →
      ∃ w u, exec (.allocAdmit c) s = .next w ∧ (w.core c.toNat).allocQ = rest ∧ w.teamOf a.team = some u
        ∧ u.park = none ∧ u.pc = t.pc + 8 ∧ u.repIdx = 0
        ∧ u.latL = LaneLatches.empty ∧ u.latX = LaneLatches.empty ∧ u.latU = UniLatches.empty
        ∧ (∀ n, (∀ d, a.dst = some d → n ≠ d ∧ n ≠ d + 1) →
            u.regs[n]? = (t.regs ++ List.replicate (a.regs - t.regs.length) (zeroLanes t.tl))[n]?)
        ∧ ∀ d, a.dst = some d → d < 160 → d + 1 < t.regs.length + (a.regs - t.regs.length) → ∀ l, l < t.tl →
            (u.regAt d l).toNat + 2 ^ 32 * (u.regAt (d + 1) l).toNat = allocResult s t % 2 ^ 64)

/-- R15, R136: once the request at the head of a core's queue has waited 32,768 issue cycles, and after each 32,768 more, the block of the
lowest-priority launch, and of these the one placed last, that R136 lets go is evicted and counted, where nothing of its teams is
outstanding; if no block qualifies, the request goes on waiting and nothing else changes. -/
def Sys2Proof.BlocksAreEvicted : Prop := ∀ s, s.powered = true →
  (∀ c : BitVec 6, (s.core c.toNat).allocQ = [] → exec (.allocEvict c) s = .next s)
  ∧ (∀ (c : BitVec 6) a rest, (s.core c.toNat).allocQ = a :: rest → (s.die (c.toNat / 16)).issueCycle < a.since + 32768 →
      exec (.allocEvict c) s = .next s)
  ∧ (∀ (c : BitVec 6) a rest t own, (s.core c.toNat).allocQ = a :: rest → a.since + 32768 ≤ (s.die (c.toNat / 16)).issueCycle →
      s.teamOf a.team = some t → s.blockOf a.team = some own → c.toNat < s.cores.length →
      ((∀ b, ¬ MayEvict s c.toNat t.part own b) → ∃ w, exec (.allocEvict c) s = .next w ∧ { w with cores := s.cores } = s
        ∧ (w.core c.toNat).allocQ = { a with since := (s.die (c.toNat / 16)).issueCycle } :: rest
        ∧ ∀ e, e ≠ c.toNat → w.core e = s.core e)
      ∧ (∀ x, MayEvict s c.toNat t.part own x → (∀ b, MayEvict s c.toNat t.part own b → Settled s b) →
        ∃ b w, MayEvict s c.toNat t.part own b ∧ (∀ y, MayEvict s c.toNat t.part own y → GoesFirst s b y)
          ∧ exec (.allocEvict c) s = .next w ∧ BlockSaved s w b
          ∧ w.field 0x9018 32 16 = min (s.field 0x9018 32 16 + 1) (2 ^ 16 - 1)
          ∧ (w.core c.toNat).allocQ.head? = some { a with since := (s.die (c.toNat / 16)).issueCycle }))

/-- R123, R142, R143: while no launch with a ready block that fits nowhere would be helped, no block is pre-empted for priority. The block
that is, is removable and of a lower priority than such a launch, and the first of those to go; it is saved and counted, where
nothing of its teams is outstanding. Another block is not pre-empted. -/
def Sys2Proof.BlocksArePreempted : Prop := ∀ s, s.powered = true →
  (∀ (q : BitVec 6) (seq : Word) (blk : BitVec 20), (∀ n l, ¬ WantsRoom s n l) → exec (.blockPreempt q seq blk) s = .next s)
  ∧ (∀ b, preemptVictim s = some b → ∃ n l, WantsRoom s n l ∧ Removable s b ∧ queuePrio s b.q < queuePrio s n
      ∧ ∀ y, Removable s y → queuePrio s y.q < queuePrio s n → GoesFirst s b y)
  ∧ (∀ (q : BitVec 6) (seq : Word) (blk : BitVec 20), (serving s = false
        ∨ ∃ b, preemptVictim s = some b ∧ isBlock q.toNat seq.toNat blk.toNat b = false) →
      exec (.blockPreempt q seq blk) s = .next s)
  ∧ (∀ (q : BitVec 6) (seq : Word) (blk : BitVec 20) b, preemptVictim s = some b → serving s = true →
      isBlock q.toNat seq.toNat blk.toNat b = true → Settled s b →
      ∃ t, exec (.blockPreempt q seq blk) s = .next t ∧ BlockSaved s t b
        ∧ t.field 0x9018 48 16 = min (s.field 0x9018 48 16 + 1) (2 ^ 16 - 1))

/-- R123, R145: a placement opportunity that falls to a saved block restores it on its seats and is its queue's turn; otherwise
nothing is restored. -/
def Sys2Proof.BlocksAreRestored : Prop := ∀ s, s.powered = true →
  (∀ (q : BitVec 6) (seq : Word), (placing s = false ∨ s.launches = []) →
      exec (.blockRestore q seq) s = .next s)
  ∧ (∀ (q : BitVec 6) (seq : Word) u n y cores seats, placing s = true → nextCandidate s = (some (n, .kept y cores seats), u) →
      (n ≠ q.toNat ∨ y.block.seq ≠ seq.toNat) → exec (.blockRestore q seq) s = .next s)
  ∧ (∀ (q : BitVec 6) (seq : Word) u n, placing s = true → (nextCandidate s = (none, u)
        ∨ ∃ l cores seats, nextCandidate s = (some (n, .fresh l cores seats), u)) → exec (.blockRestore q seq) s = .next s)
  ∧ (∀ (q : BitVec 6) (seq : Word) u x cores seats, placing s = true → nextCandidate s = (some (q.toNat, .kept x cores seats), u) →
      x.block.seq = seq.toNat → cores.length = seats.length → cores.Nodup →
      (∀ c ∈ cores, ∀ e ∈ (u.core c).l1, e.2.pend = false) →
      ∃ t, exec (.blockRestore q seq) s = .next t ∧ BlockRestored u t x cores seats
        ∧ t.lastQueue = u.lastQueue.set (queuePrio u q.toNat) q.toNat
        ∧ t.field 0x9018 0 16 = min (u.field 0x9018 0 16 + 1) (2 ^ 16 - 1))

/-- R144, R147, R148: CSW suspends a queue: it saves its resident blocks and counts them, waits for a handler, or ends with the code of a pool
that cannot take them or of a queue without launches; and it resumes one. -/
def Sys2Proof.QueuesAreSuspendedAndResumed : Prop := ∀ s, s.powered = true →
  (∀ q : BitVec 6, s.field CSW 63 1 = 1 → exec (.cswResume q) s = .next s
      ∧ (s.field CSW 0 6 ≠ q.toNat → exec (.cswSuspend q) s = .next s))
  ∧ (∀ q : BitVec 6, s.field CSW 63 1 = 0 → heldBy s q.toNat = [] → ∃ t, exec (.cswSuspend q) s = .next t
      ∧ t.field CSW 0 6 = q.toNat ∧ t.field CSW 60 3 = 2 ∧ t.field CSW 63 1 = 0 ∧ OtherRegisters s t [CSW])
  ∧ (∀ q : BitVec 6, s.field CSW 63 1 = 0 → heldBy s q.toNat ≠ [] → (∀ b ∈ s.blocks, b.q ≠ q.toNat) →
      ∃ t, exec (.cswSuspend q) s = .next t ∧ queueSuspended t q.toNat = true ∧ t.field CSW 0 6 = q.toNat
        ∧ t.field CSW 60 3 = (if poolPlaced s then 0 else 1) ∧ t.field CSW 63 1 = 0 ∧ t.teams = s.teams ∧ t.blocks = s.blocks)
  ∧ (∀ (q : BitVec 6) b, s.field CSW 63 1 = 0 → heldBy s q.toNat ≠ [] → s.blocks.filter (fun x => x.q == q.toNat) = [b] →
      b.live ≠ [] → poolPlaced s = true →
      ((∃ u ∈ s.teams, b.holds u.key = true ∧ u.priv = true) → ∃ t, exec (.cswSuspend q) s = .next t ∧ queueSuspended t q.toNat = true
        ∧ t.field CSW 0 6 = q.toNat ∧ t.field CSW 63 1 = 1 ∧ { t with mregs := s.mregs } = s)
      ∧ ((∀ u ∈ s.teams, b.holds u.key = true → u.priv = false) →
        (contextFits s b = false → ∃ t, exec (.cswSuspend q) s = .next t ∧ queueSuspended t q.toNat = true
          ∧ t.field CSW 60 3 = 1 ∧ t.field CSW 63 1 = 0 ∧ { t with mregs := s.mregs } = s)
        ∧ (contextFits s b = true → Settled s b → ∃ t, exec (.cswSuspend q) s = .next t ∧ BlockSaved s t b
          ∧ queueSuspended t q.toNat = true ∧ t.field CSW 60 3 = 0 ∧ t.field CSW 63 1 = 0
          ∧ t.field 0x9018 16 16 = min (s.field 0x9018 16 16 + 1) (2 ^ 16 - 1))))
  ∧ (∀ q : BitVec 6, s.field CSW 63 1 = 0 → ∃ t, exec (.cswResume q) s = .next t ∧ queueSuspended t q.toNat = false
      ∧ t.field CSW 0 6 = q.toNat ∧ t.field CSW 63 1 = 0 ∧ { t with mregs := s.mregs } = s
      ∧ t.field CSW 60 3 = if queueSuspended s q.toNat = true then 0 else if heldBy s q.toNat = [] then 2 else 3)

/-- R15, R138: the team that was queued first on a partition, and no other, enters its active set once its lanes fit in 1,024, its latches and
tags void; a partition with a queued team rotates once its longest active team has been there for 4,096 issue cycles: that team is
queued behind the others, and the head of the queue enters if its lanes fit. -/
def Sys2Proof.TeamsEnterTheActiveSet : Prop := ∀ s, s.powered = true →
  (∀ k, mayEnter s k = false → exec (.teamEnterActive k) s = .next s)
  ∧ (∀ k t, s.teams[k]? = some t → (mayEnter s k = true ↔ QueuedOn t t.coreNo t.part ∧ lanesActive s t.coreNo t.part + t.tl ≤ 1024
      ∧ ∀ j x, s.teams[j]? = some x → QueuedOn x t.coreNo t.part → t.order < x.order ∨ t.order = x.order ∧ k ≤ j))
  ∧ (∀ k t, mayEnter s k = true → s.teams[k]? = some t → ∃ u, exec (.teamEnterActive k) s = .next (s.setTeam k u)
      ∧ u.active = true ∧ u.entered = (s.die t.die).issueCycle
      ∧ u.latL = LaneLatches.empty ∧ u.latX = LaneLatches.empty ∧ u.latU = UniLatches.empty ∧ (∀ e ∈ u.ocache, e.2 = false)
      ∧ u.regs = t.regs ∧ u.pc = t.pc ∧ u.mask = t.mask ∧ u.stack = t.stack)
  ∧ (∀ (c : BitVec 6) (part : BitVec 3), ((∀ x ∈ s.teams, ¬ QueuedOn x c.toNat part.toNat) ∨ lanesActive s c.toNat part.toNat = 0
        ∧ ∀ x ∈ s.teams, 0 < x.tl) → exec (.rotation c part) s = .next s)
  ∧ (∀ (c : BitVec 6) (part : BitVec 3) k t, longestActive s c.toNat part.toNat = some k → s.teams[k]? = some t →
      (s.die t.die).issueCycle < t.entered + 4096 ∨ mayLeave s k t = false → exec (.rotation c part) s = .next s)
  ∧ (∀ (c : BitVec 6) (part : BitVec 3) k, longestActive s c.toNat part.toNat = some k → ∃ t, s.teams[k]? = some t ∧ t.active = true
      ∧ t.coreNo = c.toNat ∧ t.part = part.toNat
      ∧ ∀ x ∈ s.teams, x.active = true → x.coreNo = c.toNat → x.part = part.toNat → t.entered ≤ x.entered)
  ∧ (∀ (c : BitVec 6) (part : BitVec 3) k h t x, queueHead s c.toNat part.toNat = some h → s.teams[h]? = some x →
      longestActive s c.toNat part.toNat = some k → s.teams[k]? = some t → t.entered + 4096 ≤ (s.die t.die).issueCycle →
      mayLeave s k t = true → ∃ w u y, exec (.rotation c part) s = .next w ∧ w.teams[k]? = some u
        ∧ u.active = false ∧ (∀ z ∈ s.teams, z.order < u.order) ∧ u.regs = t.regs ∧ u.pc = t.pc ∧ u.latL = LaneLatches.empty
        ∧ w.teams[h]? = some y ∧ (y.active = true ↔ lanesActive s c.toNat part.toNat - t.tl + x.tl ≤ 1024) ∧ y.regs = x.regs ∧ y.pc = x.pc
        ∧ (∀ j, j ≠ k → j ≠ h → w.teams[j]? = s.teams[j]?) ∧ { w with teams := s.teams } = s)

/-- ALLOC's queue, eviction, pre-emption, context switches and active sets (R123, R132, R135, R136, R138, R142 to R148). The model's
own choices in it: log entries 14, 54, 68, 69, 78, 111. -/
def Obligations.AdmissionPreemptionAndActiveSets : Prop :=
  AllocRequestsAreAdmitted ∧ BlocksAreEvicted ∧ BlocksArePreempted ∧ BlocksAreRestored ∧ QueuesAreSuspendedAndResumed
    ∧ TeamsEnterTheActiveSet

/-! ### Teams, translation, traps and demand paging -/

/-- R211, R215, R216, R324: loads arrive; a walk ends in its translation; TLBINV drops every entry, those of an ASID, or those
of a page. -/
def Sys2Proof.LoadsAndTranslations : Prop := ∀ s, s.powered = true →
  (∀ k j, (∀ t r, s.teams[k]? = some t → t.loads[j]? = some r → False) → exec (.loadDataArrive k j) s = .next s)
  ∧ (∀ k t r, s.teams[k]? = some t → t.loads[0]? = some r →
      exec (.loadDataArrive k 0) s = .next (loadArrive (s.setTeam k { t with loads := t.loads.eraseIdx 0 }) k r))
  ∧ (∀ k va, s.teams[k]? = none → exec (.walkComplete k va) s = .next s)
  ∧ (∀ k va t, s.teams[k]? = some t → t.park ≠ some .fill → exec (.walkComplete k va) s = .next
      (stainTeam (translate s t.coreNo t.cfg.asid t.cfg.ptroot va.toNat).2.2 k
        (translate s t.coreNo t.cfg.asid t.cfg.ptroot va.toNat).2.1))
  ∧ (∀ k va t, s.teams[k]? = some t → t.park = some .fill → ∃ w u, exec (.walkComplete k va) s = .next w
      ∧ w.teams[k]? = some u ∧ u.park ≠ some .fill)
  ∧ (∃ t, exec .tlbinvAll s = .next t ∧ NoCachedTranslation t (fun _ => true) (fun _ => true) ∧ t.mregs = s.mregs
      ∧ t.teams = s.teams)
  ∧ (∀ asid : BitVec 12, ∃ t, exec (.tlbinvAsid asid) s = .next t ∧ t.teams = s.teams
      ∧ NoCachedTranslation t (fun e => e.asid == asid.toNat) (fun e => e.asid == asid.toNat))
  ∧ (∀ (asid : BitVec 12) (page : BitVec 39), ∃ t, exec (.tlbinvPage asid page) s = .next t ∧ t.teams = s.teams
      ∧ NoCachedTranslation t (fun e => e.hits asid.toNat (page.toNat * 2 ^ 16))
          (fun e => e.asid == asid.toNat && e.prefixVa == page.toNat * 2 ^ 16 / 2 ^ (13 * e.lvl + 16)))

/-- R219, R223: a pending cause of a team that runs is taken where the team stands; a report of a sealed store pends, or
counts where a cause pends already. -/
def Sys2Proof.PendingCausesAreTaken : Prop := ∀ s, s.powered = true →
  (∀ k, (∀ t i, s.teams[k]? = some t → t.park = none → t.pending = some i → False) → exec (.trapEntry k) s = .next s)
  ∧ (∀ t i, s.teams[s.cur]? = some t → t.park = none → t.pending = some i → t.loads = [] →
      (∀ o ∈ (s.core t.coreNo).matQ, o.team ≠ t.key) → t.priv = false →
      TrapsTo s { t with pending := none } (exec (.trapEntry s.cur) s) i t.pc)
  ∧ (∀ k x va, s.teams[k]? = none → exec (.deferredCauseReport k x va) s = .next s)
  ∧ (∀ k (va : DWord) t, s.teams[k]? = some t → t.pending = none → exec (.deferredCauseReport k true va) s
      = .next (s.setTeam k { t with pending := some ⟨.sealedC, 0, 0, va.toNat⟩ }))
  ∧ (∀ k va t i, s.teams[k]? = some t → t.pending = some i →
      exec (.deferredCauseReport k true va) s = .next (s.count TRAPCNT 32 16 1))
  ∧ (∀ k va t, s.teams[k]? = some t → t.trapen.getLsbD 0 = false →
      exec (.deferredCauseReport k false va) s = .next (s.setTeam k (t.raise poisonBit)))
  ∧ (∀ k (va : DWord) t, s.teams[k]? = some t → t.trapen.getLsbD 0 = true → t.pending = none →
      exec (.deferredCauseReport k false va) s
        = .next (s.setTeam k { t.raise poisonBit with pending := some ⟨.poisont, 0, 0, va.toNat⟩ }))

/-- R227 to R229: the teams parked on a page join its open record; a response closes the record and its teams go on; with paging
disabled no record is open. -/
def Sys2Proof.PageFaultsAreRecordedAndAnswered : Prop := ∀ s, s.powered = true →
  (∀ k, (∀ t, s.teams[k]? = some t → waitsForRecord t = false) → exec (.pfRecordWrite k) s = .next s)
  ∧ (∀ k t i a l n r, s.teams[k]? = some t → t.park = some (.pageFault i a l n none) →
      (s.pfOpen.find? fun r => r.asid == t.cfg.asid && r.page == faultPage i) = some r →
      exec (.pfRecordWrite k) s = .next { s with teams := s.teams.map fun u => match u.park with
        | some (.pageFault j b m o none) => if u.cfg.asid = t.cfg.asid ∧ faultPage j = faultPage i
            then { u with park := some (.pageFault j b m o (some r.idx)) } else u
        | _ => u })
  ∧ (∀ k t i a l n, s.teams[k]? = some t → t.park = some (.pageFault i a l n none) →
      (s.pfOpen.find? fun r => r.asid == t.cfg.asid && r.page == faultPage i) = none → ringHasRoom s = false →
      exec (.pfRecordWrite k) s = .next s)
  ∧ (∀ x : BitVec 10, recordOpen s x.toNat = false →
      exec (.pfrespRetry x) s = .next s ∧ exec (.pfrespDeliver x) s = .next s)
  ∧ (∀ x : BitVec 10, recordOpen s x.toNat = true → ∃ t, exec (.pfrespRetry x) s = .next t
      ∧ recordOpen t x.toNat = false ∧ recordWaiters t x.toNat = [] ∧ t.mregs = s.mregs)
  ∧ (∀ x : BitVec 10, recordOpen s x.toNat = true → ∃ t, exec (.pfrespDeliver x) s = .next t ∧ recordOpen t x.toNat = false)
  ∧ (∃ t, exec .pfDisable s = .next t ∧ t.pfOpen = [])

/-- R8, R216, R229, R230: writes of the registers of translation, trap counts and demand paging: without a command they reach the writable
fields; GO of TLBINV invalidates, GO of PFRESP answers a record, and clearing EN of PFQPTR closes every record. -/
def Sys2Proof.PagingRegistersAreWritten : Prop := ∀ s (v : DWord), s.powered = true →
  (∀ x ∈ pagingWrites s v.toNat, WritesFields s v x.1 x.2)
  ∧ (∀ (off : BitVec 20) kind, off.toNat = TLBINV → fieldOf v.toNat 62 1 = 1 →
      kind = (if fieldOf v.toNat 60 2 = 3 then s.field TLBINV 60 2 else fieldOf v.toNat 60 2) →
      ∃ t, exec (.registerWrite off v) s = .next t ∧ t.teams = s.teams ∧ OtherRegisters s t [TLBINV]
      ∧ (kind = 0 → NoCachedTranslation t (fun _ => true) fun _ => true)
      ∧ (kind = 1 → NoCachedTranslation t (fun e => e.asid == fieldOf v.toNat 40 12) fun e => e.asid == fieldOf v.toNat 40 12)
      ∧ (kind = 2 → NoCachedTranslation t (fun e => e.hits (fieldOf v.toNat 40 12) (fieldOf v.toNat 0 39 * 2 ^ 16)) fun e =>
          e.asid == fieldOf v.toNat 40 12 && e.prefixVa == fieldOf v.toNat 0 39 * 2 ^ 16 / 2 ^ (13 * e.lvl + 16)))
  ∧ (∀ (off : BitVec 20) (x : BitVec 10), off.toNat = PFRESP → fieldOf v.toNat 63 1 = 1 → x.toNat = fieldOf v.toNat 0 10 → ∃ u,
      Wrote s u PFRESP [(0, 10, x.toNat), (62, 1, fieldOf v.toNat 62 1)]
      ∧ (fieldOf v.toNat 62 1 = 0 → exec (.registerWrite off v) s = exec (.pfrespRetry x) u)
      ∧ (fieldOf v.toNat 62 1 = 1 → exec (.registerWrite off v) s = exec (.pfrespDeliver x) u))
  ∧ (∀ off : BitVec 20, off.toNat = PFQPTR → fieldOf v.toNat 63 1 = 0 → s.field PFQPTR 63 1 = 1 → ∃ u t,
      Wrote s u PFQPTR [(32, 10, fieldOf v.toNat 32 10)] ∧ exec (.registerWrite off v) s = exec .pfDisable u
      ∧ exec .pfDisable u = .next t ∧ t.pfOpen = [])

/-- Arriving loads, TLB invalidations, pending causes and demand paging (R211, R215, R216, R219, R223, R227, R228,
R229, R230, R324). The model's own choices in it: log entries 10, 12, 14, 24, 49. -/
def Obligations.LoadsTrapsAndPageFaultEvents : Prop :=
  LoadsAndTranslations ∧ PendingCausesAreTaken ∧ PageFaultsAreRecordedAndAnswered ∧ PagingRegistersAreWritten

/-! ### Caches, epochs and asynchronous work -/

/-- R83, R183, R184, R191, R206, R207: a core that holds a dirty word registers it, with the other word of its aligned 8 bytes where that
is on its way too, and another registrant gives it up; at the home of a dead die the store is dropped and counted; a clean word
that an L1 evicts is gone. -/
def Sys2Proof.WordsAreRegisteredAndRevoked : Prop := ∀ s (c : BitVec 6) (w : BitVec 56), s.powered = true →
  ((l1Word s c.toNat w.toNat = none ∨ isLocalWord w.toNat = false) → exec (.registration c w) s = .next s)
  ∧ (∀ x, l1Word s c.toNat w.toNat = some x → isLocalWord w.toNat = true → x.pend = true → x.sync = false →
      look w.toNat s.registrants = none → s.cores.length = 64 → homeDead s w.toNat = false →
      ((∀ y, l1Word s c.toNat (mateOf w.toNat) = some y → y.pend = false ∨ y.sync = true) →
        ∃ t, exec (.registration c w) s = .next t
        ∧ look w.toNat t.registrants = some c.toNat ∧ l1Word t c.toNat w.toNat = some { x with reg := true, pend := false }
        ∧ t.dram = s.dram ∧ t.l2 = s.l2)
      ∧ (∀ y, l1Word s c.toNat (mateOf w.toNat) = some y → y.pend = true → y.sync = false →
        look (mateOf w.toNat) s.registrants = none → ∃ t, exec (.registration c w) s = .next t
        ∧ look w.toNat t.registrants = some c.toNat ∧ look (mateOf w.toNat) t.registrants = some c.toNat
        ∧ l1Word t c.toNat w.toNat = some { x with reg := true, pend := false }
        ∧ l1Word t c.toNat (mateOf w.toNat) = some { y with reg := true, pend := false }
        ∧ t.dram = s.dram ∧ t.l2 = s.l2))
  ∧ (∀ x, l1Word s c.toNat w.toNat = some x → isLocalWord w.toNat = true → x.pend = true → x.sync = false →
      look w.toNat s.registrants = none → s.cores.length = 64 → homeDead s w.toNat = true →
      (∀ y, l1Word s c.toNat (mateOf w.toNat) = some y → y.pend = false ∨ y.sync = true) →
      ∃ t, exec (.registration c w) s = .next t ∧ look w.toNat t.registrants = none ∧ l1Word t c.toNat w.toNat = none
        ∧ t.field ERRCNT1 32 32 = min (s.field ERRCNT1 32 32 + 1) (2 ^ 32 - 1) ∧ t.dram = s.dram ∧ t.l2 = s.l2)
  ∧ (look w.toNat s.registrants ≠ some c.toNat → exec (.revocation c w) s = .next s)
  ∧ (look w.toNat s.registrants = some c.toNat → (∀ x, l1Word s c.toNat w.toNat = some x → x.sync = false) →
      ∃ t, exec (.revocation c w) s = .next t ∧ look w.toNat t.registrants = none)
  ∧ (∀ x, l1Word s c.toNat w.toNat = some x → x.dirty = false → look w.toNat s.registrants ≠ some c.toNat →
      s.cores.length = 64 → ∃ t, exec (.l1Eviction c w) s = .next t ∧ l1Word t c.toNat w.toNat = none
        ∧ t.registrants = s.registrants ∧ t.dram = s.dram ∧ t.l2 = s.l2)
  ∧ (look w.toNat s.registrants ≠ some c.toNat → l1Word s c.toNat w.toNat = none → exec (.l1Eviction c w) s = .next s)
  ∧ (∀ r : BitVec 6, look w.toNat s.registrants ≠ some r.toNat → exec (.forwardedRead c r w) s = .next s)
  ∧ (∀ (r : BitVec 6) x, look w.toNat s.registrants = some r.toNat → r ≠ c → l1Word s c.toNat w.toNat = none →
      isLocalWord w.toNat = true → l1Word s r.toNat w.toNat = some x → x.sync = false →
      exec (.forwardedRead c r w) s = .next (fillWord (requestWords s c.toNat [w.toNat]) c.toNat w.toNat).2.2)
  ∧ (∀ (line : BitVec 51) i n, isLocalWord (32 * line.toNat) = false → exec (.homeRead c line i n) s = .next s)
  ∧ (∀ (line : BitVec 51) (i n : BitVec 5), isLocalWord (32 * line.toNat) = true → exec (.homeRead c line i n) s
      = .next (readSpan s c.toNat line.toNat i.toNat (min (n.toNat + 1) (32 - i.toNat))).2)
  ∧ (∀ (d : BitVec 2) (dev : BitVec 10) (g : BitVec 23), (∀ e ∈ (s.die d.toNat).versions, e.dev = dev.toNat →
      e.granule = g.toNat → e.checked = true) → exec (.versionQuery d dev g) s = .next s)
  ∧ (∀ (d : BitVec 2) (dev : BitVec 10) (g : BitVec 23) e, (s.die d.toNat).versions.find? (fun e => e.dev == dev.toNat
      && e.granule == g.toNat && !e.checked) = some e →
      exec (.versionQuery d dev g) s = .next (queryVersion s d.toNat e.dev e.granule e.ver))

/-- R192, R197: at an epoch boundary the signatures of every team move on by one, every core's clock is the largest, and every die
owes a sweep, the sweeps of the boundary before having ended; a sweep leaves a die's L1s no clean word that is not registered. -/
def Sys2Proof.EpochsAndSweeps : Prop := ∀ s, s.powered = true → s.cores.length = 64 → s.dies.length = 4 →
  (∃ t, exec .brimEpochBoundary s = .next t
      ∧ t.teams = s.teams.map (fun u => { u with sigE0 := 0#512, sigE1 := u.sigE0, sigE2 := u.sigE1 })
      ∧ (∀ c, c < 64 → (t.core c).clock = largestClock s ∧ (t.core c).l1 = if (s.die (c / 16)).sweepDue
          then (s.core c).l1.filter (fun e => e.2.dirty || e.2.reg) else (s.core c).l1)
      ∧ (∀ d, d < 4 → (t.die d).sweepDue = true) ∧ t.registrants = s.registrants ∧ t.dram = s.dram ∧ t.l2 = s.l2)
  ∧ (∀ d : BitVec 2, (s.die d.toNat).sweepDue = false → exec (.brimSweep d) s = .next s)
  ∧ (∀ d : BitVec 2, (s.die d.toNat).sweepDue = true → ∃ t, exec (.brimSweep d) s = .next t ∧ (t.die d.toNat).sweepDue = false
      ∧ (∀ c, c < 64 → (t.core c).l1 = if c / 16 = d.toNat then (s.core c).l1.filter (fun e => e.2.dirty || e.2.reg)
          else (s.core c).l1)
      ∧ (t.die d.toNat).canopy = (s.die d.toNat).canopy.filter (fun e => e.2.host || e.2.dirty)
      ∧ t.registrants = s.registrants ∧ t.dram = s.dram ∧ t.l2 = s.l2)

/-- R176, R178, R203, R341, R358, R380: a unit completes once and where its copy may start; an operation whose units are done
leaves its queue; the matrix unit executes its oldest instruction; an MRD whose values are ready writes its register. -/
def Sys2Proof.AsynchronousWorkCompletes : Prop := ∀ s, s.powered = true →
  (∀ id u, findCopy s id = none → exec (.copyUnitComplete id u) s = .next s ∧ exec (.asyncOpComplete id) s = .next s
      ∧ exec (.actldFlip id) s = .next s)
  ∧ (∀ id u c op, findCopy s id = some (c, op) → (op.done.contains u = true ∨ op.kind.units ≤ u) →
      exec (.copyUnitComplete id u) s = .next s)
  ∧ (∀ id u, exec (.copyUnitComplete id u) s = .next (unitComplete s id u))
  ∧ (∀ id c op, findCopy s id = some (c, op) → op.done.length < op.kind.units → exec (.asyncOpComplete id) s = .next s)
  ∧ (∀ id c op, findCopy s id = some (c, op) → op.kind.units ≤ op.done.length → op.table = none → s.cores.length = 64 →
      ∃ t, exec (.asyncOpComplete id) s = .next t ∧ (t.core c).copyQ = (s.core c).copyQ.filter (fun o => o.id != id)
        ∧ (∀ r ∈ t.ops, r.id = id → r.done = true))
  ∧ (∀ id c op n x, findCopy s id = some (c, op) → op.table = some n → op.flipped = false → op.done ≠ [] → c < 64 →
      s.cores.length = 64 → (s.core c).tables[n]? = some x → ∃ t, exec (.actldFlip id) s = .next t
        ∧ (t.core c).tables = (s.core c).tables.set n { x with active := !x.active })
  ∧ (∀ c : BitVec 6, (∀ o ∈ (s.core c.toNat).matQ, o.ended.isSome = true) → exec (.matrixExecute c) s = .next s)
  ∧ (∀ (c : BitVec 6) op row count b t, (s.core c.toNat).matQ.find? (fun o => o.ended.isNone) = some op →
      op.kind = .mzero row count → s.blockOf op.team = some b → s.teamOf op.team = some t →
      ∃ w, exec (.matrixExecute c) s = .next w ∧ (∀ r ∈ w.ops, r.id = op.id → r.done = true) ∧ w.dram = s.dram)
  ∧ (∀ c : BitVec 6, (∀ o ∈ (s.core c.toNat).matQ, o.ended = none) → exec (.mrdWriteback c) s = .next s)
  ∧ (∀ (c : BitVec 6) op dst row col w vals t, (s.core c.toNat).matQ.find? (fun o => o.ended.isSome) = some op →
      op.kind = .mrd dst row col w → op.ended = some vals → s.teamOf op.team = some t → ∃ v u,
      exec (.mrdWriteback c) s = .next v ∧ v.teamOf op.team = some u ∧ u.regs = (t.setReg dst vals).regs ∧ u.pc = t.pc)
  ∧ (∀ k, s.teams[k]? = none → exec (.tsOfferEffect k) s = .next s)
  ∧ (∀ k t, s.teams[k]? = some t → exec (.tsOfferEffect k) s = .next (s.modBlock t.key fun b =>
      { b with units := b.units.map fun u => match u.2 with
        | .offering x [] => (u.1, .offered x)
        | o => (u.1, o) }))

/-- Registrations, Brim epochs, and the completion of asynchronous work (R176, R178, R183, R184, R191, R192, R197,
R203, R206, R341, R358). The model's own choices in it: log entries 14, 16, 23. -/
def Obligations.CachesEpochsAndAsynchronousWork : Prop :=
  WordsAreRegisteredAndRevoked ∧ EpochsAndSweeps ∧ AsynchronousWorkCompletes

/-- R8, R16, R20, R53, R54, R58, R64, R106, R148: a write without a command reaches a register's writable fields, but for reserved
values, and nothing else; a write of a read-only or reserved offset, or of one that is not a multiple of 8, does nothing. -/
def Sys2Proof.RegisterFieldsAreWritten : Prop := ∀ s (v : DWord), s.powered = true →
  (∀ off : BitVec 20, (off.toNat % 8 ≠ 0 ∨ off.toNat = MODSTAT ∨ (0x60 ≤ off.toNat ∧ off.toNat < 0x100)) →
      exec (.registerWrite off v) s = .next s)
  ∧ ∀ d i n q, d < 4 → i < 16 → n < 8 → q < 64 → ∀ x ∈ plainWrites s v.toNat d i n q, WritesFields s v x.1 x.2

/-- R17, R28, R31, R106, R148, R231: the commands of the registers: a dump or a reset through MODCTL, ports through LLEN, the identity written
once, the abort of a queue, and the acts of CSW, each with the register's fields written. -/
def Sys2Proof.RegisterCommandsAct : Prop := ∀ s (v : DWord), s.powered = true →
  (∀ off : BitVec 20, off.toNat = MODCTL → ∃ u, Wrote s u MODCTL [(1, 1, fieldOf v.toNat 1 1)]
    ∧ (fieldOf v.toNat 2 1 = 1 → fieldOf v.toNat 0 1 = 0 → exec (.registerWrite off v) s = exec .hostDump u)
    ∧ (fieldOf v.toNat 2 1 = 0 → fieldOf v.toNat 0 1 = 1 → exec (.registerWrite off v) s = exec .warmReset u))
  ∧ (∀ off : BitVec 20, off.toNat = LLEN → s.ports.length = 24 → ∃ t, exec (.registerWrite off v) s = .next t
      ∧ t.field LLEN 0 24 = v.toNat % 2 ^ 24 ∧ t.field LLEN 24 40 = s.field LLEN 24 40
      ∧ OtherRegisters s t (LLEN :: (List.range 24).map LLSTAT)
      ∧ ∀ p, p < 24 → (s.field LLEN p 1 = fieldOf v.toNat p 1 → t.portState p = s.portState p ∧ t.port p = s.port p)
        ∧ (s.field LLEN p 1 ≠ fieldOf v.toNat p 1 → t.portState p = fieldOf v.toNat p 1 ∧ t.port p = Port.reset))
  ∧ (∀ off : BitVec 20, off.toNat = INCARN → s.field INCARN 16 1 = 0 → ∃ t, exec (.registerWrite off v) s = .next t
      ∧ Wrote s t INCARN [(0, 16, v.toNat % 2 ^ 16), (16, 1, 1), (32, 16, fieldOf v.toNat 32 16)])
  ∧ (∀ off : BitVec 20, off.toNat = DEVNUM → s.field DEVNUM 16 1 = 0 → ∃ t, exec (.registerWrite off v) s = .next t
      ∧ Wrote s t DEVNUM [(0, 10, v.toNat % 2 ^ 10), (16, 1, 1)])
  ∧ (∀ (off : BitVec 20) (q : BitVec 6), off.toNat = QCTL q.toNat → fieldOf v.toNat 15 1 = 1 → ∃ u,
      Wrote s u (QCTL q.toNat) [(0, 1, fieldOf v.toNat 0 1), (8, 3, fieldOf v.toNat 8 3), (14, 1, fieldOf v.toNat 14 1)]
      ∧ exec (.registerWrite off v) s = exec (.queueAbort q) u)
  ∧ (∀ (off : BitVec 20) (q : BitVec 6), off.toNat = CSW → s.field CSW 63 1 = 0 → q.toNat = fieldOf v.toNat 0 6 → ∃ u,
      Wrote s u CSW [(0, 6, q.toNat)] ∧ (fieldOf v.toNat 8 2 = 1 → exec (.registerWrite off v) s = exec (.cswSuspend q) u)
      ∧ (fieldOf v.toNat 8 2 = 2 → exec (.registerWrite off v) s = exec (.cswResume q) u))

/-- Writes of module registers: fields and commands (R8, R16, R17, R20, R28, R31, R53, R54, R58, R64, R106, R148, R231). The model's own
choices in it: log entry 14. -/
def Obligations.RegisterWritesReachWritableFields : Prop :=
  RegisterFieldsAreWritten ∧ RegisterCommandsAct

/-- R264: a word whose code is reserved traps with ILLINS. -/
def Sys2Proof.ReservedCodesTrap : Prop := ∀ s t rep pfx w, s.teams[s.cur]? = some t → Quiet s t → t.priv = false →
  TrapsTo s t (exec (.reservedCodeIssue rep pfx w) s) (plainCause .illins) t.pc

/-- TRAP, BKPT and reserved codes enter the handler (R219, R264, R306). The model's own choices in it: log entries 55,
80, 81. -/
def Obligations.TrapBreakpointAndReservedCodes : Prop :=
  TrapAndBreakpointEnterTheHandler ∧ ReservedCodesTrap

/-! ## Words, steps and the state after power (R14, R249 to R251) -/

/-- R249 to R268: the words of a well-formed instruction, whatever follows them, decode to it, and every row but the events
has words. -/
def Obligations.EncodedInstructionsDecode : Prop := ∀ i, i.wf = true → isEvent i = false →
  encode i ≠ [] ∧ ∀ rest, decodeWords (encode i ++ rest) = .ok (i, rest)

/-- R249 to R268: the decoder drops no bit: what it reads encodes to the words that it read. -/
def Obligations.DecodedWordsEncode : Prop := ∀ ws i rest, decodeWords ws = .ok (i, rest) →
  i.wf = true ∧ isEvent i = false ∧ encode i ++ rest = ws

/-- Words of the manual's encodings decode to the instructions that they stand for. -/
def Obligations.WordsOfTheManualDecode : Prop :=
  (∀ x ∈ sampleWords ++ sampleWords', decodeTableWord x.1 x.2.1 = some x.2.2)
    ∧ ∀ x ∈ longWords, decodeTableWord x.1 x.2.1 = some x.2.2

/-- R138, R217, R249 to R251, R264: when the words at a team's pc are those of an instruction, its turn to issue runs that
instruction, fetched and then executed; then time passes. A fetch that walked parks the team first, where the instruction is not bound
to the one before it by a latch; latch values whose chain has ended are not kept (R10, R162); a fetch that fails is taken as its failure says, and words that are no instruction trap with ILLINS. An event of the agenda runs as it stands. The model's own choices in it: log entries
2, 5, 55, 81. -/
def Obligations.StepsRunTheDecodedInstruction : Prop :=
  (∀ s k t pc i u, i.wf = true → isEvent i = false → WordsAt k t pc (encode i) 0 s u →
    fetchInstr s k t pc = (.instr i (encode i).length, u))
  ∧ (∀ s k t i n v u rest, s.powered = true → s.agenda = .issue k :: rest → s.teams[k]? = some t →
      mayIssue { s with agenda := rest } t = true → t.pending = none → v = { s with agenda := rest, cur := k } →
      fetchInstr v k t t.pc = (.instr i n, u) →
      ((u.die t.die).tlb2 = (s.die t.die).tlb2 ∨ (t.moved = false ∧ namesLatch i = true) → fetchWaits v u t (namesLatch i) = false)
      ∧ (fetchWaits v u t (namesLatch i) = false → step s = thenTime (match exec i (endChains u k t i) with
        | .next w => .next (afterIssue t w)
        | r => r))
      ∧ (fetchWaits v u t (namesLatch i) = true → step s = .next (passTime (parkTeam u k .fill))))
  ∧ (∀ s k t x v u rest, s.powered = true → s.agenda = .issue k :: rest → s.teams[k]? = some t →
      mayIssue { s with agenda := rest } t = true → t.pending = none → v = { s with agenda := rest, cur := k } →
      fetchInstr v k t t.pc = (x, u) →
      (x = .bad → step s = .next (passTime (afterIssue t
        (leaveAfter v u t (fetchFail .illins 0 0 t.pc) true (trapCause u k .illins)))))
      ∧ ∀ f, x = .fail f → step s = .next (passTime (leaveAfter v u t f true (takeFail u k f))))
  ∧ (∀ s k t i, t.latL.vals = [] ∧ t.latX.vals = [] ∧ t.latU.vals = [] ∨ t.moved = false ∧ namesLatch i = true →
      endChains s k t i = s)
  ∧ (∀ s k t i, s.teams[k]? = some t → ∃ u n, endChains s k t i = { s.setTeam k u with tick := n }
      ∧ { u with latL := t.latL, latX := t.latX, latU := t.latU } = t)
  ∧ (∀ s i rest, s.agenda = .ev i :: rest → isEvent i = true → step s = thenTime (exec i { s with agenda := rest }))

/-- R14, R16, R33, R53, R58, R64, R106: after module power is applied no die is up and service is down, no work exists, the
registers whose reset values the manual gives hold them, and the sparse contents are in their canonical form. -/
def Obligations.ResetIsAsTheManualSays : Prop :=
  State.reset.powered = true ∧ State.reset.svc = 0 ∧ (∀ d, d < 4 → (State.reset.die d).up = false)
    ∧ State.reset.teams = [] ∧ State.reset.blocks = [] ∧ State.reset.launches = []
    ∧ (∀ n, n < 8 → State.reset.field (STK n 0) 0 16 = 390 ∧ State.reset.mreg (STK n 0x20) = 0x10018#64)
    ∧ (∀ d i, d < 4 → i < 16 → State.reset.mreg (SHCFG d i) = 0xE#64) ∧ (∀ q, q < 64 → queueEnabled State.reset q = false)
    ∧ Canonical State.reset ∧ Whole State.reset

/-- The stacks' contents and the home L2's stay in their canonical form through every step, from every state in which
they are. The model's own choices in it: log entries 1, 23. -/
def Obligations.EveryStepKeepsTheCanonicalForm : Prop := ∀ s t, Canonical s → step s = .next t → Canonical t
end

