-- ==== Sys2Proof/Laws/State.lean ====
section
/-! SUPPORT. One lemma for each field of State and of Team under each of their plain updates. -/

namespace Sys2Proof.Machine

/-! ### State.setMreg -/

@[simp] theorem State.setMreg_powered (s : State) (off : Nat) (v : DWord) : (s.setMreg off v).powered = s.powered := rfl
@[simp] theorem State.setMreg_agenda (s : State) (off : Nat) (v : DWord) : (s.setMreg off v).agenda = s.agenda := rfl
@[simp] theorem State.setMreg_cur (s : State) (off : Nat) (v : DWord) : (s.setMreg off v).cur = s.cur := rfl
@[simp] theorem State.setMreg_tick (s : State) (off : Nat) (v : DWord) : (s.setMreg off v).tick = s.tick := rfl
@[simp] theorem State.setMreg_turn (s : State) (off : Nat) (v : DWord) : (s.setMreg off v).turn = s.turn := rfl
@[simp] theorem State.setMreg_nextId (s : State) (off : Nat) (v : DWord) : (s.setMreg off v).nextId = s.nextId := rfl
@[simp] theorem State.setMreg_outbox (s : State) (off : Nat) (v : DWord) : (s.setMreg off v).outbox = s.outbox := rfl
@[simp] theorem State.setMreg_mregs (s : State) (off : Nat) (v : DWord) : (s.setMreg off v).mregs = put off v s.mregs := rfl
@[simp] theorem State.setMreg_residues (s : State) (off : Nat) (v : DWord) : (s.setMreg off v).residues = s.residues := rfl
@[simp] theorem State.setMreg_msix (s : State) (off : Nat) (v : DWord) : (s.setMreg off v).msix = s.msix := rfl
@[simp] theorem State.setMreg_hostCfg (s : State) (off : Nat) (v : DWord) : (s.setMreg off v).hostCfg = s.hostCfg := rfl
@[simp] theorem State.setMreg_hostLines (s : State) (off : Nat) (v : DWord) : (s.setMreg off v).hostLines = s.hostLines := rfl
@[simp] theorem State.setMreg_identityKey (s : State) (off : Nat) (v : DWord) : (s.setMreg off v).identityKey = s.identityKey := rfl
@[simp] theorem State.setMreg_ideKeys (s : State) (off : Nat) (v : DWord) : (s.setMreg off v).ideKeys = s.ideKeys := rfl
@[simp] theorem State.setMreg_dumpDue (s : State) (off : Nat) (v : DWord) : (s.setMreg off v).dumpDue = s.dumpDue := rfl
@[simp] theorem State.setMreg_coldBoot (s : State) (off : Nat) (v : DWord) : (s.setMreg off v).coldBoot = s.coldBoot := rfl
@[simp] theorem State.setMreg_dies (s : State) (off : Nat) (v : DWord) : (s.setMreg off v).dies = s.dies := rfl
@[simp] theorem State.setMreg_cores (s : State) (off : Nat) (v : DWord) : (s.setMreg off v).cores = s.cores := rfl
@[simp] theorem State.setMreg_stks (s : State) (off : Nat) (v : DWord) : (s.setMreg off v).stks = s.stks := rfl
@[simp] theorem State.setMreg_ports (s : State) (off : Nat) (v : DWord) : (s.setMreg off v).ports = s.ports := rfl
@[simp] theorem State.setMreg_dram (s : State) (off : Nat) (v : DWord) : (s.setMreg off v).dram = s.dram := rfl
@[simp] theorem State.setMreg_l2 (s : State) (off : Nat) (v : DWord) : (s.setMreg off v).l2 = s.l2 := rfl
@[simp] theorem State.setMreg_l2held (s : State) (off : Nat) (v : DWord) : (s.setMreg off v).l2held = s.l2held := rfl
@[simp] theorem State.setMreg_poison (s : State) (off : Nat) (v : DWord) : (s.setMreg off v).poison = s.poison := rfl
@[simp] theorem State.setMreg_registrants (s : State) (off : Nat) (v : DWord) : (s.setMreg off v).registrants = s.registrants := rfl
@[simp] theorem State.setMreg_tornViews (s : State) (off : Nat) (v : DWord) : (s.setMreg off v).tornViews = s.tornViews := rfl
@[simp] theorem State.setMreg_tornSlots (s : State) (off : Nat) (v : DWord) : (s.setMreg off v).tornSlots = s.tornSlots := rfl
@[simp] theorem State.setMreg_queues (s : State) (off : Nat) (v : DWord) : (s.setMreg off v).queues = s.queues := rfl
@[simp] theorem State.setMreg_launches (s : State) (off : Nat) (v : DWord) : (s.setMreg off v).launches = s.launches := rfl
@[simp] theorem State.setMreg_blocks (s : State) (off : Nat) (v : DWord) : (s.setMreg off v).blocks = s.blocks := rfl
@[simp] theorem State.setMreg_saved (s : State) (off : Nat) (v : DWord) : (s.setMreg off v).saved = s.saved := rfl
@[simp] theorem State.setMreg_teams (s : State) (off : Nat) (v : DWord) : (s.setMreg off v).teams = s.teams := rfl
@[simp] theorem State.setMreg_ops (s : State) (off : Nat) (v : DWord) : (s.setMreg off v).ops = s.ops := rfl
@[simp] theorem State.setMreg_barx (s : State) (off : Nat) (v : DWord) : (s.setMreg off v).barx = s.barx := rfl
@[simp] theorem State.setMreg_pfOpen (s : State) (off : Nat) (v : DWord) : (s.setMreg off v).pfOpen = s.pfOpen := rfl
@[simp] theorem State.setMreg_heard (s : State) (off : Nat) (v : DWord) : (s.setMreg off v).heard = s.heard := rfl
@[simp] theorem State.setMreg_deadAgents (s : State) (off : Nat) (v : DWord) : (s.setMreg off v).deadAgents = s.deadAgents := rfl
@[simp] theorem State.setMreg_peerInc (s : State) (off : Nat) (v : DWord) : (s.setMreg off v).peerInc = s.peerInc := rfl
@[simp] theorem State.setMreg_lastQueue (s : State) (off : Nat) (v : DWord) : (s.setMreg off v).lastQueue = s.lastQueue := rfl
@[simp] theorem State.setMreg_placeCount (s : State) (off : Nat) (v : DWord) : (s.setMreg off v).placeCount = s.placeCount := rfl

/-! ### State.setField -/

@[simp] theorem State.setField_powered (s : State) (off lo w x : Nat) : (s.setField off lo w x).powered = s.powered :=
  State.setMreg_powered s off _
@[simp] theorem State.setField_agenda (s : State) (off lo w x : Nat) : (s.setField off lo w x).agenda = s.agenda :=
  State.setMreg_agenda s off _
@[simp] theorem State.setField_cur (s : State) (off lo w x : Nat) : (s.setField off lo w x).cur = s.cur :=
  State.setMreg_cur s off _
@[simp] theorem State.setField_tick (s : State) (off lo w x : Nat) : (s.setField off lo w x).tick = s.tick :=
  State.setMreg_tick s off _
@[simp] theorem State.setField_turn (s : State) (off lo w x : Nat) : (s.setField off lo w x).turn = s.turn :=
  State.setMreg_turn s off _
@[simp] theorem State.setField_nextId (s : State) (off lo w x : Nat) : (s.setField off lo w x).nextId = s.nextId :=
  State.setMreg_nextId s off _
@[simp] theorem State.setField_outbox (s : State) (off lo w x : Nat) : (s.setField off lo w x).outbox = s.outbox :=
  State.setMreg_outbox s off _
@[simp] theorem State.setField_residues (s : State) (off lo w x : Nat) : (s.setField off lo w x).residues = s.residues :=
  State.setMreg_residues s off _
@[simp] theorem State.setField_msix (s : State) (off lo w x : Nat) : (s.setField off lo w x).msix = s.msix :=
  State.setMreg_msix s off _
@[simp] theorem State.setField_hostCfg (s : State) (off lo w x : Nat) : (s.setField off lo w x).hostCfg = s.hostCfg :=
  State.setMreg_hostCfg s off _
@[simp] theorem State.setField_hostLines (s : State) (off lo w x : Nat) : (s.setField off lo w x).hostLines = s.hostLines :=
  State.setMreg_hostLines s off _
@[simp] theorem State.setField_identityKey (s : State) (off lo w x : Nat) : (s.setField off lo w x).identityKey = s.identityKey :=
  State.setMreg_identityKey s off _
@[simp] theorem State.setField_ideKeys (s : State) (off lo w x : Nat) : (s.setField off lo w x).ideKeys = s.ideKeys :=
  State.setMreg_ideKeys s off _
@[simp] theorem State.setField_dumpDue (s : State) (off lo w x : Nat) : (s.setField off lo w x).dumpDue = s.dumpDue :=
  State.setMreg_dumpDue s off _
@[simp] theorem State.setField_coldBoot (s : State) (off lo w x : Nat) : (s.setField off lo w x).coldBoot = s.coldBoot :=
  State.setMreg_coldBoot s off _
@[simp] theorem State.setField_dies (s : State) (off lo w x : Nat) : (s.setField off lo w x).dies = s.dies :=
  State.setMreg_dies s off _
@[simp] theorem State.setField_cores (s : State) (off lo w x : Nat) : (s.setField off lo w x).cores = s.cores :=
  State.setMreg_cores s off _
@[simp] theorem State.setField_stks (s : State) (off lo w x : Nat) : (s.setField off lo w x).stks = s.stks :=
  State.setMreg_stks s off _
@[simp] theorem State.setField_ports (s : State) (off lo w x : Nat) : (s.setField off lo w x).ports = s.ports :=
  State.setMreg_ports s off _
@[simp] theorem State.setField_dram (s : State) (off lo w x : Nat) : (s.setField off lo w x).dram = s.dram :=
  State.setMreg_dram s off _
@[simp] theorem State.setField_l2 (s : State) (off lo w x : Nat) : (s.setField off lo w x).l2 = s.l2 :=
  State.setMreg_l2 s off _
@[simp] theorem State.setField_l2held (s : State) (off lo w x : Nat) : (s.setField off lo w x).l2held = s.l2held :=
  State.setMreg_l2held s off _
@[simp] theorem State.setField_poison (s : State) (off lo w x : Nat) : (s.setField off lo w x).poison = s.poison :=
  State.setMreg_poison s off _
@[simp] theorem State.setField_registrants (s : State) (off lo w x : Nat) : (s.setField off lo w x).registrants = s.registrants :=
  State.setMreg_registrants s off _
@[simp] theorem State.setField_tornViews (s : State) (off lo w x : Nat) : (s.setField off lo w x).tornViews = s.tornViews :=
  State.setMreg_tornViews s off _
@[simp] theorem State.setField_tornSlots (s : State) (off lo w x : Nat) : (s.setField off lo w x).tornSlots = s.tornSlots :=
  State.setMreg_tornSlots s off _
@[simp] theorem State.setField_queues (s : State) (off lo w x : Nat) : (s.setField off lo w x).queues = s.queues :=
  State.setMreg_queues s off _
@[simp] theorem State.setField_launches (s : State) (off lo w x : Nat) : (s.setField off lo w x).launches = s.launches :=
  State.setMreg_launches s off _
@[simp] theorem State.setField_blocks (s : State) (off lo w x : Nat) : (s.setField off lo w x).blocks = s.blocks :=
  State.setMreg_blocks s off _
@[simp] theorem State.setField_saved (s : State) (off lo w x : Nat) : (s.setField off lo w x).saved = s.saved :=
  State.setMreg_saved s off _
@[simp] theorem State.setField_teams (s : State) (off lo w x : Nat) : (s.setField off lo w x).teams = s.teams :=
  State.setMreg_teams s off _
@[simp] theorem State.setField_ops (s : State) (off lo w x : Nat) : (s.setField off lo w x).ops = s.ops :=
  State.setMreg_ops s off _
@[simp] theorem State.setField_barx (s : State) (off lo w x : Nat) : (s.setField off lo w x).barx = s.barx :=
  State.setMreg_barx s off _
@[simp] theorem State.setField_pfOpen (s : State) (off lo w x : Nat) : (s.setField off lo w x).pfOpen = s.pfOpen :=
  State.setMreg_pfOpen s off _
@[simp] theorem State.setField_heard (s : State) (off lo w x : Nat) : (s.setField off lo w x).heard = s.heard :=
  State.setMreg_heard s off _
@[simp] theorem State.setField_deadAgents (s : State) (off lo w x : Nat) : (s.setField off lo w x).deadAgents = s.deadAgents :=
  State.setMreg_deadAgents s off _
@[simp] theorem State.setField_peerInc (s : State) (off lo w x : Nat) : (s.setField off lo w x).peerInc = s.peerInc :=
  State.setMreg_peerInc s off _
@[simp] theorem State.setField_lastQueue (s : State) (off lo w x : Nat) : (s.setField off lo w x).lastQueue = s.lastQueue :=
  State.setMreg_lastQueue s off _
@[simp] theorem State.setField_placeCount (s : State) (off lo w x : Nat) : (s.setField off lo w x).placeCount = s.placeCount :=
  State.setMreg_placeCount s off _

/-! ### State.count -/

@[simp] theorem State.count_powered (s : State) (off lo w n : Nat) : (s.count off lo w n).powered = s.powered :=
  State.setField_powered s off lo w _
@[simp] theorem State.count_agenda (s : State) (off lo w n : Nat) : (s.count off lo w n).agenda = s.agenda :=
  State.setField_agenda s off lo w _
@[simp] theorem State.count_cur (s : State) (off lo w n : Nat) : (s.count off lo w n).cur = s.cur :=
  State.setField_cur s off lo w _
@[simp] theorem State.count_tick (s : State) (off lo w n : Nat) : (s.count off lo w n).tick = s.tick :=
  State.setField_tick s off lo w _
@[simp] theorem State.count_turn (s : State) (off lo w n : Nat) : (s.count off lo w n).turn = s.turn :=
  State.setField_turn s off lo w _
@[simp] theorem State.count_nextId (s : State) (off lo w n : Nat) : (s.count off lo w n).nextId = s.nextId :=
  State.setField_nextId s off lo w _
@[simp] theorem State.count_outbox (s : State) (off lo w n : Nat) : (s.count off lo w n).outbox = s.outbox :=
  State.setField_outbox s off lo w _
@[simp] theorem State.count_residues (s : State) (off lo w n : Nat) : (s.count off lo w n).residues = s.residues :=
  State.setField_residues s off lo w _
@[simp] theorem State.count_msix (s : State) (off lo w n : Nat) : (s.count off lo w n).msix = s.msix :=
  State.setField_msix s off lo w _
@[simp] theorem State.count_hostCfg (s : State) (off lo w n : Nat) : (s.count off lo w n).hostCfg = s.hostCfg :=
  State.setField_hostCfg s off lo w _
@[simp] theorem State.count_hostLines (s : State) (off lo w n : Nat) : (s.count off lo w n).hostLines = s.hostLines :=
  State.setField_hostLines s off lo w _
@[simp] theorem State.count_identityKey (s : State) (off lo w n : Nat) : (s.count off lo w n).identityKey = s.identityKey :=
  State.setField_identityKey s off lo w _
@[simp] theorem State.count_ideKeys (s : State) (off lo w n : Nat) : (s.count off lo w n).ideKeys = s.ideKeys :=
  State.setField_ideKeys s off lo w _
@[simp] theorem State.count_dumpDue (s : State) (off lo w n : Nat) : (s.count off lo w n).dumpDue = s.dumpDue :=
  State.setField_dumpDue s off lo w _
@[simp] theorem State.count_coldBoot (s : State) (off lo w n : Nat) : (s.count off lo w n).coldBoot = s.coldBoot :=
  State.setField_coldBoot s off lo w _
@[simp] theorem State.count_dies (s : State) (off lo w n : Nat) : (s.count off lo w n).dies = s.dies :=
  State.setField_dies s off lo w _
@[simp] theorem State.count_cores (s : State) (off lo w n : Nat) : (s.count off lo w n).cores = s.cores :=
  State.setField_cores s off lo w _
@[simp] theorem State.count_stks (s : State) (off lo w n : Nat) : (s.count off lo w n).stks = s.stks :=
  State.setField_stks s off lo w _
@[simp] theorem State.count_ports (s : State) (off lo w n : Nat) : (s.count off lo w n).ports = s.ports :=
  State.setField_ports s off lo w _
@[simp] theorem State.count_dram (s : State) (off lo w n : Nat) : (s.count off lo w n).dram = s.dram :=
  State.setField_dram s off lo w _
@[simp] theorem State.count_l2 (s : State) (off lo w n : Nat) : (s.count off lo w n).l2 = s.l2 :=
  State.setField_l2 s off lo w _
@[simp] theorem State.count_l2held (s : State) (off lo w n : Nat) : (s.count off lo w n).l2held = s.l2held :=
  State.setField_l2held s off lo w _
@[simp] theorem State.count_poison (s : State) (off lo w n : Nat) : (s.count off lo w n).poison = s.poison :=
  State.setField_poison s off lo w _
@[simp] theorem State.count_registrants (s : State) (off lo w n : Nat) : (s.count off lo w n).registrants = s.registrants :=
  State.setField_registrants s off lo w _
@[simp] theorem State.count_tornViews (s : State) (off lo w n : Nat) : (s.count off lo w n).tornViews = s.tornViews :=
  State.setField_tornViews s off lo w _
@[simp] theorem State.count_tornSlots (s : State) (off lo w n : Nat) : (s.count off lo w n).tornSlots = s.tornSlots :=
  State.setField_tornSlots s off lo w _
@[simp] theorem State.count_queues (s : State) (off lo w n : Nat) : (s.count off lo w n).queues = s.queues :=
  State.setField_queues s off lo w _
@[simp] theorem State.count_launches (s : State) (off lo w n : Nat) : (s.count off lo w n).launches = s.launches :=
  State.setField_launches s off lo w _
@[simp] theorem State.count_blocks (s : State) (off lo w n : Nat) : (s.count off lo w n).blocks = s.blocks :=
  State.setField_blocks s off lo w _
@[simp] theorem State.count_saved (s : State) (off lo w n : Nat) : (s.count off lo w n).saved = s.saved :=
  State.setField_saved s off lo w _
@[simp] theorem State.count_teams (s : State) (off lo w n : Nat) : (s.count off lo w n).teams = s.teams :=
  State.setField_teams s off lo w _
@[simp] theorem State.count_ops (s : State) (off lo w n : Nat) : (s.count off lo w n).ops = s.ops :=
  State.setField_ops s off lo w _
@[simp] theorem State.count_barx (s : State) (off lo w n : Nat) : (s.count off lo w n).barx = s.barx :=
  State.setField_barx s off lo w _
@[simp] theorem State.count_pfOpen (s : State) (off lo w n : Nat) : (s.count off lo w n).pfOpen = s.pfOpen :=
  State.setField_pfOpen s off lo w _
@[simp] theorem State.count_heard (s : State) (off lo w n : Nat) : (s.count off lo w n).heard = s.heard :=
  State.setField_heard s off lo w _
@[simp] theorem State.count_deadAgents (s : State) (off lo w n : Nat) : (s.count off lo w n).deadAgents = s.deadAgents :=
  State.setField_deadAgents s off lo w _
@[simp] theorem State.count_peerInc (s : State) (off lo w n : Nat) : (s.count off lo w n).peerInc = s.peerInc :=
  State.setField_peerInc s off lo w _
@[simp] theorem State.count_lastQueue (s : State) (off lo w n : Nat) : (s.count off lo w n).lastQueue = s.lastQueue :=
  State.setField_lastQueue s off lo w _
@[simp] theorem State.count_placeCount (s : State) (off lo w n : Nat) : (s.count off lo w n).placeCount = s.placeCount :=
  State.setField_placeCount s off lo w _

/-! ### State.countDie -/

@[simp] theorem State.countDie_powered (s : State) (d : Nat) (c : DieCnt) (n : Nat) : (s.countDie d c n).powered = s.powered :=
  State.count_powered s (CNT d c.index) 0 64 n
@[simp] theorem State.countDie_agenda (s : State) (d : Nat) (c : DieCnt) (n : Nat) : (s.countDie d c n).agenda = s.agenda :=
  State.count_agenda s (CNT d c.index) 0 64 n
@[simp] theorem State.countDie_cur (s : State) (d : Nat) (c : DieCnt) (n : Nat) : (s.countDie d c n).cur = s.cur :=
  State.count_cur s (CNT d c.index) 0 64 n
@[simp] theorem State.countDie_tick (s : State) (d : Nat) (c : DieCnt) (n : Nat) : (s.countDie d c n).tick = s.tick :=
  State.count_tick s (CNT d c.index) 0 64 n
@[simp] theorem State.countDie_turn (s : State) (d : Nat) (c : DieCnt) (n : Nat) : (s.countDie d c n).turn = s.turn :=
  State.count_turn s (CNT d c.index) 0 64 n
@[simp] theorem State.countDie_nextId (s : State) (d : Nat) (c : DieCnt) (n : Nat) : (s.countDie d c n).nextId = s.nextId :=
  State.count_nextId s (CNT d c.index) 0 64 n
@[simp] theorem State.countDie_outbox (s : State) (d : Nat) (c : DieCnt) (n : Nat) : (s.countDie d c n).outbox = s.outbox :=
  State.count_outbox s (CNT d c.index) 0 64 n
@[simp] theorem State.countDie_residues (s : State) (d : Nat) (c : DieCnt) (n : Nat) : (s.countDie d c n).residues = s.residues :=
  State.count_residues s (CNT d c.index) 0 64 n
@[simp] theorem State.countDie_msix (s : State) (d : Nat) (c : DieCnt) (n : Nat) : (s.countDie d c n).msix = s.msix :=
  State.count_msix s (CNT d c.index) 0 64 n
@[simp] theorem State.countDie_hostCfg (s : State) (d : Nat) (c : DieCnt) (n : Nat) : (s.countDie d c n).hostCfg = s.hostCfg :=
  State.count_hostCfg s (CNT d c.index) 0 64 n
@[simp] theorem State.countDie_hostLines (s : State) (d : Nat) (c : DieCnt) (n : Nat) : (s.countDie d c n).hostLines = s.hostLines :=
  State.count_hostLines s (CNT d c.index) 0 64 n
@[simp] theorem State.countDie_identityKey (s : State) (d : Nat) (c : DieCnt) (n : Nat) : (s.countDie d c n).identityKey = s.identityKey :=
  State.count_identityKey s (CNT d c.index) 0 64 n
@[simp] theorem State.countDie_ideKeys (s : State) (d : Nat) (c : DieCnt) (n : Nat) : (s.countDie d c n).ideKeys = s.ideKeys :=
  State.count_ideKeys s (CNT d c.index) 0 64 n
@[simp] theorem State.countDie_dumpDue (s : State) (d : Nat) (c : DieCnt) (n : Nat) : (s.countDie d c n).dumpDue = s.dumpDue :=
  State.count_dumpDue s (CNT d c.index) 0 64 n
@[simp] theorem State.countDie_coldBoot (s : State) (d : Nat) (c : DieCnt) (n : Nat) : (s.countDie d c n).coldBoot = s.coldBoot :=
  State.count_coldBoot s (CNT d c.index) 0 64 n
@[simp] theorem State.countDie_dies (s : State) (d : Nat) (c : DieCnt) (n : Nat) : (s.countDie d c n).dies = s.dies :=
  State.count_dies s (CNT d c.index) 0 64 n
@[simp] theorem State.countDie_cores (s : State) (d : Nat) (c : DieCnt) (n : Nat) : (s.countDie d c n).cores = s.cores :=
  State.count_cores s (CNT d c.index) 0 64 n
@[simp] theorem State.countDie_stks (s : State) (d : Nat) (c : DieCnt) (n : Nat) : (s.countDie d c n).stks = s.stks :=
  State.count_stks s (CNT d c.index) 0 64 n
@[simp] theorem State.countDie_ports (s : State) (d : Nat) (c : DieCnt) (n : Nat) : (s.countDie d c n).ports = s.ports :=
  State.count_ports s (CNT d c.index) 0 64 n
@[simp] theorem State.countDie_dram (s : State) (d : Nat) (c : DieCnt) (n : Nat) : (s.countDie d c n).dram = s.dram :=
  State.count_dram s (CNT d c.index) 0 64 n
@[simp] theorem State.countDie_l2 (s : State) (d : Nat) (c : DieCnt) (n : Nat) : (s.countDie d c n).l2 = s.l2 :=
  State.count_l2 s (CNT d c.index) 0 64 n
@[simp] theorem State.countDie_l2held (s : State) (d : Nat) (c : DieCnt) (n : Nat) : (s.countDie d c n).l2held = s.l2held :=
  State.count_l2held s (CNT d c.index) 0 64 n
@[simp] theorem State.countDie_poison (s : State) (d : Nat) (c : DieCnt) (n : Nat) : (s.countDie d c n).poison = s.poison :=
  State.count_poison s (CNT d c.index) 0 64 n
@[simp] theorem State.countDie_registrants (s : State) (d : Nat) (c : DieCnt) (n : Nat) : (s.countDie d c n).registrants = s.registrants :=
  State.count_registrants s (CNT d c.index) 0 64 n
@[simp] theorem State.countDie_tornViews (s : State) (d : Nat) (c : DieCnt) (n : Nat) : (s.countDie d c n).tornViews = s.tornViews :=
  State.count_tornViews s (CNT d c.index) 0 64 n
@[simp] theorem State.countDie_tornSlots (s : State) (d : Nat) (c : DieCnt) (n : Nat) : (s.countDie d c n).tornSlots = s.tornSlots :=
  State.count_tornSlots s (CNT d c.index) 0 64 n
@[simp] theorem State.countDie_queues (s : State) (d : Nat) (c : DieCnt) (n : Nat) : (s.countDie d c n).queues = s.queues :=
  State.count_queues s (CNT d c.index) 0 64 n
@[simp] theorem State.countDie_launches (s : State) (d : Nat) (c : DieCnt) (n : Nat) : (s.countDie d c n).launches = s.launches :=
  State.count_launches s (CNT d c.index) 0 64 n
@[simp] theorem State.countDie_blocks (s : State) (d : Nat) (c : DieCnt) (n : Nat) : (s.countDie d c n).blocks = s.blocks :=
  State.count_blocks s (CNT d c.index) 0 64 n
@[simp] theorem State.countDie_saved (s : State) (d : Nat) (c : DieCnt) (n : Nat) : (s.countDie d c n).saved = s.saved :=
  State.count_saved s (CNT d c.index) 0 64 n
@[simp] theorem State.countDie_teams (s : State) (d : Nat) (c : DieCnt) (n : Nat) : (s.countDie d c n).teams = s.teams :=
  State.count_teams s (CNT d c.index) 0 64 n
@[simp] theorem State.countDie_ops (s : State) (d : Nat) (c : DieCnt) (n : Nat) : (s.countDie d c n).ops = s.ops :=
  State.count_ops s (CNT d c.index) 0 64 n
@[simp] theorem State.countDie_barx (s : State) (d : Nat) (c : DieCnt) (n : Nat) : (s.countDie d c n).barx = s.barx :=
  State.count_barx s (CNT d c.index) 0 64 n
@[simp] theorem State.countDie_pfOpen (s : State) (d : Nat) (c : DieCnt) (n : Nat) : (s.countDie d c n).pfOpen = s.pfOpen :=
  State.count_pfOpen s (CNT d c.index) 0 64 n
@[simp] theorem State.countDie_heard (s : State) (d : Nat) (c : DieCnt) (n : Nat) : (s.countDie d c n).heard = s.heard :=
  State.count_heard s (CNT d c.index) 0 64 n
@[simp] theorem State.countDie_deadAgents (s : State) (d : Nat) (c : DieCnt) (n : Nat) : (s.countDie d c n).deadAgents = s.deadAgents :=
  State.count_deadAgents s (CNT d c.index) 0 64 n
@[simp] theorem State.countDie_peerInc (s : State) (d : Nat) (c : DieCnt) (n : Nat) : (s.countDie d c n).peerInc = s.peerInc :=
  State.count_peerInc s (CNT d c.index) 0 64 n
@[simp] theorem State.countDie_lastQueue (s : State) (d : Nat) (c : DieCnt) (n : Nat) : (s.countDie d c n).lastQueue = s.lastQueue :=
  State.count_lastQueue s (CNT d c.index) 0 64 n
@[simp] theorem State.countDie_placeCount (s : State) (d : Nat) (c : DieCnt) (n : Nat) : (s.countDie d c n).placeCount = s.placeCount :=
  State.count_placeCount s (CNT d c.index) 0 64 n

/-! ### State.setDie -/

@[simp] theorem State.setDie_powered (s : State) (d : Nat) (x : Die) : (s.setDie d x).powered = s.powered := rfl
@[simp] theorem State.setDie_agenda (s : State) (d : Nat) (x : Die) : (s.setDie d x).agenda = s.agenda := rfl
@[simp] theorem State.setDie_cur (s : State) (d : Nat) (x : Die) : (s.setDie d x).cur = s.cur := rfl
@[simp] theorem State.setDie_tick (s : State) (d : Nat) (x : Die) : (s.setDie d x).tick = s.tick := rfl
@[simp] theorem State.setDie_turn (s : State) (d : Nat) (x : Die) : (s.setDie d x).turn = s.turn := rfl
@[simp] theorem State.setDie_nextId (s : State) (d : Nat) (x : Die) : (s.setDie d x).nextId = s.nextId := rfl
@[simp] theorem State.setDie_outbox (s : State) (d : Nat) (x : Die) : (s.setDie d x).outbox = s.outbox := rfl
@[simp] theorem State.setDie_mregs (s : State) (d : Nat) (x : Die) : (s.setDie d x).mregs = s.mregs := rfl
@[simp] theorem State.setDie_residues (s : State) (d : Nat) (x : Die) : (s.setDie d x).residues = s.residues := rfl
@[simp] theorem State.setDie_msix (s : State) (d : Nat) (x : Die) : (s.setDie d x).msix = s.msix := rfl
@[simp] theorem State.setDie_hostCfg (s : State) (d : Nat) (x : Die) : (s.setDie d x).hostCfg = s.hostCfg := rfl
@[simp] theorem State.setDie_hostLines (s : State) (d : Nat) (x : Die) : (s.setDie d x).hostLines = s.hostLines := rfl
@[simp] theorem State.setDie_identityKey (s : State) (d : Nat) (x : Die) : (s.setDie d x).identityKey = s.identityKey := rfl
@[simp] theorem State.setDie_ideKeys (s : State) (d : Nat) (x : Die) : (s.setDie d x).ideKeys = s.ideKeys := rfl
@[simp] theorem State.setDie_dumpDue (s : State) (d : Nat) (x : Die) : (s.setDie d x).dumpDue = s.dumpDue := rfl
@[simp] theorem State.setDie_coldBoot (s : State) (d : Nat) (x : Die) : (s.setDie d x).coldBoot = s.coldBoot := rfl
@[simp] theorem State.setDie_dies (s : State) (d : Nat) (x : Die) : (s.setDie d x).dies = s.dies.set d x := rfl
@[simp] theorem State.setDie_cores (s : State) (d : Nat) (x : Die) : (s.setDie d x).cores = s.cores := rfl
@[simp] theorem State.setDie_stks (s : State) (d : Nat) (x : Die) : (s.setDie d x).stks = s.stks := rfl
@[simp] theorem State.setDie_ports (s : State) (d : Nat) (x : Die) : (s.setDie d x).ports = s.ports := rfl
@[simp] theorem State.setDie_dram (s : State) (d : Nat) (x : Die) : (s.setDie d x).dram = s.dram := rfl
@[simp] theorem State.setDie_l2 (s : State) (d : Nat) (x : Die) : (s.setDie d x).l2 = s.l2 := rfl
@[simp] theorem State.setDie_l2held (s : State) (d : Nat) (x : Die) : (s.setDie d x).l2held = s.l2held := rfl
@[simp] theorem State.setDie_poison (s : State) (d : Nat) (x : Die) : (s.setDie d x).poison = s.poison := rfl
@[simp] theorem State.setDie_registrants (s : State) (d : Nat) (x : Die) : (s.setDie d x).registrants = s.registrants := rfl
@[simp] theorem State.setDie_tornViews (s : State) (d : Nat) (x : Die) : (s.setDie d x).tornViews = s.tornViews := rfl
@[simp] theorem State.setDie_tornSlots (s : State) (d : Nat) (x : Die) : (s.setDie d x).tornSlots = s.tornSlots := rfl
@[simp] theorem State.setDie_queues (s : State) (d : Nat) (x : Die) : (s.setDie d x).queues = s.queues := rfl
@[simp] theorem State.setDie_launches (s : State) (d : Nat) (x : Die) : (s.setDie d x).launches = s.launches := rfl
@[simp] theorem State.setDie_blocks (s : State) (d : Nat) (x : Die) : (s.setDie d x).blocks = s.blocks := rfl
@[simp] theorem State.setDie_saved (s : State) (d : Nat) (x : Die) : (s.setDie d x).saved = s.saved := rfl
@[simp] theorem State.setDie_teams (s : State) (d : Nat) (x : Die) : (s.setDie d x).teams = s.teams := rfl
@[simp] theorem State.setDie_ops (s : State) (d : Nat) (x : Die) : (s.setDie d x).ops = s.ops := rfl
@[simp] theorem State.setDie_barx (s : State) (d : Nat) (x : Die) : (s.setDie d x).barx = s.barx := rfl
@[simp] theorem State.setDie_pfOpen (s : State) (d : Nat) (x : Die) : (s.setDie d x).pfOpen = s.pfOpen := rfl
@[simp] theorem State.setDie_heard (s : State) (d : Nat) (x : Die) : (s.setDie d x).heard = s.heard := rfl
@[simp] theorem State.setDie_deadAgents (s : State) (d : Nat) (x : Die) : (s.setDie d x).deadAgents = s.deadAgents := rfl
@[simp] theorem State.setDie_peerInc (s : State) (d : Nat) (x : Die) : (s.setDie d x).peerInc = s.peerInc := rfl
@[simp] theorem State.setDie_lastQueue (s : State) (d : Nat) (x : Die) : (s.setDie d x).lastQueue = s.lastQueue := rfl
@[simp] theorem State.setDie_placeCount (s : State) (d : Nat) (x : Die) : (s.setDie d x).placeCount = s.placeCount := rfl

/-! ### State.modDie -/

@[simp] theorem State.modDie_powered (s : State) (d : Nat) (f : Die → Die) : (s.modDie d f).powered = s.powered :=
  State.setDie_powered s d _
@[simp] theorem State.modDie_agenda (s : State) (d : Nat) (f : Die → Die) : (s.modDie d f).agenda = s.agenda :=
  State.setDie_agenda s d _
@[simp] theorem State.modDie_cur (s : State) (d : Nat) (f : Die → Die) : (s.modDie d f).cur = s.cur :=
  State.setDie_cur s d _
@[simp] theorem State.modDie_tick (s : State) (d : Nat) (f : Die → Die) : (s.modDie d f).tick = s.tick :=
  State.setDie_tick s d _
@[simp] theorem State.modDie_turn (s : State) (d : Nat) (f : Die → Die) : (s.modDie d f).turn = s.turn :=
  State.setDie_turn s d _
@[simp] theorem State.modDie_nextId (s : State) (d : Nat) (f : Die → Die) : (s.modDie d f).nextId = s.nextId :=
  State.setDie_nextId s d _
@[simp] theorem State.modDie_outbox (s : State) (d : Nat) (f : Die → Die) : (s.modDie d f).outbox = s.outbox :=
  State.setDie_outbox s d _
@[simp] theorem State.modDie_mregs (s : State) (d : Nat) (f : Die → Die) : (s.modDie d f).mregs = s.mregs :=
  State.setDie_mregs s d _
@[simp] theorem State.modDie_residues (s : State) (d : Nat) (f : Die → Die) : (s.modDie d f).residues = s.residues :=
  State.setDie_residues s d _
@[simp] theorem State.modDie_msix (s : State) (d : Nat) (f : Die → Die) : (s.modDie d f).msix = s.msix :=
  State.setDie_msix s d _
@[simp] theorem State.modDie_hostCfg (s : State) (d : Nat) (f : Die → Die) : (s.modDie d f).hostCfg = s.hostCfg :=
  State.setDie_hostCfg s d _
@[simp] theorem State.modDie_hostLines (s : State) (d : Nat) (f : Die → Die) : (s.modDie d f).hostLines = s.hostLines :=
  State.setDie_hostLines s d _
@[simp] theorem State.modDie_identityKey (s : State) (d : Nat) (f : Die → Die) : (s.modDie d f).identityKey = s.identityKey :=
  State.setDie_identityKey s d _
@[simp] theorem State.modDie_ideKeys (s : State) (d : Nat) (f : Die → Die) : (s.modDie d f).ideKeys = s.ideKeys :=
  State.setDie_ideKeys s d _
@[simp] theorem State.modDie_dumpDue (s : State) (d : Nat) (f : Die → Die) : (s.modDie d f).dumpDue = s.dumpDue :=
  State.setDie_dumpDue s d _
@[simp] theorem State.modDie_coldBoot (s : State) (d : Nat) (f : Die → Die) : (s.modDie d f).coldBoot = s.coldBoot :=
  State.setDie_coldBoot s d _
@[simp] theorem State.modDie_dies (s : State) (d : Nat) (f : Die → Die) : (s.modDie d f).dies = s.dies.set d (f (s.die d)) :=
  State.setDie_dies s d _
@[simp] theorem State.modDie_cores (s : State) (d : Nat) (f : Die → Die) : (s.modDie d f).cores = s.cores :=
  State.setDie_cores s d _
@[simp] theorem State.modDie_stks (s : State) (d : Nat) (f : Die → Die) : (s.modDie d f).stks = s.stks :=
  State.setDie_stks s d _
@[simp] theorem State.modDie_ports (s : State) (d : Nat) (f : Die → Die) : (s.modDie d f).ports = s.ports :=
  State.setDie_ports s d _
@[simp] theorem State.modDie_dram (s : State) (d : Nat) (f : Die → Die) : (s.modDie d f).dram = s.dram :=
  State.setDie_dram s d _
@[simp] theorem State.modDie_l2 (s : State) (d : Nat) (f : Die → Die) : (s.modDie d f).l2 = s.l2 :=
  State.setDie_l2 s d _
@[simp] theorem State.modDie_l2held (s : State) (d : Nat) (f : Die → Die) : (s.modDie d f).l2held = s.l2held :=
  State.setDie_l2held s d _
@[simp] theorem State.modDie_poison (s : State) (d : Nat) (f : Die → Die) : (s.modDie d f).poison = s.poison :=
  State.setDie_poison s d _
@[simp] theorem State.modDie_registrants (s : State) (d : Nat) (f : Die → Die) : (s.modDie d f).registrants = s.registrants :=
  State.setDie_registrants s d _
@[simp] theorem State.modDie_tornViews (s : State) (d : Nat) (f : Die → Die) : (s.modDie d f).tornViews = s.tornViews :=
  State.setDie_tornViews s d _
@[simp] theorem State.modDie_tornSlots (s : State) (d : Nat) (f : Die → Die) : (s.modDie d f).tornSlots = s.tornSlots :=
  State.setDie_tornSlots s d _
@[simp] theorem State.modDie_queues (s : State) (d : Nat) (f : Die → Die) : (s.modDie d f).queues = s.queues :=
  State.setDie_queues s d _
@[simp] theorem State.modDie_launches (s : State) (d : Nat) (f : Die → Die) : (s.modDie d f).launches = s.launches :=
  State.setDie_launches s d _
@[simp] theorem State.modDie_blocks (s : State) (d : Nat) (f : Die → Die) : (s.modDie d f).blocks = s.blocks :=
  State.setDie_blocks s d _
@[simp] theorem State.modDie_saved (s : State) (d : Nat) (f : Die → Die) : (s.modDie d f).saved = s.saved :=
  State.setDie_saved s d _
@[simp] theorem State.modDie_teams (s : State) (d : Nat) (f : Die → Die) : (s.modDie d f).teams = s.teams :=
  State.setDie_teams s d _
@[simp] theorem State.modDie_ops (s : State) (d : Nat) (f : Die → Die) : (s.modDie d f).ops = s.ops :=
  State.setDie_ops s d _
@[simp] theorem State.modDie_barx (s : State) (d : Nat) (f : Die → Die) : (s.modDie d f).barx = s.barx :=
  State.setDie_barx s d _
@[simp] theorem State.modDie_pfOpen (s : State) (d : Nat) (f : Die → Die) : (s.modDie d f).pfOpen = s.pfOpen :=
  State.setDie_pfOpen s d _
@[simp] theorem State.modDie_heard (s : State) (d : Nat) (f : Die → Die) : (s.modDie d f).heard = s.heard :=
  State.setDie_heard s d _
@[simp] theorem State.modDie_deadAgents (s : State) (d : Nat) (f : Die → Die) : (s.modDie d f).deadAgents = s.deadAgents :=
  State.setDie_deadAgents s d _
@[simp] theorem State.modDie_peerInc (s : State) (d : Nat) (f : Die → Die) : (s.modDie d f).peerInc = s.peerInc :=
  State.setDie_peerInc s d _
@[simp] theorem State.modDie_lastQueue (s : State) (d : Nat) (f : Die → Die) : (s.modDie d f).lastQueue = s.lastQueue :=
  State.setDie_lastQueue s d _
@[simp] theorem State.modDie_placeCount (s : State) (d : Nat) (f : Die → Die) : (s.modDie d f).placeCount = s.placeCount :=
  State.setDie_placeCount s d _

/-! ### State.setCore -/

@[simp] theorem State.setCore_powered (s : State) (c : Nat) (x : Core) : (s.setCore c x).powered = s.powered := rfl
@[simp] theorem State.setCore_agenda (s : State) (c : Nat) (x : Core) : (s.setCore c x).agenda = s.agenda := rfl
@[simp] theorem State.setCore_cur (s : State) (c : Nat) (x : Core) : (s.setCore c x).cur = s.cur := rfl
@[simp] theorem State.setCore_tick (s : State) (c : Nat) (x : Core) : (s.setCore c x).tick = s.tick := rfl
@[simp] theorem State.setCore_turn (s : State) (c : Nat) (x : Core) : (s.setCore c x).turn = s.turn := rfl
@[simp] theorem State.setCore_nextId (s : State) (c : Nat) (x : Core) : (s.setCore c x).nextId = s.nextId := rfl
@[simp] theorem State.setCore_outbox (s : State) (c : Nat) (x : Core) : (s.setCore c x).outbox = s.outbox := rfl
@[simp] theorem State.setCore_mregs (s : State) (c : Nat) (x : Core) : (s.setCore c x).mregs = s.mregs := rfl
@[simp] theorem State.setCore_residues (s : State) (c : Nat) (x : Core) : (s.setCore c x).residues = s.residues := rfl
@[simp] theorem State.setCore_msix (s : State) (c : Nat) (x : Core) : (s.setCore c x).msix = s.msix := rfl
@[simp] theorem State.setCore_hostCfg (s : State) (c : Nat) (x : Core) : (s.setCore c x).hostCfg = s.hostCfg := rfl
@[simp] theorem State.setCore_hostLines (s : State) (c : Nat) (x : Core) : (s.setCore c x).hostLines = s.hostLines := rfl
@[simp] theorem State.setCore_identityKey (s : State) (c : Nat) (x : Core) : (s.setCore c x).identityKey = s.identityKey := rfl
@[simp] theorem State.setCore_ideKeys (s : State) (c : Nat) (x : Core) : (s.setCore c x).ideKeys = s.ideKeys := rfl
@[simp] theorem State.setCore_dumpDue (s : State) (c : Nat) (x : Core) : (s.setCore c x).dumpDue = s.dumpDue := rfl
@[simp] theorem State.setCore_coldBoot (s : State) (c : Nat) (x : Core) : (s.setCore c x).coldBoot = s.coldBoot := rfl
@[simp] theorem State.setCore_dies (s : State) (c : Nat) (x : Core) : (s.setCore c x).dies = s.dies := rfl
@[simp] theorem State.setCore_cores (s : State) (c : Nat) (x : Core) : (s.setCore c x).cores = s.cores.set c x := rfl
@[simp] theorem State.setCore_stks (s : State) (c : Nat) (x : Core) : (s.setCore c x).stks = s.stks := rfl
@[simp] theorem State.setCore_ports (s : State) (c : Nat) (x : Core) : (s.setCore c x).ports = s.ports := rfl
@[simp] theorem State.setCore_dram (s : State) (c : Nat) (x : Core) : (s.setCore c x).dram = s.dram := rfl
@[simp] theorem State.setCore_l2 (s : State) (c : Nat) (x : Core) : (s.setCore c x).l2 = s.l2 := rfl
@[simp] theorem State.setCore_l2held (s : State) (c : Nat) (x : Core) : (s.setCore c x).l2held = s.l2held := rfl
@[simp] theorem State.setCore_poison (s : State) (c : Nat) (x : Core) : (s.setCore c x).poison = s.poison := rfl
@[simp] theorem State.setCore_registrants (s : State) (c : Nat) (x : Core) : (s.setCore c x).registrants = s.registrants := rfl
@[simp] theorem State.setCore_tornViews (s : State) (c : Nat) (x : Core) : (s.setCore c x).tornViews = s.tornViews := rfl
@[simp] theorem State.setCore_tornSlots (s : State) (c : Nat) (x : Core) : (s.setCore c x).tornSlots = s.tornSlots := rfl
@[simp] theorem State.setCore_queues (s : State) (c : Nat) (x : Core) : (s.setCore c x).queues = s.queues := rfl
@[simp] theorem State.setCore_launches (s : State) (c : Nat) (x : Core) : (s.setCore c x).launches = s.launches := rfl
@[simp] theorem State.setCore_blocks (s : State) (c : Nat) (x : Core) : (s.setCore c x).blocks = s.blocks := rfl
@[simp] theorem State.setCore_saved (s : State) (c : Nat) (x : Core) : (s.setCore c x).saved = s.saved := rfl
@[simp] theorem State.setCore_teams (s : State) (c : Nat) (x : Core) : (s.setCore c x).teams = s.teams := rfl
@[simp] theorem State.setCore_ops (s : State) (c : Nat) (x : Core) : (s.setCore c x).ops = s.ops := rfl
@[simp] theorem State.setCore_barx (s : State) (c : Nat) (x : Core) : (s.setCore c x).barx = s.barx := rfl
@[simp] theorem State.setCore_pfOpen (s : State) (c : Nat) (x : Core) : (s.setCore c x).pfOpen = s.pfOpen := rfl
@[simp] theorem State.setCore_heard (s : State) (c : Nat) (x : Core) : (s.setCore c x).heard = s.heard := rfl
@[simp] theorem State.setCore_deadAgents (s : State) (c : Nat) (x : Core) : (s.setCore c x).deadAgents = s.deadAgents := rfl
@[simp] theorem State.setCore_peerInc (s : State) (c : Nat) (x : Core) : (s.setCore c x).peerInc = s.peerInc := rfl
@[simp] theorem State.setCore_lastQueue (s : State) (c : Nat) (x : Core) : (s.setCore c x).lastQueue = s.lastQueue := rfl
@[simp] theorem State.setCore_placeCount (s : State) (c : Nat) (x : Core) : (s.setCore c x).placeCount = s.placeCount := rfl

/-! ### State.modCore -/

@[simp] theorem State.modCore_powered (s : State) (c : Nat) (f : Core → Core) : (s.modCore c f).powered = s.powered :=
  State.setCore_powered s c _
@[simp] theorem State.modCore_agenda (s : State) (c : Nat) (f : Core → Core) : (s.modCore c f).agenda = s.agenda :=
  State.setCore_agenda s c _
@[simp] theorem State.modCore_cur (s : State) (c : Nat) (f : Core → Core) : (s.modCore c f).cur = s.cur :=
  State.setCore_cur s c _
@[simp] theorem State.modCore_tick (s : State) (c : Nat) (f : Core → Core) : (s.modCore c f).tick = s.tick :=
  State.setCore_tick s c _
@[simp] theorem State.modCore_turn (s : State) (c : Nat) (f : Core → Core) : (s.modCore c f).turn = s.turn :=
  State.setCore_turn s c _
@[simp] theorem State.modCore_nextId (s : State) (c : Nat) (f : Core → Core) : (s.modCore c f).nextId = s.nextId :=
  State.setCore_nextId s c _
@[simp] theorem State.modCore_outbox (s : State) (c : Nat) (f : Core → Core) : (s.modCore c f).outbox = s.outbox :=
  State.setCore_outbox s c _
@[simp] theorem State.modCore_mregs (s : State) (c : Nat) (f : Core → Core) : (s.modCore c f).mregs = s.mregs :=
  State.setCore_mregs s c _
@[simp] theorem State.modCore_residues (s : State) (c : Nat) (f : Core → Core) : (s.modCore c f).residues = s.residues :=
  State.setCore_residues s c _
@[simp] theorem State.modCore_msix (s : State) (c : Nat) (f : Core → Core) : (s.modCore c f).msix = s.msix :=
  State.setCore_msix s c _
@[simp] theorem State.modCore_hostCfg (s : State) (c : Nat) (f : Core → Core) : (s.modCore c f).hostCfg = s.hostCfg :=
  State.setCore_hostCfg s c _
@[simp] theorem State.modCore_hostLines (s : State) (c : Nat) (f : Core → Core) : (s.modCore c f).hostLines = s.hostLines :=
  State.setCore_hostLines s c _
@[simp] theorem State.modCore_identityKey (s : State) (c : Nat) (f : Core → Core) : (s.modCore c f).identityKey = s.identityKey :=
  State.setCore_identityKey s c _
@[simp] theorem State.modCore_ideKeys (s : State) (c : Nat) (f : Core → Core) : (s.modCore c f).ideKeys = s.ideKeys :=
  State.setCore_ideKeys s c _
@[simp] theorem State.modCore_dumpDue (s : State) (c : Nat) (f : Core → Core) : (s.modCore c f).dumpDue = s.dumpDue :=
  State.setCore_dumpDue s c _
@[simp] theorem State.modCore_coldBoot (s : State) (c : Nat) (f : Core → Core) : (s.modCore c f).coldBoot = s.coldBoot :=
  State.setCore_coldBoot s c _
@[simp] theorem State.modCore_dies (s : State) (c : Nat) (f : Core → Core) : (s.modCore c f).dies = s.dies :=
  State.setCore_dies s c _
@[simp] theorem State.modCore_cores (s : State) (c : Nat) (f : Core → Core) : (s.modCore c f).cores = s.cores.set c (f (s.core c)) :=
  State.setCore_cores s c _
@[simp] theorem State.modCore_stks (s : State) (c : Nat) (f : Core → Core) : (s.modCore c f).stks = s.stks :=
  State.setCore_stks s c _
@[simp] theorem State.modCore_ports (s : State) (c : Nat) (f : Core → Core) : (s.modCore c f).ports = s.ports :=
  State.setCore_ports s c _
@[simp] theorem State.modCore_dram (s : State) (c : Nat) (f : Core → Core) : (s.modCore c f).dram = s.dram :=
  State.setCore_dram s c _
@[simp] theorem State.modCore_l2 (s : State) (c : Nat) (f : Core → Core) : (s.modCore c f).l2 = s.l2 :=
  State.setCore_l2 s c _
@[simp] theorem State.modCore_l2held (s : State) (c : Nat) (f : Core → Core) : (s.modCore c f).l2held = s.l2held :=
  State.setCore_l2held s c _
@[simp] theorem State.modCore_poison (s : State) (c : Nat) (f : Core → Core) : (s.modCore c f).poison = s.poison :=
  State.setCore_poison s c _
@[simp] theorem State.modCore_registrants (s : State) (c : Nat) (f : Core → Core) : (s.modCore c f).registrants = s.registrants :=
  State.setCore_registrants s c _
@[simp] theorem State.modCore_tornViews (s : State) (c : Nat) (f : Core → Core) : (s.modCore c f).tornViews = s.tornViews :=
  State.setCore_tornViews s c _
@[simp] theorem State.modCore_tornSlots (s : State) (c : Nat) (f : Core → Core) : (s.modCore c f).tornSlots = s.tornSlots :=
  State.setCore_tornSlots s c _
@[simp] theorem State.modCore_queues (s : State) (c : Nat) (f : Core → Core) : (s.modCore c f).queues = s.queues :=
  State.setCore_queues s c _
@[simp] theorem State.modCore_launches (s : State) (c : Nat) (f : Core → Core) : (s.modCore c f).launches = s.launches :=
  State.setCore_launches s c _
@[simp] theorem State.modCore_blocks (s : State) (c : Nat) (f : Core → Core) : (s.modCore c f).blocks = s.blocks :=
  State.setCore_blocks s c _
@[simp] theorem State.modCore_saved (s : State) (c : Nat) (f : Core → Core) : (s.modCore c f).saved = s.saved :=
  State.setCore_saved s c _
@[simp] theorem State.modCore_teams (s : State) (c : Nat) (f : Core → Core) : (s.modCore c f).teams = s.teams :=
  State.setCore_teams s c _
@[simp] theorem State.modCore_ops (s : State) (c : Nat) (f : Core → Core) : (s.modCore c f).ops = s.ops :=
  State.setCore_ops s c _
@[simp] theorem State.modCore_barx (s : State) (c : Nat) (f : Core → Core) : (s.modCore c f).barx = s.barx :=
  State.setCore_barx s c _
@[simp] theorem State.modCore_pfOpen (s : State) (c : Nat) (f : Core → Core) : (s.modCore c f).pfOpen = s.pfOpen :=
  State.setCore_pfOpen s c _
@[simp] theorem State.modCore_heard (s : State) (c : Nat) (f : Core → Core) : (s.modCore c f).heard = s.heard :=
  State.setCore_heard s c _
@[simp] theorem State.modCore_deadAgents (s : State) (c : Nat) (f : Core → Core) : (s.modCore c f).deadAgents = s.deadAgents :=
  State.setCore_deadAgents s c _
@[simp] theorem State.modCore_peerInc (s : State) (c : Nat) (f : Core → Core) : (s.modCore c f).peerInc = s.peerInc :=
  State.setCore_peerInc s c _
@[simp] theorem State.modCore_lastQueue (s : State) (c : Nat) (f : Core → Core) : (s.modCore c f).lastQueue = s.lastQueue :=
  State.setCore_lastQueue s c _
@[simp] theorem State.modCore_placeCount (s : State) (c : Nat) (f : Core → Core) : (s.modCore c f).placeCount = s.placeCount :=
  State.setCore_placeCount s c _

/-! ### State.setStk -/

@[simp] theorem State.setStk_powered (s : State) (n : Nat) (x : Stack) : (s.setStk n x).powered = s.powered := rfl
@[simp] theorem State.setStk_agenda (s : State) (n : Nat) (x : Stack) : (s.setStk n x).agenda = s.agenda := rfl
@[simp] theorem State.setStk_cur (s : State) (n : Nat) (x : Stack) : (s.setStk n x).cur = s.cur := rfl
@[simp] theorem State.setStk_tick (s : State) (n : Nat) (x : Stack) : (s.setStk n x).tick = s.tick := rfl
@[simp] theorem State.setStk_turn (s : State) (n : Nat) (x : Stack) : (s.setStk n x).turn = s.turn := rfl
@[simp] theorem State.setStk_nextId (s : State) (n : Nat) (x : Stack) : (s.setStk n x).nextId = s.nextId := rfl
@[simp] theorem State.setStk_outbox (s : State) (n : Nat) (x : Stack) : (s.setStk n x).outbox = s.outbox := rfl
@[simp] theorem State.setStk_mregs (s : State) (n : Nat) (x : Stack) : (s.setStk n x).mregs = s.mregs := rfl
@[simp] theorem State.setStk_residues (s : State) (n : Nat) (x : Stack) : (s.setStk n x).residues = s.residues := rfl
@[simp] theorem State.setStk_msix (s : State) (n : Nat) (x : Stack) : (s.setStk n x).msix = s.msix := rfl
@[simp] theorem State.setStk_hostCfg (s : State) (n : Nat) (x : Stack) : (s.setStk n x).hostCfg = s.hostCfg := rfl
@[simp] theorem State.setStk_hostLines (s : State) (n : Nat) (x : Stack) : (s.setStk n x).hostLines = s.hostLines := rfl
@[simp] theorem State.setStk_identityKey (s : State) (n : Nat) (x : Stack) : (s.setStk n x).identityKey = s.identityKey := rfl
@[simp] theorem State.setStk_ideKeys (s : State) (n : Nat) (x : Stack) : (s.setStk n x).ideKeys = s.ideKeys := rfl
@[simp] theorem State.setStk_dumpDue (s : State) (n : Nat) (x : Stack) : (s.setStk n x).dumpDue = s.dumpDue := rfl
@[simp] theorem State.setStk_coldBoot (s : State) (n : Nat) (x : Stack) : (s.setStk n x).coldBoot = s.coldBoot := rfl
@[simp] theorem State.setStk_dies (s : State) (n : Nat) (x : Stack) : (s.setStk n x).dies = s.dies := rfl
@[simp] theorem State.setStk_cores (s : State) (n : Nat) (x : Stack) : (s.setStk n x).cores = s.cores := rfl
@[simp] theorem State.setStk_stks (s : State) (n : Nat) (x : Stack) : (s.setStk n x).stks = s.stks.set n x := rfl
@[simp] theorem State.setStk_ports (s : State) (n : Nat) (x : Stack) : (s.setStk n x).ports = s.ports := rfl
@[simp] theorem State.setStk_dram (s : State) (n : Nat) (x : Stack) : (s.setStk n x).dram = s.dram := rfl
@[simp] theorem State.setStk_l2 (s : State) (n : Nat) (x : Stack) : (s.setStk n x).l2 = s.l2 := rfl
@[simp] theorem State.setStk_l2held (s : State) (n : Nat) (x : Stack) : (s.setStk n x).l2held = s.l2held := rfl
@[simp] theorem State.setStk_poison (s : State) (n : Nat) (x : Stack) : (s.setStk n x).poison = s.poison := rfl
@[simp] theorem State.setStk_registrants (s : State) (n : Nat) (x : Stack) : (s.setStk n x).registrants = s.registrants := rfl
@[simp] theorem State.setStk_tornViews (s : State) (n : Nat) (x : Stack) : (s.setStk n x).tornViews = s.tornViews := rfl
@[simp] theorem State.setStk_tornSlots (s : State) (n : Nat) (x : Stack) : (s.setStk n x).tornSlots = s.tornSlots := rfl
@[simp] theorem State.setStk_queues (s : State) (n : Nat) (x : Stack) : (s.setStk n x).queues = s.queues := rfl
@[simp] theorem State.setStk_launches (s : State) (n : Nat) (x : Stack) : (s.setStk n x).launches = s.launches := rfl
@[simp] theorem State.setStk_blocks (s : State) (n : Nat) (x : Stack) : (s.setStk n x).blocks = s.blocks := rfl
@[simp] theorem State.setStk_saved (s : State) (n : Nat) (x : Stack) : (s.setStk n x).saved = s.saved := rfl
@[simp] theorem State.setStk_teams (s : State) (n : Nat) (x : Stack) : (s.setStk n x).teams = s.teams := rfl
@[simp] theorem State.setStk_ops (s : State) (n : Nat) (x : Stack) : (s.setStk n x).ops = s.ops := rfl
@[simp] theorem State.setStk_barx (s : State) (n : Nat) (x : Stack) : (s.setStk n x).barx = s.barx := rfl
@[simp] theorem State.setStk_pfOpen (s : State) (n : Nat) (x : Stack) : (s.setStk n x).pfOpen = s.pfOpen := rfl
@[simp] theorem State.setStk_heard (s : State) (n : Nat) (x : Stack) : (s.setStk n x).heard = s.heard := rfl
@[simp] theorem State.setStk_deadAgents (s : State) (n : Nat) (x : Stack) : (s.setStk n x).deadAgents = s.deadAgents := rfl
@[simp] theorem State.setStk_peerInc (s : State) (n : Nat) (x : Stack) : (s.setStk n x).peerInc = s.peerInc := rfl
@[simp] theorem State.setStk_lastQueue (s : State) (n : Nat) (x : Stack) : (s.setStk n x).lastQueue = s.lastQueue := rfl
@[simp] theorem State.setStk_placeCount (s : State) (n : Nat) (x : Stack) : (s.setStk n x).placeCount = s.placeCount := rfl

/-! ### State.emit -/

@[simp] theorem State.emit_powered (s : State) (m : OutMsg) : (s.emit m).powered = s.powered := rfl
@[simp] theorem State.emit_agenda (s : State) (m : OutMsg) : (s.emit m).agenda = s.agenda := rfl
@[simp] theorem State.emit_cur (s : State) (m : OutMsg) : (s.emit m).cur = s.cur := rfl
@[simp] theorem State.emit_tick (s : State) (m : OutMsg) : (s.emit m).tick = s.tick := rfl
@[simp] theorem State.emit_turn (s : State) (m : OutMsg) : (s.emit m).turn = s.turn := rfl
@[simp] theorem State.emit_nextId (s : State) (m : OutMsg) : (s.emit m).nextId = s.nextId := rfl
@[simp] theorem State.emit_outbox (s : State) (m : OutMsg) : (s.emit m).outbox = m :: s.outbox := rfl
@[simp] theorem State.emit_mregs (s : State) (m : OutMsg) : (s.emit m).mregs = s.mregs := rfl
@[simp] theorem State.emit_residues (s : State) (m : OutMsg) : (s.emit m).residues = s.residues := rfl
@[simp] theorem State.emit_msix (s : State) (m : OutMsg) : (s.emit m).msix = s.msix := rfl
@[simp] theorem State.emit_hostCfg (s : State) (m : OutMsg) : (s.emit m).hostCfg = s.hostCfg := rfl
@[simp] theorem State.emit_hostLines (s : State) (m : OutMsg) : (s.emit m).hostLines = s.hostLines := rfl
@[simp] theorem State.emit_identityKey (s : State) (m : OutMsg) : (s.emit m).identityKey = s.identityKey := rfl
@[simp] theorem State.emit_ideKeys (s : State) (m : OutMsg) : (s.emit m).ideKeys = s.ideKeys := rfl
@[simp] theorem State.emit_dumpDue (s : State) (m : OutMsg) : (s.emit m).dumpDue = s.dumpDue := rfl
@[simp] theorem State.emit_coldBoot (s : State) (m : OutMsg) : (s.emit m).coldBoot = s.coldBoot := rfl
@[simp] theorem State.emit_dies (s : State) (m : OutMsg) : (s.emit m).dies = s.dies := rfl
@[simp] theorem State.emit_cores (s : State) (m : OutMsg) : (s.emit m).cores = s.cores := rfl
@[simp] theorem State.emit_stks (s : State) (m : OutMsg) : (s.emit m).stks = s.stks := rfl
@[simp] theorem State.emit_ports (s : State) (m : OutMsg) : (s.emit m).ports = s.ports := rfl
@[simp] theorem State.emit_dram (s : State) (m : OutMsg) : (s.emit m).dram = s.dram := rfl
@[simp] theorem State.emit_l2 (s : State) (m : OutMsg) : (s.emit m).l2 = s.l2 := rfl
@[simp] theorem State.emit_l2held (s : State) (m : OutMsg) : (s.emit m).l2held = s.l2held := rfl
@[simp] theorem State.emit_poison (s : State) (m : OutMsg) : (s.emit m).poison = s.poison := rfl
@[simp] theorem State.emit_registrants (s : State) (m : OutMsg) : (s.emit m).registrants = s.registrants := rfl
@[simp] theorem State.emit_tornViews (s : State) (m : OutMsg) : (s.emit m).tornViews = s.tornViews := rfl
@[simp] theorem State.emit_tornSlots (s : State) (m : OutMsg) : (s.emit m).tornSlots = s.tornSlots := rfl
@[simp] theorem State.emit_queues (s : State) (m : OutMsg) : (s.emit m).queues = s.queues := rfl
@[simp] theorem State.emit_launches (s : State) (m : OutMsg) : (s.emit m).launches = s.launches := rfl
@[simp] theorem State.emit_blocks (s : State) (m : OutMsg) : (s.emit m).blocks = s.blocks := rfl
@[simp] theorem State.emit_saved (s : State) (m : OutMsg) : (s.emit m).saved = s.saved := rfl
@[simp] theorem State.emit_teams (s : State) (m : OutMsg) : (s.emit m).teams = s.teams := rfl
@[simp] theorem State.emit_ops (s : State) (m : OutMsg) : (s.emit m).ops = s.ops := rfl
@[simp] theorem State.emit_barx (s : State) (m : OutMsg) : (s.emit m).barx = s.barx := rfl
@[simp] theorem State.emit_pfOpen (s : State) (m : OutMsg) : (s.emit m).pfOpen = s.pfOpen := rfl
@[simp] theorem State.emit_heard (s : State) (m : OutMsg) : (s.emit m).heard = s.heard := rfl
@[simp] theorem State.emit_deadAgents (s : State) (m : OutMsg) : (s.emit m).deadAgents = s.deadAgents := rfl
@[simp] theorem State.emit_peerInc (s : State) (m : OutMsg) : (s.emit m).peerInc = s.peerInc := rfl
@[simp] theorem State.emit_lastQueue (s : State) (m : OutMsg) : (s.emit m).lastQueue = s.lastQueue := rfl
@[simp] theorem State.emit_placeCount (s : State) (m : OutMsg) : (s.emit m).placeCount = s.placeCount := rfl

/-! ### State.nextTick -/

@[simp] theorem State.nextTick_powered (s : State) : (s.nextTick).powered = s.powered := rfl
@[simp] theorem State.nextTick_agenda (s : State) : (s.nextTick).agenda = s.agenda := rfl
@[simp] theorem State.nextTick_cur (s : State) : (s.nextTick).cur = s.cur := rfl
@[simp] theorem State.nextTick_tick (s : State) : (s.nextTick).tick = s.tick + 1 := rfl
@[simp] theorem State.nextTick_turn (s : State) : (s.nextTick).turn = s.turn := rfl
@[simp] theorem State.nextTick_nextId (s : State) : (s.nextTick).nextId = s.nextId := rfl
@[simp] theorem State.nextTick_outbox (s : State) : (s.nextTick).outbox = s.outbox := rfl
@[simp] theorem State.nextTick_mregs (s : State) : (s.nextTick).mregs = s.mregs := rfl
@[simp] theorem State.nextTick_residues (s : State) : (s.nextTick).residues = s.residues := rfl
@[simp] theorem State.nextTick_msix (s : State) : (s.nextTick).msix = s.msix := rfl
@[simp] theorem State.nextTick_hostCfg (s : State) : (s.nextTick).hostCfg = s.hostCfg := rfl
@[simp] theorem State.nextTick_hostLines (s : State) : (s.nextTick).hostLines = s.hostLines := rfl
@[simp] theorem State.nextTick_identityKey (s : State) : (s.nextTick).identityKey = s.identityKey := rfl
@[simp] theorem State.nextTick_ideKeys (s : State) : (s.nextTick).ideKeys = s.ideKeys := rfl
@[simp] theorem State.nextTick_dumpDue (s : State) : (s.nextTick).dumpDue = s.dumpDue := rfl
@[simp] theorem State.nextTick_coldBoot (s : State) : (s.nextTick).coldBoot = s.coldBoot := rfl
@[simp] theorem State.nextTick_dies (s : State) : (s.nextTick).dies = s.dies := rfl
@[simp] theorem State.nextTick_cores (s : State) : (s.nextTick).cores = s.cores := rfl
@[simp] theorem State.nextTick_stks (s : State) : (s.nextTick).stks = s.stks := rfl
@[simp] theorem State.nextTick_ports (s : State) : (s.nextTick).ports = s.ports := rfl
@[simp] theorem State.nextTick_dram (s : State) : (s.nextTick).dram = s.dram := rfl
@[simp] theorem State.nextTick_l2 (s : State) : (s.nextTick).l2 = s.l2 := rfl
@[simp] theorem State.nextTick_l2held (s : State) : (s.nextTick).l2held = s.l2held := rfl
@[simp] theorem State.nextTick_poison (s : State) : (s.nextTick).poison = s.poison := rfl
@[simp] theorem State.nextTick_registrants (s : State) : (s.nextTick).registrants = s.registrants := rfl
@[simp] theorem State.nextTick_tornViews (s : State) : (s.nextTick).tornViews = s.tornViews := rfl
@[simp] theorem State.nextTick_tornSlots (s : State) : (s.nextTick).tornSlots = s.tornSlots := rfl
@[simp] theorem State.nextTick_queues (s : State) : (s.nextTick).queues = s.queues := rfl
@[simp] theorem State.nextTick_launches (s : State) : (s.nextTick).launches = s.launches := rfl
@[simp] theorem State.nextTick_blocks (s : State) : (s.nextTick).blocks = s.blocks := rfl
@[simp] theorem State.nextTick_saved (s : State) : (s.nextTick).saved = s.saved := rfl
@[simp] theorem State.nextTick_teams (s : State) : (s.nextTick).teams = s.teams := rfl
@[simp] theorem State.nextTick_ops (s : State) : (s.nextTick).ops = s.ops := rfl
@[simp] theorem State.nextTick_barx (s : State) : (s.nextTick).barx = s.barx := rfl
@[simp] theorem State.nextTick_pfOpen (s : State) : (s.nextTick).pfOpen = s.pfOpen := rfl
@[simp] theorem State.nextTick_heard (s : State) : (s.nextTick).heard = s.heard := rfl
@[simp] theorem State.nextTick_deadAgents (s : State) : (s.nextTick).deadAgents = s.deadAgents := rfl
@[simp] theorem State.nextTick_peerInc (s : State) : (s.nextTick).peerInc = s.peerInc := rfl
@[simp] theorem State.nextTick_lastQueue (s : State) : (s.nextTick).lastQueue = s.lastQueue := rfl
@[simp] theorem State.nextTick_placeCount (s : State) : (s.nextTick).placeCount = s.placeCount := rfl

/-! ### State.setTeam -/

@[simp] theorem State.setTeam_powered (s : State) (k : Nat) (t : Team) : (s.setTeam k t).powered = s.powered := rfl
@[simp] theorem State.setTeam_agenda (s : State) (k : Nat) (t : Team) : (s.setTeam k t).agenda = s.agenda := rfl
@[simp] theorem State.setTeam_cur (s : State) (k : Nat) (t : Team) : (s.setTeam k t).cur = s.cur := rfl
@[simp] theorem State.setTeam_tick (s : State) (k : Nat) (t : Team) : (s.setTeam k t).tick = s.tick := rfl
@[simp] theorem State.setTeam_turn (s : State) (k : Nat) (t : Team) : (s.setTeam k t).turn = s.turn := rfl
@[simp] theorem State.setTeam_nextId (s : State) (k : Nat) (t : Team) : (s.setTeam k t).nextId = s.nextId := rfl
@[simp] theorem State.setTeam_outbox (s : State) (k : Nat) (t : Team) : (s.setTeam k t).outbox = s.outbox := rfl
@[simp] theorem State.setTeam_mregs (s : State) (k : Nat) (t : Team) : (s.setTeam k t).mregs = s.mregs := rfl
@[simp] theorem State.setTeam_residues (s : State) (k : Nat) (t : Team) : (s.setTeam k t).residues = s.residues := rfl
@[simp] theorem State.setTeam_msix (s : State) (k : Nat) (t : Team) : (s.setTeam k t).msix = s.msix := rfl
@[simp] theorem State.setTeam_hostCfg (s : State) (k : Nat) (t : Team) : (s.setTeam k t).hostCfg = s.hostCfg := rfl
@[simp] theorem State.setTeam_hostLines (s : State) (k : Nat) (t : Team) : (s.setTeam k t).hostLines = s.hostLines := rfl
@[simp] theorem State.setTeam_identityKey (s : State) (k : Nat) (t : Team) : (s.setTeam k t).identityKey = s.identityKey := rfl
@[simp] theorem State.setTeam_ideKeys (s : State) (k : Nat) (t : Team) : (s.setTeam k t).ideKeys = s.ideKeys := rfl
@[simp] theorem State.setTeam_dumpDue (s : State) (k : Nat) (t : Team) : (s.setTeam k t).dumpDue = s.dumpDue := rfl
@[simp] theorem State.setTeam_coldBoot (s : State) (k : Nat) (t : Team) : (s.setTeam k t).coldBoot = s.coldBoot := rfl
@[simp] theorem State.setTeam_dies (s : State) (k : Nat) (t : Team) : (s.setTeam k t).dies = s.dies := rfl
@[simp] theorem State.setTeam_cores (s : State) (k : Nat) (t : Team) : (s.setTeam k t).cores = s.cores := rfl
@[simp] theorem State.setTeam_stks (s : State) (k : Nat) (t : Team) : (s.setTeam k t).stks = s.stks := rfl
@[simp] theorem State.setTeam_ports (s : State) (k : Nat) (t : Team) : (s.setTeam k t).ports = s.ports := rfl
@[simp] theorem State.setTeam_dram (s : State) (k : Nat) (t : Team) : (s.setTeam k t).dram = s.dram := rfl
@[simp] theorem State.setTeam_l2 (s : State) (k : Nat) (t : Team) : (s.setTeam k t).l2 = s.l2 := rfl
@[simp] theorem State.setTeam_l2held (s : State) (k : Nat) (t : Team) : (s.setTeam k t).l2held = s.l2held := rfl
@[simp] theorem State.setTeam_poison (s : State) (k : Nat) (t : Team) : (s.setTeam k t).poison = s.poison := rfl
@[simp] theorem State.setTeam_registrants (s : State) (k : Nat) (t : Team) : (s.setTeam k t).registrants = s.registrants := rfl
@[simp] theorem State.setTeam_tornViews (s : State) (k : Nat) (t : Team) : (s.setTeam k t).tornViews = s.tornViews := rfl
@[simp] theorem State.setTeam_tornSlots (s : State) (k : Nat) (t : Team) : (s.setTeam k t).tornSlots = s.tornSlots := rfl
@[simp] theorem State.setTeam_queues (s : State) (k : Nat) (t : Team) : (s.setTeam k t).queues = s.queues := rfl
@[simp] theorem State.setTeam_launches (s : State) (k : Nat) (t : Team) : (s.setTeam k t).launches = s.launches := rfl
@[simp] theorem State.setTeam_blocks (s : State) (k : Nat) (t : Team) : (s.setTeam k t).blocks = s.blocks := rfl
@[simp] theorem State.setTeam_saved (s : State) (k : Nat) (t : Team) : (s.setTeam k t).saved = s.saved := rfl
@[simp] theorem State.setTeam_teams (s : State) (k : Nat) (t : Team) : (s.setTeam k t).teams = s.teams.set k t := rfl
@[simp] theorem State.setTeam_ops (s : State) (k : Nat) (t : Team) : (s.setTeam k t).ops = s.ops := rfl
@[simp] theorem State.setTeam_barx (s : State) (k : Nat) (t : Team) : (s.setTeam k t).barx = s.barx := rfl
@[simp] theorem State.setTeam_pfOpen (s : State) (k : Nat) (t : Team) : (s.setTeam k t).pfOpen = s.pfOpen := rfl
@[simp] theorem State.setTeam_heard (s : State) (k : Nat) (t : Team) : (s.setTeam k t).heard = s.heard := rfl
@[simp] theorem State.setTeam_deadAgents (s : State) (k : Nat) (t : Team) : (s.setTeam k t).deadAgents = s.deadAgents := rfl
@[simp] theorem State.setTeam_peerInc (s : State) (k : Nat) (t : Team) : (s.setTeam k t).peerInc = s.peerInc := rfl
@[simp] theorem State.setTeam_lastQueue (s : State) (k : Nat) (t : Team) : (s.setTeam k t).lastQueue = s.lastQueue := rfl
@[simp] theorem State.setTeam_placeCount (s : State) (k : Nat) (t : Team) : (s.setTeam k t).placeCount = s.placeCount := rfl

/-! ### State.modTeam -/

@[simp] theorem State.modTeam_powered (s : State) (k : Nat) (f : Team → Team) : (s.modTeam k f).powered = s.powered := rfl
@[simp] theorem State.modTeam_agenda (s : State) (k : Nat) (f : Team → Team) : (s.modTeam k f).agenda = s.agenda := rfl
@[simp] theorem State.modTeam_cur (s : State) (k : Nat) (f : Team → Team) : (s.modTeam k f).cur = s.cur := rfl
@[simp] theorem State.modTeam_tick (s : State) (k : Nat) (f : Team → Team) : (s.modTeam k f).tick = s.tick := rfl
@[simp] theorem State.modTeam_turn (s : State) (k : Nat) (f : Team → Team) : (s.modTeam k f).turn = s.turn := rfl
@[simp] theorem State.modTeam_nextId (s : State) (k : Nat) (f : Team → Team) : (s.modTeam k f).nextId = s.nextId := rfl
@[simp] theorem State.modTeam_outbox (s : State) (k : Nat) (f : Team → Team) : (s.modTeam k f).outbox = s.outbox := rfl
@[simp] theorem State.modTeam_mregs (s : State) (k : Nat) (f : Team → Team) : (s.modTeam k f).mregs = s.mregs := rfl
@[simp] theorem State.modTeam_residues (s : State) (k : Nat) (f : Team → Team) : (s.modTeam k f).residues = s.residues := rfl
@[simp] theorem State.modTeam_msix (s : State) (k : Nat) (f : Team → Team) : (s.modTeam k f).msix = s.msix := rfl
@[simp] theorem State.modTeam_hostCfg (s : State) (k : Nat) (f : Team → Team) : (s.modTeam k f).hostCfg = s.hostCfg := rfl
@[simp] theorem State.modTeam_hostLines (s : State) (k : Nat) (f : Team → Team) : (s.modTeam k f).hostLines = s.hostLines := rfl
@[simp] theorem State.modTeam_identityKey (s : State) (k : Nat) (f : Team → Team) : (s.modTeam k f).identityKey = s.identityKey := rfl
@[simp] theorem State.modTeam_ideKeys (s : State) (k : Nat) (f : Team → Team) : (s.modTeam k f).ideKeys = s.ideKeys := rfl
@[simp] theorem State.modTeam_dumpDue (s : State) (k : Nat) (f : Team → Team) : (s.modTeam k f).dumpDue = s.dumpDue := rfl
@[simp] theorem State.modTeam_coldBoot (s : State) (k : Nat) (f : Team → Team) : (s.modTeam k f).coldBoot = s.coldBoot := rfl
@[simp] theorem State.modTeam_dies (s : State) (k : Nat) (f : Team → Team) : (s.modTeam k f).dies = s.dies := rfl
@[simp] theorem State.modTeam_cores (s : State) (k : Nat) (f : Team → Team) : (s.modTeam k f).cores = s.cores := rfl
@[simp] theorem State.modTeam_stks (s : State) (k : Nat) (f : Team → Team) : (s.modTeam k f).stks = s.stks := rfl
@[simp] theorem State.modTeam_ports (s : State) (k : Nat) (f : Team → Team) : (s.modTeam k f).ports = s.ports := rfl
@[simp] theorem State.modTeam_dram (s : State) (k : Nat) (f : Team → Team) : (s.modTeam k f).dram = s.dram := rfl
@[simp] theorem State.modTeam_l2 (s : State) (k : Nat) (f : Team → Team) : (s.modTeam k f).l2 = s.l2 := rfl
@[simp] theorem State.modTeam_l2held (s : State) (k : Nat) (f : Team → Team) : (s.modTeam k f).l2held = s.l2held := rfl
@[simp] theorem State.modTeam_poison (s : State) (k : Nat) (f : Team → Team) : (s.modTeam k f).poison = s.poison := rfl
@[simp] theorem State.modTeam_registrants (s : State) (k : Nat) (f : Team → Team) : (s.modTeam k f).registrants = s.registrants := rfl
@[simp] theorem State.modTeam_tornViews (s : State) (k : Nat) (f : Team → Team) : (s.modTeam k f).tornViews = s.tornViews := rfl
@[simp] theorem State.modTeam_tornSlots (s : State) (k : Nat) (f : Team → Team) : (s.modTeam k f).tornSlots = s.tornSlots := rfl
@[simp] theorem State.modTeam_queues (s : State) (k : Nat) (f : Team → Team) : (s.modTeam k f).queues = s.queues := rfl
@[simp] theorem State.modTeam_launches (s : State) (k : Nat) (f : Team → Team) : (s.modTeam k f).launches = s.launches := rfl
@[simp] theorem State.modTeam_blocks (s : State) (k : Nat) (f : Team → Team) : (s.modTeam k f).blocks = s.blocks := rfl
@[simp] theorem State.modTeam_saved (s : State) (k : Nat) (f : Team → Team) : (s.modTeam k f).saved = s.saved := rfl
@[simp] theorem State.modTeam_teams (s : State) (k : Nat) (f : Team → Team) :
    (s.modTeam k f).teams = (modifyAt f k s.teams) := rfl
@[simp] theorem State.modTeam_ops (s : State) (k : Nat) (f : Team → Team) : (s.modTeam k f).ops = s.ops := rfl
@[simp] theorem State.modTeam_barx (s : State) (k : Nat) (f : Team → Team) : (s.modTeam k f).barx = s.barx := rfl
@[simp] theorem State.modTeam_pfOpen (s : State) (k : Nat) (f : Team → Team) : (s.modTeam k f).pfOpen = s.pfOpen := rfl
@[simp] theorem State.modTeam_heard (s : State) (k : Nat) (f : Team → Team) : (s.modTeam k f).heard = s.heard := rfl
@[simp] theorem State.modTeam_deadAgents (s : State) (k : Nat) (f : Team → Team) : (s.modTeam k f).deadAgents = s.deadAgents := rfl
@[simp] theorem State.modTeam_peerInc (s : State) (k : Nat) (f : Team → Team) : (s.modTeam k f).peerInc = s.peerInc := rfl
@[simp] theorem State.modTeam_lastQueue (s : State) (k : Nat) (f : Team → Team) : (s.modTeam k f).lastQueue = s.lastQueue := rfl
@[simp] theorem State.modTeam_placeCount (s : State) (k : Nat) (f : Team → Team) : (s.modTeam k f).placeCount = s.placeCount := rfl

/-! ### State.modKey -/

@[simp] theorem State.modKey_powered (s : State) (key : TeamKey) (f : Team → Team) : (s.modKey key f).powered = s.powered := rfl
@[simp] theorem State.modKey_agenda (s : State) (key : TeamKey) (f : Team → Team) : (s.modKey key f).agenda = s.agenda := rfl
@[simp] theorem State.modKey_cur (s : State) (key : TeamKey) (f : Team → Team) : (s.modKey key f).cur = s.cur := rfl
@[simp] theorem State.modKey_tick (s : State) (key : TeamKey) (f : Team → Team) : (s.modKey key f).tick = s.tick := rfl
@[simp] theorem State.modKey_turn (s : State) (key : TeamKey) (f : Team → Team) : (s.modKey key f).turn = s.turn := rfl
@[simp] theorem State.modKey_nextId (s : State) (key : TeamKey) (f : Team → Team) : (s.modKey key f).nextId = s.nextId := rfl
@[simp] theorem State.modKey_outbox (s : State) (key : TeamKey) (f : Team → Team) : (s.modKey key f).outbox = s.outbox := rfl
@[simp] theorem State.modKey_mregs (s : State) (key : TeamKey) (f : Team → Team) : (s.modKey key f).mregs = s.mregs := rfl
@[simp] theorem State.modKey_residues (s : State) (key : TeamKey) (f : Team → Team) : (s.modKey key f).residues = s.residues := rfl
@[simp] theorem State.modKey_msix (s : State) (key : TeamKey) (f : Team → Team) : (s.modKey key f).msix = s.msix := rfl
@[simp] theorem State.modKey_hostCfg (s : State) (key : TeamKey) (f : Team → Team) : (s.modKey key f).hostCfg = s.hostCfg := rfl
@[simp] theorem State.modKey_hostLines (s : State) (key : TeamKey) (f : Team → Team) : (s.modKey key f).hostLines = s.hostLines := rfl
@[simp] theorem State.modKey_identityKey (s : State) (key : TeamKey) (f : Team → Team) : (s.modKey key f).identityKey = s.identityKey := rfl
@[simp] theorem State.modKey_ideKeys (s : State) (key : TeamKey) (f : Team → Team) : (s.modKey key f).ideKeys = s.ideKeys := rfl
@[simp] theorem State.modKey_dumpDue (s : State) (key : TeamKey) (f : Team → Team) : (s.modKey key f).dumpDue = s.dumpDue := rfl
@[simp] theorem State.modKey_coldBoot (s : State) (key : TeamKey) (f : Team → Team) : (s.modKey key f).coldBoot = s.coldBoot := rfl
@[simp] theorem State.modKey_dies (s : State) (key : TeamKey) (f : Team → Team) : (s.modKey key f).dies = s.dies := rfl
@[simp] theorem State.modKey_cores (s : State) (key : TeamKey) (f : Team → Team) : (s.modKey key f).cores = s.cores := rfl
@[simp] theorem State.modKey_stks (s : State) (key : TeamKey) (f : Team → Team) : (s.modKey key f).stks = s.stks := rfl
@[simp] theorem State.modKey_ports (s : State) (key : TeamKey) (f : Team → Team) : (s.modKey key f).ports = s.ports := rfl
@[simp] theorem State.modKey_dram (s : State) (key : TeamKey) (f : Team → Team) : (s.modKey key f).dram = s.dram := rfl
@[simp] theorem State.modKey_l2 (s : State) (key : TeamKey) (f : Team → Team) : (s.modKey key f).l2 = s.l2 := rfl
@[simp] theorem State.modKey_l2held (s : State) (key : TeamKey) (f : Team → Team) : (s.modKey key f).l2held = s.l2held := rfl
@[simp] theorem State.modKey_poison (s : State) (key : TeamKey) (f : Team → Team) : (s.modKey key f).poison = s.poison := rfl
@[simp] theorem State.modKey_registrants (s : State) (key : TeamKey) (f : Team → Team) : (s.modKey key f).registrants = s.registrants := rfl
@[simp] theorem State.modKey_tornViews (s : State) (key : TeamKey) (f : Team → Team) : (s.modKey key f).tornViews = s.tornViews := rfl
@[simp] theorem State.modKey_tornSlots (s : State) (key : TeamKey) (f : Team → Team) : (s.modKey key f).tornSlots = s.tornSlots := rfl
@[simp] theorem State.modKey_queues (s : State) (key : TeamKey) (f : Team → Team) : (s.modKey key f).queues = s.queues := rfl
@[simp] theorem State.modKey_launches (s : State) (key : TeamKey) (f : Team → Team) : (s.modKey key f).launches = s.launches := rfl
@[simp] theorem State.modKey_blocks (s : State) (key : TeamKey) (f : Team → Team) : (s.modKey key f).blocks = s.blocks := rfl
@[simp] theorem State.modKey_saved (s : State) (key : TeamKey) (f : Team → Team) : (s.modKey key f).saved = s.saved := rfl
@[simp] theorem State.modKey_teams (s : State) (key : TeamKey) (f : Team → Team) :
    (s.modKey key f).teams = (s.teams.map fun t => if t.key = key then f t else t) := rfl
@[simp] theorem State.modKey_ops (s : State) (key : TeamKey) (f : Team → Team) : (s.modKey key f).ops = s.ops := rfl
@[simp] theorem State.modKey_barx (s : State) (key : TeamKey) (f : Team → Team) : (s.modKey key f).barx = s.barx := rfl
@[simp] theorem State.modKey_pfOpen (s : State) (key : TeamKey) (f : Team → Team) : (s.modKey key f).pfOpen = s.pfOpen := rfl
@[simp] theorem State.modKey_heard (s : State) (key : TeamKey) (f : Team → Team) : (s.modKey key f).heard = s.heard := rfl
@[simp] theorem State.modKey_deadAgents (s : State) (key : TeamKey) (f : Team → Team) : (s.modKey key f).deadAgents = s.deadAgents := rfl
@[simp] theorem State.modKey_peerInc (s : State) (key : TeamKey) (f : Team → Team) : (s.modKey key f).peerInc = s.peerInc := rfl
@[simp] theorem State.modKey_lastQueue (s : State) (key : TeamKey) (f : Team → Team) : (s.modKey key f).lastQueue = s.lastQueue := rfl
@[simp] theorem State.modKey_placeCount (s : State) (key : TeamKey) (f : Team → Team) : (s.modKey key f).placeCount = s.placeCount := rfl

/-! ### State.modBlock -/

@[simp] theorem State.modBlock_powered (s : State) (key : TeamKey) (f : Block → Block) : (s.modBlock key f).powered = s.powered := rfl
@[simp] theorem State.modBlock_agenda (s : State) (key : TeamKey) (f : Block → Block) : (s.modBlock key f).agenda = s.agenda := rfl
@[simp] theorem State.modBlock_cur (s : State) (key : TeamKey) (f : Block → Block) : (s.modBlock key f).cur = s.cur := rfl
@[simp] theorem State.modBlock_tick (s : State) (key : TeamKey) (f : Block → Block) : (s.modBlock key f).tick = s.tick := rfl
@[simp] theorem State.modBlock_turn (s : State) (key : TeamKey) (f : Block → Block) : (s.modBlock key f).turn = s.turn := rfl
@[simp] theorem State.modBlock_nextId (s : State) (key : TeamKey) (f : Block → Block) : (s.modBlock key f).nextId = s.nextId := rfl
@[simp] theorem State.modBlock_outbox (s : State) (key : TeamKey) (f : Block → Block) : (s.modBlock key f).outbox = s.outbox := rfl
@[simp] theorem State.modBlock_mregs (s : State) (key : TeamKey) (f : Block → Block) : (s.modBlock key f).mregs = s.mregs := rfl
@[simp] theorem State.modBlock_residues (s : State) (key : TeamKey) (f : Block → Block) : (s.modBlock key f).residues = s.residues := rfl
@[simp] theorem State.modBlock_msix (s : State) (key : TeamKey) (f : Block → Block) : (s.modBlock key f).msix = s.msix := rfl
@[simp] theorem State.modBlock_hostCfg (s : State) (key : TeamKey) (f : Block → Block) : (s.modBlock key f).hostCfg = s.hostCfg := rfl
@[simp] theorem State.modBlock_hostLines (s : State) (key : TeamKey) (f : Block → Block) : (s.modBlock key f).hostLines = s.hostLines := rfl
@[simp] theorem State.modBlock_identityKey (s : State) (key : TeamKey) (f : Block → Block) : (s.modBlock key f).identityKey = s.identityKey := rfl
@[simp] theorem State.modBlock_ideKeys (s : State) (key : TeamKey) (f : Block → Block) : (s.modBlock key f).ideKeys = s.ideKeys := rfl
@[simp] theorem State.modBlock_dumpDue (s : State) (key : TeamKey) (f : Block → Block) : (s.modBlock key f).dumpDue = s.dumpDue := rfl
@[simp] theorem State.modBlock_coldBoot (s : State) (key : TeamKey) (f : Block → Block) : (s.modBlock key f).coldBoot = s.coldBoot := rfl
@[simp] theorem State.modBlock_dies (s : State) (key : TeamKey) (f : Block → Block) : (s.modBlock key f).dies = s.dies := rfl
@[simp] theorem State.modBlock_cores (s : State) (key : TeamKey) (f : Block → Block) : (s.modBlock key f).cores = s.cores := rfl
@[simp] theorem State.modBlock_stks (s : State) (key : TeamKey) (f : Block → Block) : (s.modBlock key f).stks = s.stks := rfl
@[simp] theorem State.modBlock_ports (s : State) (key : TeamKey) (f : Block → Block) : (s.modBlock key f).ports = s.ports := rfl
@[simp] theorem State.modBlock_dram (s : State) (key : TeamKey) (f : Block → Block) : (s.modBlock key f).dram = s.dram := rfl
@[simp] theorem State.modBlock_l2 (s : State) (key : TeamKey) (f : Block → Block) : (s.modBlock key f).l2 = s.l2 := rfl
@[simp] theorem State.modBlock_l2held (s : State) (key : TeamKey) (f : Block → Block) : (s.modBlock key f).l2held = s.l2held := rfl
@[simp] theorem State.modBlock_poison (s : State) (key : TeamKey) (f : Block → Block) : (s.modBlock key f).poison = s.poison := rfl
@[simp] theorem State.modBlock_registrants (s : State) (key : TeamKey) (f : Block → Block) : (s.modBlock key f).registrants = s.registrants := rfl
@[simp] theorem State.modBlock_tornViews (s : State) (key : TeamKey) (f : Block → Block) : (s.modBlock key f).tornViews = s.tornViews := rfl
@[simp] theorem State.modBlock_tornSlots (s : State) (key : TeamKey) (f : Block → Block) : (s.modBlock key f).tornSlots = s.tornSlots := rfl
@[simp] theorem State.modBlock_queues (s : State) (key : TeamKey) (f : Block → Block) : (s.modBlock key f).queues = s.queues := rfl
@[simp] theorem State.modBlock_launches (s : State) (key : TeamKey) (f : Block → Block) : (s.modBlock key f).launches = s.launches := rfl
@[simp] theorem State.modBlock_blocks (s : State) (key : TeamKey) (f : Block → Block) :
    (s.modBlock key f).blocks = (s.blocks.map fun b => if b.holds key then f b else b) := rfl
@[simp] theorem State.modBlock_saved (s : State) (key : TeamKey) (f : Block → Block) : (s.modBlock key f).saved = s.saved := rfl
@[simp] theorem State.modBlock_teams (s : State) (key : TeamKey) (f : Block → Block) : (s.modBlock key f).teams = s.teams := rfl
@[simp] theorem State.modBlock_ops (s : State) (key : TeamKey) (f : Block → Block) : (s.modBlock key f).ops = s.ops := rfl
@[simp] theorem State.modBlock_barx (s : State) (key : TeamKey) (f : Block → Block) : (s.modBlock key f).barx = s.barx := rfl
@[simp] theorem State.modBlock_pfOpen (s : State) (key : TeamKey) (f : Block → Block) : (s.modBlock key f).pfOpen = s.pfOpen := rfl
@[simp] theorem State.modBlock_heard (s : State) (key : TeamKey) (f : Block → Block) : (s.modBlock key f).heard = s.heard := rfl
@[simp] theorem State.modBlock_deadAgents (s : State) (key : TeamKey) (f : Block → Block) : (s.modBlock key f).deadAgents = s.deadAgents := rfl
@[simp] theorem State.modBlock_peerInc (s : State) (key : TeamKey) (f : Block → Block) : (s.modBlock key f).peerInc = s.peerInc := rfl
@[simp] theorem State.modBlock_lastQueue (s : State) (key : TeamKey) (f : Block → Block) : (s.modBlock key f).lastQueue = s.lastQueue := rfl
@[simp] theorem State.modBlock_placeCount (s : State) (key : TeamKey) (f : Block → Block) : (s.modBlock key f).placeCount = s.placeCount := rfl

/-! ### Team.setReg -/

@[simp] theorem Team.setReg_key (t : Team) (n : Nat) (v : Lanes) : (t.setReg n v).key = t.key := rfl
@[simp] theorem Team.setReg_cfg (t : Team) (n : Nat) (v : Lanes) : (t.setReg n v).cfg = t.cfg := rfl
@[simp] theorem Team.setReg_die (t : Team) (n : Nat) (v : Lanes) : (t.setReg n v).die = t.die := rfl
@[simp] theorem Team.setReg_core (t : Team) (n : Nat) (v : Lanes) : (t.setReg n v).core = t.core := rfl
@[simp] theorem Team.setReg_part (t : Team) (n : Nat) (v : Lanes) : (t.setReg n v).part = t.part := rfl
@[simp] theorem Team.setReg_slot (t : Team) (n : Nat) (v : Lanes) : (t.setReg n v).slot = t.slot := rfl
@[simp] theorem Team.setReg_pc (t : Team) (n : Nat) (v : Lanes) : (t.setReg n v).pc = t.pc := rfl
@[simp] theorem Team.setReg_repIdx (t : Team) (n : Nat) (v : Lanes) : (t.setReg n v).repIdx = t.repIdx := rfl
@[simp] theorem Team.setReg_mask (t : Team) (n : Nat) (v : Lanes) : (t.setReg n v).mask = t.mask := rfl
@[simp] theorem Team.setReg_stack (t : Team) (n : Nat) (v : Lanes) : (t.setReg n v).stack = t.stack := rfl
@[simp] theorem Team.setReg_regs (t : Team) (n : Nat) (v : Lanes) : (t.setReg n v).regs = (t.regs.set n v) := rfl
@[simp] theorem Team.setReg_dead (t : Team) (n : Nat) (v : Lanes) : (t.setReg n v).dead = (t.dead &&& ~~~(1#160 <<< n)) := rfl
@[simp] theorem Team.setReg_latL (t : Team) (n : Nat) (v : Lanes) : (t.setReg n v).latL = t.latL := rfl
@[simp] theorem Team.setReg_latX (t : Team) (n : Nat) (v : Lanes) : (t.setReg n v).latX = t.latX := rfl
@[simp] theorem Team.setReg_latU (t : Team) (n : Nat) (v : Lanes) : (t.setReg n v).latU = t.latU := rfl
@[simp] theorem Team.setReg_ocache (t : Team) (n : Nat) (v : Lanes) : (t.setReg n v).ocache = t.ocache := rfl
@[simp] theorem Team.setReg_rng (t : Team) (n : Nat) (v : Lanes) : (t.setReg n v).rng = t.rng := rfl
@[simp] theorem Team.setReg_status (t : Team) (n : Nat) (v : Lanes) : (t.setReg n v).status = t.status := rfl
@[simp] theorem Team.setReg_trapen (t : Team) (n : Nat) (v : Lanes) : (t.setReg n v).trapen = t.trapen := rfl
@[simp] theorem Team.setReg_priv (t : Team) (n : Nat) (v : Lanes) : (t.setReg n v).priv = t.priv := rfl
@[simp] theorem Team.setReg_cause (t : Team) (n : Nat) (v : Lanes) : (t.setReg n v).cause = t.cause := rfl
@[simp] theorem Team.setReg_epc (t : Team) (n : Nat) (v : Lanes) : (t.setReg n v).epc = t.epc := rfl
@[simp] theorem Team.setReg_faddr (t : Team) (n : Nat) (v : Lanes) : (t.setReg n v).faddr = t.faddr := rfl
@[simp] theorem Team.setReg_flane (t : Team) (n : Nat) (v : Lanes) : (t.setReg n v).flane = t.flane := rfl
@[simp] theorem Team.setReg_tscr (t : Team) (n : Nat) (v : Lanes) : (t.setReg n v).tscr = t.tscr := rfl
@[simp] theorem Team.setReg_smask (t : Team) (n : Nat) (v : Lanes) : (t.setReg n v).smask = t.smask := rfl
@[simp] theorem Team.setReg_sdepth (t : Team) (n : Nat) (v : Lanes) : (t.setReg n v).sdepth = t.sdepth := rfl
@[simp] theorem Team.setReg_ckpt (t : Team) (n : Nat) (v : Lanes) : (t.setReg n v).ckpt = t.ckpt := rfl
@[simp] theorem Team.setReg_fibres (t : Team) (n : Nat) (v : Lanes) : (t.setReg n v).fibres = t.fibres := rfl
@[simp] theorem Team.setReg_allotted (t : Team) (n : Nat) (v : Lanes) : (t.setReg n v).allotted = t.allotted := rfl
@[simp] theorem Team.setReg_accRun (t : Team) (n : Nat) (v : Lanes) : (t.setReg n v).accRun = t.accRun := rfl
@[simp] theorem Team.setReg_tileRun (t : Team) (n : Nat) (v : Lanes) : (t.setReg n v).tileRun = t.tileRun := rfl
@[simp] theorem Team.setReg_openOps (t : Team) (n : Nat) (v : Lanes) : (t.setReg n v).openOps = t.openOps := rfl
@[simp] theorem Team.setReg_batches (t : Team) (n : Nat) (v : Lanes) : (t.setReg n v).batches = t.batches := rfl
@[simp] theorem Team.setReg_nextBatch (t : Team) (n : Nat) (v : Lanes) : (t.setReg n v).nextBatch = t.nextBatch := rfl
@[simp] theorem Team.setReg_pending (t : Team) (n : Nat) (v : Lanes) : (t.setReg n v).pending = t.pending := rfl
@[simp] theorem Team.setReg_loads (t : Team) (n : Nat) (v : Lanes) : (t.setReg n v).loads = t.loads := rfl
@[simp] theorem Team.setReg_sigW (t : Team) (n : Nat) (v : Lanes) : (t.setReg n v).sigW = t.sigW := rfl
@[simp] theorem Team.setReg_sigE0 (t : Team) (n : Nat) (v : Lanes) : (t.setReg n v).sigE0 = t.sigE0 := rfl
@[simp] theorem Team.setReg_sigE1 (t : Team) (n : Nat) (v : Lanes) : (t.setReg n v).sigE1 = t.sigE1 := rfl
@[simp] theorem Team.setReg_sigE2 (t : Team) (n : Nat) (v : Lanes) : (t.setReg n v).sigE2 = t.sigE2 := rfl
@[simp] theorem Team.setReg_park (t : Team) (n : Nat) (v : Lanes) : (t.setReg n v).park = t.park := rfl
@[simp] theorem Team.setReg_active (t : Team) (n : Nat) (v : Lanes) : (t.setReg n v).active = t.active := rfl
@[simp] theorem Team.setReg_age (t : Team) (n : Nat) (v : Lanes) : (t.setReg n v).age = t.age := rfl
@[simp] theorem Team.setReg_entered (t : Team) (n : Nat) (v : Lanes) : (t.setReg n v).entered = t.entered := rfl
@[simp] theorem Team.setReg_order (t : Team) (n : Nat) (v : Lanes) : (t.setReg n v).order = t.order := rfl
@[simp] theorem Team.setReg_expect (t : Team) (n : Nat) (v : Lanes) : (t.setReg n v).expect = t.expect := rfl
@[simp] theorem Team.setReg_moved (t : Team) (n : Nat) (v : Lanes) : (t.setReg n v).moved = t.moved := rfl
@[simp] theorem Team.setReg_walked (t : Team) (n : Nat) (v : Lanes) : (t.setReg n v).walked = t.walked := rfl
@[simp] theorem Team.setReg_issuedAt (t : Team) (n : Nat) (v : Lanes) : (t.setReg n v).issuedAt = t.issuedAt := rfl

/-! ### Team.killReg -/

@[simp] theorem Team.killReg_key (t : Team) (n : Nat) : (t.killReg n).key = t.key := rfl
@[simp] theorem Team.killReg_cfg (t : Team) (n : Nat) : (t.killReg n).cfg = t.cfg := rfl
@[simp] theorem Team.killReg_die (t : Team) (n : Nat) : (t.killReg n).die = t.die := rfl
@[simp] theorem Team.killReg_core (t : Team) (n : Nat) : (t.killReg n).core = t.core := rfl
@[simp] theorem Team.killReg_part (t : Team) (n : Nat) : (t.killReg n).part = t.part := rfl
@[simp] theorem Team.killReg_slot (t : Team) (n : Nat) : (t.killReg n).slot = t.slot := rfl
@[simp] theorem Team.killReg_pc (t : Team) (n : Nat) : (t.killReg n).pc = t.pc := rfl
@[simp] theorem Team.killReg_repIdx (t : Team) (n : Nat) : (t.killReg n).repIdx = t.repIdx := rfl
@[simp] theorem Team.killReg_mask (t : Team) (n : Nat) : (t.killReg n).mask = t.mask := rfl
@[simp] theorem Team.killReg_stack (t : Team) (n : Nat) : (t.killReg n).stack = t.stack := rfl
@[simp] theorem Team.killReg_regs (t : Team) (n : Nat) : (t.killReg n).regs = t.regs := rfl
@[simp] theorem Team.killReg_dead (t : Team) (n : Nat) : (t.killReg n).dead = (t.dead ||| (1#160 <<< n)) := rfl
@[simp] theorem Team.killReg_latL (t : Team) (n : Nat) : (t.killReg n).latL = t.latL := rfl
@[simp] theorem Team.killReg_latX (t : Team) (n : Nat) : (t.killReg n).latX = t.latX := rfl
@[simp] theorem Team.killReg_latU (t : Team) (n : Nat) : (t.killReg n).latU = t.latU := rfl
@[simp] theorem Team.killReg_ocache (t : Team) (n : Nat) : (t.killReg n).ocache = (t.ocache.filter fun e => e.1 != n) := rfl
@[simp] theorem Team.killReg_rng (t : Team) (n : Nat) : (t.killReg n).rng = t.rng := rfl
@[simp] theorem Team.killReg_status (t : Team) (n : Nat) : (t.killReg n).status = t.status := rfl
@[simp] theorem Team.killReg_trapen (t : Team) (n : Nat) : (t.killReg n).trapen = t.trapen := rfl
@[simp] theorem Team.killReg_priv (t : Team) (n : Nat) : (t.killReg n).priv = t.priv := rfl
@[simp] theorem Team.killReg_cause (t : Team) (n : Nat) : (t.killReg n).cause = t.cause := rfl
@[simp] theorem Team.killReg_epc (t : Team) (n : Nat) : (t.killReg n).epc = t.epc := rfl
@[simp] theorem Team.killReg_faddr (t : Team) (n : Nat) : (t.killReg n).faddr = t.faddr := rfl
@[simp] theorem Team.killReg_flane (t : Team) (n : Nat) : (t.killReg n).flane = t.flane := rfl
@[simp] theorem Team.killReg_tscr (t : Team) (n : Nat) : (t.killReg n).tscr = t.tscr := rfl
@[simp] theorem Team.killReg_smask (t : Team) (n : Nat) : (t.killReg n).smask = t.smask := rfl
@[simp] theorem Team.killReg_sdepth (t : Team) (n : Nat) : (t.killReg n).sdepth = t.sdepth := rfl
@[simp] theorem Team.killReg_ckpt (t : Team) (n : Nat) : (t.killReg n).ckpt = t.ckpt := rfl
@[simp] theorem Team.killReg_fibres (t : Team) (n : Nat) : (t.killReg n).fibres = t.fibres := rfl
@[simp] theorem Team.killReg_allotted (t : Team) (n : Nat) : (t.killReg n).allotted = t.allotted := rfl
@[simp] theorem Team.killReg_accRun (t : Team) (n : Nat) : (t.killReg n).accRun = t.accRun := rfl
@[simp] theorem Team.killReg_tileRun (t : Team) (n : Nat) : (t.killReg n).tileRun = t.tileRun := rfl
@[simp] theorem Team.killReg_openOps (t : Team) (n : Nat) : (t.killReg n).openOps = t.openOps := rfl
@[simp] theorem Team.killReg_batches (t : Team) (n : Nat) : (t.killReg n).batches = t.batches := rfl
@[simp] theorem Team.killReg_nextBatch (t : Team) (n : Nat) : (t.killReg n).nextBatch = t.nextBatch := rfl
@[simp] theorem Team.killReg_pending (t : Team) (n : Nat) : (t.killReg n).pending = t.pending := rfl
@[simp] theorem Team.killReg_loads (t : Team) (n : Nat) : (t.killReg n).loads = t.loads := rfl
@[simp] theorem Team.killReg_sigW (t : Team) (n : Nat) : (t.killReg n).sigW = t.sigW := rfl
@[simp] theorem Team.killReg_sigE0 (t : Team) (n : Nat) : (t.killReg n).sigE0 = t.sigE0 := rfl
@[simp] theorem Team.killReg_sigE1 (t : Team) (n : Nat) : (t.killReg n).sigE1 = t.sigE1 := rfl
@[simp] theorem Team.killReg_sigE2 (t : Team) (n : Nat) : (t.killReg n).sigE2 = t.sigE2 := rfl
@[simp] theorem Team.killReg_park (t : Team) (n : Nat) : (t.killReg n).park = t.park := rfl
@[simp] theorem Team.killReg_active (t : Team) (n : Nat) : (t.killReg n).active = t.active := rfl
@[simp] theorem Team.killReg_age (t : Team) (n : Nat) : (t.killReg n).age = t.age := rfl
@[simp] theorem Team.killReg_entered (t : Team) (n : Nat) : (t.killReg n).entered = t.entered := rfl
@[simp] theorem Team.killReg_order (t : Team) (n : Nat) : (t.killReg n).order = t.order := rfl
@[simp] theorem Team.killReg_expect (t : Team) (n : Nat) : (t.killReg n).expect = t.expect := rfl
@[simp] theorem Team.killReg_moved (t : Team) (n : Nat) : (t.killReg n).moved = t.moved := rfl
@[simp] theorem Team.killReg_walked (t : Team) (n : Nat) : (t.killReg n).walked = t.walked := rfl
@[simp] theorem Team.killReg_issuedAt (t : Team) (n : Nat) : (t.killReg n).issuedAt = t.issuedAt := rfl

/-! ### Team.raise -/

@[simp] theorem Team.raise_key (t : Team) (b : Word) : (t.raise b).key = t.key := rfl
@[simp] theorem Team.raise_cfg (t : Team) (b : Word) : (t.raise b).cfg = t.cfg := rfl
@[simp] theorem Team.raise_die (t : Team) (b : Word) : (t.raise b).die = t.die := rfl
@[simp] theorem Team.raise_core (t : Team) (b : Word) : (t.raise b).core = t.core := rfl
@[simp] theorem Team.raise_part (t : Team) (b : Word) : (t.raise b).part = t.part := rfl
@[simp] theorem Team.raise_slot (t : Team) (b : Word) : (t.raise b).slot = t.slot := rfl
@[simp] theorem Team.raise_pc (t : Team) (b : Word) : (t.raise b).pc = t.pc := rfl
@[simp] theorem Team.raise_repIdx (t : Team) (b : Word) : (t.raise b).repIdx = t.repIdx := rfl
@[simp] theorem Team.raise_mask (t : Team) (b : Word) : (t.raise b).mask = t.mask := rfl
@[simp] theorem Team.raise_stack (t : Team) (b : Word) : (t.raise b).stack = t.stack := rfl
@[simp] theorem Team.raise_regs (t : Team) (b : Word) : (t.raise b).regs = t.regs := rfl
@[simp] theorem Team.raise_dead (t : Team) (b : Word) : (t.raise b).dead = t.dead := rfl
@[simp] theorem Team.raise_latL (t : Team) (b : Word) : (t.raise b).latL = t.latL := rfl
@[simp] theorem Team.raise_latX (t : Team) (b : Word) : (t.raise b).latX = t.latX := rfl
@[simp] theorem Team.raise_latU (t : Team) (b : Word) : (t.raise b).latU = t.latU := rfl
@[simp] theorem Team.raise_ocache (t : Team) (b : Word) : (t.raise b).ocache = t.ocache := rfl
@[simp] theorem Team.raise_rng (t : Team) (b : Word) : (t.raise b).rng = t.rng := rfl
@[simp] theorem Team.raise_status (t : Team) (b : Word) : (t.raise b).status = (t.status ||| b) := rfl
@[simp] theorem Team.raise_trapen (t : Team) (b : Word) : (t.raise b).trapen = t.trapen := rfl
@[simp] theorem Team.raise_priv (t : Team) (b : Word) : (t.raise b).priv = t.priv := rfl
@[simp] theorem Team.raise_cause (t : Team) (b : Word) : (t.raise b).cause = t.cause := rfl
@[simp] theorem Team.raise_epc (t : Team) (b : Word) : (t.raise b).epc = t.epc := rfl
@[simp] theorem Team.raise_faddr (t : Team) (b : Word) : (t.raise b).faddr = t.faddr := rfl
@[simp] theorem Team.raise_flane (t : Team) (b : Word) : (t.raise b).flane = t.flane := rfl
@[simp] theorem Team.raise_tscr (t : Team) (b : Word) : (t.raise b).tscr = t.tscr := rfl
@[simp] theorem Team.raise_smask (t : Team) (b : Word) : (t.raise b).smask = t.smask := rfl
@[simp] theorem Team.raise_sdepth (t : Team) (b : Word) : (t.raise b).sdepth = t.sdepth := rfl
@[simp] theorem Team.raise_ckpt (t : Team) (b : Word) : (t.raise b).ckpt = t.ckpt := rfl
@[simp] theorem Team.raise_fibres (t : Team) (b : Word) : (t.raise b).fibres = t.fibres := rfl
@[simp] theorem Team.raise_allotted (t : Team) (b : Word) : (t.raise b).allotted = t.allotted := rfl
@[simp] theorem Team.raise_accRun (t : Team) (b : Word) : (t.raise b).accRun = t.accRun := rfl
@[simp] theorem Team.raise_tileRun (t : Team) (b : Word) : (t.raise b).tileRun = t.tileRun := rfl
@[simp] theorem Team.raise_openOps (t : Team) (b : Word) : (t.raise b).openOps = t.openOps := rfl
@[simp] theorem Team.raise_batches (t : Team) (b : Word) : (t.raise b).batches = t.batches := rfl
@[simp] theorem Team.raise_nextBatch (t : Team) (b : Word) : (t.raise b).nextBatch = t.nextBatch := rfl
@[simp] theorem Team.raise_pending (t : Team) (b : Word) : (t.raise b).pending = t.pending := rfl
@[simp] theorem Team.raise_loads (t : Team) (b : Word) : (t.raise b).loads = t.loads := rfl
@[simp] theorem Team.raise_sigW (t : Team) (b : Word) : (t.raise b).sigW = t.sigW := rfl
@[simp] theorem Team.raise_sigE0 (t : Team) (b : Word) : (t.raise b).sigE0 = t.sigE0 := rfl
@[simp] theorem Team.raise_sigE1 (t : Team) (b : Word) : (t.raise b).sigE1 = t.sigE1 := rfl
@[simp] theorem Team.raise_sigE2 (t : Team) (b : Word) : (t.raise b).sigE2 = t.sigE2 := rfl
@[simp] theorem Team.raise_park (t : Team) (b : Word) : (t.raise b).park = t.park := rfl
@[simp] theorem Team.raise_active (t : Team) (b : Word) : (t.raise b).active = t.active := rfl
@[simp] theorem Team.raise_age (t : Team) (b : Word) : (t.raise b).age = t.age := rfl
@[simp] theorem Team.raise_entered (t : Team) (b : Word) : (t.raise b).entered = t.entered := rfl
@[simp] theorem Team.raise_order (t : Team) (b : Word) : (t.raise b).order = t.order := rfl
@[simp] theorem Team.raise_expect (t : Team) (b : Word) : (t.raise b).expect = t.expect := rfl
@[simp] theorem Team.raise_moved (t : Team) (b : Word) : (t.raise b).moved = t.moved := rfl
@[simp] theorem Team.raise_walked (t : Team) (b : Word) : (t.raise b).walked = t.walked := rfl
@[simp] theorem Team.raise_issuedAt (t : Team) (b : Word) : (t.raise b).issuedAt = t.issuedAt := rfl

/-! ### Team.voidAll -/

@[simp] theorem Team.voidAll_key (t : Team) : (t.voidAll).key = t.key := rfl
@[simp] theorem Team.voidAll_cfg (t : Team) : (t.voidAll).cfg = t.cfg := rfl
@[simp] theorem Team.voidAll_die (t : Team) : (t.voidAll).die = t.die := rfl
@[simp] theorem Team.voidAll_core (t : Team) : (t.voidAll).core = t.core := rfl
@[simp] theorem Team.voidAll_part (t : Team) : (t.voidAll).part = t.part := rfl
@[simp] theorem Team.voidAll_slot (t : Team) : (t.voidAll).slot = t.slot := rfl
@[simp] theorem Team.voidAll_pc (t : Team) : (t.voidAll).pc = t.pc := rfl
@[simp] theorem Team.voidAll_repIdx (t : Team) : (t.voidAll).repIdx = t.repIdx := rfl
@[simp] theorem Team.voidAll_mask (t : Team) : (t.voidAll).mask = t.mask := rfl
@[simp] theorem Team.voidAll_stack (t : Team) : (t.voidAll).stack = t.stack := rfl
@[simp] theorem Team.voidAll_regs (t : Team) : (t.voidAll).regs = t.regs := rfl
@[simp] theorem Team.voidAll_dead (t : Team) : (t.voidAll).dead = t.dead := rfl
@[simp] theorem Team.voidAll_latL (t : Team) : (t.voidAll).latL = LaneLatches.empty := rfl
@[simp] theorem Team.voidAll_latX (t : Team) : (t.voidAll).latX = LaneLatches.empty := rfl
@[simp] theorem Team.voidAll_latU (t : Team) : (t.voidAll).latU = UniLatches.empty := rfl
@[simp] theorem Team.voidAll_ocache (t : Team) : (t.voidAll).ocache = (t.ocache.map fun e => (e.1, false)) := rfl
@[simp] theorem Team.voidAll_rng (t : Team) : (t.voidAll).rng = t.rng := rfl
@[simp] theorem Team.voidAll_status (t : Team) : (t.voidAll).status = t.status := rfl
@[simp] theorem Team.voidAll_trapen (t : Team) : (t.voidAll).trapen = t.trapen := rfl
@[simp] theorem Team.voidAll_priv (t : Team) : (t.voidAll).priv = t.priv := rfl
@[simp] theorem Team.voidAll_cause (t : Team) : (t.voidAll).cause = t.cause := rfl
@[simp] theorem Team.voidAll_epc (t : Team) : (t.voidAll).epc = t.epc := rfl
@[simp] theorem Team.voidAll_faddr (t : Team) : (t.voidAll).faddr = t.faddr := rfl
@[simp] theorem Team.voidAll_flane (t : Team) : (t.voidAll).flane = t.flane := rfl
@[simp] theorem Team.voidAll_tscr (t : Team) : (t.voidAll).tscr = t.tscr := rfl
@[simp] theorem Team.voidAll_smask (t : Team) : (t.voidAll).smask = t.smask := rfl
@[simp] theorem Team.voidAll_sdepth (t : Team) : (t.voidAll).sdepth = t.sdepth := rfl
@[simp] theorem Team.voidAll_ckpt (t : Team) : (t.voidAll).ckpt = t.ckpt := rfl
@[simp] theorem Team.voidAll_fibres (t : Team) : (t.voidAll).fibres = t.fibres := rfl
@[simp] theorem Team.voidAll_allotted (t : Team) : (t.voidAll).allotted = t.allotted := rfl
@[simp] theorem Team.voidAll_accRun (t : Team) : (t.voidAll).accRun = t.accRun := rfl
@[simp] theorem Team.voidAll_tileRun (t : Team) : (t.voidAll).tileRun = t.tileRun := rfl
@[simp] theorem Team.voidAll_openOps (t : Team) : (t.voidAll).openOps = t.openOps := rfl
@[simp] theorem Team.voidAll_batches (t : Team) : (t.voidAll).batches = t.batches := rfl
@[simp] theorem Team.voidAll_nextBatch (t : Team) : (t.voidAll).nextBatch = t.nextBatch := rfl
@[simp] theorem Team.voidAll_pending (t : Team) : (t.voidAll).pending = t.pending := rfl
@[simp] theorem Team.voidAll_loads (t : Team) : (t.voidAll).loads = t.loads := rfl
@[simp] theorem Team.voidAll_sigW (t : Team) : (t.voidAll).sigW = t.sigW := rfl
@[simp] theorem Team.voidAll_sigE0 (t : Team) : (t.voidAll).sigE0 = t.sigE0 := rfl
@[simp] theorem Team.voidAll_sigE1 (t : Team) : (t.voidAll).sigE1 = t.sigE1 := rfl
@[simp] theorem Team.voidAll_sigE2 (t : Team) : (t.voidAll).sigE2 = t.sigE2 := rfl
@[simp] theorem Team.voidAll_park (t : Team) : (t.voidAll).park = t.park := rfl
@[simp] theorem Team.voidAll_active (t : Team) : (t.voidAll).active = t.active := rfl
@[simp] theorem Team.voidAll_age (t : Team) : (t.voidAll).age = t.age := rfl
@[simp] theorem Team.voidAll_entered (t : Team) : (t.voidAll).entered = t.entered := rfl
@[simp] theorem Team.voidAll_order (t : Team) : (t.voidAll).order = t.order := rfl
@[simp] theorem Team.voidAll_expect (t : Team) : (t.voidAll).expect = t.expect := rfl
@[simp] theorem Team.voidAll_moved (t : Team) : (t.voidAll).moved = t.moved := rfl
@[simp] theorem Team.voidAll_walked (t : Team) : (t.voidAll).walked = t.walked := rfl
@[simp] theorem Team.voidAll_issuedAt (t : Team) : (t.voidAll).issuedAt = t.issuedAt := rfl

/-! ### Team.pass -/

@[simp] theorem Team.pass_key (t : Team) (n : Nat) : (t.pass n).key = t.key := rfl
@[simp] theorem Team.pass_cfg (t : Team) (n : Nat) : (t.pass n).cfg = t.cfg := rfl
@[simp] theorem Team.pass_die (t : Team) (n : Nat) : (t.pass n).die = t.die := rfl
@[simp] theorem Team.pass_core (t : Team) (n : Nat) : (t.pass n).core = t.core := rfl
@[simp] theorem Team.pass_part (t : Team) (n : Nat) : (t.pass n).part = t.part := rfl
@[simp] theorem Team.pass_slot (t : Team) (n : Nat) : (t.pass n).slot = t.slot := rfl
@[simp] theorem Team.pass_pc (t : Team) (n : Nat) : (t.pass n).pc = (t.pc + 4 * n) := rfl
@[simp] theorem Team.pass_repIdx (t : Team) (n : Nat) : (t.pass n).repIdx = 0 := rfl
@[simp] theorem Team.pass_mask (t : Team) (n : Nat) : (t.pass n).mask = t.mask := rfl
@[simp] theorem Team.pass_stack (t : Team) (n : Nat) : (t.pass n).stack = t.stack := rfl
@[simp] theorem Team.pass_regs (t : Team) (n : Nat) : (t.pass n).regs = t.regs := rfl
@[simp] theorem Team.pass_dead (t : Team) (n : Nat) : (t.pass n).dead = t.dead := rfl
@[simp] theorem Team.pass_latL (t : Team) (n : Nat) : (t.pass n).latL = t.latL := rfl
@[simp] theorem Team.pass_latX (t : Team) (n : Nat) : (t.pass n).latX = t.latX := rfl
@[simp] theorem Team.pass_latU (t : Team) (n : Nat) : (t.pass n).latU = t.latU := rfl
@[simp] theorem Team.pass_ocache (t : Team) (n : Nat) : (t.pass n).ocache = t.ocache := rfl
@[simp] theorem Team.pass_rng (t : Team) (n : Nat) : (t.pass n).rng = t.rng := rfl
@[simp] theorem Team.pass_status (t : Team) (n : Nat) : (t.pass n).status = t.status := rfl
@[simp] theorem Team.pass_trapen (t : Team) (n : Nat) : (t.pass n).trapen = t.trapen := rfl
@[simp] theorem Team.pass_priv (t : Team) (n : Nat) : (t.pass n).priv = t.priv := rfl
@[simp] theorem Team.pass_cause (t : Team) (n : Nat) : (t.pass n).cause = t.cause := rfl
@[simp] theorem Team.pass_epc (t : Team) (n : Nat) : (t.pass n).epc = t.epc := rfl
@[simp] theorem Team.pass_faddr (t : Team) (n : Nat) : (t.pass n).faddr = t.faddr := rfl
@[simp] theorem Team.pass_flane (t : Team) (n : Nat) : (t.pass n).flane = t.flane := rfl
@[simp] theorem Team.pass_tscr (t : Team) (n : Nat) : (t.pass n).tscr = t.tscr := rfl
@[simp] theorem Team.pass_smask (t : Team) (n : Nat) : (t.pass n).smask = t.smask := rfl
@[simp] theorem Team.pass_sdepth (t : Team) (n : Nat) : (t.pass n).sdepth = t.sdepth := rfl
@[simp] theorem Team.pass_ckpt (t : Team) (n : Nat) : (t.pass n).ckpt = t.ckpt := rfl
@[simp] theorem Team.pass_fibres (t : Team) (n : Nat) : (t.pass n).fibres = t.fibres := rfl
@[simp] theorem Team.pass_allotted (t : Team) (n : Nat) : (t.pass n).allotted = t.allotted := rfl
@[simp] theorem Team.pass_accRun (t : Team) (n : Nat) : (t.pass n).accRun = t.accRun := rfl
@[simp] theorem Team.pass_tileRun (t : Team) (n : Nat) : (t.pass n).tileRun = t.tileRun := rfl
@[simp] theorem Team.pass_openOps (t : Team) (n : Nat) : (t.pass n).openOps = t.openOps := rfl
@[simp] theorem Team.pass_batches (t : Team) (n : Nat) : (t.pass n).batches = t.batches := rfl
@[simp] theorem Team.pass_nextBatch (t : Team) (n : Nat) : (t.pass n).nextBatch = t.nextBatch := rfl
@[simp] theorem Team.pass_pending (t : Team) (n : Nat) : (t.pass n).pending = t.pending := rfl
@[simp] theorem Team.pass_loads (t : Team) (n : Nat) : (t.pass n).loads = t.loads := rfl
@[simp] theorem Team.pass_sigW (t : Team) (n : Nat) : (t.pass n).sigW = t.sigW := rfl
@[simp] theorem Team.pass_sigE0 (t : Team) (n : Nat) : (t.pass n).sigE0 = t.sigE0 := rfl
@[simp] theorem Team.pass_sigE1 (t : Team) (n : Nat) : (t.pass n).sigE1 = t.sigE1 := rfl
@[simp] theorem Team.pass_sigE2 (t : Team) (n : Nat) : (t.pass n).sigE2 = t.sigE2 := rfl
@[simp] theorem Team.pass_park (t : Team) (n : Nat) : (t.pass n).park = t.park := rfl
@[simp] theorem Team.pass_active (t : Team) (n : Nat) : (t.pass n).active = t.active := rfl
@[simp] theorem Team.pass_age (t : Team) (n : Nat) : (t.pass n).age = t.age := rfl
@[simp] theorem Team.pass_entered (t : Team) (n : Nat) : (t.pass n).entered = t.entered := rfl
@[simp] theorem Team.pass_order (t : Team) (n : Nat) : (t.pass n).order = t.order := rfl
@[simp] theorem Team.pass_expect (t : Team) (n : Nat) : (t.pass n).expect = none := rfl
@[simp] theorem Team.pass_moved (t : Team) (n : Nat) : (t.pass n).moved = false := rfl
@[simp] theorem Team.pass_walked (t : Team) (n : Nat) : (t.pass n).walked = t.walked := rfl
@[simp] theorem Team.pass_issuedAt (t : Team) (n : Nat) : (t.pass n).issuedAt = t.issuedAt := rfl

/-! ### Team.jump -/

@[simp] theorem Team.jump_key (t : Team) (a : Nat) : (t.jump a).key = t.key := rfl
@[simp] theorem Team.jump_cfg (t : Team) (a : Nat) : (t.jump a).cfg = t.cfg := rfl
@[simp] theorem Team.jump_die (t : Team) (a : Nat) : (t.jump a).die = t.die := rfl
@[simp] theorem Team.jump_core (t : Team) (a : Nat) : (t.jump a).core = t.core := rfl
@[simp] theorem Team.jump_part (t : Team) (a : Nat) : (t.jump a).part = t.part := rfl
@[simp] theorem Team.jump_slot (t : Team) (a : Nat) : (t.jump a).slot = t.slot := rfl
@[simp] theorem Team.jump_pc (t : Team) (a : Nat) : (t.jump a).pc = a := rfl
@[simp] theorem Team.jump_repIdx (t : Team) (a : Nat) : (t.jump a).repIdx = 0 := rfl
@[simp] theorem Team.jump_mask (t : Team) (a : Nat) : (t.jump a).mask = t.mask := rfl
@[simp] theorem Team.jump_stack (t : Team) (a : Nat) : (t.jump a).stack = t.stack := rfl
@[simp] theorem Team.jump_regs (t : Team) (a : Nat) : (t.jump a).regs = t.regs := rfl
@[simp] theorem Team.jump_dead (t : Team) (a : Nat) : (t.jump a).dead = t.dead := rfl
@[simp] theorem Team.jump_latL (t : Team) (a : Nat) : (t.jump a).latL = t.latL := rfl
@[simp] theorem Team.jump_latX (t : Team) (a : Nat) : (t.jump a).latX = t.latX := rfl
@[simp] theorem Team.jump_latU (t : Team) (a : Nat) : (t.jump a).latU = t.latU := rfl
@[simp] theorem Team.jump_ocache (t : Team) (a : Nat) : (t.jump a).ocache = t.ocache := rfl
@[simp] theorem Team.jump_rng (t : Team) (a : Nat) : (t.jump a).rng = t.rng := rfl
@[simp] theorem Team.jump_status (t : Team) (a : Nat) : (t.jump a).status = t.status := rfl
@[simp] theorem Team.jump_trapen (t : Team) (a : Nat) : (t.jump a).trapen = t.trapen := rfl
@[simp] theorem Team.jump_priv (t : Team) (a : Nat) : (t.jump a).priv = t.priv := rfl
@[simp] theorem Team.jump_cause (t : Team) (a : Nat) : (t.jump a).cause = t.cause := rfl
@[simp] theorem Team.jump_epc (t : Team) (a : Nat) : (t.jump a).epc = t.epc := rfl
@[simp] theorem Team.jump_faddr (t : Team) (a : Nat) : (t.jump a).faddr = t.faddr := rfl
@[simp] theorem Team.jump_flane (t : Team) (a : Nat) : (t.jump a).flane = t.flane := rfl
@[simp] theorem Team.jump_tscr (t : Team) (a : Nat) : (t.jump a).tscr = t.tscr := rfl
@[simp] theorem Team.jump_smask (t : Team) (a : Nat) : (t.jump a).smask = t.smask := rfl
@[simp] theorem Team.jump_sdepth (t : Team) (a : Nat) : (t.jump a).sdepth = t.sdepth := rfl
@[simp] theorem Team.jump_ckpt (t : Team) (a : Nat) : (t.jump a).ckpt = t.ckpt := rfl
@[simp] theorem Team.jump_fibres (t : Team) (a : Nat) : (t.jump a).fibres = t.fibres := rfl
@[simp] theorem Team.jump_allotted (t : Team) (a : Nat) : (t.jump a).allotted = t.allotted := rfl
@[simp] theorem Team.jump_accRun (t : Team) (a : Nat) : (t.jump a).accRun = t.accRun := rfl
@[simp] theorem Team.jump_tileRun (t : Team) (a : Nat) : (t.jump a).tileRun = t.tileRun := rfl
@[simp] theorem Team.jump_openOps (t : Team) (a : Nat) : (t.jump a).openOps = t.openOps := rfl
@[simp] theorem Team.jump_batches (t : Team) (a : Nat) : (t.jump a).batches = t.batches := rfl
@[simp] theorem Team.jump_nextBatch (t : Team) (a : Nat) : (t.jump a).nextBatch = t.nextBatch := rfl
@[simp] theorem Team.jump_pending (t : Team) (a : Nat) : (t.jump a).pending = t.pending := rfl
@[simp] theorem Team.jump_loads (t : Team) (a : Nat) : (t.jump a).loads = t.loads := rfl
@[simp] theorem Team.jump_sigW (t : Team) (a : Nat) : (t.jump a).sigW = t.sigW := rfl
@[simp] theorem Team.jump_sigE0 (t : Team) (a : Nat) : (t.jump a).sigE0 = t.sigE0 := rfl
@[simp] theorem Team.jump_sigE1 (t : Team) (a : Nat) : (t.jump a).sigE1 = t.sigE1 := rfl
@[simp] theorem Team.jump_sigE2 (t : Team) (a : Nat) : (t.jump a).sigE2 = t.sigE2 := rfl
@[simp] theorem Team.jump_park (t : Team) (a : Nat) : (t.jump a).park = t.park := rfl
@[simp] theorem Team.jump_active (t : Team) (a : Nat) : (t.jump a).active = t.active := rfl
@[simp] theorem Team.jump_age (t : Team) (a : Nat) : (t.jump a).age = t.age := rfl
@[simp] theorem Team.jump_entered (t : Team) (a : Nat) : (t.jump a).entered = t.entered := rfl
@[simp] theorem Team.jump_order (t : Team) (a : Nat) : (t.jump a).order = t.order := rfl
@[simp] theorem Team.jump_expect (t : Team) (a : Nat) : (t.jump a).expect = none := rfl
@[simp] theorem Team.jump_moved (t : Team) (a : Nat) : (t.jump a).moved = true := rfl
@[simp] theorem Team.jump_walked (t : Team) (a : Nat) : (t.jump a).walked = t.walked := rfl
@[simp] theorem Team.jump_issuedAt (t : Team) (a : Nat) : (t.jump a).issuedAt = t.issuedAt := rfl

/-! ### Team.refill -/

@[simp] theorem Team.refill_key (t : Team) (rs : List Nat) : (t.refill rs).key = t.key := rfl
@[simp] theorem Team.refill_cfg (t : Team) (rs : List Nat) : (t.refill rs).cfg = t.cfg := rfl
@[simp] theorem Team.refill_die (t : Team) (rs : List Nat) : (t.refill rs).die = t.die := rfl
@[simp] theorem Team.refill_core (t : Team) (rs : List Nat) : (t.refill rs).core = t.core := rfl
@[simp] theorem Team.refill_part (t : Team) (rs : List Nat) : (t.refill rs).part = t.part := rfl
@[simp] theorem Team.refill_slot (t : Team) (rs : List Nat) : (t.refill rs).slot = t.slot := rfl
@[simp] theorem Team.refill_pc (t : Team) (rs : List Nat) : (t.refill rs).pc = t.pc := rfl
@[simp] theorem Team.refill_repIdx (t : Team) (rs : List Nat) : (t.refill rs).repIdx = t.repIdx := rfl
@[simp] theorem Team.refill_mask (t : Team) (rs : List Nat) : (t.refill rs).mask = t.mask := rfl
@[simp] theorem Team.refill_stack (t : Team) (rs : List Nat) : (t.refill rs).stack = t.stack := rfl
@[simp] theorem Team.refill_regs (t : Team) (rs : List Nat) : (t.refill rs).regs = t.regs := rfl
@[simp] theorem Team.refill_dead (t : Team) (rs : List Nat) : (t.refill rs).dead = t.dead := rfl
@[simp] theorem Team.refill_latL (t : Team) (rs : List Nat) : (t.refill rs).latL = t.latL := rfl
@[simp] theorem Team.refill_latX (t : Team) (rs : List Nat) : (t.refill rs).latX = t.latX := rfl
@[simp] theorem Team.refill_latU (t : Team) (rs : List Nat) : (t.refill rs).latU = t.latU := rfl
@[simp] theorem Team.refill_ocache (t : Team) (rs : List Nat) : (t.refill rs).ocache = (t.ocache.map fun e => (e.1, e.2 || rs.contains e.1)) := rfl
@[simp] theorem Team.refill_rng (t : Team) (rs : List Nat) : (t.refill rs).rng = t.rng := rfl
@[simp] theorem Team.refill_status (t : Team) (rs : List Nat) : (t.refill rs).status = t.status := rfl
@[simp] theorem Team.refill_trapen (t : Team) (rs : List Nat) : (t.refill rs).trapen = t.trapen := rfl
@[simp] theorem Team.refill_priv (t : Team) (rs : List Nat) : (t.refill rs).priv = t.priv := rfl
@[simp] theorem Team.refill_cause (t : Team) (rs : List Nat) : (t.refill rs).cause = t.cause := rfl
@[simp] theorem Team.refill_epc (t : Team) (rs : List Nat) : (t.refill rs).epc = t.epc := rfl
@[simp] theorem Team.refill_faddr (t : Team) (rs : List Nat) : (t.refill rs).faddr = t.faddr := rfl
@[simp] theorem Team.refill_flane (t : Team) (rs : List Nat) : (t.refill rs).flane = t.flane := rfl
@[simp] theorem Team.refill_tscr (t : Team) (rs : List Nat) : (t.refill rs).tscr = t.tscr := rfl
@[simp] theorem Team.refill_smask (t : Team) (rs : List Nat) : (t.refill rs).smask = t.smask := rfl
@[simp] theorem Team.refill_sdepth (t : Team) (rs : List Nat) : (t.refill rs).sdepth = t.sdepth := rfl
@[simp] theorem Team.refill_ckpt (t : Team) (rs : List Nat) : (t.refill rs).ckpt = t.ckpt := rfl
@[simp] theorem Team.refill_fibres (t : Team) (rs : List Nat) : (t.refill rs).fibres = t.fibres := rfl
@[simp] theorem Team.refill_allotted (t : Team) (rs : List Nat) : (t.refill rs).allotted = t.allotted := rfl
@[simp] theorem Team.refill_accRun (t : Team) (rs : List Nat) : (t.refill rs).accRun = t.accRun := rfl
@[simp] theorem Team.refill_tileRun (t : Team) (rs : List Nat) : (t.refill rs).tileRun = t.tileRun := rfl
@[simp] theorem Team.refill_openOps (t : Team) (rs : List Nat) : (t.refill rs).openOps = t.openOps := rfl
@[simp] theorem Team.refill_batches (t : Team) (rs : List Nat) : (t.refill rs).batches = t.batches := rfl
@[simp] theorem Team.refill_nextBatch (t : Team) (rs : List Nat) : (t.refill rs).nextBatch = t.nextBatch := rfl
@[simp] theorem Team.refill_pending (t : Team) (rs : List Nat) : (t.refill rs).pending = t.pending := rfl
@[simp] theorem Team.refill_loads (t : Team) (rs : List Nat) : (t.refill rs).loads = t.loads := rfl
@[simp] theorem Team.refill_sigW (t : Team) (rs : List Nat) : (t.refill rs).sigW = t.sigW := rfl
@[simp] theorem Team.refill_sigE0 (t : Team) (rs : List Nat) : (t.refill rs).sigE0 = t.sigE0 := rfl
@[simp] theorem Team.refill_sigE1 (t : Team) (rs : List Nat) : (t.refill rs).sigE1 = t.sigE1 := rfl
@[simp] theorem Team.refill_sigE2 (t : Team) (rs : List Nat) : (t.refill rs).sigE2 = t.sigE2 := rfl
@[simp] theorem Team.refill_park (t : Team) (rs : List Nat) : (t.refill rs).park = t.park := rfl
@[simp] theorem Team.refill_active (t : Team) (rs : List Nat) : (t.refill rs).active = t.active := rfl
@[simp] theorem Team.refill_age (t : Team) (rs : List Nat) : (t.refill rs).age = t.age := rfl
@[simp] theorem Team.refill_entered (t : Team) (rs : List Nat) : (t.refill rs).entered = t.entered := rfl
@[simp] theorem Team.refill_order (t : Team) (rs : List Nat) : (t.refill rs).order = t.order := rfl
@[simp] theorem Team.refill_expect (t : Team) (rs : List Nat) : (t.refill rs).expect = t.expect := rfl
@[simp] theorem Team.refill_moved (t : Team) (rs : List Nat) : (t.refill rs).moved = t.moved := rfl
@[simp] theorem Team.refill_walked (t : Team) (rs : List Nat) : (t.refill rs).walked = t.walked := rfl
@[simp] theorem Team.refill_issuedAt (t : Team) (rs : List Nat) : (t.refill rs).issuedAt = t.issuedAt := rfl

/-! ### Team.orSig -/

@[simp] theorem Team.orSig_key (t : Team) (g : Sig) : (t.orSig g).key = t.key := rfl
@[simp] theorem Team.orSig_cfg (t : Team) (g : Sig) : (t.orSig g).cfg = t.cfg := rfl
@[simp] theorem Team.orSig_die (t : Team) (g : Sig) : (t.orSig g).die = t.die := rfl
@[simp] theorem Team.orSig_core (t : Team) (g : Sig) : (t.orSig g).core = t.core := rfl
@[simp] theorem Team.orSig_part (t : Team) (g : Sig) : (t.orSig g).part = t.part := rfl
@[simp] theorem Team.orSig_slot (t : Team) (g : Sig) : (t.orSig g).slot = t.slot := rfl
@[simp] theorem Team.orSig_pc (t : Team) (g : Sig) : (t.orSig g).pc = t.pc := rfl
@[simp] theorem Team.orSig_repIdx (t : Team) (g : Sig) : (t.orSig g).repIdx = t.repIdx := rfl
@[simp] theorem Team.orSig_mask (t : Team) (g : Sig) : (t.orSig g).mask = t.mask := rfl
@[simp] theorem Team.orSig_stack (t : Team) (g : Sig) : (t.orSig g).stack = t.stack := rfl
@[simp] theorem Team.orSig_regs (t : Team) (g : Sig) : (t.orSig g).regs = t.regs := rfl
@[simp] theorem Team.orSig_dead (t : Team) (g : Sig) : (t.orSig g).dead = t.dead := rfl
@[simp] theorem Team.orSig_latL (t : Team) (g : Sig) : (t.orSig g).latL = t.latL := rfl
@[simp] theorem Team.orSig_latX (t : Team) (g : Sig) : (t.orSig g).latX = t.latX := rfl
@[simp] theorem Team.orSig_latU (t : Team) (g : Sig) : (t.orSig g).latU = t.latU := rfl
@[simp] theorem Team.orSig_ocache (t : Team) (g : Sig) : (t.orSig g).ocache = t.ocache := rfl
@[simp] theorem Team.orSig_rng (t : Team) (g : Sig) : (t.orSig g).rng = t.rng := rfl
@[simp] theorem Team.orSig_status (t : Team) (g : Sig) : (t.orSig g).status = t.status := rfl
@[simp] theorem Team.orSig_trapen (t : Team) (g : Sig) : (t.orSig g).trapen = t.trapen := rfl
@[simp] theorem Team.orSig_priv (t : Team) (g : Sig) : (t.orSig g).priv = t.priv := rfl
@[simp] theorem Team.orSig_cause (t : Team) (g : Sig) : (t.orSig g).cause = t.cause := rfl
@[simp] theorem Team.orSig_epc (t : Team) (g : Sig) : (t.orSig g).epc = t.epc := rfl
@[simp] theorem Team.orSig_faddr (t : Team) (g : Sig) : (t.orSig g).faddr = t.faddr := rfl
@[simp] theorem Team.orSig_flane (t : Team) (g : Sig) : (t.orSig g).flane = t.flane := rfl
@[simp] theorem Team.orSig_tscr (t : Team) (g : Sig) : (t.orSig g).tscr = t.tscr := rfl
@[simp] theorem Team.orSig_smask (t : Team) (g : Sig) : (t.orSig g).smask = t.smask := rfl
@[simp] theorem Team.orSig_sdepth (t : Team) (g : Sig) : (t.orSig g).sdepth = t.sdepth := rfl
@[simp] theorem Team.orSig_ckpt (t : Team) (g : Sig) : (t.orSig g).ckpt = t.ckpt := rfl
@[simp] theorem Team.orSig_fibres (t : Team) (g : Sig) : (t.orSig g).fibres = t.fibres := rfl
@[simp] theorem Team.orSig_allotted (t : Team) (g : Sig) : (t.orSig g).allotted = t.allotted := rfl
@[simp] theorem Team.orSig_accRun (t : Team) (g : Sig) : (t.orSig g).accRun = t.accRun := rfl
@[simp] theorem Team.orSig_tileRun (t : Team) (g : Sig) : (t.orSig g).tileRun = t.tileRun := rfl
@[simp] theorem Team.orSig_openOps (t : Team) (g : Sig) : (t.orSig g).openOps = t.openOps := rfl
@[simp] theorem Team.orSig_batches (t : Team) (g : Sig) : (t.orSig g).batches = t.batches := rfl
@[simp] theorem Team.orSig_nextBatch (t : Team) (g : Sig) : (t.orSig g).nextBatch = t.nextBatch := rfl
@[simp] theorem Team.orSig_pending (t : Team) (g : Sig) : (t.orSig g).pending = t.pending := rfl
@[simp] theorem Team.orSig_loads (t : Team) (g : Sig) : (t.orSig g).loads = t.loads := rfl
@[simp] theorem Team.orSig_sigW (t : Team) (g : Sig) : (t.orSig g).sigW = (t.sigW ||| g) := rfl
@[simp] theorem Team.orSig_sigE0 (t : Team) (g : Sig) : (t.orSig g).sigE0 = (t.sigE0 ||| g) := rfl
@[simp] theorem Team.orSig_sigE1 (t : Team) (g : Sig) : (t.orSig g).sigE1 = t.sigE1 := rfl
@[simp] theorem Team.orSig_sigE2 (t : Team) (g : Sig) : (t.orSig g).sigE2 = t.sigE2 := rfl
@[simp] theorem Team.orSig_park (t : Team) (g : Sig) : (t.orSig g).park = t.park := rfl
@[simp] theorem Team.orSig_active (t : Team) (g : Sig) : (t.orSig g).active = t.active := rfl
@[simp] theorem Team.orSig_age (t : Team) (g : Sig) : (t.orSig g).age = t.age := rfl
@[simp] theorem Team.orSig_entered (t : Team) (g : Sig) : (t.orSig g).entered = t.entered := rfl
@[simp] theorem Team.orSig_order (t : Team) (g : Sig) : (t.orSig g).order = t.order := rfl
@[simp] theorem Team.orSig_expect (t : Team) (g : Sig) : (t.orSig g).expect = t.expect := rfl
@[simp] theorem Team.orSig_moved (t : Team) (g : Sig) : (t.orSig g).moved = t.moved := rfl
@[simp] theorem Team.orSig_walked (t : Team) (g : Sig) : (t.orSig g).walked = t.walked := rfl
@[simp] theorem Team.orSig_issuedAt (t : Team) (g : Sig) : (t.orSig g).issuedAt = t.issuedAt := rfl

end Sys2Proof.Machine
end

