-- ==== Sys2Proof/Laws/Memory.lean ====
section
/-! SUPPORT. Sparse tables and byte memories: a read after a write, and the canonical form, which every operation on a
memory keeps. -/

namespace Sys2Proof.Machine

/-! ## Tables -/

theorem look_put_self {α : Type} (k : Nat) (v : α) (m : List (Nat × α)) : look k (put k v m) = some v := by
  induction m with
  | nil => simp [put, look]
  | cons e r ih =>
    obtain ⟨j, w⟩ := e
    by_cases h1 : k < j
    · simp [put, look, h1]
    · by_cases h2 : k = j
      · simp [put, look, h2]
      · simp [put, look, h1, h2, ih, Ne.symm h2]

theorem look_put_ne {α : Type} {k j : Nat} (h : j ≠ k) (v : α) (m : List (Nat × α)) : look j (put k v m) = look j m := by
  induction m with
  | nil => simp [put, look, h.symm]
  | cons e r ih =>
    obtain ⟨i, w⟩ := e
    by_cases h1 : k < i
    · simp [put, look, h1, h.symm]
    · by_cases h2 : k = i
      · subst h2; simp [put, look, h.symm]
      · simp [put, look, h1, h2, ih]

theorem look_del_self {α : Type} (k : Nat) (m : List (Nat × α)) : look k (del k m) = none := by
  induction m with
  | nil => rfl
  | cons e r ih =>
    obtain ⟨j, w⟩ := e
    by_cases h : j = k <;> simp [del, look, h, ih]

theorem look_del_ne {α : Type} {k j : Nat} (h : j ≠ k) (m : List (Nat × α)) : look j (del k m) = look j m := by
  induction m with
  | nil => rfl
  | cons e r ih =>
    obtain ⟨i, w⟩ := e
    by_cases h1 : i = k
    · subst h1; simp [del, look, h.symm, ih]
    · simp [del, look, h1, ih]

/-- The keys of a rising table whose first key is above `b`. -/
theorem rising_cons {α : Type} (e : Nat × α) (m : List (Nat × α)) :
    rising (e :: m) = true ↔ (∀ f ∈ m, e.1 < f.1) ∧ rising m = true := by
  induction m generalizing e with
  | nil => simp [rising]
  | cons f r ih =>
    obtain ⟨j, v⟩ := e
    obtain ⟨k, w⟩ := f
    have hk := ih ⟨k, w⟩
    simp only [rising, Bool.and_eq_true, decide_eq_true_eq, List.mem_cons, forall_eq_or_imp, hk]
    exact ⟨fun h => ⟨⟨h.1, fun x hx => Nat.lt_trans h.1 (h.2.1 x hx)⟩, h.2⟩, fun h => ⟨h.1.1, h.2⟩⟩

theorem mem_put {α : Type} {k : Nat} {v : α} {m : List (Nat × α)} {e : Nat × α} (h : e ∈ put k v m) : e = (k, v) ∨ e ∈ m := by
  induction m with
  | nil => simpa [put] using h
  | cons f r ih =>
    obtain ⟨j, w⟩ := f
    by_cases h1 : k < j
    · simpa [put, h1] using h
    · by_cases h2 : k = j
      · subst h2
        simp only [put, Nat.lt_irrefl, if_false, if_true, List.mem_cons] at h
        exact h.imp id (List.mem_cons_of_mem _)
      · simp only [put, h1, h2, if_false, List.mem_cons] at h
        rcases h with h | h
        · exact .inr (by simp [h])
        · exact (ih h).imp id fun x => by simp [x]

theorem rising_put {α : Type} (k : Nat) (v : α) {m : List (Nat × α)} (h : rising m = true) : rising (put k v m) = true := by
  induction m with
  | nil => simp [put, rising]
  | cons f r ih =>
    obtain ⟨j, w⟩ := f
    obtain ⟨hj, hr⟩ := (rising_cons _ _).1 h
    by_cases h1 : k < j
    · simp only [put, h1, if_true]
      refine (rising_cons _ _).2 ⟨fun x hx => ?_, h⟩
      rcases List.mem_cons.1 hx with rfl | hx
      · exact h1
      · exact Nat.lt_trans h1 (hj x hx)
    · by_cases h2 : k = j
      · subst h2
        simp only [put, Nat.lt_irrefl, if_false, if_true]
        exact (rising_cons _ _).2 ⟨hj, hr⟩
      · simp only [put, h1, h2, if_false]
        refine (rising_cons _ _).2 ⟨fun x hx => ?_, ih hr⟩
        rcases mem_put hx with rfl | hx
        · simp only; omega
        · exact hj x hx

theorem mem_of_mem_del {α : Type} {k : Nat} {m : List (Nat × α)} {e : Nat × α} (h : e ∈ del k m) : e ∈ m := by
  induction m with
  | nil => exact h
  | cons f r ih =>
    obtain ⟨j, w⟩ := f
    by_cases h1 : j = k
    · simp only [del, h1, if_true] at h
      exact List.mem_cons_of_mem _ (ih h)
    · simp only [del, h1, if_false, List.mem_cons] at h
      rcases h with rfl | h
      · exact List.mem_cons_self
      · exact List.mem_cons_of_mem _ (ih h)

theorem rising_del {α : Type} (k : Nat) {m : List (Nat × α)} (h : rising m = true) : rising (del k m) = true := by
  induction m with
  | nil => rfl
  | cons f r ih =>
    obtain ⟨j, w⟩ := f
    obtain ⟨hj, hr⟩ := (rising_cons _ _).1 h
    by_cases h1 : j = k
    · simp only [del, h1, if_true]; exact ih hr
    · simp only [del, h1, if_false]
      exact (rising_cons _ _).2 ⟨fun x hx => hj x (mem_of_mem_del hx), ih hr⟩

theorem rising_filter {α : Type} (p : Nat × α → Bool) {m : List (Nat × α)} (h : rising m = true) :
    rising (m.filter p) = true := by
  induction m with
  | nil => rfl
  | cons f r ih =>
    obtain ⟨hj, hr⟩ := (rising_cons _ _).1 h
    rw [List.filter_cons]
    split
    · exact (rising_cons _ _).2 ⟨fun x hx => hj x (List.mem_of_mem_filter hx), ih hr⟩
    · exact ih hr

/-! ## Byte memories -/

theorem Memory.read_write_self (m : Memory) (a : Nat) (b : Byte) : Memory.read (Memory.write m a b) a = b := by
  unfold Memory.read Memory.write
  split
  · simp_all [look_del_self]
  · simp [look_put_self]

theorem Memory.read_write_ne (m : Memory) {a c : Nat} (h : c ≠ a) (b : Byte) :
    Memory.read (Memory.write m a b) c = Memory.read m c := by
  unfold Memory.read Memory.write
  split
  · rw [look_del_ne h]
  · rw [look_put_ne h]

theorem Memory.wf_iff (m : Memory) : Memory.wf m = true ↔ rising m = true ∧ ∀ c ∈ m, c.2 ≠ Memory.fill := by
  simp [Memory.wf]

theorem Memory.write_wf {m : Memory} (h : Memory.wf m = true) (a : Nat) (b : Byte) : Memory.wf (Memory.write m a b) = true := by
  obtain ⟨h1, h2⟩ := (Memory.wf_iff m).1 h
  unfold Memory.write
  split
  · exact (Memory.wf_iff _).2 ⟨rising_del a h1, fun c hc => h2 c (mem_of_mem_del hc)⟩
  · refine (Memory.wf_iff _).2 ⟨rising_put a b h1, fun c hc => ?_⟩
    rcases mem_put hc with rfl | hc
    · assumption
    · exact h2 c hc

theorem Memory.writeN_wf {m : Memory} (h : Memory.wf m = true) (a : Nat) (bs : List Byte) :
    Memory.wf (Memory.writeN m a bs) = true := by
  induction bs generalizing m a with
  | nil => exact h
  | cons b bs ih => exact ih (Memory.write_wf h a b) (a + 1)

theorem Memory.writes_wf {m : Memory} (h : Memory.wf m = true) (f : Nat × Byte → Nat) (bs : List (Nat × Byte)) :
    Memory.wf (bs.foldl (fun m b => Memory.write m (f b) b.2) m) = true := by
  induction bs generalizing m with
  | nil => exact h
  | cons b bs ih => exact ih (Memory.write_wf h _ _)

theorem Memory.filter_wf {m : Memory} (h : Memory.wf m = true) (p : Host.Cell → Bool) :
    Memory.wf (m.filter p) = true := by
  obtain ⟨h1, h2⟩ := (Memory.wf_iff m).1 h
  exact (Memory.wf_iff _).2 ⟨rising_filter p h1, fun c hc => h2 c (List.mem_of_mem_filter hc)⟩

theorem Memory.read_writeN_outside (m : Memory) (a : Nat) (bs : List Byte) {c : Nat} (h : c < a ∨ a + bs.length ≤ c) :
    Memory.read (Memory.writeN m a bs) c = Memory.read m c := by
  induction bs generalizing m a with
  | nil => rfl
  | cons b bs ih =>
    simp only [List.length_cons] at h
    rw [Memory.writeN, ih _ _ (by omega), Memory.read_write_ne _ (by omega)]

/-- Two memories in canonical form that read alike are equal. -/
theorem look_ext {α : Type} {m n : List (Nat × α)} (hm : rising m = true) (hn : rising n = true)
    (h : ∀ k, look k m = look k n) : m = n := by
  induction m generalizing n with
  | nil =>
    cases n with
    | nil => rfl
    | cons e r => have := h e.1; simp [look] at this
  | cons e r ih =>
    cases n with
    | nil => have := h e.1; simp [look] at this
    | cons f q =>
      obtain ⟨he, hr⟩ := (rising_cons _ _).1 hm
      obtain ⟨hf, hq⟩ := (rising_cons _ _).1 hn
      have none_of {m : List (Nat × α)} {k : Nat} (hk : ∀ x ∈ m, k < x.1) : look k m = none := by
        induction m with
        | nil => rfl
        | cons x xs ihx =>
          have := hk x List.mem_cons_self
          simp only [look]
          rw [if_neg (by omega)]
          exact ihx fun y hy => hk y (List.mem_cons_of_mem _ hy)
      have hef : e.1 = f.1 := by
        rcases Nat.lt_trichotomy e.1 f.1 with hlt | heq | hlt
        · have := h e.1
          rw [none_of (m := f :: q)] at this
          · simp [look] at this
          · intro x hx
            rcases List.mem_cons.1 hx with rfl | hx
            · exact hlt
            · exact Nat.lt_trans hlt (hf x hx)
        · exact heq
        · have := h f.1
          rw [none_of (m := e :: r)] at this
          · simp [look] at this
          · intro x hx
            rcases List.mem_cons.1 hx with rfl | hx
            · exact hlt
            · exact Nat.lt_trans hlt (he x hx)
      have hv : e = f := by
        have := h e.1
        simp only [look, hef, if_true, Option.some.injEq] at this
        exact Prod.ext hef this
      subst hv
      rw [ih hr hq fun k => ?_]
      by_cases hk : e.1 = k
      · subst hk; rw [none_of he, none_of hf]
      · have := h k
        simpa [look, hk] using this

/-! ## The memory operations of the machine -/

@[simp] theorem State.countUnits_dram (s : State) (off lo w n : Nat) : (s.countUnits off lo w n).dram = s.dram := by
  simp only [State.countUnits, State.count_dram]
@[simp] theorem State.clearPoison_dram (s : State) (n : Nat) : (s.clearPoison n).dram = s.dram := rfl
@[simp] theorem State.markPoison_dram (s : State) (n : Nat) : (s.markPoison n).dram = s.dram := rfl
@[simp] theorem State.countDrop_dram (s : State) (n : Nat) : (s.countDrop n).dram = s.dram := State.count_dram s _ _ _ _

@[simp] theorem State.countBurst_dram (s : State) (stack lo : Nat) : (s.countBurst stack lo).dram = s.dram :=
  (State.nextTick_dram _).trans ((State.count_dram _ _ _ _ _).trans
    ((State.countUnits_dram _ _ _ _ _).trans (State.countUnits_dram _ _ _ _ _)))

@[simp] theorem State.cancelScrub_dram (s : State) (n : Nat) : (s.cancelScrub n).dram = s.dram := by
  simp only [State.cancelScrub]
  split
  · split
    · exact State.setStk_dram _ _ _
    · rfl
  · rfl

/-- A sector write keeps the stacks' canonical form (R50, R62). -/
theorem State.putSector_wf {s : State} (h : Memory.wf s.dram = true) (n : Nat) (whole : Bool) (bs : List (Nat × Byte)) :
    Memory.wf (s.putSector n whole bs).dram = true := by
  have key (u v : State) (hu : Memory.wf u.dram = true) (hv : Memory.wf v.dram = true) (stack : Nat) :
      Memory.wf (if u.isPoisoned n then (u.count (STK stack 0x48) 16 16 1).countDrop
        else { v with dram := bs.foldl (fun m (b : Nat × Byte) => Memory.write m (32 * n + b.1) b.2) v.dram }.countBurst
          stack 0).dram = true := by
    split
    · rw [State.countDrop_dram, State.count_dram]; exact hu
    · rw [State.countBurst_dram]
      exact Memory.writes_wf hv (fun b => 32 * n + b.1) bs
  have hc : Memory.wf (s.cancelScrub n).dram = true := by rw [State.cancelScrub_dram]; exact h
  unfold State.putSector
  cases whole with
  | true =>
    have hu : Memory.wf ((s.cancelScrub n).clearPoison n).dram = true := by rw [State.clearPoison_dram]; exact hc
    exact key _ _ hu hu _
  | false =>
    have hu : Memory.wf ((s.cancelScrub n).count (STK (sectorStack n) 0x48) 32 32 1).dram = true := by
      rw [State.count_dram]; exact hc
    have hv : Memory.wf (((s.cancelScrub n).count (STK (sectorStack n) 0x48) 32 32 1).countBurst (sectorStack n) 32).dram
        = true := by rw [State.countBurst_dram]; exact hu
    exact key _ _ hu hv _

end Sys2Proof.Machine
end

