-- ==== Sys2Proof/Laws/Canonical.lean ====
section
/-! SUPPORT. Every operation on the memory of the device keeps its sparse contents in their canonical form: writes to the
homes and to the stacks, write-backs, revocations and registrations. -/

namespace Sys2Proof.Machine

theorem canonical_of_eq {s u : State} (h : Canonical s) (hd : u.dram = s.dram) (hl : u.l2 = s.l2) : Canonical u := by
  unfold Canonical; rw [hd, hl]; exact h

theorem foldl_canonical {β : Type} {f : State → β → State} (hf : ∀ s x, Canonical s → Canonical (f s x)) (l : List β)
    {s : State} (h : Canonical s) : Canonical (l.foldl f s) := by
  induction l generalizing s with
  | nil => exact h
  | cons x xs ih => exact ih (hf s x h)

/-! ## Counters and logs -/

theorem setMreg_canonical {s : State} (h : Canonical s) (off : Nat) (v : DWord) : Canonical (s.setMreg off v) := h
theorem setField_canonical {s : State} (h : Canonical s) (off lo w x : Nat) : Canonical (s.setField off lo w x) :=
  setMreg_canonical h _ _
theorem count_canonical {s : State} (h : Canonical s) (off lo w n : Nat) : Canonical (s.count off lo w n) :=
  setField_canonical h _ _ _ _
theorem countDie_canonical {s : State} (h : Canonical s) (d : Nat) (c : DieCnt) (n : Nat) : Canonical (s.countDie d c n) :=
  count_canonical h _ _ _ _
theorem countDrop_canonical {s : State} (h : Canonical s) (n : Nat) : Canonical (s.countDrop n) := count_canonical h _ _ _ _

@[simp] theorem State.countUnits_l2 (s : State) (off lo w n : Nat) : (s.countUnits off lo w n).l2 = s.l2 := by
  simp only [State.countUnits, State.count_l2]

theorem countUnits_canonical {s : State} (h : Canonical s) (off lo w n : Nat) : Canonical (s.countUnits off lo w n) :=
  canonical_of_eq h (State.countUnits_dram _ _ _ _ _) (State.countUnits_l2 _ _ _ _ _)

@[simp] theorem State.countBurst_l2 (s : State) (stack lo : Nat) : (s.countBurst stack lo).l2 = s.l2 :=
  (State.nextTick_l2 _).trans ((State.count_l2 _ _ _ _ _).trans
    ((State.countUnits_l2 _ _ _ _ _).trans (State.countUnits_l2 _ _ _ _ _)))

theorem countBurst_canonical {s : State} (h : Canonical s) (stack lo : Nat) : Canonical (s.countBurst stack lo) :=
  canonical_of_eq h (State.countBurst_dram _ _ _) (State.countBurst_l2 _ _ _)

@[simp] theorem State.logError_dram (s : State) (d : Nat) (agent : Word) (code detail addr : Nat) :
    (s.logError d agent code detail addr).dram = s.dram := by
  have key (b : Bool) (u : State) : (if b then u.countDie d .eloglost else u).dram = u.dram := by
    split
    · exact State.countDie_dram _ _ _ _
    · rfl
  simp only [State.logError, State.count_dram, State.setField_dram]
  exact (key _ _).trans (State.modDie_dram _ _ _)

@[simp] theorem State.logError_l2 (s : State) (d : Nat) (agent : Word) (code detail addr : Nat) :
    (s.logError d agent code detail addr).l2 = s.l2 := by
  have key (b : Bool) (u : State) : (if b then u.countDie d .eloglost else u).l2 = u.l2 := by
    split
    · exact State.countDie_l2 _ _ _ _
    · rfl
  simp only [State.logError, State.count_l2, State.setField_l2]
  exact (key _ _).trans (State.modDie_l2 _ _ _)

theorem logError_canonical {s : State} (h : Canonical s) (d : Nat) (agent : Word) (code detail addr : Nat) :
    Canonical (s.logError d agent code detail addr) :=
  canonical_of_eq h (State.logError_dram _ _ _ _ _ _) (State.logError_l2 _ _ _ _ _ _)

theorem deliverPoison_canonical {s : State} (h : Canonical s) (d addr : Nat) : Canonical (s.deliverPoison d addr) :=
  logError_canonical (count_canonical h _ _ _ _) _ _ _ _ _

/-! ## The stacks (R50, R60, R62) -/

@[simp] theorem State.cancelScrub_l2 (s : State) (n : Nat) : (s.cancelScrub n).l2 = s.l2 := by
  simp only [State.cancelScrub]
  split
  · split
    · exact State.setStk_l2 _ _ _
    · rfl
  · rfl

@[simp] theorem State.putSector_l2 (s : State) (n : Nat) (whole : Bool) (bs : List (Nat × Byte)) : (s.putSector n whole bs).l2 = s.l2 := by
  have key (u v : State) (stack : Nat) (hu : u.l2 = s.l2) (hv : v.l2 = s.l2) :
      (if u.isPoisoned n then (u.count (STK stack 0x48) 16 16 1).countDrop
        else { v with dram := bs.foldl (fun m (b : Nat × Byte) => Memory.write m (32 * n + b.1) b.2) v.dram }.countBurst
          stack 0).l2 = s.l2 := by
    split
    · exact (State.count_l2 _ _ _ _ _).trans ((State.count_l2 _ _ _ _ _).trans hu)
    · rw [State.countBurst_l2]; exact hv
  have hc : (s.cancelScrub n).l2 = s.l2 := State.cancelScrub_l2 s n
  unfold State.putSector
  cases whole with
  | true => exact key _ _ _ hc hc
  | false =>
    have hu := (State.count_l2 (s.cancelScrub n) (STK (sectorStack n) 0x48) 32 32 1).trans hc
    exact key _ _ _ hu ((State.countBurst_l2 _ _ _).trans hu)

theorem putSector_canonical {s : State} (h : Canonical s) (n : Nat) (whole : Bool) (bs : List (Nat × Byte)) :
    Canonical (s.putSector n whole bs) := ⟨State.putSector_wf h.1 n whole bs, by rw [State.putSector_l2]; exact h.2⟩

theorem writeSector_canonical {s : State} (h : Canonical s) (n : Nat) (bs : List (Nat × Byte)) : Canonical (s.writeSector n bs) :=
  putSector_canonical h _ _ _

theorem enableSector_canonical {s : State} (h : Canonical s) (n : Nat) (w : List (Nat × Byte × Byte)) : Canonical (s.enableSector n w) :=
  putSector_canonical h _ _ _

theorem hear_canonical {s : State} (h : Canonical s) (c : Nat) : Canonical (s.hear c) := h

theorem backInvalidate_canonical {s : State} (h : Canonical s) (lines : List Nat) : Canonical (backInvalidate s lines) := by
  unfold backInvalidate
  dsimp only
  split
  · exact h
  · refine foldl_canonical (fun u x hu => ?_) _ ?_
    · exact hu
    · exact h

theorem cancelScrub_canonical {s : State} (h : Canonical s) (n : Nat) : Canonical (s.cancelScrub n) :=
  canonical_of_eq h (State.cancelScrub_dram _ _) (State.cancelScrub_l2 _ _)

theorem filterL2_canonical {s : State} (h : Canonical s) (p : Host.Cell → Bool) :
    Canonical { s with l2 := s.l2.filter p } := ⟨h.1, rising_filter p h.2⟩

theorem writeBackSector_canonical {s : State} (h : Canonical s) (sec : Nat) : Canonical (writeBackSector s sec) := by
  unfold writeBackSector
  dsimp only
  split
  · exact h
  · split
    · exact writeSector_canonical (filterL2_canonical h _) _ _
    · exact countDrop_canonical (filterL2_canonical h _) _

theorem writeBackAll_canonical {s : State} (h : Canonical s) : Canonical (writeBackAll s) :=
  foldl_canonical (fun _ _ hs => writeBackSector_canonical hs _) _ h

theorem storeDirect_canonical {s : State} (h : Canonical s) (a : Nat) (bs : List Byte) : Canonical (storeDirect s a bs) := by
  refine foldl_canonical (fun u x hu => ?_) _ (backInvalidate_canonical h _)
  have hf (p : Host.Cell → Bool) (q : Nat → Bool) :
      Canonical { u with l2 := u.l2.filter p, l2held := u.l2held.filter q } := ⟨hu.1, rising_filter p hu.2⟩
  dsimp only
  split
  · exact writeSector_canonical (hf _ _) _ _
  · exact countDrop_canonical (hf _ _) _

theorem moveSector_canonical {s : State} (h : Canonical s) (src dst : Nat) : Canonical (moveSector s src dst) := by
  have hb := countBurst_canonical (countBurst_canonical h (sectorStack src) 32) (sectorStack dst) 0
  have key (u : State) (hu : Canonical u) (bs : List Byte) : Canonical
      (let v : State := { u with dram := Memory.writeN u.dram (32 * dst) bs }
       if v.isPoisoned src then v.markPoison dst else v.clearPoison dst) := by
    have h1 : Canonical { u with dram := Memory.writeN u.dram (32 * dst) bs } := ⟨Memory.writeN_wf hu.1 _ _, hu.2⟩
    dsimp only
    split <;> exact h1
  exact key _ hb _

theorem copyRow_canonical {s : State} (h : Canonical s) (stack : Nat) (p : Parked) (row : Nat) (back : Bool) :
    Canonical (copyRow s stack p row back) := by
  refine foldl_canonical (fun u x hu => ?_) _ ?_
  · dsimp only
    split
    · split <;> exact moveSector_canonical hu _ _
    · exact hu
  · split
    · exact h
    · exact backInvalidate_canonical h _

theorem storeParkRecord_canonical {s : State} (h : Canonical s) (d : Nat) (p : Option (Nat × Parked)) :
    Canonical (storeParkRecord s d p) := by
  refine foldl_canonical (fun u x hu => ?_) _ h
  split
  · exact putSector_canonical hu _ _ _
  · exact hu

/-! ## The homes (R20, R37, R50, R62) -/

theorem dropL2_canonical {s : State} (h : Canonical s) (sec : Nat) : Canonical (dropL2 s sec) := writeBackSector_canonical h sec

theorem roomL2_canonical {s : State} (h : Canonical s) (d : Nat) : Canonical (roomL2 s d) := by
  unfold roomL2
  split
  · exact h
  · dsimp only
    split
    · exact h
    · exact dropL2_canonical (s := s.nextTick) h _

theorem fetchSector_canonical {s : State} (h : Canonical s) (sec : Nat) : Canonical (fetchSector s sec) := by
  unfold fetchSector
  split
  · exact h
  · dsimp only
    split
    · exact countBurst_canonical h _ _
    · exact roomL2_canonical (countBurst_canonical h _ _) _

theorem askHome_canonical {s : State} (h : Canonical s) (ws : List Nat) : Canonical (askHome s ws) := by
  have hh (l : List Nat) : Canonical (l.foldl State.hear s) := foldl_canonical (fun _ _ hs => hear_canonical hs _) _ h
  unfold askHome
  dsimp only
  split
  · exact hh _
  · exact foldl_canonical (fun _ _ hs => fetchSector_canonical hs _) _ (countDie_canonical (hh _) _ _ _)

theorem deliverSectors_canonical {s : State} (h : Canonical s) (secs : List Nat) : Canonical (deliverSectors s secs) :=
  foldl_canonical (fun _ _ hs => deliverPoison_canonical hs _ _) _ h

theorem writeL2_canonical {s : State} (h : Canonical s) (sec : Nat) (w : EnWrite) : Canonical (writeL2 s sec w) := by
  refine foldl_canonical (fun (u : State) (x : Nat × Byte × Byte) (hu : Canonical u) =>
    (⟨hu.1, rising_put x.1 _ hu.2⟩ : Canonical { u with l2 := put x.1 _ u.l2 })) _ ?_
  split
  · exact h
  · exact roomL2_canonical h _

theorem homeWriteSector_canonical {s : State} (h : Canonical s) (enabled : Bool) (sec : Nat) (w : EnWrite) :
    Canonical (homeWriteSector s enabled sec w) := by
  unfold homeWriteSector
  split
  · exact countDrop_canonical h _
  · dsimp only
    split
    · exact writeL2_canonical h _ _
    · split
      · exact enableSector_canonical h _ _
      · have key (u : State) (hu : Canonical u) (b : Bool) (n : Nat) (x : List (Nat × Byte × Byte)) :
            Canonical (if b then u else u.enableSector n x) := by
          split
          · exact hu
          · exact enableSector_canonical hu _ _
        refine key _ ?_ _ _ _
        split
        · exact h
        · exact writeL2_canonical h _ _

theorem noteTorn_canonical {s : State} (h : Canonical s) (old : State) (w : EnWrite) : Canonical (noteTorn old s w) := by
  unfold noteTorn
  dsimp only
  split
  · exact h
  · refine foldl_canonical (fun u x hu => ?_) _ h
    split
    · exact hu
    · split <;> exact hu

theorem homeWrite_canonical {s : State} (h : Canonical s) (w : EnWrite) (enabled : Bool) : Canonical (homeWrite s w enabled) :=
  noteTorn_canonical (foldl_canonical (fun _ _ hs => homeWriteSector_canonical hs _ _ _) _ (backInvalidate_canonical h _)) _ _

theorem updateCan_canonical {s : State} (h : Canonical s) (c w : Nat) (v mask : Word) : Canonical (updateCan s c w v mask) := by
  unfold updateCan
  dsimp only
  split
  · exact h
  · split <;> exact h

theorem writeHomeWord_canonical {s : State} (h : Canonical s) (c w : Nat) (v : Word) : Canonical (writeHomeWord s c w v) :=
  updateCan_canonical (homeWrite_canonical (hear_canonical h c) _ _) _ _ _ _

/-! ## Registrations (R183, R185, R191, R199) -/

theorem setL1_canonical {s : State} (h : Canonical s) (c w : Nat) (x : L1Word) : Canonical (setL1 s c w x) := h
theorem dropL1_canonical {s : State} (h : Canonical s) (c w : Nat) : Canonical (dropL1 s c w) := h
theorem registrants_canonical {s : State} (h : Canonical s) (r : List (Nat × Nat)) :
    Canonical { s with registrants := r } := h

theorem revokeWord_canonical {s : State} (h : Canonical s) (w : Nat) : Canonical (revokeWord s w) := by
  unfold revokeWord
  split
  · exact h
  · refine registrants_canonical ?_ _
    split
    · refine dropL1_canonical ?_ _ _
      split
      · exact writeHomeWord_canonical h _ _ _
      · exact h
    · exact h

theorem dropStore_canonical {s : State} (h : Canonical s) (c w : Nat) : Canonical (dropStore s c w) := by
  refine countDrop_canonical (dropL1_canonical ?_ c w) _
  split
  · exact h
  · exact h

theorem registerWord_canonical {s : State} (h : Canonical s) (c w : Nat) : Canonical (registerWord s c w) := by
  have key (u : State) (hu : Canonical u) : Canonical (match l1Word u c w with
      | some x => setL1 u c w { x with reg := true, pend := false }
      | none => u) := by
    split
    · exact setL1_canonical hu _ _ _
    · exact hu
  unfold registerWord
  split
  · exact dropStore_canonical h _ _
  refine key _ ?_
  split
  · exact h
  · exact registrants_canonical (backInvalidate_canonical (hear_canonical (revokeWord_canonical h w) c) _) _

theorem registerPair_canonical {s : State} (h : Canonical s) (c w : Nat) : Canonical (registerPair s c w) := by
  unfold registerPair
  dsimp only
  split
  · exact registerWord_canonical (registerWord_canonical h _ _) _ _
  · exact registerWord_canonical h _ _

theorem drainWord_canonical {s : State} (h : Canonical s) (c w : Nat) : Canonical (drainWord s c w) := by
  unfold drainWord
  split
  · split
    · exact h
    · split
      · exact dropStore_canonical h _ _
      · exact setL1_canonical (writeHomeWord_canonical (registerPair_canonical h _ _) _ _ _) _ _ _
  · exact h

theorem drainCore_canonical {s : State} (h : Canonical s) (c : Nat) : Canonical (drainCore s c) := by
  refine foldl_canonical (fun u x hu => ?_) _ h
  split
  · exact drainWord_canonical hu _ _
  · exact hu

theorem giveUpBlock_canonical {s : State} (h : Canonical s) (r w : Nat) : Canonical (giveUpBlock s r w) := by
  refine foldl_canonical (fun u x hu => registrants_canonical ?_ _) _ (drainCore_canonical h r)
  split
  · refine dropL1_canonical ?_ _ _
    split
    · exact writeHomeWord_canonical hu _ _ _
    · exact hu
  · exact hu

theorem revoke_canonical {s : State} (h : Canonical s) (w : Nat) : Canonical (revoke s w) := by
  unfold revoke
  split
  · exact h
  · split
    · split
      · exact giveUpBlock_canonical h _ _
      · exact revokeWord_canonical h _
    · exact revokeWord_canonical h _

theorem evict_canonical {s : State} (h : Canonical s) (c w : Nat) : Canonical (evict s c w) := by
  unfold evict
  split
  · exact revoke_canonical h _
  · split
    · split
      · exact revokeWord_canonical (registerPair_canonical h _ _) _
      · exact h
    · exact h

theorem revokeBlockBut_canonical {s : State} (h : Canonical s) (c w : Nat) : Canonical (revokeBlockBut s c w) := by
  refine foldl_canonical (fun u x hu => ?_) _ h
  dsimp only
  split
  · split
    · exact hu
    · exact revoke_canonical hu _
  · exact hu

theorem roomL1_canonical {s : State} (h : Canonical s) (c w : Nat) : Canonical (roomL1 s c w) := by
  unfold roomL1
  dsimp only
  split
  · exact h
  · split
    · exact h
    · exact foldl_canonical (fun _ _ hs => evict_canonical hs _ _) _ (s := s.nextTick) h

theorem fillL1_canonical {s : State} (h : Canonical s) (c w : Nat) (x : L1Word) : Canonical (fillL1 s c w x) :=
  setL1_canonical (roomL1_canonical h c w) _ _ _

theorem registerBlock_canonical {s : State} (h : Canonical s) (c w : Nat) : Canonical (registerBlock s c w) := by
  refine foldl_canonical (fun u x hu => ?_) _ (backInvalidate_canonical (hear_canonical (revokeBlockBut_canonical h c w) c) _)
  dsimp only
  split
  · exact registrants_canonical hu _
  · exact fillL1_canonical (registrants_canonical hu _) _ _ _

/-! ## Bulk writes (R203) -/

theorem storeBulk_canonical {s : State} (h : Canonical s) (w : EnWrite) : Canonical (storeBulk s w) :=
  homeWrite_canonical (foldl_canonical (fun _ _ hs => revoke_canonical hs _) _ h) _ _

theorem sendRemote_canonical {s : State} (h : Canonical s) (w : EnWrite) : Canonical (sendRemote s w) :=
  foldl_canonical (f := fun s (x : Nat × Byte × Byte) => s.emit (.remoteWrite x.1 x.2.1 x.2.2)) (fun _ _ hs => hs) w h

theorem bulkWrite_canonical {s : State} (h : Canonical s) (w : EnWrite) : Canonical (bulkWrite s w).2 := by
  unfold bulkWrite
  dsimp only
  have hb := storeBulk_canonical (s := s) h
  split
  · exact hb _
  · split
    · exact hb _
    · split
      · exact hb _
      · exact sendRemote_canonical (s := (storeBulk s _).nextTick) (hb _) _

end Sys2Proof.Machine
end

