-- ==== Sys2Proof/Laws/Issue.lean ====
section
/-! SUPPORT. Issue: what the shared frames of lane, uniform and closing instructions do when the instruction issues and
waits for nothing; the provers cite these and need not unfold the frames. -/

namespace Sys2Proof.Machine

/-! ## Lists by place -/

theorem modifyAt_set {α : Type} (f : α → α) (k : Nat) (xs : List α) (x : α) (h : xs[k]? = some x) :
    modifyAt f k xs = xs.set k (f x) := by
  induction xs generalizing k with
  | nil => simp at h
  | cons y ys ih =>
    cases k with
    | zero => simp only [List.getElem?_cons_zero, Option.some.injEq] at h; subst h; rfl
    | succ k => simp only [List.getElem?_cons_succ] at h; simp [modifyAt, ih k h]

theorem set_self {α : Type} (xs : List α) (k : Nat) (x : α) (h : xs[k]? = some x) : xs.set k x = xs := by
  obtain ⟨hk, rfl⟩ := List.getElem?_eq_some_iff.1 h
  exact List.set_getElem_self hk

theorem State.setTeam_self {s : State} {k : Nat} {t : Team} (h : s.teams[k]? = some t) : s.setTeam k t = s := by
  have : s.teams.set k t = s.teams := set_self _ _ _ h
  unfold State.setTeam
  rw [this]

theorem State.modTeam_eq {s : State} {k : Nat} {t : Team} (h : s.teams[k]? = some t) (f : Team → Team) :
    s.modTeam k f = s.setTeam k (f t) := by
  unfold State.modTeam State.setTeam
  rw [modifyAt_set f k s.teams t h]

theorem State.setTeam_setTeam (s : State) (k : Nat) (t u : Team) : (s.setTeam k t).setTeam k u = s.setTeam k u := by
  unfold State.setTeam
  simp only [List.set_set]

theorem State.setTeam_get {s : State} {k : Nat} {t : Team} (h : s.teams[k]? = some t) (u : Team) :
    (s.setTeam k u).teams[k]? = some u := by
  obtain ⟨hk, -⟩ := List.getElem?_eq_some_iff.1 h
  simp [hk]

theorem withTeam_eq {s : State} {t : Team} (h : s.teams[s.cur]? = some t) (f : Team → State) :
    withTeam s f = .next (f t) := by
  unfold withTeam
  rw [h]

/-! ## Waits (R152, R166) -/

theorem startRep_eq {s : State} {t : Team} {rep : Option Rep} (h : s.teams[s.cur]? = some t)
    (h0 : rep = none → t.repIdx = 0) : startRep s rep = s := by
  unfold startRep
  rw [State.modTeam_eq h]
  have : (if rep.isSome then t.repIdx else 0) = t.repIdx := by
    cases rep with
    | none => simp [h0 rfl]
    | some r => simp
  rw [this]
  exact State.setTeam_self h

/-- No load is performed where the test names none. -/
theorem splitLoads_none {p : LoadReq → Bool} {rs : List LoadReq} (hp : rs.any p = false) : splitLoads p rs = ([], rs, []) := by
  induction rs with
  | nil => rfl
  | cons r rs ih =>
    rw [List.any_cons, Bool.or_eq_false_iff] at hp
    have hw : (r.words.any fun w => ([] : List Nat).contains w) = false := by simp
    simp only [splitLoads, ih hp.2, hp.1, hw, Bool.or_self, Bool.false_eq_true, if_false]

theorem settleLoads_none {s : State} {k : Nat} {t : Team} {p : LoadReq → Bool} (h : s.teams[k]? = some t)
    (hp : t.loads.any p = false) : settleLoads s k p = s := by
  unfold settleLoads
  rw [h]
  simp only [splitLoads_none hp, List.foldl_nil]
  exact State.setTeam_self h

theorem matrixUntil_none {s : State} {c : Nat} {p : MatOp → Bool} (h : (s.core c).matQ.any p = false) (n : Nat) :
    matrixUntil c p n s = s := by
  cases n with
  | zero => rfl
  | succ n => simp [matrixUntil, h]

/-- An instruction waits for no load: settling the registers that it names changes nothing. -/
theorem settleRegs_none {s : State} {k : Nat} {t : Team} {rs : List Nat} (h : s.teams[k]? = some t)
    (hw : waitsFor s t rs = false) : settleRegs s k rs = s := by
  unfold waitsFor at hw
  rw [Bool.or_eq_false_iff] at hw
  unfold settleRegs
  rw [settleLoads_none h hw.1]
  unfold settleMrd
  rw [h]
  exact matrixUntil_none hw.2 _

/-- An instruction that waits for no load issues at once. -/
theorem waitFor_none {s : State} {k : Nat} {t : Team} {rs : List Nat} (h : s.teams[k]? = some t)
    (hw : waitsFor s t rs = false) (latch : Bool) (go : State → State) :
    waitFor s k rs latch go = go s := by
  have hl : missedLoad s t rs = false := by
    unfold waitsFor at hw
    rw [Bool.or_eq_false_iff, List.any_eq_false] at hw
    unfold missedLoad
    rw [List.any_eq_false]
    intro r hr
    simp [hw.1 r hr]
  unfold waitFor
  rw [h]
  simp only [hl, Bool.and_false, Bool.false_eq_true, if_false, settleRegs_none h hw]

theorem afterWait_eq {s : State} {t : Team} (h : s.teams[s.cur]? = some t) (hp : t.pending = none)
    (body : State → Team → State) : afterWait s body = body s t := by
  unfold afterWait
  rw [h]
  simp only [hp]

/-! ## The frames of lane and uniform instructions -/

/-- A lane instruction that issues does what its body says. -/
theorem laneIssue_runs {s : State} {t : Team} {p : LPre} {f : Form} {d a b : Nat} (h : LaneRuns s t p f d a b)
    (body : State → Team → Codes → State) :
    laneIssue s p f d a b body = .next (body s t (laneCodes t p d a b)) := by
  obtain ⟨ht, h0, hc, hw, hp⟩ := h
  unfold laneIssue
  rw [startRep_eq ht h0, withTeam_eq ht]
  simp only [hc]
  rw [show (fieldsFor p.rep t.repIdx d a b (pfxOf p).c.toNat).codes = laneCodes t p d a b from rfl,
    waitFor_none ht hw, afterWait_eq ht hp]

/-- A uniform instruction that issues does what its body says. -/
theorem uniIssue_runs {s : State} {t : Team} {rep : Option Rep} {f : Form} {d a b : Nat} (h : UniRuns s t rep f d a b)
    (body : State → Team → Codes → State) :
    uniIssue s rep f d a b body = .next (body s t (uniCodes t rep d a b)) := by
  obtain ⟨ht, h0, hc, hw, hp⟩ := h
  unfold uniIssue
  rw [startRep_eq ht h0, withTeam_eq ht]
  simp only [hc]
  rw [show (fieldsFor rep t.repIdx d a b 164).codes = uniCodes t rep d a b from rfl, waitFor_none ht hw,
    afterWait_eq ht hp]

/-- Where no structured transfer reached the instruction, a closing form meets the checks of the form itself. -/
theorem check_closed {t : Team} (h : t.expect = none) (f : Form) (x : Fields) (ill : Bool) (m : Nat) :
    check t f.closed x ill m = check t f x ill m := by
  simp [check, Form.closed, wrongTarget, h]
  rfl

/-- A check that fails is trapped. -/
theorem laneIssue_traps {s : State} {t : Team} {p : LPre} {f : Form} {d a b : Nat} {c : Cause}
    (ht : s.teams[s.cur]? = some t) (h0 : p.rep = none → t.repIdx = 0)
    (hc : check t f (fieldsFor p.rep t.repIdx d a b (pfxOf p).c.toNat) (pfxIll (pfxOf p) f) (pfxOf p).m.toNat = some c)
    (body : State → Team → Codes → State) : laneIssue s p f d a b body = .next (trapCause s s.cur c) := by
  unfold laneIssue
  rw [startRep_eq ht h0, withTeam_eq ht]
  simp only [hc]

theorem uniIssue_traps {s : State} {t : Team} {rep : Option Rep} {f : Form} {d a b : Nat} {c : Cause}
    (ht : s.teams[s.cur]? = some t) (h0 : rep = none → t.repIdx = 0)
    (hc : check t f (fieldsFor rep t.repIdx d a b 164) false 164 = some c)
    (body : State → Team → Codes → State) : uniIssue s rep f d a b body = .next (trapCause s s.cur c) := by
  unfold uniIssue
  rw [startRep_eq ht h0, withTeam_eq ht]
  simp only [hc]

/-- A closing instruction whose REGION is there does what its body says, and its REGION follows. -/
theorem closing_runs {s s1 : State} {t : Team} {words : Nat} {live : BitVec 160} (ht : s.teams[s.cur]? = some t)
    (h : Pairs s t words live s1) (hp : t.pending = none)
    (body : State → Team → Except State State) (after : State → State) (latch : Bool) :
    closing s words body after latch = match body s1 t with
      | .ok u => after ((u.countDie t.die .issue).modTeam u.cur fun x =>
          let x1 := x.checkpoint live (t.pc + 4 * words + 24)
          { x1.jump (t.pc + 4 * words + 24) with moved := false })
      | .error u => u := by
  obtain ⟨h1, hn, hx, h2, h3, h4⟩ := h
  unfold closing
  rw [ht]
  simp only [h1]
  have h3' : s1.teams[s1.cur]? = some t := by rw [h2]; exact h3
  have hf : fetchWaits s s1 t latch = false := by simp [fetchWaits, hn]
  simp only [hf, hx, Option.isSome_none, Bool.false_eq_true, if_false]
  rw [waitFor_none h3 h4, afterWait_eq h3' hp]
  all_goals (cases body s1 t <;> rfl)

end Sys2Proof.Machine
end

