-- ==== Sys2Proof/Laws/Lane.lean ====
section
/-! SUPPORT. Instructions that compute: registers after a write, and once for all what laneCompute and uniCompute leave of
their team. -/

namespace Sys2Proof

open Machine

/-! ## What an update leaves alone -/

theorem SameElse.refl (t : Team) : SameElse t t := ⟨rfl⟩

theorem SameElse.trans {t u v : Team} (h : SameElse t u) (g : SameElse u v) : SameElse t v := by
  obtain ⟨h⟩ := h
  obtain ⟨g⟩ := g
  rw [← g] at h
  exact ⟨h⟩

theorem SameElse.setReg (t : Team) (n : Nat) (v : Lanes) : SameElse t (t.setReg n v) := ⟨rfl⟩
theorem SameElse.killReg (t : Team) (n : Nat) : SameElse t (t.killReg n) := ⟨rfl⟩
theorem SameElse.raise (t : Team) (b : Word) : SameElse t (t.raise b) := ⟨rfl⟩
theorem SameElse.raiseFlags (t : Team) (f : FFlags) : SameElse t (t.raiseFlags f) := ⟨rfl⟩
theorem SameElse.refill (t : Team) (rs : List Nat) : SameElse t (t.refill rs) := ⟨rfl⟩
theorem SameElse.pass (t : Team) (n : Nat) : SameElse t (t.pass n) := ⟨rfl⟩
theorem SameElse.jump (t : Team) (n : Nat) : SameElse t (t.jump n) := ⟨rfl⟩
theorem SameElse.shiftLane (t : Team) (p : Pipe) (v : Lanes) : SameElse t (t.shiftLane p v) := by cases p <;> exact ⟨rfl⟩
theorem SameElse.passRep (t : Team) (rep : Option Rep) (n : Nat) : SameElse t (t.passRep rep n) := by
  unfold Team.passRep
  split
  · split <;> exact ⟨rfl⟩
  · exact ⟨rfl⟩
theorem SameElse.noteDead (t : Team) (b : Bool) : SameElse t (t.noteDead b) := by
  unfold Team.noteDead
  split <;> exact ⟨rfl⟩
theorem SameElse.raiseIf (t : Team) (b : Bool) (w : Word) : SameElse t (if b then t.raise w else t) := by
  split <;> exact ⟨rfl⟩

theorem SameElse.foldl {α : Type} (f : Team → α → Team) (hf : ∀ t x, SameElse t (f t x)) (xs : List α) (t : Team) :
    SameElse t (xs.foldl f t) := by
  induction xs generalizing t with
  | nil => exact ⟨rfl⟩
  | cons x xs ih => exact (hf t x).trans (ih _)

theorem SameElse.foldr {α : Type} (f : α → Team → Team) (hf : ∀ x t, SameElse t (f x t)) (xs : List α) (t : Team) :
    SameElse t (xs.foldr f t) := by
  induction xs with
  | nil => exact ⟨rfl⟩
  | cons x xs ih => exact ih.trans (hf x _)

theorem SameElse.laneEnd (t : Team) (p : LPre) (f : Form) (k : Codes) (base : Nat) (dead : Bool) :
    SameElse t (t.laneEnd p f k base dead) :=
  (((SameElse.refill _ _).trans (SameElse.raiseIf _ _ _)).trans
    (SameElse.foldl Team.killReg (fun t x => SameElse.killReg t x) _ _)).trans (SameElse.passRep _ _ _)

theorem SameElse.cfg {t u : Team} (h : SameElse t u) : u.cfg = t.cfg := by
  obtain ⟨h⟩ := h
  rw [← h]

theorem SameElse.tl {t u : Team} (h : SameElse t u) : u.tl = t.tl := by unfold Team.tl; rw [h.cfg]

end Sys2Proof

namespace Sys2Proof.Machine

/-! ## Registers after a write -/

theorem Team.isDead_setReg (t : Team) (n : Nat) (v : Lanes) (m : Nat) :
    (t.setReg n v).isDead m = (t.isDead m && m != n) := by
  unfold Team.isDead
  rw [Team.setReg_dead, BitVec.getLsbD_and, BitVec.getLsbD_not, BitVec.getLsbD_shiftLeft]
  by_cases hm : m < 160
  · by_cases hn : m = n
    · subst hn; simp [hm]
    · by_cases hl : m < n
      · simp [hm, hl, hn]
      · have : m - n ≠ 0 := by omega
        simp [hm, hl, hn, this]
  · simp [BitVec.getLsbD_of_ge _ _ (Nat.le_of_not_lt hm)]

theorem Team.isDead_killReg (t : Team) (n : Nat) (m : Nat) :
    (t.killReg n).isDead m = (t.isDead m || (m == n && decide (n < 160))) := by
  unfold Team.isDead
  rw [Team.killReg_dead, BitVec.getLsbD_or, BitVec.getLsbD_shiftLeft]
  by_cases hm : m < 160
  · by_cases hn : m = n
    · subst hn; simp [hm]
    · by_cases hl : m < n
      · simp [hm, hl, hn]
      · have : m - n ≠ 0 := by omega
        simp [hm, hl, hn, this]
  · have h1 := BitVec.getLsbD_of_ge t.dead _ (Nat.le_of_not_lt hm)
    by_cases hn : m = n
    · subst hn; simp [hm]
    · simp [h1, hm, hn]

theorem zeroLanes_getD (n l : Nat) : (zeroLanes n).getD l 0#32 = 0#32 := by
  unfold zeroLanes
  rw [List.getD_eq_getElem?_getD, List.getElem?_replicate]
  split <;> rfl

theorem Team.regAt_setReg (t : Team) {n : Nat} (hn : n < t.regs.length) (v : Lanes) (m l : Nat) :
    (t.setReg n v).regAt m l = if m = n then v.getD l 0#32 else t.regAt m l := by
  unfold Team.regAt Team.reg
  rw [Team.isDead_setReg, show (t.setReg n v).tl = t.tl from rfl, Team.setReg_regs]
  by_cases h : m = n
  · subst h; simp [hn]
  · simp [h, List.getD_eq_getElem?_getD, List.getElem?_set_ne (Ne.symm h)]

theorem Team.regAt_killReg (t : Team) {n : Nat} (m l : Nat) (h : m ≠ n) : (t.killReg n).regAt m l = t.regAt m l := by
  unfold Team.regAt Team.reg
  rw [Team.isDead_killReg, show (t.killReg n).tl = t.tl from rfl, Team.killReg_regs]
  simp [h]

theorem Team.regAt_killRegs (t : Team) (ns : List Nat) (m l : Nat) (h : m ∉ ns) :
    (ns.foldl Team.killReg t).regAt m l = t.regAt m l := by
  induction ns generalizing t with
  | nil => rfl
  | cons n ns ih =>
    simp only [List.mem_cons, not_or] at h
    rw [List.foldl_cons, ih _ h.2, Team.regAt_killReg t m l h.1]

theorem Team.regs_killRegs (t : Team) (ns : List Nat) : (ns.foldl Team.killReg t).regs = t.regs := by
  induction ns generalizing t with
  | nil => rfl
  | cons n ns ih => rw [List.foldl_cons, ih]; rfl

theorem Team.status_killRegs (t : Team) (ns : List Nat) : (ns.foldl Team.killReg t).status = t.status := by
  induction ns generalizing t with
  | nil => rfl
  | cons n ns ih => rw [List.foldl_cons, ih]; rfl

/-- Registers and latches read alike: an update that touches neither registers nor dead marks. -/
theorem Team.regAt_of_eq {t u : Team} (h1 : u.regs = t.regs) (h2 : u.dead = t.dead) (h3 : u.tl = t.tl) (m l : Nat) :
    u.regAt m l = t.regAt m l := by
  unfold Team.regAt Team.reg Team.isDead
  rw [h1, h2, h3]

/-- Several registers written in turn. -/
theorem Team.setRegs_regs (t : Team) (d : Nat) (word : Nat → Lanes) (w : Nat) :
    ((List.range w).foldl (fun t i => t.setReg (d + i) (word i)) t).regs.length = t.regs.length := by
  induction w with
  | zero => rfl
  | succ w ih => rw [List.range_succ, List.foldl_append, List.foldl_cons, List.foldl_nil, Team.setReg_regs, List.length_set, ih]

theorem Team.setRegs_regAt (t : Team) (d : Nat) (word : Nat → Lanes) (w : Nat) (hd : d + w ≤ t.regs.length) (m l : Nat) :
    ((List.range w).foldl (fun t i => t.setReg (d + i) (word i)) t).regAt m l
      = if d ≤ m ∧ m < d + w then (word (m - d)).getD l 0#32 else t.regAt m l := by
  induction w with
  | zero => rw [if_neg (by omega)]; rfl
  | succ w ih =>
    rw [List.range_succ, List.foldl_append, List.foldl_cons, List.foldl_nil,
      Team.regAt_setReg _ (by rw [Team.setRegs_regs]; omega), ih (by omega)]
    by_cases h : m = d + w
    · subst h; simp
    · rw [if_neg h]
      by_cases g : d ≤ m ∧ m < d + w
      · rw [if_pos g, if_pos (by omega)]
      · rw [if_neg g, if_neg (by omega)]

theorem Team.setRegs_others (t : Team) (d : Nat) (word : Nat → Lanes) (w n : Nat) (h : n < d ∨ d + w ≤ n) :
    ((List.range w).foldl (fun t i => t.setReg (d + i) (word i)) t).regs[n]? = t.regs[n]? := by
  induction w with
  | zero => rfl
  | succ w ih =>
    rw [List.range_succ, List.foldl_append, List.foldl_cons, List.foldl_nil, Team.setReg_regs,
      List.getElem?_set_ne (by omega), ih (by omega)]

theorem Team.setRegs_status (t : Team) (d : Nat) (word : Nat → Lanes) (w : Nat) :
    ((List.range w).foldl (fun t i => t.setReg (d + i) (word i)) t).status = t.status := by
  induction w with
  | zero => rfl
  | succ w ih => rw [List.range_succ, List.foldl_append, List.foldl_cons, List.foldl_nil, Team.setReg_status, ih]

theorem Team.setRegs_pc (t : Team) (d : Nat) (word : Nat → Lanes) (w : Nat) :
    ((List.range w).foldl (fun t i => t.setReg (d + i) (word i)) t).pc = t.pc := by
  induction w with
  | zero => rfl
  | succ w ih => rw [List.range_succ, List.foldl_append, List.foldl_cons, List.foldl_nil, Team.setReg_pc, ih]

theorem Team.setRegs_repIdx (t : Team) (d : Nat) (word : Nat → Lanes) (w : Nat) :
    ((List.range w).foldl (fun t i => t.setReg (d + i) (word i)) t).repIdx = t.repIdx := by
  induction w with
  | zero => rfl
  | succ w ih => rw [List.range_succ, List.foldl_append, List.foldl_cons, List.foldl_nil, Team.setReg_repIdx, ih]

/-- What several written registers leave alone. -/
theorem Team.setRegs_rest (t : Team) (d : Nat) (word : Nat → Lanes) (w : Nat) :
    ((List.range w).foldl (fun t i => t.setReg (d + i) (word i)) t).latL = t.latL
      ∧ ((List.range w).foldl (fun t i => t.setReg (d + i) (word i)) t).latX = t.latX
      ∧ ((List.range w).foldl (fun t i => t.setReg (d + i) (word i)) t).latU = t.latU
      ∧ ((List.range w).foldl (fun t i => t.setReg (d + i) (word i)) t).ocache = t.ocache := by
  induction w with
  | zero => exact ⟨rfl, rfl, rfl, rfl⟩
  | succ w ih => rw [List.range_succ, List.foldl_append, List.foldl_cons, List.foldl_nil]; exact ih

/-- A written register is not dead. -/
theorem Team.setRegs_isDead (t : Team) (d : Nat) (word : Nat → Lanes) (w m : Nat) :
    ((List.range w).foldl (fun t i => t.setReg (d + i) (word i)) t).isDead m
      = (t.isDead m && !decide (d ≤ m ∧ m < d + w)) := by
  induction w with
  | zero => rw [decide_eq_false (by omega)]; simp
  | succ w ih =>
    rw [List.range_succ, List.foldl_append, List.foldl_cons, List.foldl_nil, Team.isDead_setReg, ih]
    by_cases h : m = d + w
    · subst h; simp
    · have : decide (d ≤ m ∧ m < d + (w + 1)) = decide (d ≤ m ∧ m < d + w) := decide_eq_decide.2 (by omega)
      rw [this]
      simp [h]

theorem Team.isDead_killRegs (t : Team) (ns : List Nat) (m : Nat) (h : m < 160) :
    (ns.foldl Team.killReg t).isDead m = (decide (m ∈ ns) || t.isDead m) := by
  induction ns generalizing t with
  | nil => simp
  | cons n ns ih =>
    rw [List.foldl_cons, ih, Team.isDead_killReg]
    by_cases g : m = n
    · subst g; simp [h]
    · have : (m == n) = false := by simpa using g
      rw [this]
      simp [g]

theorem Team.ocache_killRegs (t : Team) (ns : List Nat) :
    (ns.foldl Team.killReg t).ocache = t.ocache.filter fun e => decide (e.1 ∉ ns) := by
  induction ns generalizing t with
  | nil => simp
  | cons n ns ih =>
    rw [List.foldl_cons, ih, Team.killReg_ocache, List.filter_filter]
    apply List.filter_congr
    intro e _
    by_cases g : e.1 = n <;> simp [g]

theorem Team.lat_killRegs (t : Team) (ns : List Nat) :
    (ns.foldl Team.killReg t).latL = t.latL ∧ (ns.foldl Team.killReg t).latX = t.latX
      ∧ (ns.foldl Team.killReg t).latU = t.latU := by
  induction ns generalizing t with
  | nil => exact ⟨rfl, rfl, rfl⟩
  | cons n ns ih => rw [List.foldl_cons]; exact ih _

theorem Team.passRep_isDead (t : Team) (rep : Option Rep) (n m : Nat) : (t.passRep rep n).isDead m = t.isDead m := by
  unfold Team.passRep
  split
  · split <;> rfl
  · rfl

theorem Team.passRep_rest (t : Team) (rep : Option Rep) (n : Nat) : (t.passRep rep n).latL = t.latL
    ∧ (t.passRep rep n).latX = t.latX ∧ (t.passRep rep n).latU = t.latU ∧ (t.passRep rep n).ocache = t.ocache := by
  unfold Team.passRep
  split
  · split <;> exact ⟨rfl, rfl, rfl, rfl⟩
  · exact ⟨rfl, rfl, rfl, rfl⟩

/-! ## The pc (R262) -/

theorem Moved.passRep {t u : Team} {rep : Option Rep} {n : Nat} (h1 : u.pc = t.pc) (h2 : u.repIdx = t.repIdx) :
    Moved t (u.passRep rep n) rep n := by
  unfold Moved Team.passRep
  cases rep with
  | none => simp [h1]
  | some r => simp only [h2]; split <;> simp [*]

theorem OnlyMoved.passRep (t : Team) (x : Bool) (w : Word) (rep : Option Rep) (n : Nat) :
    OnlyMoved t ((if x then t.raise w else t).passRep rep n) := by
  generalize hv : (if x then t.raise w else t) = v
  have h : { v with status := t.status } = t := by
    rw [← hv]
    cases x <;> rfl
  constructor
  rw [← h]
  cases rep with
  | none => rfl
  | some r =>
    unfold Team.passRep
    by_cases hc : v.repIdx < r.cnt.toNat
    · simp only [if_pos hc]
    · simp only [if_neg hc]
      rfl

theorem Team.passRep_regs (t : Team) (rep : Option Rep) (n : Nat) : (t.passRep rep n).regs = t.regs := by
  unfold Team.passRep
  split
  · split <;> rfl
  · rfl
theorem Team.passRep_dead (t : Team) (rep : Option Rep) (n : Nat) : (t.passRep rep n).dead = t.dead := by
  unfold Team.passRep
  split
  · split <;> rfl
  · rfl
theorem Team.passRep_status (t : Team) (rep : Option Rep) (n : Nat) : (t.passRep rep n).status = t.status := by
  unfold Team.passRep
  split
  · split <;> rfl
  · rfl

/-! ## Lane instructions -/

theorem Team.shiftLanes (t : Team) (pipe : Pipe) (word : Nat → Lanes) (xs : List Nat) :
    (xs.foldr (fun i t => t.shiftLane pipe (word i)) t).regs = t.regs
      ∧ (xs.foldr (fun i t => t.shiftLane pipe (word i)) t).dead = t.dead
      ∧ (xs.foldr (fun i t => t.shiftLane pipe (word i)) t).status = t.status
      ∧ (xs.foldr (fun i t => t.shiftLane pipe (word i)) t).pc = t.pc
      ∧ (xs.foldr (fun i t => t.shiftLane pipe (word i)) t).repIdx = t.repIdx
      ∧ (xs.foldr (fun i t => t.shiftLane pipe (word i)) t).cfg = t.cfg := by
  induction xs with
  | nil => exact ⟨rfl, rfl, rfl, rfl, rfl, rfl⟩
  | cons x xs ih =>
    rw [List.foldr_cons]
    generalize xs.foldr (fun i t => t.shiftLane pipe (word i)) t = u at ih
    cases pipe <;> exact ih

theorem Team.lat_shiftLanes (t : Team) (pipe : Pipe) (word : Nat → Lanes) (xs : List Nat) :
    (xs.foldr (fun i t => t.shiftLane pipe (word i)) t).latL
        = (if pipe = .l then xs.foldr (fun i x => x.shift (word i)) t.latL else t.latL)
      ∧ (xs.foldr (fun i t => t.shiftLane pipe (word i)) t).latX
        = (if pipe = .x then xs.foldr (fun i x => x.shift (word i)) t.latX else t.latX)
      ∧ (xs.foldr (fun i t => t.shiftLane pipe (word i)) t).latU = t.latU
      ∧ (xs.foldr (fun i t => t.shiftLane pipe (word i)) t).ocache = t.ocache := by
  induction xs with
  | nil => cases pipe <;> exact ⟨rfl, rfl, rfl, rfl⟩
  | cons x xs ih =>
    rw [List.foldr_cons]
    generalize xs.foldr (fun i t => t.shiftLane pipe (word i)) t = u at ih
    obtain ⟨h1, h2, h3, h4⟩ := ih
    cases pipe
    case l => exact ⟨congrArg (fun y => y.shift (word x)) h1, h2, h3, h4⟩
    case x => exact ⟨h1, congrArg (fun y => y.shift (word x)) h2, h3, h4⟩
    case u => exact ⟨h1, h2, h3, h4⟩
    case m => exact ⟨h1, h2, h3, h4⟩

theorem Team.regAt_shiftLanes (t : Team) (pipe : Pipe) (word : Nat → Lanes) (xs : List Nat) (m l : Nat) :
    (xs.foldr (fun i t => t.shiftLane pipe (word i)) t).regAt m l = t.regAt m l := by
  obtain ⟨e1, e2, -, -, -, e6⟩ := Team.shiftLanes t pipe word xs
  exact Team.regAt_of_eq e1 e2 (by unfold Team.tl; rw [e6]) m l

/-- What each active lane's write leaves: the frame of R269. -/
theorem Team.writeLanes_spec (t : Team) (pipe : Pipe) (w d : Nat) (mask : Mask) (zm : Bool) (vals : Nat → Nat)
    (hd : d < 160 → w = 0 ∨ d + w ≤ t.regs.length) :
    (d < 160 → ∀ j, j < w → ∀ l, l < t.tl → (t.writeLanes pipe w d mask zm vals).regAt (d + j) l =
      BitVec.ofNat 32 ((if mask.getLsbD l then vals l else if zm then 0 else oldDest t pipe w d l) / 2 ^ (32 * j)))
    ∧ (∀ n, (160 ≤ d ∨ n < d ∨ d + w ≤ n) → (t.writeLanes pipe w d mask zm vals).regs[n]? = t.regs[n]?)
    ∧ (t.writeLanes pipe w d mask zm vals).status = t.status
    ∧ (t.writeLanes pipe w d mask zm vals).pc = t.pc
    ∧ (t.writeLanes pipe w d mask zm vals).repIdx = t.repIdx
    ∧ SameElse t (t.writeLanes pipe w d mask zm vals) := by
  have hse : SameElse t (t.writeLanes pipe w d mask zm vals) := by
    unfold Team.writeLanes
    dsimp only
    refine SameElse.trans ?_ (SameElse.foldr _ (fun i t => SameElse.shiftLane _ _ _) _ _)
    split
    · exact SameElse.foldl _ (fun t i => SameElse.setReg _ _ _) _ _
    · exact ⟨rfl⟩
  refine ⟨?_, ?_, ?_, ?_, ?_, hse⟩
  · intro h j hj l hl
    unfold Team.writeLanes
    dsimp only
    rw [Team.regAt_shiftLanes, if_pos h, Team.setRegs_regAt _ _ _ _ (by have := hd h; omega), if_pos (by omega),
      Nat.add_sub_cancel_left, List.getD_eq_getElem?_getD]
    simp [hl]
  · intro n hn
    unfold Team.writeLanes
    dsimp only
    rw [(Team.shiftLanes _ pipe _ (List.range w)).1]
    split
    · exact Team.setRegs_others _ _ _ _ _ (by omega)
    · rfl
  · unfold Team.writeLanes
    dsimp only
    rw [(Team.shiftLanes _ pipe _ (List.range w)).2.2.1]
    split
    · exact Team.setRegs_status _ _ _ _
    · rfl
  · unfold Team.writeLanes
    dsimp only
    rw [(Team.shiftLanes _ pipe _ (List.range w)).2.2.2.1]
    split
    · exact Team.setRegs_pc _ _ _ _
    · rfl
  · unfold Team.writeLanes
    dsimp only
    rw [(Team.shiftLanes _ pipe _ (List.range w)).2.2.2.2.1]
    split
    · exact Team.setRegs_repIdx _ _ _ _
    · rfl

/-- The destination of an instruction that issues lies in the team's registers (R258). -/
theorem check_dest {t : Team} {f : Form} {x : Fields} {ill : Bool} {m : Nat} (h : check t f x ill m = none)
    (hf : f.d ≠ .field) (hd : x.codes.d < 160) : x.codes.d + f.d.width ≤ t.regs.length := by
  unfold check at h
  split at h
  · cases h
  split at h
  · cases h
  rename_i h2
  split at h
  · cases h
  split at h
  · cases h
  rename_i h4
  simp only [Bool.or_eq_true, not_or] at h2 h4
  have hb := h4.1.1.1.1.1.1
  have hi := h2.1.1.1.1.1.1
  unfold FieldAt.bound at hb
  unfold FieldAt.illop at hi
  rw [if_neg hf] at hi
  have hc : x.codes.d = x.d.value.toNat := rfl
  by_cases h6 : x.d.code < 160
  · rw [if_neg (by omega), if_neg (by simp only [hf, false_or]; omega)] at hb
    simp only [Bool.or_eq_true, decide_eq_true_eq, not_or, Int.not_lt] at hb
    unfold Team.allot at hb
    omega
  · rw [if_neg h6] at hi
    simp only [Bool.or_eq_true, not_or, bne_iff_ne, ne_eq, Decidable.not_not] at hi
    have : x.d.value = x.d.code := by unfold FieldAt.value; rw [hi.1]; simp
    omega

theorem Team.pc_killRegs (t : Team) (ns : List Nat) :
    (ns.foldl Team.killReg t).pc = t.pc ∧ (ns.foldl Team.killReg t).repIdx = t.repIdx := by
  induction ns generalizing t with
  | nil => exact ⟨rfl, rfl⟩
  | cons n ns ih => rw [List.foldl_cons]; exact ih _

/-- What the end of a lane instruction leaves of its team: dead marks, refilled tags, DEADREAD, and its place. -/
theorem Team.laneEnd_spec (t : Team) (p : LPre) (f : Form) (k : Codes) (base : Nat) (dead : Bool) :
    (∀ m l, m ∉ deadMarks p f k → (t.laneEnd p f k base dead).regAt m l = t.regAt m l)
    ∧ (t.laneEnd p f k base dead).regs = t.regs
    ∧ (∀ m, m < 160 → (t.laneEnd p f k base dead).isDead m = (decide (m ∈ deadMarks p f k) || t.isDead m))
    ∧ (t.laneEnd p f k base dead).latL = t.latL ∧ (t.laneEnd p f k base dead).latX = t.latX
    ∧ (t.laneEnd p f k base dead).latU = t.latU
    ∧ (t.laneEnd p f k base dead).ocache = ((t.ocache.filter fun e => decide (e.1 ∉ deadMarks p f k)).map fun e =>
        (e.1, e.2 || (readRegs f k).contains e.1))
    ∧ (t.laneEnd p f k base dead).status = t.status ||| deadBits dead
    ∧ Moved t (t.laneEnd p f k base dead) p.rep (laneWords p base)
    ∧ SameElse t (t.laneEnd p f k base dead) := by
  have hs := SameElse.laneEnd t p f k base dead
  unfold Team.laneEnd at hs ⊢
  dsimp only at hs ⊢
  obtain ⟨v, hv, v1, v2, v3, v4, v5, v6, v7, v8, v9, v10⟩ : ∃ v, v = (if dead then (t.refill (readRegs f k)).raise
      deadReadBit else t.refill (readRegs f k)) ∧ v.regs = t.regs ∧ v.dead = t.dead ∧ v.tl = t.tl ∧ v.latL = t.latL
      ∧ v.latX = t.latX ∧ v.latU = t.latU ∧ v.ocache = (t.refill (readRegs f k)).ocache
      ∧ v.status = t.status ||| deadBits dead ∧ v.pc = t.pc ∧ v.repIdx = t.repIdx := by
    refine ⟨_, rfl, ?_⟩
    cases dead
    · exact ⟨rfl, rfl, rfl, rfl, rfl, rfl, rfl, by simp [deadBits], rfl, rfl⟩
    · exact ⟨rfl, rfl, rfl, rfl, rfl, rfl, rfl, by simp [deadBits], rfl, rfl⟩
  rw [← hv] at hs ⊢
  have k1 := Team.regs_killRegs v (deadMarks p f k)
  obtain ⟨k2, k3, k4⟩ := Team.lat_killRegs v (deadMarks p f k)
  have k5 := Team.ocache_killRegs v (deadMarks p f k)
  have k6 := Team.status_killRegs v (deadMarks p f k)
  have k7 := Team.pc_killRegs v (deadMarks p f k)
  have k8 := Team.isDead_killRegs v (deadMarks p f k)
  have k9 := Team.regAt_killRegs v (deadMarks p f k)
  have k10 : ((deadMarks p f k).foldl Team.killReg v).tl = v.tl :=
    SameElse.tl (SameElse.foldl Team.killReg (fun t x => SameElse.killReg t x) _ _)
  generalize (deadMarks p f k).foldl Team.killReg v = w at *
  obtain ⟨r1, r2, r3, r4⟩ := Team.passRep_rest w p.rep (laneWords p base)
  refine ⟨?_, ?_, ?_, ?_, ?_, ?_, ?_, ?_, ?_, hs⟩
  · intro m l hm
    rw [Team.regAt_of_eq (Team.passRep_regs _ _ _) (Team.passRep_dead _ _ _) (SameElse.tl (SameElse.passRep _ _ _)),
      k9 m l hm, Team.regAt_of_eq v1 v2 v3]
  · rw [Team.passRep_regs, k1, v1]
  · intro m hm
    rw [Team.passRep_isDead, k8 m hm]
    unfold Team.isDead
    rw [v2]
  · rw [r1, k2, v4]
  · rw [r2, k3, v5]
  · rw [r3, k4, v6]
  · rw [r4, k5, v7]
    unfold Team.refill
    rw [List.filter_map]
    rfl
  · rw [Team.passRep_status, k6, v8]
  · exact Moved.passRep (by rw [k7.1, v9]) (by rw [k7.2, v10])

/-- The latches, tags and marks after each active lane's write. -/
theorem Team.writeLanes_rest (t : Team) (pipe : Pipe) (w d : Nat) (mask : Mask) (zm : Bool) (vals : Nat → Nat) :
    (∀ m, (t.writeLanes pipe w d mask zm vals).isDead m
      = (t.isDead m && !decide (d < 160 ∧ d ≤ m ∧ m < d + w)))
    ∧ (t.writeLanes pipe w d mask zm vals).latL = (if pipe = .l then enteredLatch w t.latL fun j =>
        (List.range t.tl).map fun l => BitVec.ofNat 32
          ((if mask.getLsbD l then vals l else if zm then 0 else oldDest t pipe w d l) / 2 ^ (32 * j)) else t.latL)
    ∧ (t.writeLanes pipe w d mask zm vals).latX = (if pipe = .x then enteredLatch w t.latX fun j =>
        (List.range t.tl).map fun l => BitVec.ofNat 32
          ((if mask.getLsbD l then vals l else if zm then 0 else oldDest t pipe w d l) / 2 ^ (32 * j)) else t.latX)
    ∧ (t.writeLanes pipe w d mask zm vals).latU = t.latU
    ∧ (t.writeLanes pipe w d mask zm vals).ocache = t.ocache := by
  unfold Team.writeLanes
  dsimp only
  simp only [List.map_map]
  generalize hword : (fun i => (List.range t.tl).map ((fun v => BitVec.ofNat 32 (v / 2 ^ (32 * i))) ∘ fun l =>
    if mask.getLsbD l then vals l else if zm then 0 else oldDest t pipe w d l)) = word
  have hw : ∀ i, (List.range t.tl).map ((fun v => BitVec.ofNat 32 (v / 2 ^ (32 * i))) ∘ fun l =>
    if mask.getLsbD l then vals l else if zm then 0 else oldDest t pipe w d l) = word i := fun i => by rw [← hword]
  have hc : (fun i => (List.range t.tl).map fun l => BitVec.ofNat 32
      ((if mask.getLsbD l then vals l else if zm then 0 else oldDest t pipe w d l) / 2 ^ (32 * i))) = word := hword
  simp only [hw, hc]
  have hr : ∀ v : Team, v = (if d < 160 then (List.range w).foldl (fun t i => t.setReg (d + i) (word i)) t else t) →
      (∀ m, v.isDead m = (t.isDead m && !decide (d < 160 ∧ d ≤ m ∧ m < d + w))) ∧ v.latL = t.latL ∧ v.latX = t.latX
        ∧ v.latU = t.latU ∧ v.ocache = t.ocache := by
    intro v hv
    by_cases h : d < 160
    · rw [if_pos h] at hv
      subst hv
      obtain ⟨e1, e2, e3, e4⟩ := Team.setRegs_rest t d word w
      refine ⟨fun m => ?_, e1, e2, e3, e4⟩
      rw [Team.setRegs_isDead]
      simp [h]
    · rw [if_neg h] at hv
      subst hv
      exact ⟨fun m => by simp [h], rfl, rfl, rfl, rfl⟩
  obtain ⟨v1, v2, v3, v4, v5⟩ := hr _ rfl
  generalize (if d < 160 then (List.range w).foldl (fun t i => t.setReg (d + i) (word i)) t else t) = v at *
  obtain ⟨e1, e2, e3, e4⟩ := Team.lat_shiftLanes v pipe word (List.range w)
  refine ⟨fun m => ?_, ?_, ?_, ?_, ?_⟩
  · rw [← v1 m]
    unfold Team.isDead
    rw [(Team.shiftLanes v pipe word (List.range w)).2.1]
  · rw [e1, v2]; rfl
  · rw [e2, v3]; rfl
  · rw [e3, v4]
  · rw [e4, v5]

/-- What a lane instruction with the values `vals` leaves of its team: its passes, then its end. -/
theorem laneResult_of {t : Team} {p : LPre} {f : Form} {k : Codes} {w : Nat} {dead : Bool} {res : Nat → Nat × FFlags}
    {vals : Nat → Nat} {fl : FFlags} (hd : k.d < 160 → w = 0 ∨ k.d + w ≤ t.regs.length)
    (hv : ∀ l, l < t.tl → (effMask t p).1.getLsbD l = true → vals l = (res l).1) (hf : fl = laneFlags t p res) :
    LaneResult t (((t.writeLanes f.pipe w k.d (effMask t p).1 (pfxOf p).zm vals).raiseFlags fl).laneEnd p f k 1 dead)
      p f k w dead res := by
  obtain ⟨a1, a2, a3, a4, a5, a6⟩ := Team.writeLanes_spec t f.pipe w k.d (effMask t p).1 (pfxOf p).zm vals hd
  obtain ⟨b1, b2, b3, b4, b5⟩ := Team.writeLanes_rest t f.pipe w k.d (effMask t p).1 (pfxOf p).zm vals
  generalize t.writeLanes f.pipe w k.d (effMask t p).1 (pfxOf p).zm vals = v at *
  obtain ⟨c1, c2, c3, c4, c5, c6, c7, c8, c9, c10⟩ := Team.laneEnd_spec (v.raiseFlags fl) p f k 1 dead
  generalize (v.raiseFlags fl).laneEnd p f k 1 dead = u at *
  have hword : ∀ j l, l < t.tl → BitVec.ofNat 32 ((if (effMask t p).1.getLsbD l then vals l else if (pfxOf p).zm then 0
      else oldDest t f.pipe w k.d l) / 2 ^ (32 * j)) = laneWord t p f k w res j l := by
    intro j l hl
    unfold laneWord
    by_cases hb : (effMask t p).1.getLsbD l = true
    · rw [if_pos hb, if_pos hb, hv l hl hb]
    · rw [if_neg hb, if_neg hb]
  have hlat : (fun j => (List.range t.tl).map fun l => BitVec.ofNat 32 ((if (effMask t p).1.getLsbD l then vals l
      else if (pfxOf p).zm then 0 else oldDest t f.pipe w k.d l) / 2 ^ (32 * j)))
      = fun j => (List.range t.tl).map (laneWord t p f k w res j) :=
    funext fun j => List.map_congr_left fun l hl => hword j l (List.mem_range.1 hl)
  refine ⟨?_, ?_, ?_, ?_, ?_, ?_, ?_, ?_, ?_, ?_⟩
  · intro h j hj hk l hl
    rw [c1 _ _ hk, show (v.raiseFlags fl).regAt (k.d + j) l = v.regAt (k.d + j) l from rfl, a1 h j hj l hl, hword j l hl]
  · intro n hn
    rw [c2]
    exact a2 n hn
  · intro n hn
    rw [c3 n hn, show (v.raiseFlags fl).isDead n = v.isDead n from rfl, b1 n]
  · rw [c4, show (v.raiseFlags fl).latL = v.latL from rfl, b2, hlat]
  · rw [c5, show (v.raiseFlags fl).latX = v.latX from rfl, b3, hlat]
  · rw [c6, show (v.raiseFlags fl).latU = v.latU from rfl, b4]
  · rw [c7, show (v.raiseFlags fl).ocache = v.ocache from rfl, b5]
  · rw [c8, ← hf, ← a3]; rfl
  · unfold Moved at c9 ⊢
    rw [show (v.raiseFlags fl).pc = v.pc from rfl, show (v.raiseFlags fl).repIdx = v.repIdx from rfl, a4, a5] at c9
    exact c9
  · exact (a6.trans (SameElse.raiseFlags _ _)).trans c10

/-- What a lane instruction that computes does when it issues. -/
theorem laneCompute_gives {s : State} {t : Team} {p : LPre} {f : Form} {d a b w : Nat} {r : Reads}
    {eff : Args → Nat × FFlags} (h : LaneRuns s t p f d a b) (hw : w = 0 ∨ (f.d ≠ .field ∧ f.d.width = w)) :
    ((effMask t p).1 ≠ 0#1024 → ∃ u, laneCompute s p f d a b w r eff = .next (s.setTeam s.cur u) ∧
      LaneResult t u p f (laneCodes t p d a b) w (r.dead t f.pipe (laneCodes t p d a b))
        fun l => eff (laneArgs s t f (laneCodes t p d a b) r l))
    ∧ ((effMask t p).1 = 0#1024 → ∃ u, laneCompute s p f d a b w r eff = .next (s.setTeam s.cur u)
      ∧ u.status = t.status ||| deadBits (effMask t p).2 ∧ Moved t u p.rep (laneWords p 1) ∧ OnlyMoved t u) := by
  unfold laneCompute
  rw [laneIssue_runs h]
  constructor
  · intro hm
    dsimp only
    rw [if_neg hm]
    refine ⟨_, rfl, laneResult_of ?_ ?_ ?_⟩
    · intro hk
      rcases hw with rfl | ⟨hf, rfl⟩
      · exact .inl rfl
      · exact .inr (check_dest h.2.2.1 hf hk)
    · intro l hl hb
      simp [hl, hb, laneArgs]
    · unfold laneFlags
      rw [List.map_map]
      congr 1
      apply List.map_congr_left
      intro l hl
      simp only [Function.comp]
      split <;> rfl
  · intro hm
    dsimp only
    rw [if_pos hm]
    unfold passEmpty
    rw [State.modTeam_eq h.1]
    refine ⟨_, rfl, ?_, ?_, ?_⟩
    · rw [Team.passRep_status]
      unfold deadBits
      split <;> simp
    · exact Moved.passRep (by split <;> rfl) (by split <;> rfl)
    · exact OnlyMoved.passRep _ _ _ _ _

/-! ## Uniform instructions -/

theorem Team.shiftUnis (t : Team) (word : Nat → Word) (xs : List Nat) :
    (xs.foldr (fun i t => { t with latU := t.latU.shift (word i) }) t).regs = t.regs
      ∧ (xs.foldr (fun i t => { t with latU := t.latU.shift (word i) }) t).dead = t.dead
      ∧ (xs.foldr (fun i t => { t with latU := t.latU.shift (word i) }) t).status = t.status
      ∧ (xs.foldr (fun i t => { t with latU := t.latU.shift (word i) }) t).pc = t.pc
      ∧ (xs.foldr (fun i t => { t with latU := t.latU.shift (word i) }) t).repIdx = t.repIdx
      ∧ (xs.foldr (fun i t => { t with latU := t.latU.shift (word i) }) t).cfg = t.cfg
      ∧ SameElse t (xs.foldr (fun i t => { t with latU := t.latU.shift (word i) }) t) := by
  induction xs with
  | nil => exact ⟨rfl, rfl, rfl, rfl, rfl, rfl, ⟨rfl⟩⟩
  | cons x xs ih =>
    rw [List.foldr_cons]
    generalize xs.foldr (fun i (t : Team) => { t with latU := t.latU.shift (word i) }) t = u at ih
    exact ⟨ih.1, ih.2.1, ih.2.2.1, ih.2.2.2.1, ih.2.2.2.2.1, ih.2.2.2.2.2.1, ⟨ih.2.2.2.2.2.2.same⟩⟩

theorem Team.lat_shiftUnis (t : Team) (word : Nat → Word) (xs : List Nat) :
    (xs.foldr (fun i t => { t with latU := t.latU.shift (word i) }) t).latU = xs.foldr (fun i x => x.shift (word i)) t.latU
      ∧ (xs.foldr (fun i t => { t with latU := t.latU.shift (word i) }) t).latL = t.latL
      ∧ (xs.foldr (fun i t => { t with latU := t.latU.shift (word i) }) t).latX = t.latX
      ∧ (xs.foldr (fun i t => { t with latU := t.latU.shift (word i) }) t).ocache = t.ocache := by
  induction xs with
  | nil => exact ⟨rfl, rfl, rfl, rfl⟩
  | cons x xs ih =>
    rw [List.foldr_cons]
    generalize xs.foldr (fun i (t : Team) => { t with latU := t.latU.shift (word i) }) t = u at ih
    exact ⟨congrArg (fun y => y.shift (word x)) ih.1, ih.2.1, ih.2.2.1, ih.2.2.2⟩

/-- A uniform result goes to every lane of D (R157), and into the U latches from the U pipe (R161). -/
theorem Team.writeUni_spec (t : Team) (pipe : Pipe) (w d v : Nat) (hd : d < 160 → w = 0 ∨ d + w ≤ t.regs.length) :
    (d < 160 → ∀ j, j < w → ∀ l, l < t.tl → (t.writeUni pipe w d v).regAt (d + j) l = BitVec.ofNat 32 (v / 2 ^ (32 * j)))
    ∧ (∀ n, (160 ≤ d ∨ n < d ∨ d + w ≤ n) → (t.writeUni pipe w d v).regs[n]? = t.regs[n]?)
    ∧ (∀ n, (t.writeUni pipe w d v).isDead n = (t.isDead n && !decide (d < 160 ∧ d ≤ n ∧ n < d + w)))
    ∧ (t.writeUni pipe w d v).latU = (if pipe = .u then enteredUni w t.latU fun j => BitVec.ofNat 32 (v / 2 ^ (32 * j))
      else t.latU)
    ∧ (t.writeUni pipe w d v).latL = t.latL ∧ (t.writeUni pipe w d v).latX = t.latX
    ∧ (t.writeUni pipe w d v).ocache = t.ocache
    ∧ (t.writeUni pipe w d v).status = t.status
    ∧ (t.writeUni pipe w d v).pc = t.pc
    ∧ (t.writeUni pipe w d v).repIdx = t.repIdx
    ∧ SameElse t (t.writeUni pipe w d v) := by
  have lat (x : Team) : ∃ y, y = (if pipe = .u then (List.range w).foldr
        (fun i t => { t with latU := t.latU.shift (BitVec.ofNat 32 (v / 2 ^ (32 * i))) }) x else x)
      ∧ y.regs = x.regs ∧ y.dead = x.dead ∧ y.status = x.status ∧ y.pc = x.pc ∧ y.repIdx = x.repIdx ∧ SameElse x y
      ∧ y.latU = (if pipe = .u then enteredUni w x.latU fun j => BitVec.ofNat 32 (v / 2 ^ (32 * j)) else x.latU)
      ∧ y.latL = x.latL ∧ y.latX = x.latX ∧ y.ocache = x.ocache := by
    refine ⟨_, rfl, ?_⟩
    split
    · obtain ⟨e1, e2, e3, e4, e5, -, e7⟩ := Team.shiftUnis x (fun i => BitVec.ofNat 32 (v / 2 ^ (32 * i))) (List.range w)
      obtain ⟨f1, f2, f3, f4⟩ := Team.lat_shiftUnis x (fun i => BitVec.ofNat 32 (v / 2 ^ (32 * i))) (List.range w)
      exact ⟨e1, e2, e3, e4, e5, e7, f1, f2, f3, f4⟩
    · exact ⟨rfl, rfl, rfl, rfl, rfl, ⟨rfl⟩, rfl, rfl, rfl, rfl⟩
  obtain ⟨y, hy, e1, e2, e3, e4, e5, e6, e7, e8, e9, e10⟩ := lat (if d < 160 then (List.range w).foldl
    (fun x i => x.setReg (d + i) (List.replicate t.tl (BitVec.ofNat 32 (v / 2 ^ (32 * i))))) t else t)
  have hu : t.writeUni pipe w d v = y := hy.symm
  rw [hu]
  obtain ⟨g1, g2, g3, g4⟩ := Team.setRegs_rest t d (fun i => List.replicate t.tl (BitVec.ofNat 32 (v / 2 ^ (32 * i)))) w
  refine ⟨?_, ?_, ?_, ?_, ?_, ?_, ?_, ?_, ?_, ?_, ?_⟩
  · intro h j hj l hl
    rw [Team.regAt_of_eq e1 e2 (SameElse.tl e6), if_pos h, Team.setRegs_regAt _ _ _ _ (by have := hd h; omega),
      if_pos (by omega), Nat.add_sub_cancel_left, List.getD_eq_getElem?_getD]
    simp [hl]
  · intro n hn
    rw [e1]
    split
    · exact Team.setRegs_others _ _ _ _ _ (by omega)
    · rfl
  · intro n
    have : y.isDead n = Team.isDead (if d < 160 then (List.range w).foldl
        (fun x i => x.setReg (d + i) (List.replicate t.tl (BitVec.ofNat 32 (v / 2 ^ (32 * i))))) t else t) n := by
      unfold Team.isDead; rw [e2]
    rw [this]
    split
    · rename_i h
      rw [Team.setRegs_isDead t d (fun i => List.replicate t.tl (BitVec.ofNat 32 (v / 2 ^ (32 * i)))) w n]
      simp [h]
    · rename_i h
      simp [h]
  · rw [e7]
    have : (if d < 160 then (List.range w).foldl
        (fun x i => x.setReg (d + i) (List.replicate t.tl (BitVec.ofNat 32 (v / 2 ^ (32 * i))))) t else t).latU = t.latU := by
      split
      · exact g3
      · rfl
    rw [this]
  · rw [e8]
    split
    · exact g1
    · rfl
  · rw [e9]
    split
    · exact g2
    · rfl
  · rw [e10]
    split
    · exact g4
    · rfl
  · rw [e3]
    split
    · exact Team.setRegs_status _ _ _ _
    · rfl
  · rw [e4]
    split
    · exact Team.setRegs_pc _ _ _ _
    · rfl
  · rw [e5]
    split
    · exact Team.setRegs_repIdx _ _ _ _
    · rfl
  · refine SameElse.trans ?_ e6
    split
    · exact SameElse.foldl _ (fun t i => SameElse.setReg _ _ _) _ _
    · exact ⟨rfl⟩

/-- What a uniform instruction with the result `v` leaves of its team. -/
theorem uniResult_of {t : Team} {pipe : Pipe} {rep : Option Rep} {n : Nat} {k : Codes} {w v : Nat} {dead : Bool}
    (hd : k.d < 160 → w = 0 ∨ k.d + w ≤ t.regs.length) :
    UniResult t (((t.noteDead dead).writeUni pipe w k.d v).passRep rep n) pipe rep n k w dead v := by
  have n1 : (t.noteDead dead).regs = t.regs := by cases dead <;> rfl
  have n2 : (t.noteDead dead).tl = t.tl := by cases dead <;> rfl
  have n3 : (t.noteDead dead).status = t.status ||| deadBits dead := by cases dead <;> simp [Team.noteDead, deadBits]
  have n4 : (t.noteDead dead).pc = t.pc := by cases dead <;> rfl
  have n5 : (t.noteDead dead).repIdx = t.repIdx := by cases dead <;> rfl
  have n6 : ∀ m, (t.noteDead dead).isDead m = t.isDead m := by cases dead <;> exact fun _ => rfl
  have n7 : (t.noteDead dead).latU = t.latU ∧ (t.noteDead dead).latL = t.latL ∧ (t.noteDead dead).latX = t.latX
      ∧ (t.noteDead dead).ocache = t.ocache := by cases dead <;> exact ⟨rfl, rfl, rfl, rfl⟩
  obtain ⟨h1, h2, h3, h4, h5, h6, h7, h8, h9, h10, h11⟩ := Team.writeUni_spec (t.noteDead dead) pipe w k.d v (by rwa [n1])
  generalize (t.noteDead dead).writeUni pipe w k.d v = x at *
  obtain ⟨r1, r2, r3, r4⟩ := Team.passRep_rest x rep n
  refine ⟨?_, ?_, ?_, ?_, ⟨?_, ?_⟩, ?_, ?_, ?_, ?_⟩
  · intro hd j hj l hl
    rw [Team.regAt_of_eq (Team.passRep_regs _ _ _) (Team.passRep_dead _ _ _) (SameElse.tl (SameElse.passRep _ _ _))]
    exact h1 hd j hj l (by rw [n2]; exact hl)
  · intro m hm
    rw [Team.passRep_regs, h2 m hm, n1]
  · intro m _
    rw [Team.passRep_isDead, h3 m, n6]
  · rw [r3, h4, n7.1]
  · rw [r1, h5, n7.2.1]
  · rw [r2, h6, n7.2.2.1]
  · rw [r4, h7, n7.2.2.2]
  · rw [Team.passRep_status, h8, n3]
  · exact Moved.passRep (by rw [h9, n4]) (by rw [h10, n5])
  · exact SameElse.trans (SameElse.noteDead _ _) (SameElse.trans h11 (SameElse.passRep _ _ _))

/-- What a uniform instruction that computes does when it issues. -/
theorem uniCompute_gives {s : State} {t : Team} {rep : Option Rep} {f : Form} {d a b w : Nat} {r : Reads} {eff : Args → Nat}
    (h : UniRuns s t rep f d a b) (hw : w = 0 ∨ (f.d ≠ .field ∧ f.d.width = w)) :
    ∃ u, uniCompute s rep f d a b w r eff = .next (s.setTeam s.cur u) ∧
      UniResult t u f.pipe rep 1 (uniCodes t rep d a b) w (r.dead t f.pipe (uniCodes t rep d a b))
        (eff ⟨readOpt s t f.pipe r.a (uniCodes t rep d a b).a 0, readOpt s t f.pipe r.b (uniCodes t rep d a b).b 0, 0,
          readOpt s t f.pipe r.d (uniCodes t rep d a b).d 0, 0⟩) := by
  unfold uniCompute
  rw [uniIssue_runs h]
  refine ⟨_, rfl, uniResult_of ?_⟩
  intro hk
  rcases hw with rfl | ⟨hf, rfl⟩
  · exact .inl rfl
  · exact .inr (check_dest h.2.2.1 hf hk)

/-! ## Cross-lane instructions -/

/-- What a lane instruction with an empty effective mask does. -/
theorem passEmpty_gives {s : State} {t : Team} (h : s.teams[s.cur]? = some t) (p : LPre) (base : Nat) (b : Bool) :
    ∃ u, passEmpty s p base b = s.setTeam s.cur u ∧ u.status = t.status ||| deadBits b ∧ Moved t u p.rep (laneWords p base)
      ∧ OnlyMoved t u := by
  unfold passEmpty
  rw [State.modTeam_eq h]
  refine ⟨_, rfl, ?_, ?_, OnlyMoved.passRep _ _ _ _ _⟩
  · rw [Team.passRep_status]
    unfold deadBits
    split <;> simp
  · exact Moved.passRep (by split <;> rfl) (by split <;> rfl)

/-- What a cross-lane instruction does when it issues. -/
theorem laneCross_gives {s : State} {t : Team} {p : LPre} {f : Form} {d a b w : Nat} {r : Reads}
    {eff : Team → Mask → (Nat → Nat) → (Nat → Nat) → (Nat → Nat) → Nat → Nat × FFlags} (h : LaneRuns s t p f d a b)
    (hf : f.pipe = .x) (hw : f.d ≠ .field ∧ f.d.width = w) :
    ((effMask t p).1 ≠ 0#1024 → ∃ u, laneCross s p f d a b w r eff = .next (s.setTeam s.cur u) ∧
      LaneResult t u p f (laneCodes t p d a b) w (r.dead t .x (laneCodes t p d a b)) fun l =>
        eff t (effMask t p).1 (crossColumn s t r.a (laneCodes t p d a b).a) (crossColumn s t r.b (laneCodes t p d a b).b)
          (oldColumn t r.d (laneCodes t p d a b).d) l)
    ∧ ((effMask t p).1 = 0#1024 → ∃ u, laneCross s p f d a b w r eff = .next (s.setTeam s.cur u)
      ∧ u.status = t.status ||| deadBits (effMask t p).2 ∧ Moved t u p.rep (laneWords p 1) ∧ OnlyMoved t u) := by
  unfold laneCross
  rw [laneIssue_runs h]
  have col : ∀ (g : Nat → Nat) (n : Nat), (fun m => ((List.range n).map g).getD m 0) = fun m => if m < n then g m else 0 := by
    intro g n
    funext m
    rw [List.getD_eq_getElem?_getD]
    by_cases hm : m < n <;> simp [hm]
  constructor
  · intro hm
    dsimp only
    rw [if_neg hm]
    obtain ⟨ra, rb, rc, rd⟩ := r
    have nil : (fun m => ([] : List Nat).getD m 0) = fun _ => 0 := rfl
    cases rd
    all_goals
      dsimp only
      simp only [col, nil]
      refine ⟨_, rfl, ?_⟩
      rw [← hf]
      refine laneResult_of ?_ ?_ ?_
      · intro hk
        obtain ⟨hg, rfl⟩ := hw
        exact .inr (check_dest h.2.2.1 hg hk)
      · intro l hl hb
        rw [List.getD_eq_getElem?_getD]
        simp only [hl, hb, List.getElem?_map, List.getElem?_range, Option.map_some, Option.getD_some, if_true, hf]
        rfl
      · unfold laneFlags
        rw [List.map_map]
        congr 1
        apply List.map_congr_left
        intro l hl
        simp only [Function.comp]
        split
        · simp only [hf]
          rfl
        · rfl
  · intro hm
    dsimp only
    rw [if_pos hm]
    obtain ⟨u, h1, h2⟩ := passEmpty_gives h.1 p 1 (effMask t p).2
    exact ⟨u, by rw [h1], h2⟩

/-! ## The values of integer operands (R254, R255) -/

theorem joinWords_lt (w : Nat) (f : Nat → Word) : joinWords w f < 2 ^ (32 * w) := by
  unfold joinWords
  suffices h : ∀ (xs : List Nat), xs.foldr (fun i acc => (f i).toNat + 2 ^ 32 * acc) 0 < 2 ^ (32 * xs.length) by
    have := h (List.range w)
    rwa [List.length_range] at this
  intro xs
  induction xs with
  | nil => simp
  | cons x xs ih =>
    rw [List.foldr_cons, List.length_cons, Nat.mul_succ, Nat.pow_add, Nat.mul_comm (2 ^ (32 * xs.length))]
    have := (f x).isLt
    calc (f x).toNat + 2 ^ 32 * xs.foldr (fun i acc => (f i).toNat + 2 ^ 32 * acc) 0
        < 2 ^ 32 * 1 + 2 ^ 32 * xs.foldr (fun i acc => (f i).toNat + 2 ^ 32 * acc) 0 := by omega
      _ = 2 ^ 32 * (xs.foldr (fun i acc => (f i).toNat + 2 ^ 32 * acc) 0 + 1) := by
        rw [Nat.mul_add, Nat.add_comm]
      _ ≤ 2 ^ 32 * 2 ^ (32 * xs.length) := Nat.mul_le_mul_left _ ih

theorem intBits_lt (w : Nat) (i : Int) : intBits w i < 2 ^ w := by
  unfold intBits
  have h1 : (0 : Int) < (2 ^ w : Nat) := by exact_mod_cast Nat.two_pow_pos w
  have h2 := Int.emod_lt_of_pos i h1
  have h3 := Int.emod_nonneg i (Int.ne_of_gt h1)
  omega

/-- Whether a kind is an integer kind. -/
def Kind.isInt : Kind → Bool
  | .i32 | .i64 | .q128 => true
  | _ => false

theorem opnd_lt (s : State) (t : Team) (p : Pipe) (k : Kind) (h : k.isInt = true) (code l : Nat) :
    opnd s t p k code l < 2 ^ (32 * k.words) := by
  unfold opnd
  split
  · exact joinWords_lt _ _
  split
  · exact joinWords_lt _ _
  split
  · unfold inlineValue
    cases k <;> first | exact absurd h (by decide) | exact intBits_lt _ _
  · refine Nat.lt_of_lt_of_le (Nat.mod_lt _ (by decide)) (Nat.pow_le_pow_right (by decide) ?_)
    cases k <;> first | exact absurd h (by decide) | decide

/-- An operand that is read as an integer lies in the range of its words. -/
def inRange (k : Option Kind) (v : Nat) : Prop := ∀ kd, k = some kd → kd.isInt = true → v < 2 ^ (32 * kd.words)

theorem readOpt_inRange (s : State) (t : Team) (p : Pipe) (k : Option Kind) (code l : Nat) :
    inRange k (readOpt s t p k code l) := by
  intro kd hk hi
  subst hk
  exact opnd_lt s t p kd hi code l

/-- Two lane forms with the same operands and results that agree give the same. -/
theorem LaneGives.of {i : Instr} {p : LPre} {f : Form} {d a b w : Nat} {r : Reads} {eff eff' : Args → Nat × FFlags}
    (hx : ∀ s, exec i s = laneCompute s p f d a b w r eff') (hw : w = 0 ∨ (f.d ≠ .field ∧ f.d.width = w))
    (he : ∀ x : Args, inRange r.a x.a → inRange r.b x.b → inRange r.c x.c → inRange r.d x.d → eff' x = eff x) :
    LaneGives i p f d a b w r eff := by
  intro s t h
  have g := laneCompute_gives (r := r) (eff := eff') h hw
  rw [← hx] at g
  refine ⟨fun hm => ?_, g.2⟩
  obtain ⟨u, hu, hr⟩ := g.1 hm
  refine ⟨u, hu, ?_⟩
  have : (fun l => eff' (laneArgs s t f (laneCodes t p d a b) r l)) = fun l => eff (laneArgs s t f (laneCodes t p d a b) r l) :=
    funext fun l => he _ (readOpt_inRange _ _ _ _ _ _) (readOpt_inRange _ _ _ _ _ _) (readOpt_inRange _ _ _ _ _ _)
      (readOpt_inRange _ _ _ _ _ _)
  rwa [this] at hr

theorem crossColumn_inRange (s : State) (t : Team) (k : Option Kind) (code l : Nat) :
    inRange k (crossColumn s t k code l) := by
  unfold crossColumn
  split
  · exact readOpt_inRange _ _ _ _ _ _
  · intro kd _ _
    exact Nat.two_pow_pos _

theorem oldColumn_lt (t : Team) (k : Option Kind) (d l : Nat) : oldColumn t k d l < 2 ^ 32 := by
  unfold oldColumn
  split
  · split
    · unfold oldDest
      split <;> exact joinWords_lt 1 _
    · decide
  · decide

/-- Two cross-lane forms with the same operands and results that agree give the same. -/
theorem CrossGives.of {i : Instr} {p : LPre} {f : Form} {d a b w : Nat} {r : Reads}
    {eff eff' : Team → Mask → (Nat → Nat) → (Nat → Nat) → (Nat → Nat) → Nat → Nat × FFlags}
    (hx : ∀ s, exec i s = laneCross s p f d a b w r eff') (hf : f.pipe = .x) (hw : f.d ≠ .field ∧ f.d.width = w)
    (he : ∀ t m av bv dv l, (∀ j, inRange r.a (av j)) → (∀ j, inRange r.b (bv j)) → (∀ j, dv j < 2 ^ 32) →
      eff' t m av bv dv l = eff t m av bv dv l) : CrossGives i p f d a b w r eff := by
  intro s t h
  have g := laneCross_gives (r := r) (eff := eff') h hf hw
  rw [← hx] at g
  refine ⟨fun hm => ?_, g.2⟩
  obtain ⟨u, hu, hr⟩ := g.1 hm
  refine ⟨u, hu, ?_⟩
  have e : ∀ l, eff' t (effMask t p).1 (crossColumn s t r.a (laneCodes t p d a b).a)
      (crossColumn s t r.b (laneCodes t p d a b).b) (oldColumn t r.d (laneCodes t p d a b).d) l
      = eff t (effMask t p).1 (crossColumn s t r.a (laneCodes t p d a b).a)
      (crossColumn s t r.b (laneCodes t p d a b).b) (oldColumn t r.d (laneCodes t p d a b).d) l := fun l =>
    he _ _ _ _ _ _ (fun j => crossColumn_inRange _ _ _ _ j) (fun j => crossColumn_inRange _ _ _ _ j)
      (fun j => oldColumn_lt _ _ _ j)
  rwa [funext e] at hr

/-- Two uniform forms with the same operands and results that agree give the same. -/
theorem UniGives.of {i : Instr} {rep : Option Rep} {f : Form} {d a b w : Nat} {r : Reads} {eff eff' : Args → Nat}
    (hx : ∀ s, exec i s = uniCompute s rep f d a b w r eff') (hw : w = 0 ∨ (f.d ≠ .field ∧ f.d.width = w))
    (he : ∀ x : Args, inRange r.a x.a → inRange r.b x.b → inRange r.d x.d → eff' x = eff x) :
    UniGives i rep f d a b w r eff := by
  intro s t h
  have g := uniCompute_gives (r := r) (eff := eff') h hw
  rw [← hx] at g
  obtain ⟨u, hu, hr⟩ := g
  refine ⟨u, hu, ?_⟩
  have e := he ⟨readOpt s t f.pipe r.a (uniCodes t rep d a b).a 0, readOpt s t f.pipe r.b (uniCodes t rep d a b).b 0, 0,
    readOpt s t f.pipe r.d (uniCodes t rep d a b).d 0, 0⟩ (readOpt_inRange _ _ _ _ _ _) (readOpt_inRange _ _ _ _ _ _)
    (readOpt_inRange _ _ _ _ _ _)
  rwa [e] at hr

end Sys2Proof.Machine
end

