-- ==== Sys2Proof/Laws/PerInstr.lean ====
section
/-! SUPPORT. Decoding reads back what the encoder writes, one lemma for each constructor of Instr (R249 to R268 and the
encodings of the instruction chapters). -/

namespace Sys2Proof

/-! ## Bits as numbers -/

theorem nat_append {m n : Nat} (x : BitVec m) (y : BitVec n) : (x ++ y).toNat = x.toNat * 2 ^ n + y.toNat := by
  rw [BitVec.toNat_append, ← Nat.shiftLeft_add_eq_or_of_lt y.isLt, Nat.shiftLeft_eq]

theorem nat_extract {n : Nat} (x : BitVec n) (s l : Nat) : (x.extractLsb' s l).toNat = x.toNat / 2 ^ s % 2 ^ l := by
  rw [BitVec.extractLsb'_toNat, Nat.shiftRight_eq_div_pow]

theorem nat_bool (b : Bool) : (BitVec.ofBool b).toNat = b.toNat := by cases b <;> rfl

theorem lsb_nat {n : Nat} (x : BitVec n) (i : Nat) : x.getLsbD i = decide (x.toNat / 2 ^ i % 2 = 1) := by
  rw [BitVec.getLsbD, Nat.testBit_eq_decide_div_mod_eq]

theorem bits_ofBits (x : Word) : (IWord.ofBits x).bits = x := by
  apply BitVec.eq_of_toNat_eq
  simp only [IWord.ofBits, IWord.bits, nat_append, nat_extract]
  omega

theorem map_bits (ws : List Word) : (ws.map IWord.ofBits).map IWord.bits = ws := by
  rw [List.map_map]
  exact (List.map_congr_left fun x _ => bits_ofBits x).trans (List.map_id _)

theorem ofBits_fields (x : Word) : (IWord.ofBits x).d ++ (IWord.ofBits x).a ++ (IWord.ofBits x).b = x.extractLsb' 0 24 := by
  apply BitVec.eq_of_toNat_eq
  simp only [IWord.ofBits, nat_append, nat_extract]
  omega

theorem imm16_join (i : BitVec 16) : i.extractLsb' 8 8 ++ i.extractLsb' 0 8 = i := by
  apply BitVec.eq_of_toNat_eq
  simp only [nat_append, nat_extract]
  omega

theorem off24_join (i : BitVec 24) : i.extractLsb' 16 8 ++ i.extractLsb' 8 8 ++ i.extractLsb' 0 8 = i := by
  apply BitVec.eq_of_toNat_eq
  simp only [nat_append, nat_extract]
  omega

theorem low3 (n : BitVec 3) : (0#5 ++ n).extractLsb' 0 3 = n := by
  apply BitVec.eq_of_toNat_eq
  simp only [nat_append, nat_extract, BitVec.toNat_ofNat]
  omega

theorem high5 (n : BitVec 3) : (0#5 ++ n).extractLsb' 3 5 = 0#5 := by
  apply BitVec.eq_of_toNat_eq
  simp only [nat_append, nat_extract, BitVec.toNat_ofNat]
  omega

theorem low2 (n : BitVec 2) : (0#6 ++ n).extractLsb' 0 2 = n := by
  apply BitVec.eq_of_toNat_eq
  simp only [nat_append, nat_extract, BitVec.toNat_ofNat]
  omega

theorem high6 (n : BitVec 2) : (0#6 ++ n).extractLsb' 2 6 = 0#6 := by
  apply BitVec.eq_of_toNat_eq
  simp only [nat_append, nat_extract, BitVec.toNat_ofNat]
  omega

theorem low4 (m o : BitVec 4) : (m ++ o).extractLsb' 0 4 = o := by
  apply BitVec.eq_of_toNat_eq
  simp only [nat_append, nat_extract]
  omega

theorem high4 (m o : BitVec 4) : (m ++ o).extractLsb' 4 4 = m := by
  apply BitVec.eq_of_toNat_eq
  simp only [nat_append, nat_extract]
  omega

/-! ## Prefixes -/

theorem rep_ofWord (set : Byte) (r : Rep) : Rep.ofWord (r.word set) = .ok r := by
  obtain ⟨c, d, e, f, g⟩ := r
  unfold Rep.ofWord Rep.word
  rw [ofBits_fields]
  simp only [beq_iff_eq, BitVec.toNat_inj.symm, nat_append, nat_extract, BitVec.toNat_ofNat]
  rw [if_pos (by omega)]
  simp only [Except.ok.injEq, Rep.mk.injEq, BitVec.toNat_inj.symm, nat_append, nat_extract, BitVec.toNat_ofNat]
  omega

theorem rep_op (set : Byte) (r : Rep) : (r.word set).op = set := by
  obtain ⟨c, d, e, f, g⟩ := r
  apply BitVec.eq_of_toNat_eq
  simp only [Rep.word, IWord.ofBits, nat_append, nat_extract, BitVec.toNat_ofNat]
  omega

theorem pfx_ofWord (p : Pfx) : Pfx.ofWord p.word = p := by
  obtain ⟨c, m, zm, rm, ka, kb, kc, sat⟩ := p
  simp only [Pfx.ofWord, Pfx.word, Pfx.mk.injEq, lsb_nat, BitVec.toNat_inj.symm, nat_append, nat_extract, nat_bool]
  cases zm <;> cases ka <;> cases kb <;> cases kc <;> cases sat <;> simp <;> omega

theorem isPfx_not_rep {w : IWord} (h : isPfx w = true) : isRep w = false := by
  unfold isPfx at h
  unfold isRep
  rw [beq_iff_eq.1 h]
  rfl

/-- Words in the order of R249 decode to what their base word says. -/
theorem decode_parts (rep pfx : Option IWord) (w : IWord) (xs rest : List IWord) (h1 : ∀ r, rep = some r → isRep r = true)
    (h2 : ∀ x, pfx = some x → isPfx x = true) (h3 : isRep w = false) (h4 : isPfx w = false)
    (hn : extCount w = xs.length) :
    decodeWords (rep.toList ++ pfx.toList ++ w :: xs ++ rest)
      = ((decodeBase rep pfx w (xs.map IWord.bits)).bind checkWf).map fun i => (i, rest) := by
  have t1 : takeWord isRep (rep.toList ++ pfx.toList ++ w :: xs ++ rest) = (rep, pfx.toList ++ w :: xs ++ rest) := by
    cases rep with
    | some r => simp [takeWord, h1 r rfl]
    | none =>
      cases pfx with
      | some x => simp [takeWord, isPfx_not_rep (h2 x rfl)]
      | none => simp [takeWord, h3]
  have t2 : takeWord isPfx (pfx.toList ++ w :: xs ++ rest) = (pfx, w :: xs ++ rest) := by
    cases pfx with
    | some x => simp [takeWord, h2 x rfl]
    | none => simp [takeWord, h4]
  unfold decodeWords
  rw [t1]
  dsimp only
  rw [t2]
  simp [hn]

/-- A base word of an instruction, which is no prefix and is not reserved. -/
def plainOp (op : Byte) : Bool := !(op == 0x7E#8) && !(op == 0xFE#8) && !(op == 0x7F#8) && !reservedOp op

theorem plainOp_spec {w : IWord} (h : plainOp w.op = true) : isRep w = false ∧ isPfx w = false ∧ reservedOp w.op = false := by
  unfold plainOp at h
  unfold isRep isPfx
  simp only [Bool.and_eq_true, Bool.not_eq_true'] at h
  simp [h.1.1.1, h.1.1.2, h.1.2, h.2]

namespace Laws

namespace RoundTrip

/-- The words of a well-formed instruction decode to it, whatever follows them. -/
def Statement (i : Instr) : Prop :=
  i.wf = true → encode i ≠ [] → ∀ rest, decodeWords (encode i ++ rest) = .ok (i, rest)

theorem no_words {i : Instr} (h : encode i = []) : Statement i := fun _ h' => absurd h h'

/-- A lane instruction. -/
theorem lane_words (p : LPre) (w : IWord) (xs : List IWord) {i : Instr} (h : plainOp w.op = true)
    (hl : w.op.getLsbD 7 = false) (hn : extCount w = xs.length)
    (hd : decodeLane p.rep p.pfx w (xs.map IWord.bits) = .ok i) (he : encode i = p.words ++ w :: xs) : Statement i := by
  intro hwf _ rest
  obtain ⟨h1, h2, h3⟩ := plainOp_spec h
  have hw : encode i ++ rest = (p.rep.map (Rep.word 0x7E#8)).toList ++ (p.pfx.map Pfx.word).toList ++ w :: xs ++ rest := by
    rw [he]; rfl
  rw [hw, decode_parts _ _ w xs rest _ _ h1 h2 hn]
  · have hr : decodeRep true (p.rep.map (Rep.word 0x7E#8)) = .ok p.rep := by
      cases hp : p.rep with
      | none => rfl
      | some r => simp [decodeRep, rep_op, rep_ofWord, Except.map]
    have hx : (p.pfx.map Pfx.word).map Pfx.ofWord = p.pfx := by
      cases hp : p.pfx with
      | none => rfl
      | some r => simp [pfx_ofWord]
    unfold decodeBase
    rw [h1, h2, h3, hl, hr, hx]
    simp [Except.bind, hd, checkWf, hwf, Except.map]
  · intro r hr
    cases hp : p.rep with
    | none => simp [hp] at hr
    | some q => simp only [hp, Option.map_some, Option.some.injEq] at hr; subst hr; simp [isRep, rep_op]
  · intro r hr
    cases hp : p.pfx with
    | none => simp [hp] at hr
    | some q => simp only [hp, Option.map_some, Option.some.injEq] at hr; subst hr; rfl

theorem lane_one (p : LPre) (op d a b : Byte) {i : Instr}
    (h : (plainOp op && !op.getLsbD 7 && extCount ⟨op, 0#8, 0#8, 0#8⟩ == 0 && op != 0xB5#8) = true)
    (hd : decodeLaneOne p op.toNat d a b = .ok i) (he : encode i = p.words ++ [⟨op, d, a, b⟩]) : Statement i := by
  simp only [Bool.and_eq_true, Bool.not_eq_true', beq_iff_eq, bne_iff_ne, ne_eq] at h
  have hn : extCount ⟨op, d, a, b⟩ = 0 := by
    have := h.1.2
    have h5 : op.toNat ≠ 0xB5 := fun hc => h.2 (BitVec.eq_of_toNat_eq hc)
    unfold extCount at this ⊢
    simpa [h5] using this
  exact lane_words p ⟨op, d, a, b⟩ [] h.1.1.1 h.1.1.2 hn hd he

/-- An extension word whose fields the ordering extension gives (R268). -/
structure OrdWord (x : IWord) (f : OrdFields) : Prop where
  read : OrdFields.ofWord x.bits = .ok f

theorem ordCode (o : Order) : Order.ofCode o.code = some o := by cases o <;> rfl
theorem scopeCode (o : Scope) : Scope.ofCode o.code = some o := by cases o <;> rfl
theorem aopCode (o : AOp) : AOp.ofCode o.code = some o := by cases o <;> rfl

theorem ordWord_read (c : Byte) (ret : Bool) (aop : BitVec 4) (a : AOp) (b64 : Bool) (ord : Order) (sc : Scope)
    (ha : AOp.ofCode aop = some a) :
    OrdWord (ordWord c ret aop b64 ord.code sc.code) ⟨c, ret, aop, a, b64, ord, sc⟩ := by
  have ho := ord.code.isLt
  have hs := sc.code.isLt
  have e1 : (0#8 ++ c ++ 0#3 ++ BitVec.ofBool ret ++ aop ++ 0#1 ++ BitVec.ofBool b64 ++ ord.code ++ sc.code).extractLsb' 24 8
      = 0#8 := by
    apply BitVec.eq_of_toNat_eq
    simp only [nat_append, nat_extract, nat_bool, BitVec.toNat_ofNat]
    cases ret <;> cases b64 <;> simp <;> omega
  have e2 : (0#8 ++ c ++ 0#3 ++ BitVec.ofBool ret ++ aop ++ 0#1 ++ BitVec.ofBool b64 ++ ord.code ++ sc.code).extractLsb' 13 3
      = 0#3 := by
    apply BitVec.eq_of_toNat_eq
    simp only [nat_append, nat_extract, nat_bool, BitVec.toNat_ofNat]
    cases ret <;> cases b64 <;> simp <;> omega
  have e3 : (0#8 ++ c ++ 0#3 ++ BitVec.ofBool ret ++ aop ++ 0#1 ++ BitVec.ofBool b64 ++ ord.code ++ sc.code).extractLsb' 8 4
      = aop := by
    apply BitVec.eq_of_toNat_eq
    simp only [nat_append, nat_extract, nat_bool, BitVec.toNat_ofNat]
    cases ret <;> cases b64 <;> simp <;> omega
  have e4 : (0#8 ++ c ++ 0#3 ++ BitVec.ofBool ret ++ aop ++ 0#1 ++ BitVec.ofBool b64 ++ ord.code ++ sc.code).extractLsb' 3 3
      = ord.code := by
    apply BitVec.eq_of_toNat_eq
    simp only [nat_append, nat_extract, nat_bool, BitVec.toNat_ofNat]
    cases ret <;> cases b64 <;> simp <;> omega
  have e5 : (0#8 ++ c ++ 0#3 ++ BitVec.ofBool ret ++ aop ++ 0#1 ++ BitVec.ofBool b64 ++ ord.code ++ sc.code).extractLsb' 0 3
      = sc.code := by
    apply BitVec.eq_of_toNat_eq
    simp only [nat_append, nat_extract, nat_bool, BitVec.toNat_ofNat]
    cases ret <;> cases b64 <;> simp <;> omega
  have e6 : (0#8 ++ c ++ 0#3 ++ BitVec.ofBool ret ++ aop ++ 0#1 ++ BitVec.ofBool b64 ++ ord.code ++ sc.code).extractLsb' 16 8
      = c := by
    apply BitVec.eq_of_toNat_eq
    simp only [nat_append, nat_extract, nat_bool, BitVec.toNat_ofNat]
    cases ret <;> cases b64 <;> simp <;> omega
  have e7 : (0#8 ++ c ++ 0#3 ++ BitVec.ofBool ret ++ aop ++ 0#1 ++ BitVec.ofBool b64 ++ ord.code ++ sc.code).getLsbD 7
      = false := by
    rw [lsb_nat]
    simp only [nat_append, nat_bool, BitVec.toNat_ofNat]
    cases ret <;> cases b64 <;> simp <;> omega
  have e8 : (0#8 ++ c ++ 0#3 ++ BitVec.ofBool ret ++ aop ++ 0#1 ++ BitVec.ofBool b64 ++ ord.code ++ sc.code).getLsbD 12
      = ret := by
    rw [lsb_nat]
    simp only [nat_append, nat_bool, BitVec.toNat_ofNat]
    cases ret <;> cases b64 <;> simp <;> omega
  have e9 : (0#8 ++ c ++ 0#3 ++ BitVec.ofBool ret ++ aop ++ 0#1 ++ BitVec.ofBool b64 ++ ord.code ++ sc.code).getLsbD 6
      = b64 := by
    rw [lsb_nat]
    simp only [nat_append, nat_bool, BitVec.toNat_ofNat]
    cases ret <;> cases b64 <;> simp <;> omega
  constructor
  unfold ordWord OrdFields.ofWord
  rw [bits_ofBits, e1, e2, e3, e4, e5, ha, ordCode, scopeCode]
  simp only [e6, e7, e8, e9]
  rfl

theorem plainWord (b64 : Bool) (ord : Order) (sc : Scope) :
    OrdWord (ordWord 0#8 false 0#4 b64 ord.code sc.code) ⟨0#8, false, 0#4, .add, b64, ord, sc⟩ :=
  ordWord_read 0#8 false 0#4 .add b64 ord sc rfl

theorem atomWord (x : AtomExt) : OrdWord x.word ⟨x.c, x.ret, x.aop.code, x.aop, x.b64, x.ord, x.sc⟩ :=
  ordWord_read x.c x.ret x.aop.code x.aop x.b64 x.ord x.sc (aopCode _)

theorem lane_two (p : Option Pfx) (op d a b : Byte) (x : IWord) {f : OrdFields} {i : Instr}
    (h : (plainOp op && !op.getLsbD 7 && extCount ⟨op, 0#8, 0#8, 0#8⟩ == 1 && op != 0xB5#8) = true) (hx : OrdWord x f)
    (hd : decodeLaneTwo p op.toNat d a b f = .ok i) (he : encode i = pfxWords p ++ [⟨op, d, a, b⟩, x]) : Statement i := by
  simp only [Bool.and_eq_true, Bool.not_eq_true', beq_iff_eq, bne_iff_ne, ne_eq] at h
  have hn : extCount ⟨op, d, a, b⟩ = 1 := by
    have := h.1.2
    have h5 : op.toNat ≠ 0xB5 := fun hc => h.2 (BitVec.eq_of_toNat_eq hc)
    unfold extCount at this ⊢
    simpa [h5] using this
  refine lane_words ⟨none, p⟩ ⟨op, d, a, b⟩ [x] h.1.1.1 h.1.1.2 hn ?_ he
  unfold decodeLane
  simp [hx.read, Except.bind, hd]

/-- A uniform instruction. -/
theorem uni_words (rep : Option Rep) (w : IWord) (xs : List IWord) {i : Instr} (h : plainOp w.op = true)
    (hl : w.op.getLsbD 7 = true) (hn : extCount w = xs.length)
    (hd : decodeUni rep w (xs.map IWord.bits) = .ok i) (he : encode i = uniRepWords rep ++ w :: xs) : Statement i := by
  intro hwf _ rest
  obtain ⟨h1, h2, h3⟩ := plainOp_spec h
  have hw : encode i ++ rest = (rep.map (Rep.word 0xFE#8)).toList ++ (none : Option IWord).toList ++ w :: xs ++ rest := by
    rw [he, uniRepWords, Option.toList_none, List.append_nil]
  rw [hw, decode_parts _ none w xs rest _ (fun _ hx => nomatch hx) h1 h2 hn]
  · have hr : decodeRep false (rep.map (Rep.word 0xFE#8)) = .ok rep := by
      cases hp : rep with
      | none => rfl
      | some r => simp [decodeRep, rep_op, rep_ofWord, Except.map]
    unfold decodeBase
    rw [h1, h2, h3, hl, hr]
    simp [Except.bind, hd, checkWf, hwf, Except.map]
  · intro r hr
    cases hp : rep with
    | none => simp [hp] at hr
    | some q => simp only [hp, Option.map_some, Option.some.injEq] at hr; subst hr; simp [isRep, rep_op]

theorem uni_rep (r : Option Rep) (op d a b : Byte) {i : Instr}
    (h : (plainOp op && op.getLsbD 7 && decide (op.toNat ≤ 0x9C) && extCount ⟨op, 0#8, 0#8, 0#8⟩ == 0) = true)
    (hd : decodeUniRep r op.toNat d a b = .ok i) (he : encode i = uniRepWords r ++ [⟨op, d, a, b⟩]) : Statement i := by
  simp only [Bool.and_eq_true, beq_iff_eq, decide_eq_true_eq] at h
  have hn : extCount ⟨op, d, a, b⟩ = 0 := by
    have := h.2
    have h5 : op.toNat ≠ 0xB5 := by have := h.1.2; omega
    unfold extCount at this ⊢
    simpa [h5] using this
  refine uni_words r ⟨op, d, a, b⟩ [] h.1.1.1 h.1.1.2 hn ?_ he
  unfold decodeUni
  dsimp only
  rw [if_pos h.1.2]
  exact hd

/-- The base word of a uniform instruction that REP does not precede, with `n` extension words. -/
def uniOp (op : Byte) (n : Nat) : Bool :=
  plainOp op && op.getLsbD 7 && decide (0x9C < op.toNat) && extCount ⟨op, 0#8, 0#8, 0#8⟩ == n && op != 0xB5#8

theorem uni_ext (op d a b : Byte) (xs : List IWord) {i : Instr} (h : uniOp op xs.length = true)
    (hd : decodeUni none ⟨op, d, a, b⟩ (xs.map IWord.bits) = .ok i) (he : encode i = ⟨op, d, a, b⟩ :: xs) : Statement i := by
  unfold uniOp at h
  simp only [Bool.and_eq_true, beq_iff_eq, decide_eq_true_eq, bne_iff_ne, ne_eq] at h
  have h5 : op.toNat ≠ 0xB5 := fun hc => h.2 (BitVec.eq_of_toNat_eq hc)
  have hn : extCount ⟨op, d, a, b⟩ = xs.length := by
    have := h.1.2
    unfold extCount at this ⊢
    simpa [h5] using this
  exact uni_words none ⟨op, d, a, b⟩ xs h.1.1.1.1 h.1.1.1.2 hn hd he

theorem uni_one (op d a b : Byte) {i : Instr} (h : uniOp op 0 = true)
    (hd : decodeUniOne op.toNat d a b = .ok i) (he : encode i = [⟨op, d, a, b⟩]) : Statement i := by
  refine uni_ext op d a b [] h ?_ he
  unfold uniOp at h
  simp only [Bool.and_eq_true, beq_iff_eq, decide_eq_true_eq, bne_iff_ne, ne_eq] at h
  have h5 : op.toNat ≠ 0xB5 := fun hc => h.2 (BitVec.eq_of_toNat_eq hc)
  unfold decodeUni
  dsimp only
  rw [if_neg (by omega), if_neg h5]
  exact hd

theorem uni_two (op d a b : Byte) (x : IWord) {i : Instr} (h : uniOp op 1 = true)
    (hd : decodeUniTwo op.toNat d a b x.bits = .ok i) (he : encode i = [⟨op, d, a, b⟩, x]) : Statement i := by
  refine uni_ext op d a b [x] h ?_ he
  unfold uniOp at h
  simp only [Bool.and_eq_true, beq_iff_eq, decide_eq_true_eq, bne_iff_ne, ne_eq] at h
  have h5 : op.toNat ≠ 0xB5 := fun hc => h.2 (BitVec.eq_of_toNat_eq hc)
  unfold decodeUni
  dsimp only
  rw [if_neg (by omega), if_neg h5]
  exact hd

theorem uni_many (op d a b : Byte) (x y : IWord) (xs : List IWord) {i : Instr} (h : uniOp op (xs.length + 2) = true)
    (hd : decodeUniMany op.toNat d a b (x.bits :: y.bits :: xs.map IWord.bits) = .ok i)
    (he : encode i = ⟨op, d, a, b⟩ :: x :: y :: xs) : Statement i := by
  refine uni_ext op d a b (x :: y :: xs) h ?_ he
  unfold uniOp at h
  simp only [Bool.and_eq_true, beq_iff_eq, decide_eq_true_eq, bne_iff_ne, ne_eq] at h
  have h5 : op.toNat ≠ 0xB5 := fun hc => h.2 (BitVec.eq_of_toNat_eq hc)
  unfold decodeUni
  dsimp only
  rw [if_neg (by omega), if_neg h5]
  exact hd

/-! ## Extension words of copies and matrix instructions -/

theorem copyExt_read (x : CopyExt) : CopyExt.ofWords
    (0#6 ++ x.eop ++ x.mode ++ x.dir ++ BitVec.ofBool x.dc ++ BitVec.ofBool x.ben ++ x.bar ++ x.bytes)
    (x.spitch ++ x.dpitch) = .ok x := by
  obtain ⟨eop, mode, dir, dc, ben, bar, bytes, spitch, dpitch⟩ := x
  unfold CopyExt.ofWords
  rw [if_pos (by
    rw [beq_iff_eq]
    apply BitVec.eq_of_toNat_eq
    simp only [nat_append, nat_extract, nat_bool, BitVec.toNat_ofNat]
    cases dc <;> cases ben <;> simp <;> omega)]
  simp only [Except.ok.injEq, CopyExt.mk.injEq, lsb_nat, BitVec.toNat_inj.symm, nat_append, nat_extract, nat_bool,
    BitVec.toNat_ofNat]
  cases dc <;> cases ben <;> simp <;> omega

theorem gatherExt_read (x : GatherExt) : GatherExt.ofWords
    (BitVec.ofBool x.ts ++ BitVec.ofBool x.scat ++ BitVec.ofBool x.gchk ++ BitVec.ofBool x.ben ++ x.bar ++ x.n ++ x.rowb)
    (x.mode ++ x.trows) = x := by
  obtain ⟨ts, scat, gchk, ben, bar, n, rowb, mode, trows⟩ := x
  simp only [GatherExt.ofWords, GatherExt.mk.injEq, lsb_nat, BitVec.toNat_inj.symm, nat_append, nat_extract, nat_bool]
  cases ts <;> cases scat <;> cases gchk <;> cases ben <;> simp <;> omega

theorem mmaExt_read (x : MmaExt) : MmaExt.ofWords
    (x.fa ++ x.fb ++ x.m ++ x.n ++ x.k ++ BitVec.ofBool x.ha ++ BitVec.ofBool x.hb ++ BitVec.ofBool x.zero ++ x.df ++ x.pln
      ++ x.prec)
    (x.cb ++ BitVec.ofBool x.cbf ++ x.blka ++ x.blkb ++ BitVec.ofBool x.rsum ++ x.rs ++ 0#8) = .ok x := by
  obtain ⟨fa, fb, m, n, k, ha, hb, zero, df, pln, prec, cb, cbf, blka, blkb, rsum, rs⟩ := x
  unfold MmaExt.ofWords
  rw [if_pos (by
    rw [beq_iff_eq]
    apply BitVec.eq_of_toNat_eq
    simp only [nat_append, nat_extract, nat_bool, BitVec.toNat_ofNat]
    omega)]
  simp only [Except.ok.injEq, MmaExt.mk.injEq, lsb_nat, BitVec.toNat_inj.symm, nat_append, nat_extract, nat_bool,
    BitVec.toNat_ofNat]
  have h1 := Bool.toNat_lt ha
  have h2 := Bool.toNat_lt hb
  have h3 := Bool.toNat_lt zero
  have h4 := Bool.toNat_lt cbf
  have h5 := Bool.toNat_lt rsum
  have bool_eq (b : Bool) (v : Nat) (hv : v = b.toNat) : decide (v = 1) = b := by subst hv; cases b <;> rfl
  refine ⟨?_, ?_, ?_, ?_, ?_, bool_eq _ _ ?_, bool_eq _ _ ?_, bool_eq _ _ ?_, ?_, ?_, ?_, ?_, bool_eq _ _ ?_, ?_, ?_,
    bool_eq _ _ ?_, ?_⟩ <;> omega

theorem mbinExt_read (x : MbinExt) : MbinExt.ofWords x.word.bits (0#8 ++ 0#8 ++ 0#8 ++ 0#8) = .ok x := by
  obtain ⟨m, n, k, ha, hb, zero, df, bop⟩ := x
  have bool_eq (b : Bool) (v : Nat) (hv : v = b.toNat) : decide (v = 1) = b := by subst hv; cases b <;> rfl
  have h1 := Bool.toNat_lt ha
  have h2 := Bool.toNat_lt hb
  have h3 := Bool.toNat_lt zero
  unfold MbinExt.word
  rw [bits_ofBits]
  unfold MbinExt.ofWords
  rw [if_pos (by
    simp only [Bool.and_eq_true, beq_iff_eq]
    refine ⟨⟨?_, ?_⟩, by rfl⟩ <;> apply BitVec.eq_of_toNat_eq <;>
      simp only [nat_append, nat_extract, nat_bool, BitVec.toNat_ofNat] <;> omega)]
  simp only [Except.ok.injEq, MbinExt.mk.injEq, lsb_nat, BitVec.toNat_inj.symm, nat_append, nat_extract, nat_bool,
    BitVec.toNat_ofNat]
  refine ⟨?_, ?_, ?_, bool_eq _ _ ?_, bool_eq _ _ ?_, bool_eq _ _ ?_, ?_, ?_⟩ <;> omega

theorem msprExt_read (x : MsprExt) : MsprExt.ofWords
    (0#4 ++ x.fb ++ x.nf ++ x.n ++ x.k ++ 0#1 ++ BitVec.ofBool x.hb ++ BitVec.ofBool x.zero ++ 0#8)
    (x.cb ++ BitVec.ofBool x.cbf ++ 0#23) = .ok x := by
  obtain ⟨fb, nf, n, k, hb, zero, cb, cbf⟩ := x
  have bool_eq (b : Bool) (v : Nat) (hv : v = b.toNat) : decide (v = 1) = b := by subst hv; cases b <;> rfl
  have h1 := Bool.toNat_lt hb
  have h2 := Bool.toNat_lt zero
  have h3 := Bool.toNat_lt cbf
  unfold MsprExt.ofWords
  rw [if_pos (by
    simp only [Bool.and_eq_true, Bool.not_eq_true', beq_iff_eq, lsb_nat, decide_eq_false_iff_not]
    refine ⟨⟨⟨?_, ?_⟩, ?_⟩, ?_⟩ <;> (try apply BitVec.eq_of_toNat_eq) <;>
      simp only [nat_append, nat_extract, nat_bool, BitVec.toNat_ofNat] <;> omega)]
  simp only [Except.ok.injEq, MsprExt.mk.injEq, lsb_nat, BitVec.toNat_inj.symm, nat_append, nat_extract, nat_bool,
    BitVec.toNat_ofNat]
  refine ⟨?_, ?_, ?_, ?_, bool_eq _ _ ?_, bool_eq _ _ ?_, ?_, bool_eq _ _ ?_⟩ <;> omega

/-- A reserved opcode is that of no prefix and has no extension words. -/
theorem reserved_plain (op d a b : Byte) :
    (reservedOp op && (isRep ⟨op, d, a, b⟩ || isPfx ⟨op, d, a, b⟩ || extCount ⟨op, d, a, b⟩ != 0)) = false := by
  have h : ∀ op : Byte, (reservedOp op && (op == 0x7E#8 || op == 0xFE#8 || op == 0x7F#8 || op == 0xB5#8
      || extCount ⟨op, 0#8, 0#8, 0#8⟩ != 0)) = false := by decide
  have := h op
  by_cases h5 : op = 0xB5#8
  · subst h5; rfl
  · have he : extCount ⟨op, d, a, b⟩ = extCount ⟨op, 0#8, 0#8, 0#8⟩ := by
      have h6 : op.toNat ≠ 0xB5 := fun hc => h5 (BitVec.eq_of_toNat_eq hc)
      unfold extCount
      simp [h6]
    unfold isRep isPfx
    rw [he]
    simpa [h5] using this

/-! ## One lemma for each constructor -/

theorem nop (p : LPre) : Statement (.nop p) := lane_one p 0x00#8 _ _ _ rfl rfl rfl
theorem mov (p : LPre) (d a : Byte) : Statement (.mov p d a) := lane_one p 0x01#8 _ _ _ rfl rfl rfl
theorem movi (p : LPre) (d : Byte) (i : BitVec 16) : Statement (.movi p d i) :=
  lane_one p 0x02#8 d _ _ rfl (congrArg (fun v => Except.ok (Instr.movi p d v)) (imm16_join i)) rfl
theorem movhi (p : LPre) (d : Byte) (i : BitVec 16) : Statement (.movhi p d i) :=
  lane_one p 0x03#8 d _ _ rfl (congrArg (fun v => Except.ok (Instr.movhi p d v)) (imm16_join i)) rfl
theorem iadd (p : LPre) (d a b : Byte) : Statement (.iadd p d a b) := lane_one p 0x04#8 _ _ _ rfl rfl rfl
theorem isub (p : LPre) (d a b : Byte) : Statement (.isub p d a b) := lane_one p 0x05#8 _ _ _ rfl rfl rfl
theorem iaddi (p : LPre) (d : Byte) (i : BitVec 16) : Statement (.iaddi p d i) :=
  lane_one p 0x06#8 d _ _ rfl (congrArg (fun v => Except.ok (Instr.iaddi p d v)) (imm16_join i)) rfl
theorem imul (p : LPre) (d a b : Byte) : Statement (.imul p d a b) := lane_one p 0x07#8 _ _ _ rfl rfl rfl
theorem imulhi (p : LPre) (d a b : Byte) : Statement (.imulhi p d a b) := lane_one p 0x08#8 _ _ _ rfl rfl rfl
theorem umulhi (p : LPre) (d a b : Byte) : Statement (.umulhi p d a b) := lane_one p 0x09#8 _ _ _ rfl rfl rfl
theorem imad (p : LPre) (d a b : Byte) : Statement (.imad p d a b) := lane_one p 0x0A#8 _ _ _ rfl rfl rfl
theorem iadd64 (p : LPre) (d a b : Byte) : Statement (.iadd64 p d a b) := lane_one p 0x0B#8 _ _ _ rfl rfl rfl
theorem imin (p : LPre) (d a b : Byte) : Statement (.imin p d a b) := lane_one p 0x0C#8 _ _ _ rfl rfl rfl
theorem imax (p : LPre) (d a b : Byte) : Statement (.imax p d a b) := lane_one p 0x0D#8 _ _ _ rfl rfl rfl
theorem umin (p : LPre) (d a b : Byte) : Statement (.umin p d a b) := lane_one p 0x0E#8 _ _ _ rfl rfl rfl
theorem umax (p : LPre) (d a b : Byte) : Statement (.umax p d a b) := lane_one p 0x0F#8 _ _ _ rfl rfl rfl
theorem and (p : LPre) (d a b : Byte) : Statement (.and p d a b) := lane_one p 0x10#8 _ _ _ rfl rfl rfl
theorem or (p : LPre) (d a b : Byte) : Statement (.or p d a b) := lane_one p 0x11#8 _ _ _ rfl rfl rfl
theorem xor (p : LPre) (d a b : Byte) : Statement (.xor p d a b) := lane_one p 0x12#8 _ _ _ rfl rfl rfl
theorem andn (p : LPre) (d a b : Byte) : Statement (.andn p d a b) := lane_one p 0x13#8 _ _ _ rfl rfl rfl
theorem shl (p : LPre) (d a b : Byte) : Statement (.shl p d a b) := lane_one p 0x14#8 _ _ _ rfl rfl rfl
theorem shr (p : LPre) (d a b : Byte) : Statement (.shr p d a b) := lane_one p 0x15#8 _ _ _ rfl rfl rfl
theorem sar (p : LPre) (d a b : Byte) : Statement (.sar p d a b) := lane_one p 0x16#8 _ _ _ rfl rfl rfl
theorem rotl (p : LPre) (d a b : Byte) : Statement (.rotl p d a b) := lane_one p 0x17#8 _ _ _ rfl rfl rfl
theorem bfx (p : LPre) (d a b : Byte) : Statement (.bfx p d a b) := lane_one p 0x18#8 _ _ _ rfl rfl rfl
theorem bfxs (p : LPre) (d a b : Byte) : Statement (.bfxs p d a b) := lane_one p 0x19#8 _ _ _ rfl rfl rfl
theorem bfi (p : LPre) (d a b : Byte) : Statement (.bfi p d a b) := lane_one p 0x1A#8 _ _ _ rfl rfl rfl
theorem sel (p : LPre) (d a b : Byte) : Statement (.sel p d a b) := lane_one p 0x1B#8 _ _ _ rfl rfl rfl
theorem popc (p : LPre) (d a : Byte) : Statement (.popc p d a) := lane_one p 0x1C#8 _ _ _ rfl rfl rfl
theorem clz (p : LPre) (d a : Byte) : Statement (.clz p d a) := lane_one p 0x1D#8 _ _ _ rfl rfl rfl
theorem brev (p : LPre) (d a : Byte) : Statement (.brev p d a) := lane_one p 0x1E#8 _ _ _ rfl rfl rfl
theorem prmt (p : LPre) (d a b : Byte) : Statement (.prmt p d a b) := lane_one p 0x1F#8 _ _ _ rfl rfl rfl
theorem iseteq (p : LPre) (d a b : Byte) : Statement (.iseteq p d a b) := lane_one p 0x20#8 _ _ _ rfl rfl rfl
theorem isetne (p : LPre) (d a b : Byte) : Statement (.isetne p d a b) := lane_one p 0x21#8 _ _ _ rfl rfl rfl
theorem isetlt (p : LPre) (d a b : Byte) : Statement (.isetlt p d a b) := lane_one p 0x22#8 _ _ _ rfl rfl rfl
theorem isetle (p : LPre) (d a b : Byte) : Statement (.isetle p d a b) := lane_one p 0x23#8 _ _ _ rfl rfl rfl
theorem usetlt (p : LPre) (d a b : Byte) : Statement (.usetlt p d a b) := lane_one p 0x24#8 _ _ _ rfl rfl rfl
theorem usetle (p : LPre) (d a b : Byte) : Statement (.usetle p d a b) := lane_one p 0x25#8 _ _ _ rfl rfl rfl
theorem fseteq (p : LPre) (d a b : Byte) : Statement (.fseteq p d a b) := lane_one p 0x26#8 _ _ _ rfl rfl rfl
theorem fsetne (p : LPre) (d a b : Byte) : Statement (.fsetne p d a b) := lane_one p 0x27#8 _ _ _ rfl rfl rfl
theorem fsetlt (p : LPre) (d a b : Byte) : Statement (.fsetlt p d a b) := lane_one p 0x28#8 _ _ _ rfl rfl rfl
theorem fsetle (p : LPre) (d a b : Byte) : Statement (.fsetle p d a b) := lane_one p 0x29#8 _ _ _ rfl rfl rfl
theorem fsetun (p : LPre) (d a b : Byte) : Statement (.fsetun p d a b) := lane_one p 0x2A#8 _ _ _ rfl rfl rfl
theorem fadd (p : LPre) (d a b : Byte) : Statement (.fadd p d a b) := lane_one p 0x30#8 _ _ _ rfl rfl rfl
theorem fsub (p : LPre) (d a b : Byte) : Statement (.fsub p d a b) := lane_one p 0x31#8 _ _ _ rfl rfl rfl
theorem fmul (p : LPre) (d a b : Byte) : Statement (.fmul p d a b) := lane_one p 0x32#8 _ _ _ rfl rfl rfl
theorem ffma (p : LPre) (d a b : Byte) : Statement (.ffma p d a b) := lane_one p 0x33#8 _ _ _ rfl rfl rfl
theorem fmin (p : LPre) (d a b : Byte) : Statement (.fmin p d a b) := lane_one p 0x34#8 _ _ _ rfl rfl rfl
theorem fmax (p : LPre) (d a b : Byte) : Statement (.fmax p d a b) := lane_one p 0x35#8 _ _ _ rfl rfl rfl
theorem fabs (p : LPre) (d a : Byte) : Statement (.fabs p d a) := lane_one p 0x36#8 _ _ _ rfl rfl rfl
theorem fneg (p : LPre) (d a : Byte) : Statement (.fneg p d a) := lane_one p 0x37#8 _ _ _ rfl rfl rfl
theorem hadd2 (p : LPre) (d a b : Byte) : Statement (.hadd2 p d a b) := lane_one p 0x38#8 _ _ _ rfl rfl rfl
theorem hmul2 (p : LPre) (d a b : Byte) : Statement (.hmul2 p d a b) := lane_one p 0x39#8 _ _ _ rfl rfl rfl
theorem hfma2 (p : LPre) (d a b : Byte) : Statement (.hfma2 p d a b) := lane_one p 0x3A#8 _ _ _ rfl rfl rfl
theorem bfma2 (p : LPre) (d a b : Byte) : Statement (.bfma2 p d a b) := lane_one p 0x3B#8 _ _ _ rfl rfl rfl
theorem fdot2 (p : LPre) (d a b : Byte) : Statement (.fdot2 p d a b) := lane_one p 0x3C#8 _ _ _ rfl rfl rfl
theorem fscale (p : LPre) (d a b : Byte) : Statement (.fscale p d a b) := lane_one p 0x3D#8 _ _ _ rfl rfl rfl
theorem fclass (p : LPre) (d a : Byte) : Statement (.fclass p d a) := lane_one p 0x3E#8 _ _ _ rfl rfl rfl
theorem cvt (p : LPre) (d a s : Byte) : Statement (.cvt p d a s) := lane_one p 0x40#8 _ _ _ rfl rfl rfl
theorem sfu (p : LPre) (d a f : Byte) : Statement (.sfu p d a f) := lane_one p 0x48#8 _ _ _ rfl rfl rfl
theorem dadd (p : LPre) (d a b : Byte) : Statement (.dadd p d a b) := lane_one p 0x49#8 _ _ _ rfl rfl rfl
theorem dmul (p : LPre) (d a b : Byte) : Statement (.dmul p d a b) := lane_one p 0x4A#8 _ _ _ rfl rfl rfl
theorem dfma (p : LPre) (d a b : Byte) : Statement (.dfma p d a b) := lane_one p 0x4B#8 _ _ _ rfl rfl rfl
theorem dmin (p : LPre) (d a b : Byte) : Statement (.dmin p d a b) := lane_one p 0x4C#8 _ _ _ rfl rfl rfl
theorem dmax (p : LPre) (d a b : Byte) : Statement (.dmax p d a b) := lane_one p 0x4D#8 _ _ _ rfl rfl rfl
theorem dsetlt (p : LPre) (d a b : Byte) : Statement (.dsetlt p d a b) := lane_one p 0x4E#8 _ _ _ rfl rfl rfl
theorem dseteq (p : LPre) (d a b : Byte) : Statement (.dseteq p d a b) := lane_one p 0x4F#8 _ _ _ rfl rfl rfl
theorem rng (p : LPre) (d : Byte) : Statement (.rng p d) := lane_one p 0x50#8 _ _ _ rfl rfl rfl
theorem actv (p : LPre) (d a b : Byte) : Statement (.actv p d a b) := lane_one p 0x51#8 _ _ _ rfl rfl rfl
theorem shfl (p : LPre) (d a b : Byte) : Statement (.shfl p d a b) := lane_one p 0x58#8 _ _ _ rfl rfl rfl
theorem shflx (p : LPre) (d a b : Byte) : Statement (.shflx p d a b) := lane_one p 0x59#8 _ _ _ rfl rfl rfl
theorem shflu (p : LPre) (d a b : Byte) : Statement (.shflu p d a b) := lane_one p 0x5A#8 _ _ _ rfl rfl rfl
theorem shfld (p : LPre) (d a b : Byte) : Statement (.shfld p d a b) := lane_one p 0x5B#8 _ _ _ rfl rfl rfl
theorem ballot (p : LPre) (d a : Byte) : Statement (.ballot p d a) := lane_one p 0x5C#8 _ _ _ rfl rfl rfl
theorem redadd (p : LPre) (d a : Byte) : Statement (.redadd p d a) := lane_one p 0x5D#8 _ _ _ rfl rfl rfl
theorem redfadd (p : LPre) (d a : Byte) : Statement (.redfadd p d a) := lane_one p 0x5E#8 _ _ _ rfl rfl rfl
theorem redmax (p : LPre) (d a : Byte) : Statement (.redmax p d a) := lane_one p 0x5F#8 _ _ _ rfl rfl rfl
theorem redmin (p : LPre) (d a : Byte) : Statement (.redmin p d a) := lane_one p 0x60#8 _ _ _ rfl rfl rfl
theorem scanadd (p : LPre) (d a : Byte) : Statement (.scanadd p d a) := lane_one p 0x61#8 _ _ _ rfl rfl rfl
theorem bxch (p : LPre) (d a b : Byte) : Statement (.bxch p d a b) := lane_one p 0x62#8 _ _ _ rfl rfl rfl
theorem frdc (p : LPre) (d : Byte) (n : BitVec 3) : Statement (.frdc p d n) :=
  lane_one p 0x63#8 d (0#5 ++ n) 0#8 rfl (by
    change need ((0#5 ++ n).extractLsb' 3 5 == 0#5 && true) (.frdc p d ((0#5 ++ n).extractLsb' 0 3)) = _
    rw [low3, high5]; rfl) rfl
theorem frdv (p : LPre) (d : Byte) (n : BitVec 3) : Statement (.frdv p d n) :=
  lane_one p 0x64#8 d (0#5 ++ n) 0#8 rfl (by
    change need ((0#5 ++ n).extractLsb' 3 5 == 0#5 && true) (.frdv p d ((0#5 ++ n).extractLsb' 0 3)) = _
    rw [low3, high5]; rfl) rfl
theorem ldb (p : LPre) (d a o : Byte) : Statement (.ldb p d a o) := lane_one p 0x68#8 _ _ _ rfl rfl rfl
theorem ldbs (p : LPre) (d a o : Byte) : Statement (.ldbs p d a o) := lane_one p 0x69#8 _ _ _ rfl rfl rfl
theorem ldh (p : LPre) (d a o : Byte) : Statement (.ldh p d a o) := lane_one p 0x6A#8 _ _ _ rfl rfl rfl
theorem ldhs (p : LPre) (d a o : Byte) : Statement (.ldhs p d a o) := lane_one p 0x6B#8 _ _ _ rfl rfl rfl
theorem ldw (p : LPre) (d a o : Byte) : Statement (.ldw p d a o) := lane_one p 0x6C#8 _ _ _ rfl rfl rfl
theorem ldd (p : LPre) (d a o : Byte) : Statement (.ldd p d a o) := lane_one p 0x6D#8 _ _ _ rfl rfl rfl
theorem ldq (p : LPre) (d a o : Byte) : Statement (.ldq p d a o) := lane_one p 0x6E#8 _ _ _ rfl rfl rfl
theorem stb (p : LPre) (d a o : Byte) : Statement (.stb p d a o) := lane_one p 0x6F#8 _ _ _ rfl rfl rfl
theorem sth (p : LPre) (d a o : Byte) : Statement (.sth p d a o) := lane_one p 0x70#8 _ _ _ rfl rfl rfl
theorem stw (p : LPre) (d a o : Byte) : Statement (.stw p d a o) := lane_one p 0x71#8 _ _ _ rfl rfl rfl
theorem std (p : LPre) (d a o : Byte) : Statement (.std p d a o) := lane_one p 0x72#8 _ _ _ rfl rfl rfl
theorem stq (p : LPre) (d a o : Byte) : Statement (.stq p d a o) := lane_one p 0x73#8 _ _ _ rfl rfl rfl
theorem stbm (p : LPre) (d a o : Byte) : Statement (.stbm p d a o) := lane_one p 0x74#8 _ _ _ rfl rfl rfl
theorem ldt (p : LPre) (d a : Byte) (m : BitVec 4) (o : BitVec 4) : Statement (.ldt p d a m o) :=
  lane_one p 0x75#8 d a (m ++ o) rfl (by
    change Except.ok (Instr.ldt p d a ((m ++ o).extractLsb' 4 4) ((m ++ o).extractLsb' 0 4)) = _
    rw [low4, high4]) rfl
theorem stt (p : LPre) (d a : Byte) (m : BitVec 4) (o : BitVec 4) : Statement (.stt p d a m o) :=
  lane_one p 0x76#8 d a (m ++ o) rfl (by
    change Except.ok (Instr.stt p d a ((m ++ o).extractLsb' 4 4) ((m ++ o).extractLsb' 0 4)) = _
    rw [low4, high4]) rfl
theorem ldtq (p : LPre) (d a : Byte) (m : BitVec 4) (o : BitVec 4) : Statement (.ldtq p d a m o) :=
  lane_one p 0x77#8 d a (m ++ o) rfl (by
    change Except.ok (Instr.ldtq p d a ((m ++ o).extractLsb' 4 4) ((m ++ o).extractLsb' 0 4)) = _
    rw [low4, high4]) rfl
theorem sttq (p : LPre) (d a : Byte) (m : BitVec 4) (o : BitVec 4) : Statement (.sttq p d a m o) :=
  lane_one p 0x78#8 d a (m ++ o) rfl (by
    change Except.ok (Instr.sttq p d a ((m ++ o).extractLsb' 4 4) ((m ++ o).extractLsb' 0 4)) = _
    rw [low4, high4]) rfl
theorem ldx (p : Option Pfx) (d a o : Byte) (b64 : Bool) (ord : Order) (sc : Scope) : Statement (.ldx p d a o b64 ord sc) :=
  lane_two p 0x79#8 d a o _ rfl (plainWord b64 ord sc) rfl rfl
theorem stx (p : Option Pfx) (d a o : Byte) (b64 : Bool) (ord : Order) (sc : Scope) : Statement (.stx p d a o b64 ord sc) :=
  lane_two p 0x7A#8 d a o _ rfl (plainWord b64 ord sc) rfl rfl
theorem atom (p : Option Pfx) (d a b : Byte) (x : AtomExt) : Statement (.atom p d a b x) :=
  lane_two p 0x7B#8 d a b _ rfl (atomWord x) (by cases x; rfl) rfl
theorem atomt (p : Option Pfx) (d a b : Byte) (x : AtomExt) : Statement (.atomt p d a b x) :=
  lane_two p 0x7C#8 d a b _ rfl (atomWord x) (by cases x; rfl) rfl
theorem unop (r : Option Rep) : Statement (.unop r) := uni_rep r 0x80#8 _ _ _ rfl rfl rfl
theorem umov (r : Option Rep) (d a : Byte) : Statement (.umov r d a) := uni_rep r 0x81#8 _ _ _ rfl rfl rfl
theorem umovi (r : Option Rep) (d : Byte) (i : BitVec 16) : Statement (.umovi r d i) :=
  uni_rep r 0x82#8 d _ _ rfl (congrArg (fun v => Except.ok (Instr.umovi r d v)) (imm16_join i)) rfl
theorem umovhi (r : Option Rep) (d : Byte) (i : BitVec 16) : Statement (.umovhi r d i) :=
  uni_rep r 0x83#8 d _ _ rfl (congrArg (fun v => Except.ok (Instr.umovhi r d v)) (imm16_join i)) rfl
theorem uiadd (r : Option Rep) (d a b : Byte) : Statement (.uiadd r d a b) := uni_rep r 0x84#8 _ _ _ rfl rfl rfl
theorem uisub (r : Option Rep) (d a b : Byte) : Statement (.uisub r d a b) := uni_rep r 0x85#8 _ _ _ rfl rfl rfl
theorem uiaddi (r : Option Rep) (d : Byte) (i : BitVec 16) : Statement (.uiaddi r d i) :=
  uni_rep r 0x86#8 d _ _ rfl (congrArg (fun v => Except.ok (Instr.uiaddi r d v)) (imm16_join i)) rfl
theorem uimul (r : Option Rep) (d a b : Byte) : Statement (.uimul r d a b) := uni_rep r 0x87#8 _ _ _ rfl rfl rfl
theorem uimad (r : Option Rep) (d a b : Byte) : Statement (.uimad r d a b) := uni_rep r 0x88#8 _ _ _ rfl rfl rfl
theorem uiadd64 (r : Option Rep) (d a b : Byte) : Statement (.uiadd64 r d a b) := uni_rep r 0x89#8 _ _ _ rfl rfl rfl
theorem uminUni (r : Option Rep) (d a b : Byte) : Statement (.uminUni r d a b) := uni_rep r 0x8A#8 _ _ _ rfl rfl rfl
theorem umaxUni (r : Option Rep) (d a b : Byte) : Statement (.umaxUni r d a b) := uni_rep r 0x8B#8 _ _ _ rfl rfl rfl
theorem uand (r : Option Rep) (d a b : Byte) : Statement (.uand r d a b) := uni_rep r 0x8C#8 _ _ _ rfl rfl rfl
theorem uor (r : Option Rep) (d a b : Byte) : Statement (.uor r d a b) := uni_rep r 0x8D#8 _ _ _ rfl rfl rfl
theorem uxor (r : Option Rep) (d a b : Byte) : Statement (.uxor r d a b) := uni_rep r 0x8E#8 _ _ _ rfl rfl rfl
theorem ushl (r : Option Rep) (d a b : Byte) : Statement (.ushl r d a b) := uni_rep r 0x8F#8 _ _ _ rfl rfl rfl
theorem ushr (r : Option Rep) (d a b : Byte) : Statement (.ushr r d a b) := uni_rep r 0x90#8 _ _ _ rfl rfl rfl
theorem usar (r : Option Rep) (d a b : Byte) : Statement (.usar r d a b) := uni_rep r 0x91#8 _ _ _ rfl rfl rfl
theorem ubfx (r : Option Rep) (d a b : Byte) : Statement (.ubfx r d a b) := uni_rep r 0x92#8 _ _ _ rfl rfl rfl
theorem ubfi (r : Option Rep) (d a b : Byte) : Statement (.ubfi r d a b) := uni_rep r 0x93#8 _ _ _ rfl rfl rfl
theorem upopc (r : Option Rep) (d a : Byte) : Statement (.upopc r d a) := uni_rep r 0x94#8 _ _ _ rfl rfl rfl
theorem uclz (r : Option Rep) (d a : Byte) : Statement (.uclz r d a) := uni_rep r 0x95#8 _ _ _ rfl rfl rfl
theorem usel (r : Option Rep) (d a b : Byte) : Statement (.usel r d a b) := uni_rep r 0x96#8 _ _ _ rfl rfl rfl
theorem uiseteq (r : Option Rep) (d a b : Byte) : Statement (.uiseteq r d a b) := uni_rep r 0x97#8 _ _ _ rfl rfl rfl
theorem uisetne (r : Option Rep) (d a b : Byte) : Statement (.uisetne r d a b) := uni_rep r 0x98#8 _ _ _ rfl rfl rfl
theorem uisetlt (r : Option Rep) (d a b : Byte) : Statement (.uisetlt r d a b) := uni_rep r 0x99#8 _ _ _ rfl rfl rfl
theorem uisetle (r : Option Rep) (d a b : Byte) : Statement (.uisetle r d a b) := uni_rep r 0x9A#8 _ _ _ rfl rfl rfl
theorem uusetlt (r : Option Rep) (d a b : Byte) : Statement (.uusetlt r d a b) := uni_rep r 0x9B#8 _ _ _ rfl rfl rfl
theorem uusetle (r : Option Rep) (d a b : Byte) : Statement (.uusetle r d a b) := uni_rep r 0x9C#8 _ _ _ rfl rfl rfl
theorem jmp (o : BitVec 24) : Statement (.jmp o) :=
  uni_one 0xA0#8 _ _ _ rfl (congrArg (fun v => Except.ok (Instr.jmp v)) (off24_join o)) rfl
theorem call (o : BitVec 24) : Statement (.call o) :=
  uni_one 0xA1#8 _ _ _ rfl (congrArg (fun v => Except.ok (Instr.call v)) (off24_join o)) rfl
theorem ret : Statement (.ret) := uni_one 0xA2#8 _ _ _ rfl rfl rfl
theorem jmpr (a : Byte) : Statement (.jmpr a) := uni_one 0xA3#8 _ _ _ rfl rfl rfl
theorem ubrz (r : Byte) (o : BitVec 16) : Statement (.ubrz r o) :=
  uni_one 0xA4#8 r _ _ rfl (congrArg (fun v => Except.ok (Instr.ubrz r v)) (imm16_join o)) rfl
theorem ubrnz (r : Byte) (o : BitVec 16) : Statement (.ubrnz r o) :=
  uni_one 0xA5#8 r _ _ rfl (congrArg (fun v => Except.ok (Instr.ubrnz r v)) (imm16_join o)) rfl
theorem ifI (r : Byte) (o : BitVec 16) : Statement (.ifI r o) :=
  uni_one 0xA8#8 r _ _ rfl (congrArg (fun v => Except.ok (Instr.ifI r v)) (imm16_join o)) rfl
theorem elseI (o : BitVec 24) : Statement (.elseI o) :=
  uni_one 0xA9#8 _ _ _ rfl (congrArg (fun v => Except.ok (Instr.elseI v)) (off24_join o)) rfl
theorem endif : Statement (.endif) := uni_one 0xAA#8 _ _ _ rfl rfl rfl
theorem loop (o : BitVec 24) : Statement (.loop o) :=
  uni_one 0xAB#8 _ _ _ rfl (congrArg (fun v => Except.ok (Instr.loop v)) (off24_join o)) rfl
theorem brk (r : Byte) : Statement (.brk r) := uni_one 0xAC#8 _ _ _ rfl rfl rfl
theorem cont (r : Byte) : Statement (.cont r) := uni_one 0xAD#8 _ _ _ rfl rfl rfl
theorem endloop (o : BitVec 24) : Statement (.endloop o) :=
  uni_one 0xAE#8 _ _ _ rfl (congrArg (fun v => Except.ok (Instr.endloop v)) (off24_join o)) rfl
theorem uany (d a : Byte) : Statement (.uany d a) := uni_one 0xAF#8 _ _ _ rfl rfl rfl
theorem exit : Statement (.exit) := uni_one 0xB0#8 _ _ _ rfl rfl rfl
theorem trap (n : Byte) : Statement (.trap n) := uni_one 0xB1#8 _ _ _ rfl rfl rfl
theorem bkpt (n : Byte) : Statement (.bkpt n) := uni_one 0xB2#8 _ _ _ rfl rfl rfl
theorem yield : Statement (.yield) := uni_one 0xB3#8 _ _ _ rfl rfl rfl
theorem region (live : BitVec 160) : Statement (.region live) :=
  by
  refine uni_many 0xB4#8 0#8 0#8 0#8 _ _ [_, _, _] rfl ?_ rfl
  simp only [List.map_cons, List.map_nil, bits_ofBits]
  change Except.ok (Instr.region (live.extractLsb' 128 32 ++ live.extractLsb' 96 32 ++ live.extractLsb' 64 32
    ++ live.extractLsb' 32 32 ++ live.extractLsb' 0 32)) = _
  congr 2
  apply BitVec.eq_of_toNat_eq
  simp only [nat_append, nat_extract]
  omega
theorem ocld (ws : List Word) : Statement (.ocld ws) :=
  by
  intro hwf _ rest
  have hlen : 1 ≤ ws.length ∧ ws.length ≤ 4 := by
    have h : ocldOk ws = true := hwf
    unfold ocldOk at h
    simp only [Bool.and_eq_true, decide_eq_true_eq] at h
    exact h.1.1
  have hn : (BitVec.ofNat 8 ws.length).extractLsb' 0 3 = BitVec.ofNat 3 ws.length := by
    apply BitVec.eq_of_toNat_eq
    simp only [nat_extract, BitVec.toNat_ofNat]
    omega
  have hz : (BitVec.ofNat 8 ws.length).extractLsb' 3 5 = 0#5 := by
    apply BitVec.eq_of_toNat_eq
    simp only [nat_extract, BitVec.toNat_ofNat]
    omega
  have hd : decodeUni none ⟨0xB5#8, BitVec.ofNat 8 ws.length, 0#8, 0#8⟩ ((ws.map IWord.ofBits).map IWord.bits)
      = .ok (.ocld ws) := by
    rw [map_bits]
    change need ((BitVec.ofNat 8 ws.length).extractLsb' 3 5 == 0#5 && true && true) (.ocld ws) = _
    rw [hz]
    rfl
  refine uni_words none ⟨0xB5#8, BitVec.ofNat 8 ws.length, 0#8, 0#8⟩ (ws.map IWord.ofBits)
    (show plainOp 0xB5#8 = true by rfl) (show (0xB5#8).getLsbD 7 = true by rfl) ?_ hd rfl hwf (fun h => nomatch h) rest
  change ((BitVec.ofNat 8 ws.length).extractLsb' 0 3).toNat = _
  rw [hn, List.length_map, BitVec.toNat_ofNat]
  omega
theorem ocdrop (a b : Byte) : Statement (.ocdrop a b) := uni_one 0xB6#8 _ _ _ rfl rfl rfl
theorem ocdropAll : Statement (.ocdropAll) := uni_one 0xB6#8 _ _ _ rfl rfl rfl
theorem alloc (d : Byte) (res : Bool) (acc : BitVec 12) (tile : BitVec 10) (regs : BitVec 5) : Statement (.alloc d res acc tile regs) :=
  by
  refine uni_two 0xB8#8 d 0#8 0#8 _ rfl ?_ rfl
  rw [bits_ofBits]
  have e1 : (BitVec.ofBool res ++ 0#4 ++ acc ++ tile ++ regs).extractLsb' 27 4 = 0#4 := by
    apply BitVec.eq_of_toNat_eq
    simp only [nat_append, nat_extract, nat_bool, BitVec.toNat_ofNat]
    cases res <;> simp <;> omega
  have e2 : (BitVec.ofBool res ++ 0#4 ++ acc ++ tile ++ regs).getLsbD 31 = res := by
    rw [lsb_nat]
    simp only [nat_append, nat_bool, BitVec.toNat_ofNat]
    cases res <;> simp <;> omega
  have e3 : (BitVec.ofBool res ++ 0#4 ++ acc ++ tile ++ regs).extractLsb' 15 12 = acc := by
    apply BitVec.eq_of_toNat_eq
    simp only [nat_append, nat_extract, nat_bool, BitVec.toNat_ofNat]
    cases res <;> simp <;> omega
  have e4 : (BitVec.ofBool res ++ 0#4 ++ acc ++ tile ++ regs).extractLsb' 5 10 = tile := by
    apply BitVec.eq_of_toNat_eq
    simp only [nat_append, nat_extract, nat_bool, BitVec.toNat_ofNat]
    cases res <;> simp <;> omega
  have e5 : (BitVec.ofBool res ++ 0#4 ++ acc ++ tile ++ regs).extractLsb' 0 5 = regs := by
    apply BitVec.eq_of_toNat_eq
    simp only [nat_append, nat_extract, nat_bool, BitVec.toNat_ofNat]
    cases res <;> simp <;> omega
  change need (true && true && (BitVec.ofBool res ++ 0#4 ++ acc ++ tile ++ regs).extractLsb' 27 4 == 0#4)
    (.alloc d ((BitVec.ofBool res ++ 0#4 ++ acc ++ tile ++ regs).getLsbD 31)
      ((BitVec.ofBool res ++ 0#4 ++ acc ++ tile ++ regs).extractLsb' 15 12)
      ((BitVec.ofBool res ++ 0#4 ++ acc ++ tile ++ regs).extractLsb' 5 10)
      ((BitVec.ofBool res ++ 0#4 ++ acc ++ tile ++ regs).extractLsb' 0 5)) = _
  rw [e1, e2, e3, e4, e5]
  rfl
theorem free : Statement (.free) :=
  uni_two 0xB9#8 0#8 0#8 0#8 ⟨0#8, 0#8, 0#8, 0#8⟩ rfl rfl rfl
theorem srd (d s : Byte) : Statement (.srd d s) := uni_one 0xBA#8 _ _ _ rfl rfl rfl
theorem swr (s : Byte) (e : BitVec 16) : Statement (.swr s e) :=
  fun hwf => by
    have hne : (e.extractLsb' 8 8 == 0#8 && e.extractLsb' 0 8 == 0x20#8) = false := by
      rw [Bool.and_eq_false_iff]
      simp only [beq_eq_false_iff_ne]
      by_contra hc
      simp only [not_or, ne_eq, Decidable.not_not] at hc
      have he : e = 0x20#16 := by rw [← imm16_join e, hc.1, hc.2]; rfl
      have : (e != 0x20#16) = true := hwf
      rw [he] at this
      exact absurd this (by decide)
    refine uni_one 0xBB#8 s (e.extractLsb' 8 8) (e.extractLsb' 0 8) rfl ?_ rfl hwf
    change (if (e.extractLsb' 8 8 == 0#8 && e.extractLsb' 0 8 == 0x20#8) = true then _ else _) = _
    rw [hne, imm16_join]
    rfl
theorem swrSigclr (s : Byte) : Statement (.swrSigclr s) := uni_one 0xBB#8 _ _ _ rfl rfl rfl
theorem rtt : Statement (.rtt) := uni_one 0xBC#8 _ _ _ rfl rfl rfl
theorem rttHead : Statement (.rttHead) := uni_one 0xBC#8 _ _ _ rfl rfl rfl
theorem uld (d a o : Byte) : Statement (.uld d a o) := uni_one 0xC0#8 _ _ _ rfl rfl rfl
theorem uldd (d a o : Byte) : Statement (.uldd d a o) := uni_one 0xC1#8 _ _ _ rfl rfl rfl
theorem ust (d a o : Byte) : Statement (.ust d a o) := uni_one 0xC2#8 _ _ _ rfl rfl rfl
theorem ustd (d a o : Byte) : Statement (.ustd d a o) := uni_one 0xC3#8 _ _ _ rfl rfl rfl
theorem fence (ord : Order) (sc : Scope) : Statement (.fence ord sc) :=
  fun hwf => (uni_two 0xC4#8 0#8 0#8 0#8 _ rfl (by
    change (OrdFields.ofWord _).bind _ = _
    rw [(plainWord false ord sc).read]
    rfl) rfl) hwf
theorem barSync (n : BitVec 4) : Statement (.barSync n) :=
  uni_two 0xC5#8 0#8 0#8 (0#4 ++ n) ⟨0#8, 0#8, 0#8, 0#8⟩ rfl (by
    change decodeBar 0#8 0#8 (0#4 ++ n) (IWord.bits ⟨0#8, 0#8, 0#8, 0#8⟩) = _
    unfold decodeBar
    rw [low4, high4]
    rfl) rfl
theorem barArv (n : BitVec 4) : Statement (.barArv n) :=
  uni_two 0xC5#8 0#8 0#8 (0#4 ++ n) ⟨0#8, 0#8, 0#8, 1#8⟩ rfl (by
    change decodeBar 0#8 0#8 (0#4 ++ n) (IWord.bits ⟨0#8, 0#8, 0#8, 1#8⟩) = _
    unfold decodeBar
    rw [low4, high4]
    rfl) rfl
theorem barInit (n : BitVec 4) (a : Byte) : Statement (.barInit n a) :=
  uni_two 0xC5#8 0#8 a (0#4 ++ n) ⟨0#8, 0#8, 0#8, 2#8⟩ rfl (by
    change decodeBar 0#8 a (0#4 ++ n) (IWord.bits ⟨0#8, 0#8, 0#8, 2#8⟩) = _
    unfold decodeBar
    rw [low4, high4]
    rfl) rfl
theorem barx (a b : Byte) (sc : Scope) : Statement (.barx a b sc) :=
  uni_two 0xC6#8 0#8 a b _ rfl (by
    change (OrdFields.ofWord _).bind _ = _
    have hx : OrdFields.ofWord (ordWord 0#8 false 0#4 false 0#3 sc.code).bits = _ := (plainWord false .rlx sc).read
    rw [hx]
    rfl) rfl
theorem promote (d a : Byte) (b64 : Bool) (sc : Scope) : Statement (.promote d a b64 sc) :=
  uni_two 0xC7#8 d a 0#8 _ rfl (by
    change (OrdFields.ofWord _).bind _ = _
    have hx : OrdFields.ofWord (ordWord 0#8 false 0#4 b64 1#3 sc.code).bits = _ := (plainWord b64 .acq sc).read
    rw [hx]
    rfl) rfl
theorem uatom (d a b : Byte) (x : AtomExt) : Statement (.uatom d a b x) :=
  uni_two 0xC8#8 d a b _ rfl (by
    change (OrdFields.ofWord _).bind _ = _
    rw [(atomWord x).read]
    cases x; rfl) rfl
theorem reopen (d a b : Byte) : Statement (.reopen d a b) := uni_one 0xCA#8 _ _ _ rfl rfl rfl
theorem vinv (a : Byte) : Statement (.vinv a) := uni_one 0xCB#8 _ _ _ rfl rfl rfl
theorem vinvAll : Statement (.vinvAll) := uni_one 0xCB#8 _ _ _ rfl rfl rfl
theorem actld (a : Byte) (t : BitVec 2) : Statement (.actld a t) :=
  uni_one 0xCC#8 (0#6 ++ t) a 0#8 rfl (by
    change need ((0#6 ++ t).extractLsb' 2 6 == 0#6 && true) (.actld a ((0#6 ++ t).extractLsb' 0 2)) = _
    rw [low2, high6]; rfl) rfl
theorem cpy (d a b : Byte) (x : CopyExt) : Statement (.cpy d a b x) :=
  uni_many 0xD0#8 d a b _ _ [] rfl (by
    simp only [List.map_nil, bits_ofBits]
    change (CopyExt.ofWords _ _).bind _ = _
    rw [copyExt_read x]
    rfl) rfl
theorem cpyg (d a b : Byte) (x : GatherExt) : Statement (.cpyg d a b x) :=
  uni_many 0xD1#8 d a b _ _ [] rfl (by
    simp only [List.map_nil, bits_ofBits]
    change Except.ok (Instr.cpyg d a b (GatherExt.ofWords _ _)) = _
    rw [gatherExt_read x]) rfl
theorem cpys (d a b : Byte) (x : CopyExt) : Statement (.cpys d a b x) :=
  uni_many 0xD2#8 d a b _ _ [] rfl (by
    simp only [List.map_nil, bits_ofBits]
    change (CopyExt.ofWords _ _).bind _ = _
    rw [copyExt_read x]
    rfl) rfl
theorem aseal (d : Byte) : Statement (.aseal d) := uni_one 0xD3#8 _ _ _ rfl rfl rfl
theorem await (a : Byte) : Statement (.await a) := uni_one 0xD4#8 _ _ _ rfl rfl rfl
theorem atest (d a : Byte) : Statement (.atest d a) := uni_one 0xD5#8 _ _ _ rfl rfl rfl
theorem tsgive (a b : Byte) : Statement (.tsgive a b) := uni_one 0xD6#8 _ _ _ rfl rfl rfl
theorem tstake (d a : Byte) : Statement (.tstake d a) := uni_one 0xD7#8 _ _ _ rfl rfl rfl
theorem fopen (n : BitVec 3) (a b cnt : Byte) (elem : BitVec 6) : Statement (.fopen n a b cnt elem) :=
  uni_two 0xD8#8 (0#5 ++ n) a b _ rfl (by
    rw [bits_ofBits]
    change need ((0#5 ++ n).extractLsb' 3 5 == 0#5 && (0#18 ++ elem ++ cnt).extractLsb' 14 18 == 0#18)
      (.fopen ((0#5 ++ n).extractLsb' 0 3) a b ((0#18 ++ elem ++ cnt).extractLsb' 0 8)
        ((0#18 ++ elem ++ cnt).extractLsb' 8 6)) = _
    have e1 : (0#18 ++ elem ++ cnt).extractLsb' 14 18 = 0#18 := by
      apply BitVec.eq_of_toNat_eq
      simp only [nat_append, nat_extract, BitVec.toNat_ofNat]
      omega
    have e2 : (0#18 ++ elem ++ cnt).extractLsb' 0 8 = cnt := by
      apply BitVec.eq_of_toNat_eq
      simp only [nat_append, nat_extract, BitVec.toNat_ofNat]
      omega
    have e3 : (0#18 ++ elem ++ cnt).extractLsb' 8 6 = elem := by
      apply BitVec.eq_of_toNat_eq
      simp only [nat_append, nat_extract, BitVec.toNat_ofNat]
      omega
    rw [low3, high5, e1, e2, e3]
    rfl) rfl
theorem fadv (n : BitVec 3) : Statement (.fadv n) :=
  uni_one 0xD9#8 0#8 (0#5 ++ n) 0#8 rfl (by
    change need ((0#5 ++ n).extractLsb' 3 5 == 0#5 && true && true) (.fadv ((0#5 ++ n).extractLsb' 0 3)) = _
    rw [low3, high5]; rfl) rfl
theorem fend (d : Byte) (n : BitVec 3) : Statement (.fend d n) :=
  uni_one 0xDA#8 d (0#5 ++ n) 0#8 rfl (by
    change need ((0#5 ++ n).extractLsb' 3 5 == 0#5 && true) (.fend d ((0#5 ++ n).extractLsb' 0 3)) = _
    rw [low3, high5]; rfl) rfl
theorem fclose (n : BitVec 3) : Statement (.fclose n) :=
  uni_one 0xDB#8 0#8 (0#5 ++ n) 0#8 rfl (by
    change need ((0#5 ++ n).extractLsb' 3 5 == 0#5 && true && true) (.fclose ((0#5 ++ n).extractLsb' 0 3)) = _
    rw [low3, high5]; rfl) rfl
theorem mma (d a b : Byte) (x : MmaExt) : Statement (.mma d a b x) :=
  uni_many 0xE0#8 d a b _ _ [] rfl (by
    simp only [List.map_nil, bits_ofBits]
    change (MmaExt.ofWords _ _).bind _ = _
    rw [mmaExt_read x]
    rfl) rfl
theorem mmal (d a b : Byte) (x : MmaExt) (ainc binc cinc steps : Byte) : Statement (.mmal d a b x ainc binc cinc steps) :=
  uni_many 0xE1#8 d a b _ _ [⟨ainc, binc, cinc, steps⟩] rfl (by
    simp only [List.map_nil, List.map_cons, bits_ofBits]
    change (MmaExt.ofWords _ _).bind _ = _
    rw [mmaExt_read x]
    change Except.ok (Instr.mmal d a b x ((ainc ++ binc ++ cinc ++ steps).extractLsb' 24 8)
      ((ainc ++ binc ++ cinc ++ steps).extractLsb' 16 8) ((ainc ++ binc ++ cinc ++ steps).extractLsb' 8 8)
      ((ainc ++ binc ++ cinc ++ steps).extractLsb' 0 8)) = _
    have e1 : (ainc ++ binc ++ cinc ++ steps).extractLsb' 24 8 = ainc := by
      apply BitVec.eq_of_toNat_eq
      simp only [nat_append, nat_extract]
      omega
    have e2 : (ainc ++ binc ++ cinc ++ steps).extractLsb' 16 8 = binc := by
      apply BitVec.eq_of_toNat_eq
      simp only [nat_append, nat_extract]
      omega
    have e3 : (ainc ++ binc ++ cinc ++ steps).extractLsb' 8 8 = cinc := by
      apply BitVec.eq_of_toNat_eq
      simp only [nat_append, nat_extract]
      omega
    have e4 : (ainc ++ binc ++ cinc ++ steps).extractLsb' 0 8 = steps := by
      apply BitVec.eq_of_toNat_eq
      simp only [nat_append, nat_extract]
      omega
    rw [e1, e2, e3, e4]) rfl
theorem mbin (d a b : Byte) (x : MbinExt) : Statement (.mbin d a b x) :=
  uni_many 0xE2#8 d a b x.word ⟨0#8, 0#8, 0#8, 0#8⟩ [] rfl (by
    change (MbinExt.ofWords x.word.bits (0#8 ++ 0#8 ++ 0#8 ++ 0#8)).bind _ = _
    rw [mbinExt_read x]
    rfl) rfl
theorem mspr (d b : Byte) (fib : BitVec 3) (x : MsprExt) : Statement (.mspr d b fib x) :=
  uni_many 0xE3#8 d (0#5 ++ fib) b _ _ [] rfl (by
    simp only [List.map_nil, bits_ofBits]
    change (MsprExt.ofWords _ _).bind _ = _
    rw [msprExt_read x]
    change need ((0#5 ++ fib).extractLsb' 3 5 == 0#5) (.mspr d b ((0#5 ++ fib).extractLsb' 0 3) x) = _
    rw [low3, high5]
    rfl) rfl
theorem msca (d a b : Byte) (x : MscaExt) : Statement (.msca d a b x) :=
  uni_two 0xE4#8 d a b _ rfl (by
    rw [bits_ofBits]
    obtain ⟨m, n, sfa, sfb, zero⟩ := x
    dsimp only
    generalize hw : m ++ n ++ sfa ++ sfb ++ BitVec.ofBool zero ++ 0#17 = w
    have e0 : w.extractLsb' 0 17 = 0#17 := by
      subst hw; apply BitVec.eq_of_toNat_eq
      simp only [nat_append, nat_extract, nat_bool, BitVec.toNat_ofNat]; cases zero <;> simp
    have e1 : w.extractLsb' 25 7 = m := by
      subst hw; apply BitVec.eq_of_toNat_eq
      simp only [nat_append, nat_extract, nat_bool, BitVec.toNat_ofNat]; cases zero <;> simp <;> omega
    have e2 : w.extractLsb' 22 3 = n := by
      subst hw; apply BitVec.eq_of_toNat_eq
      simp only [nat_append, nat_extract, nat_bool, BitVec.toNat_ofNat]; cases zero <;> simp <;> omega
    have e3 : w.extractLsb' 20 2 = sfa := by
      subst hw; apply BitVec.eq_of_toNat_eq
      simp only [nat_append, nat_extract, nat_bool, BitVec.toNat_ofNat]; cases zero <;> simp <;> omega
    have e4 : w.extractLsb' 18 2 = sfb := by
      subst hw; apply BitVec.eq_of_toNat_eq
      simp only [nat_append, nat_extract, nat_bool, BitVec.toNat_ofNat]; cases zero <;> simp <;> omega
    have e5 : w.getLsbD 17 = zero := by
      subst hw; rw [lsb_nat]
      simp only [nat_append, nat_bool, BitVec.toNat_ofNat]; cases zero <;> simp
    change need (w.extractLsb' 0 17 == 0#17)
      (.msca d a b ⟨w.extractLsb' 25 7, w.extractLsb' 22 3, w.extractLsb' 20 2, w.extractLsb' 18 2, w.getLsbD 17⟩) = _
    rw [e0, e1, e2, e3, e4, e5]
    rfl) rfl
theorem mszp (d a b : Byte) (x : MszpExt) : Statement (.mszp d a b x) :=
  uni_two 0xE5#8 d a b _ rfl (by
    rw [bits_ofBits]
    obtain ⟨m, n, sf, zf, zero, rs⟩ := x
    dsimp only
    generalize hw : m ++ n ++ sf ++ zf ++ BitVec.ofBool zero ++ 0#1 ++ rs ++ 0#8 = w
    have e0 : w.extractLsb' 0 8 = 0#8 := by
      subst hw; apply BitVec.eq_of_toNat_eq
      simp only [nat_append, nat_extract, nat_bool, BitVec.toNat_ofNat]; cases zero <;> simp
    have e1 : w.extractLsb' 25 7 = m := by
      subst hw; apply BitVec.eq_of_toNat_eq
      simp only [nat_append, nat_extract, nat_bool, BitVec.toNat_ofNat]; cases zero <;> simp <;> omega
    have e2 : w.extractLsb' 22 3 = n := by
      subst hw; apply BitVec.eq_of_toNat_eq
      simp only [nat_append, nat_extract, nat_bool, BitVec.toNat_ofNat]; cases zero <;> simp <;> omega
    have e3 : w.extractLsb' 20 2 = sf := by
      subst hw; apply BitVec.eq_of_toNat_eq
      simp only [nat_append, nat_extract, nat_bool, BitVec.toNat_ofNat]; cases zero <;> simp <;> omega
    have e4 : w.extractLsb' 18 2 = zf := by
      subst hw; apply BitVec.eq_of_toNat_eq
      simp only [nat_append, nat_extract, nat_bool, BitVec.toNat_ofNat]; cases zero <;> simp <;> omega
    have e5 : w.getLsbD 17 = zero := by
      subst hw; rw [lsb_nat]
      simp only [nat_append, nat_bool, BitVec.toNat_ofNat]; cases zero <;> simp <;> omega
    have e6 : w.getLsbD 16 = false := by
      subst hw; rw [lsb_nat]
      simp only [nat_append, nat_bool, BitVec.toNat_ofNat]; cases zero <;> simp <;> omega
    have e7 : w.extractLsb' 8 8 = rs := by
      subst hw; apply BitVec.eq_of_toNat_eq
      simp only [nat_append, nat_extract, nat_bool, BitVec.toNat_ofNat]; cases zero <;> simp <;> omega
    change need (!w.getLsbD 16 && w.extractLsb' 0 8 == 0#8)
      (.mszp d a b ⟨w.extractLsb' 25 7, w.extractLsb' 22 3, w.extractLsb' 20 2, w.extractLsb' 18 2, w.getLsbD 17,
        w.extractLsb' 8 8⟩) = _
    rw [e0, e1, e2, e3, e4, e5, e6, e7]
    rfl) rfl
theorem mzero (a b : Byte) : Statement (.mzero a b) := uni_one 0xE6#8 _ _ _ rfl rfl rfl
theorem mrd (d a : Byte) (wc : BitVec 2) (col : BitVec 7) : Statement (.mrd d a wc col) :=
  uni_two 0xE7#8 d a 0#8 _ rfl (by
    rw [bits_ofBits]
    have e0 : (wc ++ col ++ 0#23).extractLsb' 0 23 = 0#23 := by
      apply BitVec.eq_of_toNat_eq
      simp only [nat_append, nat_extract, BitVec.toNat_ofNat]
      omega
    have e1 : (wc ++ col ++ 0#23).extractLsb' 30 2 = wc := by
      apply BitVec.eq_of_toNat_eq
      simp only [nat_append, nat_extract, BitVec.toNat_ofNat]
      omega
    have e2 : (wc ++ col ++ 0#23).extractLsb' 23 7 = col := by
      apply BitVec.eq_of_toNat_eq
      simp only [nat_append, nat_extract, BitVec.toNat_ofNat]
      omega
    change need (true && (wc ++ col ++ 0#23).extractLsb' 0 23 == 0#23)
      (.mrd d a ((wc ++ col ++ 0#23).extractLsb' 30 2) ((wc ++ col ++ 0#23).extractLsb' 23 7)) = _
    rw [e0, e1, e2]
    rfl) rfl
theorem mwr (d a : Byte) (wc : BitVec 2) (col : BitVec 7) : Statement (.mwr d a wc col) :=
  uni_two 0xE8#8 d a 0#8 _ rfl (by
    rw [bits_ofBits]
    have e0 : (wc ++ col ++ 0#23).extractLsb' 0 23 = 0#23 := by
      apply BitVec.eq_of_toNat_eq
      simp only [nat_append, nat_extract, BitVec.toNat_ofNat]
      omega
    have e1 : (wc ++ col ++ 0#23).extractLsb' 30 2 = wc := by
      apply BitVec.eq_of_toNat_eq
      simp only [nat_append, nat_extract, BitVec.toNat_ofNat]
      omega
    have e2 : (wc ++ col ++ 0#23).extractLsb' 23 7 = col := by
      apply BitVec.eq_of_toNat_eq
      simp only [nat_append, nat_extract, BitVec.toNat_ofNat]
      omega
    change need (true && (wc ++ col ++ 0#23).extractLsb' 0 23 == 0#23)
      (.mwr d a ((wc ++ col ++ 0#23).extractLsb' 30 2) ((wc ++ col ++ 0#23).extractLsb' 23 7)) = _
    rw [e0, e1, e2]
    rfl) rfl
theorem reservedCodeIssue (rep pfx : Option IWord) (w : IWord) : Statement (.reservedCodeIssue rep pfx w) :=
  by
  intro hwf _ rest
  have h : reservedOk rep pfx w = true := hwf
  unfold reservedOk at h
  simp only [Bool.and_eq_true] at h
  obtain ⟨⟨hr, hp⟩, ho⟩ := h
  obtain ⟨op, d, a, b⟩ := w
  have hx : (reservedOp op && (isRep ⟨op, d, a, b⟩ || isPfx ⟨op, d, a, b⟩ || extCount ⟨op, d, a, b⟩ != 0)) = false :=
    reserved_plain op d a b
  change reservedOp op = true at ho
  simp only [ho, Bool.true_and, Bool.or_eq_false_iff, bne_eq_false_iff_eq] at hx
  have hw : encode (.reservedCodeIssue rep pfx ⟨op, d, a, b⟩) ++ rest
      = rep.toList ++ pfx.toList ++ ⟨op, d, a, b⟩ :: ([] : List IWord) ++ rest := rfl
  rw [hw, decode_parts rep pfx ⟨op, d, a, b⟩ [] rest (fun r e => by subst e; exact hr) (fun r e => by subst e; exact hp)
    hx.1.1 hx.1.2 hx.2]
  unfold decodeBase
  rw [hx.1.1, hx.1.2]
  simp [ho, Except.bind, checkWf, hwf, Except.map]
theorem coldPowerOn : Statement (.coldPowerOn) := no_words rfl
theorem powerRemoved : Statement (.powerRemoved) := no_words rfl
theorem stackTrained (n : BitVec 3) (calibrated : Bool) : Statement (.stackTrained n calibrated) := no_words rfl
theorem dieUp (d : BitVec 2) : Statement (.dieUp d) := no_words rfl
theorem fullServiceMove : Statement (.fullServiceMove) := no_words rfl
theorem warmReset : Statement (.warmReset) := no_words rfl
theorem hostLinkHotReset : Statement (.hostLinkHotReset) := no_words rfl
theorem thermalGate (d : BitVec 2) (cycles : BitVec 7) : Statement (.thermalGate d cycles) := no_words rfl
theorem thermalTrip : Statement (.thermalTrip) := no_words rfl
theorem fatalError (code : BitVec 8) : Statement (.fatalError code) := no_words rfl
theorem hostDump : Statement (.hostDump) := no_words rfl
theorem lanternDump : Statement (.lanternDump) := no_words rfl
theorem lanternAck : Statement (.lanternAck) := no_words rfl
theorem lanternOvwrClear : Statement (.lanternOvwrClear) := no_words rfl
theorem elogClear (d : BitVec 2) : Statement (.elogClear d) := no_words rfl
theorem elogEntryRead (d k : BitVec 2) : Statement (.elogEntryRead d k) := no_words rfl
theorem incarnWrite (v : BitVec 16) : Statement (.incarnWrite v) := no_words rfl
theorem devnumWrite (v : BitVec 10) : Statement (.devnumWrite v) := no_words rfl
theorem llPortEnable (p : BitVec 5) : Statement (.llPortEnable p) := no_words rfl
theorem llPortDisable (p : BitVec 5) : Statement (.llPortDisable p) := no_words rfl
theorem llStateRetrain (p : BitVec 5) : Statement (.llStateRetrain p) := no_words rfl
theorem llTrained (p : BitVec 5) : Statement (.llTrained p) := no_words rfl
theorem flitSend (p : BitVec 5) (ty : BitVec 4) (dst : BitVec 10) (payload : List Byte) : Statement (.flitSend p ty dst payload) := no_words rfl
theorem flitReceive (p : BitVec 5) (flit : List Byte) : Statement (.flitReceive p flit) := no_words rfl
theorem llReplayTimeout (p : BitVec 5) : Statement (.llReplayTimeout p) := no_words rfl
theorem heartbeatSend (a : Agent) : Statement (.heartbeatSend a) := no_words rfl
theorem agentDead (a : Agent) : Statement (.agentDead a) := no_words rfl
theorem agentReadmit (a : Readmission) : Statement (.agentReadmit a) := no_words rfl
theorem ideKeyProgram : Statement (.ideKeyProgram) := no_words rfl
theorem cxlCacheSnoop (line : BitVec 51) : Statement (.cxlCacheSnoop line) := no_words rfl
theorem memRead (sector : BitVec 34) (errs : BitVec 2) : Statement (.memRead sector errs) := no_words rfl
theorem memWrite (sector : BitVec 34) : Statement (.memWrite sector) := no_words rfl
theorem refreshTick (n : BitVec 3) (ch : BitVec 5) (temp : LayerTemp) : Statement (.refreshTick n ch temp) := no_words rfl
theorem refreshIssue (n : BitVec 3) (ch : BitVec 5) : Statement (.refreshIssue n ch) := no_words rfl
theorem refreshPullIn (n : BitVec 3) (ch : BitVec 5) : Statement (.refreshPullIn n ch) := no_words rfl
theorem bistStart (n : BitVec 3) (v : DWord) : Statement (.bistStart n v) := no_words rfl
theorem bistRowCopy (n : BitVec 3) : Statement (.bistRowCopy n) := no_words rfl
theorem bistPatternDone (n : BitVec 3) (failing repaired : BitVec 16) : Statement (.bistPatternDone n failing repaired) := no_words rfl
theorem scrubRead (n : BitVec 3) (errs : BitVec 2) : Statement (.scrubRead n errs) := no_words rfl
theorem scrubWriteback (n : BitVec 3) : Statement (.scrubWriteback n) := no_words rfl
theorem viewCacheFill (c : ViewCacheId) (view : BitVec 11) : Statement (.viewCacheFill c view) := no_words rfl
theorem bulkRequest (d : BitVec 2) (view : BitVec 11) (first : BitVec 31) (count : BitVec 7) (body : BulkBody) :
    Statement (.bulkRequest d view first count body) := no_words rfl
theorem viewSectorCompose (d e : BitVec 2) : Statement (.viewSectorCompose d e) := no_words rfl
theorem composedWrite (d e : BitVec 2) : Statement (.composedWrite d e) := no_words rfl
theorem vtinvView (view : BitVec 11) : Statement (.vtinvView view) := no_words rfl
theorem vtinvAll : Statement (.vtinvAll) := no_words rfl
theorem tfclrFrame (frame : BitVec 23) : Statement (.tfclrFrame frame) := no_words rfl
theorem tfclrAll : Statement (.tfclrAll) := no_words rfl
theorem hostMemWrite (a : HostPlace) (bytes : List Byte) : Statement (.hostMemWrite a bytes) := no_words rfl
theorem hostMemRead (a : HostPlace) (n : HostRead) : Statement (.hostMemRead a n) := no_words rfl
theorem queueEnable (q : BitVec 6) : Statement (.queueEnable q) := no_words rfl
theorem queueDisable (q : BitVec 6) : Statement (.queueDisable q) := no_words rfl
theorem queueAbort (q : BitVec 6) : Statement (.queueAbort q) := no_words rfl
theorem abortFinish (q : AbortTurn) : Statement (.abortFinish q) := no_words rfl
theorem recordParse (q : BitVec 6) : Statement (.recordParse q) := no_words rfl
theorem blockPlace : Statement (.blockPlace) := no_words rfl
theorem blockComplete (q : BitVec 6) (seq : Word) (blk : BitVec 20) : Statement (.blockComplete q seq blk) := no_words rfl
theorem launchComplete (q : CompletionTurn) : Statement (.launchComplete q) := no_words rfl
theorem allocAdmit (c : BitVec 6) : Statement (.allocAdmit c) := no_words rfl
theorem allocEvict (c : BitVec 6) : Statement (.allocEvict c) := no_words rfl
theorem blockPreempt (q : BitVec 6) (seq : Word) (blk : BitVec 20) : Statement (.blockPreempt q seq blk) := no_words rfl
theorem blockRestore (q : BitVec 6) (seq : Word) : Statement (.blockRestore q seq) := no_words rfl
theorem cswSuspend (q : BitVec 6) : Statement (.cswSuspend q) := no_words rfl
theorem cswResume (q : BitVec 6) : Statement (.cswResume q) := no_words rfl
theorem teamEnterActive (k : Nat) : Statement (.teamEnterActive k) := no_words rfl
theorem rotation (c : BitVec 6) (part : BitVec 3) : Statement (.rotation c part) := no_words rfl
theorem loadDataArrive (k j : Nat) : Statement (.loadDataArrive k j) := no_words rfl
theorem walkComplete (k : Nat) (va : DWord) : Statement (.walkComplete k va) := no_words rfl
theorem tlbinvAll : Statement (.tlbinvAll) := no_words rfl
theorem tlbinvAsid (asid : BitVec 12) : Statement (.tlbinvAsid asid) := no_words rfl
theorem tlbinvPage (asid : BitVec 12) (page : BitVec 39) : Statement (.tlbinvPage asid page) := no_words rfl
theorem trapEntry (k : Nat) : Statement (.trapEntry k) := no_words rfl
theorem deferredCauseReport (k : Nat) (isSealed : Bool) (addr : DWord) : Statement (.deferredCauseReport k isSealed addr) := no_words rfl
theorem pfRecordWrite (k : Nat) : Statement (.pfRecordWrite k) := no_words rfl
theorem pfrespRetry (idx : BitVec 10) : Statement (.pfrespRetry idx) := no_words rfl
theorem pfrespDeliver (idx : BitVec 10) : Statement (.pfrespDeliver idx) := no_words rfl
theorem pfDisable : Statement (.pfDisable) := no_words rfl
theorem registration (c : BitVec 6) (word : BitVec 56) : Statement (.registration c word) := no_words rfl
theorem revocation (c : BitVec 6) (word : BitVec 56) : Statement (.revocation c word) := no_words rfl
theorem homeRead (c : BitVec 6) (line : BitVec 51) (start count : BitVec 5) : Statement (.homeRead c line start count) := no_words rfl
theorem forwardedRead (c r : BitVec 6) (word : BitVec 56) : Statement (.forwardedRead c r word) := no_words rfl
theorem l1Eviction (c : BitVec 6) (word : BitVec 56) : Statement (.l1Eviction c word) := no_words rfl
theorem versionQuery (d : BitVec 2) (dev : BitVec 10) (granule : BitVec 23) : Statement (.versionQuery d dev granule) := no_words rfl
theorem brimEpochBoundary : Statement (.brimEpochBoundary) := no_words rfl
theorem brimSweep (d : BitVec 2) : Statement (.brimSweep d) := no_words rfl
theorem copyUnitComplete (op unit : Nat) : Statement (.copyUnitComplete op unit) := no_words rfl
theorem asyncOpComplete (op : Nat) : Statement (.asyncOpComplete op) := no_words rfl
theorem matrixExecute (c : BitVec 6) : Statement (.matrixExecute c) := no_words rfl
theorem mrdWriteback (c : BitVec 6) : Statement (.mrdWriteback c) := no_words rfl
theorem actldFlip (op : Nat) : Statement (.actldFlip op) := no_words rfl
theorem tsOfferEffect (k : Nat) : Statement (.tsOfferEffect k) := no_words rfl
theorem registerWrite (off : BitVec 20) (v : DWord) : Statement (.registerWrite off v) := no_words rfl
theorem configurationRequest (w : Option ConfigAccess) : Statement (.configurationRequest w) := no_words rfl
theorem thermalGateEnd (d : BitVec 2) : Statement (.thermalGateEnd d) := no_words rfl
theorem msixVectorUnmask (e : BitVec 7) : Statement (.msixVectorUnmask e) := no_words rfl

end RoundTrip

open RoundTrip in
theorem RoundTrip.seal (d a b : Byte) : Statement (.seal d a b) := uni_one 0xC9#8 _ _ _ rfl rfl rfl

end Laws

end Sys2Proof
end

