-- ==== Sys2Proof/Laws/Registers.lean ====
section
/-! SUPPORT. Reading a module register, or a field of it, after a write of one. -/

namespace Sys2Proof.Machine

theorem State.mreg_setMreg_self (s : State) (off : Nat) (v : DWord) : (s.setMreg off v).mreg off = v := by
  unfold State.setMreg State.mreg
  dsimp only
  rw [look_put_self]; rfl

theorem State.mreg_setMreg_ne (s : State) {off o : Nat} (h : o ≠ off) (v : DWord) : (s.setMreg off v).mreg o = s.mreg o := by
  unfold State.setMreg State.mreg
  dsimp only
  rw [look_put_ne h]

theorem State.mreg_setField_ne (s : State) {off o : Nat} (h : o ≠ off) (lo w x : Nat) :
    (s.setField off lo w x).mreg o = s.mreg o := State.mreg_setMreg_ne s h _

theorem State.field_setField_ne (s : State) {off o : Nat} (h : o ≠ off) (lo w x lo' w' : Nat) :
    (s.setField off lo w x).field o lo' w' = s.field o lo' w' := by
  unfold State.field; rw [State.mreg_setField_ne s h]

theorem State.mreg_count_ne (s : State) {off o : Nat} (h : o ≠ off) (lo w n : Nat) : (s.count off lo w n).mreg o = s.mreg o :=
  State.mreg_setField_ne s h _ _ _

/-- The three parts of a value with a field replaced. -/
theorem withField_parts (v lo w x : Nat) :
    withField v lo w x = v % 2 ^ lo + 2 ^ lo * (x % 2 ^ w + 2 ^ w * (v / 2 ^ (lo + w))) := by
  unfold withField
  rw [Nat.pow_add]
  ring

theorem fieldOf_withField_self (v lo w x : Nat) : fieldOf (withField v lo w x) lo w = x % 2 ^ w := by
  rw [withField_parts]
  unfold fieldOf
  rw [Nat.add_mul_div_left _ _ (Nat.two_pow_pos lo), Nat.div_eq_of_lt (Nat.mod_lt _ (Nat.two_pow_pos lo)), Nat.zero_add,
    Nat.add_mul_mod_self_left, Nat.mod_mod]

/-- A field below the one replaced. -/
theorem fieldOf_withField_below (v : Nat) {lo w lo' w' : Nat} (h : lo' + w' ≤ lo) (x : Nat) :
    fieldOf (withField v lo w x) lo' w' = fieldOf v lo' w' := by
  rw [withField_parts]
  unfold fieldOf
  generalize x % 2 ^ w + 2 ^ w * (v / 2 ^ (lo + w)) = y
  obtain ⟨c, rfl⟩ := Nat.exists_eq_add_of_le h
  have key (u : Nat) : u / 2 ^ lo' % 2 ^ w' = u % 2 ^ (lo' + w' + c) / 2 ^ lo' % 2 ^ w' := by
    rw [Nat.add_assoc, Nat.pow_add, Nat.mod_mul_right_div_self, Nat.mod_mod_of_dvd _ ⟨2 ^ c, by rw [Nat.pow_add]⟩]
  rw [key (v % _ + _), key v, Nat.add_mul_mod_self_left, Nat.mod_mod]

/-- A field above the one replaced. -/
theorem fieldOf_withField_above (v : Nat) {lo w lo' w' : Nat} (h : lo + w ≤ lo') (x : Nat) :
    fieldOf (withField v lo w x) lo' w' = fieldOf v lo' w' := by
  unfold fieldOf
  obtain ⟨c, rfl⟩ := Nat.exists_eq_add_of_le h
  have hx : withField v lo w x / 2 ^ (lo + w) = v / 2 ^ (lo + w) := by
    rw [withField_parts, Nat.pow_add, ← Nat.div_div_eq_div_mul, Nat.add_mul_div_left _ _ (Nat.two_pow_pos lo),
      Nat.div_eq_of_lt (Nat.mod_lt _ (Nat.two_pow_pos lo)), Nat.zero_add, Nat.add_mul_div_left _ _ (Nat.two_pow_pos w),
      Nat.div_eq_of_lt (Nat.mod_lt _ (Nat.two_pow_pos w)), Nat.zero_add]
  rw [Nat.pow_add _ (lo + w) c, ← Nat.div_div_eq_div_mul, ← Nat.div_div_eq_div_mul, hx]

theorem withField_lt {v lo w n : Nat} (hv : v < 2 ^ n) (h : lo + w ≤ n) (x : Nat) : withField v lo w x < 2 ^ n := by
  obtain ⟨c, rfl⟩ := Nat.exists_eq_add_of_le h
  have h1 : v / 2 ^ (lo + w) < 2 ^ c := by rw [Nat.div_lt_iff_lt_mul (Nat.two_pow_pos _), Nat.mul_comm, ← Nat.pow_add]; exact hv
  have h2 := Nat.mod_lt x (Nat.two_pow_pos w)
  have h3 := Nat.mod_lt v (Nat.two_pow_pos lo)
  rw [withField_parts, Nat.pow_add _ (lo + w) c, Nat.pow_add _ lo w, Nat.mul_assoc, ← Nat.pow_add _ lo w]
  calc v % 2 ^ lo + 2 ^ lo * (x % 2 ^ w + 2 ^ w * (v / 2 ^ (lo + w)))
      < 2 ^ lo * (x % 2 ^ w + 2 ^ w * (v / 2 ^ (lo + w)) + 1) := by rw [Nat.mul_succ, Nat.add_comm]; exact Nat.add_lt_add_left h3 _
    _ ≤ 2 ^ lo * (2 ^ w * (v / 2 ^ (lo + w) + 1)) := Nat.mul_le_mul_left _ (by rw [Nat.mul_succ]; omega)
    _ ≤ 2 ^ lo * (2 ^ w * 2 ^ c) := Nat.mul_le_mul_left _ (Nat.mul_le_mul_left _ h1)

theorem State.mreg_setField (s : State) (off : Nat) {lo w : Nat} (h : lo + w ≤ 64) (x : Nat) :
    ((s.setField off lo w x).mreg off).toNat = withField (s.mreg off).toNat lo w x := by
  unfold State.setField
  rw [State.mreg_setMreg_self, BitVec.toNat_ofNat]
  exact Nat.mod_eq_of_lt (withField_lt (s.mreg off).isLt h x)

theorem State.field_setField_self (s : State) (off : Nat) {lo w : Nat} (h : lo + w ≤ 64) (x : Nat) :
    (s.setField off lo w x).field off lo w = x % 2 ^ w := by
  unfold State.field; rw [State.mreg_setField s off h, fieldOf_withField_self]

/-- A field of the same register that does not overlap the one written. -/
theorem State.field_setField_apart (s : State) (off : Nat) {lo w lo' w' : Nat} (h : lo + w ≤ 64)
    (hd : lo' + w' ≤ lo ∨ lo + w ≤ lo') (x : Nat) : (s.setField off lo w x).field off lo' w' = s.field off lo' w' := by
  unfold State.field
  rw [State.mreg_setField s off h]
  rcases hd with hd | hd
  · exact fieldOf_withField_below _ hd x
  · exact fieldOf_withField_above _ hd x

end Sys2Proof.Machine
end

