-- ==== Sys2Proof/Tests/Slice0.lean ====
section
/-! SUPPORT. Tests/Slice0: small tests of the model against the manual's own examples and tables, and for each obligation a
witness that states and operands meet its hypotheses. -/

namespace Sys2Proof.Tests

open Machine

set_option Elab.async false

/-! ## States to test with -/

/-- A team of 32 lanes about to issue, on core 0 of a device in reduced service. -/
def demo : State := State.reset.loadProgram []

/-- That device with the words as its program. -/
def coded (ws : List Word) : State := State.reset.loadProgram ws

/-- A state with another team in the place of its one team. -/
def State.put (s : State) (t : Team) : State := { s with teams := [t] }

/-- The team with values in its registers. -/
def holding (l : List (Nat × Lanes)) : Team := { loadTeam with regs := l.foldl (fun rs x => rs.set x.1 x.2) loadTeam.regs }

/-- One word in every lane. -/
def every (w : Word) : Lanes := List.replicate 32 w

/-- The lane number in every lane. -/
def lanes32 : Lanes := (List.range 32).map (BitVec.ofNat 32)

/-- The device whose team holds these values. -/
def withRegs (l : List (Nat × Lanes)) : State := State.put demo (holding l)

/-- The device whose team holds one word in every lane of each of these registers. -/
def withWords (l : List (Nat × Word)) : State := withRegs (l.map fun x => (x.1, every x.2))

/-- The team after an instruction went on. -/
def teamAfter (r : Out) : Option Team := match r with
  | .next s => s.teams[s.cur]?
  | _ => none

/-- Register `n` of lane `l` after an instruction. -/
def regAfter (r : Out) (n l : Nat) : Option Word := (teamAfter r).map fun t => t.regAt n l

/-- A register after an instruction, with STATUS. -/
def resAfter (r : Out) (n l : Nat) : Option (Word × Word) := (teamAfter r).map fun t => (t.regAt n l, t.status)

/-- The cause and subcause that a team trapped with. -/
def trapped (r : Out) : Option (Nat × Nat) := (teamAfter r).map fun t => (t.cause % 256, t.cause / 256 % 256)

/-- The state of a step that went on. -/
def went (r : Out) : State := match r with
  | .next s => s
  | _ => demo

/-- Prefixes: a PFX with a mask register. -/
def masked (m : Byte) (zm : Bool) : LPre := ⟨none, some ⟨0xA4, m, zm, 0, false, false, false, false⟩⟩

/-! ## Well-formed terms: each check refuses a term -/

theorem test_wf_events_refused : [Instr.llPortEnable 24, .llPortDisable 31, .llStateRetrain 24, .llTrained 24, .llReplayTimeout 24,
    .flitSend 24 0 0 (List.replicate 236 0), .flitSend 0 4 0 (List.replicate 236 0), .flitSend 0 0 0 [], .flitReceive 0 [],
    .flitReceive 24 (List.replicate 256 0), .bulkRequest 0 0 0 0 ⟨some [], none⟩,
    .bulkRequest 0 0 0 1 ⟨some (List.replicate 32 0), none⟩, .agentReadmit ⟨.core 0, some 17⟩,
    .hostMemWrite (.device 0) [], .msixVectorUnmask 65].all (fun i => !i.wf) = true := by decide +kernel

theorem test_wf_memory_refused : [Instr.ldx none 0 0 0 false .rel .die, .ldx none 0 0 0 false .ar .die,
    .stx none 0 0 0 false .acq .die, .stx none 0 0 0 false .ar .die, .atom none 1 0 0 ⟨0, false, .add, false, .rlx, .die⟩,
    .atom none 1 0 0 ⟨1, true, .add, false, .rlx, .die⟩, .atomt none 0 0 0 ⟨0, false, .add, true, .rlx, .team⟩,
    .atomt none 0 0 0 ⟨0, false, .add, false, .acq, .team⟩, .atomt none 0 0 0 ⟨0, false, .add, false, .rlx, .core⟩,
    .uatom 1 0 0 ⟨0, false, .add, false, .rlx, .die⟩, .fence .rlx .die, .barx 0 0 .team, .promote 0 0 false .quad,
    .fopen 0 0 0 0 4, .fopen 0 0 0 0 15, .fopen 0 0 0 0 16].all (fun i => !i.wf) = true := by decide +kernel

theorem test_wf_uniform_refused : [Instr.unop (some ⟨0, 0, 0, 0, 1⟩), .uiadd (some ⟨1, 0, 0, 0, 7⟩) 0 0 0, .ocld [], .ocld [0xFFFFFFFF],
    .ocld [0xFF01FF02], .ocld [1, 2, 3, 4, 5], .alloc 0 true 2049 0 0, .alloc 0 true 0 513 0, .alloc 2 false 0 0 0,
    .swr 0 0x20, .cpy 0 0 0 ⟨1, 0, 1, false, false, 0, 0, 0, 0⟩, .cpy 0 0 0 ⟨0, 1, 0, false, false, 0, 0, 0, 0⟩,
    .cpy 0 0 0 ⟨0, 0, 2, true, false, 0, 0, 0, 0⟩, .cpy 0 0 0 ⟨0, 0, 0, false, false, 1, 0, 0, 0⟩,
    .cpys 0 0 0 ⟨0, 0, 1, false, false, 0, 0, 0, 0⟩, .cpys 0 0 0 ⟨0, 0, 0, true, false, 0, 0, 0, 0⟩,
    .cpyg 0 0 0 ⟨true, false, false, false, 0, 0, 0, 0, 0⟩, .cpyg 0 0 0 ⟨false, false, false, false, 0, 0, 0, 1, 1⟩,
    .cpyg 0 0 0 ⟨false, false, false, false, 1, 0, 0, 0, 1⟩].all (fun i => !i.wf) = true := by decide +kernel

theorem test_wf_matrix_refused : [Instr.mma 0 0 0 ⟨14, 0, 0, 0, 0, false, false, false, 0, 0, 0, 0, false, 0, 0, false, 0⟩,
    .mma 0 0 0 ⟨13, 13, 0, 0, 0, false, false, false, 0, 0, 0, 0, false, 0, 0, false, 0⟩,
    .mma 0 0 0 ⟨0, 0, 0, 0, 0, false, false, false, 2, 0, 0, 0, false, 0, 0, false, 0⟩,
    .mma 0 0 0 ⟨0, 0, 0, 0, 0, false, false, false, 0, 1, 0, 0, false, 0, 0, false, 0⟩,
    .mma 0 0 0 ⟨9, 0, 0, 0, 0, false, false, false, 0, 1, 4, 0, false, 0, 0, false, 0⟩,
    .mma 0 0 0 ⟨0, 0, 0, 0, 0, false, false, false, 0, 0, 0, 1, false, 0, 0, false, 0⟩,
    .mma 0 0 0 ⟨0, 0, 0, 0, 0, false, false, true, 0, 0, 0, 0, false, 5, 0, false, 0⟩,
    .mma 0 0 0 ⟨0, 0, 0, 0, 0, false, false, false, 0, 0, 0, 0, false, 1, 0, false, 0⟩,
    .mma 0 0 0 ⟨0, 0, 0, 0, 0, false, false, true, 0, 0, 0, 0, false, 4, 0, false, 0⟩,
    .mma 0 0 0 ⟨0, 0, 0, 0, 0, false, false, false, 0, 0, 0, 0, false, 0, 0, false, 1⟩,
    .mbin 0 0 0 ⟨0, 0, 0, false, false, false, 0, 3⟩, .mbin 0 0 0 ⟨0, 0, 0, false, false, false, 2, 0⟩,
    .mspr 0 0 7 ⟨0, 1, 0, 0, false, false, 0, false⟩, .mspr 0 0 0 ⟨12, 0, 0, 0, false, false, 0, false⟩,
    .msca 0 0 1 ⟨0, 0, 0, 0, false⟩, .mszp 0 0 0 ⟨0, 0, 0, 0, false, 1⟩, .mrd 0 0 0 113, .mwr 0 0 3 1,
    .reservedCodeIssue none none ⟨0, 0, 0, 0⟩, .reservedCodeIssue (some ⟨0, 0, 0, 0⟩) none ⟨0xFF, 0, 0, 0⟩,
    .reservedCodeIssue none (some ⟨0, 0, 0, 0⟩) ⟨0xFF, 0, 0, 0⟩].all (fun i => !i.wf) = true := by decide +kernel

theorem test_wf_accepted : [Instr.llPortEnable 23, .msixVectorUnmask 64, .bulkRequest 0 0 0 127 ⟨none, none⟩, .agentReadmit ⟨.die 3, some 16⟩, .alloc 158 true 2048 512 31,
    .mrd 0 0 0 112, .mwr 0 0 3 0, .mspr 0 0 7 ⟨0, 0, 0, 0, false, false, 0, false⟩, .fopen 0 0 0 0 14,
    .mma 0 0 0 ⟨0, 0, 0, 0, 3, false, false, true, 0, 0, 0, 0, false, 4, 0, false, 0⟩].all Instr.wf = true := by decide +kernel

/-! ## Decoding: a word of each row (its match and fields in spec/opcode_table.json; the tables of R268, R309, R311, R335,
R343, R347, R352, R366, R370 to R375, R378 for those of several words) -/

/-- Each number, its first word least significant, decodes to its instruction. -/
def readsAs (l : List (Nat × Nat × Instr)) : Bool := l.all fun x => decide (decodeTableWord x.1 x.2.1 = some x.2.2)

theorem test_words_1 : readsAs [(32, 0x00000000, .nop noPrefixes),
    (32, 0x01123400, .mov noPrefixes 0x12 0x34),
    (32, 0x02128765, .movi noPrefixes 0x12 0x8765),
    (32, 0x03128765, .movhi noPrefixes 0x12 0x8765),
    (32, 0x04123456, .iadd noPrefixes 0x12 0x34 0x56),
    (32, 0x05123456, .isub noPrefixes 0x12 0x34 0x56),
    (32, 0x06128765, .iaddi noPrefixes 0x12 0x8765),
    (32, 0x07123456, .imul noPrefixes 0x12 0x34 0x56),
    (32, 0x08123456, .imulhi noPrefixes 0x12 0x34 0x56),
    (32, 0x09123456, .umulhi noPrefixes 0x12 0x34 0x56),
    (32, 0x0A123456, .imad noPrefixes 0x12 0x34 0x56),
    (32, 0x0B123456, .iadd64 noPrefixes 0x12 0x34 0x56),
    (32, 0x0C123456, .imin noPrefixes 0x12 0x34 0x56),
    (32, 0x0D123456, .imax noPrefixes 0x12 0x34 0x56),
    (32, 0x0E123456, .umin noPrefixes 0x12 0x34 0x56),
    (32, 0x0F123456, .umax noPrefixes 0x12 0x34 0x56)] = true := by decide +kernel

theorem test_words_2 : readsAs [(32, 0x10123456, .and noPrefixes 0x12 0x34 0x56),
    (32, 0x11123456, .or noPrefixes 0x12 0x34 0x56),
    (32, 0x12123456, .xor noPrefixes 0x12 0x34 0x56),
    (32, 0x13123456, .andn noPrefixes 0x12 0x34 0x56),
    (32, 0x14123456, .shl noPrefixes 0x12 0x34 0x56),
    (32, 0x15123456, .shr noPrefixes 0x12 0x34 0x56),
    (32, 0x16123456, .sar noPrefixes 0x12 0x34 0x56),
    (32, 0x17123456, .rotl noPrefixes 0x12 0x34 0x56),
    (32, 0x18123456, .bfx noPrefixes 0x12 0x34 0x56),
    (32, 0x19123456, .bfxs noPrefixes 0x12 0x34 0x56),
    (32, 0x1A123456, .bfi noPrefixes 0x12 0x34 0x56),
    (32, 0x1B123456, .sel noPrefixes 0x12 0x34 0x56),
    (32, 0x1C123400, .popc noPrefixes 0x12 0x34),
    (32, 0x1D123400, .clz noPrefixes 0x12 0x34),
    (32, 0x1E123400, .brev noPrefixes 0x12 0x34),
    (32, 0x1F123456, .prmt noPrefixes 0x12 0x34 0x56)] = true := by decide +kernel

theorem test_words_3 : readsAs [(32, 0x20123456, .iseteq noPrefixes 0x12 0x34 0x56),
    (32, 0x21123456, .isetne noPrefixes 0x12 0x34 0x56),
    (32, 0x22123456, .isetlt noPrefixes 0x12 0x34 0x56),
    (32, 0x23123456, .isetle noPrefixes 0x12 0x34 0x56),
    (32, 0x24123456, .usetlt noPrefixes 0x12 0x34 0x56),
    (32, 0x25123456, .usetle noPrefixes 0x12 0x34 0x56),
    (32, 0x26123456, .fseteq noPrefixes 0x12 0x34 0x56),
    (32, 0x27123456, .fsetne noPrefixes 0x12 0x34 0x56),
    (32, 0x28123456, .fsetlt noPrefixes 0x12 0x34 0x56),
    (32, 0x29123456, .fsetle noPrefixes 0x12 0x34 0x56),
    (32, 0x2A123456, .fsetun noPrefixes 0x12 0x34 0x56),
    (32, 0x30123456, .fadd noPrefixes 0x12 0x34 0x56),
    (32, 0x31123456, .fsub noPrefixes 0x12 0x34 0x56),
    (32, 0x32123456, .fmul noPrefixes 0x12 0x34 0x56),
    (32, 0x33123456, .ffma noPrefixes 0x12 0x34 0x56),
    (32, 0x34123456, .fmin noPrefixes 0x12 0x34 0x56)] = true := by decide +kernel

theorem test_words_4 : readsAs [(32, 0x35123456, .fmax noPrefixes 0x12 0x34 0x56),
    (32, 0x36123400, .fabs noPrefixes 0x12 0x34),
    (32, 0x37123400, .fneg noPrefixes 0x12 0x34),
    (32, 0x38123456, .hadd2 noPrefixes 0x12 0x34 0x56),
    (32, 0x39123456, .hmul2 noPrefixes 0x12 0x34 0x56),
    (32, 0x3A123456, .hfma2 noPrefixes 0x12 0x34 0x56),
    (32, 0x3B123456, .bfma2 noPrefixes 0x12 0x34 0x56),
    (32, 0x3C123456, .fdot2 noPrefixes 0x12 0x34 0x56),
    (32, 0x3D123456, .fscale noPrefixes 0x12 0x34 0x56),
    (32, 0x3E123400, .fclass noPrefixes 0x12 0x34),
    (32, 0x40123456, .cvt noPrefixes 0x12 0x34 0x56),
    (32, 0x48123405, .sfu noPrefixes 0x12 0x34 0x5),
    (32, 0x49123456, .dadd noPrefixes 0x12 0x34 0x56),
    (32, 0x4A123456, .dmul noPrefixes 0x12 0x34 0x56),
    (32, 0x4B123456, .dfma noPrefixes 0x12 0x34 0x56),
    (32, 0x4C123456, .dmin noPrefixes 0x12 0x34 0x56)] = true := by decide +kernel

theorem test_words_5 : readsAs [(32, 0x4D123456, .dmax noPrefixes 0x12 0x34 0x56),
    (32, 0x4E123456, .dsetlt noPrefixes 0x12 0x34 0x56),
    (32, 0x4F123456, .dseteq noPrefixes 0x12 0x34 0x56),
    (32, 0x50120000, .rng noPrefixes 0x12),
    (32, 0x511234E2, .actv noPrefixes 0x12 0x34 0xe2),
    (32, 0x58123456, .shfl noPrefixes 0x12 0x34 0x56),
    (32, 0x59123456, .shflx noPrefixes 0x12 0x34 0x56),
    (32, 0x5A123456, .shflu noPrefixes 0x12 0x34 0x56),
    (32, 0x5B123456, .shfld noPrefixes 0x12 0x34 0x56),
    (32, 0x5C123400, .ballot noPrefixes 0x12 0x34),
    (32, 0x5D123400, .redadd noPrefixes 0x12 0x34),
    (32, 0x5E123400, .redfadd noPrefixes 0x12 0x34),
    (32, 0x5F123400, .redmax noPrefixes 0x12 0x34),
    (32, 0x60123400, .redmin noPrefixes 0x12 0x34),
    (32, 0x61123400, .scanadd noPrefixes 0x12 0x34),
    (32, 0x62123456, .bxch noPrefixes 0x12 0x34 0x56)] = true := by decide +kernel

theorem test_words_6 : readsAs [(32, 0x63120500, .frdc noPrefixes 0x12 0x5),
    (32, 0x64120500, .frdv noPrefixes 0x12 0x5),
    (32, 0x6812349C, .ldb noPrefixes 0x12 0x34 0x9c),
    (32, 0x6912349C, .ldbs noPrefixes 0x12 0x34 0x9c),
    (32, 0x6A12349C, .ldh noPrefixes 0x12 0x34 0x9c),
    (32, 0x6B12349C, .ldhs noPrefixes 0x12 0x34 0x9c),
    (32, 0x6C12349C, .ldw noPrefixes 0x12 0x34 0x9c),
    (32, 0x6D12349C, .ldd noPrefixes 0x12 0x34 0x9c),
    (32, 0x6E12349C, .ldq noPrefixes 0x12 0x34 0x9c),
    (32, 0x6F12349C, .stb noPrefixes 0x12 0x34 0x9c),
    (32, 0x7012349C, .sth noPrefixes 0x12 0x34 0x9c),
    (32, 0x7112349C, .stw noPrefixes 0x12 0x34 0x9c),
    (32, 0x7212349C, .std noPrefixes 0x12 0x34 0x9c),
    (32, 0x7312349C, .stq noPrefixes 0x12 0x34 0x9c),
    (32, 0x7412349C, .stbm noPrefixes 0x12 0x34 0x9c),
    (32, 0x751234B6, .ldt noPrefixes 0x12 0x34 0xb 0x6)] = true := by decide +kernel

theorem test_words_7 : readsAs [(32, 0x761234B6, .stt noPrefixes 0x12 0x34 0xb 0x6),
    (32, 0x771234B6, .ldtq noPrefixes 0x12 0x34 0xb 0x6),
    (32, 0x781234B6, .sttq noPrefixes 0x12 0x34 0xb 0x6),
    (32, 0x80000000, .unop none),
    (32, 0x81123400, .umov none 0x12 0x34),
    (32, 0x82128765, .umovi none 0x12 0x8765),
    (32, 0x83128765, .umovhi none 0x12 0x8765),
    (32, 0x84123456, .uiadd none 0x12 0x34 0x56),
    (32, 0x85123456, .uisub none 0x12 0x34 0x56),
    (32, 0x86128765, .uiaddi none 0x12 0x8765),
    (32, 0x87123456, .uimul none 0x12 0x34 0x56),
    (32, 0x88123456, .uimad none 0x12 0x34 0x56),
    (32, 0x89123456, .uiadd64 none 0x12 0x34 0x56),
    (32, 0x8A123456, .uminUni none 0x12 0x34 0x56),
    (32, 0x8B123456, .umaxUni none 0x12 0x34 0x56),
    (32, 0x8C123456, .uand none 0x12 0x34 0x56)] = true := by decide +kernel

theorem test_words_8 : readsAs [(32, 0x8D123456, .uor none 0x12 0x34 0x56),
    (32, 0x8E123456, .uxor none 0x12 0x34 0x56),
    (32, 0x8F123456, .ushl none 0x12 0x34 0x56),
    (32, 0x90123456, .ushr none 0x12 0x34 0x56),
    (32, 0x91123456, .usar none 0x12 0x34 0x56),
    (32, 0x92123456, .ubfx none 0x12 0x34 0x56),
    (32, 0x93123456, .ubfi none 0x12 0x34 0x56),
    (32, 0x94123400, .upopc none 0x12 0x34),
    (32, 0x95123400, .uclz none 0x12 0x34),
    (32, 0x96123456, .usel none 0x12 0x34 0x56),
    (32, 0x97123456, .uiseteq none 0x12 0x34 0x56),
    (32, 0x98123456, .uisetne none 0x12 0x34 0x56),
    (32, 0x99123456, .uisetlt none 0x12 0x34 0x56),
    (32, 0x9A123456, .uisetle none 0x12 0x34 0x56),
    (32, 0x9B123456, .uusetlt none 0x12 0x34 0x56),
    (32, 0x9C123456, .uusetle none 0x12 0x34 0x56)] = true := by decide +kernel

theorem test_words_9 : readsAs [(32, 0xA0ABCDEF, .jmp 0xabcdef),
    (32, 0xA1ABCDEF, .call 0xabcdef),
    (32, 0xA2000000, .ret),
    (32, 0xA3003400, .jmpr 0x34),
    (32, 0xA421FEDC, .ubrz 0x21 0xfedc),
    (32, 0xA521FEDC, .ubrnz 0x21 0xfedc),
    (32, 0xA821FEDC, .ifI 0x21 0xfedc),
    (32, 0xA9ABCDEF, .elseI 0xabcdef),
    (32, 0xAA000000, .endif),
    (32, 0xABABCDEF, .loop 0xabcdef),
    (32, 0xAC210000, .brk 0x21),
    (32, 0xAD210000, .cont 0x21),
    (32, 0xAEABCDEF, .endloop 0xabcdef),
    (32, 0xAF123400, .uany 0x12 0x34),
    (32, 0xB0000000, .exit),
    (32, 0xB10000C3, .trap 0xc3)] = true := by decide +kernel

theorem test_words_10 : readsAs [(32, 0xB20000C3, .bkpt 0xc3),
    (32, 0xB3000000, .yield),
    (32, 0xB6003456, .ocdrop 0x34 0x56),
    (32, 0xB601A4A4, .ocdropAll),
    (32, 0xBA120056, .srd 0x12 0x56),
    (32, 0xBB560110, .swr 0x56 0x110),
    (32, 0xBB560020, .swrSigclr 0x56),
    (32, 0xBC000000, .rtt),
    (32, 0xBC000001, .rttHead),
    (32, 0xC012349C, .uld 0x12 0x34 0x9c),
    (32, 0xC112349C, .uldd 0x12 0x34 0x9c),
    (32, 0xC212349C, .ust 0x12 0x34 0x9c),
    (32, 0xC312349C, .ustd 0x12 0x34 0x9c),
    (32, 0xC9123456, .seal 0x12 0x34 0x56),
    (32, 0xCA123456, .reopen 0x12 0x34 0x56),
    (32, 0xCB003400, .vinv 0x34)] = true := by decide +kernel

theorem test_words_11 : readsAs [(32, 0xCB010000, .vinvAll),
    (32, 0xCC023400, .actld 0x34 0x2),
    (32, 0xD3120000, .aseal 0x12),
    (32, 0xD4003400, .await 0x34),
    (32, 0xD5123400, .atest 0x12 0x34),
    (32, 0xD6003456, .tsgive 0x34 0x56),
    (32, 0xD7123400, .tstake 0x12 0x34),
    (32, 0xD9000500, .fadv 0x5),
    (32, 0xDA120500, .fend 0x12 0x5),
    (32, 0xDB000500, .fclose 0x5),
    (32, 0xE6003456, .mzero 0x34 0x56),
    (64, 0x6579123498, .ldx none 0x12 0x34 0x98 true .sc .pod),
    (64, 0x147A123498, .stx none 0x12 0x34 0x98 false .rel .pkg),
    (64, 0x211A5A7B123456, .atom none 0x12 0x34 0x56 ⟨0x21, true, .cas, true, .ar, .quad⟩),
    (64, 0x210E007C003456, .atomt none 0 0x34 0x56 ⟨0x21, false, .inc, false, .rlx, .team⟩),
    (192, 0x8000000000000004000000030000000200000001B4000000, .region 0x8000000000000004000000030000000200000001)] = true := by decide +kernel

theorem test_words_12 : readsAs [(96, 0xFFFFFF0504030201B5020000, .ocld [0x04030201, 0xFFFFFF05]),
    (64, 0x84004014B8140000, .alloc 0x14 true 2048 512 20),
    (64, 0xB9000000, .free),
    (32, 0xBC000001, .rttHead),
    (64, 0x23C4000000, .fence .sc .die),
    (64, 0xC5000003, .barSync 3),
    (64, 0x1C500000F, .barArv 15),
    (64, 0x2C5000503, .barInit 3 5),
    (64, 0x1C6003456, .barx 0x34 0x56 .core),
    (64, 0x4DC7123400, .promote 0x12 0x34 true .pod),
    (64, 0x90BC8003456, .uatom 0 0x34 0x56 ⟨0, false, .xchg, false, .acq, .die⟩),
    (96, 0x456789AB00997123D0123456, .cpy 0x12 0x34 0x56 ⟨0, 9, 2, false, true, 7, 0x123, 0x4567, 0x89AB⟩),
    (96, 0x456789AB02997123D2123456, .cpys 0x12 0x34 0x56 ⟨2, 9, 2, false, true, 7, 0x123, 0x4567, 0x89AB⟩),
    (96, 0xB1234567B6123456D1123456, .cpyg 0x12 0x34 0x56 ⟨true, false, true, true, 6, 0x123, 0x456, 0xB, 0x1234567⟩),
    (64, 0xE21D8053456, .fopen 5 0x34 0x56 0x21 14),
    (96, 0x232100914C2D53E0123456, .mma 0x12 0x34 0x56 ⟨9, 1, 2, 3, 5, true, false, true, 1, 1, 3, 0, false, 2, 1, true, 0x21⟩)] = true := by decide +kernel

theorem test_words_13 : readsAs [(128, 0x102030444800000D01C0A00E1123456, .mmal 0x12 0x34 0x56 ⟨13, 0, 0, 7, 1, false, true, false, 0, 0, 0, 0x44, true, 0, 0, false, 0⟩ 1 2 3 4),
    (96, 0xCC281B60E2123456, .mbin 0x12 0x34 0x56 ⟨1, 2, 3, false, true, true, 1, 2⟩),
    (96, 0x448000000D281B00E3120256, .mspr 0x12 0x56 2 ⟨13, 1, 2, 3, true, true, 0x44, true⟩),
    (64, 0xC79A0000E4123456, .msca 0x12 0x34 0x56 ⟨99, 6, 1, 2, true⟩),
    (64, 0xC79C2100E5123456, .mszp 0x12 0x34 0x56 ⟨99, 6, 1, 3, false, 0x21⟩),
    (64, 0xA0000000E7123400, .mrd 0x12 0x34 2 64),
    (64, 0xC0000000E8123400, .mwr 0x12 0x34 3 0),
    (32, 0x2B123456, .reservedCodeIssue none none ⟨0x2B, 0x12, 0x34, 0x56⟩),
    (32, 0xFF000001, .reservedCodeIssue none none ⟨0xFF, 0, 0, 1⟩)] = true := by decide +kernel

/-- R259, R261: a REP and a PFX word before a lane instruction, a REP of the uniform set, and a PFX before a reserved word. -/
theorem test_words_prefixes : readsAs
    [(96, 0x7E1CA700 + 0x7F2122DB * 2 ^ 32 + 0x04123456 * 2 ^ 64,
      .iadd ⟨some ⟨7, 1, 2, 3, 4⟩, some ⟨0x21, 0x22, true, 5, true, false, true, true⟩⟩ 0x12 0x34 0x56),
    (64, 0xFEFDB600 + 0x84123456 * 2 ^ 32, .uiadd (some ⟨63, 3, 3, 3, 0⟩) 0x12 0x34 0x56),
    (64, 0x7FA40700 + 0x5C040300 * 2 ^ 32, .ballot (masked 7 false) 4 3),
    (64, 0x7F07A400 + 0x7D000000 * 2 ^ 32, .reservedCodeIssue none (some ⟨0x7F, 7, 0xA4, 0⟩) ⟨0x7D, 0, 0, 0⟩)] = true := by
  decide +kernel

/-- Words of the manual's examples (R242, R259, R298, R306, R309, R311, R313, R333, R335, R337, R350, R367, R376). -/
theorem test_words_of_examples : readsAs
    [(32, 0x40040506, .cvt noPrefixes 4 5 6), (32, 0x620308E1, .bxch noPrefixes 3 8 0xE1), (32, 0xB1000007, .trap 7),
    (64, 0xB5010000 + 0xFFFF0504 * 2 ^ 32, .ocld [0xFFFF0504]), (64, 0xB8140000 + 0x81000808 * 2 ^ 32, .alloc 20 true 512 64 8),
    (32, 0xBA040000, .srd 4 0), (64, 0xC4000000 + 0x12 * 2 ^ 32, .fence .rel .quad), (64, 0xC5000003, .barSync 3),
    (64, 0xC6000405 + 3 * 2 ^ 32, .barx 4 5 .die), (32, 0xD4000600, .await 6),
    (64, 0x7F07A400 + 0x74050A01 * 2 ^ 32, .stbm ⟨none, some ⟨7, 0xA4, false, 0, false, false, false, false⟩⟩ 5 10 1),
    (96, 0xE0141E21 + 0x0A000963 * 2 ^ 32 + 0x00051500 * 2 ^ 64,
      .mma 20 30 33 ⟨0, 10, 0, 0, 1, false, false, true, 1, 2, 3, 0, false, 0, 2, true, 21⟩),
    (64, 0xE5161418 + 0x1E0A1500 * 2 ^ 32, .mszp 22 20 24 ⟨15, 0, 0, 2, true, 21⟩)] = true := by decide +kernel

/-- Why words are refused: an unused field, a reserved field of an extension, a PFX before a uniform word, a REP of the
other set, a value that the rule makes illegal, and words that end too soon (R251, R253, R260, R261, R327). -/
theorem test_words_refused :
    [decodeWords [⟨0x01, 0x12, 0x34, 1⟩], decodeWords [⟨0xB0, 0, 0, 1⟩],
      decodeWords [⟨0x7B, 0, 0, 0⟩, ⟨0x80, 0, 0, 0⟩], decodeWords [⟨0x7F, 0xA4, 0xA4, 0⟩, ⟨0x80, 0, 0, 0⟩],
      decodeWords [⟨0xFE, 0, 0, 0⟩, ⟨0x04, 0, 0, 0⟩], decodeWords [⟨0x79, 0, 0, 0⟩, ⟨0, 0, 0, 0x10⟩],
      decodeWords [⟨0x7B, 0, 0, 0⟩], decodeWords [⟨0x7F, 0xA4, 0xA4, 0⟩]].map (fun r => match r with
        | .ok _ => none
        | .error e => some e)
    = [some .reservedField, some .reservedField, some .reservedField, some .misplacedPrefix, some .misusedRep, some .illegalValue,
      some .truncated, some .truncated] := by decide +kernel


/-! ## Integer and logic instructions (R281 to R286) -/

/-- D = v4 in lane 31 for sources v1 and v2. -/
def op2 (f : LPre → Byte → Byte → Byte → Instr) (x y : Word) : Option Word :=
  regAfter (exec (f noPrefixes 4 1 2) (withWords [(1, x), (2, y)])) 4 31

/-- The same under SAT. -/
def op2sat (f : LPre → Byte → Byte → Byte → Instr) (x y : Word) : Option Word :=
  regAfter (exec (f ⟨none, some ⟨0xA4, 0xA4, false, 0, false, false, false, true⟩⟩ 4 1 2) (withWords [(1, x), (2, y)])) 4 31

/-- D = v4 with the third source v3. -/
def op3 (f : LPre → Byte → Byte → Byte → Instr) (x y z : Word) : Option Word :=
  regAfter (exec (f ⟨none, some ⟨3, 0xA4, false, 0, false, false, false, false⟩⟩ 4 1 2)
    (withWords [(1, x), (2, y), (3, z)])) 4 31

/-- D = v4, which is also read. -/
def opD (f : LPre → Byte → Byte → Byte → Instr) (d x y : Word) : Option Word :=
  regAfter (exec (f noPrefixes 4 1 2) (withWords [(1, x), (2, y), (4, d)])) 4 31

def op1 (f : LPre → Byte → Byte → Instr) (x : Word) : Option Word :=
  regAfter (exec (f noPrefixes 4 1) (withWords [(1, x)])) 4 31

theorem test_moves : [regAfter (exec (.mov noPrefixes 5 0xA5) demo) 5 9, regAfter (exec (.movi noPrefixes 5 0x8765) demo) 5 9,
    regAfter (exec (.movhi noPrefixes 5 0xABCD) (withWords [(5, 0x12345678)])) 5 9,
    regAfter (exec (.iaddi noPrefixes 5 0xFFFF) demo) 5 9]
    = [some 9, some 0xFFFF8765, some 0xABCD5678, some 0xFFFFFFFF] := by decide +kernel

theorem test_sums : [op2 .iadd 0x7FFFFFFF 1, op2sat .iadd 0x7FFFFFFF 1, op2 .isub 0x80000000 1, op2sat .isub 0x80000000 1,
    op2 .imul 0x10000 0x10000, op2sat .imul 0x10000 0x10000, op2 .imulhi 0xFFFFFFFF 1, op2 .umulhi 0xFFFFFFFF 2,
    op3 .imad 3 0xFFFFFFFB 20]
    = [some 0x80000000, some 0x7FFFFFFF, some 0x7FFFFFFF, some 0x80000000, some 0, some 0x7FFFFFFF, some 0xFFFFFFFF, some 1,
      some 5] := by decide +kernel

theorem test_iadd64 : (let r := exec (.iadd64 noPrefixes 4 6 8) (withWords [(6, 0xFFFFFFFF), (7, 0), (8, 1), (9, 2)])
    (regAfter r 4 0, regAfter r 5 0)) = (some 0, some 3) := by decide +kernel

theorem test_extremes : [op2 .imin 0xFFFFFFFF 1, op2 .imax 0xFFFFFFFF 1, op2 .umin 0xFFFFFFFF 1, op2 .umax 0xFFFFFFFF 1]
    = [some 0xFFFFFFFF, some 1, some 1, some 0xFFFFFFFF] := by decide +kernel

theorem test_logic : [op2 .and 0xC 0xA, op2 .or 0xC 0xA, op2 .xor 0xC 0xA, op2 .andn 0xC 0xA, op2 .shl 1 31, op2 .shl 1 32,
    op2 .shr 0x80000000 31, op2 .shr 0x80000000 256, op2 .sar 0x80000000 40, op2 .rotl 0x80000001 33]
    = [some 8, some 0xE, some 6, some 4, some 0x80000000, some 0, some 1, some 0, some 0xFFFFFFFF, some 3] := by decide +kernel

/-- A field of 8 bits at position 4, one at the top, and one of no bits (R284). -/
theorem test_bit_fields : [op2 .bfx 0x12345678 0x804, op2 .bfx 0xF0000000 0x81C, op2 .bfxs 0x00000F80 0x804,
    op2 .bfxs 0xF0000000 0x81C, op2 .bfx 0xFFFFFFFF 0x005, opD .bfi 0xFFFFFFFF 0x12 0x804, opD .bfi 0x11 0x22 0x005,
    opD .sel 1 7 8, opD .sel 2 7 8]
    = [some 0x67, some 0xF, some 0xFFFFFFF8, some 0xFFFFFFFF, some 0, some 0xFFFFF12F, some 0x11, some 7, some 8] := by
  decide +kernel

theorem test_counts : [op1 .popc 0xF0F0, op1 .clz 1, op1 .clz 0, op1 .brev 1, op3 .prmt 0x33221180 0x4580 0x77665544]
    = [some 8, some 31, some 32, some 0x80000000, some 0x4455FF80] := by decide +kernel

theorem test_compares : [op2 .iseteq 5 5, op2 .isetne 5 5, op2 .isetlt 0xFFFFFFFF 0, op2 .isetle 0 0, op2 .usetlt 0xFFFFFFFF 0,
    op2 .usetle 0 0xFFFFFFFF] = [some 1, some 0, some 1, some 1, some 0, some 1] := by decide +kernel

/-- −0 equals +0; a quiet NaN fails all but FSETNE and FSETUN, and sets NV only in FSETLT and FSETLE (R286). -/
theorem test_float_compares : ([Instr.fseteq, .fsetne, .fsetlt, .fsetle, .fsetun].map fun f =>
      (op2 f 0x80000000 0, resAfter (exec (f noPrefixes 4 1 2) (withWords [(1, 0x7FC00000)])) 4 0))
    = [(some 1, some (0, 0)), (some 0, some (1, 0)), (some 0, some (0, 0x100)), (some 1, some (0, 0x100)), (some 0, some (1, 0))] := by
  decide +kernel

/-! ## Floating point, conversions and special functions (R242, R243, R287 to R293) -/

/-- 1 + 2 = 3; 1 + 2⁻²⁴ ties to 1 and sets NX; ∞ − ∞ is the default NaN with NV. -/
theorem test_fadd : [resAfter (exec (.fadd noPrefixes 4 1 2) (withWords [(1, 0x3F800000), (2, 0x40000000)])) 4 0,
    resAfter (exec (.fadd noPrefixes 4 1 2) (withWords [(1, 0x3F800000), (2, 0x33800000)])) 4 0,
    resAfter (exec (.fsub noPrefixes 4 1 2) (withWords [(1, 0x7F800000), (2, 0x7F800000)])) 4 0]
    = [some (0x40400000, 0), some (0x3F800000, 0x1000), some (0x7FC00000, 0x100)] := by decide +kernel

/-- 2⁻²⁰ × 2⁻²⁵ + 0, as the example of R247 gives it; 3 × 0.5; the sign forms; a denormal's class. -/
theorem test_ffma : [op3 .ffma 0x35800000 0x33000000 0, op2 .fmul 0x40400000 0x3F000000, op2 .fmin 0x80000000 0,
    op2 .fmax 0x7FC00000 0x3F800000, op1 .fabs 0xFFC00001, op1 .fneg 0x7F800000, op1 .fclass 1, op1 .fclass 0xFF800000,
    op2 .fscale 0x3F800000 3]
    = [some 0x29000000, some 0x3FC00000, some 0x80000000, some 0x3F800000, some 0x7FC00001, some 0xFF800000, some 0x80, some 4,
      some 0x41000000] := by decide +kernel

/-- 1 + 1 and 2 + 2 by halves; 1 × 2 and 2 × 2; with + 1 in each half; BF16 likewise; 1 × 1 + 2 × 2 + 1. -/
theorem test_packed : [op2 .hadd2 0x40003C00 0x40003C00, op2 .hmul2 0x40003C00 0x40004000,
    op3 .hfma2 0x40003C00 0x40004000 0x3C003C00, op3 .bfma2 0x40003F80 0x40004000 0x3F803F80,
    op3 .fdot2 0x40003C00 0x40003C00 0x3F800000]
    = [some 0x44004000, some 0x44004000, some 0x45004200, some 0x40A04040, some 0x40C00000] := by decide +kernel

/-- The example of R242: 300, 464 and 500 to E4M3, and 500 under SAT. -/
theorem test_cvt_e4m3 : [resAfter (exec (.cvt noPrefixes 6 7 0x30) (withWords [(7, 0x43960000)])) 6 0,
    resAfter (exec (.cvt noPrefixes 6 7 0x30) (withWords [(7, 0x43E80000)])) 6 0,
    resAfter (exec (.cvt noPrefixes 6 7 0x30) (withWords [(7, 0x43FA0000)])) 6 0,
    resAfter (exec (.cvt ⟨none, some ⟨0xA4, 0xA4, false, 0, false, false, false, true⟩⟩ 6 7 0x30)
      (withWords [(7, 0x43FA0000)])) 6 0]
    = [some (0x79, 0x1000), some (0x7E, 0x1000), some (0x7F, 0x1400), some (0x7E, 0x1400)] := by decide +kernel

/-- √4 is exact, √−1 is NaN with NV, 1 / 0 is ∞ with DZ, log2 1 is +0 (R243). -/
theorem test_sfu : [resAfter (exec (.sfu noPrefixes 4 1 2) (withWords [(1, 0x40800000)])) 4 0,
    resAfter (exec (.sfu noPrefixes 4 1 2) (withWords [(1, 0xBF800000)])) 4 0,
    resAfter (exec (.sfu noPrefixes 4 1 0) demo) 4 0, (op1 (fun p d a => .sfu p d a 4) 0x3F800000).map fun x => (x, 0#32)]
    = [some (0x40000000, 0), some (0x7FC00000, 0x100), some (0x7F800000, 0x200), some (0, 0)] := by decide +kernel

/-- The pair v4:v5 for pairs v6:v7 and v8:v9. -/
def pair2 (f : LPre → Byte → Byte → Byte → Instr) (x y : Word) : Option (Word × Word) :=
  (teamAfter (exec (f noPrefixes 4 6 8) (withWords [(7, x), (9, y)]))).map fun t => (t.regAt 4 0, t.regAt 5 0)

/-- Of 1.0 and 2.0. -/
theorem test_fp64 : [pair2 .dadd 0x3FF00000 0x40000000, pair2 .dmul 0x3FF00000 0x40000000, pair2 .dfma 0x3FF00000 0x40000000,
    pair2 .dmin 0x3FF00000 0x40000000, pair2 .dmax 0x3FF00000 0x40000000, pair2 .dsetlt 0x3FF00000 0x40000000,
    pair2 .dseteq 0x3FF00000 0x40000000]
    = [some (0, 0x40080000), some (0, 0x40000000), some (0, 0x40000000), some (0, 0x3FF00000), some (0, 0x40000000),
      some (1, 0), some (0, 0)] := by decide +kernel

/-- A lane whose random state is 1 (R180, by hand), and a lane that is off. -/
theorem test_rng : (teamAfter (exec (.rng (masked 7 false) 4) (State.put demo
      { holding [(7, 1#32 :: List.replicate 31 0#32)] with rng := List.replicate 32 1#64 }))).map
      (fun t => (t.regAt 4 0, t.rng.take 2)) = some (0xBAFACF62, [0x40822041, 1]) := by decide +kernel

/-- A device whose table 1 holds entry 145 in a bank of this launch or of another. -/
def tableState (owner : Nat × Nat) : State :=
  let x : ActTable := ⟨⟨some owner, (List.replicate 256 0#64).set 145 0x3F80000042280000#64⟩, ActBank.reset, false⟩
  (withWords [(1, 0x3F080000)]).modCore 0 fun k => { k with tables := k.tables.set 1 x }

/-- The example of R293: x = 0.53125 gives knot 145, here 42.0; another launch's bank gives the poison word. -/
theorem test_actv : [resAfter (exec (.actv noPrefixes 4 1 0xE1) (tableState (0, 0))) 4 0,
    resAfter (exec (.actv noPrefixes 4 1 0xE1) (tableState (0, 1))) 4 0] = [some (0x42280000, 0), some (0x7FC0DEAD, 1)] := by
  decide +kernel

/-! ## Cross-lane instructions (R295 to R298) -/

/-- D = v4 in lane 5 for v1 = lane and B an inline constant. -/
def cross (f : LPre → Byte → Byte → Byte → Instr) (b : Byte) : Option Word :=
  regAfter (exec (f noPrefixes 4 1 b) (withRegs [(1, lanes32)])) 4 5

/-- B is 3, and for SHFLU 7, which leaves the span. -/
theorem test_shuffles : [cross .shfl 0xE3, cross .shflx 0xE3, cross .shflu 0xE3, cross .shflu 0xE7, cross .shfld 0xE3,
    cross .shfld 0xEF] = [some 3, some 6, some 2, some 5, some 8, some 20] := by decide +kernel

/-- The example of R296, with merge and with zero. -/
theorem test_ballot : [false, true].map (fun zm => (teamAfter (exec (.ballot (masked 7 zm) 4 3)
      (withRegs [(3, lanes32), (4, every 0x55), (7, (List.range 32).map fun l => if l < 24 then 1#32 else 0#32)]))).map
      fun t => (t.regAt 4 0, t.regAt 4 23, t.regAt 4 24)) = [some (0x00AAAAAA, 0x00AAAAAA, 0x55), some (0x00AAAAAA, 0x00AAAAAA, 0)] := by
  decide +kernel

/-- Over the lane numbers 0 to 31; sixteen lanes of 1.0 and sixteen of 0 add to 16. -/
theorem test_reductions : ([Instr.redadd, .redmax, .redmin, .scanadd].map fun f =>
      regAfter (exec (f noPrefixes 4 1) (withRegs [(1, lanes32)])) 4 5)
    ++ [regAfter (exec (.redfadd noPrefixes 4 1) (withRegs [(1, (List.range 32).map fun l =>
      if l < 16 then 0x3F800000#32 else 0#32)])) 4 5]
    = [some 496, some 31, some 0, some 15, some 0x41800000] := by decide +kernel

/-- The example of R298. -/
theorem test_bxch : (teamAfter (exec (.bxch noPrefixes 3 8 0xE1) (withRegs [(3, 2#32 :: List.replicate 31 0#32), (8, every 1)]))).map
    (fun t => (t.regAt 3 0, t.regAt 3 1)) = some (0, 1) := by decide +kernel


/-! ## Uniform instructions and control (R158, R299 to R316) -/

/-- D = v4 in the last lane; only lane 0 of the sources counts. -/
def uni2 (f : Option Rep → Byte → Byte → Byte → Instr) (x y : Word) : Option Word :=
  regAfter (exec (f none 4 1 2) (withRegs [(1, x :: List.replicate 31 0xDEAD#32), (2, every y)])) 4 31

def uni1 (f : Option Rep → Byte → Byte → Instr) (x : Word) : Option Word :=
  regAfter (exec (f none 4 1) (withRegs [(1, x :: List.replicate 31 0xDEAD#32)])) 4 31

def uniD (f : Option Rep → Byte → Byte → Byte → Instr) (d x y : Word) : Option Word :=
  regAfter (exec (f none 4 1 2) (withWords [(1, x), (2, y), (4, d)])) 4 31

theorem test_uniform_sums : [uni1 .umov 5, regAfter (exec (.umovi none 4 0x8000) demo) 4 31,
    regAfter (exec (.umovhi none 4 0xABCD) (withWords [(4, 0x12345678)])) 4 31, uni2 .uiadd 0x7FFFFFFF 1, uni2 .uisub 0 1,
    regAfter (exec (.uiaddi none 4 0xFFFF) demo) 4 31, uni2 .uimul 0x10000 0x10000, uniD .uimad 20 3 0xFFFFFFFB,
    regAfter (exec (.uiadd64 none 4 6 8) (withWords [(6, 0xFFFFFFFF), (8, 1)])) 5 31, uni2 .uminUni 0xFFFFFFFF 1,
    uni2 .umaxUni 0xFFFFFFFF 1]
    = [some 5, some 0xFFFF8000, some 0xABCD5678, some 0x80000000, some 0xFFFFFFFF, some 0xFFFFFFFF, some 0, some 5, some 1,
      some 0xFFFFFFFF, some 1] := by decide +kernel

theorem test_uniform_bits : [uni2 .uand 0xC 0xA, uni2 .uor 0xC 0xA, uni2 .uxor 0xC 0xA, uni2 .ushl 1 32, uni2 .ushr 0x80000000 31,
    uni2 .usar 0x80000000 40, uni2 .ubfx 0x12345678 0x804, uniD .ubfi 0xFFFFFFFF 0x12 0x804, uni1 .upopc 0xF0F0, uni1 .uclz 1,
    uniD .usel 1 7 8]
    = [some 8, some 0xE, some 6, some 0, some 1, some 0xFFFFFFFF, some 0x67, some 0xFFFFF12F, some 8, some 31, some 7] := by
  decide +kernel

theorem test_uniform_compares : [uni2 .uiseteq 5 5, uni2 .uisetne 5 5, uni2 .uisetlt 0xFFFFFFFF 0, uni2 .uisetle 0 0,
    uni2 .uusetlt 0xFFFFFFFF 0, uni2 .uusetle 0 0xFFFFFFFF] = [some 1, some 0, some 1, some 1, some 0, some 1] := by decide +kernel

/-- Where a team stands after an instruction. -/
def pcAfter (r : Out) : Option Nat := (teamAfter r).map (·.pc)

/-- Offsets count in words from the base word (R252); UBRZ is not taken on 1; JMPR traps on an address that is no multiple
of 4 (R300); a NOP, a UNOP and a YIELD go on. -/
theorem test_transfers : [pcAfter (exec (.jmp 4) demo), pcAfter (exec (.jmp 0xFFFFFF) demo), pcAfter (exec (.call 4) demo),
    pcAfter (exec .ret (withWords [(158, 0x12340)])), pcAfter (exec (.jmpr 2) (withWords [(2, 0x12340)])),
    pcAfter (exec (.jmpr 2) (withWords [(2, 0x12342)])), pcAfter (exec (.ubrz 2 4) demo),
    pcAfter (exec (.ubrz 2 4) (withWords [(2, 1)])), pcAfter (exec (.ubrnz 2 4) (withWords [(2, 1)])),
    pcAfter (exec (.nop noPrefixes) demo), pcAfter (exec (.unop none) demo), pcAfter (exec .yield demo)]
    = [some 0x10010, some 0xFFFC, some 0x10010, some 0x12340, some 0x12340, some 0x18000, some 0x10010, some 0x10004,
      some 0x10010, some 0x10004, some 0x10004, some 0x10004] := by decide +kernel

/-- A CALL's link (R301), and the traps of an unfit target (R220). -/
theorem test_links : (regAfter (exec (.call 4) demo) 158 31, regAfter (exec (.call 4) demo) 159 31,
    trapped (exec (.jmpr 2) (withWords [(2, 0x12342)])), trapped (exec .ret (withWords [(159, 0x00800000)])))
    = (some 0x10004, some 0, some (11, 0), some (8, 2)) := by decide +kernel

/-- The mask, the place and the depth of a team after an instruction. -/
def flowAfter (r : Out) : Option (Mask × Nat × Nat) := (teamAfter r).map fun t => (t.mask, t.pc, t.stack.length)

/-- R158's IF: lanes 0 to 9 hold 1; then ELSE, whose side has lanes 10 to 31, and ENDIF. -/
theorem test_if_else : (let s1 := went (exec (.ifI 3 8) (withRegs [(3, (List.range 32).map fun l => if l < 10 then 1#32 else 0#32)]))
    [flowAfter (.next s1), flowAfter (exec (.elseI 4) s1), flowAfter (exec .endif (went (exec (.elseI 4) s1))),
      flowAfter (exec .endif demo)])
    = [some (0x3FF, 0x10004, 1), some (0xFFFFFC00, 0x10008, 1), some (0xFFFFFFFF, 0x1000C, 0), some (0xFFFFFFFF, 0x18000, 0)] := by
  decide +kernel

/-- No lane holds 1: the true side is skipped to the offset (R155, R302). -/
theorem test_if_skips : flowAfter (exec (.ifI 3 8) demo) = some (0, 0x10020, 1) := by decide +kernel

/-- LOOP, BRK and CONT of lanes 0 to 9, ENDLOOP back with the rest or all, and out when every lane broke. -/
theorem test_loop : (let s1 := went (exec (.loop 16) (withRegs [(3, (List.range 32).map fun l => if l < 10 then 1#32 else 0#32),
      (4, every 1)]))
    [flowAfter (exec (.brk 3) s1), flowAfter (exec (.cont 3) s1), flowAfter (exec (.endloop 0xFFFFFD) (went (exec (.brk 3) s1))),
      flowAfter (exec (.endloop 0xFFFFFD) (went (exec (.cont 3) s1))), flowAfter (exec (.brk 4) s1),
      flowAfter (exec (.endloop 0xFFFFFD) (went (exec (.brk 4) s1)))])
    = [some (0xFFFFFC00, 0x10008, 1), some (0xFFFFFC00, 0x10008, 1), some (0xFFFFFC00, 0xFFFC, 1), some (0xFFFFFFFF, 0xFFFC, 1),
      some (0, 0x10040, 1), some (0xFFFFFFFF, 0x10044, 0)] := by decide +kernel

theorem test_uany : [regAfter (exec (.uany 4 3) (withRegs [(3, List.replicate 31 0#32 ++ [1#32])])) 4 0,
    regAfter (exec (.uany 4 3) (withWords [(3, 2)])) 4 0] = [some 1, some 0] := by decide +kernel

theorem test_exit : ((went (exec .exit demo)).teams.length, (went (exec .exit demo)).blocks.map (·.live)) = (0, [[]]) := by
  decide +kernel

/-- TRAP and BKPT by their codes, with the addresses that they save (R219, R306): a TRAP is followed by its REGION. -/
theorem test_traps : [trapped (exec (.trap 7) (coded [0xB1000007, 0xB4000000, 0, 0, 0, 0, 0])), trapped (exec (.bkpt 9) demo),
    trapped (exec .rtt demo), trapped (exec .rttHead demo), trapped (exec (.reservedCodeIssue none none ⟨0x2B, 0, 0, 0⟩) demo)]
    = [some (6, 7), some (5, 9), some (4, 0), some (4, 0), some (1, 0)] := by decide +kernel

theorem test_trap_saves : (teamAfter (exec (.trap 7) (coded [0xB1000007, 0xB4000000, 0, 0, 0, 0, 0]))).map
      (fun t => (t.epc, t.priv, t.pc, t.mask)) = some (0x1001C, true, 0x18000, 0xFFFFFFFF)
    ∧ (teamAfter (exec (.bkpt 7) demo)).map (·.epc) = some 0x10004 := by decide +kernel

/-- A team in its handler, whose saved state an RTT takes back. -/
def inHandler : Team := { loadTeam with priv := true, epc := 0x10040, smask := 3#1024, mask := 0xFFFFFFFF#1024, pc := 0x18000 }

theorem test_rtt : (teamAfter (exec .rtt (State.put demo inHandler))).map (fun t => (t.pc, t.mask, t.priv)) = some (0x10040, 3, false)
    ∧ (teamAfter (exec .rttHead (State.put demo { inHandler with
        ckpt := ⟨[(5, every 9)], 7#1024, [], loadTeam.fibres, loadTeam.rng, 0x10100, true⟩ }))).map
      (fun t => (t.pc, t.mask, t.regAt 5 1, t.regAt 6 1)) = some (0x10100, 7, 9, 0) := by decide +kernel

/-- A checkpoint keeps the named register (R167); twenty registers are an eighth of 160, and one more is REGBOUND. -/
theorem test_region : (teamAfter (exec (.region 0x20) (withWords [(5, 9)]))).map (fun t => (t.ckpt.regs, t.ckpt.head, t.pc))
      = some ([(5, every 9)], 0x10018, 0x10018)
    ∧ [trapped (exec (.region 0xFFFFF) demo), trapped (exec (.region 0x1FFFFF) demo)] = [some (0, 0), some (3, 0)] := by
  decide +kernel

/-- The list of R309's example, then one tag dropped, then all. -/
theorem test_operand_cache : (let s1 := went (exec (.ocld [0xFFFF0504]) demo)
    [.next s1, exec (.ocdrop 4 0xA4) s1, exec .ocdropAll s1].map fun r => (teamAfter r).map (·.ocache))
    = [some [(4, true), (5, true)], some [(5, true)], some []] := by decide +kernel

/-- A team that holds its prologue allotment: 32 registers. -/
def prologue : Team := { loadTeam with regs := loadTeam.regs.take 32, allotted := false }

/-- R311's example: 64 registers, 256 KiB and 512 rows; the handle and the first row go to v20:v21. -/
def granted : State := went (exec (.alloc 20 true 512 64 8) (State.put demo prologue))

/-- What a team holds. -/
def allotment (r : Out) : Option (Nat × Option (Nat × Nat) × Option (Nat × Nat)) :=
  (teamAfter r).map fun t => (t.regs.length, t.tileRun, t.accRun)

theorem test_alloc : allotment (.next granted) = some (64, some (0, 64), some (0, 512))
    ∧ [regAfter (.next granted) 20 31, regAfter (.next granted) 21 31] = [some (63 * 2 ^ 21), some 0] := by decide +kernel

/-- FREE gives it all back (R312). -/
theorem test_free : allotment (exec .free granted) = some (32, none, none) := by decide +kernel

/-- A second request traps with ILLINS, one above REGS with REGBOUND, one above the share with TILEBOUND (R311). -/
theorem test_alloc_traps : [trapped (exec (.alloc 0 false 0 0 8) demo),
    trapped (exec (.alloc 0 false 0 0 21) (State.put demo prologue)),
    trapped (exec (.alloc 0 false 0 512 8) (State.put { demo with blocks := [{ loadBlock with tileLen := 64 }] } prologue))]
    = [some (1, 0), some (3, 0), some (13, 0)] := by decide +kernel

/-- STATUS has thirteen bits of which 2 to 7 are reserved; CAUSE is privileged; DEVNUM is only read; 5 is no selector (R224). -/
theorem test_system_registers : [(teamAfter (exec (.swr 3 0) (withWords [(3, 0xFFFFFFFF)]))).map (·.status),
    regAfter (exec (.srd 4 0) (State.put demo { loadTeam with status := 0x1103#32 })) 4 31] = [some 0x1F03, some 0x1103]
    ∧ [trapped (exec (.srd 4 8) demo), trapped (exec (.swr 3 3) demo), trapped (exec (.srd 4 5) demo), trapped (exec (.srd 4 0x20) demo)]
      = [some (4, 0), some (1, 0), some (1, 0), some (1, 0)] := by decide +kernel


/-! ## Memory, ordering and barriers (R317 to R339) -/

/-- The device with words at virtual address 0x1_1000, and a team whose pair v10:v11 holds 0x1_1000 + 4 × lane. -/
def memory (ws : List Word) (mask : Mask) (l : List (Nat × Word)) : State :=
  State.put (bulkWrite demo (bytesWrite 0x10001000 (ws.flatMap fun w => leBytes 4 w.toNat))).2
    { holding ((10, (List.range 32).map fun i => BitVec.ofNat 32 (0x11000 + 4 * i)) :: l.map fun x => (x.1, every x.2)) with
      mask := mask }

/-- Register `n` by lane 0 and 1 once the load has arrived. -/
def loaded (i : Instr) (s : State) (n : Nat) : Option (Word × Word) :=
  match (went (exec i s)).teams with
  | t :: _ => match t.loads with
    | r :: _ => (loadArrive ((went (exec i s)).setTeam 0 { t with loads := [] }) 0 r).teams.head?.map fun t => (t.regAt n 0, t.regAt n 1)
    | [] => none
  | [] => none

/-- Two words, little end first (R317). -/
def twoWords : State := memory [0x80C2F384, 0x11223344] 3#1024 []

theorem test_loads : [loaded (.ldb noPrefixes 4 10 0) twoWords 4, loaded (.ldbs noPrefixes 4 10 1) twoWords 4,
    loaded (.ldh noPrefixes 4 10 1) twoWords 4, loaded (.ldhs noPrefixes 4 10 0) twoWords 4,
    loaded (.ldw noPrefixes 4 10 0) twoWords 4, loaded (.ldw noPrefixes 4 10 0xFF) (memory [1, 2, 3] 2#1024 []) 4]
    = [some (0x84, 0x44), some (0xFFFFFFF3, 0x33), some (0x80C2, 0x1122), some (0xFFFFF384, 0x3344),
      some (0x80C2F384, 0x11223344), some (0, 1)] := by decide +kernel

theorem test_wide_loads : [loaded (.ldd noPrefixes 4 10 0) (memory [1, 2] 1#1024 []) 5,
    loaded (.ldq noPrefixes 4 10 0) (memory [1, 2, 3, 4] 1#1024 []) 7, loaded (.uld 4 10 1) twoWords 4,
    loaded (.uldd 4 10 0) twoWords 5]
    = [some (2, 0), some (4, 0), some (0x11223344, 0x11223344), some (0x11223344, 0x11223344)] := by decide +kernel

/-- The device whose loaded page has another leaf. -/
def withLeaf (s : State) (f : Leaf → Leaf) : State :=
  s.modCore 0 fun k => { k with tlb := k.tlb.map fun e => { e with leaf := f e.leaf } }

/-- A misaligned access, one whose table entry is not valid, a store without W, an access to a privileged page (R214, R217, R319). -/
theorem test_access_traps : [trapped (exec (.ldw noPrefixes 4 10 0) (State.put demo (holding [(10, every 0x11002)]))),
    trapped (exec (.ldw noPrefixes 4 10 0) (State.put demo (holding [(11, every 0x400)]))),
    trapped (exec (.stw noPrefixes 4 10 0) (withLeaf (memory [] 1#1024 []) fun l => { l with w := false })),
    trapped (exec (.ldw noPrefixes 4 10 0) (withLeaf (memory [] 1#1024 []) fun l => { l with p := true }))]
    = [some (11, 0), some (8, 1), some (9, 1), some (9, 2)] := by decide +kernel

/-- What core 0 reads of a word of the page at 0x1000_1000. -/
def wordAt (s : State) (i : Nat) : Option Word := ((readWords s 0 [⟨0x10001000 / 4 + i, false, false, false⟩]).1.map fun x => x.2.1).head?

theorem test_stores : [wordAt (went (exec (.stb noPrefixes 5 10 1) (memory [0x11223344] 1#1024 [(5, 0xAABBCCDD)]))) 0,
    wordAt (went (exec (.sth noPrefixes 5 10 1) (memory [0x11223344] 1#1024 [(5, 0xAABBCCDD)]))) 0,
    wordAt (went (exec (.stw noPrefixes 5 10 1) (memory [0x11223344] 3#1024 [(5, 0xAABBCCDD)]))) 2,
    wordAt (went (exec (.std noPrefixes 6 10 0) (memory [] 1#1024 [(6, 1), (7, 2)]))) 1,
    wordAt (went (exec (.stq noPrefixes 12 10 0) (memory [] 1#1024 [(15, 4)]))) 3,
    wordAt (went (exec (.ust 5 10 1) (memory [] 1#1024 [(5, 7)]))) 1, wordAt (went (exec (.ustd 6 10 0) (memory [] 1#1024 [(7, 9)]))) 1]
    = [some 0x1122DD44, some 0xCCDD3344, some 0xAABBCCDD, some 2, some 4, some 7, some 9] := by decide +kernel

/-- R323's example: only the enabled byte changes. -/
theorem test_stbm : wordAt (went (exec (.stbm ⟨none, some ⟨7, 0xA4, false, 0, false, false, false, false⟩⟩ 5 10 1)
    (memory [0, 0xFFFF0000] 1#1024 [(5, 0x1234), (7, 0xFF00)]))) 1 = some 0xFFFF1200 := by decide +kernel

/-- Every lane stores to one address: the highest gives the value (R321). -/
theorem test_store_order : wordAt (went (exec (.stw noPrefixes 5 10 0) (State.put demo
    { holding [(10, every 0x11000), (5, lanes32)] with mask := 0x1F#1024 }))) 0 = some 4 := by decide +kernel

/-- A team that holds a unit of the tile store, with an address in v10. -/
def tiled (addr : Word) (l : List (Nat × Word)) : State :=
  State.put { demo with blocks := [{ loadBlock with units := [(0, .held 0)] }] }
    { holding ((10, every addr) :: l.map fun x => (x.1, every x.2)) with mask := 1#1024, tileRun := some (0, 1) }

/-- A word stored to the tile store is read back, at the end of the unit; beyond it the unit is not the team's (R175, R326). -/
theorem test_tile_store : (regAfter (exec (.ldt noPrefixes 4 10 0 1) (went (exec (.stt noPrefixes 5 10 0 1) (tiled 0xFF8 [(5, 77)])))) 4 0,
    regAfter (exec (.ldtq noPrefixes 4 10 3 1) (went (exec (.sttq noPrefixes 12 10 3 1) (tiled 0xFE0 [(15, 78)])))) 7 0,
    trapped (exec (.ldt noPrefixes 4 10 0 2) (tiled 0xFF8 []))) = (some 77, some 78, some (12, 0)) := by decide +kernel

/-- Relaxed accesses at a scope within the core go to its L1. -/
theorem test_ldx_stx : (let s1 := went (exec (.stx none 5 10 0 false .rlx .core) (memory [] 1#1024 [(5, 9)]))
    regAfter (exec (.ldx none 4 10 0 false .rlx .core) s1) 4 0) = some 9 := by decide +kernel

/-- An atomic is followed by its REGION, of six words. -/
def thenRegion (n : Nat) (mask : Mask) (ws : List Word) (l : List (Nat × Word)) : State :=
  State.put (bulkWrite (coded (List.replicate n 0 ++ [0xB4000000, 0, 0, 0, 0, 0])) (bytesWrite 0x10001000
    (ws.flatMap fun w => leBytes 4 w.toNat))).2
    { holding ((10, (List.range 32).map fun i => BitVec.ofNat 32 (0x11000 + 4 * i)) :: l.map fun x => (x.1, every x.2)) with
      mask := mask }

/-- The old value to D and the new one to memory (R328, R330). -/
theorem test_atomics : (let s1 := went (exec (.atom none 4 10 5 ⟨0, true, .add, false, .rlx, .die⟩) (thenRegion 2 1#1024 [40] [(5, 2)]))
    let s2 := went (exec (.uatom 4 10 5 ⟨6, true, .cas, false, .rlx, .die⟩) (thenRegion 2 1#1024 [40] [(5, 2), (6, 40)]))
    ([regAfter (.next s1) 4 0, regAfter (.next s2) 4 31], [leNat (homeBytes s1 0x10001000 4), leNat (homeBytes s2 0x10001000 4)],
      pcAfter (.next s1))) = ([some 40, some 40], [42, 2], some 0x10020) := by decide +kernel

/-- Two lanes about to add 3 to one word of the tile store. -/
def tileAdders : State :=
  State.put { coded [0, 0, 0xB4000000, 0, 0, 0, 0, 0] with blocks := [{ loadBlock with units := [(0, .held 0)] }] }
    { holding [(5, every 3), (10, every 8)] with mask := 3#1024, tileRun := some (0, 1) }

theorem test_atomt : (let s1 := went (exec (.atomt none 4 10 5 ⟨0, true, .add, false, .rlx, .team⟩) tileAdders)
    (regAfter (.next s1) 4 0, regAfter (.next s1) 4 1, leNat (tileRead s1 (s1.blocks.headD loadBlock) 0 8 4))) = (some 0, some 3, 6) := by
  decide +kernel

/-- INC wraps at its bound, CAS keeps an unequal word, MIN is signed and UMIN is not (R330). -/
theorem test_aops : [aopApply .inc 4 7 0 7, aopApply .inc 4 6 0 7, aopApply .cas 4 5 9 6, aopApply .min 4 0xFFFFFFFF 1 0,
    aopApply .umin 4 0xFFFFFFFF 1 0, aopApply .sub 8 0 1 0, aopApply .fadd 4 0x3F800000 0x40000000 0]
    = [0, 7, 5, 0xFFFFFFFF, 1, 2 ^ 64 - 1, 0x40400000] := by decide +kernel

/-- A releasing fence clears W, an acquire leaves it; one of order SC advances the clock (R192, R197, R333). -/
theorem test_fences : ([Order.rel, .acq, .sc].map fun o => (teamAfter (exec (.fence o .die) demo)).map fun t => decide (t.sigW = 0))
    = [some true, some false, some true] ∧ ((went (exec (.fence .sc .die) demo)).core 0).clock = 1 := by decide +kernel

/-- A block of two teams: the first SYNC parks, the second completes the phase (R203, R204). -/
def twoTeams : State :=
  let s := coded [0, 0, 0xB4000000, 0, 0, 0, 0, 0]
  let t2 : Team := { loadTeam with key := { loadTeam.key with num := 1 }, slot := 1 }
  { s with teams := [loadTeam, t2], blocks := [{ loadBlock with live := [0, 1], bars := List.replicate 16 ⟨2, 0, 0, 0, none⟩ }] }

theorem test_barriers : (let s1 := went (exec (.barSync 3) twoTeams)
    let s2 := went (exec (.barSync 3) { s1 with cur := 1 })
    let s3 := went (exec (.barArv 3) twoTeams)
    [s1, s2, s3].map fun s => (s.teams.map (·.park), (s.blocks.flatMap (·.bars))[3]?.map (·.arrivals)))
    = [([some (.bar 3), none], some 1), ([none, none], some 0), ([none, none], some 1)] := by decide +kernel

/-- INIT of a count above NT traps with subcause 2, an arrival above M with 3, a BARX count of 0 with 5 (R335 to R337). -/
theorem test_barrier_traps : [trapped (exec (.barInit 3 5) (thenRegion 2 1#1024 [] [(5, 2)])),
    trapped (exec (.barArv 3) { twoTeams with blocks := twoTeams.blocks.map fun b => { b with bars := List.replicate 16 ⟨1, 1, 1, 0, none⟩ } }),
    trapped (exec (.barx 4 5 .die) (thenRegion 2 1#1024 [] []))] = [some (16, 2), some (16, 3), some (16, 5)] := by decide +kernel

theorem test_barx : (let s1 := went (exec (.barx 4 5 .die) (State.put twoTeams (holding [(4, every 2), (5, every 9)])))
    (s1.teams.map (·.park), s1.barx.map fun e => (e.ident, e.count, e.arrivals))) = ([some (.barx .die 0 9)], [(9, 2, 1)]) := by
  decide +kernel

/-- Four instructions of a word, each with its REGION; the pair v10:v11 names the loaded page. -/
def sealer : State := State.put (coded ((List.replicate 4 [0#32, 0xB4000000, 0, 0, 0, 0, 0]).flatten))
  (holding [(10, every 0x10000), (5, every 1)])

/-- A granule is sealed once; the second SEAL answers 2, REOPEN 1 and then 0 (R205, R338). -/
theorem test_seals : (let s1 := went (exec (.seal 4 10 5) sealer)
    let s2 := went (exec (.seal 4 10 5) s1)
    let s3 := went (exec (.reopen 4 10 5) s2)
    let s4 := went (exec (.reopen 4 10 5) s3)
    ([s1, s2, s3, s4].map fun s => regAfter (.next s) 4 31, (s1.die 0).seals.map fun e => (e.first, e.len, e.ver)))
    = ([some 1, some 2, some 1, some 0], [(0x1000, 1, 1)]) := by decide +kernel

/-- A team with VIEWADM on a core that holds views 5 and 6. -/
def viewer : State := (State.put demo { holding [(3, every 5)] with cfg := { loadCfg with viewadm := true } }).modCore 0 fun k =>
  { k with vcache := [⟨5, VDesc.ofNat 0, .illegal 1⟩, ⟨6, VDesc.ofNat 0, .illegal 1⟩] }

/-- A kernel without VIEWADM may not invalidate views (R73); with it, view 5 leaves the cache, or both. -/
theorem test_vinv : trapped (exec .vinvAll demo) = some (4, 0)
    ∧ [exec (.vinv 3) viewer, exec .vinvAll viewer].map (fun r => ((went r).core 0).vcache.map (·.view)) = [[6], []] := by
  decide +kernel

/-- The device whose loaded page is a sync page. -/
def syncPage (s : State) : State := withLeaf s fun l => { l with sync := true }

theorem test_promote : regAfter (exec (.promote 4 10 false .die) (syncPage (memory [0x1234] 1#1024 []))) 4 31 = some 0x1234 := by
  decide +kernel

/-- SIGCLR writes zeros over the block's slot, its second half (R191, R226). -/
theorem test_sigclr : (let s1 := went (exec (.swrSigclr 10) (syncPage (memory (List.replicate 32 0xFFFFFFFF) 1#1024 [])))
    (wordAt s1 15, wordAt s1 16, wordAt s1 31, (teamAfter (.next s1)).map (·.sigW))) = (some 0xFFFFFFFF, some 0, some 0, some 0) := by
  decide +kernel


/-! ## Asynchronous operations, fibres and the matrix unit (R202, R342 to R354, R366 to R378) -/

/-- A one-word closing instruction and its REGION. -/
def closer (l : List (Nat × Word)) : State := thenRegion 1 1#1024 [7, 8, 9, 10, 11, 12] l

/-- Batches count from 0 (R349); a number that was never sealed traps, an empty batch is done (R350). -/
theorem test_batches : (let s1 := went (exec (.aseal 4) (closer []))
    (regAfter (.next s1) 4 31, (teamAfter (.next s1)).map (·.nextBatch), regAfter (exec (.atest 5 4) s1) 5 31,
      pcAfter (exec (.await 4) s1), trapped (exec (.await 4) (closer [])))) = (some 0, some 1, some 1, some 0x10020, some (17, 2)) := by
  decide +kernel

/-- A copy of one row of 16 bytes from 0x1_1000 to 0x1_1100 is posted, and its unit moves the bytes (R342, R343). -/
def copied : State := went (exec (.cpy 20 10 0xE1 ⟨0, 0, 0, false, false, 0, 0, 0, 0⟩)
  (thenRegion 3 1#1024 [7, 8, 9, 10] [(20, 0x11100)]))

theorem test_cpy : ((copied.core 0).copyQ.map fun o => (o.id, o.done), (teamAfter (.next copied)).map (·.openOps), pcAfter (.next copied))
      = ([(0, [])], some [0], some 0x10024)
    ∧ ([0, 4, 8, 12].map fun i => leNat (homeBytes (unitComplete copied 0 0) (0x10001100 + i) 4)) = [7, 8, 9, 10] := by decide +kernel

/-- The same team once it has waited for the walks and fills of its instruction. -/
def afterWait (s : State) : State := { s with teams := s.teams.map fun t => { t with walked := true } }

/-- A gather of two rows of 16 bytes: rows 1 and 0 of the table; the team parks while the list is read (R137, R347). -/
def gathering : State := thenRegion 3 1#1024 [1, 2, 3, 4, 5, 6, 7, 8, 1, 0] [(20, 0x11100), (22, 0x11020)]
def gathered : State := went (exec (.cpyg 20 10 22 ⟨false, false, false, false, 0, 1, 0, 0, 2⟩) (afterWait gathering))

theorem test_cpyg_parks : (teamAfter (exec (.cpyg 20 10 22 ⟨false, false, false, false, 0, 1, 0, 0, 2⟩) gathering)).map
    (fun t => (t.park, t.pc)) = some (some .fill, 0x10000) := by decide +kernel

theorem test_cpyg : ([0, 4, 16, 20].map fun i => leNat (homeBytes (unitComplete (unitComplete gathered 0 0) 0 1) (0x10001100 + i) 4))
    = [5, 6, 1, 2] := by decide +kernel

/-- ACTLD fills the inactive bank, and its flip makes it the active one (R177, R178). -/
theorem test_actld : ((went (exec (.actld 10 1) (closer []))).core 0).copyQ.map (fun o => (o.id, o.table)) = [(0, some 1)] := by
  decide +kernel

/-- Team 0 offers unit 0 to team 1, which takes it (R176, R351). -/
def offered : State := went (exec (.tsgive 5 6) (State.put { closer [] with blocks := [{ loadBlock with
  cfg := { loadCfg with nt := 2 }, live := [0, 1], units := [(0, .held 0)] }] } { holding [(6, every 1)] with
    cfg := { loadCfg with nt := 2 }, tileRun := some (0, 1) }))

theorem test_tsgive : offered.blocks.map (·.units) = [[(0, .offered 1)]]
    ∧ (let s1 := went (exec (.tstake 4 5) { closer [] with blocks := offered.blocks, teams := [{ loadTeam with key := ⟨0, 0, 0, 1⟩ }] })
      (regAfter (.next s1) 4 31, s1.blocks.map (·.units))) = (some 1, [[(0, .held 1)]]) := by decide +kernel

/-- A fibre of 40 entries: chunk by chunk to its end; FRDC beyond it gives all ones (R352 to R354). -/
def fibred : State := went (exec (.fopen 2 10 0xA4 12 14) (memory [5, 6] 1#1024 [(12, 40)]))

theorem test_fibres : ((teamAfter (.next fibred)).map (fun t => (t.fibre 2).count), regAfter (exec (.fend 4 2) fibred) 4 31,
      (teamAfter (exec (.fadv 2) (went (exec (.fadv 2) fibred)))).map fun t => (t.fibre 2).pos) = (some 40, some 0, some 40)
    ∧ regAfter (exec (.fend 4 2) (went (exec (.fadv 2) (went (exec (.fadv 2) fibred))))) 4 31 = some 1
    ∧ [trapped (exec (.fend 4 2) (went (exec (.fclose 2) fibred))), trapped (exec (.frdv noPrefixes 4 2) fibred)]
      = [some (1, 0), some (2, 0)] ∧ loaded (.frdc noPrefixes 4 2) fibred 4 = some (5, 0) := by decide +kernel

theorem test_frdc_past : loaded (.frdc noPrefixes 4 2) (memory [] 1#1024 []) 4 = none
    ∧ loaded (.frdc noPrefixes 4 2) (went (exec (.fopen 2 10 0xA4 12 14) (memory [] 1#1024 []))) 4 = some (0xFFFFFFFF, 0) := by
  decide +kernel

/-- The step of R247's example: 1.0 − 1.0 + 2⁻⁴⁵ is +0 in the aligned class. -/
theorem test_aligned_step : accumulate true 0 ([(0x3F80, 0x3F80), (0x3F80, 0xBF80), (0x3580, 0x3300)].map fun x =>
    (Fmt.bf16.read x.1).times (Fmt.bf16.read x.2)) = 0 := by decide +kernel

/-- The sums of R369's example: 4.5 − 16 + 3.5 + 448 = 440, and 454 at precision 2. -/
theorem test_exact_step : [[3, 8, 7, 1], [3, 0, 3, 1]].map (fun (q : List Nat) => accumulate false 0
    (List.zipWith FVal.times ([0x3C, 0xC0, 0x30, 0x7E].map (elemValue 0 none [] false)) (q.map (elemValue 10 (some 4) [] false))))
    = [0x43DC0000, 0x43E30000] := by decide +kernel

/-- A block whose team holds accumulator rows 0 to 3, with 440 in row 0 and 448 in row 1. -/
def rowed (l : List (Nat × Word)) : State :=
  (State.put { closer [] with blocks := [{ loadBlock with accRuns := [(0, 0, 4, 0)], units := [(0, .held 0)] }] }
    { holding (l.map fun x => (x.1, every x.2)) with accRun := some (0, 4), tileRun := some (0, 1) }).modCore 0 fun k =>
      { k with acc := [(0, 0x43DC0000), (128, 0x43E00000)], tile := [(2, 0x80), (3, 0x3E), (16, 8)] }

/-- MZERO of row 1 enters the queue, and the unit then writes it; four rows are held and no fifth (R377). -/
theorem test_mzero : (let s1 := went (exec (.mzero 5 6) (rowed [(5, 1), (6, 1)]))
    ((s1.core 0).matQ.map (·.kind), [0, 1].map fun r => accWord (matrixStep s1 0) 0 r 0)) = ([.mzero 1 1], [0x43DC0000, 0])
    ∧ [trapped (exec (.mzero 5 6) (rowed [(5, 1), (6, 4)])), trapped (exec (.mzero 5 6) (rowed []))] = [some (21, 0), some (1, 0)] := by
  decide +kernel

/-- MRD reads row 0 into lanes 0 to 15 and row 1 into lanes 16 to 31 under W = 16 (R378). -/
theorem test_mrd : (let s1 := matrixStep (went (exec (.mrd 4 5 0 0) (rowed []))) 0
    (teamAfter (.next (mrdWrite s1 0))).map fun t => (t.regAt 4 0, t.regAt 4 16, t.regAt 4 1)) = some (0x43DC0000, 0x43E00000, 0) := by
  decide +kernel

/-- MSZP's example: 0.25 × (440 − 8 × 448) = −786 (R376); the row sums lie in row 1. -/
theorem test_mszp : accWord (runMszp (rowed []) 0 0 loadBlock 2 0 1 1 0 2 true 0 16 1) 0 2 0 = 0xC4448000 := by decide +kernel

/-- MSCA with scales of 1.0 (E8M0 0x7F) adds the source to the destination (R375, R376). -/
theorem test_msca : accWord (runMsca ((rowed []).modCore 0 fun k => { k with tile := [(0, 0x7F), (16, 0x7F)] }) 0 0 loadBlock
    0 1 1 1 1 1 false 0 16) 0 0 0 = 0x445E0000 := by decide +kernel


/-! ## Events (R14 to R229) -/

/-- Stack 0 trained and die 0 up: STKTR, DIEUP and SVC of MODSTAT, and the map of R47 (R16, R33, R48). -/
theorem test_bring_up : (let s1 := went (exec (.stackTrained 0 false) State.reset)
    let s2 := went (exec (.dieUp 0) s1)
    ((s1.mreg MODSTAT).toNat % 2 ^ 16, (s2.mreg MODSTAT).toNat % 2 ^ 16, (s2.die 0).single)) = (0x100, 0x111, some 0) := by decide +kernel

/-- With the power off nothing acts; a fatal error counts its code and a dump is due (R14, R38). -/
theorem test_power : (match exec .vtinvAll { demo with powered := false } with
      | .fault f => some f
      | _ => none) = some .noPower
    ∧ (let s1 := went (exec (.fatalError 3) demo); (s1.svc, s1.field MODSTAT 24 8, s1.dumpDue.isSome)) = (3, 3, true) := by decide +kernel

/-- A warm reset leaves no team and raises WRCNT (R36). -/
theorem test_warm_reset : (let s1 := went (exec .warmReset demo); (s1.teams.length, s1.svc, s1.field MODSTAT 32 16)) = (0, 0, 1) := by
  decide +kernel

/-- A die that is too hot gates, but never every eighth cycle; then it goes on (R15). -/
theorem test_gating : (let s1 := went (exec (.thermalGate 0 0x7F) demo)
    (gatedCycle (s1.die 0) 14, gatedCycle (s1.die 0) 15, (went (exec (.thermalGateEnd 0) s1)).die 0 |>.gating)) = (true, false, 0) := by
  decide +kernel

/-- INCARN and DEVNUM lock on their first write (R31, R231). -/
theorem test_identity : (let s1 := went (exec (.incarnWrite 5) demo)
    let s2 := went (exec (.incarnWrite 6) s1)
    let s3 := went (exec (.devnumWrite 9) s2)
    (s2.mreg INCARN, s3.devnum)) = (0x10005, 9) := by decide +kernel

/-- Enabled, trained, and down again by 17 timeouts (R26 to R28). -/
theorem test_link : (let s1 := went (exec (.llPortEnable 3) demo)
    let s2 := went (exec (.llTrained 3) s1)
    let s3 := s2.setPort 3 { Port.reset with replay := [(0, [], 16)] }
    [s1, s2, went (exec (.llReplayTimeout 3) s3), went (exec (.llPortDisable 3) s2)].map fun s => s.portState 3) = [1, 2, 3, 0] := by
  decide +kernel

/-- CRC-32C, from a value on. -/
def crcFrom (c : Word) (bs : List Byte) : Word := bs.foldl crcByte c

theorem crcFrom_append (c : Word) (a b : List Byte) : crcFrom c (a ++ b) = crcFrom (crcFrom c a) b := List.foldl_append

def zeros (n : Nat) : List Byte := List.replicate n 0#8

/-- A flit of zeros, but for its first two bytes and its CRC. -/
def flitOf (b0 b1 : Byte) (crc : Nat) : List Byte := ([b0, b1] ++ zeros 61 ++ zeros 63 ++ zeros 63 ++ zeros 63) ++ leBytes 4 crc

theorem crc_flit (b0 b1 : Byte) (crc : Nat) {c1 c2 c3 c4 : Word} (h1 : crcFrom 0xFFFFFFFF#32 ([b0, b1] ++ zeros 61) = c1)
    (h2 : crcFrom c1 (zeros 63) = c2) (h3 : crcFrom c2 (zeros 63) = c3) (h4 : crcFrom c3 (zeros 63) = c4) :
    crc32c ((flitOf b0 b1 crc).take 252) = ~~~c4 := by
  have h : (flitOf b0 b1 crc).take 252 = [b0, b1] ++ zeros 61 ++ zeros 63 ++ zeros 63 ++ zeros 63 := by
    unfold flitOf; rw [List.take_left']; simp only [zeros, List.length_append, List.length_replicate, List.length_cons, List.length_nil]
  rw [h, crc32c, ← crcFrom, crcFrom_append, crcFrom_append, crcFrom_append, h1, h2, h3, h4]

theorem crc_of_zeros : crc32c ((flitOf 0 0 0).take 252) = 1743147809#32 :=
  crc_flit 0 0 0 (c1 := 1872566959) (c2 := 723379) (c3 := 1089747824) (c4 := 2551819486) (by decide +kernel) (by decide +kernel)
    (by decide +kernel) (by decide +kernel)

theorem flit_refused (s : State) (flit : List Byte) (hp : s.powered = true) (hs : s.portState 3 = 2) (hh : (s.port 3).held = 0)
    (h : BitVec.ofNat 32 (leNat ((flit.drop 252).take 4)) ≠ crc32c (flit.take 252)) : exec (.flitReceive 3 flit) s
      = .next (((s.count (LLSTAT 3) 48 16 1).countDrop).setPort 3 { s.port 3 with nak := true }) := by
  show withPower s _ = _
  unfold withPower
  rw [if_pos hp]
  show Host.Outcome.next (if _ then receiveFlit s 3 flit else _) = _
  rw [if_pos ⟨by decide, hs⟩]
  have hd : drainPort s 3 = s := if_pos hh
  unfold receiveFlit
  rw [if_pos (Or.inr h)]
  show Host.Outcome.next ((((drainPort s 3).count (LLSTAT 3) 48 16 1).countDrop).setPort 3 { (drainPort s 3).port 3 with nak := true }) = _
  rw [hd]

/-- A flit with a wrong CRC asks for retransmission and counts (R25, R27). -/
theorem test_flit : exec (.flitReceive 3 (flitOf 0 0 0)) (demo.setPortState 3 2)
      = .next ((((demo.setPortState 3 2).count (LLSTAT 3) 48 16 1).countDrop).setPort 3 { (demo.setPortState 3 2).port 3 with nak := true })
    ∧ (((demo.setPortState 3 2).count (LLSTAT 3) 48 16 1).countDrop).field (LLSTAT 3) 48 16 = 1 :=
  ⟨flit_refused _ _ (by decide +kernel) (by decide +kernel) (by decide +kernel) (by rw [crc_of_zeros]; decide +kernel), by decide +kernel⟩

/-- Eight refresh intervals owed, of which the eighth forces one; one pulled in (R56 to R58). -/
theorem test_refresh : (let s0 := went (exec (.stackTrained 0 true) demo)
    let s1 := s0.setStk 0 { s0.stk 0 with debt := 7 :: List.replicate 31 0 }
    let s2 := went (exec (.refreshTick 0 0 .below85) s1)
    ((s2.stk 0).debt.head?, s2.field (REFSTAT 0) 48 16, (went (exec (.refreshIssue 0 0) s2)).stk 0 |>.debt.head?,
      (went (exec (.refreshPullIn 0 1) s2)).stk 0 |>.debt.take 2)) = (some 7, 1, some 6, [7, -1]) := by decide +kernel

/-- A self-test of an untrained stack is refused, one of a trained stack parks its bank (R60, R61). -/
theorem test_bist : (let s1 := went (exec (.bistStart 2 0x10000) demo)
    let s2 := went (exec (.bistStart 0 0x10000) demo)
    (s1.field (BISTSTAT 2) 0 3, s2.field (BISTSTAT 0) 0 3, (s2.stk 0).parked)) = (7, 1, some ⟨0, 0, 0, 0, 0, false⟩) := by decide +kernel

/-- An error of two symbols marks the sector, one of one symbol does not (R62). -/
theorem test_demand_read : (let s0 := went (exec (.stackTrained 0 true) demo)
    [exec (.memRead 0 1) s0, exec (.memRead 0 2) s0].map fun r => (went r).poison.length) = [0, 1] := by decide +kernel

/-- The host writes four bytes and reads them back (R103); its write to a parking area is dropped. -/
theorem test_host_memory : (let s1 := went (exec (.hostMemWrite (.device 0x10002000) [1, 2, 3, 4]) demo)
    ((went (exec (.hostMemRead (.device 0x10002001) ⟨2, false⟩) s1)).outbox.head?, (went (exec (.hostMemWrite (.device 0x1FB8000000) [1]) demo)).field ERRCNT1 32 32))
    = (some (.host false (.readData 0x10002001 [2, 3] false)), 1) := by decide +kernel

/-- QCTL.EN and CSW (R106, R148): a queue without work answers 2. -/
theorem test_queues : (let s1 := went (exec (.queueEnable 5) demo)
    (queueEnabled s1 5, queueEnabled (went (exec (.queueDisable 5) s1)) 5, (went (exec (.cswSuspend 5) demo)).field CSW 60 3,
      queueSuspended (went (exec (.cswSuspend 0) { demo with blocks := [], teams := [] })) 0)) = (true, false, 2, true) := by
  decide +kernel

/-- A block whose team has exited completes, and then its launch writes its completion value (R122, R149). -/
theorem test_completion : (let s1 := went (exec (.blockComplete 0 0 0) (went (exec .exit demo)))
    let s2 := went (exec (.launchComplete ⟨0, false⟩) s1)
    (s1.blocks.length, s1.launches.map (·.done), s2.launches.length, leNat (homeBytes s2 0x30000000 8))) = (0, [[0]], 0, 1) := by
  decide +kernel

/-- A word that a core registered is revoked: its value goes home (R183, R184). -/
def dirtied : State := demo.modCore 0 fun k => { k with l1 := [(0x4000400, ⟨7#32, true, false, true, false, none⟩)] }

theorem test_registration : (let s1 := went (exec (.registration 0 0x4000400) dirtied)
    let s2 := went (exec (.revocation 0 0x4000400) s1)
    (look 0x4000400 s1.registrants, look 0x4000400 s2.registrants, leNat (homeBytes s2 0x10001000 4))) = (some 0, none, 7) := by
  decide +kernel

/-- An epoch boundary moves the release signatures on; the clocks meet (R192, R197). -/
theorem test_epoch : (let s1 := went (exec .brimEpochBoundary ((State.put demo { loadTeam with sigE0 := 5#512, sigE1 := 6#512 }).modCore 0
      fun k => { k with clock := 9#48 }))
    (s1.teams.map (fun t => (t.sigE0, t.sigE1, t.sigE2)), (s1.core 5).clock)) = ([(0, 5, 6)], 9) := by decide +kernel

/-- TLBINV of another ASID keeps the entry, of this one drops it (R216). -/
theorem test_tlbinv : ([exec (.tlbinvAsid 1) demo, exec (.tlbinvAsid 0) demo, exec (.tlbinvPage 0 1) demo, exec (.tlbinvPage 0 2) demo].map
    fun r => ((went r).core 0).tlb.length) = [1, 0, 0, 1] := by decide +kernel

/-- A sealed store reported after its issue pends, and is taken where the team stands (R223). -/
theorem test_deferred_cause : (let s1 := went (exec (.deferredCauseReport 0 true 0x1234) demo)
    let s2 := went (exec (.trapEntry 0) s1)
    (trapped (.next s2), (teamAfter (.next s2)).map fun t => (t.epc, t.faddr))) = (some (14, 0), some (0x10000, 0x1234)) := by
  decide +kernel

/-- Registers of the module: a counter takes what is written, MODSTAT does not (R8, R16, R19). -/
theorem test_register_write : ((went (exec (.registerWrite 0x40 77) demo)).mreg ERRCNT0, (went (exec (.registerWrite 0 77) demo)).mreg MODSTAT)
    = (77, 0x311) := by decide +kernel

/-! ## Steps -/

/-- The word of R252's table for `iaddi v5, #-1`, fetched and run by one step; the pc and then the time move. -/
theorem test_step : (match step (State.reset.withFetchWord 32 0x0605FFFF) with
    | .next s => (s.teams.map fun t => (t.regAt 5 31, t.pc), s.tick)
    | _ => ([], 0)) = ([(0xFFFFFFFF, 0x10004)], 1) := by decide +kernel

/-- Two words: the PFX and the BALLOT of R296. -/
theorem test_step_words : (match step (State.reset.withFetchWord 64 (0x7FA40700 + 0x5C040300 * 2 ^ 32)) with
    | .next s => s.teams.map (·.pc)
    | _ => []) = [0x10008] := by decide +kernel


/-! ## Addresses, views, walks and signatures: the manual's examples -/

/-- The example of R46. -/
theorem test_map46 : map46 1 0x123456E0 = ⟨3, 23, 2, 2, 0x91, 5⟩ ∧ homeDie 0x20123456E0 = 1 := by decide +kernel

/-- The example of R194: the bits of one sector. -/
theorem test_signature : sigBits 0x10000020 = [33, 289, 173] := by decide +kernel

/-- The example of R79: view 8 transposes view 7. -/
def view8 : VDesc := ⟨true, false, true, [1, 0, 0, 0], 14, 2, 1, 0x10000000, [4, 4, 0, 0], [0, 0, 0, 0], 0, 0, 0, 0, 0⟩

theorem test_view : [view8.baseBit (8 * 0x18), view8.baseBit (8 * 0x24)] = [some (8 * 0x10000024), some (8 * 0x10000018)] := by
  decide +kernel

/-- The example of R212: the leaf that a walk from 0x40_0000 finds for 0x0A01_2345_6780. -/
theorem test_walk : (translate { demo with l2 := [(0x400010, 1), (0x400012, 0x41), (0x418048, 1), (0x41804A, 0x42),
      (0x421A28, 0x19), (0x421A29, 0x10), (0x421A2A, 0x50), (0x421A2B, 0x76), (0x421A2C, 0x20)] } 0 0 0x400000 0x0A0123456780).1
    = .leaf ⟨0x2076500000, false, false, false, false, true, true, 0, 0, 0⟩ false := by decide +kernel

/-- The check value of CRC-32C. -/
theorem test_crc : crc32c [0x31, 0x32, 0x33, 0x34, 0x35, 0x36, 0x37, 0x38, 0x39] = 0xE3069283 := by decide +kernel


/-! ## Witnesses: states and operands that meet the hypotheses of the obligations -/

/-- A team whose mask holds no lane. -/
def idle : Team := { loadTeam with mask := 0#1024 }

/-- A lane form issues, with every lane on and with none. -/
abbrev Issues (p : LPre) (f : Form) (d a b : Nat) : Prop :=
  LaneRuns demo loadTeam p f d a b ∧ (effMask loadTeam p).1 ≠ 0#1024
    ∧ LaneRuns (State.put demo idle) idle p f d a b ∧ (effMask idle p).1 = 0#1024

/-- Each form of a list issues with its fields. -/
abbrev AllIssue (l : List (Form × Nat × Nat × Nat)) : Prop := ∀ x ∈ l, Issues noPrefixes x.1 x.2.1 x.2.2.1 x.2.2.2

/-- The same for uniform forms. -/
abbrev AllRun (l : List (Form × Nat × Nat × Nat)) : Prop := ∀ x ∈ l, UniRuns demo loadTeam none x.1 x.2.1 x.2.2.1 x.2.2.2

def two : Form := Form.of .l (.dst 1) (.src 1) (.src 1)
def two64 : Form := Form.of .x (.dst 2) (.src 2) (.src 2)
def rounding (f : Form) : Form := { f with rounds := true, sat := true }

theorem witness_LaneIntegerArithmetic : AllIssue
    [({ Form.of .l .field .field .field with writes := false, pfx := false }, 0, 0, 0), (Form.of .l (.dst 1) (.src 1) .field, 4, 6, 0),
      (Form.of .l (.dst 1) .field .field, 4, 0, 0), (Form.of .l (.rmw 1) .field .field, 4, 0, 0), ({ two with sat := true }, 159, 6, 255),
      ({ Form.of .l (.rmw 1) .field .field with sat := true }, 4, 0, 0), ({ two with sat := true, c := .src 1 }, 160, 161, 8),
      ({ Form.of .l (.dst 2) (.src 2) (.src 2) with sat := true }, 158, 6, 8), (two, 4, 6, 8)] := by decide +kernel

/-- The last repetition of a REP under a PFX, whose mask register turns every lane on or off. -/
def lastRep (v : Word) : Team := { holding [(7, every v)] with repIdx := 63 }
def repPfx : LPre := ⟨some ⟨63, 1, 0, 7, 0⟩, some ⟨0xA4, 7, true, 0, false, false, false, false⟩⟩

theorem witness_repetition : LaneRuns (State.put demo (lastRep 1)) (lastRep 1) repPfx two 4 6 80
    ∧ (effMask (lastRep 1) repPfx).1 ≠ 0#1024 ∧ LaneRuns (State.put demo (lastRep 0)) (lastRep 0) repPfx two 4 6 80
    ∧ (effMask (lastRep 0) repPfx).1 = 0#1024
    ∧ UniRuns (State.put demo (lastRep 0)) (lastRep 0) (some ⟨63, 1, 0, 7, 0⟩) (Form.of .u (.dst 1) (.src 1) (.src 1)) 4 6 80 := by
  decide +kernel

theorem witness_LaneLogicShiftsAndBitFields : AllIssue [(two, 4, 6, 8), (Form.of .l (.rmw 1) (.src 1) (.src 1), 4, 6, 8),
    (Form.of .l (.dst 1) (.src 1) .field, 4, 6, 0), ({ two with c := .src 1 }, 4, 6, 8)] := by decide +kernel

theorem witness_LaneComparesGiveTheirTests : AllIssue [(two, 4, 6, 8), ({ two with rounds := false, sat := false }, 4, 6, 8)] := by
  decide +kernel

theorem witness_LaneFloatingPointArithmetic : AllIssue [(rounding two, 4, 6, 8), (two, 4, 6, 8),
    ({ rounding two with c := .src 1 }, 4, 6, 8), (Form.of .l (.dst 1) (.src 1) .field, 4, 6, 0), (rounding two64, 4, 6, 8),
    ({ rounding two64 with c := .src 2 }, 4, 6, 8), (two64, 4, 6, 8), (Form.of .x (.dst 1) (.src 2) (.src 2), 4, 6, 8)] := by
  decide +kernel

/-- The form of a conversion. -/
def cvtForm (n : Nat) : Option Form := (cvtShape n).map fun c => { Form.of .x (if c.merge then .rmw (if c.d64 then 2 else 1)
    else .dst (if c.d64 then 2 else 1)) (.src (if c.a64 then 2 else 1)) .field with
  rounds := true, sat := true, c := if c.usesC then .src 1 else .field }

theorem witness_LaneConversionsAndFunctions : (∀ n ∈ [0x00, 0x08, 0x0A, 0x0D, 0x30, 0x48], ∃ f ∈ cvtForm n, Issues noPrefixes f 4 6 0)
    ∧ AllIssue [({ Form.of .x (.dst 1) (.src 1) .field with rounds := true }, 4, 6, 0)] ∧ (8#8).toNat ≤ 8 := by decide +kernel

/-- The exact value of a finite pattern. -/
theorem exact_fin {x : FVal} {n : Bool} {v : Dy} (h : x = .fin n v) : x.exact = v.m * (2 : ℚ) ^ v.e := by subst h; rfl

def one32 : FVal := .fin false ⟨0x800000, -23⟩
theorem one32_exact : one32.exact = 1 := by rw [exact_fin (x := one32) rfl]; norm_num

theorem witness_formats_and_sums : (∀ x ∈ [(Fmt.fp64, 0, 0x7FF, 0), (.fp32, 1, 0xFF, 5), (.fp16, 0, 15, 0), (.bf16, 1, 0, 3)],
      x.2.1 * 2 ^ (x.1.ebits + x.1.fbits) + x.2.2.1 * 2 ^ x.1.fbits + x.2.2.2 < 2 ^ x.1.width ∧ x.2.1 < 2 ∧ x.2.2.1 < 2 ^ x.1.ebits
        ∧ x.2.2.2 < 2 ^ x.1.fbits)
    ∧ [FVal.inf true].any FVal.isNan = false ∧ (Fmt.fp32.read 0x7FC00000).isNan = true ∧ Fmt.fp32.read 0x7F800000 = .inf false
    ∧ Fmt.fp32.read 0xFF800000 = .inf true ∧ Fmt.fp32.read 0x3F800000 = one32 ∧ zeroTimesInf (Fmt.fp32.read 0) (.inf true) = true
    ∧ zeroTimesInf one32 (.inf true) = false ∧ one32.isNan = false ∧ Fmt.fp32.read 0 = .fin false ⟨0, -149⟩ := by decide +kernel

theorem witness_extremes_and_classes : Fmt.fp32.read 0x3F800000 = one32 ∧ Fmt.fp32.read 0x40000000 = .fin false ⟨0x800000, -22⟩
    ∧ one32.exact < (FVal.fin false ⟨0x800000, -22⟩).exact
    ∧ Fmt.fp32.read 0x80000000 = .fin true ⟨0, -149⟩ ∧ (FVal.fin true ⟨0, -149⟩).exact = (FVal.fin false ⟨0, -149⟩).exact
    ∧ (FVal.fin true ⟨0, -149⟩).exact = 0 ∧ Fmt.fp32.read 1 = .fin false ⟨1, -149⟩ ∧ (FVal.fin false ⟨1, -149⟩).exact ≠ 0
    ∧ |(FVal.fin false ⟨1, -149⟩).exact| < (2 : ℚ) ^ (-126 : ℤ) ∧ (2 : ℚ) ^ (-126 : ℤ) ≤ |one32.exact|
    ∧ Fmt.fp32.read 0xFFC00001 = .nan true true 0x400001 23 ∧ 0x3F800000 < 2 ^ Fmt.fp32.width := by
  refine ⟨by decide +kernel, by decide +kernel, ?_, by decide +kernel, by rw [exact_fin rfl, exact_fin rfl], by rw [exact_fin rfl]; norm_num,
    by decide +kernel, by rw [exact_fin rfl]; norm_num, ?_, by rw [one32_exact]; norm_num, by decide +kernel, by decide +kernel⟩
  · rw [one32_exact, exact_fin rfl]; norm_num
  · rw [exact_fin rfl]; norm_num [abs_lt]

/-- Which signs the infinite terms of a dot product have. -/
def infTerms (x0 x1 y0 y1 z : FVal) (n : Bool) : Prop :=
  (x0.isInf = true ∨ y0.isInf = true) ∧ (x0.sign != y0.sign) = n ∨ (x1.isInf = true ∨ y1.isInf = true) ∧ (x1.sign != y1.sign) = n ∨ z = .inf n

theorem witness_dot_products : [0x3C00, 0x7C00, 0xFC00, 0, 0x7E00, 0x7D00].map Fmt.fp16.read
      = [.fin false ⟨1024, -10⟩, .inf false, .inf true, .fin false ⟨0, -24⟩, .nan false true 512 10, .nan false false 256 10]
    ∧ (infTerms (.inf false) (.inf true) one32 one32 one32 true ∧ infTerms (.inf false) (.inf true) one32 one32 one32 false)
    ∧ (infTerms (.inf false) one32 one32 one32 one32 false ∧ ¬ infTerms (.inf false) one32 one32 one32 one32 true)
    ∧ (∀ n, ¬ infTerms one32 one32 one32 one32 one32 n) ∧ zeroTimesInf (.inf false) (.fin false ⟨0, -24⟩) = true
    ∧ [one32, .nan false false 256 10].any FVal.isSnan = true ∧ one32.isZero = false ∧ one32.exact ≠ 0 := by
  refine ⟨by decide +kernel, ?_, ?_, ?_, by decide +kernel, by decide +kernel, by decide +kernel, by rw [one32_exact]; norm_num⟩
  all_goals unfold infTerms; decide +kernel

/-- Patterns that the conversions read: 1, 1.5, 500, −1. -/
theorem witness_conversions : (∀ x ∈ widenings, 0 < x.2.1) ∧ (∀ x ∈ narrowings, 0 < x.2.1) ∧ (∀ x ∈ intNarrowings, 0 < x.2.1)
    ∧ (∀ x ∈ intWidenings, 0 < x.2.1) ∧ 255 % 256 = 255 ∧ 127 % 128 = 127
    ∧ Fmt.fp32.read 0x3FC00000 = .fin false ⟨0xC00000, -23⟩ ∧ (2 : ℚ) ^ (0 : Int) ≤ (FVal.fin false ⟨0xC00000, -23⟩).exact
    ∧ (FVal.fin false ⟨0xC00000, -23⟩).exact < (2 : ℚ) ^ ((0 : Int) + 1) ∧ RoundsToInt .rne one32.exact 1
    ∧ RoundsToInt .rz (FVal.fin false ⟨0xC00000, -23⟩).exact 1
    ∧ Fmt.fp32.read 0xBF800000 = .fin true ⟨-0x800000, -23⟩ ∧ (FVal.fin true ⟨-0x800000, -23⟩).exact ≤ 0
    ∧ (FVal.fin true ⟨-0x800000, -23⟩).sign = true
    ∧ Fmt.fp32.read 0x43FA0000 = .fin false ⟨0xFA0000, -15⟩ ∧ (Fmt.e4m3.roundExact .rne false false (FVal.fin false ⟨0xFA0000, -15⟩).exact).2.of = true
    ∧ (Fmt.e4m3.roundExact .rne false false one32.exact).2.of = false := by
  refine ⟨by decide +kernel, by decide +kernel, by decide +kernel, by decide +kernel, rfl, rfl, by decide +kernel, ?_, ?_, ?_, ?_, by decide +kernel, ?_,
    rfl, by decide +kernel, ?_, ?_⟩
  · rw [exact_fin rfl]; norm_num
  · rw [exact_fin rfl]; norm_num
  · rw [one32_exact]; unfold RoundsToInt; norm_num
  · rw [exact_fin rfl]; unfold RoundsToInt; norm_num [abs_le, abs_lt]
  · rw [exact_fin rfl]; norm_num
  · have h : (FVal.fin false ⟨0xFA0000, -15⟩).exact = 500 := by rw [exact_fin rfl]; norm_num
    rw [h]; decide +kernel
  · rw [one32_exact]; decide +kernel

theorem witness_special_functions : (Fmt.fp32.read 0x7FC00000).isNan = true ∧ Fmt.fp32.read 0xBF800000 = .fin true ⟨-0x800000, -23⟩
    ∧ (FVal.fin true ⟨-0x800000, -23⟩).exact ≠ 0 ∧ 0xFF800000 < 2 ^ 32 := by
  refine ⟨by decide +kernel, by decide +kernel, ?_, by decide⟩
  rw [exact_fin rfl]; norm_num

theorem witness_reciprocals : (Fmt.fp32.read 1 = .fin false ⟨1, -149⟩ ∧ (FVal.fin false ⟨1, -149⟩).exact ≠ 0
      ∧ (2 : ℚ) ^ (128 : Int) - (2 : ℚ) ^ (103 : Int) ≤ |1 / (FVal.fin false ⟨1, -149⟩).exact|)
    ∧ Fmt.fp32.read 0x3F800000 = one32 ∧ |1 / one32.exact| < (2 : ℚ) ^ (128 : Int) - (2 : ℚ) ^ (103 : Int)
    ∧ (2 : ℚ) ^ (0 : Int) ≤ |1 / one32.exact| ∧ |1 / one32.exact| < (2 : ℚ) ^ ((0 : Int) + 1) ∧ 0 < one32.exact
    ∧ (2 : ℚ) ^ (2 * (0 : Int)) * one32.exact ≤ 1 ∧ 1 < (2 : ℚ) ^ (2 * (0 : Int) + 2) * one32.exact := by
  rw [one32_exact]
  refine ⟨⟨by decide +kernel, ?_, ?_⟩, by decide +kernel, by norm_num, by norm_num, by norm_num, by norm_num, by norm_num, by norm_num⟩
  · rw [exact_fin rfl]; norm_num
  · rw [exact_fin rfl]; norm_num

theorem exp2_half : exp2Bounds ⟨0x800000, -24⟩ = (⟨112045541949572279837463876454, -96⟩, ⟨112045541949572279837463880550, -96⟩) := by decide +kernel

theorem encloses_of {a b : Dy} {y : ℝ} (h : (a.m : ℝ) * (2 : ℝ) ^ a.e ≤ y ∧ y ≤ (b.m : ℝ) * (2 : ℝ) ^ b.e) : Encloses (a, b) y := by
  unfold Encloses FVal.exact FVal.real
  push_cast
  exact h

theorem witness_exponentials : (Fmt.fp32.read 0x3F000000 = .fin false ⟨0x800000, -24⟩ ∧ (FVal.fin false ⟨0x800000, -24⟩).exact = 1 / 2
      ∧ ((1 / 2 : ℚ) ≠ ⌊(1 / 2 : ℚ)⌋) ∧ Encloses (exp2Bounds ⟨0x800000, -24⟩) ((2 : ℝ) ^ (((1 / 2 : ℚ) : ℚ) : ℝ)))
    ∧ (Fmt.fp32.read 0x40000000 = .fin false ⟨0x800000, -22⟩ ∧ (FVal.fin false ⟨0x800000, -22⟩).exact = 2
      ∧ Encloses (log2Bounds ⟨0x800000, -22⟩) (Real.logb 2 ((2 : ℚ) : ℝ)) ∧ (2 : ℝ) ^ (0 : ℤ) ≤ |Real.logb 2 ((2 : ℚ) : ℝ)|
      ∧ |Real.logb 2 ((2 : ℚ) : ℝ)| < (2 : ℝ) ^ ((0 : ℤ) + 1))
    ∧ (Fmt.fp32.read 0xC3160000 = .fin true ⟨-0x960000, -16⟩ ∧ (FVal.fin true ⟨-0x960000, -16⟩).exact < -149)
    ∧ Fmt.fp32.read 0x43000000 = .fin false ⟨0x800000, -16⟩ ∧ 128 ≤ (FVal.fin false ⟨0x800000, -16⟩).exact := by
  have hl : Real.logb 2 ((2 : ℚ) : ℝ) = 1 := by push_cast; exact Real.logb_self_eq_one (by norm_num)
  rw [hl]
  refine ⟨⟨by decide +kernel, by rw [exact_fin rfl]; norm_num, by norm_num, ?_⟩, ⟨by decide +kernel, by rw [exact_fin rfl]; norm_num, ?_, by norm_num, by norm_num⟩,
    ⟨by decide +kernel, by rw [exact_fin rfl]; norm_num⟩, by decide +kernel, by rw [exact_fin rfl]; norm_num⟩
  · rw [exp2_half]
    have hs : ((2 : ℝ) ^ (((1 / 2 : ℚ) : ℚ) : ℝ)) = Real.sqrt 2 := by rw [Real.sqrt_eq_rpow]; norm_num
    rw [hs]
    refine encloses_of ⟨Real.le_sqrt_of_sq_le ?_, (Real.sqrt_le_left ?_).2 ?_⟩
    all_goals norm_num
  · have h : log2Bounds ⟨0x800000, -22⟩ = (⟨1, 0⟩, ⟨1, 0⟩) := by decide +kernel
    rw [h]
    exact encloses_of (by norm_num)

/-- 2⁻³¹, whose sine and cosine the first terms of their series enclose. -/
def tiny31 : FVal := .fin false ⟨0x800000, -54⟩
theorem tiny31_exact : tiny31.exact = 1 / 2 ^ 31 := by rw [exact_fin (x := tiny31) rfl]; norm_num

theorem exp_large : (70368744177663 : ℝ) ≤ Real.exp 32 := by
  have h : Real.exp 32 = Real.exp 1 ^ 32 := by rw [← Real.exp_nat_mul]; norm_num
  rw [h]
  calc (70368744177663 : ℝ) ≤ 2.7182 ^ 32 := by norm_num
    _ ≤ Real.exp 1 ^ 32 := by gcongr; linarith [Real.exp_one_gt_d9]

theorem witness_trigonometric_functions : Fmt.fp32.read 0x30000000 = tiny31 ∧ tiny31.exact ≠ 0
    ∧ Encloses (trigBounds false ⟨0x800000, -54⟩) (Real.sin (tiny31.exact : ℝ)) ∧ Encloses (trigBounds true ⟨0x800000, -54⟩) (Real.cos (tiny31.exact : ℝ)) := by
  rw [tiny31_exact]
  have hs : trigBounds false ⟨0x800000, -54⟩ = (⟨10889035741470030830237691627457877114880, -164⟩, ⟨0x800000, -54⟩) := by decide +kernel
  have hc : trigBounds true ⟨0x800000, -54⟩ = (⟨649037107316853453495943296974848, -109⟩,
    ⟨1684996666696914986984000738272364052331812682476391923711580569600, -220⟩) := by decide +kernel
  rw [hs, hc]
  push_cast
  refine ⟨by decide +kernel, by norm_num, encloses_of ⟨?_, ?_⟩, encloses_of ⟨?_, ?_⟩⟩
  · refine le_trans ?_ (Real.sin_gt_sub_cube (x := 1 / 2 ^ 31) (by norm_num)).le
    norm_num
  · refine le_trans (Real.sin_lt (x := 1 / 2 ^ 31) (by norm_num)).le ?_
    norm_num
  · refine le_trans ?_ (Real.one_sub_sq_div_two_le_cos (x := 1 / 2 ^ 31))
    norm_num
  · have h := (abs_le.1 (Real.cos_bound (x := 1 / 2 ^ 31) (by norm_num [abs_le]))).2
    rw [abs_of_nonneg (by positivity)] at h
    have h2 : Real.cos (1 / 2 ^ 31) ≤ 1 - (1 / 2 ^ 31) ^ 2 / 2 + (1 / 2 ^ 31) ^ 4 * (5 / 96) := by linarith
    refine h2.trans ?_
    norm_num

theorem witness_hyperbolic_functions : (Fmt.fp32.read 0x41800000 = .fin false ⟨0x800000, -19⟩ ∧ (FVal.fin false ⟨0x800000, -19⟩).exact = 16
      ∧ Encloses (tanhBounds ⟨0x800000, -19⟩) (Real.tanh ((16 : ℚ) : ℝ)))
    ∧ Fmt.fp32.read 0x42000000 = .fin false ⟨0x800000, -18⟩ ∧ (FVal.fin false ⟨0x800000, -18⟩).exact = 32
    ∧ Encloses (sigmBounds ⟨0x800000, -18⟩) (1 / (1 + Real.exp (-((32 : ℚ) : ℝ)))) := by
  have ht : tanhBounds ⟨0x800000, -19⟩ = (⟨1099511627775, -40⟩, ⟨1, 0⟩) := by decide +kernel
  have hg : sigmBounds ⟨0x800000, -18⟩ = (⟨70368744177663, -46⟩, ⟨1, 0⟩) := by decide +kernel
  have he := exp_large
  rw [ht, hg]
  push_cast
  refine ⟨⟨by decide +kernel, by rw [exact_fin rfl]; norm_num, encloses_of ⟨?_, ?_⟩⟩, by decide +kernel, by rw [exact_fin rfl]; norm_num,
    encloses_of ⟨?_, ?_⟩⟩
  · have h : Real.tanh 16 = 1 - 2 / (Real.exp 32 + 1) := by
      rw [Real.tanh_eq_sinh_div_cosh, Real.sinh_eq, Real.cosh_eq]
      have h1 : Real.exp 32 = Real.exp 16 * Real.exp 16 := by rw [← Real.exp_add]; norm_num
      have h2 : Real.exp (-16) = 1 / Real.exp 16 := by rw [Real.exp_neg, one_div]
      have h3 := Real.exp_pos 16
      rw [h1, h2]
      field_simp
      ring
    rw [h]
    have h4 : 2 / (Real.exp 32 + 1) ≤ 2 / (70368744177663 + 1) := by gcongr
    refine le_trans ?_ (sub_le_sub_left h4 1)
    norm_num
  · norm_num; exact (Real.tanh_lt_one 16).le
  · have h : Real.exp (-32) ≤ 1 / 70368744177663 := by rw [Real.exp_neg, ← one_div]; gcongr
    have h2 : 1 / (1 + 1 / 70368744177663 : ℝ) ≤ 1 / (1 + Real.exp (-32)) := by
      have := Real.exp_pos (-32)
      gcongr
    refine le_trans ?_ h2
    norm_num
  · have := Real.exp_pos (-32)
    norm_num
    rw [inv_le_one₀ (by positivity)]
    linarith

theorem witness_RoundingPicksTheNeighbour : (∀ f ∈ [Fmt.fp64, .fp32, .fp16, .bf16, .e4m3, .e5m2, .e3m2, .e2m3, .e2m1],
    ∀ mode ∈ [RMode.rne, .rz, .rd, .ru, .rna], ∀ neg ∈ [false, true],
      (f.roundRat mode false neg 4 3).2.of = false ∧ (f.roundRat mode true neg 1 (2 ^ 200)).2.of = false) := by decide +kernel

def cvtTeam : Team := holding [(1, every 0x3F080000)]
def table1 : ActTable := ((tableState (0, 0)).core 0).tables.getD 1 ActTable.reset

theorem witness_RngAndActvReadTheirState : Issues noPrefixes (Form.of .l (.dst 1) .field .field) 4 0 0
    ∧ LaneRuns (tableState (0, 0)) cvtTeam noPrefixes (rounding (Form.of .x (.dst 1) (.src 1) .table)) 4 1 0xE1
    ∧ (effMask cvtTeam noPrefixes).1 ≠ 0#1024 ∧ ((tableState (0, 0)).core 0).tables[0xE1 - 224]? = some table1
    ∧ table1.bank0.owner = some (0, 0) ∧ ((tableState (0, 1)).core 0).tables[0xE1 - 224]?.map (·.bank0.owner) = some (some (0, 1))
    ∧ table1.bank0.entries[145]? = some 0x3F80000042280000#64 ∧ Fmt.fp32.read 0x3F080000 = .fin false ⟨0x880000, -24⟩
    ∧ (0x880000 : Int) * 32 = ((145 : Int) - 128) * 2 ^ 24 ∧ Fmt.fp32.read 0x42280000 = .fin false ⟨0xA80000, -18⟩
    ∧ Fmt.fp32.read 0x3F800000 = .fin false ⟨0x800000, -23⟩
    ∧ Fmt.fp32.read 0xC0800000 = .fin true ⟨-0x800000, -21⟩ ∧ (-0x800000 : Int) * 32 = ((0 : Int) - 128) * 2 ^ 21
    ∧ Fmt.fp32.read 0x407E0000 = .fin false ⟨0xFE0000, -22⟩ ∧ (0xFE0000 : Int) * 32 = ((255 : Int) - 128) * 2 ^ 22 := by
  decide +kernel

theorem witness_ShufflesCopyWithinTheSpan : AllIssue [(Form.of .x (.dst 1) (.src 1) (.src 1), 4, 6, 8)] := by decide +kernel

/-- A team whose span has 64 lanes. -/
def span64 : Team := { loadTeam with cfg := { loadCfg with spanS := 64 } }

theorem witness_VotesReductionsAndExchanges : AllIssue [(Form.of .x (.dst 1) (.src 1) .field, 4, 6, 0),
      ({ Form.of .x (.dst 1) (.src 1) .field with sat := true }, 4, 6, 0), (rounding (Form.of .x (.dst 1) (.src 1) .field), 4, 6, 0),
      (Form.of .x .xch (.src 1) (.src 1), 4, 6, 8), (Form.of .x .xch (.src 1) (.src 1), 160, 6, 8)]
    ∧ LaneRuns (State.put demo span64) span64 noPrefixes (Form.of .x (.dst 2) (.src 1) .field) 4 6 0 ∧ span64.cfg.spanS = 64 := by
  decide +kernel

def uni : Form := Form.of .u (.dst 1) (.src 1) (.src 1)

theorem witness_UniformInstructionsGiveTheirResults : AllRun [(Form.of .u .field .field .field, 0, 0, 0),
    (Form.of .u (.dst 1) (.src 1) .field, 4, 6, 0), (Form.of .u (.dst 1) .field .field, 4, 0, 0), (Form.of .u (.rmw 1) .field .field, 4, 0, 0),
    (uni, 159, 6, 255), (uni, 160, 163, 8), (Form.of .u (.rmw 1) (.src 1) (.src 1), 4, 6, 8),
    (Form.of .u (.dst 2) (.src 2) (.src 2), 158, 6, 8)]
    ∧ demo.teams[demo.cur]? = some loadTeam ∧ loadTeam.repIdx = 0 := by decide +kernel

theorem witness_TransfersAndReturns : AllRun [(uniForm .field, 0, 0, 0), ({ uniForm .field with regs := [158, 159] }, 0, 0, 0),
    (uniForm (.src 1), 0, 6, 0), (uniForm (.src 1), 0, 255, 0), (uniForm (.src 2), 0, 6, 0)] := by decide +kernel

/-! ### Control -/

def stacked (es : List CtlEntry) : Team := { loadTeam with stack := es }
def ifE : CtlEntry := ⟨.ifK, 3, 1, 0, 0, 0⟩
def loopE : CtlEntry := ⟨.loopK, 3, 0, 1, 0, 0x10040⟩

/-- Stacks that are full, one below full, empty, with an IF above a LOOP, and with a LOOP that every lane or one lane left. -/
def stacks6 : List (List CtlEntry) :=
  [List.replicate 64 ifE, List.replicate 63 ifE, [], [ifE, loopE], [loopE], [{ loopE with brk := 3 }]]

theorem witness_MaskAndStackTransfers : (∀ es ∈ stacks6, UniRuns (State.put demo (stacked es)) (stacked es) none (uniForm .field) 0 0 0
      ∧ UniRuns (State.put demo (stacked es)) (stacked es) none (uniForm (.src 1)) 0 6 0)
    ∧ stacks6.map List.length = [64, 63, 0, 2, 1, 1] ∧ ifE.kind = .ifK ∧ loopE.kind = .loopK
    ∧ [ifE, loopE] = [ifE] ++ loopE :: [] ∧ loopE.saved &&& ~~~loopE.brk ≠ 0#1024 ∧ (3#1024 &&& ~~~3#1024) = 0#1024
    ∧ (∀ e below, (stacked []).stack = e :: below → e.kind ≠ .ifK)
    ∧ (∀ e below, (stacked [ifE, loopE]).stack = e :: below → e.kind = .ifK)
    ∧ (∀ e below, (stacked [loopE]).stack = e :: below → e.kind = .loopK)
    ∧ (∀ e ∈ (stacked []).stack, e.kind ≠ .loopK) := by
  refine ⟨by decide +kernel, by decide +kernel, rfl, rfl, rfl, by decide +kernel, by decide +kernel, ?_, ?_, ?_, ?_⟩
  · intro e below h; cases h
  · intro e below h; cases h; rfl
  · intro e below h; cases h; rfl
  · intro e h; cases h

theorem witness_closers_meet : (∀ es ∈ stacks6, ∀ x ∈ [([expectIf], expectIf), ([expectIf, expectElse], expectElse), ([expectBrk], expectBrk)],
    UniRuns (State.put demo (stacked es)) (stacked es) none { uniForm .field with meets := x.1 } 0 0 0
    ∧ UniRuns (State.put demo { stacked es with expect := some x.2 }) { stacked es with expect := some x.2 } none
      { uniForm .field with meets := x.1 } 0 0 0) := by decide +kernel

/-- A team that a transfer sent to a NOP in search of an ELSE or ENDIF. -/
def seeker : Team := { loadTeam with expect := some expectIf }
def seeking : State := State.put (coded [0]) seeker

/-- The same at an arrival with its REGION. -/
def seekPair : State := State.put (coded [0, 0, 0xB4000000, 0, 0, 0, 0, 0]) seeker

theorem witness_StructuredTransfersReachTheirKind : (fetchInstr { seeking with cur := 0 } 0 seeker seeker.pc).1
      = .instr (.nop noPrefixes) 1 ∧ seeking.teams[seeking.cur]? = some seeker ∧ seeker.repIdx = 0 ∧ seeker.expect = some expectIf
    ∧ isEvent (.nop noPrefixes) = false ∧ mayBeReached expectIf (.nop noPrefixes) = false ∧ closesRegion (.nop noPrefixes) = false
    ∧ mayBeReached expectIf (.unop none) = false ∧ mayBeReached expectIf (.elseI 0) = true ∧ mayBeReached expectBrk .endif = false
    ∧ (∀ x ∈ [(Form.of .u .field .field .field, 0, 0), (Form.of .u (.dst 1) (.src 1) .field, 4, 6), (uniForm .field, 0, 0),
        (uniForm (.src 1), 0, 6)],
      check { seeker with expect := none } x.1 (fieldsFor none 0 x.2.1 x.2.2 0 164) false 164 = none)
    ∧ (pairTest seekPair seekPair.cur seeker (seeker.pc + 8)).1 = .region 0 ∧ seeker.walked = false ∧ seeker.pending = none
    ∧ (pairTest seekPair seekPair.cur seeker (seeker.pc + 8)).2.cur = seekPair.cur
    ∧ check seeker (Form.of .m .field (.src 1) .field).closed (fieldsFor none 0 0 5 0 164) false 164 = none
    ∧ waitsFor seekPair seeker (codeRegs 5 1) = false := by decide +kernel

theorem witness_UanyAndYield : AllRun [(Form.of .u (.dst 1) (.src 1) .field, 4, 6, 0), (uniForm .field, 0, 0, 0)] := by decide +kernel

theorem finished_demo : Finished demo loadTeam := by unfold Finished Quiet; decide +kernel

theorem quiet_demo : Quiet demo loadTeam := finished_demo.1

theorem witness_ExitEndsTheTeam : UniRuns demo loadTeam none (uniForm .field) 0 0 0 ∧ Finished demo loadTeam
    ∧ demo.blocks[0]? = some loadBlock ∧ loadBlock.holds loadTeam.key = true :=
  ⟨by decide +kernel, finished_demo, by decide +kernel, by decide +kernel⟩

theorem witness_TrapsEnterTheHandlerOrEndTheTeam : demo.teams[0]? = some loadTeam ∧ Quiet demo loadTeam ∧ loadTeam.priv = false
    ∧ (State.put demo inHandler).teams[0]? = some inHandler ∧ Finished (State.put demo inHandler) inHandler
    ∧ inHandler.batches = [] ∧ inHandler.openOps = [] ∧ inHandler.priv = true :=
  ⟨by decide +kernel, quiet_demo, rfl, by decide +kernel, by unfold Finished Quiet; decide +kernel, rfl, rfl, rfl⟩

/-- The state that the fetch of a REGION leaves. -/
def pairEnd (s : State) (t : Team) (words : Nat) : State := (pairTest s s.cur t (t.pc + 4 * words)).2

/-- The REGION of a closing instruction is there: what is decided of it. -/
abbrev PairFacts (s : State) (t : Team) (words : Nat) (live : BitVec 160) : Prop :=
  (pairTest s s.cur t (t.pc + 4 * words)).1 = .region live ∧ hasWalked s (pairEnd s t words) t.die = false ∧ t.expect = none
    ∧ (pairEnd s t words).cur = s.cur
    ∧ (pairEnd s t words).teams[s.cur]? = some t ∧ waitsFor (pairEnd s t words) t (liveRegs live) = false

theorem pairs_of {s : State} {t : Team} {words : Nat} {live : BitVec 160} (h : PairFacts s t words live) :
    Pairs s t words live (pairEnd s t words) := ⟨Prod.ext h.1 rfl, h.2⟩

theorem closes_of {s : State} {t : Team} {f : Form} {d a b words : Nat} {live : BitVec 160} (hr : UniRuns s t none f d a b)
    (h : PairFacts s t words live) : UniCloses s t f d a b words live (pairEnd s t words) := ⟨hr, pairs_of h⟩

theorem laneCloses_of {s : State} {t : Team} {p : LPre} {f : Form} {d a b words : Nat} {live : BitVec 160}
    (hr : LaneRuns s t p f d a b) (h : PairFacts s t (laneWords p words) live) :
    LaneCloses s t p f d a b words live (pairEnd s t (laneWords p words)) := ⟨hr, pairs_of h⟩

/-- A TRAP and its REGION. -/
def trapCode : State := coded [0xB1000007, 0xB4000000, 0, 0, 0, 0, 0]

theorem witness_TrapBreakpointAndReservedCodes : UniRuns trapCode loadTeam none (uniForm .field) 0 0 0 ∧ Quiet trapCode loadTeam
    ∧ loadTeam.priv = false ∧ Pairs trapCode loadTeam 1 0#160 (pairEnd trapCode loadTeam 1) ∧ Quiet (pairEnd trapCode loadTeam 1) loadTeam :=
  ⟨by decide +kernel, by unfold Quiet; decide +kernel, rfl, pairs_of (by decide +kernel), by unfold Quiet; decide +kernel⟩

theorem witness_ReturnsLeaveTheHandler : demo.teams[demo.cur]? = some loadTeam ∧ loadTeam.repIdx = 0 ∧ loadTeam.priv = false
    ∧ ∀ n, n = 0 ∨ n = 1 → ∃ t, t = { inHandler with sdepth := n } ∧ (State.put demo t).teams[(State.put demo t).cur]? = some t
      ∧ t.repIdx = 0 ∧ t.priv = true ∧ Quiet (State.put demo t) t ∧ (t.stack.length = t.sdepth ↔ n = 0) := by
  refine ⟨by decide +kernel, rfl, rfl, ?_⟩
  rintro n (rfl | rfl) <;> exact ⟨_, rfl, by unfold Quiet; decide +kernel⟩

theorem witness_RegionTakesACheckpoint : UniRuns demo loadTeam none (uniForm .field) 0 0 0
    ∧ UniRuns (State.put demo prologue) prologue none (uniForm .field) 0 0 0
    ∧ UniRuns (State.put demo inHandler) inHandler none (uniForm .field) 0 0 0
    ∧ loadTeam.regs.length / 8 < ((List.range 160).filter fun r => (0x1FFFFF#160).getLsbD r).length
    ∧ (1#160 <<< 32).getLsbD 32 = true ∧ prologue.regs.length ≤ 32
    ∧ ((List.range 160).filter fun r => (0xFFFFF#160).getLsbD r).length ≤ loadTeam.regs.length / 8
    ∧ (∀ r, (0xFFFFF#160).getLsbD r = true → r < loadTeam.regs.length) ∧ waitsFor demo loadTeam (liveRegs 0xFFFFF#160) = false
    ∧ loadTeam.priv = false ∧ inHandler.priv = true ∧ loadTeam.regs.length = inHandler.regs.length
    ∧ waitsFor (State.put demo inHandler) inHandler (liveRegs 0xFFFFF#160) = false := by
  have h0 : ∀ t ∈ [loadTeam, prologue, inHandler], UniRuns (State.put demo t) t none (uniForm .field) 0 0 0 := by decide +kernel
  refine ⟨by decide +kernel, h0 _ (by simp), h0 _ (by simp), by decide +kernel, by decide +kernel, by decide +kernel,
    by decide +kernel, ?_, by decide +kernel⟩
  intro r h
  have h1 := BitVec.lt_of_getLsbD h
  have h2 : loadTeam.regs.length = 160 := by decide +kernel
  omega

theorem witness_OperandCacheFillsAndDrops : ocldEntries [0xFFFF0504] = [4, 5] ++ List.replicate 2 0xFF#8
    ∧ UniRuns demo loadTeam none { uniForm .field with more := [4, 5].map fun r : Byte => (.run 1, r.toNat) } 0 0 0
    ∧ UniRuns demo loadTeam none (Form.of .u .field .optReg .optReg) 0 4 0xA4
    ∧ UniRuns demo loadTeam none (uniForm .field) 0 0 0 := by decide +kernel

/-- The device whose block has its first unit and its first rows with another team. -/
def crowded : State := { State.put demo prologue with blocks := [{ loadBlock with units := [(0, .held 1)], accRuns := [(0, 0, 4, 1)] }] }

/-- A partition whose registers are all taken. -/
def filled : State := { demo with
  teams := prologue :: (List.range 13).map fun i => { loadTeam with key := { loadTeam.key with num := i + 1 } } }

/-- Another team, that waits in the queue of ALLOC for its registers. -/
def second : Team := { prologue with key := { loadTeam.key with num := 40 }, park := some .alloc, active := false }
def queueing (s : State) : State :=
  { s with teams := s.teams ++ [second] }.modCore 0 fun k => { k with allocQ := [⟨second.key, 160, 0, none⟩] }

theorem witness_alloc_queues : ∀ s ∈ [State.put demo prologue, filled], UniRuns (queueing s) prologue none (Form.of .u .pair .field .field) 20 0 0
    ∧ (queueing s).teamOf prologue.key = some prologue ∧ ((queueing s).core prologue.coreNo).allocQ = [⟨second.key, 160, 0, none⟩]
    ∧ second.key ≠ prologue.key ∧ (queueing s).teamOf second.key = some second ∧ (queueing s).blockOf prologue.key = some loadBlock
    ∧ lowestRun (loadBlock.takenUnits prologue.blockCore) loadBlock.tileLen 0 = some 0
    ∧ lowestRun (loadBlock.takenRows prologue.blockCore) loadBlock.accLen 1 = some 0
    ∧ (regsUsed (queueing s) prologue.coreNo second.part + (160 - second.regs.length) * second.tl ≤ 65536 ↔ s.teams.length = 1) := by
  decide +kernel

theorem witness_AllocGrantsOrRefuses : (UniRuns demo loadTeam none (Form.of .u .pair .field .field) 20 0 0
    ∧ UniRuns demo loadTeam none (Form.of .u .field .field .field) 20 0 0
    ∧ 8 * 20 = loadTeam.regs.length ∧ unitsHeld demo loadTeam = [] ∧ loadTeam.accRows = 0
    ∧ loadTeam.cfg.pregs < loadTeam.regs.length ∧ 8 * 19 ≠ loadTeam.regs.length)
    ∧ (UniRuns crowded prologue none (Form.of .u .pair .field .field) 20 0 0 ∧ prologue.cfg.pregs = prologue.regs.length
    ∧ unitsHeld crowded prologue = [] ∧ prologue.accRows = 0 ∧ prologue.cfg.regs < 8 * 21 ∧ prologue.cfg.pregs ≤ 8 * 4)
    ∧ (∃ b, crowded.blockOf prologue.key = some b ∧ lowestRun (b.takenUnits prologue.blockCore) b.tileLen 512 = none
      ∧ lowestRun (b.takenUnits prologue.blockCore) b.tileLen 511 = some 1
      ∧ lowestRun (b.takenRows prologue.blockCore) b.accLen 2048 = none
      ∧ lowestRun (b.takenRows prologue.blockCore) b.accLen 2044 = some 4)
    ∧ (crowded.teamOf prologue.key = some prologue ∧ prologue.park = none ∧ prologue.coreNo < crowded.cores.length
    ∧ (crowded.core prologue.coreNo).allocQ = []
    ∧ regsUsed crowded prologue.coreNo prologue.part + (160 - prologue.regs.length) * prologue.tl ≤ 65536
    ∧ UniRuns filled prologue none (Form.of .u .pair .field .field) 20 0 0 ∧ filled.teamOf prologue.key = some prologue)
    ∧ (∃ b, filled.blockOf prologue.key = some b ∧ lowestRun (b.takenUnits prologue.blockCore) b.tileLen 0 = some 0
      ∧ lowestRun (b.takenRows prologue.blockCore) b.accLen 1 = some 0) ∧ (filled.core prologue.coreNo).allocQ = []
    ∧ 65536 < regsUsed filled prologue.coreNo prologue.part + (160 - prologue.regs.length) * prologue.tl :=
  ⟨by decide +kernel, by decide +kernel, ⟨{ loadBlock with units := [(0, .held 1)], accRuns := [(0, 0, 4, 1)] }, by decide +kernel⟩,
    by decide +kernel, ⟨loadBlock, by decide +kernel⟩, by decide +kernel⟩

theorem witness_FreeReturnsTheAllotment : UniRuns demo loadTeam none (uniForm .field) 0 0 0 ∧ Finished demo loadTeam
    ∧ demo.blocks[0]? = some loadBlock ∧ loadBlock.holds loadTeam.key = true :=
  ⟨by decide +kernel, finished_demo, by decide +kernel, by decide +kernel⟩

theorem witness_SystemRegistersAreReadAndWritten :
    (∀ x ∈ selectorValues (State.put demo inHandler) inHandler, UniRuns (State.put demo inHandler) inHandler none
      { Form.of .u (.dst 1) .field .field with priv := decide (8 ≤ x.1) } 4 0 0)
    ∧ (∀ n ∈ [0, 1, 8, 9, 10, 16, 17, 18, 19], UniRuns (State.put demo inHandler) inHandler none
      { Form.of .u .field (.src 1) .field with priv := decide (8 ≤ n) } 0 6 0)
    ∧ UniRuns demo loadTeam none (Form.of .u .field (.src 1) .field) 0 6 0
    ∧ demo.teams[demo.cur]? = some loadTeam ∧ loadTeam.repIdx = 0 ∧ loadTeam.priv = false
    ∧ (0x08, 0) ∈ selectorValues demo loadTeam ∧ 0x20 ∉ (selectorValues demo loadTeam).map (·.1) := by decide +kernel

theorem witness_FailedAccessesTrapOrPark : (∃ x, worst ((resolve demo loadTeam.who ⟨4, .read, false, false⟩ [(0, 0x11002)]).1.fail.toList ++ [])
      = some x)
    ∧ Quiet (demo.setMreg PFQPTR (1 <<< 63)) loadTeam ∧ (demo.setMreg PFQPTR (1 <<< 63)).teams[0]? = some loadTeam ∧ loadTeam.priv = false
    ∧ (demo.setMreg PFQPTR (1 <<< 63)).field PFQPTR 63 1 = 1 ∧ demo.teams[0]? = some loadTeam ∧ Quiet demo loadTeam
    ∧ demo.field PFQPTR 63 1 = 0 :=
  ⟨Option.isSome_iff_exists.1 (by decide +kernel), by unfold Quiet; decide +kernel, by decide +kernel, rfl, by decide +kernel,
    by decide +kernel, quiet_demo, by decide +kernel⟩

/-! ### Memory -/

def okAnd {β : Type} (r : Except State (State × β)) (p : State → β → Bool) : Bool := match r with
  | .ok x => p x.1 x.2
  | .error _ => false

theorem ok_of {β : Type} {P : State → β → Prop} [∀ s g, Decidable (P s g)] {r : Except State (State × β)}
    (h : okAnd r (fun s g => decide (P s g)) = true) : ∃ s1 g, r = .ok (s1, g) ∧ P s1 g := by
  cases r with
  | error e => cases h
  | ok x => exact ⟨x.1, x.2, rfl, of_decide_eq_true h⟩

def isError {β : Type} (r : Except State (State × β)) : Bool := match r with
  | .ok _ => false
  | .error _ => true

theorem error_of {β : Type} {r : Except State (State × β)} (h : isError r = true) : ∃ w, r = .error w := by
  cases r with
  | error e => exact ⟨e, rfl⟩
  | ok x => cases h

/-- The one team of a state. -/
def theTeam (s : State) : Team := s.teams.headD loadTeam

/-- One lane at 0x1_1000, and lane 1 alone at 0x1_1004. -/
def mem1 : State := memory [1, 2, 3, 4] 1#1024 [(5, 0xAABB), (7, 0xFF)]
def mem2 : State := memory [] 2#1024 []

/-- The targets of the active lanes of a state's team. -/
abbrev tgtsOf (s : State) (n : Nat) (k : AccKind) (narrow : Bool) : Except State (State × List (Nat × Tgt)) :=
  targets s (theTeam s) ⟨n, k, false, narrow⟩ (laneAddresses s (theTeam s) noPrefixes 10 0 n) (fun _ => true) []

def loadForm (n : Nat) : Form := Form.of .m (.dst ((n + 3) / 4)) .pair .field
def storeForm (n : Nat) : Form := noWriteForm (.src ((n + 3) / 4)) .pair

/-- The state after a load was issued, and its load. -/
def issued (zm : Bool) : State := went (exec (.ldw ⟨none, some ⟨0xA4, 0xA4, zm, 0, false, false, false, false⟩⟩ 4 10 0) mem1)
def theLoad (s : State) : LoadReq := (theTeam s).loads.headD ⟨0, 0, false, false, false, 0, []⟩
def arrived (s : State) : WordTable × State := readWords s (theTeam s).coreNo ((theLoad s).reads.flatMap fun x => x.2.wordReqs)

theorem witness_LaneLoadsReadMemory : (∀ n ∈ [1, 2, 4, 8, 16], LaneRuns mem1 (theTeam mem1) noPrefixes (loadForm n) 4 10 0
      ∧ ∃ s1 g, tgtsOf mem1 n .read false = .ok (s1, g) ∧ s1.teams[s1.cur]?.isSome = true)
    ∧ LaneRuns mem2 (theTeam mem2) noPrefixes (loadForm 16) 4 10 0 ∧ (∃ w, tgtsOf mem2 16 .read false = .error w)
    ∧ (effMask (theTeam mem1) noPrefixes).1 ≠ 0#1024 ∧ (effMask (theTeam mem2) noPrefixes).1 ≠ 0#1024
    ∧ LaneRuns (State.put demo idle) idle noPrefixes (loadForm 4) 4 10 0 ∧ (effMask idle noPrefixes).1 = 0#1024
    ∧ ∀ zm, (issued zm).teams[0]? = some (theTeam (issued zm)) ∧ (theTeam (issued zm)).loads = [theLoad (issued zm)]
      ∧ (∀ x ∈ (theLoad (issued zm)).reads, x.1 < 32) ∧ (theLoad (issued zm)).reads ≠ []
      ∧ (arrived (issued zm)).2.teams[0]? = some (theTeam (issued zm)) ∧ (theLoad (issued zm)).zm = zm
      ∧ (∀ x ∈ (theLoad (issued zm)).reads, x.2.poisoned (arrived (issued zm)).1 = false)
      ∧ (theLoad (issued zm)).dst + ((theLoad (issued zm)).n + 3) / 4 ≤ (theTeam (issued zm)).regs.length
      ∧ (theTeam (issued zm)).regs.length ≤ 160 ∧ (∀ v ∈ (theTeam (issued zm)).regs, v.length = (theTeam (issued zm)).tl)
      ∧ (theLoad (issued zm)).uni = false ∧ ((theLoad (issued zm)).reads.find? fun x => x.1 == 0).isSome = true
      ∧ ∀ x ∈ (theLoad (issued zm)).reads, x.1 ≠ 1 := by
  have h : ∀ n ∈ [1, 2, 4, 8, 16], LaneRuns mem1 (theTeam mem1) noPrefixes (loadForm n) 4 10 0
      ∧ okAnd (tgtsOf mem1 n .read false) (fun s1 _ => decide (s1.teams[s1.cur]?.isSome = true)) = true := by decide +kernel
  exact ⟨fun n hn => ⟨(h n hn).1, ok_of (h n hn).2⟩, by decide +kernel, error_of (by decide +kernel), by decide +kernel,
    by decide +kernel, by decide +kernel, by decide +kernel, by decide +kernel⟩

/-- The same load, its team parked on it. -/
def awaiting : State := State.put (issued false) { theTeam (issued false) with park := some (.load [4]), active := false }

theorem witness_load_unparks : awaiting.teams[0]? = some (theTeam awaiting) ∧ (theTeam awaiting).park = some (.load [4])
    ∧ theLoad awaiting = theLoad (issued false) ∧ (arrived awaiting).2.teams[0]? = some (theTeam awaiting)
    ∧ (∀ x ∈ (theLoad awaiting).reads, x.1 < 32 ∧ x.2.poisoned (arrived awaiting).1 = false)
    ∧ (theLoad awaiting).dst + 1 ≤ (theTeam awaiting).regs.length ∧ (theTeam awaiting).regs.length ≤ 160
    ∧ ∀ v ∈ (theTeam awaiting).regs, v.length = (theTeam awaiting).tl := by decide +kernel

def word0 : Nat := 0x10001000 / 4

/-- The word of core 0's store, and the same registered to it. -/
def stored : State := went (exec (.stw noPrefixes 5 10 0) mem1)

/-- Neither the home L2 nor a core's L1 is full. -/
abbrev Room (s : State) (c sectors words : Nat) : Prop :=
  s.l2.length + s.l2held.length + sectors < l2Size ∧ (s.core c).l1.length + words < l1Lines

theorem witness_ReadsSeeTheL1OrTheHome : (isLocalWord word0 = true ∧ 1 < mem1.cores.length ∧ l1Word mem1 0 word0 = none
    ∧ homeDie (4 * word0) = coreDie 0 ∧ homeDie (4 * word0) = coreDie 1 ∧ homePoisoned mem1 (4 * word0 / 32) = false
    ∧ look word0 mem1.registrants = none ∧ (l1Word stored 0 word0).isSome = true ∧ Room mem1 0 0 0)
    ∧ (∃ s, s = { stored with registrants := [(word0, 0)] } ∧ l1Word s 1 word0 = none ∧ homePoisoned s (4 * word0 / 32) = false
      ∧ look word0 s.registrants = some 0 ∧ (l1Word s 0 word0).isSome = true ∧ Room s 1 0 0) :=
  ⟨by decide +kernel, _, rfl, by decide +kernel⟩

theorem witness_LaneStoresPerformTheirLanes : (∀ n ∈ [1, 2, 4, 8, 16], LaneRuns mem1 (theTeam mem1) noPrefixes (storeForm n) 4 10 0
      ∧ ∃ s1 g, tgtsOf mem1 n .write false = .ok (s1, g)
        ∧ (doStores s1 (g.map fun x => ⟨x.1, x.2, opnd s1 (theTeam mem1) .m (kindOfBytes n) 4 x.1, 2 ^ (8 * n) - 1⟩)).teams[0]?.isSome = true)
    ∧ LaneRuns mem2 (theTeam mem2) noPrefixes (storeForm 16) 4 10 0 ∧ (∃ w, tgtsOf mem2 16 .write false = .error w)
    ∧ LaneRuns (State.put demo idle) idle noPrefixes (storeForm 4) 4 10 0
    ∧ LaneRuns mem1 (theTeam mem1) (masked 0xA4 false) { storeForm 4 with c := .src 1 } 5 10 0
    ∧ (effMask (theTeam mem1) (masked 0xA4 false)).1 ≠ 0#1024
    ∧ ∃ s1 g, tgtsOf mem1 4 .write true = .ok (s1, g) ∧ g.map (·.1) = [0] := by
  have h : ∀ n ∈ [1, 2, 4, 8, 16], LaneRuns mem1 (theTeam mem1) noPrefixes (storeForm n) 4 10 0
      ∧ okAnd (tgtsOf mem1 n .write false) (fun s1 g => decide ((doStores s1 (g.map fun x => ⟨x.1, x.2, opnd s1 (theTeam mem1) .m
        (kindOfBytes n) 4 x.1, 2 ^ (8 * n) - 1⟩)).teams[0]?.isSome = true)) = true := by decide +kernel
  exact ⟨fun n hn => ⟨(h n hn).1, ok_of (h n hn).2⟩, by decide +kernel, error_of (by decide +kernel), by decide +kernel,
    by decide +kernel, by decide +kernel, ok_of (by decide +kernel)⟩

theorem no_seals {s : State} (h4 : s.dies.length = 4) (h : ∀ d, d < 4 → (s.die d).seals = []) : ∀ d, (s.die d).seals = [] := by
  intro d
  by_cases hd : d < 4
  · exact h d hd
  · unfold State.die
    rw [List.getElem?_eq_none (by omega)]
    rfl

def wordTgt : Tgt := ⟨.plain 0x10001000, 4, 0x11000, false, false, false⟩
def byteTgt : Tgt := ⟨.plain 0x10001000, 1, 0x11000, false, false, false⟩

/-- Two lanes that store to one word. -/
def laneStores : List LaneStore := [⟨0, wordTgt, 7, 2 ^ 32 - 1⟩, ⟨1, wordTgt, 8, 2 ^ 32 - 1⟩]

theorem witness_StoresReachTheL1OrTheHome : mem1.teams[mem1.cur]? = some (theTeam mem1) ∧ (theTeam mem1).loads = []
    ∧ (theTeam mem1).coreNo < mem1.cores.length ∧ (∀ d, (mem1.die d).seals = [])
    ∧ (∀ x ∈ laneStores, x.mask = 2 ^ (8 * x.tgt.n) - 1 ∧ ∃ pa, PlainWords x.tgt pa)
    ∧ laneStores = [⟨0, wordTgt, 7, 2 ^ 32 - 1⟩] ++ ⟨1, wordTgt, 8, 2 ^ 32 - 1⟩ :: []
    ∧ Room mem1 (theTeam mem1).coreNo 0 (4 * laneStores.length)
    ∧ wordTgt.loc = .plain 0x10001000 ∧ wordTgt.n = 4 ∧ wordTgt.uncached = false ∧ wordTgt.sync = false ∧ 0x10001000 % 4 = 0
    ∧ byteTgt.loc = .plain 0x10001000 ∧ byteTgt.n = 1 ∧ 0x10001000 < 2 ^ 46 ∧ byteTgt.uncached = false ∧ byteTgt.sync = false
    ∧ 0xFF < 2 ^ (8 * byteTgt.n) ∧ 0xFF ≠ 2 ^ 32 - 1 ∧ l1Word mem1 0 (0x10001000 / 4) = none
    ∧ look (0x10001000 / 4) mem1.registrants = none ∧ homePoisoned mem1 (0x10001000 / 32) = false := by
  refine ⟨by decide +kernel, by decide +kernel, by decide +kernel, no_seals (by decide +kernel) (by decide +kernel), ?_, rfl, by decide +kernel⟩
  intro x hx
  obtain rfl | rfl : x = _ ∨ x = _ := by simpa [laneStores] using hx
  all_goals exact ⟨rfl, 0x10001000, by unfold PlainWords; decide +kernel⟩

/-- A team of one lane about to access offset 0xFF8 of its unit. -/
def tile1 : State := tiled 0xFF8 [(5, 77)]
def tileQ : State := tiled 0xFE0 [(5, 77)]

theorem witness_TileStoreForms : (∀ x ∈ [(tile1, 4, 1), (tileQ, 16, 1)], LaneRuns x.1 (theTeam x.1) noPrefixes
        (Form.of .m (.dst (x.2.1 / 4)) (.src 1) .field) 4 10 0
      ∧ LaneRuns x.1 (theTeam x.1) noPrefixes (noWriteForm (.src (x.2.1 / 4)) (.src 1)) 4 10 0
      ∧ (effMask (theTeam x.1) noPrefixes).1 ≠ 0#1024
      ∧ tileFails x.1 (theTeam x.1) x.2.1 [(0, opnd x.1 (theTeam x.1) .m .i32 10 0 + x.2.2 * x.2.1)] = []
      ∧ (worst (tileFails x.1 (theTeam x.1) x.2.1 [(0, opnd x.1 (theTeam x.1) .m .i32 10 0 + 2 * x.2.1)])).isSome = true
      ∧ ∀ j, j < x.2.1 → (tileSpot (blockFor x.1 (theTeam x.1)) 0
          (opnd x.1 (theTeam x.1) .m .i32 10 0 + x.2.2 * x.2.1 + j)).1 < x.1.cores.length)
    ∧ (10 : Byte).toNat < 192
    ∧ LaneRuns (State.put demo idle) idle noPrefixes (Form.of .m (.dst 1) (.src 1) .field) 4 10 0 := by decide +kernel

theorem witness_UniformLoadsAndStores : (∀ n ∈ [4, 8], UniRuns mem1 (theTeam mem1) none (Form.of .m (.dst (n / 4)) .pair .field) 4 10 0
      ∧ UniRuns mem1 (theTeam mem1) none (noWriteForm (.src (n / 4)) .pair) 4 10 0)
    ∧ (∀ n ∈ [4, 8], ∀ k ∈ [AccKind.read, .write], ∃ s1 g, targets mem1 (theTeam mem1) ⟨n, k, false, false⟩
        [(0, pairAddress (opnd mem1 (theTeam mem1) .m .i64 10 0) 0 n)] (fun _ => true) [] = .ok (s1, g) ∧ s1.teams[s1.cur]?.isSome = true)
    ∧ UniRuns (State.put demo (holding [(10, every 0x11004)])) (holding [(10, every 0x11004)]) none (Form.of .m (.dst 2) .pair .field) 4 10 0
    ∧ ∃ w, targets (State.put demo (holding [(10, every 0x11004)])) (holding [(10, every 0x11004)]) ⟨8, .read, false, false⟩
        [(0, 0x11004)] (fun _ => true) [] = .error w := by
  have h : ∀ n ∈ [4, 8], ∀ k ∈ [AccKind.read, .write], okAnd (targets mem1 (theTeam mem1) ⟨n, k, false, false⟩
      [(0, pairAddress (opnd mem1 (theTeam mem1) .m .i64 10 0) 0 n)] (fun _ => true) [])
      (fun s1 _ => decide (s1.teams[s1.cur]?.isSome = true)) = true := by decide +kernel
  exact ⟨by decide +kernel, fun n hn k hk => ok_of (h n hn k hk), by decide +kernel, error_of (by decide +kernel)⟩

/-! ### Ordered accesses, atomics and barriers -/

/-- A releasing store with its REGION. -/
def stxState : State := thenRegion 2 1#1024 [] [(5, 9)]
def stxEnd : State := pairEnd stxState (theTeam stxState) 2

/-- The state with the whole line of the loaded word in the L1 of core 0. -/
def lined : State := stored.modCore 0 fun k => { k with l1 := (List.range 32).map fun j => (word0 + j, ⟨7#32, false, false, false, false, none⟩) }

theorem witness_OrderedAccessesAndAcquires : (0 < demo.cores.length ∧ coreDie 0 < demo.dies.length)
    ∧ inCore .core = true ∧ inCore .quad = false ∧ inCore .pkg = false
    ∧ (∀ e ∈ (lined.core 0).l1, e.2.pend = false)
    ∧ LaneRuns lined (theTeam lined) noPrefixes (Form.of .m (.dst 1) .pair .field) 4 10 0 ∧ (theTeam lined).loads = []
    ∧ (effMask (theTeam lined) noPrefixes).1 ≠ 0#1024
    ∧ (∃ s1 g, tgtsOf lined 4 .read false = .ok (s1, g) ∧ s1.teams[s1.cur]? = some (theTeam lined)
      ∧ ∀ y ∈ g, ∃ pa ∈ [0x10001000], PlainWords y.2 pa ∧ y.2.n = 4
        ∧ ∀ j, j < 32 → (l1Word s1 (theTeam lined).coreNo (pa / 128 * 32 + j)).isSome = true)
    ∧ LaneCloses stxState (theTeam stxState) noPrefixes (storeForm 4) 5 10 0 2 0#160 stxEnd
    ∧ (effMask (theTeam stxState) noPrefixes).1 ≠ 0#1024
    ∧ (∃ s1 g, tgtsOf stxState 4 .write false = .ok (s1, g)
      ∧ (doStores s1 (g.map fun x => ⟨x.1, x.2, opnd s1 (theTeam stxState) .m .i32 5 x.1, 2 ^ 32 - 1⟩)).teams[0]?.isSome = true)
    ∧ ∃ s1 g, targets stxEnd (theTeam stxState) ⟨4, .write, false, false⟩ (laneAddresses stxEnd (theTeam stxState) noPrefixes 10 0 4)
        (fun _ => true) [] = .ok (s1, g) ∧ (∀ e, (s1.die e).seals = []) ∧ Quiet s1 (theTeam stxState) ∧ s1.cur = stxState.cur
      ∧ s1.teams[s1.cur]? = some (theTeam stxState) ∧ (theTeam stxState).coreNo < s1.cores.length
      ∧ (s1.core (theTeam stxState).coreNo).l1.length + 4 * g.length ≤ l1Lines
      ∧ ∀ y ∈ g, ∃ pa ∈ [0x10001000], PlainWords y.2 pa ∧ y.2.n = 4 := by
  refine ⟨by decide +kernel, rfl, rfl, rfl, by decide +kernel, by decide +kernel, by decide +kernel, by decide +kernel, ?_,
    laneCloses_of (by decide +kernel) (by decide +kernel), by decide +kernel, ok_of (by decide +kernel), ?_⟩
  · obtain ⟨s1, g, h, h1, h2⟩ := ok_of (r := tgtsOf lined 4 .read false) (P := fun s1 g => s1.teams[s1.cur]? = some (theTeam lined)
      ∧ ∀ y ∈ g, (y.2.loc = .plain 0x10001000 ∧ 0x10001000 + y.2.n ≤ 2 ^ 46 ∧ 0x10001000 % y.2.n = 0 ∧ (y.2.n = 4 ∨ y.2.n = 8 ∨ y.2.n = 16)
        ∧ y.2.uncached = false ∧ y.2.sync = false) ∧ y.2.n = 4
        ∧ ∀ j, j < 32 → (l1Word s1 (theTeam lined).coreNo (0x10001000 / 128 * 32 + j)).isSome = true) (by decide +kernel)
    exact ⟨s1, g, h, h1, fun y hy => ⟨_, List.mem_singleton_self _, (h2 y hy).1, (h2 y hy).2.1, (h2 y hy).2.2⟩⟩
  · obtain ⟨s1, g, h, h1, h2, h3, h4⟩ := ok_of (r := targets stxEnd (theTeam stxState) ⟨4, .write, false, false⟩
      (laneAddresses stxEnd (theTeam stxState) noPrefixes 10 0 4) (fun _ => true) []) (P := fun s1 g => (s1.dies.length = 4
        ∧ ∀ d, d < 4 → (s1.die d).seals = []) ∧ ((theTeam stxState).loads = [] ∧ (theTeam stxState).pending = none
          ∧ ∀ o ∈ (s1.core (theTeam stxState).coreNo).matQ, o.team ≠ (theTeam stxState).key)
        ∧ (s1.cur = stxState.cur ∧ s1.teams[s1.cur]? = some (theTeam stxState) ∧ (theTeam stxState).coreNo < s1.cores.length
          ∧ (s1.core (theTeam stxState).coreNo).l1.length + 4 * g.length ≤ l1Lines)
      ∧ ∀ y ∈ g, (y.2.loc = .plain 0x10001000 ∧ 0x10001000 + y.2.n ≤ 2 ^ 46 ∧ 0x10001000 % y.2.n = 0 ∧ (y.2.n = 4 ∨ y.2.n = 8 ∨ y.2.n = 16)
        ∧ y.2.uncached = false ∧ y.2.sync = false) ∧ y.2.n = 4) (by decide +kernel)
    exact ⟨s1, g, h, no_seals h1.1 h1.2, h2, h3.1, h3.2.1, h3.2.2.1, h3.2.2.2, fun y hy => ⟨_, List.mem_singleton_self _, (h4 y hy).1, (h4 y hy).2⟩⟩

theorem witness_AtomicOperationsComputeTheNewValue : ((4 : Nat) = 4 ∨ (4 : Nat) = 8)
    ∧ [0x7FC00000, 0x3F800000].map (fun x => (Fmt.fp32.read x).isNan) = [true, false]
    ∧ [0x7FF8 * 2 ^ 48, 0x3FF0 * 2 ^ 48].map (fun x => (Fmt.fp64.read x).isNan) = [true, false]
    ∧ ∃ a q, Fmt.fp32.read 0x3F800000 = .fin a q := ⟨Or.inl rfl, by decide +kernel, by decide +kernel, _, _, rfl⟩

/-- Lane 0 about to add 2 to the 40 at 0x1_1000. -/
def adder : State := thenRegion 2 1#1024 [40] [(5, 2)]
def adderEnd : State := pairEnd adder (theTeam adder) 2
def addExt : AtomExt := ⟨0, true, .add, false, .rlx, .die⟩

theorem witness_AtomicsReadAndReplaceAtTheHome : ∀ uni : Bool, ∃ s1 g, targets adderEnd (theTeam adder) ⟨4, .atomic, false, false⟩
      (if uni then [(0, opnd adderEnd (theTeam adder) .m .i64 10 0)]
        else (lanesOf (theTeam adder) (effMask (theTeam adder) noPrefixes).1).map fun l => (l, opnd adderEnd (theTeam adder) .m .i64 10 l))
      (fun _ => true) [] = .ok (s1, [(0, g)])
    ∧ PlainWords g 0x10001000 ∧ g.n = 4 ∧ (∀ j, 4 * j < 4 → OnlyAtHome s1 (theTeam adder).coreNo (0x10001000 / 4 + j))
    ∧ (∀ e, (s1.die e).seals = []) ∧ s1.l2.length + s1.l2held.length < l2Size ∧ s1.cur = adder.cur
    ∧ s1.teams[s1.cur]? = some (theTeam adder) ∧ (theTeam adder).loads = [] ∧ addExt.ord = .rlx ∧ inCore addExt.sc = false ∧ (pfxOf noPrefixes).kc = false
    ∧ LaneCloses adder (theTeam adder) noPrefixes (atomForm addExt 1) 4 10 5 2 0#160 adderEnd
    ∧ UniCloses adder (theTeam adder) (atomForm addExt 1) 4 10 5 2 0#160 adderEnd
    ∧ (effMask (theTeam adder) noPrefixes).1 = 1#1024 <<< 0 ∧ (effMask (theTeam adder) noPrefixes).1 ≠ 0#1024 ∧ 0 < (theTeam adder).tl := by
  intro uni
  obtain ⟨s1, g, h, h1, h2, h3, h4, h5⟩ := ok_of (r := targets adderEnd (theTeam adder) ⟨4, .atomic, false, false⟩
      (if uni then [(0, opnd adderEnd (theTeam adder) .m .i64 10 0)]
        else (lanesOf (theTeam adder) (effMask (theTeam adder) noPrefixes).1).map fun l => (l, opnd adderEnd (theTeam adder) .m .i64 10 l))
      (fun _ => true) []) (P := fun s1 g => (g.map (·.1) = [0])
      ∧ (∀ y ∈ g, (y.2.loc = .plain 0x10001000 ∧ 0x10001000 + y.2.n ≤ 2 ^ 46 ∧ 0x10001000 % y.2.n = 0 ∧ (y.2.n = 4 ∨ y.2.n = 8 ∨ y.2.n = 16)
        ∧ y.2.uncached = false ∧ y.2.sync = false) ∧ y.2.n = 4)
      ∧ (l1Word s1 (theTeam adder).coreNo (0x10001000 / 4 + 0) = none ∧ look (0x10001000 / 4 + 0) s1.registrants = none
        ∧ homePoisoned s1 ((0x10001000 / 4 + 0) / 8) = false)
      ∧ (s1.dies.length = 4 ∧ ∀ d, d < 4 → (s1.die d).seals = []) ∧ s1.l2.length + s1.l2held.length < l2Size ∧ s1.cur = adder.cur
      ∧ s1.teams[s1.cur]? = some (theTeam adder))
    (by cases uni <;> decide +kernel)
  match g, h1 with
  | [(l, g)], h1 =>
    obtain rfl : l = 0 := by simpa using h1
    refine ⟨s1, g, h, (h2 _ (List.mem_singleton_self _)).1, (h2 _ (List.mem_singleton_self _)).2, fun j hj => ?_, no_seals h4.1 h4.2,
      h5.1, h5.2.1, h5.2.2, by decide +kernel, rfl, rfl, rfl, laneCloses_of (by decide +kernel) (by decide +kernel),
      closes_of (by decide +kernel) (by decide +kernel), by decide +kernel, by decide +kernel, by decide +kernel⟩
    obtain rfl : j = 0 := by omega
    exact h3

def tileAdder (addr : Word) : State :=
  State.put { coded [0, 0, 0xB4000000, 0, 0, 0, 0, 0] with blocks := [{ loadBlock with units := [(0, .held 0)] }] }
    { holding [(5, every 3), (10, every addr)] with mask := 1#1024, tileRun := some (0, 1) }

def tileForm : Form := { atomForm ⟨0, true, .add, false, .rlx, .team⟩ 1 with a := .src 1 }

theorem witness_TileAtomicsReadAndReplace : ∀ a : Word, a = 8 ∨ a = 0x1000 → ∃ s1,
    LaneCloses (tileAdder a) (theTeam (tileAdder a)) noPrefixes { tileForm with more := tileForm.more ++ [] } 4 10 5 2 0#160 s1
    ∧ (effMask (theTeam (tileAdder a)) noPrefixes).1 = 1#1024 <<< 0 ∧ 0 < (theTeam (tileAdder a)).tl ∧ (10 : Byte).toNat < 192
    ∧ (blockFor s1 (theTeam (tileAdder a))).cores.all (fun c => decide (c < s1.cores.length)) = true ∧ 0 < s1.cores.length
    ∧ (tileFails s1 (theTeam (tileAdder a)) 4 [(0, opnd s1 (theTeam (tileAdder a)) .m .i32 10 0)] = [] ↔ a = 8)
    ∧ ((worst (tileFails s1 (theTeam (tileAdder a)) 4 [(0, opnd s1 (theTeam (tileAdder a)) .m .i32 10 0)])).isSome = true ↔ a ≠ 8) := by
  rintro a (rfl | rfl)
  · exact ⟨_, laneCloses_of (by decide +kernel) (by decide +kernel), by decide +kernel⟩
  · exact ⟨_, laneCloses_of (by decide +kernel) (by decide +kernel), by decide +kernel⟩

/-- Two lanes at one word of the tile store. -/
def addersEnd : State := pairEnd tileAdders (theTeam tileAdders) 2

theorem witness_tile_atomics_of_two_lanes : LaneCloses tileAdders (theTeam tileAdders) noPrefixes { tileForm with more := tileForm.more ++ [] }
      4 10 5 2 0#160 addersEnd
    ∧ ((List.range (theTeam tileAdders).tl).filter fun l => (effMask (theTeam tileAdders) noPrefixes).1.getLsbD l) = [0, 1]
    ∧ tileFails addersEnd (theTeam tileAdders) 4 [(0, 8), (1, 8)] = [] ∧ opnd addersEnd (theTeam tileAdders) .m .i32 10 1 = 8
    ∧ (∀ c ∈ (blockFor addersEnd (theTeam tileAdders)).cores, c < addersEnd.cores.length)
    ∧ (blockFor addersEnd (theTeam tileAdders)).cores.Nodup
    ∧ (blockFor addersEnd (theTeam tileAdders)).cfg.coresN ≤ (blockFor addersEnd (theTeam tileAdders)).cores.length :=
  ⟨laneCloses_of (by decide +kernel) (by decide +kernel), by decide +kernel⟩

theorem no_words {s : State} (h : ∀ k ∈ s.cores, k.l1 = []) : ∀ c, ∀ e ∈ (s.core c).l1, e.2.dirty = false ∧ e.2.pend = false := by
  intro c e he
  have hc : (s.core c).l1 = [] := by
    unfold State.core
    rcases h' : s.cores[c]? with _ | k
    · rfl
    · exact h k (List.mem_of_getElem? h')
  rw [hc] at he
  cases he

theorem witness_FencesReleaseAndAcquire : UniRuns demo loadTeam none { uniForm .field with pipe := .m } 0 0 0 ∧ Quiet demo loadTeam
    ∧ loadTeam.coreNo < demo.cores.length ∧ inCore .core = true ∧ inCore .die = false
    ∧ (∀ c, ∀ e ∈ (demo.core c).l1, e.2.dirty = false ∧ e.2.pend = false) :=
  ⟨by decide +kernel, quiet_demo, by decide +kernel, rfl, rfl, no_words (by decide +kernel)⟩

/-- A team about to arrive, its block's barriers as given. -/
def arriving (x : Barrier) (l : List (Nat × Word)) : State :=
  let s := thenRegion 2 1#1024 [] l
  { s with blocks := s.blocks.map fun b => { b with bars := List.replicate 16 x } }

def arrivedAt (x : Barrier) (l : List (Nat × Word)) : State := pairEnd (arriving x l) (theTeam (arriving x l)) 2

/-- Members, arrivals and pending bytes: an arrival too many, one that completes the phase, one that a transfer holds, one of two. -/
def phases : List Barrier := [⟨1, 1, 0, 0, none⟩, ⟨1, 0, 0, 0, none⟩, ⟨1, 0, 16, 0, none⟩, ⟨2, 0, 0, 0, some 3⟩]

/-- An entry of BARX with 1 or 2 of its 2 or 3 arrivals. -/
def barxed (es : List BarxEntry) (l : List (Nat × Word)) : State := { thenRegion 2 1#1024 [] l with barx := es }
def barxEnd (es : List BarxEntry) (l : List (Nat × Word)) : State := pairEnd (barxed es l) (theTeam (barxed es l)) 2
def barxForm : Form := Form.of .m .field (.src 1) (.src 1)

/-- Entries with counts and operands: a count of 0 and one of 65,537, another count than the entry's, a full table, a first, a
middle and a last arrival. -/
def joins : List (List BarxEntry × List (Nat × Word)) := [([], [(4, 0), (5, 9)]), ([], [(4, 65537), (5, 9)]),
  ([⟨.die, 0, 9, 3, 1, 0⟩], [(4, 2), (5, 9)]), ((List.range 64).map fun i => ⟨.die, 0, 100 + i, 3, 1, 0⟩, [(4, 2), (5, 9)]),
  ([], [(4, 65536), (5, 9)]), ([⟨.die, 0, 9, 3, 1, 0⟩], [(4, 3), (5, 9)]), ([⟨.die, 0, 9, 2, 1, 0⟩], [(4, 2), (5, 9)]),
  ([⟨.die, 0, 9, 3, 1, 0⟩], [(4, 0), (5, 9)])]

theorem witness_BarriersCountArrivals : (∀ x ∈ phases, UniCloses (arriving x []) (theTeam (arriving x [])) { uniForm .field with pipe := .m }
        0 0 0 2 0#160 (arrivedAt x []) ∧ Quiet (arrivedAt x []) (theTeam (arriving x [])) ∧ (theTeam (arriving x [])).park = none
      ∧ ((arrivedAt x []).blockOf (theTeam (arriving x [])).key).map (fun b => b.bars[3]?) = some (some x))
    ∧ phases.map (fun x => (decide (x.m < x.arrivals + 1), decide (x.arrivals + 1 = x.m), x.pend)) = [(true, false, 0), (false, true, 0),
      (false, true, 16), (false, false, 0)]
    ∧ (∀ v : Nat, v = 0 ∨ v = 1 ∨ v = 2 → ∀ x ∈ phases, UniCloses (arriving x [(5, BitVec.ofNat 32 v)]) (theTeam (arriving x [(5, BitVec.ofNat 32 v)]))
      (Form.of .m .field (.src 1) .field) 0 5 0 2 0#160 (arrivedAt x [(5, BitVec.ofNat 32 v)]) ∧ (theTeam (arriving x [(5, BitVec.ofNat 32 v)])).cfg.nt = 1)
    ∧ (∀ x ∈ joins, UniCloses (barxed x.1 x.2) (theTeam (barxed x.1 x.2)) barxForm 0 4 5 2 0#160 (barxEnd x.1 x.2)
      ∧ Quiet (barxEnd x.1 x.2) (theTeam (barxed x.1 x.2)) ∧ (theTeam (barxed x.1 x.2)).park = none)
    ∧ joins.map (fun x => ((barxFind (barxEnd x.1 x.2) .die 0 9).map fun e => (e.count, e.arrivals), decide (barxOpen (barxEnd x.1 x.2) .die 0 < 64)))
      = [(none, true), (none, true), (some (3, 1), true), (none, false), (none, true), (some (3, 1), true), (some (2, 1), true),
        (some (3, 1), true)] := by
  have h1 : ∀ x ∈ phases, UniRuns (arriving x []) (theTeam (arriving x [])) none { uniForm .field with pipe := .m } 0 0 0
      ∧ PairFacts (arriving x []) (theTeam (arriving x [])) 2 0#160
      ∧ ((theTeam (arriving x [])).loads = [] ∧ (theTeam (arriving x [])).pending = none
        ∧ ∀ o ∈ ((arrivedAt x []).core (theTeam (arriving x [])).coreNo).matQ, o.team ≠ (theTeam (arriving x [])).key)
      ∧ (theTeam (arriving x [])).park = none
      ∧ ((arrivedAt x []).blockOf (theTeam (arriving x [])).key).map (fun b => b.bars[3]?) = some (some x) := by decide +kernel
  have h2 : ∀ v ∈ [0, 1, 2], ∀ x ∈ phases, UniRuns (arriving x [(5, BitVec.ofNat 32 v)]) (theTeam (arriving x [(5, BitVec.ofNat 32 v)])) none
      (Form.of .m .field (.src 1) .field) 0 5 0
      ∧ PairFacts (arriving x [(5, BitVec.ofNat 32 v)]) (theTeam (arriving x [(5, BitVec.ofNat 32 v)])) 2 0#160
      ∧ (theTeam (arriving x [(5, BitVec.ofNat 32 v)])).cfg.nt = 1 := by decide +kernel
  have h3 : ∀ x ∈ joins, UniRuns (barxed x.1 x.2) (theTeam (barxed x.1 x.2)) none barxForm 0 4 5
      ∧ PairFacts (barxed x.1 x.2) (theTeam (barxed x.1 x.2)) 2 0#160
      ∧ ((theTeam (barxed x.1 x.2)).loads = [] ∧ (theTeam (barxed x.1 x.2)).pending = none
        ∧ ∀ o ∈ ((barxEnd x.1 x.2).core (theTeam (barxed x.1 x.2)).coreNo).matQ, o.team ≠ (theTeam (barxed x.1 x.2)).key)
      ∧ (theTeam (barxed x.1 x.2)).park = none := by decide +kernel
  refine ⟨fun x hx => ⟨closes_of (h1 x hx).1 (h1 x hx).2.1, (h1 x hx).2.2.1, (h1 x hx).2.2.2⟩, by decide +kernel, ?_,
    fun x hx => ⟨closes_of (h3 x hx).1 (h3 x hx).2.1, (h3 x hx).2.2.1, (h3 x hx).2.2.2⟩, by decide +kernel⟩
  intro v hv x hx
  have h := h2 v (by simpa using hv) x hx
  exact ⟨closes_of h.1 h.2.1, h.2.2⟩

/-- The last arrival at a barrier where another team of the block waits, or a team that is saved with its block. -/
def waiter (p : Park) : Team := { loadTeam with key := { loadTeam.key with num := 1 }, park := some p, active := false }
def releasing (s : State) (p : Park) : State :=
  { s with teams := s.teams ++ [waiter p], saved := [⟨{ loadBlock with idx := 1 }, [{ waiter p with key := ⟨0, 0, 1, 0⟩ }], [], [], 0, []⟩] }
def releasingBar : State := releasing (arriving ⟨2, 1, 0, 0, none⟩ []) (.bar 3)
def releasingBarx : State := releasing (barxed [⟨.die, 0, 9, 2, 1, 0⟩] [(4, 2), (5, 9)]) (.barx .die 0 9)

theorem witness_waiters_resume : UniCloses releasingBar (theTeam releasingBar) { uniForm .field with pipe := .m } 0 0 0 2 0#160
      (pairEnd releasingBar (theTeam releasingBar) 2)
    ∧ UniCloses releasingBarx (theTeam releasingBarx) barxForm 0 4 5 2 0#160 (pairEnd releasingBarx (theTeam releasingBarx) 2)
    ∧ (∀ x ∈ [(releasingBar, Park.bar 3), (releasingBarx, .barx .die 0 9)], ((pairEnd x.1 (theTeam x.1) 2).teams.map (·.key)).Nodup
      ∧ waiter x.2 ∈ (pairEnd x.1 (theTeam x.1) 2).teams ∧ (waiter x.2).park = some x.2 ∧ (waiter x.2).key ≠ (theTeam x.1).key
      ∧ (theTeam x.1).park = none ∧ (pairEnd x.1 (theTeam x.1) 2).saved.length = 1)
    ∧ ((pairEnd releasingBar (theTeam releasingBar) 2).blockOf (theTeam releasingBar).key).map (fun b => b.bars[3]?)
      = some (some ⟨2, 1, 0, 0, none⟩)
    ∧ barxFind (pairEnd releasingBarx (theTeam releasingBarx) 2) .die (theTeam releasingBarx).coreNo 9 = some ⟨.die, 0, 9, 2, 1, 0⟩ :=
  ⟨closes_of (by decide +kernel) (by decide +kernel), closes_of (by decide +kernel) (by decide +kernel), by decide +kernel,
    by decide +kernel, by decide +kernel⟩

def promoted : State := syncPage (memory [0x1234] 1#1024 [])

theorem witness_PromotionsAndSeals : UniRuns promoted (theTeam promoted) none (Form.of .m (.dst 1) .pair .field) 4 10 0
    ∧ (theTeam promoted).loads = []
    ∧ (∃ w, targets promoted (theTeam promoted) ⟨4, .read, true, false⟩ [(0, 0x11008)] (fun _ => true) (promoteAlign 0x11008 4) = .error w)
    ∧ (∃ s1 l, targets promoted (theTeam promoted) ⟨4, .read, true, false⟩ [(0, opnd promoted (theTeam promoted) .m .i64 10 0)]
        (fun _ => true) (promoteAlign (opnd promoted (theTeam promoted) .m .i64 10 0) 4) = .ok (s1, l) ∧ l.length = 1
      ∧ s1.cur = promoted.cur ∧ s1.teams[s1.cur]? = some (theTeam promoted)
      ∧ (∀ g ∈ l, g.1 = 0 ∧ g.2.loc = .plain 0x10001000 ∧ g.2.n = 4 ∧ g.2.sync = true ∧ g.2.uncached = false)
      ∧ 0x10001000 % 128 + 4 ≤ 8 ∧ (theTeam promoted).regs.length ≤ 160 ∧ s1.l2.length + s1.l2held.length + 4 ≤ l2Size
      ∧ (∀ e ∈ (s1.core (theTeam promoted).coreNo).l1, e.2.pend = false)
      ∧ ∀ j, j < 32 → l1Word s1 (theTeam promoted).coreNo (0x10001000 / 128 * 32 + j) = none
        ∧ look (0x10001000 / 128 * 32 + j) s1.registrants = none ∧ homePoisoned s1 ((0x10001000 / 128 * 32 + j) / 8) = false)
    ∧ UniCloses sealer (theTeam sealer) (Form.of .m (.dst 1) .pair (.src 1)) 4 10 5 1 0#160 (pairEnd sealer (theTeam sealer) 1)
    ∧ (∃ w, sealCheck (pairEnd sealer (theTeam sealer) 1) (theTeam sealer) 0x10004 1 = .error w)
    ∧ ∀ es ∈ [[], [(⟨0x1000, 1, 1⟩ : SealEntry)]], ∃ s1 pa,
      sealCheck ((pairEnd sealer (theTeam sealer) 1).modDie 0 fun k => { k with seals := es }) (theTeam sealer) 0x10000 1 = .ok (s1, pa)
      ∧ s1.cur = sealer.cur ∧ s1.teams[s1.cur]? = some (theTeam sealer) ∧ (theTeam sealer).pending = none
      ∧ isRemoteWord (pa / 4) = false ∧ homeDie pa < s1.dies.length ∧ (s1.die (homeDie pa)).seals = es ∧ (theTeam sealer).regs.length ≤ 160 := by
  refine ⟨by decide +kernel, by decide +kernel, error_of (by decide +kernel), ok_of (by decide +kernel),
    closes_of (by decide +kernel) (by decide +kernel), error_of (by decide +kernel), fun es hes => ?_⟩
  have h : ∀ es ∈ [[], [(⟨0x1000, 1, 1⟩ : SealEntry)]], okAnd (sealCheck ((pairEnd sealer
      (theTeam sealer) 1).modDie 0 fun k => { k with seals := es }) (theTeam sealer) 0x10000 1) (fun s1 pa => decide (
      s1.cur = sealer.cur ∧ s1.teams[s1.cur]? = some (theTeam sealer) ∧ (theTeam sealer).pending = none
      ∧ isRemoteWord (pa / 4) = false ∧ homeDie pa < s1.dies.length ∧ (s1.die (homeDie pa)).seals = es
      ∧ (theTeam sealer).regs.length ≤ 160)) = true := by decide +kernel
  exact ok_of (h es hes)

def sigState : State := syncPage (memory (List.replicate 32 0xFFFFFFFF) 1#1024 [])
def sigRes : Resolved × State := resolve sigState (theTeam sigState).who ⟨8, .write, true, false⟩ [(0, opnd sigState (theTeam sigState) .u .i64 10 0)]

theorem witness_VinvDropsViewsAndSigclrClearsSlots : demo.teams[demo.cur]? = some loadTeam ∧ loadTeam.repIdx = 0
    ∧ loadTeam.cfg.viewadm = false ∧ loadTeam.priv = false
    ∧ UniRuns viewer (theTeam viewer) none { Form.of .m .field (.src 1) .field with priv := !(theTeam viewer).cfg.viewadm } 0 3 0
    ∧ UniRuns viewer (theTeam viewer) none { Form.of .m .field .field .field with priv := !(theTeam viewer).cfg.viewadm } 0 0 0
    ∧ (∀ e ∈ (viewer.core (theTeam viewer).coreNo).l1, e.2.dirty = false) := by decide +kernel

theorem sig_seals : sigRes.2.dies.length = 4 ∧ ∀ d, d < 4 → (sigRes.2.die d).seals = [] := by decide +kernel

theorem witness_sigclr_runs : UniRuns sigState (theTeam sigState) none (Form.of .u .field .pair .field) 0 10 0
    ∧ Quiet sigRes.2 (theTeam sigState) ∧ ∀ e, (sigRes.2.die e).seals = [] :=
  ⟨by decide +kernel, by unfold Quiet; decide +kernel, no_seals sig_seals.1 sig_seals.2⟩

theorem witness_sigclr_resolves : sigRes.1.fail = none ∧ sigRes.1.poison = false ∧ sigRes.1.tgts.length = 1
    ∧ (∀ g ∈ sigRes.1.tgts, g.1 = 0 ∧ g.2.loc = .plain 0x10001000 ∧ g.2.sync = true)
    ∧ opnd sigState (theTeam sigState) .u .i64 10 0 % 128 = 0 ∧ hasWaited sigState sigRes.2 (theTeam sigState).coreNo = false := by
  decide +kernel

theorem witness_sigclr_finds_the_home : sigRes.2.cur = sigState.cur ∧ sigRes.2.teams[sigRes.2.cur]? = some (theTeam sigState)
    ∧ (sigRes.2.core (theTeam sigState).coreNo).l1 = [] ∧ sigRes.2.l2.length + sigRes.2.l2held.length + 64 ≤ l2Size
    ∧ ∀ j, j < 32 → look (0x10001000 / 4 + j) sigRes.2.registrants = none ∧ homePoisoned sigRes.2 ((0x10001000 / 4 + j) / 8) = false := by
  decide +kernel

/-! ### Asynchronous operations, units and fibres -/

def copyState (l : List (Nat × Word)) : State := thenRegion 3 1#1024 [7, 8, 9, 10] l
def copyEnd (l : List (Nat × Word)) : State := pairEnd (copyState l) (theTeam (copyState l)) 3
def cpy0 : CopyExt := ⟨0, 0, 0, false, false, 0, 0, 0, 0⟩
def scanOf (l : List (Nat × Word)) (rows : Nat) : CopyScan := copyScan (copyEnd l) (theTeam (copyState l)) cpy0
  (copySrc (copyEnd l) (theTeam (copyState l)) cpy0 ⟨20, 10, 0, 164⟩) (copyDst (copyEnd l) (theTeam (copyState l)) cpy0 ⟨20, 10, 0, 164⟩)
  rows rows
def busy (s : State) : State := s.modCore 0 fun k => { k with copyQ := List.replicate 64 ⟨9, ⟨9, 0, 0, 0⟩, .actld 0 (.tile 0 0), none, [], false, OpViews.none, []⟩ }

/-- What PostsFrom asks, for two states. -/
def mayPost (s0 s1 : State) (t : Team) (fails : List Fail) : Bool :=
  fails.isEmpty && !hasWaited s0 s1 t.coreNo && decide (s1.cur = s0.cur) && decide (s1.teams[s0.cur]? = some t) && decide (t.coreNo < s1.cores.length)

theorem posts_of {s0 s1 : State} {t : Team} {fails : List Fail} (h : mayPost s0 s1 t fails = true) : PostsFrom s0 s1 t fails := by
  unfold mayPost at h
  simp only [Bool.and_eq_true, Bool.not_eq_true', decide_eq_true_eq, List.isEmpty_iff] at h
  exact ⟨h.1.1.1.1, h.1.1.1.2, h.1.1.2, h.1.2, h.2⟩

def gatherS : State := afterWait gathering
def gatherEnd : State := pairEnd gatherS (theTeam gatherS) 3
def gather0 : GatherExt := ⟨false, false, false, false, 0, 1, 0, 0, 2⟩
def gatherOf : GatherScan := gatherScan gatherEnd (theTeam gatherS) gather0 0x11100 0x11000 0x11020
def fillEnd : State := pairEnd (closer []) (theTeam (closer [])) 1
def fillScan : Scan × State := scanRun (theTeam (closer [])) .read 0x11000 2048 (Scan.start, fillEnd)

theorem witness_CopiesArePostedAndMoveBytes : cpy0.cpyOk = true ∧ cpy0.cpysOk = true ∧ gather0.ok = true
    ∧ (∀ l ∈ [[(20, 0x11100)], [(20, (0x11104 : Word))]], ∀ b ∈ [0xE0, 0xE1], UniCloses (copyState l) (theTeam (copyState l)) (copyForm true) 20 10 b 3
        0#160 (copyEnd l))
    ∧ opnd (copyEnd []) (theTeam (copyState [])) .m .i32 0xE0 0 = 0 ∧ opnd (copyEnd []) (theTeam (copyState [])) .m .i32 0xE1 0 = 1
    ∧ (∃ f, issueFault (scanOf [(20, 0x11104)] 1).fails = some f) ∧ issueFault (scanOf [(20, 0x11100)] 0).fails = none
    ∧ PostsFrom (copyEnd [(20, 0x11100)]) (scanOf [(20, 0x11100)] 1).after (theTeam (copyState [(20, 0x11100)])) (scanOf [(20, 0x11100)] 1).fails
    ∧ (scanOf [(20, 0x11100)] 1).src.poison = false ∧ (scanOf [(20, 0x11100)] 1).dst.poison = false
    ∧ copyQueueFull (scanOf [(20, 0x11100)] 1).after (theTeam (copyState [(20, 0x11100)])) = false
    ∧ (busy (copyState [])).teams[0]? = some (theTeam (copyState []))
    ∧ UniRuns (busy (copyState [])) (theTeam (copyState [])) none (copyForm true) 20 10 0xE1 ∧ copyQueueFull (busy (copyEnd [])) (theTeam (copyState [])) = true
    ∧ UniCloses gatherS (theTeam gatherS) { Form.of .m .pair .pair .pair with writes := false } 20 10 22 3 0#160 gatherEnd
    ∧ [20, 10, 22].map (fun c => opnd gatherEnd (theTeam gatherS) .m .i64 c 0) = [0x11100, 0x11000, 0x11020]
    ∧ PostsFrom gatherEnd gatherOf.after (theTeam gatherS) gatherOf.fails ∧ gatherOf.poison = false
    ∧ copyQueueFull gatherOf.after (theTeam gatherS) = false
    ∧ gatherCause gather0.gchk 0x11100 16 2 gatherOf.idx gatherOf.met = Met.start OpViews.none
    ∧ UniCloses (closer []) (theTeam (closer [])) (noWriteForm .field .pair) 0 10 0 1 0#160 fillEnd
    ∧ opnd fillEnd (theTeam (closer [])) .m .i64 10 0 = 0x11000
    ∧ PostsFrom fillEnd fillScan.2 (theTeam (closer [])) fillScan.1.fails ∧ fillScan.1.poison = false
    ∧ (copyQueueFull fillScan.2 (theTeam (closer [])) = false ∧ copyQueueFull (busy fillScan.2) (theTeam (closer [])) = true
      ∧ (scanRun (theTeam (closer [])) .read 0x11004 2048 (Scan.start, fillEnd)).1.fails = [])
    ∧ loadBlock.cores ≠ [] ∧ (∀ e ∈ loadBlock.cores, e < demo.cores.length) ∧ tileOff (256 + 0 * 0) + 16 ≤ 2 ^ 21 := by
  have h : ∀ l ∈ [[(20, 0x11100)], [(20, (0x11104 : Word))]], ∀ b ∈ [0xE0, 0xE1], UniRuns (copyState l) (theTeam (copyState l)) none (copyForm true) 20 10 b
      ∧ PairFacts (copyState l) (theTeam (copyState l)) 3 0#160 := by decide +kernel
  exact ⟨by decide +kernel, by decide +kernel, by decide +kernel, fun l hl b hb => closes_of (h l hl b hb).1 (h l hl b hb).2,
    by decide +kernel, by decide +kernel, Option.isSome_iff_exists.1 (by decide +kernel), by decide +kernel, posts_of (by decide +kernel),
    by decide +kernel, by decide +kernel, by decide +kernel, by decide +kernel, by decide +kernel, by decide +kernel,
    closes_of (by decide +kernel) (by decide +kernel), by decide +kernel, posts_of (by decide +kernel), by decide +kernel,
    by decide +kernel, by decide +kernel, closes_of (by decide +kernel) (by decide +kernel), by decide +kernel,
    posts_of (by decide +kernel), by decide +kernel, by decide +kernel, by decide +kernel, by decide +kernel, by decide +kernel⟩

/-- A team with batches and outstanding operations about to wait for the batch in v6. -/
def waiting (ops : List OpRec) (batches : List Batch) (next : Nat) (n : Word) : State :=
  { State.put demo { holding [(6, every n)] with batches := batches, nextBatch := next } with ops := ops }

def op0 (done : Bool) : OpRec := ⟨0, loadTeam.key, done, [], 0#512, false, false⟩
def waits (s : State) (n : Nat) : Bool := opsDone s ((coveredBy (theTeam s) n).flatMap (·.ops))

/-- A team with `n` sealed batches about to seal another. -/
def sealing (n : Nat) : State := State.put (closer []) { theTeam (closer []) with batches := (List.range n).map fun i => ⟨i, []⟩, nextBatch := n }

theorem witness_BatchesAreSealedAndWaitedFor : (∀ n ∈ [7, 8], UniCloses (sealing n) (theTeam (sealing n)) (Form.of .m (.dst 1) .field .field) 4 0 0 1
        0#160 (pairEnd (sealing n) (theTeam (sealing n)) 1) ∧ (theTeam (sealing n)).batches.length = n)
    ∧ (∀ s ∈ [waiting [] [] 0 0, waiting [op0 false] [⟨0, [0]⟩] 1 0, waiting [op0 true] [⟨0, [0]⟩] 1 0],
      UniRuns s (theTeam s) none (Form.of .m .field (.src 1) .field) 0 6 0 ∧ UniRuns s (theTeam s) none (Form.of .m (.dst 1) (.src 1) .field) 4 6 0)
    ∧ (1 ≤ (0 + 1 + 2 ^ 32 - (theTeam (waiting [] [] 0 0)).nextBatch) % 2 ^ 32
      ∧ (0 + 1 + 2 ^ 32 - (theTeam (waiting [] [] 0 0)).nextBatch) % 2 ^ 32 < 2 ^ 31)
    ∧ ¬ (1 ≤ (0 + 1 + 2 ^ 32 - (theTeam (waiting [op0 true] [⟨0, [0]⟩] 1 0)).nextBatch) % 2 ^ 32)
    ∧ waits (waiting [op0 false] [⟨0, [0]⟩] 1 0) 0 = false ∧ waits (waiting [op0 true] [⟨0, [0]⟩] 1 0) 0 = true
    ∧ batchCause (waiting [op0 true] [⟨0, [0]⟩] 1 0) [0] = none := by
  have h : ∀ n ∈ [7, 8], UniRuns (sealing n) (theTeam (sealing n)) none (Form.of .m (.dst 1) .field .field) 4 0 0
      ∧ PairFacts (sealing n) (theTeam (sealing n)) 1 0#160
      ∧ (theTeam (sealing n)).batches.length = n := by decide +kernel
  exact ⟨fun n hn => ⟨closes_of (h n hn).1 (h n hn).2.1, (h n hn).2.2⟩, by decide +kernel, by decide +kernel, by decide +kernel,
    by decide +kernel, by decide +kernel, by decide +kernel⟩

/-- A block of two teams whose unit 0 has the owner given; its team gives the handle in v5 to the team in v6. -/
def giving (o : UnitOwner) (h d : Word) : State :=
  State.put { closer [] with blocks := [{ loadBlock with cfg := { loadCfg with nt := 2 }, live := [0, 1], units := [(0, o)] }] }
    { holding [(5, every h), (6, every d)] with cfg := { loadCfg with nt := 2 }, tileRun := some (0, 1) }
def givenEnd (o : UnitOwner) (h d : Word) : State := pairEnd (giving o h d) (theTeam (giving o h d)) 1

def gives : List (UnitOwner × Word × Word) := [(.held 0, 1, 1), (.held 0, 0, 2), (.held 1, 0, 1), (.held 0, 0, 1), (.offered 0, 0, 1)]

theorem witness_TileUnitsPassBetweenTeams : (∀ x ∈ gives, UniCloses (giving x.1 x.2.1 x.2.2) (theTeam (giving x.1 x.2.1 x.2.2))
        { Form.of .m .field (.src 1) (.src 1) with writes := false } 0 5 6 1 0#160 (givenEnd x.1 x.2.1 x.2.2)
      ∧ UniCloses (giving x.1 x.2.1 x.2.2) (theTeam (giving x.1 x.2.1 x.2.2)) { Form.of .m (.dst 1) (.src 1) .field with writes := false } 4 5 0 1
        0#160 (givenEnd x.1 x.2.1 x.2.2) ∧ Quiet (givenEnd x.1 x.2.1 x.2.2) (theTeam (giving x.1 x.2.1 x.2.2))
      ∧ ∃ b ∈ (givenEnd x.1 x.2.1 x.2.2).blockOf (theTeam (giving x.1 x.2.1 x.2.2)).key, b.units = [(0, x.1)] ∧ handleOk b x.2.1.toNat = (x.2.1 == 0#32)
        ∧ ∀ u ∈ b.units, ∀ n, u.2 ≠ .offering n [])
    ∧ handleList 0 = [0] ∧ (theTeam (giving (.held 0) 0 1)).cfg.nt = 2 := by
  have h : ∀ x ∈ gives, UniRuns (giving x.1 x.2.1 x.2.2) (theTeam (giving x.1 x.2.1 x.2.2)) none
        { Form.of .m .field (.src 1) (.src 1) with writes := false } 0 5 6
      ∧ UniRuns (giving x.1 x.2.1 x.2.2) (theTeam (giving x.1 x.2.1 x.2.2)) none { Form.of .m (.dst 1) (.src 1) .field with writes := false } 4 5 0
      ∧ PairFacts (giving x.1 x.2.1 x.2.2) (theTeam (giving x.1 x.2.1 x.2.2)) 1 0#160
      ∧ ((theTeam (giving x.1 x.2.1 x.2.2)).loads = [] ∧ (theTeam (giving x.1 x.2.1 x.2.2)).pending = none
        ∧ ∀ o ∈ ((givenEnd x.1 x.2.1 x.2.2).core (theTeam (giving x.1 x.2.1 x.2.2)).coreNo).matQ, o.team ≠ (theTeam (giving x.1 x.2.1 x.2.2)).key)
      ∧ ∃ b ∈ (givenEnd x.1 x.2.1 x.2.2).blockOf (theTeam (giving x.1 x.2.1 x.2.2)).key, b.units = [(0, x.1)]
        ∧ handleOk b x.2.1.toNat = (x.2.1 == 0#32) := by decide +kernel
  refine ⟨fun x hx => ⟨closes_of (h x hx).1 (h x hx).2.2.1, closes_of (h x hx).2.1 (h x hx).2.2.1, (h x hx).2.2.2.1, ?_⟩, by decide +kernel, by decide +kernel⟩
  obtain ⟨b, hb, hu, hh⟩ := (h x hx).2.2.2.2
  refine ⟨b, hb, hu, hh, fun u hm n hc => ?_⟩
  rw [hu] at hm
  obtain rfl := List.mem_singleton.1 hm
  simp only [gives, List.mem_cons, List.not_mem_nil, or_false] at hx
  rcases hx with rfl | rfl | rfl | rfl | rfl <;> cases hc

/-- A team about to open a fibre at the coordinates in v10, the values in v12, of the count in v14. -/
def opening (co va : Nat) : State := withWords [(10, BitVec.ofNat 32 co), (12, BitVec.ofNat 32 va), (14, 3)]

def fopenForm (two : Bool) : Form := { Form.of .m .field .pair (if two then .pair else .field) with more := [(.src 1, 14)] }

/-- An open fibre with values and one without, at its first entry and at its end. -/
def walking (o : Bool) (va : Option Nat) (pos : Nat) : State :=
  State.put (memory [5, 6, 7] 3#1024 []) { theTeam (memory [5, 6, 7] 3#1024 []) with
    fibres := loadTeam.fibres.set 2 ⟨o, 0x11000, va, 3, 1, pos⟩ }

theorem witness_FibresWalkTheirEntries : fibreWidthOk 1 = true ∧ fibreWidthOk 14 = true
    ∧ (∀ x ∈ [(0x11002, 0x11000), (0x11000, 0x11001), (0x11000, 0x11002)],
      UniRuns (opening x.1 x.2) (theTeam (opening x.1 x.2)) none (fopenForm false) 0 10 164
      ∧ UniRuns (opening x.1 x.2) (theTeam (opening x.1 x.2)) none (fopenForm true) 0 10 12)
    ∧ opnd (opening 0x11000 0x11002) (theTeam (opening 0x11000 0x11002)) .m .i64 12 0 % ((elemWidth 5).getD 8 / 8) = 0
    ∧ opnd (opening 0x11000 0x11001) (theTeam (opening 0x11000 0x11001)) .m .i64 12 0 % ((elemWidth 5).getD 8 / 8) ≠ 0
    ∧ (∀ x ∈ [(false, none, 0), (true, none, 0), (true, some 0x11000, 0), (true, some 0x11000, 2)],
      UniRuns (walking x.1 x.2.1 x.2.2) (theTeam (walking x.1 x.2.1 x.2.2)) none (Form.of .m .field .field .field) 0 0 0
      ∧ UniRuns (walking x.1 x.2.1 x.2.2) (theTeam (walking x.1 x.2.1 x.2.2)) none (Form.of .m (.dst 1) .field .field) 4 0 0
      ∧ LaneRuns (walking x.1 x.2.1 x.2.2) (theTeam (walking x.1 x.2.1 x.2.2)) noPrefixes (Form.of .m (.dst 1) .field .field) 4 2 0
      ∧ (effMask (theTeam (walking x.1 x.2.1 x.2.2)) noPrefixes).1 ≠ 0#1024
      ∧ (theTeam (walking x.1 x.2.1 x.2.2)).fibre 2 = ⟨x.1, 0x11000, x.2.1, 3, 1, x.2.2⟩)
    ∧ ∃ s1 g, targets (walking true none 2) (theTeam (walking true none 2)) ⟨4, .read, false, false⟩
        (([0, 1].filter fun l => decide (2 + l % 32 < 3)).map fun l => (l, (0x11000 + (2 + l % 32) * 4) % 2 ^ 64)) (fun _ => true) [] = .ok (s1, g)
      ∧ s1.teams[s1.cur]?.isSome = true :=
  ⟨by decide +kernel, by decide +kernel, by decide +kernel, by decide +kernel, by decide +kernel, by decide +kernel, ok_of (by decide +kernel)⟩

/-! ### The matrix unit -/

/-- A closing instruction of `n` words and its REGION, of a team that holds rows 0 to `rows` − 1, with values in its registers. -/
def matState (n rows : Nat) (l : List (Nat × Word)) : State :=
  State.put { coded (List.replicate n 0 ++ [0xB4000000, 0, 0, 0, 0, 0]) with
      blocks := [{ loadBlock with accRuns := [(0, 0, rows, 0)], units := [(0, .held 0)] }] }
    { holding (l.map fun x => (x.1, every x.2)) with accRun := some (0, rows), tileRun := some (0, 1) }
def matEnd (n rows : Nat) (l : List (Nat × Word)) : State := pairEnd (matState n rows l) (theTeam (matState n rows l)) n

/-- The closing of an instruction of a form, checked. -/
abbrev Closing (n rows : Nat) (l : List (Nat × Word)) (f : Form) (d a b : Nat) : Prop :=
  UniRuns (matState n rows l) (theTeam (matState n rows l)) none f d a b
    ∧ PairFacts (matState n rows l) (theTeam (matState n rows l)) n 0#160

theorem matCloses_of {n rows : Nat} {l : List (Nat × Word)} {f : Form} {d a b : Nat} (h : Closing n rows l f d a b) :
    UniCloses (matState n rows l) (theTeam (matState n rows l)) f d a b n 0#160 (matEnd n rows l) := closes_of h.1 h.2

def mma0 : MmaExt := ⟨0, 0, 0, 0, 0, true, true, false, 0, 0, 0, 0, false, 0, 0, false, 0⟩
def mbin0 : MbinExt := ⟨0, 0, 0, true, true, false, 0, 0⟩
def incs : List (Role × Nat) := [(.src 1, 5), (.src 1, 5), (.src 1, 5)]

/-- The MMA of row 0 over two handles of zeros. -/
def mmaOp0 : MmaOp := mmaRepeat mma0 [] 0 0 0 0 0 0 0 0
def fullQueue (s : State) : State := s.modCore 0 fun k => { k with matQ := List.replicate 16 ⟨9, ⟨9, 0, 0, 0⟩, .mzero 0 1, none, [], ⟨none, none⟩⟩ }

theorem witness_MatrixProductsEnterTheQueue : mma0.ok = true ∧ mbin0.ok = true ∧ usesBook mma0 = false
    ∧ (∀ rows, rows = 15 ∨ rows = 16 → UniCloses (matState 3 rows []) (theTeam (matState 3 rows [])) (matForm (.src 1) .pair .pair true []) 4 10 12 3 0#160
      (matEnd 3 rows []))
    ∧ UniCloses (matState 4 16 []) (theTeam (matState 4 16 [])) (matForm (.src 1) .pair .pair true incs) 4 10 12 4 0#160 (matEnd 4 16 [])
    ∧ (theTeam (matState 3 16 [])).coreNo < (matEnd 3 16 []).cores.length
    ∧ (∃ x, issueFault (mmaFails (matEnd 3 15 []) (theTeam (matState 3 15 [])) mma0 0 0 mmaOp0) = some x)
    ∧ mmaFails (matEnd 3 16 []) (theTeam (matState 3 16 [])) mma0 (srcRaw (theTeam (matState 3 16 [])) true 10) 0 mmaOp0 = []
    ∧ srcRaw (theTeam (matState 3 16 [])) true 10 = 0 ∧ opnd (matEnd 3 16 []) (theTeam (matState 3 16 [])) .m .i32 4 0 = 0
    ∧ matrixQueueFull (matEnd 3 16 []) (theTeam (matState 3 16 [])) = false
    ∧ UniRuns (fullQueue (matState 3 16 [])) (theTeam (matState 3 16 [])) none (matForm (.src 1) .pair .pair true []) 4 10 12
    ∧ matrixQueueFull (fullQueue (matEnd 3 16 [])) (theTeam (matState 3 16 [])) = true := by
  refine ⟨by decide +kernel, by decide +kernel, by decide +kernel, ?_, matCloses_of (by decide +kernel), by decide +kernel,
    Option.isSome_iff_exists.1 (by decide +kernel), by decide +kernel, by decide +kernel, by decide +kernel, by decide +kernel,
    by decide +kernel, by decide +kernel⟩
  rintro rows (rfl | rfl) <;> exact matCloses_of (by decide +kernel)

/-- A team whose fibre 2 has three FP16 entries. -/
def sparse : State := State.put (matState 3 16 []) { theTeam (matState 3 16 []) with
  fibres := loadTeam.fibres.set 2 ⟨true, 0x11000, some 0x11020, 3, 1, 0⟩ }
def sparseEnd : State := pairEnd sparse (theTeam sparse) 3
def sparseScan : Scan × State := [(theTeam sparse).fibre 2].foldl (fun y f => scanFibre (theTeam sparse) f y) (Scan.start, sparseEnd)
def mspr0 : MsprExt := ⟨0, 0, 0, 0, true, false, 0, false⟩

theorem witness_MatrixRowInstructionsEnterTheQueue : matrixQueueFull (matEnd 1 4 []) (theTeam (matState 1 4 [])) = false
    ∧ (theTeam (matState 1 4 [])).coreNo < (matEnd 1 4 []).cores.length
    ∧ (∀ v, v = 0 ∨ v = 4 ∨ v = 5 → UniCloses (matState 1 4 [(6, BitVec.ofNat 32 v)]) (theTeam (matState 1 4 [(6, BitVec.ofNat 32 v)]))
        (matForm .field (.src 1) (.src 1) true []) 0 5 6 1 0#160 (matEnd 1 4 [(6, BitVec.ofNat 32 v)])
      ∧ (theTeam (matState 1 4 [(6, BitVec.ofNat 32 v)])).holdsRows 0 v = decide (v ≤ 4))
    ∧ windowOk 0 112 = true ∧ windowOk 0 0 = true ∧ windowOk 3 0 = true
    ∧ (∀ rows, rows = 1 ∨ rows = 2 → UniCloses (matState 2 rows []) (theTeam (matState 2 rows [])) (matForm (.run 1) (.src 1) .field true []) 4 5 0 2 0#160
        (matEnd 2 rows []) ∧ (theTeam (matState 2 rows [])).holdsRows 0 (ceilDiv (theTeam (matState 2 rows [])).tl (windowWidth 0)) = decide (rows = 2))
    ∧ (∀ rows ∈ [1, 2], UniRuns (matEnd 2 rows []) (theTeam (matState 2 rows [])) none
        { matForm (.run 1) (.src 1) .field true [] with meets := [] } 4 5 0)
    ∧ UniRuns (fullQueue (matEnd 2 2 [])) (theTeam (matState 2 2 [])) none { matForm (.run 1) (.src 1) .field true [] with meets := [] } 4 5 0
    ∧ (matrixQueueFull (matEnd 2 2 []) (theTeam (matState 2 2 [])) = false
      ∧ matrixQueueFull (fullQueue (matEnd 2 2 [])) (theTeam (matState 2 2 [])) = true)
    ∧ (⟨0, 0, 0, 0, false⟩ : MscaExt).ok 0 = true ∧ (⟨0, 0, 1, 0, false⟩ : MscaExt).ok 8 = true ∧ (⟨0, 0, 0, 0, false, 0⟩ : MszpExt).ok = true
    ∧ UniCloses (matState 2 4 []) (theTeam (matState 2 4 [])) (matForm (.src 1) (.src 1) .field true []) 4 5 0 2 0#160 (matEnd 2 4 [])
    ∧ UniCloses (matState 2 4 []) (theTeam (matState 2 4 [])) (matForm (.src 1) (.src 1) (.run 2) true []) 4 5 8 2 0#160 (matEnd 2 4 [])
    ∧ vectorFails (matEnd 2 4 []) (theTeam (matState 2 4 [])) 0 1 1 = [] ∧ vectorFails (matEnd 2 4 []) (theTeam (matState 2 4 [])) 0 16 4 = []
    ∧ accFails (theTeam (matState 2 4 [])) 0 1 = [] ∧ accFails (theTeam (matState 2 4 [])) 4 1 ≠ []
    ∧ mspr0.ok 2 = true
    ∧ UniCloses sparse (theTeam sparse) (matForm (.src 1) .field (srcRole true) true (bookFields false 0)) 4 0 12 3 0#160 sparseEnd
    ∧ UniCloses (matState 3 16 []) (theTeam (matState 3 16 [])) (matForm (.src 1) .field (srcRole true) true (bookFields false 0)) 4 0 12 3 0#160
        (matEnd 3 16 []) ∧ ((theTeam (matState 3 16 [])).fibre 2).isOpen = false
    ∧ (∀ f ∈ [(theTeam sparse).fibre 2], f.isOpen = true ∧ sparseElem f.elem = true)
    ∧ PostsFrom sparseEnd sparseScan.2 (theTeam sparse) (sparseScan.1.fails ++ sparseSrcFails sparseEnd (theTeam sparse) true 0 (matSource true 0 0 0)
        ((elemWidth 0).getD 8) 16 32 ++ accFails (theTeam sparse) 0 16)
    ∧ sparseScan.1.poison = false ∧ matrixQueueFull sparseScan.2 (theTeam sparse) = false := by
  refine ⟨by decide +kernel, by decide +kernel, ?_, by decide +kernel, by decide +kernel, by decide +kernel, ?_, by decide +kernel,
    by decide +kernel, by decide +kernel, by decide +kernel, by decide +kernel, by decide +kernel, matCloses_of (by decide +kernel),
    matCloses_of (by decide +kernel), by decide +kernel, by decide +kernel, by decide +kernel, by decide +kernel, by decide +kernel, closes_of (by decide +kernel) (by decide +kernel),
    matCloses_of (by decide +kernel), by decide +kernel, by decide +kernel, posts_of (by decide +kernel), by decide +kernel, by decide +kernel⟩
  · rintro v (rfl | rfl | rfl) <;> exact ⟨matCloses_of (by decide +kernel), by decide +kernel⟩
  · rintro v (rfl | rfl) <;> exact ⟨matCloses_of (by decide +kernel), by decide +kernel⟩

/-- The matrix queue of core 0 with an MRD of window column 0, to be read or with its values, before another instruction. -/
def reading (e : Option Lanes) : MatOp := ⟨0, loadTeam.key, .mrd 4 0 0 16, e, [], ⟨none, none⟩⟩
def another : MatOp := ⟨9, ⟨9, 0, 0, 0⟩, .mzero 0 1, none, [], ⟨none, none⟩⟩
def readQueue (e : Option Lanes) : State := demo.modCore 0 fun k => { k with matQ := [reading e, another] }

theorem witness_MrdsWriteTheirRegisters : ∀ e ∈ [none, some (every 7)], (readQueue e).powered = true ∧ 0 < (readQueue e).cores.length
    ∧ (readQueue e).teamOf (reading e).team = some loadTeam ∧ (readQueue e).blockOf (reading e).team = some loadBlock
    ∧ (reading e).kind = .mrd 4 0 0 16 ∧ (reading e).early = [] ∧ (reading e).ended = e ∧ another.id ≠ (reading e).id
    ∧ ((readQueue e).core 0).matQ = reading e :: [another] ∧ 4 < loadTeam.regs.length := by decide +kernel

theorem witness_MatrixInstructionsEnterTheQueue : matrixQueueFull (matEnd 3 16 []) (theTeam (matState 3 16 [])) = false
    ∧ matrixQueueFull (matEnd 1 4 []) (theTeam (matState 1 4 [])) = false :=
  ⟨witness_MatrixProductsEnterTheQueue.2.2.2.2.2.2.2.2.2.2.1, witness_MatrixRowInstructionsEnterTheQueue.1⟩

theorem witness_MatrixUnitWritesItsElements : ∃ op : MmaOp, op = { mmaOp0 with a := .layout 0 0 16 0 0 16, b := .layout 1024 0 16 0 0 16 }
    ∧ 0 < demo.cores.length ∧ op.q = 0 ∧ op.rsum = false ∧ op.n ≤ 128 ∧ op.m = 16
    ∧ (another.kind = .mzero 0 1 ∧ another.early = [] ∧ (reading none).kind = .mrd 4 0 0 16 ∧ (reading none).early = [] ∧ 112 + 16 ≤ 128)
    ∧ ∀ x ∈ [(none : Option (List (List Nat))), some (List.replicate 16 [1, 2])], ∀ y, x = some y → y.length = 16 := by
  refine ⟨_, rfl, by decide +kernel, by decide +kernel, by decide +kernel, by decide +kernel, by decide +kernel, by decide +kernel, ?_⟩
  intro x hx y hy
  subst hy
  simp only [List.mem_cons, Option.some.injEq, reduceCtorEq, List.not_mem_nil, or_false, false_or] at hx
  rw [hx]; rfl

/-! ### Events -/

def withField (s : State) (off lo w v : Nat) : State := s.setField off lo w v
def off : State := { State.reset with powered := false }
def failed : State := demo.setField MODSTAT 0 2 3
def trained : State := State.reset.setField MODSTAT 8 8 1
def fully : State := { demo.setField MODSTAT 8 16 0xFFFF with dies := List.replicate 4 { Die.reset with up := true }, blocks := [], teams := [] }

theorem witness_EventsNeedModulePower : isEvent (.dieUp 0) = true ∧ Instr.dieUp 0 ≠ .coldPowerOn ∧ off.powered = false
    ∧ State.reset.powered = true := by decide +kernel

theorem witness_LaneInstructionsGoOn : AllIssue ([({ Form.of .l .field .field .field with writes := false, pfx := false }, 0, 0, 0),
      (Form.of .l (.dst 1) .field .field, 4, 0, 0), (Form.of .l (.rmw 1) .field .field, 4, 0, 0),
      ({ Form.of .l (.rmw 1) .field .field with sat := true }, 4, 0, 0), (Form.of .l (.dst 1) (.src 1) .field, 4, 6, 0)]
    ++ [({ two with sat := true }, 4, 6, 8), ({ two with sat := true, c := .src 1 }, 4, 6, 8), ({ two with c := .src 1 }, 4, 6, 8),
      ({ Form.of .l (.dst 2) (.src 2) (.src 2) with sat := true }, 4, 6, 8), (two, 4, 6, 8), (Form.of .l (.rmw 1) (.src 1) (.src 1), 4, 6, 8)]
    ++ [({ two with rounds := false, sat := false }, 4, 6, 8), ({ two with rounds := true, sat := true }, 4, 6, 8),
      ({ two with rounds := true, sat := true, c := .src 1 }, 4, 6, 8)]) := by decide +kernel

theorem witness_CrossLaneInstructionsGoOn : AllIssue ([({ two64 with rounds := true, sat := true }, 4, 6, 8),
      ({ two64 with rounds := true, sat := true, c := .src 2 }, 4, 6, 8), ({ two64 with rounds := false, sat := false }, 4, 6, 8),
      ({ Form.of .x (.dst 1) (.src 2) (.src 2) with rounds := false, sat := false }, 4, 6, 8)]
    ++ [({ Form.of .x (.dst 1) (.src 1) .table with rounds := true, sat := true }, 4, 6, 0xE1), (Form.of .x (.dst 1) (.src 1) (.src 1), 4, 6, 8),
      (Form.of .x .xch (.src 1) (.src 1), 4, 6, 8), ({ Form.of .x (.dst 1) (.src 1) .field with sat := true }, 4, 6, 0),
      ({ Form.of .x (.dst 1) (.src 1) .field with sat := true, rounds := true }, 4, 6, 0), (Form.of .x (.dst 1) (.src 1) .field, 4, 6, 0)]) := by
  decide +kernel

theorem witness_PowerResetsAndFatalErrors : State.reset.powered = true ∧ State.reset.svc ≠ 3 ∧ 7 < State.reset.stks.length
    ∧ failed.powered = true ∧ failed.svc = 3 ∧ mayComeUp trained 0 = true ∧ trained.dies.length = 4 ∧ mayComeUp State.reset 0 = false
    ∧ mayMoveFull fully = true ∧ fully.powered = true ∧ mayMoveFull demo = false
    ∧ demo.dumpDue = none ∧ (∀ n, n < 8 → (demo.stk n).parked = none) ∧ demo.field MODCTL 1 1 = 0
    ∧ (demo.die 0).up = true ∧ (demo.die 1).up = false ∧ demo.dies.length = 4 ∧ demo.svc ≠ 3 ∧ failed.dumpDue = none
    ∧ 1 ≤ (6#8).toNat ∧ (6#8).toNat ≤ 6 ∧ 6 < (7#8).toNat := by decide +kernel

def failedDue : State := { failed with dumpDue := some ⟨0, 0, true, []⟩ }

theorem witness_second_fatal_error : failedDue.powered = true ∧ failedDue.svc = 3 ∧ failedDue.dumpDue.isSome = true := by decide +kernel

def dumpable : State := { demo with dumpDue := some ⟨0, 0, false, []⟩ }
def logged : State := demo.logError 0 0 3 0 0

theorem witness_DumpsLogsIdentityAndHostLink : (demo.powered = true ∧ demo.dumpDue = none ∧ dumpable.dumpDue.isSome = true
    ∧ (demo.setField LANTSTAT 0 1 1).field LANTSTAT 0 1 = 1 ∧ demo.field LANTSTAT 0 1 = 0
    ∧ (demo.setField LANTSTAT 3 1 1).field LANTSTAT 3 1 = 1 ∧ demo.field LANTSTAT 3 1 = 0 ∧ demo.dies.length = 4
    ∧ demo.hostCfg.bars.length = 3 ∧ demo.msix.length = 65)
    ∧ (∃ e, ((logged.die 0).log[logged.field (ELOGCTL 0) 16 6]?).join = some e)
    ∧ ((demo.die 0).log[demo.field (ELOGCTL 0) 16 6]?).join = none
    ∧ demo.field INCARN 16 1 = 0 ∧ (demo.setField INCARN 16 1 1).field INCARN 16 1 = 1
    ∧ demo.field DEVNUM 16 1 = 0 ∧ (demo.setField DEVNUM 16 1 1).field DEVNUM 16 1 = 1
    ∧ (State.reset.die 0).up = false ∧ (demo.die 0).up = true
    ∧ (demo.msix[(64#7).toNat]?).isSome = true ∧ demo.msix[(65#7).toNat]? = none :=
  ⟨by decide +kernel, Option.isSome_iff_exists.1 (by decide +kernel), by decide +kernel⟩

def linked : State := (demo.setPortState 23 2).setField LLEN 23 1 1
def openLink : State := (linked.setField DEVNUM 16 1 1).setField INCARN 16 1 1

theorem crc_of_type4 (c : Nat) : crc32c ((flitOf 0 0x40 c).take 252) = 4024329642#32 :=
  crc_flit 0 0x40 c (c1 := 1571514428) (c2 := 3733187128) (c3 := 175625532) (c4 := 270637653) (by decide +kernel) (by decide +kernel)
    (by decide +kernel) (by decide +kernel)

theorem crc_of_type1 (c : Nat) : crc32c ((flitOf 0 0x10 c).take 252) = 2254796871#32 :=
  crc_flit 0 0x10 c (c1 := 2694684879) (c2 := 4096006037) (c3 := 1381286115) (c4 := 2040170424) (by decide +kernel) (by decide +kernel)
    (by decide +kernel) (by decide +kernel)

/-- Port 23 with a flit in its replay buffer that was resent `n` times. -/
def resent (n : Nat) : State := openLink.setPort 23 { Port.reset with replay := [(0, zeros 256, n)] }
def stoppedPort : State := openLink.setPort 23 { Port.reset with stopped := true }

theorem witness_ports : demo.powered = true ∧ demo.ports.length = 24 ∧ (23#5).toNat < 24
    ∧ demo.field LLEN 23 1 = 0 ∧ linked.field LLEN 23 1 = 1
    ∧ [1, 2, 3].map (fun v => (demo.setPortState 23 v).portState 23) = [1, 2, 3]
    ∧ linked.ports.length = 24 ∧ linked.portState 23 = 2 ∧ gateOpen linked = false := by decide +kernel

theorem witness_open_ports : ∀ s ∈ [openLink, resent 15, resent 16, stoppedPort], s.powered = true ∧ s.ports.length = 24 ∧ s.portState 23 = 2
    ∧ (s.port 23).held = 0 ∧ gateOpen s = true ∧ (s.port 23).replay.length < 512 := by decide +kernel

theorem witness_replay : (openLink.port 23).stopped = false ∧ (openLink.port 23).replay = [] ∧ (stoppedPort.port 23).stopped = true
    ∧ (∀ n ∈ [15, 16], (resent n).port 23 = { Port.reset with replay := [(0, zeros 256, n)] }) ∧ (zeros 256).length = 256 := by
  decide +kernel

theorem witness_flits : ((flitOf 0 0x40 4024329642).length = 256 ∧ 4 ≤ leNat ((flitOf 0 0x40 4024329642).take 2) / 4096)
    ∧ leNat ((flitOf 0 0x40 4024329642).drop 252) = (crc32c ((flitOf 0 0x40 4024329642).take 252)).toNat
    ∧ ((flitOf 0 0x10 2254796871).length = 256 ∧ leNat ((flitOf 0 0x10 2254796871).take 2) / 4096 = 1
      ∧ leNat (((flitOf 0 0x10 2254796871).drop 2).take 2) / 4096 % 8 = 0)
    ∧ leNat ((flitOf 0 0x10 2254796871).drop 252) = (crc32c ((flitOf 0 0x10 2254796871).take 252)).toNat
    ∧ leNat ((flitOf 0 0x10 0).drop 252) ≠ (crc32c ((flitOf 0 0x10 0).take 252)).toNat :=
  ⟨by decide +kernel, by rw [crc_of_type4]; decide +kernel, by decide +kernel, by rw [crc_of_type1]; decide +kernel,
    by rw [crc_of_type1]; decide +kernel⟩

theorem witness_LinksAndAgents : demo.deadAgents.contains (.core 5) = false ∧ (demo.die 0).cycle < heardAt demo (.core 5) + silence demo
    ∧ { demo with deadAgents := [.core 5] }.deadAgents.contains (.core 5) = true
    ∧ (∃ s, s = demo.modDie 0 (fun k => { k with cycle := 1000000 }) ∧ s.deadAgents.contains (.core 5) = false
      ∧ heardAt s (.core 5) + silence s ≤ (s.die 0).cycle ∧ s.cores.length = 64 ∧ ∀ t ∈ s.teams, t.coreNo ∉ agentCores (.core 5))
    ∧ agentDie (.core 5) = some 0 ∧ (15#5).toNat ≤ 16 :=
  ⟨by decide +kernel, by decide +kernel, by decide +kernel, ⟨_, rfl, by decide +kernel⟩, by decide +kernel⟩

def owing (d : Int) : State := demo.setStk 0 { demo.stk 0 with debt := d :: List.replicate 31 0 }
def testing (n : Nat) (p : Option Parked) : State := (demo.setField (BISTSTAT 0) 0 3 n).setStk 0 { demo.stk 0 with parked := p }
def parked0 (r : Nat) (b : Bool) : Parked := ⟨0, 0, 0, 0, r, b⟩
def scrubbing (wb : Option (Nat × Bool × List Byte)) : State := (demo.setField (STK 0 0x20) 16 1 1).setStk 0 { demo.stk 0 with scrubWb := wb }

theorem witness_StackControllersKeepTheirMemory : (∃ n, place demo (32 * 0x800000) = some n ∧ demo.isPoisoned n = false)
    ∧ (demo.powered = true ∧ place demo (32 * (2 ^ 34 - 1)) = none ∧ rising demo.l2 = true ∧ (∀ c ∈ demo.l2, c.1 / 32 ≠ 0)
    ∧ 0 < demo.stks.length ∧ demo.stackTrained 2 = false ∧ demo.stackTrained 0 = true)
    ∧ (∀ d ∈ [-8, -7, 0, 1, 7, 8], ((owing d).stk 0).debt[0]? = some d ∧ (owing d).stackTrained 0 = true)
    ∧ (demo.stks.length = 8 ∧ (∀ n ∈ [1, 3], (testing n none).field (BISTSTAT 0) 0 3 = n) ∧ fieldOf (0x3000#64).toNat 12 2 = 3
    ∧ demo.field (BISTSTAT 0) 0 3 = 0 ∧ demo.field (BISTSTAT 2) 0 3 = 0 ∧ fieldOf (0x10000#64).toNat 12 2 ≠ 3 ∧ fieldOf (0x10000#64).toNat 16 1 = 1)
    ∧ (∀ k, k / 2 = 0 → (demo.stk k).parked = none) ∧ (demo.stk 0).parked = none
    ∧ ((testing 1 (some (parked0 0 false))).setField (BISTSTAT 1) 0 3 0).stks.map (fun x => x.parked.isSome) = true :: List.replicate 7 false
    ∧ (∀ n ∈ [1, 2, 3], ∀ r ∈ [0, 65535], ((testing n (some (parked0 r (n == 3)))).stk 0).parked = some (parked0 r (n == 3))
      ∧ (testing n (some (parked0 r (n == 3)))).field (BISTSTAT 0) 0 3 = n)
    ∧ (scrubbing none).stackTrained 0 = true ∧ (scrubbing none).field (STK 0 0x20) 16 1 = 1 ∧ ((scrubbing none).stk 0).scrubWb = none
    ∧ ((scrubbing none).stk 0).parked = none ∧ (scrubbing none).isPoisoned (0 * 2 ^ 31 + ((scrubbing none).stk 0).scrubAt) = false
    ∧ (∀ b ∈ [true, false], ((scrubbing (some (5, b, List.replicate 32 0))).stk 0).scrubWb = some (5, b, List.replicate 32 0)) := by
  refine ⟨?_, by decide +kernel, by decide +kernel, by decide +kernel, ?_, by decide +kernel⟩
  · have h : (place demo (32 * 0x800000)).any (fun n => !demo.isPoisoned n) = true := by decide +kernel
    obtain ⟨n, hn, hp⟩ := Option.any_eq_true _ _ |>.1 h
    exact ⟨n, hn, by simpa using hp⟩
  · intro k hk
    obtain h | h : k = 0 ∨ k = 1 := by omega
    · subst h; decide +kernel
    · subst h; decide +kernel

def legal7 : VEntry := ⟨7, { VDesc.ofNat 0 with v := true, base := 0x10000000 }, .legal⟩
def cached7 : State := (demo.modCore 0 fun k => { k with vcache := [legal7] }).setEngine 0 0 ⟨[legal7], none⟩
def request7 (d : Option (List Byte)) : EngReq := ⟨7, some legal7, 0, 1, 0, d, [], [], false, OpViews.none, []⟩
def engaged (d : Option (List Byte)) : State := demo.modDie 0 fun k => { k with engines := List.replicate 4 ⟨[], some (request7 d)⟩ }

theorem witness_ViewCachesEnginesAndHostAccesses : demo.powered = true
    ∧ (cached7.core 0).vcache.find? (fun x => x.view == 7) = some legal7 ∧ (demo.core 0).vcache.find? (fun x => x.view == 7) = none
    ∧ demo.dies.length = 4 ∧ (∀ e, e < 4 → ((engaged none).engine 0 e).req.isSome = true) ∧ (engaged none).dies.length = 4
    ∧ (cached7.engine 0 0).req = none ∧ (cached7.engine 0 0).vcache.find? (fun x => x.view == 7) = some legal7 ∧ legal7.outcome = .legal
    ∧ homeDie legal7.desc.base = 0 ∧ 0 < (cached7.die 0).engines.length
    ∧ ((engaged none).engine 0 0).req = some (request7 none) ∧ ((engaged (some [])).engine 0 0).req = some (request7 (some []))
    ∧ (request7 none).entry = some legal7 ∧ (request7 none).data = none ∧ (request7 (some [])).data = some []
    ∧ (∀ i, i < [1#8].length → hostReadOnly (0x1FB8000000 + i) = true) ∧ (∀ i, i < [1#8].length → hostReadOnly (0x10002000 + i) = false) := by
  decide +kernel

def launch0 : Launch := ⟨0, 0, loadCfg, 0, [], true, none, none, none⟩

/-- A device with a launch whose block is still to be placed; with a block saved; with a block that a launch of priority 7 needs. -/
def placing : State := { demo with launches := [launch0], blocks := [], teams := [] }
def keeping : State := { demo with blocks := [], teams := [], saved := [⟨loadBlock, [loadTeam], [], [], 0, []⟩] }
def contested : State := { ((demo.setField (QCTL 5) 8 3 7).setField CTXSIZE 0 24 256).setField 0x9000 16 23 0x2000 with
  launches := demo.launches ++ [⟨5, 0, { loadCfg with coresN := 4 }, 0, [], true, none, none, none⟩]
  blocks := (List.range 4).map fun i => { loadBlock with idx := i, cores := [4 * i] } }

/-- A queue that is enabled, with the commit word of its head slot written. -/
def parsing : State := { ((demo.setField (QCTL 1) 0 1 1).setField (QBASE 1) 16 23 0x1001) with
  l2 := demo.l2 ++ (leBytes 8 1).zipIdx.map fun b => (0x100100F8 + b.2, b.1), launches := [] }
def aborting (ls : List Launch) : State := { demo.setField (QCTL 0) 15 1 1 with launches := ls }
def completed : State := { demo with launches := [{ launch0 with nextBlk := 1, done := [0], cfg := { loadCfg with compHost := true } }], blocks := [] }
def emptied : State := { demo with blocks := [{ loadBlock with live := [] }], teams := [] }

/-- What the first candidate is. -/
def firstIs (kept : Bool) (c : Option (Nat × Candidate)) : Bool := match c with
  | some (_, .fresh l _ _) => !kept && l.cfg.bmaddr == 0
  | some (_, .kept _ _ _) => kept
  | none => false

theorem fresh_of {s : State} (h : firstIs false (nextCandidate s).1 = true) :
    ∃ s1 q l cores seats, nextCandidate s = (some (q, .fresh l cores seats), s1) ∧ l.cfg.bmaddr = 0 := by
  generalize nextCandidate s = y at h ⊢
  obtain ⟨c, s1⟩ := y
  match c with
  | none => simp [firstIs] at h
  | some (q, .kept x cores seats) => simp [firstIs] at h
  | some (q, .fresh l cores seats) => exact ⟨s1, q, l, cores, seats, rfl, by simpa [firstIs] using h⟩

theorem kept_of {s : State} (h : firstIs true (nextCandidate s).1 = true) :
    ∃ s1 q x cores seats, nextCandidate s = (some (q, .kept x cores seats), s1) := by
  generalize nextCandidate s = y at h ⊢
  obtain ⟨c, s1⟩ := y
  match c with
  | none => simp [firstIs] at h
  | some (q, .fresh l cores seats) => simp [firstIs] at h
  | some (q, .kept x cores seats) => exact ⟨s1, q, x, cores, seats, rfl⟩

theorem isKept_of {c : Option Candidate} (h : firstIs true (c.map fun x => (0, x)) = true) : ∃ x cores seats, c = some (.kept x cores seats) := by
  match c with
  | none => simp [firstIs] at h
  | some (.fresh l cores seats) => simp [firstIs] at h
  | some (.kept x cores seats) => exact ⟨x, cores, seats, rfl⟩

theorem placing_fresh : firstIs false (nextCandidate placing).1 = true := by decide +kernel
theorem keeping_kept : firstIs true (nextCandidate keeping).1 = true := by decide +kernel
theorem demo_no_candidate : (nextCandidate demo).1.isNone = true := by decide +kernel
theorem contested_victim : preemptVictim contested = some { loadBlock with idx := 3, cores := [12] } := by decide +kernel
theorem keeping_candidate : firstIs true ((candidate keeping { launch0 with nextBlk := 1 }).map fun x => (0, x)) = true := by decide +kernel

/-- Descriptors carried from another device: one that is no view, and one of a legal view of 16 elements. -/
def carried (legal : Bool) : BitVec 512 := if legal then BitVec.ofNat 512 (2 ^ 24 + 16 + 0x10000000 * 2 ^ 64 + 16 * 2 ^ 128) else 0#512

theorem witness_carried_descriptors : (carriedEntry demo (carried false).toNat).outcome = .illegal 1
    ∧ (carriedEntry demo (carried true).toNat).outcome = .legal ∧ homeDie (carriedEntry demo (carried true).toNat).desc.base = 0
    ∧ (demo.engine 0 0).req = none ∧ 0 < (demo.die 0).engines.length := by decide +kernel

/-- View 7 in an engine's cache with a base on a device that cannot be reached. -/
def far7 : VEntry := { legal7 with desc := { legal7.desc with base := 2 ^ 46 } }

theorem witness_far_view : (demo.setEngine 0 0 ⟨[far7], none⟩).powered = true
    ∧ ((demo.setEngine 0 0 ⟨[far7], none⟩).engine 0 0).vcache.find? (fun x => x.view == 7) = some far7
    ∧ fieldOf far7.desc.base 46 1 ≠ 0 ∧ reachable (demo.setEngine 0 0 ⟨[far7], none⟩) (remoteDevice far7.desc.base) = false
    ∧ far7.outcome = .legal ∧ ((demo.setEngine 0 0 ⟨[far7], none⟩).engine 0 0).req = none := by decide +kernel

/-- A device that is about to move to full service. -/
def moving : State := { fully with mregs := (fully.setField MODSTAT 0 2 1).mregs, launches := [launch0] }

theorem witness_queues_parse_and_abort : demo.powered = true ∧ mayParse demo 1 = false ∧ mayParse parsing 1 = true ∧ parsing.powered = true
    ∧ queueAborting (aborting []) 0 = true ∧ queueAborting demo 0 = false ∧ (∀ b ∈ demo.blocks, b.q ≠ 1)
    ∧ (∀ l ∈ (aborting [{ launch0 with err := some 0x40, cfg := { loadCfg with compHost := true } }]).launches, l.q = 0 → l.cfg.compHost = true
      ∧ l.cfg.irq = false ∧ l.err = some 0x40)
    ∧ completable demo 0 = none := by decide +kernel

theorem witness_service : serving State.reset = false ∧ Machine.placing State.reset = false ∧ State.reset.powered = true ∧ serving demo = true
    ∧ Machine.placing demo = true ∧ Machine.placing placing = true ∧ Machine.placing keeping = true ∧ moveDue moving = true
    ∧ serving moving = true ∧ moving.powered = true := by decide +kernel

theorem witness_QueuesLaunchesAndBlocks : (∃ l, completable completed 0 = some l ∧ l.err = none ∧ l.cfg.compHost = true ∧ l.cfg.irq = false)
    ∧ (nextCandidate demo).1 = none
    ∧ (∃ s1 q l cores seats, nextCandidate placing = (some (q, .fresh l cores seats), s1) ∧ l.cfg.bmaddr = 0)
    ∧ (∃ s1 q x cores seats, nextCandidate keeping = (some (q, .kept x cores seats), s1))
    ∧ (demo.blocks.find? fun b => isBlock 0 0 0 b && b.live.isEmpty) = none
    ∧ ∃ b, (emptied.blocks.find? fun b => isBlock 0 0 0 b && b.live.isEmpty) = some b :=
  ⟨⟨{ launch0 with nextBlk := 1, done := [0], cfg := { loadCfg with compHost := true } }, by decide +kernel⟩,
    Option.isNone_iff_eq_none.1 demo_no_candidate, fresh_of placing_fresh, kept_of keeping_kept, by decide +kernel,
    Option.isSome_iff_exists.1 (by decide +kernel)⟩

/-- A team that waits in ALLOC's queue of core 0 for 64 registers, in a partition that has them or has not. -/
def admitting (full : Bool) (since : Nat) : State :=
  let t : Team := { prologue with park := some .alloc, active := false }
  ({ demo with teams := t :: if full then (List.range 13).map fun i => { loadTeam with key := { loadTeam.key with num := i + 1 } } else [] }).modCore 0
    fun k => { k with allocQ := [⟨t.key, 160, since, some 20⟩] }

def queued : State := { demo with teams := [{ loadTeam with active := false }] }
def rotating : State := ({ demo with teams := [{ loadTeam with active := false, order := 1 }, { loadTeam with key := { loadTeam.key with num := 1 }, moved := true }] }).modDie 0
  fun k => { k with issueCycle := 4096 }

theorem witness_requests_wait : (demo.powered = true ∧ (demo.core 0).allocQ = [])
    ∧ (∀ full, ((admitting full 0).core 0).allocQ = [⟨prologue.key, 160, 0, some 20⟩]
      ∧ ((admitting full 0).teamOf prologue.key).map (·.park) = some (some .alloc)
      ∧ (partitionRegs < regsUsed (admitting full 0) 0 0 + (160 - prologue.allot) * prologue.tl ↔ full = true)
      ∧ (admitting full 0).cores.length = 64 ∧ (admitting full 0).powered = true)
    ∧ ((admitting false 0).die (0 / 16)).issueCycle < 0 + 32768 ∧ 21 < prologue.regs.length + (160 - prologue.allot) := by decide +kernel

theorem witness_preemption : preemptVictim demo = none
    ∧ (∃ b, preemptVictim contested = some b ∧ isBlock 0 0 3 b = true ∧ isBlock 0 0 2 b = false)
    ∧ (serving contested = true ∧ contested.powered = true ∧ serving State.reset = false) :=
  ⟨by decide +kernel, ⟨_, contested_victim, by decide +kernel⟩, by decide +kernel⟩

theorem witness_restores : (queueSuspended (demo.setField SUSP 0 1 1) 0 = true ∧ queueAborting (aborting []) 0 = true
      ∧ Machine.placing keeping = true ∧ queueSuspended keeping 0 = false ∧ queueAborting keeping 0 = false)
    ∧ ∃ l, (heldBy keeping 0).find? (fun l => l.seq == 0) = some l ∧ ∃ x cores seats, candidate keeping l = some (.kept x cores seats) :=
  ⟨by decide +kernel, { launch0 with nextBlk := 1 }, by decide +kernel, isKept_of keeping_candidate⟩

theorem witness_switches : (demo.setField CSW 63 1 1).field CSW 63 1 = 1 ∧ (demo.setField CSW 63 1 1).field CSW 0 6 ≠ 1 ∧ demo.field CSW 63 1 = 0
    ∧ heldBy demo 1 = [] ∧ heldBy emptied 0 ≠ [] ∧ (∀ b ∈ placing.blocks, b.q ≠ 0) ∧ heldBy placing 0 ≠ [] ∧ placing.field CSW 63 1 = 0
    ∧ poolPlaced placing = true ∧ poolPlaced ((placing.setField CTXSIZE 0 24 0xFFFFFF).setField 0x9000 16 23 0x7FFFFF) = false := by decide +kernel

theorem witness_AdmissionPreemptionAndActiveSets : (mayEnter demo 0 = false ∧ mayEnter queued 0 = true
      ∧ queued.teams[0]? = some { loadTeam with active := false } ∧ lanesFit queued { loadTeam with active := false } = true)
    ∧ (queueHead demo 0 0 = none ∧ longestActive queued 0 0 = none ∧ longestActive demo 0 0 = some 0 ∧ (demo.die 0).issueCycle < loadTeam.entered + 4096)
    ∧ (queueHead rotating 0 0 = some 0 ∧ longestActive rotating 0 0 = some 1)
    ∧ ∃ t, rotating.teams[1]? = some t ∧ t.entered + 4096 ≤ (rotating.die t.die).issueCycle ∧ mayLeave rotating 1 t = true :=
  ⟨by decide +kernel, by decide +kernel, by decide +kernel,
    ⟨{ loadTeam with key := { loadTeam.key with num := 1 }, moved := true }, by decide +kernel⟩⟩

def fault0 : TrapInfo := ⟨.pfault, 1, 0, 0x20000⟩
def faulted (r : Option Nat) (opens : List PfRec) : State :=
  { demo with teams := [{ loadTeam with park := some (.pageFault fault0 0 3 0 r) }], pfOpen := opens }

theorem witness_LoadsTrapsAndPageFaultEvents : demo.powered = true ∧ (issued false).powered = true
    ∧ (∀ t r, demo.teams[0]? = some t → t.loads[0]? = some r → False)
    ∧ (∃ t r, (issued false).teams[0]? = some t ∧ t.loads[0]? = some r) ∧ demo.teams[1]? = none ∧ demo.teams[0]? = some loadTeam
    ∧ (∀ t i, demo.teams[0]? = some t → t.park = none → t.pending = some i → False)
    ∧ (∃ t i, t = { loadTeam with pending := some i } ∧ i = ⟨.sealedC, 0, 0, 8⟩ ∧ (State.put demo t).teams[(State.put demo t).cur]? = some t ∧ t.park = none
      ∧ t.loads = [] ∧ t.priv = false ∧ ∀ o ∈ ((State.put demo t).core t.coreNo).matQ, o.team ≠ t.key)
    ∧ loadTeam.pending = none ∧ loadTeam.trapen.getLsbD 0 = false ∧ { loadTeam with trapen := 1#32 }.trapen.getLsbD 0 = true
    ∧ (∀ t, demo.teams[0]? = some t → waitsForRecord t = false)
    ∧ ((faulted none [⟨5, 0, 2⟩]).pfOpen.find? fun r => r.asid == 0 && r.page == faultPage fault0) = some ⟨5, 0, 2⟩
    ∧ ((faulted none []).pfOpen.find? fun r => r.asid == 0 && r.page == faultPage fault0) = none
    ∧ ringHasRoom ((faulted none []).setField PFQPTR 32 10 1) = false
    ∧ (faulted none []).teams[0]? = some { loadTeam with park := some (.pageFault fault0 0 3 0 none) }
    ∧ recordOpen demo 5 = false ∧ recordOpen (faulted (some 5) [⟨5, 0, 2⟩]) 5 = true := by
  have h0 : demo.teams[0]? = some loadTeam := by decide +kernel
  refine ⟨by decide +kernel, by decide +kernel, ?_, ?_, by decide +kernel, h0, ?_, ?_, rfl, by decide +kernel, by decide +kernel, ?_, by decide +kernel,
    by decide +kernel, by decide +kernel, by decide +kernel, by decide +kernel, by decide +kernel⟩
  · intro t r ht hr
    rw [h0] at ht
    cases ht
    cases hr
  · exact ⟨theTeam (issued false), theLoad (issued false), by decide +kernel⟩
  · intro t i ht _ hi
    rw [h0] at ht
    cases ht
    cases hi
  · exact ⟨_, _, rfl, rfl, by decide +kernel⟩
  · intro t ht
    rw [h0] at ht
    cases ht
    rfl

def dirtyW : L1Word := ⟨7#32, true, false, true, false, none⟩
def registered : State := { demo.modCore 0 (fun k => { k with l1 := [(word0, { dirtyW with reg := true, pend := false })] }) with registrants := [(word0, 0)] }
def cleanW : State := demo.modCore 0 fun k => { k with l1 := [(word0, ⟨7#32, false, false, false, false, none⟩)] }
def versioned (c : Bool) : State := demo.modDie 0 fun k => { k with versions := [⟨3, 4, 5, c⟩] }

/-- A core whose copy queue holds an operation of one unit, or a table fill. -/
def copying (done : List Nat) (fill : Bool) : State := demo.modCore 0 fun k => { k with
  copyQ := [⟨0, loadTeam.key, if fill then .actld 1 (.tile 0 0) else .cpy (.tile 0 0) (.tile 256 0) 1 16 0 0 false, none, done, false, OpViews.none, []⟩] }
def matrixing (k : MatKind) (e : Option Lanes) : State := demo.modCore 0 fun x => { x with matQ := [⟨0, loadTeam.key, k, e, [], ⟨none, none⟩⟩] }

/-- Die 0 owes its sweep. -/
def owingSweep : State := dirtied.modDie 0 fun k => { k with sweepDue := true }

theorem witness_epochs : owingSweep.powered = true ∧ owingSweep.cores.length = 64 ∧ owingSweep.dies.length = 4
    ∧ (owingSweep.die 0).sweepDue = true ∧ (owingSweep.die 1).sweepDue = false := by decide +kernel

theorem witness_registrations : demo.powered = true ∧ l1Word demo 0 word0 = none ∧ isLocalWord (2 ^ 44) = false
    ∧ l1Word dirtied 0 0x4000400 = some dirtyW ∧ isLocalWord 0x4000400 = true ∧ dirtyW.pend = true ∧ dirtyW.sync = false
    ∧ look 0x4000400 dirtied.registrants = none ∧ dirtied.cores.length = 64 := by decide +kernel

theorem registered_word : l1Word registered 0 word0 = some { dirtyW with reg := true, pend := false } := by decide +kernel

theorem witness_revocations : look word0 registered.registrants = some 0 ∧ (∀ x, l1Word registered 0 word0 = some x → x.sync = false)
    ∧ look word0 registered.registrants ≠ some 1
    ∧ (∃ x, l1Word cleanW 0 word0 = some x ∧ x.dirty = false ∧ look word0 cleanW.registrants ≠ some 0 ∧ cleanW.cores.length = 64)
    ∧ (∃ x, l1Word registered 0 word0 = some x ∧ x.sync = false ∧ l1Word registered 1 word0 = none)
    ∧ (isLocalWord word0 = true ∧ isLocalWord (32 * 2 ^ 39) = false ∧ isLocalWord (32 * 0x200020) = true) := by
  refine ⟨by decide +kernel, fun x hx => ?_, by decide +kernel, ⟨⟨7#32, false, false, false, false, none⟩, by decide +kernel⟩,
    ⟨_, registered_word, rfl, by decide +kernel⟩, by decide +kernel⟩
  rw [registered_word] at hx
  cases hx
  rfl

theorem witness_versions : (∀ e ∈ ((versioned true).die 0).versions, e.dev = 3 → e.granule = 4 → e.checked = true)
    ∧ ((versioned false).die 0).versions.find? (fun e => e.dev == 3 && e.granule == 4 && !e.checked) = some ⟨3, 4, 5, false⟩ := by
  decide +kernel

theorem witness_copies_complete : findCopy demo 0 = none
    ∧ (∃ op, findCopy (copying [0] false) 0 = some (0, op) ∧ op.done.contains 0 = true ∧ op.kind.units ≤ op.done.length ∧ op.table = none)
    ∧ (∃ op, findCopy (copying [] false) 0 = some (0, op) ∧ op.done.length < op.kind.units ∧ op.kind.units ≤ 1)
    ∧ (∃ op, findCopy (copying [0] true) 0 = some (0, op) ∧ op.table = some 1 ∧ op.flipped = false ∧ op.done ≠ []
      ∧ (((copying [0] true).core 0).tables[1]?).isSome = true) :=
  ⟨by decide +kernel, ⟨⟨0, loadTeam.key, .cpy (.tile 0 0) (.tile 256 0) 1 16 0 0 false, none, [0], false, OpViews.none, []⟩, by decide +kernel⟩,
    ⟨⟨0, loadTeam.key, .cpy (.tile 0 0) (.tile 256 0) 1 16 0 0 false, none, [], false, OpViews.none, []⟩, by decide +kernel⟩,
    ⟨⟨0, loadTeam.key, .actld 1 (.tile 0 0), none, [0], false, OpViews.none, []⟩, by decide +kernel⟩⟩

theorem witness_CachesEpochsAndAsynchronousWork : (∀ o ∈ (demo.core 0).matQ, o.ended.isSome = true) ∧ (∀ o ∈ (demo.core 0).matQ, o.ended = none)
    ∧ ((matrixing (.mzero 0 1) none).core 0).matQ.find? (fun o => o.ended.isNone) = some ⟨0, loadTeam.key, .mzero 0 1, none, [], ⟨none, none⟩⟩
    ∧ (matrixing (.mzero 0 1) none).blockOf loadTeam.key = some loadBlock ∧ (matrixing (.mzero 0 1) none).teamOf loadTeam.key = some loadTeam
    ∧ ((matrixing (.mrd 4 0 0 16) (some [7])).core 0).matQ.find? (fun o => o.ended.isSome) = some ⟨0, loadTeam.key, .mrd 4 0 0 16, some [7], [], ⟨none, none⟩⟩
    ∧ demo.teams[1]? = none ∧ demo.teams[0]? = some loadTeam := by decide +kernel

theorem witness_RegisterWritesReachWritableFields : demo.powered = true ∧ (1#20).toNat % 8 ≠ 0 ∧ (0#20).toNat = MODSTAT
    ∧ (0x20#20).toNat = 0x20 ∧ (0x38#20).toNat < 0x40 ∧ (0xA00#20).toNat = 0xA00 ∧ (0xFF8#20).toNat < 0x1000
    ∧ (0x4000#20).toNat % 8 = 0 ∧ (0x7FF8#20).toNat % 8 = 0 ∧ (0x7FF8#20).toNat < 0x8000 ∧ (BitVec.ofNat 20 ERRCNT0).toNat = ERRCNT0
    ∧ (BitVec.ofNat 20 (CNT 3 13)).toNat = CNT 3 13 ∧ (BitVec.ofNat 20 (QSEQ 63)).toNat = QSEQ 63 ∧ queueEnabled demo 63 = false
    ∧ queueEnabled (demo.setField (QCTL 63) 0 1 1) 63 = true ∧ (BitVec.ofNat 20 DEVNUM).toNat = DEVNUM ∧ (BitVec.ofNat 20 VTINV).toNat = VTINV
    ∧ fieldOf (0x11000#64).toNat 16 1 = 1 ∧ fieldOf (0x11000#64).toNat 12 1 = 1 := by decide +kernel

/-! ### Words and steps -/

theorem witness_EncodedInstructionsDecode : (Instr.iaddi noPrefixes 5 0xFFFF).wf = true ∧ isEvent (.iaddi noPrefixes 5 0xFFFF) = false := by decide +kernel

theorem witness_DecodedWordsEncode : (∃ ws i rest, decodeWords ws = .ok (i, rest) ∧ rest ≠ [])
    ∧ ∃ ws e, decodeWords ws = .error e := by
  refine ⟨⟨[IWord.ofBits 0x0605FFFF, IWord.ofBits 0], .iaddi noPrefixes 5 0xFFFF, [IWord.ofBits 0], by decide +kernel⟩, [], ?_⟩
  have h : (match decodeWords [] with
    | .ok _ => false
    | .error _ => true) = true := by decide +kernel
  generalize decodeWords [] = r at h ⊢
  cases r with
  | error e => exact ⟨e, rfl⟩
  | ok x => cases h

/-- The device about to issue one word, its turn on the agenda. -/
def turning (w : Word) : State := { coded [w] with agenda := [.issue 0] }
def fetched (w : Word) : Fetched × State := fetchInstr { turning w with agenda := [], cur := 0 } 0 loadTeam loadTeam.pc

theorem witness_StepsRunTheDecodedInstruction : (∃ u, WordsAt 0 loadTeam loadTeam.pc (encode (.iaddi noPrefixes 5 0xFFFF)) 0 (coded [0x0605FFFF]) u)
    ∧ (turning 0x0605FFFF).powered = true ∧ (turning 0x0605FFFF).agenda = .issue 0 :: [] ∧ (turning 0x0605FFFF).teams[0]? = some loadTeam
    ∧ mayIssue { turning 0x0605FFFF with agenda := [] } loadTeam = true ∧ loadTeam.pending = none
    ∧ (fetched 0x0605FFFF).1 = .instr (.iaddi noPrefixes 5 0xFFFF) 1
    ∧ ((turning 0x0605FFFF).die loadTeam.die).tlb2 = ((turning 0x0605FFFF).die loadTeam.die).tlb2
    ∧ { demo with agenda := [.ev .lanternDump] }.agenda = .ev .lanternDump :: [] ∧ isEvent .lanternDump = true := by
  refine ⟨⟨(fetchWord (coded [0x0605FFFF]) 0 loadTeam loadTeam.pc).2, ?_⟩, by decide +kernel⟩
  have he : encode (.iaddi noPrefixes 5 0xFFFF) = [IWord.ofBits 0x0605FFFF#32] := by decide +kernel
  rw [he]
  exact ⟨_, Prod.ext (by decide +kernel) rfl, rfl⟩

/-- What a fetch came to. -/
def fetchKind (f : Fetched) : Nat := match f with
  | .instr _ _ => 0
  | .bad => 1
  | .fail _ => 2

/-- A team whose pc lies in no page. -/
def strayed : Team := { loadTeam with pc := 2 ^ 40 }
def strayedState : State := { State.put demo strayed with agenda := [.issue 0] }

theorem witness_fetches_fail : fetchKind (fetched 0xFE000000).1 = 1 ∧ mayIssue { turning 0xFE000000 with agenda := [] } loadTeam = true
    ∧ fetchKind (fetchInstr { strayedState with agenda := [], cur := 0 } 0 strayed strayed.pc).1 = 2
    ∧ mayIssue { strayedState with agenda := [] } strayed = true ∧ strayedState.teams[0]? = some strayed ∧ strayed.pending = none
    ∧ strayedState.powered = true ∧ strayedState.agenda = .issue 0 :: [] := by decide +kernel

theorem witness_EveryStepKeepsTheCanonicalForm : Canonical demo ∧ ∃ t, step demo = .next t := by
  refine ⟨by unfold Canonical; decide +kernel, ?_⟩
  have h : (match step demo with
    | .next _ => true
    | _ => false) = true := by decide +kernel
  generalize step demo = r at h ⊢
  cases r with
  | next t => exact ⟨t, rfl⟩
  | fault f => cases h
  | refused f => cases h

/-! ### Boundaries of the clauses: translation, checks and lanes -/

theorem witness_failures_to_record : worst [] = none
    ∧ worst [⟨⟨.align, 0, 0, 8⟩, 0, 0, none⟩, ⟨⟨.pprot, 2, 3, 9⟩, 0, 0, none⟩, ⟨⟨.pprot, 1, 2, 9⟩, 0, 0, none⟩, ⟨⟨.pprot, 0, 2, 9⟩, 0, 0, none⟩]
      = some ⟨⟨.pprot, 0, 2, 9⟩, 0, 0, none⟩ := by decide +kernel

/-- A core whose TLB holds nothing, and a die whose walkers left the page in its TLB. -/
def untranslated : State := demo.modCore 0 fun k => { k with tlb := [] }
def dieTranslated : State := untranslated.modDie 0 fun k => { k with tlb2 := [⟨0, false, 1, loadLeaf⟩] }

theorem witness_pages : (malformed 0 0x10001 2 = false ∧ malformed 0 (2 ^ 64 - 1) 0 = true ∧ (0 : Nat) < 2 ^ 64
      ∧ permFault loadTeam.who loadLeaf 0x10001000 0x11000 ⟨4, .write, false, false⟩ = none)
    ∧ permFault loadTeam.who { loadLeaf with w := false } 0x10001000 0x11000 ⟨4, .write, false, false⟩ = some 1 := by decide +kernel

theorem witness_translations : (demo.dies.length = 4 ∧ demo.cores.length = 64 ∧ demo.stks.length = 8 ∧ demo.ports.length = 24
      ∧ demo.queues.length = 64 ∧ demo.l2.length + demo.l2held.length + 8 ≤ l2Size ∧ 63 < 64)
    ∧ (translate demo 0 0 loadTables (2 ^ 55)).1 = .fault 2 0 ∧ (translate demo 0 0 loadTables (2 ^ 55 - 1)).1 = .fault 1 2
    ∧ (demo.core 0).tlb.find? (fun e => e.hits 0 0x11000) = some ⟨0, false, 1, loadLeaf⟩
    ∧ (untranslated.core 0).tlb.find? (fun e => e.hits 0 0x11000) = none
    ∧ (dieTranslated.die (0 / 16)).tlb2.find? (fun e => e.hits 0 0x11000) = some ⟨0, false, 1, loadLeaf⟩
    ∧ (untranslated.die (0 / 16)).tlb2.find? (fun e => e.hits 0 0x11000) = none
    ∧ (translate untranslated 0 0 loadTables 0x11000).1 = .leaf loadLeaf false
    ∧ (dieTranslated.core 0).tlb.find? (fun e => e.hits 0 0x11000) = none := by decide +kernel

/-- The device with its page of another kind, and one whose page is of view 7. -/
def viewed : State := (withLeaf demo fun l => { l with addr := 7 * 2 ^ 36, typ := 1 }).modCore 0 fun k =>
  { k with vcache := [⟨7, { VDesc.ofNat 0 with v := true, base := 0x10000000 }, .legal⟩] }

theorem witness_lanes : (∀ va ∈ [0x11000, 0x11002], ∃ m w, translateOnce demo ⟨[], []⟩ loadTeam.who va = (.leaf loadLeaf false, false, m, w))
    ∧ loadLeaf.typ ≠ 1 ∧ loadLeaf.tol = 0
    ∧ (∃ m w, translateOnce demo ⟨[], []⟩ loadTeam.who (2 ^ 55) = (.fault 2 0, false, m, w))
    ∧ (∀ x ∈ [(0, 3), (1, 0)], ∃ m w, translateOnce (withLeaf demo fun l => { l with tol := x.1, typ := x.2 }) ⟨[], []⟩ loadTeam.who 0x11000
      = (.leaf { loadLeaf with tol := x.1, typ := x.2 } false, false, m, w))
    ∧ (∃ m w, translateOnce viewed ⟨[], []⟩ loadTeam.who 0x11000 = (.leaf { loadLeaf with addr := 7 * 2 ^ 36, typ := 1 } false, false, m, w))
    ∧ ∃ e m w, viewOnce viewed ⟨[], []⟩ 0 (leafAddress { loadLeaf with addr := 7 * 2 ^ 36, typ := 1 } false 0x11000 / 2 ^ 36 % 2 ^ 11)
      = (e, m, w) ∧ e.outcome = .legal :=
  ⟨by intro va h; obtain rfl | rfl := by simpa using h
      all_goals exact ⟨_, _, Prod.ext rfl (Prod.ext rfl (Prod.ext rfl rfl))⟩,
    by decide, rfl, ⟨_, _, Prod.ext rfl (Prod.ext rfl (Prod.ext rfl rfl))⟩,
    by intro x h; obtain rfl | rfl := by simpa using h
       all_goals exact ⟨_, _, Prod.ext rfl (Prod.ext rfl (Prod.ext rfl rfl))⟩,
    ⟨_, _, Prod.ext rfl (Prod.ext rfl (Prod.ext rfl rfl))⟩, ⟨_, _, _, rfl, rfl⟩⟩

def word32 : AccForm := ⟨4, .read, false, false⟩

theorem witness_checks_of_all_lanes : (resolve demo loadTeam.who word32 [(0, 0x11000), (1, 0x11004)]).1.fail = none
    ∧ demo.l2.length + demo.l2held.length + 8 * 2 ≤ l2Size
    ∧ worst ((resolveLanes demo loadTeam.who word32 [(0, 0x11000), (1, 0x11002)]).1.flatMap (·.fails)) = some ⟨⟨.align, 0, 1, 0x11002⟩, 0, 0, none⟩
    ∧ worst ((resolve demo loadTeam.who word32 [(0, 0x11002)]).1.fail.toList ++ []) = some ⟨⟨.align, 0, 0, 0x11002⟩, 0, 0, none⟩ := by
  decide +kernel

theorem witness_waits_of_accesses : (resolve untranslated loadTeam.who word32 [(0, 0x11000)]).1.fail = none
    ∧ mustWait untranslated (resolve untranslated loadTeam.who word32 [(0, 0x11000)]).2 loadTeam = true
    ∧ mustWait untranslated (resolve untranslated loadTeam.who word32 [(0, 0x11000)]).2 { loadTeam with walked := true } = false
    ∧ mustWait demo (resolve demo loadTeam.who word32 [(0, 0x11000)]).2 loadTeam = false
    ∧ entriesFree (resolve demo loadTeam.who word32 [(0, 0x11000)]).2 loadTeam 1 = true
    ∧ entriesFree (State.put demo { loadTeam with loads := List.replicate 2048 ⟨4, 4, false, false, false, 1, []⟩ }) loadTeam 1 = false := by
  decide +kernel

/-- Demand paging with an open record, and without one. -/
def paging (opens : List PfRec) : State := { demo.setMreg PFQPTR (1 <<< 63) with pfOpen := opens }

theorem witness_page_faults_park : ∀ opens ∈ [[], [⟨7, 0, 2⟩]], Quiet (paging opens) loadTeam ∧ (paging opens).teams[0]? = some loadTeam
    ∧ loadTeam.priv = false ∧ (paging opens).field PFQPTR 63 1 = 1 := by
  unfold Quiet; decide +kernel

/-- Where a fetch from address `va` of a page finds its leaf, with a word in the instruction cache. -/
def fetchAt (f : Leaf → Leaf) : State := withLeaf (coded [0x0605FFFF]) f

theorem witness_fetches : (translate (fetchAt id) 0 loadTeam.cfg.asid loadTeam.cfg.ptroot (2 ^ 55)).1 = .fault 2 0
    ∧ (∀ va ∈ [0x10000, 0x10002], (translate (fetchAt id) 0 loadTeam.cfg.asid loadTeam.cfg.ptroot va).1 = .leaf loadLeaf false)
    ∧ (∀ va ∈ [0x10000, 0x10002], permFault loadTeam.who loadLeaf (leafAddress loadLeaf false va) va ⟨4, .fetch, false, false⟩ = none)
    ∧ permFault loadTeam.who { loadLeaf with x := false } 0x10000000 0x10000 ⟨4, .fetch, false, false⟩ = some 1
    ∧ (translate (fetchAt fun l => { l with x := false }) 0 0 loadTables 0x10000).1 = .leaf { loadLeaf with x := false } false
    ∧ (translate (fetchAt fun l => { l with typ := 1 }) 0 0 loadTables 0x10002).1 = .leaf { loadLeaf with typ := 1 } false
    ∧ look (leafAddress loadLeaf false 0x10000 / 4) ((fetchAt id).core 0).icache = some 0x0605FFFF := by decide +kernel

theorem witness_found_leaves : (∀ k, ¬ PageRefuses loadTeam.who loadLeaf 0x10000000 0x10000 ⟨4, .fetch, false, false⟩ k)
    ∧ LowestRefusal loadTeam.who { loadLeaf with x := false } 0x10000000 0x10000 ⟨4, .fetch, false, false⟩ 1 := by
  refine ⟨fun k => ?_, ?_, fun j h => ?_⟩
  · simp [PageRefuses, loadLeaf]
  · exact Or.inl ⟨rfl, Or.inr (Or.inr ⟨rfl, rfl⟩)⟩
  · obtain rfl : j = 0 := by omega
    simp [PageRefuses]

theorem witness_structured_pairs : hasWalked seekPair (pairTest seekPair seekPair.cur seeker (seeker.pc + 8)).2 seeker.die = false
    ∧ mem1.l2.length + mem1.l2held.length < l2Size ∧ (place mem1 0x10001000).isSome = true ∧ (0x10001001 : Nat) / 32 = 0x10001000 / 32
    ∧ place mem1 0x10001020 ≠ place mem1 0x10001000 := by decide +kernel

/-! ### Ordered accesses to sync blocks -/

/-- What is decided of a sync block that stands at its home alone. -/
abbrev HomeFacts (s : State) (c pa : Nat) : Prop :=
  (isLocalWord (pa / 4) = true ∧ c < s.cores.length)
    ∧ (∀ i, i < 32 → l1Word s c (pa / 128 * 32 + i) = none ∧ look (pa / 128 * 32 + i) s.registrants = none
      ∧ homePoisoned s ((pa / 128 * 32 + i) / 8) = false)
    ∧ (∀ e ∈ (s.core c).l1, e.2.dirty = false ∧ e.2.pend = false)
    ∧ (s.dies.length = 4 ∧ ∀ d, d < 4 → (s.die d).seals = [])
    ∧ s.l2.length + s.l2held.length + 256 ≤ l2Size

theorem atHome_of {s : State} {c pa : Nat} (h : HomeFacts s c pa) : BlockAtHome s c pa :=
  ⟨h.1, h.2.1, h.2.2.1, no_seals h.2.2.2.1.1 h.2.2.2.1.2, h.2.2.2.2⟩

/-- The team before its ordered load, its releasing store and its ordered atomics, on a sync page. -/
def syncLoader : State := syncPage (memory [] 1#1024 [])
def syncStorer : State := syncPage stxState
def syncAdder : State := syncPage adder
def syncEnd (s : State) : State := pairEnd s (theTeam s) 2

/-- Lane 0's one target on the sync block, in a state that its checks left. -/
abbrev SyncFacts (s : State) (t : Team) (cur n : Nat) (g : List (Nat × Tgt)) : Prop :=
  (∀ z ∈ g, z.1 = 0 ∧ (z.2.loc = .plain 0x10001000 ∧ z.2.n = n ∧ z.2.uncached = false ∧ z.2.sync = true)) ∧ g.length = 1
    ∧ (s.cur = cur ∧ s.teams[s.cur]? = some t ∧ t.loads = [] ∧ t.pending = none ∧ ∀ o ∈ (s.core t.coreNo).matQ, o.team ≠ t.key)
    ∧ HomeFacts s t.coreNo 0x10001000

theorem okAnd_iff {β : Type} {r : Except State (State × β)} {p : State → β → Bool} (h : okAnd r p = true) :
    ∃ s1 g, r = .ok (s1, g) ∧ p s1 g = true := by
  cases r with
  | error e => cases h
  | ok x => exact ⟨x.1, x.2, rfl, h⟩

theorem sync_of {r : Except State (State × List (Nat × Tgt))} {t : Team} {cur n : Nat} (hn : n = 4 ∨ n = 8)
    (h : okAnd r (fun s g => decide (SyncFacts s t cur n g)) = true) : ∃ s1 y, r = .ok (s1, [(0, y)]) ∧ SyncTarget y 0x10001000 n
      ∧ s1.cur = cur ∧ s1.teams[s1.cur]? = some t ∧ Quiet s1 t ∧ BlockAtHome s1 t.coreNo 0x10001000 := by
  obtain ⟨s1, g, h, hd⟩ := okAnd_iff h
  obtain ⟨h1, h2, h3, h4⟩ := of_decide_eq_true hd
  match g, h2 with
  | [(l, y)], _ =>
    obtain ⟨rfl, h5, h6, h7, h8⟩ := h1 _ (List.mem_singleton_self _)
    exact ⟨s1, y, h, ⟨h5, h6, h7, h8, by omega⟩, h3.1, h3.2.1, h3.2.2, atHome_of h4⟩

theorem witness_wide_accesses : inCore .quad = false ∧ (effMask (theTeam syncLoader) noPrefixes).1 = 1#1024 <<< 0 ∧ 0 < (theTeam syncLoader).tl
    ∧ (∀ n ∈ [4, 8], LaneRuns syncLoader (theTeam syncLoader) noPrefixes (Form.of .m (.dst (n / 4)) .pair .field) 4 10 0
      ∧ LaneRuns syncStorer (theTeam syncStorer) noPrefixes (noWriteForm (.src (n / 4)) .pair) 4 10 0
      ∧ ∀ sc, ∃ s1 y, targets syncLoader (theTeam syncLoader) ⟨n, .read, sc, false⟩ (laneAddresses syncLoader (theTeam syncLoader) noPrefixes 10 0 n)
          (fun _ => true) [] = .ok (s1, [(0, y)]) ∧ SyncTarget y 0x10001000 n ∧ s1.cur = syncLoader.cur
        ∧ s1.teams[s1.cur]? = some (theTeam syncLoader) ∧ Quiet s1 (theTeam syncLoader) ∧ BlockAtHome s1 (theTeam syncLoader).coreNo 0x10001000)
    ∧ Pairs syncStorer (theTeam syncStorer) 2 0#160 (syncEnd syncStorer)
    ∧ (effMask (theTeam syncStorer) noPrefixes).1 = 1#1024 <<< 0
    ∧ ∀ n ∈ [4, 8], ∀ sc, ∃ s1 y, targets (syncEnd syncStorer) (theTeam syncStorer) ⟨n, .write, sc, false⟩
        (laneAddresses (syncEnd syncStorer) (theTeam syncStorer) noPrefixes 10 0 n) (fun _ => true) [] = .ok (s1, [(0, y)])
      ∧ SyncTarget y 0x10001000 n ∧ s1.cur = syncStorer.cur
      ∧ s1.teams[s1.cur]? = some (theTeam syncStorer) ∧ Quiet s1 (theTeam syncStorer) ∧ BlockAtHome s1 (theTeam syncStorer).coreNo 0x10001000 := by
  refine ⟨rfl, by decide +kernel, by decide +kernel, fun n hn => ⟨?_, ?_, fun sc => ?_⟩, pairs_of (by decide +kernel), by decide +kernel,
    fun n hn sc => ?_⟩ <;> obtain rfl | rfl := (by simpa using hn : n = 4 ∨ n = 8)
  · decide +kernel
  · decide +kernel
  · decide +kernel
  · decide +kernel
  all_goals exact sync_of (by decide) (by cases sc <;> decide +kernel)

/-- The ordered atomics of both widths. -/
def ordered (b64 : Bool) (ord : Order) : AtomExt := ⟨0, true, .add, b64, ord, .quad⟩

theorem witness_wide_atomics : (∀ ord, (ordered false ord).ord = ord) ∧ inCore (ordered true .rel).sc = false ∧ (pfxOf ⟨none, none⟩).kc = false
    ∧ (effMask (theTeam syncAdder) ⟨none, none⟩).1 = 1#1024 <<< 0 ∧ 0 < (theTeam syncAdder).tl
    ∧ (∀ b64 : Bool, ∀ ord ∈ [Order.acq, .rel, .ar, .sc],
      LaneCloses syncAdder (theTeam syncAdder) ⟨none, none⟩ (atomForm (ordered b64 ord) (if b64 then 2 else 1)) 4 10 6 2 0#160 (syncEnd syncAdder)
      ∧ UniCloses syncAdder (theTeam syncAdder) (atomForm (ordered b64 ord) (if b64 then 2 else 1)) 4 10 6 2 0#160 (syncEnd syncAdder))
    ∧ ∀ n ∈ [4, 8], ∀ sc uni : Bool, ∃ s1 y, targets (syncEnd syncAdder) (theTeam syncAdder) ⟨n, .atomic, sc, false⟩
        (if uni then [(0, opnd (syncEnd syncAdder) (theTeam syncAdder) .m .i64 10 0)] else
          (lanesOf (theTeam syncAdder) (effMask (theTeam syncAdder) ⟨none, none⟩).1).map fun l =>
            (l, opnd (syncEnd syncAdder) (theTeam syncAdder) .m .i64 10 l)) (fun _ => true) [] = .ok (s1, [(0, y)])
      ∧ SyncTarget y 0x10001000 n ∧ s1.cur = syncAdder.cur
      ∧ s1.teams[s1.cur]? = some (theTeam syncAdder) ∧ Quiet s1 (theTeam syncAdder) ∧ BlockAtHome s1 (theTeam syncAdder).coreNo 0x10001000 := by
  have pair : PairFacts syncAdder (theTeam syncAdder) 2 0#160 := by decide +kernel
  have runs : ∀ b64 : Bool, ∀ ord ∈ [Order.acq, .rel, .ar, .sc],
      LaneRuns syncAdder (theTeam syncAdder) ⟨none, none⟩ (atomForm (ordered b64 ord) (if b64 then 2 else 1)) 4 10 6
      ∧ UniRuns syncAdder (theTeam syncAdder) none (atomForm (ordered b64 ord) (if b64 then 2 else 1)) 4 10 6 := by decide +kernel
  refine ⟨fun _ => rfl, rfl, rfl, by decide +kernel, by decide +kernel,
    fun b64 ord ho => ⟨laneCloses_of (runs b64 ord ho).1 pair, closes_of (runs b64 ord ho).2 pair⟩, fun n hn sc uni => ?_⟩
  obtain rfl | rfl := (by simpa using hn : n = 4 ∨ n = 8)
  all_goals exact sync_of (by decide) (by cases sc <;> cases uni <;> decide +kernel)

/-! ### Copies, gathers and table loads that wait -/

/-- A state whose tables map a page that no TLB holds, 0x2_0000. -/
def mapped (s : State) : State := (bulkWrite s (bytesWrite (loadTables + 0x20010) (leBytes 8 (loadPa + 0x1039)))).2
def farCopy : State := mapped (copyState [(20, 0x21100)])
def farEnd : State := pairEnd farCopy (theTeam farCopy) 3
def farScan : CopyScan := copyScan farEnd (theTeam farCopy) cpy0 (copySrc farEnd (theTeam farCopy) cpy0 ⟨20, 10, 0xE1, 164⟩)
  (copyDst farEnd (theTeam farCopy) cpy0 ⟨20, 10, 0xE1, 164⟩) 1 1
def farLoad : State := mapped (closer [(20, 0x21000)])
def farLoadEnd : State := pairEnd farLoad (theTeam farLoad) 1

theorem witness_copies_that_wait : UniCloses farCopy (theTeam farCopy) (copyForm true) 20 10 0xE1 3 0#160 farEnd
    ∧ issueFault farScan.fails = none ∧ opnd farEnd (theTeam farCopy) .m .i32 0xE1 0 = 1 ∧ mustWait farEnd farScan.after (theTeam farCopy) = true
    ∧ mustWait (copyEnd [(20, 0x11100)]) (scanOf [(20, 0x11100)] 1).after (theTeam (copyState [(20, 0x11100)])) = false
    ∧ mustWait (busy (copyEnd [(20, 0x11100)])) (busy (scanOf [(20, 0x11100)] 1).after) (theTeam (copyState [(20, 0x11100)])) = false :=
  ⟨closes_of (by decide +kernel) (by decide +kernel), by decide +kernel⟩

theorem witness_gathers_that_wait : UniCloses gathering (theTeam gathering) { Form.of .m .pair .pair .pair with writes := false } 20 10 22 3 0#160
      (pairEnd gathering (theTeam gathering) 3)
    ∧ (theTeam gathering).walked = false ∧ (theTeam gatherS).walked = true ∧ issueFault gatherOf.fails = none
    ∧ issueFault (gatherScan (pairEnd gathering (theTeam gathering) 3) (theTeam gathering) gather0 0x11100 0x11000 0x11020).fails = none
    ∧ (issueFault (gatherScan gatherEnd (theTeam gatherS) gather0 0x11104 0x11000 0x11020).fails).isSome = true
    ∧ copyQueueFull (busy gatherOf.after) (theTeam gatherS) = true :=
  ⟨closes_of (by decide +kernel) (by decide +kernel), by decide +kernel⟩

theorem witness_table_loads_that_wait : UniCloses farLoad (theTeam farLoad) (noWriteForm .field .pair) 0 20 0 1 0#160 farLoadEnd
    ∧ opnd farLoadEnd (theTeam farLoad) .m .i64 20 0 = 0x21000
    ∧ (scanRun (theTeam farLoad) .read 0x21000 2048 (Scan.start, farLoadEnd)).1.fails = []
    ∧ mustWait farLoadEnd (scanRun (theTeam farLoad) .read 0x21000 2048 (Scan.start, farLoadEnd)).2 (theTeam farLoad) = true
    ∧ mustWait fillEnd fillScan.2 (theTeam (closer [])) = false
    ∧ mustWait (busy fillEnd) (busy fillScan.2) (theTeam (closer [])) = false :=
  ⟨closes_of (by decide +kernel) (by decide +kernel), by decide +kernel⟩

/-- A copy of 16 bytes within the tile store, to bytes that its source does not hold. -/
def tileCopy : CopyOp := ⟨0, loadTeam.key, .cpy (.tile 0 0) (.tile 256 0) 1 16 0 0 false, none, [0], false, OpViews.none, []⟩

theorem witness_tile_copies : tileCopy.early = [] ∧ (∀ j, j < 16 → ∀ i, i < 1 → ¬ (0 + i * 0 ≤ 256 + 0 * 0 + j ∧ 256 + 0 * 0 + j < 0 + i * 0 + 16))
    ∧ loadBlock.cores ≠ [] ∧ 0 < demo.cores.length := by
  refine ⟨rfl, ?_, by decide +kernel, by decide +kernel⟩
  omega

/-- The same fibre over a page that no TLB holds. -/
def farSparse : State := State.put (mapped (matState 3 16 [])) { theTeam (matState 3 16 []) with
  fibres := loadTeam.fibres.set 2 ⟨true, 0x21000, some 0x21020, 3, 1, 0⟩ }
def farSparseEnd : State := pairEnd farSparse (theTeam farSparse) 3
def farSparseScan : Scan × State := [(theTeam farSparse).fibre 2].foldl (fun y f => scanFibre (theTeam farSparse) f y) (Scan.start, farSparseEnd)
def msprFails (s : State) (x : Scan) : List Fail := x.fails ++ sparseSrcFails s (theTeam sparse) true 0 (matSource true 0 0 0)
  ((elemWidth 0).getD 8) 16 32 ++ accFails (theTeam sparse) 0 16

theorem witness_sparse_products_that_wait : UniCloses farSparse (theTeam farSparse) (matForm (.src 1) .field (srcRole true) true (bookFields false 0))
      4 0 12 3 0#160 farSparseEnd
    ∧ (∀ f ∈ [(theTeam farSparse).fibre 2], f.isOpen = true ∧ sparseElem f.elem = true)
    ∧ msprFails farSparseEnd farSparseScan.1 = [] ∧ mustWait farSparseEnd farSparseScan.2 (theTeam farSparse) = true
    ∧ msprFails sparseEnd sparseScan.1 = [] ∧ mustWait sparseEnd sparseScan.2 (theTeam sparse) = false
    ∧ mustWait (fullQueue sparseEnd) (fullQueue sparseScan.2) (theTeam sparse) = false
    ∧ matrixQueueFull (fullQueue sparseScan.2) (theTeam sparse) = true
    ∧ (issueFault (accFails (theTeam sparse) 15 16)).isSome = true :=
  ⟨closes_of (by decide +kernel) (by decide +kernel), by decide +kernel⟩

theorem witness_host_reads : (BitVec.ofNat 20 ERRCNT0).toNat = ERRCNT0 ∧ (BitVec.ofNat 20 ERRCNT1).toNat = ERRCNT1
    ∧ (∀ r, r < 6 → ∃ a, demo.hostCfg.bars[r / 2]? = some a) ∧ ((1#3).toNat < 6 ∧ (1#3).toNat % 2 = 1 ∧ (5#3).toNat < 6 ∧ (5#3).toNat % 2 = 1)
    ∧ (0#3).toNat = 0 ∧ 6 ≤ (6#3).toNat ∧ 6 ≤ (7#3).toNat
    ∧ (∀ o ∈ [0x20, 0x38], 0x20 ≤ (BitVec.ofNat 20 o).toNat ∧ (BitVec.ofNat 20 o).toNat < 0x40)
    ∧ ∀ o ∈ [0xA00, 0xFF8], 0xA00 ≤ (BitVec.ofNat 20 o).toNat ∧ (BitVec.ofNat 20 o).toNat < 0x1000 := by
  refine ⟨by decide +kernel, by decide +kernel, fun r h => Option.isSome_iff_exists.1 ?_, by decide +kernel⟩
  have : ∀ r, r < 6 → (demo.hostCfg.bars[r / 2]?).isSome = true := by decide +kernel
  exact this r h

/-! ### Views -/

theorem witness_view_caches : (demo.teams.map (·.key)).Nodup ∧ (∀ x ∈ demo.teams, x.coreNo = (0#6).toNat → x.park ≠ some .fill)
    ∧ (∀ o ∈ [0x4000, 0x7FF8], 0x4000 ≤ (BitVec.ofNat 20 o).toNat ∧ (BitVec.ofNat 20 o).toNat < 0x8000 ∧ (BitVec.ofNat 20 o).toNat % 8 = 0)
    ∧ (BitVec.ofNat 20 VTINV).toNat = VTINV ∧ fieldOf (0x10005#64).toNat 16 1 = 1 ∧ fieldOf (0x11005#64).toNat 12 1 = 1 := by decide +kernel

/-- Sixteen bytes; rows of sixteen bytes gathered by the two indices at 0x1000_2000; two planes of 32 elements; tiles of two by two. -/
def view16 : VDesc := ⟨true, false, true, [0, 0, 0, 0], 0, 1, 0, 0x10000000, [16, 0, 0, 0], [0, 0, 0, 0], 0, 0, 0, 0, 0⟩
def rows16 : VDesc := { view16 with gchk := true, elem := 14, kind := 5, dims := [4, 0, 0, 0], rowb := 16, icnt := 2, idxoff := 0x10002000 / 4 }
def planes : VDesc := { view16 with elem := 11, kind := 4, dims := [64, 0, 0, 0], t0 := 32 }
def tiles : VDesc := { view16 with kind := 2, rank := 2, dims := [4, 6, 0, 0], t0 := 2, t1 := 3 }

theorem legal_view16 : LegalShape view16 0 := by
  refine ⟨by decide, by decide, by decide, by decide, ?_, fun h => ?_, fun h => ?_, fun h => ?_, fun h => ?_, by decide, by decide, by decide, by decide,
    by decide, by decide +kernel⟩
  · intro k h
    obtain rfl : k = 0 := by simpa [view16] using h
    decide
  all_goals exact absurd h (by decide)

theorem range_view16 : BaseRange view16 0x10000000 0x1000000F :=
  ⟨fun h => absurd h (by decide), fun h => absurd h (by decide), fun _ _ => ⟨by decide, by decide +kernel⟩⟩

theorem home_view16 : WithinHome view16 := ⟨_, _, range_view16, by decide, by decide, by decide, by decide, fun h => absurd h (by decide)⟩

/-- The same view with a base so near its home's end that its range leaves it. -/
def edge16 : VDesc := { view16 with base := 2 ^ 37 - 15 }

theorem legal_edge16 : LegalShape edge16 0 := by
  refine ⟨by decide, by decide, by decide, by decide, ?_, fun h => ?_, fun h => ?_, fun h => ?_, fun h => ?_, by decide, by decide, by decide, by decide,
    by decide, by decide +kernel⟩
  · intro k h
    obtain rfl : k = 0 := by simpa [edge16, view16] using h
    decide
  all_goals exact absurd h (by decide)

theorem edge16_leaves : ¬ WithinHome edge16 := by
  rintro ⟨lo, hi, h, -, h1, -, -, -⟩
  have h2 := (h.2.2 (by decide) (by decide)).2
  have h3 : edge16.extent = 16 := by decide +kernel
  rw [h3] at h2
  simp only [edge16] at h1 h2
  norm_num at h1 h2
  omega

theorem witness_descriptors : view16.base < 2 ^ 58 ∧ view16.v = true ∧ { view16 with v := false }.v = false
    ∧ ¬ LegalShape { view16 with kind := 6 } 0 ∧ demo.devnum = 0
    ∧ (∃ f, f ∈ ((demo.modDie 0 fun k => { k with tolMap := [0x1000] }).die (homeDie view16.base)).tolMap
      ∧ (0x10000000 : Int) % 2 ^ 37 / 2 ^ 16 ≤ (f : Int) ∧ (f : Int) ≤ 0x1000000F % 2 ^ 37 / 2 ^ 16)
    ∧ view16.base.testBit 46 = false ∧ demo.tornViews.contains 7 = false
    ∧ rows16.kind = 5 ∧ 4 * rows16.idxoff / 2 ^ 16 ≤ 0x1000 ∧ 0x1000 ≤ (4 * rows16.idxoff + 4 * rows16.icnt - 1) / 2 ^ 16 :=
  ⟨by decide, rfl, rfl, fun h => absurd h.1 (by decide), by decide +kernel, ⟨0x1000, by decide +kernel⟩, by decide, by decide +kernel⟩

theorem witness_view_bits : (view16.isGather = false ∧ rows16.isGather = true ∧ view16.kind = 0)
    ∧ (Coordinates view8 6 (fun k => if k = 0 then 2 else 1) ∧ view8.kind = 1 ∧ Permutes view8
      ∧ ∀ k, k < view8.rank → (fun _ => 4) (view8.sel k) = view8.dim k)
    ∧ (tiles.kind = 2 ∧ 1 < tiles.t0 ∧ 2 < tiles.t1 ∧ 1 < tiles.dim 0 / tiles.t0 ∧ 1 < tiles.dim 1 / tiles.t1)
    ∧ (view16.count * view16.width ≤ 128 ∧ view16.kind ≠ 4 ∧ 0 < view16.width ∧ 7 < view16.width ∧ 15 < view16.count
      ∧ ((8 * 0x1000000F + 7 : Nat) : Int) = 8 * view16.base + view16.width * view16.element 15 + 7)
    ∧ (planes.kind = 4 ∧ 1 < planes.width ∧ 31 < planes.t0 ∧ planes.width * planes.t0 * 1 + planes.t0 * 1 + 31 < planes.count * planes.width)
    ∧ 15 < rows16.rowb ∧ rows16.dim 0 = 4 := by
  refine ⟨by decide, ⟨⟨?_, by decide⟩, rfl, ⟨?_, ?_⟩, ?_⟩, by decide +kernel, by decide +kernel, by decide +kernel, by decide⟩
  · decide +kernel
  · decide +kernel
  · intro j h
    obtain rfl | rfl : j = 0 ∨ j = 1 := by have h2 : view8.rank = 2 := rfl; omega
    · exact ⟨1, by decide⟩
    · exact ⟨0, by decide⟩
  · decide +kernel

/-- A store of 4-bit elements through a view, one to a tolerant page, and one by STBM. -/
def viewStore : LaneStore := ⟨0, ⟨.view true [some 0, none, some 9, some 0], 4, 0x11000, false, false, false⟩, 5, 15⟩

theorem witness_view_accesses : (∃ bits, viewStore.tgt.loc = .view true bits ∧ 0 < bits.length)
    ∧ ∃ pa tol off, ({ viewStore with tgt := { viewStore.tgt with loc := .tolerant 0 1 0 } } : LaneStore).tgt.loc = .tolerant pa tol off :=
  ⟨⟨_, rfl, by decide⟩, _, _, _, rfl⟩

/-- A device whose loaded page is of a GATHER view; its second index names no row. -/
def gatherPage (gchk : Bool) : State := (withLeaf (bulkWrite demo (bytesWrite 0x10002000 (leBytes 4 1 ++ leBytes 4 9))).2
    fun l => { l with addr := 7 * 2 ^ 36, typ := 1 }).modCore 0 fun k => { k with vcache := [⟨7, { rows16 with gchk := gchk }, .legal⟩] }
def gatherLanes (gchk : Bool) : List LaneAcc × Bool × State := resolveLanes (gatherPage gchk) loadTeam.who word32 [(0, 0x10000), (1, 0x10010)]
def gatherIndices (gchk : Bool) := laneIndices (gatherLanes gchk).2.2 0 word32 (gatherLanes gchk).1

theorem witness_gathers_are_checked : (∀ gchk, worst ((gatherLanes gchk).1.flatMap (·.fails)) = none)
    ∧ ((laneCounted word32 (gatherIndices true).1 (gatherLanes true).1).find? (fun x => x.2.2.2.2)).isSome = true
    ∧ (laneCounted word32 (gatherIndices false).1 (gatherLanes false).1).find? (fun x => x.2.2.2.2) = none
    ∧ (laneCounted word32 (gatherIndices false).1 (gatherLanes false).1).length = 1 := by decide +kernel

theorem witness_view_sectors : (32 * 0 < view16.extent ∧ demo.l2.length + demo.l2held.length + 256 ≤ l2Size)
    ∧ (∀ k, some k ∈ view16.bits [] (32 * 0) (min 32 (view16.extent - 32 * 0)) → isRemoteWord (8 * (k / 256)) = false
      ∧ ∀ i, i < 8 → (readForward demo (8 * (k / 256) + i)).2 = false)
    ∧ view16.wr = true ∧ { view16 with wr := false }.wr = false
    ∧ sectorCause ⟨7, view16, .illegal 5⟩ (32 * 0) = some (.viewf, 5) ∧ sectorCause ⟨7, view16, .illegal 5⟩ (32 * 1) = some (.viewf, 3)
    ∧ sectorCause ⟨7, view16, .tolerantD⟩ (32 * 0) = some (.tolview, 0) ∧ sectorCause ⟨7, view16, .legal⟩ (32 * 1) = some (.viewf, 3)
    ∧ sectorCause ⟨7, view16, .legal⟩ (32 * 0) = none := by
  refine ⟨by decide +kernel, fun k h => ?_, by decide +kernel⟩
  have h1 : ∀ x ∈ view16.bits [] (32 * 0) (min 32 (view16.extent - 32 * 0)), x.all (fun k => k / 256 == 0x10000000 / 32) = true := by decide +kernel
  have h2 : isRemoteWord (8 * (0x10000000 / 32)) = false ∧ ∀ i, i < 8 → (readForward demo (8 * (0x10000000 / 32) + i)).2 = false := by
    decide +kernel
  have h3 : k / 256 = 0x10000000 / 32 := by simpa using h1 _ h
  rw [h3]; exact h2

/-! ### Blocks that leave and come back -/

/-- Another block on core 0, whose team waits for nothing, beside one whose request in ALLOC's queue is due. -/
def otherBlock : Block := { loadBlock with idx := 1 }
def otherTeam : Team := { loadTeam with key := { loadTeam.key with blk := 1 } }
def evicting : State := (((admitting true 0).setField CTXSIZE 0 24 256).setField 0x9000 16 23 0x2000).modDie 0 fun k =>
  { k with issueCycle := 32768 }
def evictable : State := { evicting with blocks := [loadBlock, otherBlock], teams := evicting.teams ++ [otherTeam] }

theorem evictable_facts : (evictable.teams.filter fun u => otherBlock.holds u.key) = [otherTeam]
    ∧ (poolSize evictable ≠ 0 ∧ poolPlaced evictable = true
      ∧ (evictable.saved.map (·.bytes)).sum + contextSize evictable otherBlock ≤ poolSize evictable)
    ∧ (otherTeam.loads = [] ∧ otherTeam.pending = none ∧ (evictable.core otherTeam.coreNo).matQ = [] ∧ (evictable.core otherTeam.coreNo).copyQ = []
      ∧ evictable.teamOf otherTeam.key = some otherTeam)
    ∧ evictable.blocks.find? (fun x => sameBlock x otherBlock) = some otherBlock ∧ evictable.registrants = [] ∧ evictable.hostLines = [] := by
  decide +kernel

theorem held_by_other {u : Team} (h : u ∈ evictable.teams) (hb : otherBlock.holds u.key = true) : u = otherTeam := by
  have : u ∈ evictable.teams.filter fun u => otherBlock.holds u.key := List.mem_filter.2 ⟨h, hb⟩
  rw [evictable_facts.1] at this
  exact List.mem_singleton.1 this

theorem other_settled : Settled evictable otherBlock := by
  obtain ⟨-, -, h, hb, hr, hl⟩ := evictable_facts
  refine ⟨hb, fun u hu hh => ?_, fun e he => (by cases he), ⟨?_, ?_⟩⟩
  · obtain rfl := held_by_other hu hh
    refine ⟨⟨⟨h.1, h.2.1, ?_⟩, ?_, h.2.2.2.2⟩, by decide⟩
    · rw [h.2.2.1]; intro o ho; cases ho
    · rw [h.2.2.2.1]; intro o ho; cases ho
  · rw [hr]; intro e he; cases he
  · rw [hl]; intro e he; cases he

theorem other_may_go : MayEvict evictable 0 0 loadBlock otherBlock := by
  refine ⟨⟨⟨by decide +kernel, by decide +kernel⟩, fun u hu hh => ?_, ?_, evictable_facts.2.1⟩, by decide +kernel, otherTeam, ?_, by decide +kernel⟩
  · obtain rfl := held_by_other hu hh
    rfl
  · have : ∀ x ∈ evictable.blocks, x.q = otherBlock.q → x.seq = otherBlock.seq → x.live ≠ [] → x.idx ≤ otherBlock.idx := by decide +kernel
    exact this
  · exact List.mem_append_right _ (List.mem_singleton_self _)

theorem evictable_own {c part : Nat} {b : Block} (h : MayEvict evictable c part loadBlock b) : b = otherBlock := by
  have hb : b ∈ [loadBlock, otherBlock] := h.1.resident.1
  obtain rfl | rfl := by simpa using hb
  · exact absurd h.2.1 (by decide +kernel)
  · rfl

theorem witness_evictions : (∀ s ∈ [evicting, evictable], s.powered = true ∧ (s.core (0#6).toNat).allocQ = [⟨prologue.key, 160, 0, some 20⟩]
      ∧ 0 + 32768 ≤ (s.die ((0#6).toNat / 16)).issueCycle ∧ (s.teamOf prologue.key).isSome = true ∧ s.blockOf prologue.key = some loadBlock
      ∧ (0#6).toNat < s.cores.length)
    ∧ (∀ b, ¬ MayEvict evicting 0 0 loadBlock b)
    ∧ MayEvict evictable 0 0 loadBlock otherBlock ∧ ∀ b, MayEvict evictable 0 0 loadBlock b → Settled evictable b := by
  refine ⟨by decide +kernel, fun b h => ?_, other_may_go, fun b h => by rw [evictable_own h]; exact other_settled⟩
  have hb : b ∈ [loadBlock] := h.1.resident.1
  obtain rfl := by simpa using hb
  exact absurd h.2.1 (by decide +kernel)

theorem witness_pre_emptions : (∀ n l, ¬ WantsRoom { demo with launches := [] } n l) ∧ Settled contested { loadBlock with idx := 3, cores := [12] }
    ∧ { demo with launches := [] }.powered = true := by
  have h : contested.blocks.find? (fun x => sameBlock x { loadBlock with idx := 3, cores := [12] }) = some { loadBlock with idx := 3, cores := [12] }
      ∧ contested.registrants = [] ∧ contested.hostLines = []
      ∧ ∀ u ∈ contested.teams, Block.holds { loadBlock with idx := 3, cores := [12] } u.key = false := by decide +kernel
  refine ⟨fun n l h => ?_, ⟨h.1, fun u hu hh => ?_, fun e he => (by cases he), ⟨?_, ?_⟩⟩, by decide +kernel⟩
  · have hl : l ∈ ([] : List Launch).filter _ := h.2.1
    cases hl
  · rw [h.2.2.2 u hu] at hh; cases hh
  · rw [h.2.1]; intro e he; cases he
  · rw [h.2.2.1]; intro e he; cases he

/-- What R145's statement asks of the candidate that is a saved block. -/
def keptWell (c : Option (Nat × Candidate)) (s : State) : Bool := match c with
  | some (q, .kept x cores seats) => q == 0 && x.block.seq == 0 && cores.length == seats.length && decide cores.Nodup
    && cores.all fun c => (s.core c).l1.all fun e => !e.2.pend
  | _ => false

theorem keptWell_of {s : State} (h : keptWell (nextCandidate s).1 (nextCandidate s).2 = true) :
    ∃ u x cores seats, nextCandidate s = (some (0, .kept x cores seats), u) ∧ x.block.seq = 0 ∧ cores.length = seats.length ∧ cores.Nodup
      ∧ ∀ c ∈ cores, ∀ e ∈ (u.core c).l1, e.2.pend = false := by
  generalize nextCandidate s = y at h ⊢
  obtain ⟨c, u⟩ := y
  match c with
  | none => simp [keptWell] at h
  | some (q, .fresh l cores seats) => simp [keptWell] at h
  | some (q, .kept x cores seats) =>
    simp only [keptWell, Bool.and_eq_true, beq_iff_eq, decide_eq_true_eq, List.all_eq_true, Bool.not_eq_true'] at h
    obtain ⟨⟨⟨⟨rfl, h1⟩, h2⟩, h3⟩, h4⟩ := h
    exact ⟨u, x, cores, seats, rfl, h1, h2, h3, h4⟩

theorem keeping_well : keptWell (nextCandidate keeping).1 (nextCandidate keeping).2 = true := by decide +kernel

theorem witness_restored_blocks : (∃ u x cores seats, nextCandidate keeping = (some ((0#6).toNat, .kept x cores seats), u) ∧ x.block.seq = (0#32).toNat
      ∧ cores.length = seats.length ∧ cores.Nodup ∧ ∀ c ∈ cores, ∀ e ∈ (u.core c).l1, e.2.pend = false)
    ∧ (0 ≠ (5#6).toNat) ∧ Machine.placing State.reset = false ∧ { demo with launches := [] }.launches = [] :=
  ⟨keptWell_of keeping_well, by decide, by decide +kernel, rfl⟩

/-- A queue whose one block runs; the same with a handler, with no pool, and with one that takes the context. -/
def handling : State := { demo with teams := [inHandler] }
def pooled : State := (demo.setField CTXSIZE 0 24 256).setField 0x9000 16 23 0x2000

theorem pooled_settled : Settled pooled loadBlock := by
  have h : (pooled.blocks.find? (fun x => sameBlock x loadBlock) = some loadBlock ∧ pooled.registrants = [] ∧ pooled.hostLines = [])
      ∧ ∀ u ∈ pooled.teams, (u.loads = [] ∧ u.pending = none ∧ ∀ o ∈ (pooled.core u.coreNo).matQ, o.team ≠ u.key)
        ∧ (∀ o ∈ (pooled.core u.coreNo).copyQ, o.team ≠ u.key) ∧ pooled.teamOf u.key = some u ∧ u.park ≠ some .alloc := by decide +kernel
  refine ⟨h.1.1, fun u hu _ => ⟨⟨(h.2 u hu).1, (h.2 u hu).2.1, (h.2 u hu).2.2.1⟩, (h.2 u hu).2.2.2⟩, fun e he => (by cases he), ⟨?_, ?_⟩⟩
  · rw [h.1.2.1]; intro e he; cases he
  · rw [h.1.2.2]; intro e he; cases he

theorem witness_context_switches : (∀ s ∈ [demo, handling, pooled], s.powered = true ∧ s.field CSW 63 1 = 0 ∧ heldBy s 0 ≠ []
      ∧ s.blocks.filter (fun x => x.q == 0) = [loadBlock] ∧ poolPlaced s = true) ∧ loadBlock.live ≠ []
    ∧ (∃ u ∈ handling.teams, loadBlock.holds u.key = true ∧ u.priv = true)
    ∧ (∀ s ∈ [demo, pooled], ∀ u ∈ s.teams, loadBlock.holds u.key = true → u.priv = false)
    ∧ contextFits demo loadBlock = false ∧ contextFits pooled loadBlock = true ∧ Settled pooled loadBlock :=
  ⟨by decide +kernel, by decide, ⟨inHandler, by decide +kernel⟩, by decide +kernel, by decide +kernel, by decide +kernel, pooled_settled⟩

theorem witness_active_sets : (∀ x ∈ demo.teams, x.park = none ∧ x.active = true) ∧ (∀ x ∈ queued.teams, 0 < x.tl) ∧ lanesActive queued 0 0 = 0
    ∧ mayLeave (coded [0x0105A000]) 0 loadTeam = false := by decide +kernel

/-! ### Registers, registrations and fetches -/

def filling : Team := { loadTeam with park := some .fill, active := false }

/-- Values of TLBINV that ask for each kind of invalidation. -/
def invalidate (kind : Nat) : DWord := BitVec.ofNat 64 (2 ^ 62 + kind * 2 ^ 60 + 5)

theorem witness_paging_registers : ((State.put demo filling).teams[0]? = some filling ∧ (State.put demo filling).powered = true)
    ∧ (BitVec.ofNat 20 TLBINV).toNat = TLBINV ∧ (∀ k, k < 4 → fieldOf (invalidate k).toNat 62 1 = 1 ∧ fieldOf (invalidate k).toNat 60 2 = k)
    ∧ (∀ k, k < 3 → (demo.setField TLBINV 60 2 k).field TLBINV 60 2 = k)
    ∧ (BitVec.ofNat 20 PFRESP).toNat = PFRESP ∧ (∀ n ∈ [0, 1], fieldOf (BitVec.ofNat 64 (2 ^ 63 + n * 2 ^ 62 + 1023)).toNat 63 1 = 1
      ∧ fieldOf (BitVec.ofNat 64 (2 ^ 63 + n * 2 ^ 62 + 1023)).toNat 62 1 = n ∧ fieldOf (BitVec.ofNat 64 (2 ^ 63 + n * 2 ^ 62 + 1023)).toNat 0 10 = 1023)
    ∧ (BitVec.ofNat 20 PFQPTR).toNat = PFQPTR ∧ fieldOf (0x500000000#64).toNat 63 1 = 0 ∧ (demo.setField PFQPTR 63 1 1).field PFQPTR 63 1 = 1 := by
  decide +kernel

/-- Both words of an aligned 8 bytes on their way to be registered. -/
def dirtyPair : State := dirtied.modCore 0 fun k => { k with l1 := [(0x4000400, dirtyW), (0x4000401, dirtyW)] }

theorem witness_registered_pairs : (homeDead dirtied 0x4000400 = false ∧ homeDead { dirtied with deadAgents := [.die 0] } 0x4000400 = true)
    ∧ l1Word dirtied 0 (mateOf 0x4000400) = none
    ∧ look (mateOf 0x4000400) dirtyPair.registrants = none ∧ look 0x4000400 dirtyPair.registrants = none
    ∧ l1Word dirtyPair 0 0x4000400 = some dirtyW ∧ l1Word dirtyPair 0 (mateOf 0x4000400) = some dirtyW := by
  decide +kernel

theorem witness_register_offsets : (∀ o ∈ [0x60, 0xF8], 0x60 ≤ (BitVec.ofNat 20 o).toNat ∧ (BitVec.ofNat 20 o).toNat < 0x100)
    ∧ ∀ o ∈ [ MODCTL, LLEN, INCARN, DEVNUM, QCTL 63, CSW], (BitVec.ofNat 20 o).toNat = o := by decide +kernel

theorem witness_register_commands : (fieldOf (4#64).toNat 2 1 = 1 ∧ fieldOf (4#64).toNat 0 1 = 0)
    ∧ (fieldOf (1#64).toNat 2 1 = 0 ∧ fieldOf (1#64).toNat 0 1 = 1) ∧ demo.ports.length = 24
    ∧ (demo.field LLEN 23 1 = fieldOf (1#64).toNat 23 1 ∧ demo.field LLEN 0 1 ≠ fieldOf (1#64).toNat 0 1)
    ∧ demo.field INCARN 16 1 = 0 ∧ demo.field DEVNUM 16 1 = 0 ∧ fieldOf (0x8000#64).toNat 15 1 = 1 ∧ demo.field CSW 63 1 = 0
    ∧ (fieldOf (0x13F#64).toNat 8 2 = 1 ∧ fieldOf (0x13F#64).toNat 0 6 = 63) ∧ fieldOf (0x200#64).toNat 8 2 = 2 := by decide +kernel

/-- The turn of a team whose page no TLB holds. -/
def lost : State := (turning 0x0605FFFF).modCore 0 fun k => { k with tlb := [] }
def lostNow : State := { lost with agenda := [], cur := 0 }
def lostFetch : Fetched × State := fetchInstr lostNow 0 loadTeam loadTeam.pc

theorem witness_fetches_wait : lostFetch.1 = .instr (.iaddi noPrefixes 5 0xFFFF) 1 ∧ fetchWaits lostNow lostFetch.2 loadTeam (namesLatch (.iaddi noPrefixes 5 0xFFFF)) = true
    ∧ lost.agenda = .issue 0 :: [] ∧ lost.teams[0]? = some loadTeam ∧ mayIssue lostNow loadTeam = true ∧ lost.powered = true
    ∧ namesLatch (.iaddi noPrefixes 5 0xFFFF) = false ∧ namesLatch (.mov noPrefixes 5 0xA0) = true ∧ loadTeam.moved = false
    ∧ loadTeam.latL.vals = [] ∧ loadTeam.latX.vals = [] ∧ loadTeam.latU.vals = [] := by decide +kernel

/-- The same of a candidate that is a new block. -/
def freshWell (c : Option (Nat × Candidate)) (s : State) : Bool := match c with
  | some (_, .fresh l cores _) => l.cfg.bmaddr == 0 && cores.all fun c => (s.core c).l1.all fun e => !e.2.pend
  | _ => false

theorem placing_well : freshWell (nextCandidate placing).1 (nextCandidate placing).2 = true := by decide +kernel

theorem witness_placed_blocks : ∃ s1 q l cores seats, nextCandidate placing = (some (q, .fresh l cores seats), s1) ∧ l.cfg.bmaddr = 0
    ∧ ∀ c ∈ cores, ∀ e ∈ (s1.core c).l1, e.2.pend = false := by
  have h := placing_well
  generalize nextCandidate placing = y at h ⊢
  obtain ⟨c, u⟩ := y
  match c with
  | none => simp [freshWell] at h
  | some (q, .kept x cores seats) => simp [freshWell] at h
  | some (q, .fresh l cores seats) =>
    simp only [freshWell, Bool.and_eq_true, beq_iff_eq, List.all_eq_true, Bool.not_eq_true'] at h
    exact ⟨u, q, l, cores, seats, rfl, h.1, h.2⟩

end Sys2Proof.Tests
end

section
/-! PROOF. Writes of module registers (R6, R8): which bits a write reaches, the register that an offset of the block names,
and the commands that a write can give. -/

namespace Sys2Proof.Machine

/-! ## Bits of fields -/

theorem testBit_fieldOf (v lo w i : Nat) : (fieldOf v lo w).testBit i = (decide (i < w) && v.testBit (lo + i)) := by
  unfold fieldOf
  rw [Nat.testBit_mod_two_pow, Nat.testBit_div_two_pow, Nat.add_comm]

/-- A value with a field replaced, bit by bit. -/
theorem testBit_withField (v lo w x i : Nat) :
    (withField v lo w x).testBit i = if lo ≤ i ∧ i < lo + w then x.testBit (i - lo) else v.testBit i := by
  rw [withField_parts, Nat.add_comm, Nat.testBit_two_pow_mul_add _ (Nat.mod_lt _ (Nat.two_pow_pos lo)), Nat.add_comm (x % _),
    Nat.testBit_two_pow_mul_add _ (Nat.mod_lt _ (Nat.two_pow_pos w)), Nat.testBit_mod_two_pow, Nat.testBit_mod_two_pow,
    Nat.testBit_div_two_pow]
  by_cases below : i < lo
  · rw [if_pos below, if_neg (by omega)]
    simp [below]
  · by_cases inside : i - lo < w
    · rw [if_neg below, if_pos inside, if_pos (by omega)]
      simp [inside]
    · rw [if_neg below, if_neg inside, if_neg (by omega), show i - lo - w + (lo + w) = i by omega]

/-- A register after a write of one of its fields, bit by bit. -/
theorem State.getLsbD_setField (s : State) (off : Nat) {lo w : Nat} (h : lo + w ≤ 64) (x i : Nat) :
    ((s.setField off lo w x).mreg off).getLsbD i
      = if lo ≤ i ∧ i < lo + w then x.testBit (i - lo) else (s.mreg off).getLsbD i := by
  rw [← BitVec.testBit_toNat, State.mreg_setField s off h, testBit_withField, BitVec.testBit_toNat]

/-! ## Writes of fields -/

/-- Two fields (low bit, width) share no bit. -/
abbrev Apart (f g : Nat × Nat) : Prop := f.1 + f.2 ≤ g.1 ∨ g.1 + g.2 ≤ f.1

/-- Fields of one register: each lies in its 64 bits, and no two share a bit. -/
abbrev Placed (fs : List (Nat × Nat)) : Prop := (∀ f ∈ fs, f.1 + f.2 ≤ 64) ∧ fs.Pairwise Apart

/-- Fields with the values that a write of `v` gives them. -/
def valued (v : Nat) (fs : List (Nat × Nat)) : List (Nat × Nat × Nat) := fs.map fun f => (f.1, f.2, fieldOf v f.1 f.2)

theorem Wrote.refl (s : State) (off : Nat) : Wrote s s off [] := ⟨fun _ _ => rfl, rfl, fun _ _ => rfl⟩

/-- The write of one more field, which shares no bit with those listed before it. -/
theorem Wrote.setField {s t : State} {off lo w : Nat} {fs gs : List (Nat × Nat × Nat)} (h : Wrote s t off (fs ++ gs))
    (inside : lo + w ≤ 64) (apart : ∀ f ∈ fs, Apart (f.1, f.2.1) (lo, w)) (x : Nat) :
    Wrote s (t.setField off lo w x) off (fs ++ (lo, w, x) :: gs) := by
  obtain ⟨others, rest, bits⟩ := h
  refine ⟨fun o ho => ?_, rest, fun i hi => ?_⟩
  · rw [State.mreg_setField_ne t (by simpa using ho), others o ho]
  · rw [State.getLsbD_setField t off inside, bits i hi, List.find?_append, List.find?_append, List.find?_cons]
    by_cases here : lo ≤ i ∧ i < lo + w
    · have missed : fs.find? (fun f => decide (f.1 ≤ i ∧ i < f.1 + f.2.1)) = none := by
        rw [List.find?_eq_none]
        intro f hf
        have := apart f hf
        simp only [decide_eq_true_eq]
        omega
      rw [missed, decide_eq_true here, if_pos here]
      rfl
    · simp [here]

/-- A write of fields reaches these and nothing else, after those that were written before. -/
theorem Wrote.writeFields {s t : State} {off v : Nat} {fs gs : List (Nat × Nat)} (h : Wrote s t off (valued v fs))
    (placed : Placed (fs ++ gs)) : Wrote s (writeFields t off v gs) off (valued v (fs ++ gs)) := by
  induction gs generalizing t fs with
  | nil => simpa [Machine.writeFields] using h
  | cons g gs ih =>
    obtain ⟨inside, apart⟩ := placed
    have before : ∀ f ∈ valued v fs, Apart (f.1, f.2.1) (g.1, g.2) := by
      intro f hf
      obtain ⟨e, he, rfl⟩ := List.mem_map.mp hf
      exact (List.pairwise_append.mp apart).2.2 e he g List.mem_cons_self
    have one : Wrote s (t.setField off g.1 g.2 (fieldOf v g.1 g.2)) off (valued v (fs ++ [g])) := by
      rw [valued, List.map_append]
      exact Wrote.setField (gs := []) (by simpa using h) (inside g (by simp)) before _
    have more := ih one (by rw [List.append_assoc]; exact ⟨inside, apart⟩)
    rwa [List.append_assoc] at more

theorem wrote_writeFields (s : State) (off v : Nat) {fs : List (Nat × Nat)} (placed : Placed fs) :
    Wrote s (writeFields s off v fs) off (valued v fs) := Wrote.writeFields (fs := []) (Wrote.refl s off) placed

theorem writeFields_append (s : State) (off v : Nat) (fs gs : List (Nat × Nat)) :
    writeFields (writeFields s off v fs) off v gs = writeFields s off v (fs ++ gs) := List.foldl_append.symm

/-- A checked field is written as a list of one field or of none. -/
theorem writeChecked_eq (s : State) (off v lo w : Nat) (ok : Nat → Bool) :
    writeChecked s off v lo w ok = writeFields s off v (if ok (fieldOf v lo w) then [(lo, w)] else []) := by
  unfold writeChecked
  split <;> rfl

/-- A write that is ignored writes no field. -/
theorem writeFields_ite (s : State) (off v : Nat) (p : Prop) [Decidable p] (fs : List (Nat × Nat)) :
    (if p then s else writeFields s off v fs) = writeFields s off v (if p then [] else fs) := by
  split <;> rfl

/-! ## The register that an offset names -/

theorem exec_registerWrite {s : State} (on : s.powered = true) (off : BitVec 20) (v : DWord) :
    exec (.registerWrite off v) s = .next (writeReg s off.toNat v.toNat) := by
  show withPower s (fun s => writeReg s off.toNat v.toNat) = _
  rw [withPower, if_pos on]

theorem writeReg_unaligned (s : State) {off : Nat} (h : off % 8 ≠ 0) (v : Nat) : writeReg s off v = s := by
  rw [writeReg, if_pos h]

theorem writeReg_modstat (s : State) (v : Nat) : writeReg s MODSTAT v = s := rfl
theorem writeReg_modctl (s : State) (v : Nat) : writeReg s MODCTL v = writeModctl s v := rfl
theorem writeReg_incarn (s : State) (v : Nat) :
    writeReg s INCARN v = writeIncarn (writeFields s INCARN v [(32, 16)]) (v % 2 ^ 16) := rfl
theorem writeReg_devnum (s : State) (v : Nat) : writeReg s DEVNUM v = writeDevnum s (v % 2 ^ 10) := rfl
theorem writeReg_llen (s : State) (v : Nat) : writeReg s LLEN v = writeLlen s v := rfl

/-- The offsets of the scheduler's registers (R148). -/
theorem writeReg_sched (s : State) (v : Nat) : ∀ off ∈ [0x9000, 0x9008, CSW, 0x9018], writeReg s off v = writeSched s off v := by
  simp only [List.forall_mem_cons, List.not_mem_nil, false_implies, implies_true, and_true]
  exact ⟨rfl, rfl, rfl, rfl⟩

/-- The windows of the block that hold one kind of register: a reserved one (R8), the counters of the dies (R20), the stacks (R54), the shape
records (R53) and the queues (R106). -/
theorem writeReg_window (s : State) {off : Nat} (aligned : off % 8 = 0) (v : Nat) :
    (0x60 ≤ off → off < 0x100 → writeReg s off v = s)
    ∧ (0x400 ≤ off → off < 0x800 → off % 0x100 / 8 < 14 → writeReg s off v = writeFields s off v [(0, 64)])
    ∧ (0x1000 ≤ off → off < 0x1400 → writeReg s off v = writeStk s ((off - 0x1000) / 0x80) (off % 0x80) v)
    ∧ (0x1800 ≤ off → off < 0x1C00 →
        writeReg s off v = if off % 0x10 = 0 then writeFields s off v [(21, 16)] else writeShcfg s off v)
    ∧ (0x8000 ≤ off → off < 0x8800 → writeReg s off v = writeQueue s ((off - 0x8000) / 0x20) (off % 0x20) v) := by
  unfold writeReg MODCTL INCARN DEVNUM ERRCNT0 ERRCNT1 LANTSTAT LLEN VTINV TFCLR TLBINV TRAPCNT PFQBASE PFQPTR PFRESP PFNOTE LERR LCNT
  simp only [Bool.and_eq_true, Bool.or_eq_true, decide_eq_true_eq]
  refine ⟨?_, ?_, ?_, ?_, ?_⟩ <;> intros <;> simp (disch := omega) only [if_neg, if_pos]

theorem writeReg_reserved (s : State) {off : Nat} (lo : 0x60 ≤ off) (hi : off < 0x100) (v : Nat) : writeReg s off v = s := by
  by_cases aligned : off % 8 = 0
  · exact (writeReg_window s aligned v).1 lo hi
  · exact writeReg_unaligned s aligned v

theorem writeReg_counter (s : State) {d i : Nat} (hd : d < 4) (hi : i < 14) (v : Nat) :
    writeReg s (CNT d i) v = writeFields s (CNT d i) v [(0, 64)] := by
  have place : CNT d i = 0x400 + 0x100 * d + 8 * i := rfl
  obtain ⟨-, counters, -⟩ := writeReg_window s (off := CNT d i) (by omega) v
  exact counters (by omega) (by omega) (by omega)

theorem writeReg_stack (s : State) {n r : Nat} (hn : n < 8) (hr : r < 0x80) (aligned : r % 8 = 0) (v : Nat) :
    writeReg s (STK n r) v = writeStk s n r v := by
  have place : STK n r = 0x1000 + 0x80 * n + r := rfl
  obtain ⟨-, -, stk, -⟩ := writeReg_window s (off := STK n r) (by omega) v
  rw [stk (by omega) (by omega), show (STK n r - 0x1000) / 0x80 = n by omega, show STK n r % 0x80 = r by omega]

theorem writeReg_shapeBase (s : State) {d i : Nat} (hd : d < 4) (hi : i < 16) (v : Nat) :
    writeReg s (SHBASE d i) v = writeFields s (SHBASE d i) v [(21, 16)] := by
  have place : SHBASE d i = 0x1800 + 0x100 * d + 0x10 * i := rfl
  obtain ⟨-, -, -, shapes, -⟩ := writeReg_window s (off := SHBASE d i) (by omega) v
  rw [shapes (by omega) (by omega), if_pos (by omega)]

theorem writeReg_shapeCfg (s : State) {d i : Nat} (hd : d < 4) (hi : i < 16) (v : Nat) :
    writeReg s (SHCFG d i) v = writeShcfg s (SHCFG d i) v := by
  have place : SHCFG d i = 0x1808 + 0x100 * d + 0x10 * i := rfl
  obtain ⟨-, -, -, shapes, -⟩ := writeReg_window s (off := SHCFG d i) (by omega) v
  rw [shapes (by omega) (by omega), if_neg (by omega)]

/-- The register at `r` of a queue's block. -/
theorem writeReg_queue (s : State) {off q r : Nat} (place : off = 0x8000 + 0x20 * q + r) (hq : q < 64) (hr : r < 0x20) (aligned : r % 8 = 0)
    (v : Nat) : writeReg s off v = writeQueue s q r v := by
  obtain ⟨-, -, -, -, queues⟩ := writeReg_window s (off := off) (by omega) v
  rw [queues (by omega) (by omega), show (off - 0x8000) / 0x20 = q by omega, show off % 0x20 = r by omega]

/-! ## What a write without a command writes -/

theorem writeStk_refresh (s : State) (n v : Nat) : writeStk s n 0x00 v
    = writeFields s (STK n 0) v ([(16, 1), (17, 5)] ++ if 100 ≤ fieldOf v 0 16 then [(0, 16)] else []) := by
  show writeChecked (writeFields s (STK n 0) v [(16, 1), (17, 5)]) (STK n 0) v 0 16 (fun x => decide (100 ≤ x)) = _
  rw [writeChecked_eq, writeFields_append]
  simp only [decide_eq_true_eq]

theorem writeStk_scrub (s : State) (n v : Nat) : writeStk s n 0x20 v
    = writeFields s (STK n 0x20) v ([(16, 1)] ++ if fieldOf v 0 16 ≠ 0 then [(0, 16)] else []) := by
  show writeChecked (writeFields s (STK n 0x20) v [(16, 1)]) (STK n 0x20) v 0 16 (· != 0) = _
  rw [writeChecked_eq, writeFields_append]
  simp only [bne_iff_ne]

theorem writeShcfg_eq (s : State) (off v : Nat) : writeShcfg s off v
    = writeFields s off v ([(0, 1), (8, 3), (48, 16)] ++ (if 7 ≤ fieldOf v 1 5 then [(1, 5)] else [])
      ++ if fieldOf v 16 6 ≤ 20 ∧ fieldOf v 16 6 ≠ 15 then [(16, 6)] else []) := by
  unfold writeShcfg
  simp only [writeChecked_eq, writeFields_append, Bool.and_eq_true, decide_eq_true_eq, bne_iff_ne]

/-- A write of QBASE is ignored while the queue is enabled, and a BASE with [38:37] ≠ 0 is reserved (R106). -/
theorem writeQueue_base (s : State) (q v : Nat) : writeQueue s q 0x00 v
    = writeFields s (QBASE q) v (if s.field (QCTL q) 0 1 = 1 ∨ fieldOf v 37 2 ≠ 0 then [] else [(16, 23)]) := by
  have top : fieldOf v 16 23 / 2 ^ 21 = fieldOf v 37 2 := by
    unfold fieldOf
    omega
  show (if queueEnabled s q then s else writeChecked s (QBASE q) v 16 23 fun x => x / 2 ^ 21 == 0) = _
  rw [writeChecked_eq, top, writeFields_ite]
  simp only [queueEnabled, beq_iff_eq]
  by_cases enabled : s.field (QCTL q) 0 1 = 1 <;> by_cases fits : fieldOf v 37 2 = 0 <;> simp [enabled, fits]

theorem writeQueue_seq (s : State) (q v : Nat) : writeQueue s q 0x10 v
    = writeFields s (QSEQ q) v (if s.field (QCTL q) 0 1 = 1 then [] else [(0, 32)]) := by
  show (if queueEnabled s q then s else writeFields s (QSEQ q) v [(0, 32)]) = _
  rw [writeFields_ite]
  simp only [queueEnabled, beq_iff_eq]

/-- The pool's registers, while the pool is in use or not (R148). -/
theorem writeSched_pool (s : State) (v : Nat) :
    writeSched s 0x9000 v = writeFields s 0x9000 v (if s.field 0x9008 32 24 = 0 then [(16, 23)] else [])
    ∧ writeSched s 0x9008 v = writeFields s 0x9008 v (if s.field 0x9008 32 24 = 0 then [(0, 24)] else []) := by
  by_cases free : s.field 0x9008 32 24 = 0 <;> simp [writeSched, CTXSIZE, writeFields, free]

theorem incarn_lock_kept (s : State) (v : Nat) : (writeFields s INCARN v [(32, 16)]).field INCARN 16 1 = s.field INCARN 16 1 :=
  State.field_setField_apart s INCARN (lo := 32) (w := 16) (lo' := 16) (w' := 1) (by decide) (by decide) _

/-- INCARN once it is locked (R31). -/
theorem writeReg_incarn_locked {s : State} (locked : s.field INCARN 16 1 = 1) (v : Nat) :
    writeReg s INCARN v = writeFields s INCARN v [(32, 16)] := by
  rw [writeReg_incarn, writeIncarn, incarn_lock_kept, locked, if_neg Nat.one_ne_zero]

theorem writeReg_devnum_locked {s : State} (locked : s.field DEVNUM 16 1 = 1) (v : Nat) :
    writeReg s DEVNUM v = writeFields s DEVNUM v [] := by
  rw [writeReg_devnum, writeDevnum, locked, if_neg Nat.one_ne_zero]
  rfl

/-- MODCTL as its commands and its one field (R17). -/
theorem writeModctl_eq (s : State) (v : Nat) : writeModctl s v
    = (let u := writeFields s MODCTL v [(1, 1)]
       let u := if fieldOf v 2 1 = 1 then enterFatal u 6 else u
       if fieldOf v 0 1 = 1 then warmReset u (fieldOf v 1 1 == 1) else u) := rfl

theorem writeReg_queueControl (s : State) {q : Nat} (hq : q < 64) (v : Nat) : writeReg s (QCTL q) v
    = if fieldOf v 15 1 = 1 then startAbort (writeFields s (QCTL q) v [(0, 1), (8, 3), (14, 1)]) q
      else writeFields s (QCTL q) v [(0, 1), (8, 3), (14, 1)] :=
  writeReg_queue s (r := 0x08) (by unfold QCTL; omega) hq (by decide) (by decide) v

/-- CSW while no switch is under way (R148). -/
theorem writeReg_csw {s : State} (idle : s.field CSW 63 1 ≠ 1) (v : Nat) : writeReg s CSW v
    = if fieldOf v 8 2 = 1 then suspendQueue (writeFields s CSW v [(0, 6)]) (fieldOf v 0 6)
      else if fieldOf v 8 2 = 2 then resumeQueue (writeFields s CSW v [(0, 6)]) (fieldOf v 0 6)
      else writeFields s CSW v [(0, 6)] := by
  rw [writeReg_sched s v CSW (by simp)]
  show (if s.field CSW 63 1 = 1 then s else _) = _
  rw [if_neg idle]

/-- A write of a register that only sets fields. -/
theorem writesFields_of_eq {s : State} {v : DWord} {off : Nat} {fs : List (Nat × Nat)} (on : s.powered = true) (reach : off < 2 ^ 20)
    (placed : Placed fs) (h : writeReg s off v.toNat = writeFields s off v.toNat fs) : WritesFields s v off fs := by
  refine ⟨_, exec_registerWrite on _ v, ?_⟩
  rw [BitVec.toNat_ofNat, Nat.mod_eq_of_lt reach, h]
  exact wrote_writeFields s off v.toNat placed

theorem module_plainWrites {s : State} (on : s.powered = true) (v : DWord) :
    (s.field INCARN 16 1 = 1 → WritesFields s v INCARN [(32, 16)])
    ∧ (s.field DEVNUM 16 1 = 1 → WritesFields s v DEVNUM [])
    ∧ (fieldOf v.toNat 0 1 = 0 ∧ fieldOf v.toNat 2 1 = 0 → WritesFields s v MODCTL [(1, 1)]) := by
  refine ⟨fun locked => ?_, fun locked => ?_, fun ⟨noReset, noDump⟩ => ?_⟩
  · exact writesFields_of_eq on (by decide) (by decide) (writeReg_incarn_locked locked _)
  · exact writesFields_of_eq on (by decide) (by decide) (writeReg_devnum_locked locked _)
  · refine writesFields_of_eq on (by decide) (by decide) ?_
    rw [writeReg_modctl, writeModctl_eq, noReset, noDump]
    rfl

theorem die_plainWrites {s : State} (on : s.powered = true) (v : DWord) {d i : Nat} (hd : d < 4) (hi : i < 16) :
    WritesFields s v (CNT d (i % 14)) [(0, 64)] ∧ WritesFields s v (SHBASE d i) [(21, 16)]
    ∧ WritesFields s v (SHCFG d i) ([(0, 1), (8, 3), (48, 16)] ++ (if 7 ≤ fieldOf v.toNat 1 5 then [(1, 5)] else [])
      ++ if fieldOf v.toNat 16 6 ≤ 20 ∧ fieldOf v.toNat 16 6 ≠ 15 then [(16, 6)] else []) := by
  refine ⟨?_, ?_, ?_⟩
  · exact writesFields_of_eq on (by unfold CNT; omega) (by decide) (writeReg_counter s hd (Nat.mod_lt _ (by decide)) _)
  · exact writesFields_of_eq on (by unfold SHBASE; omega) (by decide) (writeReg_shapeBase s hd hi _)
  · refine writesFields_of_eq on (by unfold SHCFG; omega) ?_ ((writeReg_shapeCfg s hd hi _).trans (writeShcfg_eq s _ _))
    split <;> split <;> decide

theorem stack_plainWrites {s : State} (on : s.powered = true) (v : DWord) {n : Nat} (hn : n < 8) :
    WritesFields s v (STK n 0) ([(16, 1), (17, 5)] ++ if 100 ≤ fieldOf v.toNat 0 16 then [(0, 16)] else [])
    ∧ WritesFields s v (STK n 0x20) ([(16, 1)] ++ if fieldOf v.toNat 0 16 ≠ 0 then [(0, 16)] else [])
    ∧ WritesFields s v (STK n 0x28) [(0, 64)] := by
  have reach {r : Nat} (hr : r < 0x80) : STK n r < 2 ^ 20 := by unfold STK; omega
  have reg {r : Nat} (hr : r < 0x80) (aligned : r % 8 = 0) := writeReg_stack s hn hr aligned v.toNat
  refine ⟨?_, ?_, ?_⟩
  · refine writesFields_of_eq on (reach (by decide)) ?_ ((reg (by decide) (by decide)).trans (writeStk_refresh s n _))
    split <;> decide
  · refine writesFields_of_eq on (reach (by decide)) ?_ ((reg (by decide) (by decide)).trans (writeStk_scrub s n _))
    split <;> decide
  · exact writesFields_of_eq on (reach (by decide)) (by decide) (reg (by decide) (by decide))

theorem queue_plainWrites {s : State} (on : s.powered = true) (v : DWord) {q : Nat} (hq : q < 64) :
    WritesFields s v (QBASE q) (if s.field (QCTL q) 0 1 = 1 ∨ fieldOf v.toNat 37 2 ≠ 0 then [] else [(16, 23)])
    ∧ WritesFields s v (QSEQ q) (if s.field (QCTL q) 0 1 = 1 then [] else [(0, 32)])
    ∧ WritesFields s v (QSTAT q) [(48, 16)]
    ∧ (fieldOf v.toNat 15 1 = 0 → WritesFields s v (QCTL q) [(0, 1), (8, 3), (14, 1)]) := by
  have reg {off r : Nat} (place : off = 0x8000 + 0x20 * q + r) (hr : r < 0x20) (aligned : r % 8 = 0) :=
    writeReg_queue s place hq hr aligned v.toNat
  refine ⟨?_, ?_, ?_, fun noAbort => ?_⟩
  · refine writesFields_of_eq on (by unfold QBASE; omega) ?_
      ((reg (r := 0x00) rfl (by decide) (by decide)).trans (writeQueue_base s q _))
    split <;> decide
  · refine writesFields_of_eq on (by unfold QSEQ; omega) ?_
      ((reg (r := 0x10) (by unfold QSEQ; omega) (by decide) (by decide)).trans (writeQueue_seq s q _))
    split <;> decide
  · exact writesFields_of_eq on (by unfold QSTAT; omega) (by decide)
      (reg (r := 0x18) (by unfold QSTAT; omega) (by decide) (by decide))
  · refine writesFields_of_eq on (by unfold QCTL; omega) (by decide) ?_
    rw [writeReg_queueControl s hq, noAbort, if_neg Nat.zero_ne_one]

theorem sched_plainWrites {s : State} (on : s.powered = true) (v : DWord) :
    WritesFields s v 0x9000 (if s.field 0x9008 32 24 = 0 then [(16, 23)] else [])
    ∧ WritesFields s v 0x9008 (if s.field 0x9008 32 24 = 0 then [(0, 24)] else [])
    ∧ WritesFields s v 0x9018 [(0, 64)]
    ∧ (s.field CSW 63 1 = 1 → WritesFields s v CSW [])
    ∧ (s.field CSW 63 1 ≠ 1 → fieldOf v.toNat 8 2 = 0 ∨ fieldOf v.toNat 8 2 = 3 → WritesFields s v CSW [(0, 6)]) := by
  have reg := writeReg_sched s v.toNat
  obtain ⟨base, size⟩ := writeSched_pool s v.toNat
  refine ⟨?_, ?_, ?_, fun busy => ?_, fun idle noCommand => ?_⟩
  · refine writesFields_of_eq on (by decide) ?_ ((reg _ (by simp)).trans base)
    split <;> decide
  · refine writesFields_of_eq on (by decide) ?_ ((reg _ (by simp)).trans size)
    split <;> decide
  · exact writesFields_of_eq on (by decide) (by decide) (reg _ (by simp))
  · refine writesFields_of_eq on (by decide) (by decide) ((reg _ (by simp)).trans ?_)
    show (if s.field CSW 63 1 = 1 then s else _) = s
    rw [if_pos busy]
  · refine writesFields_of_eq on (by decide) (by decide) ?_
    rw [writeReg_csw idle, if_neg (by omega), if_neg (by omega)]

theorem forall_mem_ite_singleton {α : Type} {p : Prop} [Decidable p] {a : α} {P : α → Prop} (h : p → P a) :
    ∀ x ∈ (if p then [a] else []), P x := by
  split
  · simpa using h ‹p›
  · simp

theorem registerFieldsAreWritten : RegisterFieldsAreWritten := by
  intro s v on
  refine ⟨fun off readOnly => ?_, fun d i n q hd hi hn hq => ?_⟩
  · rw [exec_registerWrite on]
    rcases readOnly with unaligned | status | ⟨lo, hi⟩
    · rw [writeReg_unaligned s unaligned]
    · rw [status, writeReg_modstat]
    · rw [writeReg_reserved s lo hi]
  · obtain ⟨incarn, devnum, modctl⟩ := module_plainWrites on v
    obtain ⟨counter, shapeBase, shapeCfg⟩ := die_plainWrites on v hd hi
    obtain ⟨refresh, scrub, scrubStat⟩ := stack_plainWrites on v hn
    obtain ⟨base, seq, stat, control⟩ := queue_plainWrites on v hq
    obtain ⟨poolBase, poolSize, schedCnt, cswBusy, cswIdle⟩ := sched_plainWrites on v
    simp only [plainWrites, List.forall_mem_append]
    refine ⟨⟨⟨⟨⟨?_, ?_⟩, ?_⟩, ?_⟩, ?_⟩, ?_⟩
    · simp only [List.forall_mem_cons]
      exact ⟨counter, shapeBase, shapeCfg, refresh, scrub, scrubStat, base, seq, stat, poolBase, poolSize, schedCnt, by simp⟩
    · exact forall_mem_ite_singleton incarn
    · exact forall_mem_ite_singleton devnum
    · exact forall_mem_ite_singleton control
    · exact forall_mem_ite_singleton modctl
    · by_cases busy : s.field CSW 63 1 = 1
      · simpa [busy] using cswBusy busy
      · rw [if_neg busy]
        exact forall_mem_ite_singleton (cswIdle busy)

/-! ## Commands -/

theorem withPower_on {s : State} (on : s.powered = true) (f : State → State) : withPower s f = .next (f s) := if_pos on

@[simp] theorem writeFields_powered (s : State) (off v : Nat) (fs : List (Nat × Nat)) : (writeFields s off v fs).powered = s.powered := by
  induction fs generalizing s with
  | nil => rfl
  | cons f fs ih => exact (ih _).trans (State.setField_powered ..)

/-- A written field reads as the value written. -/
theorem field_writeFields_singleton (s : State) (off v : Nat) {lo w : Nat} (h : lo + w ≤ 64) :
    (writeFields s off v [(lo, w)]).field off lo w = fieldOf v lo w :=
  (State.field_setField_self s off h _).trans (Nat.mod_mod _ _)

/-- A dump, or a reset, through MODCTL (R17). -/
theorem modctl_commands {s : State} (on : s.powered = true) (v : DWord) {off : BitVec 20} (place : off.toNat = MODCTL) :
    ∃ u, Wrote s u MODCTL [(1, 1, fieldOf v.toNat 1 1)]
      ∧ (fieldOf v.toNat 2 1 = 1 → fieldOf v.toNat 0 1 = 0 → exec (.registerWrite off v) s = exec .hostDump u)
      ∧ (fieldOf v.toNat 2 1 = 0 → fieldOf v.toNat 0 1 = 1 → exec (.registerWrite off v) s = exec .warmReset u) := by
  have powered : (writeFields s MODCTL v.toNat [(1, 1)]).powered = true := by rw [writeFields_powered, on]
  refine ⟨writeFields s MODCTL v.toNat [(1, 1)], wrote_writeFields s MODCTL v.toNat (by decide), fun dump noReset => ?_,
    fun noDump reset => ?_⟩ <;> rw [exec_registerWrite on, place, writeReg_modctl, writeModctl_eq]
  · rw [dump, noReset]
    exact (withPower_on powered fun s => enterFatal s 6).symm
  · rw [noDump, reset, ← field_writeFields_singleton s MODCTL v.toNat (lo := 1) (w := 1) (by decide)]
    exact (withPower_on powered fun s => warmReset s (s.field MODCTL 1 1 == 1)).symm

/-- The identity is written while it is not locked, and the write locks it (R31, R231). -/
theorem identity_commands {s : State} (on : s.powered = true) (v : DWord) (off : BitVec 20) :
    (off.toNat = INCARN → s.field INCARN 16 1 = 0 → ∃ t, exec (.registerWrite off v) s = .next t
      ∧ Wrote s t INCARN [(0, 16, v.toNat % 2 ^ 16), (16, 1, 1), (32, 16, fieldOf v.toNat 32 16)])
    ∧ (off.toNat = DEVNUM → s.field DEVNUM 16 1 = 0 → ∃ t, exec (.registerWrite off v) s = .next t
      ∧ Wrote s t DEVNUM [(0, 10, v.toNat % 2 ^ 10), (16, 1, 1)]) := by
  refine ⟨fun place free => ⟨_, exec_registerWrite on off v, ?_⟩, fun place free => ⟨_, exec_registerWrite on off v, ?_⟩⟩
  · rw [place, writeReg_incarn, writeIncarn, incarn_lock_kept, if_pos free]
    have stale : Wrote s (writeFields s INCARN v.toNat [(32, 16)]) INCARN [(32, 16, fieldOf v.toNat 32 16)] :=
      wrote_writeFields s INCARN v.toNat (by decide)
    have number := Wrote.setField (lo := 0) (w := 16) (fs := []) stale (by decide) (by simp) (v.toNat % 2 ^ 16)
    exact Wrote.setField (lo := 16) (w := 1) (fs := [(0, 16, v.toNat % 2 ^ 16)]) number (by decide) (by simp [Apart]) 1
  · rw [place, writeReg_devnum, writeDevnum, if_pos free]
    have number := Wrote.setField (lo := 0) (w := 10) (fs := []) (Wrote.refl s DEVNUM) (by decide) (by simp) (v.toNat % 2 ^ 10)
    exact Wrote.setField (lo := 16) (w := 1) (fs := [(0, 10, v.toNat % 2 ^ 10)]) number (by decide) (by simp [Apart]) 1

theorem abort_command {s : State} (on : s.powered = true) (v : DWord) {off : BitVec 20} {q : BitVec 6} (place : off.toNat = QCTL q.toNat)
    (abort : fieldOf v.toNat 15 1 = 1) : ∃ u,
      Wrote s u (QCTL q.toNat) [(0, 1, fieldOf v.toNat 0 1), (8, 3, fieldOf v.toNat 8 3), (14, 1, fieldOf v.toNat 14 1)]
      ∧ exec (.registerWrite off v) s = exec (.queueAbort q) u := by
  refine ⟨_, wrote_writeFields s (QCTL q.toNat) v.toNat (fs := [(0, 1), (8, 3), (14, 1)]) (by decide), ?_⟩
  rw [exec_registerWrite on, place, writeReg_queueControl s q.isLt, if_pos abort]
  exact (withPower_on (by rw [writeFields_powered, on]) fun s => startAbort s q.toNat).symm

/-- Suspension and resumption through CSW (R148). -/
theorem csw_commands {s : State} (on : s.powered = true) (v : DWord) {off : BitVec 20} {q : BitVec 6} (place : off.toNat = CSW)
    (idle : s.field CSW 63 1 = 0) (named : q.toNat = fieldOf v.toNat 0 6) : ∃ u, Wrote s u CSW [(0, 6, q.toNat)]
      ∧ (fieldOf v.toNat 8 2 = 1 → exec (.registerWrite off v) s = exec (.cswSuspend q) u)
      ∧ (fieldOf v.toNat 8 2 = 2 → exec (.registerWrite off v) s = exec (.cswResume q) u) := by
  have powered : (writeFields s CSW v.toNat [(0, 6)]).powered = true := by rw [writeFields_powered, on]
  refine ⟨writeFields s CSW v.toNat [(0, 6)], ?_, fun suspend => ?_, fun resume => ?_⟩
  · rw [named]
    exact wrote_writeFields s CSW v.toNat (by decide)
  · rw [exec_registerWrite on, place, writeReg_csw (by omega), if_pos suspend, ← named]
    exact (withPower_on powered fun s => suspendQueue s q.toNat).symm
  · rw [exec_registerWrite on, place, writeReg_csw (by omega), if_neg (by omega), if_pos resume, ← named]
    exact (withPower_on powered fun s => resumeQueue s q.toNat).symm

/-! ## LLEN (R28) -/

theorem fieldOf_one (v i : Nat) : fieldOf v i 1 = (v.testBit i).toNat := (Nat.toNat_testBit v i).symm

theorem State.field_one (s : State) (off i : Nat) : s.field off i 1 = ((s.mreg off).getLsbD i).toNat := by
  rw [State.field, fieldOf_one, BitVec.testBit_toNat]

theorem testBit_zero_fieldOf_one (v i : Nat) : (fieldOf v i 1).testBit 0 = v.testBit i := by
  rw [testBit_fieldOf, decide_eq_true Nat.zero_lt_one, Bool.true_and, Nat.add_zero]

theorem State.getLsbD_of_field_one {s : State} {off v i : Nat} (h : s.field off i 1 = fieldOf v i 1) :
    (s.mreg off).getLsbD i = v.testBit i := by
  rw [← BitVec.testBit_toNat, ← testBit_zero_fieldOf_one, ← testBit_zero_fieldOf_one v, ← h, State.field]

theorem State.port_setPort_self (s : State) {p : Nat} (h : p < s.ports.length) (x : Port) : (s.setPort p x).port p = x := by
  simp [State.port, State.setPort, h]

theorem State.port_setPort_ne (s : State) {p r : Nat} (h : r ≠ p) (x : Port) : (s.setPort p x).port r = s.port r := by
  simp [State.port, State.setPort, List.getElem?_set_ne h.symm]

/-- A port is switched: its enable and its state take the value, with nothing outstanding. -/
def switchPort (s : State) (p b : Nat) : State := ((s.setField LLEN p 1 b).setPortState p b).setPort p Port.reset

theorem setPortEnable_eq (s : State) (p v : Nat) :
    setPortEnable s p (fieldOf v p 1 == 1) = if s.field LLEN p 1 = fieldOf v p 1 then s else switchPort s p (fieldOf v p 1) := by
  rw [setPortEnable, llEnabled, State.field_one, fieldOf_one]
  cases (s.mreg LLEN).getLsbD p <;> cases v.testBit p <;> rfl

theorem LLSTAT_ne_LLEN (p : Nat) : LLSTAT p ≠ LLEN := by unfold LLSTAT LLEN; omega

theorem LLSTAT_inj {p r : Nat} (h : r ≠ p) : LLSTAT r ≠ LLSTAT p := by unfold LLSTAT; omega

theorem switchPort_mreg_ne (s : State) (p b : Nat) {o : Nat} (h : o ≠ LLEN) (h' : o ≠ LLSTAT p) : (switchPort s p b).mreg o = s.mreg o :=
  (State.mreg_setField_ne _ h' ..).trans (State.mreg_setField_ne s h ..)

theorem switchPort_enables (s : State) {p : Nat} (hp : p < 64) (b i : Nat) :
    ((switchPort s p b).mreg LLEN).getLsbD i = if i = p then b.testBit 0 else (s.mreg LLEN).getLsbD i := by
  have apart : (switchPort s p b).mreg LLEN = (s.setField LLEN p 1 b).mreg LLEN := State.mreg_setField_ne _ (LLSTAT_ne_LLEN p).symm ..
  rw [apart, State.getLsbD_setField s LLEN (by omega)]
  by_cases here : i = p
  · rw [if_pos (by omega), if_pos here, here, Nat.sub_self]
  · rw [if_neg (by omega), if_neg here]

theorem switchPort_own (s : State) {p b : Nat} (hp : p < s.ports.length) (hb : b < 2) :
    (switchPort s p b).portState p = b ∧ (switchPort s p b).port p = Port.reset := by
  refine ⟨?_, State.port_setPort_self _ hp _⟩
  exact (State.field_setField_self _ (LLSTAT p) (by decide) b).trans (Nat.mod_eq_of_lt (by omega))

theorem switchPort_other (s : State) {p r : Nat} (h : r ≠ p) (b : Nat) :
    (switchPort s p b).portState r = s.portState r ∧ (switchPort s p b).port r = s.port r := by
  refine ⟨?_, State.port_setPort_ne _ h _⟩
  rw [State.portState, State.field, switchPort_mreg_ne s p b (LLSTAT_ne_LLEN r) (LLSTAT_inj h)]
  rfl

/-- The ports below `k` have taken the enables of `v`, and the others are as they were. -/
structure PortsTook (s t : State) (v k : Nat) : Prop where
  length : t.ports.length = 24
  others : OtherRegisters s t (LLEN :: (List.range 24).map LLSTAT)
  enables : ∀ i, (t.mreg LLEN).getLsbD i = if i < k then v.testBit i else (s.mreg LLEN).getLsbD i
  kept : ∀ p, k ≤ p ∨ s.field LLEN p 1 = fieldOf v p 1 → t.portState p = s.portState p ∧ t.port p = s.port p
  switched : ∀ p, p < k → s.field LLEN p 1 ≠ fieldOf v p 1 → t.portState p = fieldOf v p 1 ∧ t.port p = Port.reset

theorem PortsTook.step {s t : State} {v k : Nat} (hk : k < 24) (h : PortsTook s t v k) :
    PortsTook s (setPortEnable t k (fieldOf v k 1 == 1)) v (k + 1) := by
  have own : t.field LLEN k 1 = s.field LLEN k 1 := by
    rw [State.field_one, State.field_one, h.enables, if_neg (lt_irrefl k)]
  have bit : fieldOf v k 1 < 2 := Nat.mod_lt _ (by decide)
  rw [setPortEnable_eq, own]
  split
  case isTrue same =>
    refine ⟨h.length, h.others, fun i => ?_, fun p hp => h.kept p (by omega), fun p hp differs => ?_⟩
    · rcases eq_or_ne i k with rfl | apart
      · rw [h.enables, if_neg (lt_irrefl i), if_pos (Nat.lt_succ_self i)]
        exact State.getLsbD_of_field_one same
      · have below : i < k ↔ i < k + 1 := by omega
        rw [h.enables, if_congr below rfl rfl]
    · have apart : p ≠ k := fun e => differs (e ▸ same)
      exact h.switched p (by omega) differs
  case isFalse differs =>
    refine ⟨by simpa [switchPort, State.setPort, State.setPortState] using h.length, fun o ho => ?_, fun i => ?_, fun p hp => ?_,
      fun p hp differs => ?_⟩
    · simp only [List.mem_cons, List.mem_map, List.mem_range, not_or, not_exists, not_and] at ho
      rw [switchPort_mreg_ne t k _ ho.1 (fun e => ho.2 k hk e.symm)]
      exact h.others o (by simpa using ho)
    · rw [switchPort_enables t (by omega), h.enables]
      rcases eq_or_ne i k with rfl | apart
      · rw [if_pos rfl, if_pos (Nat.lt_succ_self i), testBit_zero_fieldOf_one]
      · have below : i < k ↔ i < k + 1 := by omega
        rw [if_neg apart, if_congr below rfl rfl]
    · have apart : p ≠ k := by rintro rfl; omega
      obtain ⟨state, port⟩ := switchPort_other t apart (fieldOf v k 1)
      rw [state, port]
      exact h.kept p (by omega)
    · rcases eq_or_ne p k with rfl | apart
      · exact switchPort_own t (by rw [h.length]; exact hk) bit
      · obtain ⟨state, port⟩ := switchPort_other t apart (fieldOf v k 1)
        rw [state, port]
        exact h.switched p (by omega) differs

theorem portsTook_writeLlen {s : State} (ports : s.ports.length = 24) (v : Nat) : PortsTook s (writeLlen s v) v 24 := by
  have upTo : ∀ k, k ≤ 24 →
      PortsTook s ((List.range k).foldl (fun s p => setPortEnable s p (fieldOf v p 1 == 1)) s) v k := by
    intro k hk
    induction k with
    | zero => exact ⟨ports, fun _ _ => rfl, fun _ => rfl, fun _ _ => ⟨rfl, rfl⟩, fun p hp => absurd hp (Nat.not_lt_zero p)⟩
    | succ k ih =>
      rw [List.range_succ, List.foldl_concat]
      exact (ih (by omega)).step hk
  exact upTo 24 le_rfl

theorem llen_command {s : State} (on : s.powered = true) (v : DWord) {off : BitVec 20} (place : off.toNat = LLEN) (ports : s.ports.length = 24) :
    ∃ t, exec (.registerWrite off v) s = .next t
      ∧ t.field LLEN 0 24 = v.toNat % 2 ^ 24 ∧ t.field LLEN 24 40 = s.field LLEN 24 40
      ∧ OtherRegisters s t (LLEN :: (List.range 24).map LLSTAT)
      ∧ ∀ p, p < 24 → (s.field LLEN p 1 = fieldOf v.toNat p 1 → t.portState p = s.portState p ∧ t.port p = s.port p)
        ∧ (s.field LLEN p 1 ≠ fieldOf v.toNat p 1 → t.portState p = fieldOf v.toNat p 1 ∧ t.port p = Port.reset) := by
  have took := portsTook_writeLlen ports v.toNat
  refine ⟨_, exec_registerWrite on off v, ?_⟩
  rw [place, writeReg_llen]
  refine ⟨?_, ?_, took.others, fun p hp => ⟨fun same => took.kept p (.inr same), took.switched p hp⟩⟩
  · refine Nat.eq_of_testBit_eq fun i => ?_
    rw [State.field, testBit_fieldOf, BitVec.testBit_toNat, Nat.zero_add, took.enables, Nat.testBit_mod_two_pow]
    by_cases low : i < 24 <;> simp [low]
  · refine Nat.eq_of_testBit_eq fun i => ?_
    rw [State.field, State.field, testBit_fieldOf, testBit_fieldOf, BitVec.testBit_toNat, BitVec.testBit_toNat, took.enables,
      if_neg (by omega)]

theorem registerCommandsAct : RegisterCommandsAct := fun _ v on =>
  ⟨fun _ place => modctl_commands on v place, fun _ place ports => llen_command on v place ports, fun off => (identity_commands on v off).1,
    fun off => (identity_commands on v off).2, fun _ _ place abort => abort_command on v place abort,
    fun _ _ place idle named => csw_commands on v place idle named⟩

/-- Settles O53: each register's write is a list of fields that share no bit, or those fields and then the command that a field of it gives;
LLEN by induction on the ports. -/
theorem registerWritesReachWritableFields : Obligations.RegisterWritesReachWritableFields :=
  ⟨registerFieldsAreWritten, registerCommandsAct⟩

end Sys2Proof.Machine
end

section
/-! PROOF. The state after power, the power gate of every event, and the lane instructions that go on (R14, R16, R33, R53, R58, R64, R106, R152). -/

namespace Sys2Proof.Machine

/-! ## Reset values -/

theorem State.mreg_reset (off : Nat) : State.reset.mreg off = mregReset off := rfl

theorem mregReset_refresh {n : Nat} (hn : n < 8) : mregReset (STK n 0) = 390#64 := by
  unfold mregReset STK
  rw [if_neg (by omega), if_neg (by omega), if_pos (by omega)]

theorem mregReset_scrub {n : Nat} (hn : n < 8) : mregReset (STK n 0x20) = 0x10018#64 := by
  unfold mregReset STK
  rw [if_neg (by omega), if_neg (by omega), if_neg (by omega), if_pos (by omega)]

theorem mregReset_shapeCfg {d i : Nat} (hd : d < 4) (hi : i < 16) : mregReset (SHCFG d i) = 0xE#64 := by
  unfold mregReset SHCFG
  rw [if_neg (by omega), if_neg (by omega), if_neg (by omega), if_neg (by omega), if_pos (by omega)]

theorem mregReset_queueControl (q : Nat) : mregReset (QCTL q) = 0#64 := by
  unfold mregReset QCTL
  rw [if_neg (by omega), if_neg (by omega), if_neg (by omega), if_neg (by omega), if_neg (by omega)]

theorem reset_die_up (d : Nat) : (State.reset.die d).up = false := by
  show (((List.replicate 4 Die.reset)[d]?).getD Die.reset).up = false
  rw [List.getElem?_replicate]
  split <;> rfl

/-- Settles O59: at reset the register block lists nothing, so each register reads as its reset value. -/
theorem resetIsAsTheManualSays : Obligations.ResetIsAsTheManualSays := by
  refine ⟨rfl, by decide, fun d _ => reset_die_up d, rfl, rfl, rfl, fun n hn => ⟨?_, ?_⟩, fun d i hd hi => ?_, fun q _ => ?_,
    ⟨rfl, rfl⟩, ⟨rfl, rfl, rfl, rfl, rfl⟩⟩
  · rw [State.field, State.mreg_reset, mregReset_refresh hn]
    rfl
  · rw [State.mreg_reset, mregReset_scrub hn]
  · rw [State.mreg_reset, mregReset_shapeCfg hd hi]
  · rw [queueEnabled, State.field, State.mreg_reset, mregReset_queueControl]
    rfl

/-! ## The power gate (R14) -/

theorem withPower_off {s : State} (off : s.powered = false) (f : State → State) : withPower s f = .fault .noPower := by
  rw [withPower, off, if_neg Bool.false_ne_true]

/-- Every event but the application of module power is an act of the powered module. -/
theorem exec_event {i : Instr} (event : isEvent i = true) (other : i ≠ .coldPowerOn) : ∃ f, ∀ s, exec i s = withPower s f := by
  cases i
  case coldPowerOn => exact absurd rfl other
  -- The instructions of teams come before the events in the table.
  all_goals try exact absurd event Bool.false_ne_true
  all_goals exact ⟨_, fun _ => rfl⟩

/-! ## Lane instructions go on (R152) -/

/-- An instruction that issues under a form goes on. -/
def GoesOn (i : Instr) (p : LPre) (f : Form) (d a b : Byte) : Prop :=
  ∀ s t, LaneRuns s t p f d.toNat a.toNat b.toNat → ∃ u, exec i s = .next (s.setTeam s.cur u) ∧ Moved t u p.rep (laneWords p 1)

/-- Under a mask with active lanes and under an empty one an instruction moves on. -/
theorem moved_of_gives {s : State} {r : Out} {t : Team} {p : LPre} {f : Form} {k : Codes} {w : Nat} {dead b : Bool} {res : Nat → Nat × FFlags}
    (h : ((effMask t p).1 ≠ 0#1024 → ∃ u, r = .next (s.setTeam s.cur u) ∧ LaneResult t u p f k w dead res)
      ∧ ((effMask t p).1 = 0#1024 → ∃ u, r = .next (s.setTeam s.cur u) ∧ u.status = t.status ||| deadBits b
        ∧ Moved t u p.rep (laneWords p 1) ∧ OnlyMoved t u)) :
    ∃ u, r = .next (s.setTeam s.cur u) ∧ Moved t u p.rep (laneWords p 1) := by
  obtain ⟨active, empty⟩ := h
  by_cases mask : (effMask t p).1 = 0#1024
  · obtain ⟨u, runs, -, moves, -⟩ := empty mask
    exact ⟨u, runs, moves⟩
  · obtain ⟨u, runs, result⟩ := active mask
    exact ⟨u, runs, result.moves⟩

/-- The end of a lane instruction moves on from a team that stood where `t` stands. -/
theorem moved_laneEnd {t v : Team} (pc : v.pc = t.pc) (rep : v.repIdx = t.repIdx) (p : LPre) (f : Form) (k : Codes) (dead : Bool) :
    Moved t (v.laneEnd p f k 1 dead) p.rep (laneWords p 1) := by
  obtain ⟨-, -, -, -, -, -, -, -, moves, -⟩ := Team.laneEnd_spec v p f k 1 dead
  unfold Moved at moves ⊢
  rwa [pc, rep] at moves

/-! ### The frames of lane instructions

`e` is the meaning that the instruction has in its own file. -/

section
variable {i : Instr} {p : LPre} {d a b : Byte} (e : State → Out) (arm : exec i = e)
include arm

theorem goesOn_laneCompute {f : Form} {w : Nat} {r : Reads} {eff : Args → Nat × FFlags} (width : w = 0 ∨ f.d ≠ .field ∧ f.d.width = w)
    (h : ∀ s, e s = laneCompute s p f d.toNat a.toNat b.toNat w r eff) : GoesOn i p f d a b := fun s t runs => by
  rw [arm, h]
  exact moved_of_gives (laneCompute_gives runs width)

theorem goesOn_laneInt {g : Nat → Nat → Nat} (h : ∀ s, e s = laneInt s p d a b g) :
    GoesOn i p (Form.of .l (.dst 1) (.src 1) (.src 1)) d a b := goesOn_laneCompute e arm (.inr ⟨Role.noConfusion, rfl⟩) h

theorem goesOn_laneInt1 {g : Nat → Nat} (h : ∀ s, e s = laneInt1 s p d a g) :
    GoesOn i p (Form.of .l (.dst 1) (.src 1) .field) d a 0 := goesOn_laneCompute e arm (.inr ⟨Role.noConfusion, rfl⟩) h

theorem goesOn_laneIntD {g : Nat → Nat → Nat → Nat} (h : ∀ s, e s = laneIntD s p d a b g) :
    GoesOn i p (Form.of .l (.rmw 1) (.src 1) (.src 1)) d a b := goesOn_laneCompute e arm (.inr ⟨Role.noConfusion, rfl⟩) h

theorem goesOn_laneIntSat {g : Int → Int → Int} (h : ∀ s, e s = laneIntSat s p d a b g) :
    GoesOn i p { Form.of .l (.dst 1) (.src 1) (.src 1) with sat := true } d a b :=
  goesOn_laneCompute e arm (.inr ⟨Role.noConfusion, rfl⟩) h

theorem goesOn_laneF1 {k : Kind} {g : Nat → Nat} (h : ∀ s, e s = laneF1 s p d a k g) :
    GoesOn i p (Form.of .l (.dst 1) (.src 1) .field) d a 0 := goesOn_laneCompute e arm (.inr ⟨Role.noConfusion, rfl⟩) h

theorem goesOn_laneF2 {pipe : Pipe} {k : Kind} {w : Nat} {rounds : Bool} {g : Nat → Nat → Nat × FFlags}
    (h : ∀ s, e s = laneF2 s p d a b pipe k w rounds g) :
    GoesOn i p { Form.of pipe (.dst w) (.src k.words) (.src k.words) with rounds := rounds, sat := rounds } d a b :=
  goesOn_laneCompute e arm (.inr ⟨Role.noConfusion, rfl⟩) h

theorem goesOn_laneFset {c : FTest} (h : ∀ s, e s = laneFset s p d a b c) :
    GoesOn i p { Form.of .l (.dst 1) (.src 1) (.src 1) with rounds := false, sat := false } d a b :=
  goesOn_laneF2 (k := .f32) (w := 1) (rounds := false) (g := cmpF c .fp32) e arm h

theorem goesOn_laneF3 {pipe : Pipe} {k kc : Kind} {g : Nat → Nat → Nat → Nat × FFlags}
    (h : ∀ s, e s = laneF3 s p d a b pipe k kc g) :
    GoesOn i p { Form.of pipe (.dst kc.words) (.src k.words) (.src k.words) with rounds := true, sat := true, c := .src kc.words } d a b :=
  goesOn_laneCompute e arm (.inr ⟨Role.noConfusion, rfl⟩) h

theorem goesOn_laneCross {f : Form} {r : Reads} {eff : Team → Mask → (Nat → Nat) → (Nat → Nat) → (Nat → Nat) → Nat → Nat × FFlags}
    (pipe : f.pipe = .x) (dest : f.d ≠ .field) (h : ∀ s, e s = laneCross s p f d.toNat a.toNat b.toNat f.d.width r eff) :
    GoesOn i p f d a b := fun s t runs => by
  rw [arm, h]
  exact moved_of_gives (laneCross_gives runs pipe ⟨dest, rfl⟩)

theorem goesOn_shuffle {g : Nat → Nat → Nat → Nat} (h : ∀ s, e s = shuffle s p d a b g) :
    GoesOn i p (Form.of .x (.dst 1) (.src 1) (.src 1)) d a b := goesOn_laneCross e arm rfl Role.noConfusion h

theorem goesOn_reduce {sat rounds : Bool} {k : Kind} {g : Team → Mask → (Nat → Nat) → Nat → Nat × FFlags}
    (h : ∀ s, e s = reduce s p d a sat rounds k g) :
    GoesOn i p { Form.of .x (.dst 1) (.src 1) .field with sat := sat, rounds := rounds } d a 0 :=
  goesOn_laneCross e arm rfl Role.noConfusion h

/-- An instruction whose body, where some lane is active, writes its destination and ends. -/
theorem goesOn_body {f : Form} {w : Nat} (width : f.d ≠ .field ∧ f.d.width = w) {body : State → Team → Codes → State}
    (h : ∀ s, e s = laneIssue s p f d.toNat a.toNat b.toNat body)
    (empty : ∀ s t k, (effMask t p).1 = 0#1024 → body s t k = passEmpty s p 1 (effMask t p).2)
    (active : ∀ s t k, (effMask t p).1 ≠ 0#1024 → (k.d < 160 → w = 0 ∨ k.d + w ≤ t.regs.length) → ∃ v dead,
      body s t k = s.setTeam s.cur (Team.laneEnd v p f k 1 dead) ∧ v.pc = t.pc ∧ v.repIdx = t.repIdx) : GoesOn i p f d a b := by
  intro s t runs
  rw [arm, h, laneIssue_runs runs]
  obtain ⟨team, -, checked, -, -⟩ := runs
  by_cases mask : (effMask t p).1 = 0#1024
  · obtain ⟨u, pass, -, moves, -⟩ := passEmpty_gives team p 1 (effMask t p).2
    exact ⟨u, by rw [empty s t _ mask, pass], moves⟩
  · obtain ⟨dest, width⟩ := width
    obtain ⟨v, dead, ends, pc, rep⟩ := active s t (laneCodes t p d.toNat a.toNat b.toNat) mask
      fun hd => .inr (by rw [← width]; exact check_dest checked dest hd)
    exact ⟨_, by rw [ends], moved_laneEnd pc rep ..⟩
end

theorem goesOn_rng (p : LPre) (d : Byte) : GoesOn (.rng p d) p (Form.of .l (.dst 1) .field .field) d 0 0 := by
  refine goesOn_body (w := 1) (execRng p d) rfl ⟨Role.noConfusion, rfl⟩ (fun s => by unfold execRng; rfl)
    (fun s t k empty => ?_) fun s t k active room => ?_
  · dsimp only
    rw [if_pos empty]
  · dsimp only
    rw [if_neg active]
    refine ⟨_, _, rfl, ?_, ?_⟩
    all_goals
      dsimp only
      generalize (fun l : Nat => BitVec.toNat _) = vals
      obtain ⟨-, -, -, pc, rep, -⟩ := Team.writeLanes_spec t .l 1 k.d (effMask t p).1 (pfxOf p).zm vals room
      assumption

theorem goesOn_actv (p : LPre) (d a b : Byte) :
    GoesOn (.actv p d a b) p { Form.of .x (.dst 1) (.src 1) .table with rounds := true, sat := true } d a b := by
  refine goesOn_body (w := 1) (execActv p d a b) rfl ⟨Role.noConfusion, rfl⟩ (fun s => by unfold execActv; rfl)
    (fun s t k empty => ?_) fun s t k active room => ?_
  · dsimp only
    rw [if_pos empty]
  · dsimp only
    rw [if_neg active]
    refine ⟨_, _, rfl, ?_, ?_⟩
    all_goals
      generalize (fun l : Nat => Prod.fst _) = vals
      obtain ⟨-, -, -, pc, rep, -⟩ := Team.writeLanes_spec t .x 1 k.d (effMask t p).1 (pfxOf p).zm vals room
      split <;> assumption

theorem goOn_singleton {i : Instr} {p : LPre} {f : Form} {d a b : Byte} (h : GoesOn i p f d a b) : GoOn p f d a b [i] := by
  intro j hj
  rw [List.mem_singleton.mp hj]
  exact h

/-! ### All lane instructions that compute -/

theorem laneInstructionsGoOn : LaneInstructionsGoOn := by
  intro p d a b i
  have nil {f : Form} {d a b : Byte} : ∀ i ∈ ([] : List Instr), GoesOn i p f d a b := fun _ h => absurd h List.not_mem_nil
  refine ⟨?_, ?_, ?_, ?_, ?_, ?_, ?_, ?_, ?_, ?_, ?_, ?_, ?_, ?_⟩
  all_goals try show ∀ i ∈ _, GoesOn i p _ _ _ _
  · exact goOn_singleton (goesOn_laneCompute (w := 0) (execNop p) rfl (.inl rfl) fun _ => rfl)
  · simp only [List.forall_mem_cons]
    exact ⟨goesOn_laneCompute (w := 1) (execMovi p d i) rfl (.inr ⟨Role.noConfusion, rfl⟩) fun _ => rfl, goesOn_rng p d, nil⟩
  · exact goOn_singleton (goesOn_laneCompute (w := 1) (execMovhi p d i) rfl (.inr ⟨Role.noConfusion, rfl⟩) fun _ => rfl)
  · exact goOn_singleton (goesOn_laneCompute (w := 1) (execIaddi p d i) rfl (.inr ⟨Role.noConfusion, rfl⟩) fun _ => rfl)
  · simp only [List.forall_mem_cons]
    exact ⟨goesOn_laneInt1 (execMov p d a) rfl fun _ => rfl, goesOn_laneInt1 (execPopc p d a) rfl fun _ => rfl,
      goesOn_laneInt1 (execClz p d a) rfl fun _ => rfl, goesOn_laneInt1 (execBrev p d a) rfl fun _ => rfl,
      goesOn_laneF1 (execFabs p d a) rfl fun _ => rfl, goesOn_laneF1 (execFneg p d a) rfl fun _ => rfl,
      goesOn_laneF1 (execFclass p d a) rfl fun _ => rfl, nil⟩
  · simp only [List.forall_mem_cons]
    exact ⟨goesOn_laneIntSat (execIadd p d a b) rfl fun _ => rfl, goesOn_laneIntSat (execIsub p d a b) rfl fun _ => rfl,
      goesOn_laneIntSat (execImul p d a b) rfl fun _ => rfl, nil⟩
  · exact goOn_singleton (goesOn_laneCompute (w := 1) (execImad p d a b) rfl (.inr ⟨Role.noConfusion, rfl⟩) fun _ => rfl)
  · exact goOn_singleton (goesOn_laneCompute (w := 1) (execPrmt p d a b) rfl (.inr ⟨Role.noConfusion, rfl⟩) fun _ => rfl)
  · exact goOn_singleton (goesOn_laneCompute (w := 2) (execIadd64 p d a b) rfl (.inr ⟨Role.noConfusion, rfl⟩) fun _ => rfl)
  · simp only [List.cons_append, List.nil_append, List.forall_mem_cons]
    exact ⟨goesOn_laneInt (execImulhi p d a b) rfl fun _ => rfl, goesOn_laneInt (execUmulhi p d a b) rfl fun _ => rfl,
      goesOn_laneInt (execImin p d a b) rfl fun _ => rfl, goesOn_laneInt (execImax p d a b) rfl fun _ => rfl,
      goesOn_laneInt (execUmin p d a b) rfl fun _ => rfl, goesOn_laneInt (execUmax p d a b) rfl fun _ => rfl,
      goesOn_laneInt (execAnd p d a b) rfl fun _ => rfl, goesOn_laneInt (execOr p d a b) rfl fun _ => rfl,
      goesOn_laneInt (execXor p d a b) rfl fun _ => rfl, goesOn_laneInt (execAndn p d a b) rfl fun _ => rfl,
      goesOn_laneInt (execShl p d a b) rfl fun _ => rfl, goesOn_laneInt (execShr p d a b) rfl fun _ => rfl,
      goesOn_laneInt (execSar p d a b) rfl fun _ => rfl, goesOn_laneInt (execRotl p d a b) rfl fun _ => rfl,
      goesOn_laneInt (execBfx p d a b) rfl fun _ => rfl, goesOn_laneInt (execBfxs p d a b) rfl fun _ => rfl,
      goesOn_laneInt (execIseteq p d a b) rfl fun _ => rfl, goesOn_laneInt (execIsetne p d a b) rfl fun _ => rfl,
      goesOn_laneInt (execIsetlt p d a b) rfl fun _ => rfl, goesOn_laneInt (execIsetle p d a b) rfl fun _ => rfl,
      goesOn_laneInt (execUsetlt p d a b) rfl fun _ => rfl, goesOn_laneInt (execUsetle p d a b) rfl fun _ => rfl, nil⟩
  · simp only [List.forall_mem_cons]
    exact ⟨goesOn_laneIntD (execBfi p d a b) rfl fun _ => rfl, goesOn_laneIntD (execSel p d a b) rfl fun _ => rfl, nil⟩
  · simp only [List.forall_mem_cons]
    exact ⟨goesOn_laneFset (execFseteq p d a b) rfl fun _ => rfl, goesOn_laneFset (execFsetne p d a b) rfl fun _ => rfl,
      goesOn_laneFset (execFsetlt p d a b) rfl fun _ => rfl, goesOn_laneFset (execFsetle p d a b) rfl fun _ => rfl,
      goesOn_laneFset (execFsetun p d a b) rfl fun _ => rfl, goesOn_laneF2 (k := .f32) (execFmin p d a b) rfl fun _ => rfl,
      goesOn_laneF2 (k := .f32) (execFmax p d a b) rfl fun _ => rfl, nil⟩
  · simp only [List.forall_mem_cons]
    exact ⟨goesOn_laneF2 (k := .f32) (execFadd p d a b) rfl fun _ => rfl, goesOn_laneF2 (k := .f32) (execFsub p d a b) rfl fun _ => rfl,
      goesOn_laneF2 (k := .f32) (execFmul p d a b) rfl fun _ => rfl,
      goesOn_laneCompute (w := 1) (execFscale p d a b) rfl (.inr ⟨Role.noConfusion, rfl⟩) fun _ => rfl,
      goesOn_laneF2 (k := .h16) (execHadd2 p d a b) rfl fun _ => rfl, goesOn_laneF2 (k := .h16) (execHmul2 p d a b) rfl fun _ => rfl, nil⟩
  · simp only [List.forall_mem_cons]
    exact ⟨goesOn_laneF3 (k := .f32) (kc := .f32) (execFfma p d a b) rfl fun _ => rfl,
      goesOn_laneF3 (k := .h16) (kc := .h16) (execHfma2 p d a b) rfl fun _ => rfl,
      goesOn_laneF3 (k := .hbf) (kc := .hbf) (execBfma2 p d a b) rfl fun _ => rfl,
      goesOn_laneF3 (k := .h16) (kc := .f32) (execFdot2 p d a b) rfl fun _ => rfl, nil⟩

theorem goesOn_cvt {p : LPre} {d a b : Byte} {c : CvtShape} (shape : cvtShape b.toNat = some c) :
    GoesOn (.cvt p d a b) p { Form.of .x (if c.merge then .rmw (if c.d64 then 2 else 1) else .dst (if c.d64 then 2 else 1))
      (.src (if c.a64 then 2 else 1)) .field with rounds := true, sat := true, c := if c.usesC then .src 1 else .field } d a 0 := by
  refine goesOn_laneCompute (w := if c.d64 then 2 else 1) (execCvt p d a b) rfl (.inr ?_) fun s => by rw [execCvt, shape]; rfl
  show (if c.merge then Role.rmw _ else .dst _) ≠ .field ∧ (if c.merge then Role.rmw _ else .dst _).width = _
  cases c.merge <;> exact ⟨Role.noConfusion, rfl⟩

theorem goesOn_sfu {p : LPre} {d a b : Byte} (known : b.toNat ≤ 8) :
    GoesOn (.sfu p d a b) p { Form.of .x (.dst 1) (.src 1) .field with rounds := true } d a 0 :=
  goesOn_laneCompute (w := 1) (execSfu p d a b) rfl (.inr ⟨Role.noConfusion, rfl⟩) fun s => by
    rw [execSfu, decide_eq_false (by omega)]; rfl

theorem goesOn_ballot (p : LPre) (d a : Byte) (s : State) (t : Team)
    (runs : LaneRuns s t p (Form.of .x (.dst (if t.cfg.spanS = 64 then 2 else 1)) (.src 1) .field) d.toNat a.toNat 0) :
    ∃ u, exec (.ballot p d a) s = .next (s.setTeam s.cur u) ∧ Moved t u p.rep (laneWords p 1) := by
  obtain ⟨u, cross, moves⟩ := moved_of_gives (laneCross_gives (w := if t.cfg.spanS = 64 then 2 else 1) (r := ⟨some .i32, none, none, none⟩)
    (eff := fun t mask av _ _ l => noFlags ((activeSpan t mask l).foldl (fun r m =>
      if av m % 2 = 1 then r + 2 ^ (m % t.cfg.spanS) else r) 0)) runs rfl ⟨Role.noConfusion, rfl⟩)
  refine ⟨u, ?_, moves⟩
  show execBallot p d a s = _
  rw [execBallot, withTeam_eq runs.1]
  dsimp only
  rw [cross]

theorem crossLaneInstructionsGoOn : CrossLaneInstructionsGoOn := by
  intro p d a b f1
  have nil {f : Form} {d a b : Byte} : ∀ i ∈ ([] : List Instr), GoesOn i p f d a b := fun _ h => absurd h List.not_mem_nil
  refine ⟨?_, ?_, ?_, ?_, fun c shape => ?_, fun known => ?_, ?_, ?_, ?_, ?_, ?_, ?_, goesOn_ballot p d a⟩
  all_goals try show ∀ i ∈ _, GoesOn i p _ _ _ _
  · simp only [List.forall_mem_cons]
    exact ⟨goesOn_laneF2 (k := .f64) (execDadd p d a b) rfl fun _ => rfl, goesOn_laneF2 (k := .f64) (execDmul p d a b) rfl fun _ => rfl,
      nil⟩
  · exact goOn_singleton (goesOn_laneF3 (k := .f64) (kc := .f64) (execDfma p d a b) rfl fun _ => rfl)
  · simp only [List.forall_mem_cons]
    exact ⟨goesOn_laneF2 (k := .f64) (execDmin p d a b) rfl fun _ => rfl, goesOn_laneF2 (k := .f64) (execDmax p d a b) rfl fun _ => rfl,
      nil⟩
  · simp only [List.forall_mem_cons]
    exact ⟨goesOn_laneF2 (k := .f64) (execDsetlt p d a b) rfl fun _ => rfl,
      goesOn_laneF2 (k := .f64) (execDseteq p d a b) rfl fun _ => rfl, nil⟩
  · exact goOn_singleton (goesOn_cvt shape)
  · exact goOn_singleton (goesOn_sfu known)
  · exact goOn_singleton (goesOn_actv p d a b)
  · simp only [List.forall_mem_cons]
    exact ⟨goesOn_shuffle (execShfl p d a b) rfl fun _ => rfl, goesOn_shuffle (execShflx p d a b) rfl fun _ => rfl,
      goesOn_shuffle (execShflu p d a b) rfl fun _ => rfl, goesOn_shuffle (execShfld p d a b) rfl fun _ => rfl, nil⟩
  · exact goOn_singleton (goesOn_laneCross (execBxch p d a b) rfl rfl Role.noConfusion fun _ => rfl)
  · simp only [List.forall_mem_cons]
    exact ⟨goesOn_reduce (execRedadd p d a) rfl fun _ => rfl, goesOn_reduce (execScanadd p d a) rfl fun _ => rfl, nil⟩
  · simp only [List.forall_mem_cons]
    exact ⟨goesOn_reduce (execRedmax p d a) rfl fun _ => rfl, goesOn_reduce (execRedmin p d a) rfl fun _ => rfl, nil⟩
  · exact goOn_singleton (goesOn_reduce (execRedfadd p d a) rfl fun _ => rfl)

/-- Settles O43: every event is an act behind the power gate, and the frames of the lane instructions move on. -/
theorem eventsNeedModulePower : Obligations.EventsNeedModulePower := by
  refine ⟨fun i s event other => ?_, laneInstructionsGoOn, crossLaneInstructionsGoOn⟩
  obtain ⟨f, act⟩ := exec_event event other
  rw [act]
  exact ⟨fun off => withPower_off off f, fun on => ⟨f s, withPower_on on f⟩⟩

end Sys2Proof.Machine
end

section
/-! PROOF. The parts of the device after an update of one of them; what folds over the state keep; which registers the counters of
bursts and of errors leave; and what the place of a sector depends on (R43 to R60). -/

namespace Sys2Proof.Machine

/-! ## Parts by number -/

theorem getD_set_self {α : Type} {xs : List α} {k : Nat} (h : k < xs.length) (x y : α) : ((xs.set k x)[k]?).getD y = x := by
  rw [List.getElem?_set_self h]
  rfl

theorem getD_set_ne {α : Type} {xs : List α} {k j : Nat} (h : j ≠ k) (x y : α) : ((xs.set k x)[j]?).getD y = (xs[j]?).getD y := by
  rw [List.getElem?_set_ne h.symm]

theorem State.die_modDie_self (s : State) {d : Nat} (h : d < s.dies.length) (f : Die → Die) : (s.modDie d f).die d = f (s.die d) :=
  getD_set_self h _ _

theorem State.die_modDie_ne (s : State) {d e : Nat} (h : e ≠ d) (f : Die → Die) : (s.modDie d f).die e = s.die e := getD_set_ne h _ _

theorem State.stk_setStk_self (s : State) {n : Nat} (h : n < s.stks.length) (x : Stack) : (s.setStk n x).stk n = x := getD_set_self h _ _

theorem State.core_modCore_self (s : State) {c : Nat} (h : c < s.cores.length) (f : Core → Core) : (s.modCore c f).core c = f (s.core c) :=
  getD_set_self h _ _

theorem State.core_modCore_ne (s : State) {c e : Nat} (h : e ≠ c) (f : Core → Core) : (s.modCore c f).core e = s.core e := getD_set_ne h _ _

@[simp] theorem State.setField_die (s : State) (off lo w x d : Nat) : (s.setField off lo w x).die d = s.die d := rfl
@[simp] theorem State.setMreg_die (s : State) (off : Nat) (v : DWord) (d : Nat) : (s.setMreg off v).die d = s.die d := rfl
@[simp] theorem State.modDie_mreg (s : State) (d : Nat) (f : Die → Die) (o : Nat) : (s.modDie d f).mreg o = s.mreg o := rfl
@[simp] theorem State.modDie_field (s : State) (d : Nat) (f : Die → Die) (o lo w : Nat) : (s.modDie d f).field o lo w = s.field o lo w := rfl
@[simp] theorem State.setStk_mreg (s : State) (n : Nat) (x : Stack) (o : Nat) : (s.setStk n x).mreg o = s.mreg o := rfl
@[simp] theorem State.setStk_field (s : State) (n : Nat) (x : Stack) (o lo w : Nat) : (s.setStk n x).field o lo w = s.field o lo w := rfl
@[simp] theorem State.emit_mreg (s : State) (m : OutMsg) (o : Nat) : (s.emit m).mreg o = s.mreg o := rfl
@[simp] theorem State.nextTick_mreg (s : State) (o : Nat) : s.nextTick.mreg o = s.mreg o := rfl
@[simp] theorem State.emit_field (s : State) (m : OutMsg) (o lo w : Nat) : (s.emit m).field o lo w = s.field o lo w := rfl

/-! ## Folds -/

/-- What holds at the start of a fold, and each act keeps, holds at its end. -/
theorem foldl_induction {β : Type} {P : State → Prop} {f : State → β → State} (step : ∀ s x, P s → P (f s x)) (l : List β) {s : State}
    (h : P s) : P (l.foldl f s) := by
  induction l generalizing s with
  | nil => exact h
  | cons x xs ih => exact ih (step s x h)

/-- What each act of a fold keeps, the fold keeps. -/
theorem foldl_keeps {β γ : Type} (g : State → γ) {f : State → β → State} (h : ∀ s x, g (f s x) = g s) (l : List β) (s : State) :
    g (l.foldl f s) = g s := by
  induction l generalizing s with
  | nil => rfl
  | cons x xs ih => exact (ih _).trans (h s x)

/-- Several registers that take one value. -/
theorem mreg_foldl_setMreg {β : Type} (off : β → Nat) (v : DWord) (l : List β) (s : State) (o : Nat) :
    (l.foldl (fun s x => s.setMreg (off x) v) s).mreg o = if o ∈ l.map off then v else s.mreg o := by
  induction l generalizing s with
  | nil => rfl
  | cons x xs ih =>
    rw [List.foldl_cons, ih, List.map_cons]
    by_cases later : o ∈ xs.map off
    · rw [if_pos later, if_pos (List.mem_cons_of_mem _ later)]
    · rw [if_neg later]
      by_cases here : o = off x
      · rw [here, State.mreg_setMreg_self, if_pos List.mem_cons_self]
      · rw [State.mreg_setMreg_ne _ here, if_neg (by simp [here, later])]

theorem look_filter {α : Type} (p : Nat → Bool) (k : Nat) (m : List (Nat × α)) :
    look k (m.filter fun e => p e.1) = if p k then look k m else none := by
  induction m with
  | nil => simp [look]
  | cons e r ih =>
    obtain ⟨j, w⟩ := e
    by_cases here : j = k
    · subst here
      cases h : p j <;> simp_all [look]
    · cases h : p j <;> simp_all [look]

/-! ## Registers that events do not count in -/

/-- A register that holds no counter of errors or of a stack (R19, R54). -/
def Uncounted (o : Nat) : Prop := o ≠ ERRCNT0 ∧ o ≠ ERRCNT1 ∧ (o < 0x1000 ∨ 0x1400 ≤ o)

theorem Uncounted.ne_STK {o : Nat} (h : Uncounted o) {n r : Nat} (hn : n < 8) (hr : r < 0x80) : o ≠ STK n r := by
  obtain ⟨-, -, outside⟩ := h
  unfold STK
  omega

theorem sectorStack_lt (n : Nat) : sectorStack n < 8 := by
  unfold sectorStack
  omega

theorem State.mreg_countUnits_ne (s : State) {off o : Nat} (h : o ≠ off) (lo w n : Nat) : (s.countUnits off lo w n).mreg o = s.mreg o :=
  State.mreg_count_ne _ h ..

theorem State.mreg_countBurst {o : Nat} (h : Uncounted o) (s : State) {stack : Nat} (hs : stack < 8) (lo : Nat) :
    (s.countBurst stack lo).mreg o = s.mreg o := by
  have reads : o ≠ STK stack 0x38 := h.ne_STK hs (by decide)
  have activations : o ≠ STK stack 0x40 := h.ne_STK hs (by decide)
  unfold State.countBurst
  dsimp only
  rw [State.nextTick_mreg, State.mreg_count_ne _ activations, State.mreg_countUnits_ne _ activations, State.mreg_countUnits_ne _ reads]

theorem State.mreg_countDrop {o : Nat} (h : Uncounted o) (s : State) (n : Nat) : (s.countDrop n).mreg o = s.mreg o :=
  State.mreg_count_ne s h.2.1 ..

@[simp] theorem State.mreg_cancelScrub (s : State) (n o : Nat) : (s.cancelScrub n).mreg o = s.mreg o := by
  unfold State.cancelScrub
  dsimp only
  split
  · split <;> rfl
  · rfl

theorem State.mreg_putSector {o : Nat} (h : Uncounted o) (s : State) (n : Nat) (whole : Bool) (bs : List (Nat × Byte)) :
    (s.putSector n whole bs).mreg o = s.mreg o := by
  have stack := sectorStack_lt n
  have partials : o ≠ STK (sectorStack n) 0x48 := h.ne_STK stack (by decide)
  unfold State.putSector
  dsimp only
  have started : (if whole then (s.cancelScrub n).clearPoison n else (s.cancelScrub n).count (STK (sectorStack n) 0x48) 32 32 1).mreg o
      = s.mreg o := by
    split
    · exact State.mreg_cancelScrub s n o
    · rw [State.mreg_count_ne _ partials, State.mreg_cancelScrub]
  generalize (if whole then (s.cancelScrub n).clearPoison n else (s.cancelScrub n).count (STK (sectorStack n) 0x48) 32 32 1) = u at started ⊢
  split
  · rw [State.mreg_countDrop h, State.mreg_count_ne _ partials, started]
  · rw [State.mreg_countBurst h _ stack]
    show (if whole then u else u.countBurst (sectorStack n) 32).mreg o = _
    split
    · exact started
    · rw [State.mreg_countBurst h _ stack, started]

@[simp] theorem mreg_backInvalidate (s : State) (lines : List Nat) (o : Nat) : (backInvalidate s lines).mreg o = s.mreg o := by
  unfold backInvalidate
  dsimp only
  split
  · rfl
  · exact foldl_keeps (fun s => s.mreg o) (fun _ _ => by rfl) _ _

theorem mreg_storeDirect {o : Nat} (h : Uncounted o) (s : State) (a : Nat) (bs : List Byte) : (storeDirect s a bs).mreg o = s.mreg o := by
  refine (foldl_keeps (fun s => s.mreg o) (fun u x => ?_) _ _).trans (mreg_backInvalidate s _ o)
  dsimp only
  split
  · exact State.mreg_putSector h ..
  · exact State.mreg_countDrop h ..

theorem mreg_setLanternFlags {o : Nat} (h : Uncounted o) (s : State) (v : Nat) : (setLanternFlags s v).mreg o = s.mreg o :=
  mreg_storeDirect h ..

theorem uncounted_modstat : Uncounted MODSTAT := by unfold Uncounted; decide
theorem uncounted_lantstat : Uncounted LANTSTAT := by unfold Uncounted; decide

/-! ## What the place of a sector depends on -/

section
variable {s t : State} (dies : t.dies = s.dies) (dead : t.deadAgents = s.deadAgents) (stks : t.stks = s.stks)
  (shapes : ∀ o, 0x1800 ≤ o → t.mreg o = s.mreg o)
include dies dead shapes

theorem placeRaw_congr (d a : Nat) : placeRaw t d a = placeRaw s d a := by
  have base (d i : Nat) : 0x1800 ≤ SHBASE d i := by unfold SHBASE; omega
  have cfg (d i : Nat) : 0x1800 ≤ SHCFG d i := by unfold SHCFG; omega
  unfold placeRaw mapShaped shapeAt State.dieDead State.die State.field
  simp only [dies, dead, shapes _ (base _ _), shapes _ (cfg _ _)]

include stks

theorem place_congr (a : Nat) : place t a = place s a := by
  have spots (x : Spot) : redirect t x = redirect s x := by
    unfold redirect parkSpot State.stk
    simp only [stks, placeRaw_congr dies dead shapes]
  unfold place
  simp only [placeRaw_congr dies dead shapes, funext spots]

variable (dram : t.dram = s.dram) (l2 : t.l2 = s.l2)
include dram l2

theorem homeBytes_congr (a n : Nat) : homeBytes t a n = homeBytes s a n := by
  unfold homeBytes homeByte
  simp only [l2, dram, place_congr dies dead stks shapes]

end

/-- A register below the shape records leaves what the homes hold. -/
theorem homeBytes_setField (s : State) {off : Nat} (h : off < 0x1800) (lo w x a n : Nat) :
    homeBytes (s.setField off lo w x) a n = homeBytes s a n :=
  homeBytes_congr (s := s) (t := s.setField off lo w x) rfl rfl rfl (fun _ ho => State.mreg_setField_ne s (Nat.ne_of_gt (h.trans_le ho)) ..)
    rfl rfl a n

end Sys2Proof.Machine
end

section
/-! PROOF. Power, bring-up, the move to full service, resets, gating and fatal errors (R14, R15, R32, R33, R35, R36, R38, R48). -/

namespace Sys2Proof.Machine

/-! ## Registers that an event writes -/

theorem OtherRegisters.refl (s : State) (offs : List Nat) : OtherRegisters s s offs := fun _ _ => rfl

theorem OtherRegisters.setField {s t : State} {offs : List Nat} (h : OtherRegisters s t offs) {off : Nat} (listed : off ∈ offs)
    (lo w x : Nat) : OtherRegisters s (t.setField off lo w x) offs := fun o ho =>
  (State.mreg_setField_ne t (fun e => ho (by rwa [e])) ..).trans (h o ho)

theorem field_eq_one_iff {s : State} {off lo : Nat} : (s.field off lo 1 == 1) = true ↔ s.field off lo 1 = 1 := beq_iff_eq

theorem State.field_congr {s t : State} {o : Nat} (h : t.mreg o = s.mreg o) {lo w : Nat} : t.field o lo w = s.field o lo w := by
  unfold State.field
  rw [h]

/-- A single bit that was set reads as 1. -/
theorem State.bit_setField (s : State) (off : Nat) {lo : Nat} (h : lo < 64) : (s.setField off lo 1 1).field off lo 1 = 1 :=
  State.field_setField_self s off (by omega) 1

/-! ## Training (R14, R33) -/

theorem stackTrained_event {s : State} (on : s.powered = true) (n : BitVec 3) (c : Bool) (service : s.svc ≠ 3) (placed : n.toNat < s.stks.length) :
    ∃ t, exec (.stackTrained n c) s = .next t ∧ t.svc = s.svc ∧ t.stackTrained n.toNat = true
      ∧ t.stackCalibrated n.toNat = (c || s.stackCalibrated n.toNat) ∧ (t.stk n.toNat).trainingSaved = true
      ∧ OtherRegisters s t [(MODSTAT)] := by
  have bound := n.isLt
  have trained := OtherRegisters.setField (OtherRegisters.refl s [(MODSTAT)]) List.mem_cons_self (8 + n.toNat) 1 1
  have saved {u : State} (stks : u.stks = s.stks) (x : Stack) (h : x.trainingSaved = true) :
      ((u.setStk n.toNat x).stk n.toNat).trainingSaved = true :=
    (congrArg Stack.trainingSaved (State.stk_setStk_self u (by rwa [stks]) x)).trans h
  refine ⟨_, (withPower_on on _ : execStackTrained n c s = _).trans (congrArg _ (if_neg service)), ?_⟩
  unfold State.svc State.stackTrained State.stackCalibrated
  cases c
  · simp (disch := omega) only [Bool.false_eq_true, if_false, State.setStk_field, State.field_setField_apart, State.field_setField_self,
      Bool.false_or]
    exact ⟨trivial, rfl, trivial, saved rfl _ rfl, fun o ho => trained o ho⟩
  · simp (disch := omega) only [if_true, State.setStk_field, State.field_setField_apart, State.field_setField_self, Bool.true_or]
    exact ⟨trivial, rfl, rfl, saved rfl _ rfl, fun o ho => OtherRegisters.setField trained List.mem_cons_self _ _ _ o ho⟩

/-! ## Bring-up (R32, R33) -/

@[simp] theorem takeIncarnations_dies (s : State) (d : Nat) : (takeIncarnations s d).dies = s.dies := by
  unfold takeIncarnations
  exact foldl_keeps State.dies (fun _ _ => by rfl) _ _

/-- DIEINC and COREINC of a die take WRCNT, and every other register stays. -/
theorem mreg_takeIncarnations (s : State) (d o : Nat) : (takeIncarnations s d).mreg o
    = if o ∈ (List.range 16).map (fun c => COREINC (16 * d + c)) ∨ o = DIEINC d then BitVec.ofNat 64 (s.field MODSTAT 32 16) else s.mreg o := by
  unfold takeIncarnations
  dsimp only
  rw [mreg_foldl_setMreg (fun c => COREINC (16 * d + c))]
  by_cases cores : o ∈ (List.range 16).map (fun c => COREINC (16 * d + c))
  · rw [if_pos cores, if_pos (.inl cores)]
  · by_cases die : o = DIEINC d
    · rw [if_neg cores, if_pos (.inr die), die, State.mreg_setMreg_self]
    · rw [if_neg cores, if_neg (by simp_all), State.mreg_setMreg_ne _ die]

theorem COREINC_ge (d c : Nat) : 0xB00 ≤ COREINC (16 * d + c) := by unfold COREINC; omega

theorem mreg_takeIncarnations_low (s : State) (d : Nat) {o : Nat} (h : o < 0xA00) : (takeIncarnations s d).mreg o = s.mreg o := by
  rw [mreg_takeIncarnations, if_neg]
  rintro (core | die)
  · obtain ⟨c, -, e⟩ := List.mem_map.mp core
    have := COREINC_ge d c
    omega
  · unfold DIEINC at die
    omega

/-- The end of a die's bring-up: die 0 opens reduced service. -/
def openService (s : State) (d : Nat) : State :=
  if d = 0 then if (s.setField MODSTAT 0 2 1).coldBoot then s.setField MODSTAT 0 2 1 else reloadLantStat (s.setField MODSTAT 0 2 1) else s

theorem openService_dies (s : State) (d : Nat) : (openService s d).dies = s.dies := by
  unfold openService
  split
  · split <;> rfl
  · rfl

theorem mreg_openService (s : State) (d : Nat) {o : Nat} (h : o ≠ MODSTAT) (h' : o ≠ LANTSTAT) : (openService s d).mreg o = s.mreg o := by
  unfold openService
  split
  · split
    · exact State.mreg_setField_ne s h ..
    · exact (State.mreg_setMreg_ne _ h' _).trans (State.mreg_setField_ne s h ..)
  · rfl

theorem mreg_modstat_openService (s : State) (d : Nat) :
    (openService s d).mreg MODSTAT = (if d = 0 then s.setField MODSTAT 0 2 1 else s).mreg MODSTAT := by
  unfold openService
  split
  · split
    · rfl
    · exact State.mreg_setMreg_ne _ (by decide) _
  · rfl

theorem field_openService (s : State) (d lo w : Nat) :
    (openService s d).field MODSTAT lo w = (if d = 0 then s.setField MODSTAT 0 2 1 else s).field MODSTAT lo w :=
  State.field_congr (mreg_modstat_openService s d)

/-- The start of a die's bring-up. -/
def raised (s : State) (d : Nat) : State :=
  (s.modDie d fun k => { k with up := true, single := soleStack s d }).setField MODSTAT (4 + d) 1 1

theorem dieUp_event {s : State} (on : s.powered = true) (d : BitVec 2) (may : mayComeUp s d.toNat = true) (dies : s.dies.length = 4) :
    ∃ t, exec (.dieUp d) s = .next t ∧ (t.die d.toNat).up = true ∧ (t.die d.toNat).single = soleStack s d.toNat
      ∧ t.field MODSTAT (4 + d.toNat) 1 = 1 ∧ t.svc = (if d = 0#2 then 1 else s.svc)
      ∧ (t.mreg (DIEINC d.toNat)).toNat = s.field MODSTAT 32 16
      ∧ ∀ c, c < 16 → (t.mreg (COREINC (16 * d.toNat + c))).toNat = s.field MODSTAT 32 16 := by
  have bound := d.isLt
  have zero : d = 0#2 ↔ d.toNat = 0 := by rw [← BitVec.toNat_inj]; rfl
  have wrcnt : s.field MODSTAT 32 16 < 2 ^ 64 := (Nat.mod_lt _ (Nat.two_pow_pos 16)).trans (by decide)
  have next : execDieUp d s = .next (openService (takeIncarnations (raised s d.toNat) d.toNat) d.toNat) :=
    (withPower_on on _).trans (congrArg _ (if_pos may))
  have low {o : Nat} (h : o < 0xA00) : (takeIncarnations (raised s d.toNat) d.toNat).mreg o = (raised s d.toNat).mreg o :=
    mreg_takeIncarnations_low _ _ h
  have die : (openService (takeIncarnations (raised s d.toNat) d.toNat) d.toNat).die d.toNat
      = { s.die d.toNat with up := true, single := soleStack s d.toNat } := by
    unfold State.die
    rw [openService_dies, takeIncarnations_dies]
    exact State.die_modDie_self s (lt_of_lt_of_eq bound dies.symm) fun k => { k with up := true, single := soleStack s d.toNat }
  have modstat (lo w : Nat) (h : lo + w ≤ 64) (apart : 2 ≤ lo) :
      (openService (takeIncarnations (raised s d.toNat) d.toNat) d.toNat).field MODSTAT lo w = (raised s d.toNat).field MODSTAT lo w := by
    rw [field_openService, ← State.field_congr (low (by decide))]
    split
    · exact State.field_setField_apart _ _ (by omega) (by omega) _
    · rfl
  have taken {o : Nat} (core : 0xA00 ≤ o)
      (h : o ∈ (List.range 16).map (fun c => COREINC (16 * d.toNat + c)) ∨ o = DIEINC d.toNat) :
      ((openService (takeIncarnations (raised s d.toNat) d.toNat) d.toNat).mreg o).toNat = s.field MODSTAT 32 16 := by
    have other : (raised s d.toNat).field MODSTAT 32 16 = s.field MODSTAT 32 16 := by
      unfold raised
      exact State.field_setField_apart _ _ (by omega) (by omega) _
    rw [mreg_openService _ _ (by unfold MODSTAT; omega) (by unfold LANTSTAT; omega), mreg_takeIncarnations, if_pos h, BitVec.toNat_ofNat,
      other, Nat.mod_eq_of_lt wrcnt]
  refine ⟨_, next, by rw [die], by rw [die], ?_, ?_, taken (by unfold DIEINC; omega) (.inr rfl), fun c hc =>
    taken (by unfold COREINC; omega) (.inl (List.mem_map_of_mem (List.mem_range.mpr hc)))⟩
  · rw [modstat _ _ (by omega) (by omega)]
    exact State.bit_setField _ _ (by omega)
  · unfold State.svc
    rw [field_openService]
    by_cases first : d = 0#2
    · rw [if_pos first, if_pos (zero.mp first)]
      exact State.field_setField_self _ _ (by omega) 1
    · rw [if_neg first, if_neg (fun e => first (zero.mpr e)), State.field_congr (low (by decide))]
      exact State.field_setField_apart _ _ (by omega) (by omega) _

/-! ## Full service (R35) -/

/-- One sector's move to the place that the new map gives it. -/
def sectorMoved (old u : State) (x y : Nat) : State :=
  let s := (u.countBurst (sectorStack x) 32).countBurst (sectorStack y) 0
  let s := { s with dram := Memory.writeN s.dram (32 * y) (old.sectorBytes x) }
  if old.isPoisoned x then s.markPoison y else s

theorem remapDie_induction {P : State → Prop} {old new : State} (d : Nat)
    (start : ∀ dram poison, P { new with dram := dram, poison := poison })
    (move : ∀ u x y, P u → P (sectorMoved old u x y)) : P (remapDie old new d) := by
  unfold remapDie
  refine foldl_induction (fun u k hu => ?_) _ (start _ _)
  extract_lets a
  split
  · exact move _ _ _ hu
  · exact hu

theorem State.dies_countBurst (s : State) (stack lo : Nat) : (s.countBurst stack lo).dies = s.dies := by rfl

theorem sectorMoved_dies (old u : State) (x y : Nat) : (sectorMoved old u x y).dies = u.dies := by
  unfold sectorMoved
  dsimp only
  split <;> simp only [State.markPoison, State.dies_countBurst]

theorem remapDie_dies (old new : State) (d : Nat) : (remapDie old new d).dies = new.dies :=
  remapDie_induction (P := fun s => s.dies = new.dies) d (fun _ _ => rfl) fun u x y h => (sectorMoved_dies old u x y).trans h

/-- A step of the move to full service: the map of a die that came up with one stack becomes that of two. -/
def remapped (s : State) (d : Nat) : State :=
  if (s.die d).single.isSome then remapDie s (s.modDie d fun x => { x with single := none }) d else s

theorem remapped_length (s : State) (d : Nat) : (remapped s d).dies.length = s.dies.length := by
  unfold remapped
  split
  · rw [remapDie_dies]
    exact List.length_set
  · rfl

theorem remapped_single_self (s : State) (d : Nat) : ((remapped s d).die d).single = none := by
  unfold remapped
  split
  next one =>
    unfold State.die
    rw [remapDie_dies]
    by_cases h : d < s.dies.length
    · exact congrArg Die.single (State.die_modDie_self s h _)
    · have same (f : Die → Die) : (s.modDie d f).dies = s.dies := List.set_eq_of_length_le (Nat.le_of_not_lt h)
      rw [same, List.getElem?_eq_none (Nat.le_of_not_lt h)]
      rfl
  next none => exact Option.not_isSome_iff_eq_none.mp none

theorem remapped_single_kept {s : State} {e : Nat} (h : (s.die e).single = none) (d : Nat) : ((remapped s d).die e).single = none := by
  by_cases here : e = d
  · rw [here]
    exact remapped_single_self s d
  · unfold remapped
    split
    · unfold State.die at h ⊢
      rw [remapDie_dies]
      exact (congrArg Die.single (State.die_modDie_ne s here _)).trans h
    · exact h

theorem foldl_remapped_single (l : List Nat) (s : State) {e : Nat} (h : e ∈ l ∨ (s.die e).single = none) :
    ((l.foldl remapped s).die e).single = none := by
  induction l generalizing s with
  | nil => exact h.resolve_left List.not_mem_nil
  | cons d ds ih =>
    refine ih _ ?_
    rcases h with h | h
    · rcases List.mem_cons.mp h with rfl | h
      · exact .inr (remapped_single_self s e)
      · exact .inl h
    · exact .inr (remapped_single_kept h d)

theorem fullServiceMove_event {s : State} (on : s.powered = true) (may : mayMoveFull s = true) :
    ∃ t, exec .fullServiceMove s = .next t ∧ t.svc = 2 ∧ ∀ d, d < 4 → (t.die d).single = none := by
  have next : execFullServiceMove s = .next (((List.range 4).foldl remapped s).setField MODSTAT 0 2 2) :=
    (withPower_on on _).trans (congrArg _ (if_pos may))
  exact ⟨_, next, State.field_setField_self _ _ (by omega) 2, fun d hd => foldl_remapped_single _ _ (.inl (List.mem_range.mpr hd))⟩

theorem powerAndBringUp : PowerAndBringUp := by
  intro s
  refine ⟨rfl, rfl, fun on => ⟨(withPower_on on _ : execPowerRemoved s = _), fun n c => stackTrained_event on n c,
    fun n c service => ?_, fun d => dieUp_event on d,
    fun d h => ?_, fullServiceMove_event on, fun h => ?_⟩⟩
  · exact (withPower_on on _ : execStackTrained n c s = _).trans (congrArg _ (if_pos service))
  · exact (withPower_on on _ : execDieUp d s = _).trans (congrArg _ (if_neg (ne_true_of_eq_false h)))
  · exact (withPower_on on _ : execFullServiceMove s = _).trans (congrArg _ (if_neg (ne_true_of_eq_false h)))

/-! ## Thermal gating (R15) -/

theorem thermalGate_event {s : State} (on : s.powered = true) (d : BitVec 2) (cycles : BitVec 7) (up : (s.die d.toNat).up = true)
    (dies : s.dies.length = 4) : ∃ t, exec (.thermalGate d cycles) s = .next t ∧ (t.die d.toNat).gating = cycles
      ∧ (∀ n, n % 8 = 7 → gatedCycle (t.die d.toNat) n = false) ∧ t.mregs = s.mregs ∧ ∀ e, e ≠ d.toNat → t.die e = s.die e := by
  have bound := d.isLt
  refine ⟨_, (withPower_on on _ : execThermalGate d cycles s = _).trans (congrArg _ (if_pos up)), ?_, fun n hn => ?_, rfl, fun e he => ?_⟩
  · rw [State.die_modDie_self s (by omega)]
  · unfold gatedCycle
    rw [hn]
    exact BitVec.getLsbD_of_ge _ _ (by decide)
  · exact State.die_modDie_ne s he _

theorem thermalGateEnd_event {s : State} (on : s.powered = true) (d : BitVec 2) (dies : s.dies.length = 4) :
    ∃ t, exec (.thermalGateEnd d) s = .next t ∧ (t.die d.toNat).gating = 0#7 ∧ t.mregs = s.mregs := by
  have bound := d.isLt
  refine ⟨_, (withPower_on on _ : execThermalGateEnd d s = _), ?_, rfl⟩
  rw [State.die_modDie_self s (by omega)]

/-! ## Warm reset (R36) -/

theorem lanternDumpNow_none {s : State} (h : s.dumpDue = none) : lanternDumpNow s = s := by
  unfold lanternDumpNow writeDump
  rw [h]

theorem foldl_parkWhole_none {s : State} (l : List Nat) (h : ∀ n ∈ l, (s.stk n).parked = none) : l.foldl parkWhole s = s := by
  induction l with
  | nil => rfl
  | cons n ns ih =>
    have here : parkWhole s n = s := by
      unfold parkWhole
      rw [h n List.mem_cons_self]
    rw [List.foldl_cons, here, ih fun m hm => h m (List.mem_cons_of_mem n hm)]

/-- The state that a warm reset keeps, before it counts. -/
def warmKept (s : State) : State :=
  { s.bare with
    coldBoot := false, mregs := s.mregs.filter fun e => survives e.1
    stks := s.stks.map Stack.keep, dram := s.dram, poison := s.poison }

theorem mreg_warmKept (s : State) (o : Nat) : (warmKept s).mreg o = if survives o then s.mreg o else mregReset o := by
  show (look o (s.mregs.filter fun e => survives e.1)).getD (mregReset o) = _
  rw [look_filter]
  split <;> rfl

theorem warmReset_eq {s : State} (dump : s.dumpDue = none) (parked : ∀ n, n < 8 → (s.stk n).parked = none) : warmReset s false
    = (((warmKept s).setField MODSTAT 32 16 (min (s.field MODSTAT 32 16 + 1) 0xFFFF)).setField INCARN 0 16 (s.field INCARN 0 16 + 1)).setField
        INCARN 16 1 (s.field INCARN 16 1) := by
  unfold warmReset
  rw [lanternDumpNow_none dump]
  simp only [Bool.false_eq_true, if_false]
  rw [foldl_parkWhole_none _ fun n hn => parked n (List.mem_range.mp hn)]
  rfl

theorem resetLeaves_warmReset {s : State} (dump : s.dumpDue = none) (parked : ∀ n, n < 8 → (s.stk n).parked = none) :
    ResetLeaves s (warmReset s false) := by
  have incarn : INCARN ≠ MODSTAT := by decide
  have kept (o : Nat) (h : survives o = true) : (warmKept s).mreg o = s.mreg o := by rw [mreg_warmKept, if_pos h]
  have modstat : (warmKept s).field MODSTAT 0 2 = 0 := by
    unfold State.field
    rw [mreg_warmKept, if_neg (by decide)]
    decide
  have bit : s.field INCARN 16 1 < 2 := Nat.mod_lt _ (by decide)
  rw [warmReset_eq dump parked]
  refine ⟨rfl, rfl, rfl, rfl, rfl, rfl, ?_, rfl, rfl, fun o h => ?_, ?_, ?_, ?_⟩
  · unfold State.svc
    rw [State.field_setField_ne _ incarn.symm, State.field_setField_ne _ incarn.symm,
      State.field_setField_apart _ _ (by omega) (by omega), modstat]
  · have apart {off : Nat} (no : survives off = false) : o ≠ off := fun e => by simp [← e, h] at no
    rw [State.mreg_setField_ne _ (apart (by decide)), State.mreg_setField_ne _ (apart (by decide)),
      State.mreg_setField_ne _ (apart (by decide)), kept o h]
  · rw [State.field_setField_ne _ incarn.symm, State.field_setField_ne _ incarn.symm, State.field_setField_self _ _ (by omega)]
    omega
  · rw [State.field_setField_apart _ _ (by omega) (by omega), State.field_setField_self _ _ (by omega)]
  · rw [State.field_setField_self _ _ (by omega)]
    omega

theorem warmResets {s : State} (on : s.powered = true) (dump : s.dumpDue = none) (parked : ∀ n, n < 8 → (s.stk n).parked = none) :
    (∃ t, exec .hostLinkHotReset s = .next t ∧ ResetLeaves s t)
      ∧ (s.field MODCTL 1 1 = 0 → ∃ t, exec .warmReset s = .next t ∧ ResetLeaves s t) := by
  have leaves := resetLeaves_warmReset dump parked
  refine ⟨⟨_, (withPower_on on _ : execHostLinkHotReset s = _), leaves⟩, fun noFlush => ⟨_, ?_, leaves⟩⟩
  have flush : (s.field MODCTL 1 1 == 1) = false := by rw [noFlush]; rfl
  exact (withPower_on on _ : execWarmReset s = _).trans (by rw [flush])

/-! ## Fatal errors (R38) -/

theorem lanternUnacked_setField (s : State) {off : Nat} (h : off < 0x1800) (lo w x : Nat) :
    lanternUnacked (s.setField off lo w x) = lanternUnacked s := by
  unfold lanternUnacked lanternFlags
  simp only [homeBytes_setField s h]

theorem lantStat_valid_done (part ovwr : Bool) (bytes recs : Nat) : fieldOf (lantStat true true part ovwr bytes recs).toNat 0 2 = 3 := by
  unfold fieldOf lantStat
  rw [BitVec.toNat_ofNat]
  cases part <;> cases ovwr <;> simp only [if_true, Bool.false_eq_true, if_false] <;> omega

/-- A dump that is due is written, and no register but LANTSTAT shows it. -/
theorem writeDump_due {s : State} (h : s.dumpDue.isSome = true) (n : Nat) (cut : Bool) : (writeDump s n cut).dumpDue = none
    ∧ (writeDump s n cut).field LANTSTAT 0 2 = 3 ∧ ∀ o, Uncounted o → o ≠ LANTSTAT → (writeDump s n cut).mreg o = s.mreg o := by
  obtain ⟨due, hdue⟩ := Option.isSome_iff_exists.mp h
  unfold writeDump
  rw [hdue]
  dsimp only
  refine ⟨rfl, ?_, fun o ho other => ?_⟩
  · unfold State.field
    rw [State.mreg_setMreg_self]
    exact lantStat_valid_done ..
  · rw [State.mreg_setMreg_ne _ other]
    exact (mreg_storeDirect ho ..).trans (mreg_storeDirect ho ..)

theorem enterFatal_first {s : State} (service : s.svc ≠ 3) {code : Nat} (bound : code < 2 ^ 8) :
    let t := enterFatal s code
    t.svc = 3 ∧ t.field MODSTAT 24 8 = code ∧ OtherRegisters s t [(MODSTAT)]
      ∧ t.dumpDue = (if (s.die 0).up then some ⟨(s.die 0).cycle, t.mreg MODSTAT, lanternUnacked s, s.teams⟩ else none)
      ∧ { t with mregs := s.mregs, dumpDue := s.dumpDue } = s := by
  have entered : ((s.setField MODSTAT 24 8 code).setField MODSTAT 0 2 3).svc = 3 := State.field_setField_self _ _ (by omega) 3
  have shows : ((s.setField MODSTAT 24 8 code).setField MODSTAT 0 2 3).field MODSTAT 24 8 = code := by
    rw [State.field_setField_apart _ _ (by omega) (by omega), State.field_setField_self _ _ (by omega), Nat.mod_eq_of_lt bound]
  have others : OtherRegisters s ((s.setField MODSTAT 24 8 code).setField MODSTAT 0 2 3) [(MODSTAT)] :=
    OtherRegisters.setField (OtherRegisters.setField (OtherRegisters.refl s _) List.mem_cons_self 24 8 code) List.mem_cons_self 0 2 3
  have unacked : lanternUnacked ((s.setField MODSTAT 24 8 code).setField MODSTAT 0 2 3) = lanternUnacked s := by
    rw [lanternUnacked_setField _ (by decide), lanternUnacked_setField _ (by decide)]
  have die : ((s.setField MODSTAT 24 8 code).setField MODSTAT 0 2 3).die 0 = s.die 0 := rfl
  have teams : ((s.setField MODSTAT 24 8 code).setField MODSTAT 0 2 3).teams = s.teams := rfl
  have frame : { (s.setField MODSTAT 24 8 code).setField MODSTAT 0 2 3 with mregs := s.mregs } = s := rfl
  unfold enterFatal
  rw [if_neg service]
  generalize (s.setField MODSTAT 24 8 code).setField MODSTAT 0 2 3 = u at entered shows others unacked die teams frame ⊢
  rw [← unacked, ← die, ← teams]
  exact ⟨entered, shows, others, rfl, congrArg (fun v => { v with dumpDue := s.dumpDue }) frame⟩

theorem enterFatal_again {s : State} (service : s.svc = 3) (dump : s.dumpDue = none) (code : Nat) :
    enterFatal s code = s.setField MODSTAT 24 8 code := by
  unfold enterFatal
  rw [if_pos service, dump]
  rfl

theorem enterFatal_due {s : State} (service : s.svc = 3) (dump : s.dumpDue.isSome = true) {code : Nat} (bound : code < 2 ^ 8) :
    let t := enterFatal s code
    t.svc = 3 ∧ t.field MODSTAT 24 8 = code ∧ t.dumpDue = none ∧ t.field LANTSTAT 0 2 = 3 := by
  unfold enterFatal
  rw [if_pos service, dump]
  dsimp only
  generalize (Config.freeBits s.tick).toNat % (dueRecords s + 1) = n
  obtain ⟨done, stat, other⟩ := writeDump_due (s := s.nextTick) dump n true
  refine ⟨?_, ?_, done, ?_⟩
  · refine (State.field_setField_apart _ _ (by omega) (by omega) _).trans ?_
    exact (State.field_congr (other MODSTAT uncounted_modstat (by decide))).trans service
  · exact (State.field_setField_self _ _ (by omega) _).trans (Nat.mod_eq_of_lt bound)
  · exact (State.field_setField_ne _ (by decide) _ _ _ _ _).trans stat

theorem fatal_event {s : State} (on : s.powered = true) {i : Instr} {code : Nat} (h : i = .thermalTrip ∧ code = 4 ∨ i = .hostDump ∧ code = 6
    ∨ ∃ c : BitVec 8, i = .fatalError c ∧ code = c.toNat ∧ 1 ≤ code ∧ code ≤ 6) :
    exec i s = .next (enterFatal s code) ∧ code < 2 ^ 8 := by
  rcases h with ⟨rfl, rfl⟩ | ⟨rfl, rfl⟩ | ⟨c, rfl, rfl, low, high⟩
  · exact ⟨(withPower_on on _ : execThermalTrip s = _), by decide⟩
  · exact ⟨(withPower_on on _ : execHostDump s = _), by decide⟩
  · exact ⟨(withPower_on on _ : execFatalError c s = _).trans (congrArg _ (if_pos ⟨low, high⟩)), c.isLt⟩

theorem resetsAndFatalErrors : ResetsAndFatalErrors := by
  intro s on
  refine ⟨warmResets on, fun d cycles => thermalGate_event on d cycles, fun d cycles down => ?_, fun d => thermalGateEnd_event on d,
    fun i code h => ?_, fun c outside => ?_⟩
  · exact (withPower_on on _ : execThermalGate d cycles s = _).trans (congrArg _ (if_neg (ne_true_of_eq_false down)))
  · obtain ⟨next, bound⟩ := fatal_event on h
    refine ⟨fun service => ⟨_, next, enterFatal_first service bound⟩, fun service dump => ?_, fun service dump =>
      ⟨_, next, enterFatal_due service dump bound⟩⟩
    rw [enterFatal_again service dump] at next
    refine ⟨_, next, (State.field_setField_apart _ _ (by omega) (by omega) _).trans service, ?_, rfl⟩
    rw [State.field_setField_self _ _ (by omega), Nat.mod_eq_of_lt bound]
  · have outside' : ¬ (1 ≤ c.toNat ∧ c.toNat ≤ 6) := by
      rcases outside with rfl | high
      · decide
      · omega
    exact (withPower_on on _ : execFatalError c s = _).trans (congrArg _ (if_neg outside'))

/-- Settles O44: event by event, from what the fields written to MODSTAT, and the parts set, then read as. -/
theorem powerResetsAndFatalErrors : Obligations.PowerResetsAndFatalErrors := ⟨powerAndBringUp, resetsAndFatalErrors⟩

end Sys2Proof.Machine
end

section
/-! PROOF. The Lantern dump, the error log, the error counters, identity, and the host link (R19, R21, R22, R23, R31, R33, R40, R104,
R181, R213, R231). -/

namespace Sys2Proof.Machine

/-! ## The Lantern area (R40) -/

theorem bit_ne_one {s : State} {off lo : Nat} (h : s.field off lo 1 = 0) : ¬ s.field off lo 1 = 1 := by omega

/-- A flag of LANTSTAT that firmware clears, whatever it then writes to the header. -/
theorem lantstat_cleared (s : State) {lo : Nat} (h : lo < 64) (v : Nat) :
    (setLanternFlags (s.setField LANTSTAT lo 1 0) v).field LANTSTAT lo 1 = 0 :=
  (State.field_congr (mreg_setLanternFlags uncounted_lantstat _ v)).trans (State.field_setField_self s _ (by omega) 0)

theorem lantern_events {s : State} (on : s.powered = true) :
    (s.dumpDue = none → exec .lanternDump s = .next s)
    ∧ (s.dumpDue.isSome = true → ∃ t, exec .lanternDump s = .next t ∧ t.dumpDue = none ∧ t.field LANTSTAT 0 2 = 3)
    ∧ (s.field LANTSTAT 0 1 = 1 → ∃ t, exec .lanternAck s = .next t ∧ t.field LANTSTAT 0 1 = 0)
    ∧ (s.field LANTSTAT 0 1 = 0 → exec .lanternAck s = .next s)
    ∧ (s.field LANTSTAT 3 1 = 1 → ∃ t, exec .lanternOvwrClear s = .next t ∧ t.field LANTSTAT 3 1 = 0)
    ∧ (s.field LANTSTAT 3 1 = 0 → exec .lanternOvwrClear s = .next s) := by
  have dump : execLanternDump s = .next (lanternDumpNow s) := withPower_on on _
  have ack : execLanternAck s = .next (lanternAck s) := withPower_on on _
  have ovwr : execLanternOvwrClear s = .next (lanternOvwrClear s) := withPower_on on _
  refine ⟨fun due => ?_, fun due => ?_, fun valid => ?_, fun invalid => ?_, fun mark => ?_, fun noMark => ?_⟩
  · rw [lanternDumpNow_none due] at dump
    exact dump
  · obtain ⟨done, stat, -⟩ := writeDump_due due (dueRecords s) false
    exact ⟨_, dump, done, stat⟩
  · refine ⟨_, ack.trans (congrArg _ (if_pos valid)), lantstat_cleared s (by decide) _⟩
  · exact ack.trans (congrArg _ (if_neg (bit_ne_one invalid)))
  · refine ⟨_, ovwr.trans (congrArg _ (if_pos mark)), lantstat_cleared s (by decide) _⟩
  · exact ovwr.trans (congrArg _ (if_neg (bit_ne_one noMark)))

/-! ## The error log (R21) -/

theorem elogClear_event {s : State} (on : s.powered = true) (d : BitVec 2) (dies : s.dies.length = 4) :
    ∃ t, exec (.elogClear d) s = .next t ∧ (t.die d.toNat).log = List.replicate 64 none ∧ t.field (ELOGCTL d.toNat) 8 6 = 0
      ∧ t.field (ELOGCTL d.toNat) 32 16 = 0 ∧ OtherRegisters s t [ELOGCTL d.toNat] := by
  have bound := d.isLt
  have die := State.die_modDie_self s (lt_of_lt_of_eq bound dies.symm) fun x => { x with log := List.replicate 64 none }
  refine ⟨_, (withPower_on on _ : execElogClear d s = _), congrArg Die.log die, ?_, State.field_setField_self _ _ (by omega) 0, ?_⟩
  · exact (State.field_setField_apart _ _ (by omega) (by omega) _).trans (State.field_setField_self _ _ (by omega) 0)
  · exact fun o ho => OtherRegisters.setField (OtherRegisters.setField (OtherRegisters.refl s _) List.mem_cons_self 8 6 0)
      List.mem_cons_self 32 16 0 o ho

theorem elogRead_some {s : State} {d : Nat} {e : LogEntry} (found : elogEntry s d = some e) (k : Nat) : elogRead s d k
    = (s.emitHost (.regData (BitVec.ofNat 64 (leNat ((e.bytes.drop (8 * k)).take 8))))).modDie d fun x =>
        { x with log := x.log.set (s.field (ELOGCTL d) 16 6) (some { e with wasRead := true }) } := by
  have data : elogData s d k = leNat ((e.bytes.drop (8 * k)).take 8) := by
    unfold elogData
    rw [found]
  have again (m : HostMsg) : elogEntry (s.emitHost m) d = some e := found
  unfold elogRead elogMarkRead
  rw [data, again]
  rfl

theorem elogEntryRead_event {s : State} (on : s.powered = true) (d k : BitVec 2) {e : LogEntry} (found : elogEntry s d.toNat = some e)
    (dies : s.dies.length = 4) : ∃ t, exec (.elogEntryRead d k) s = .next t
      ∧ t.outbox = .host s.ideKeys (.regData (BitVec.ofNat 64 (leNat ((e.bytes.drop (8 * k.toNat)).take 8)))) :: s.outbox
      ∧ (t.die d.toNat).log[s.field (ELOGCTL d.toNat) 16 6]? = some (some { e with wasRead := true }) := by
  have bound := d.isLt
  have next : execElogEntryRead d k s = .next (elogRead s d.toNat k.toNat) := withPower_on on _
  rw [elogRead_some found] at next
  refine ⟨_, next, rfl, ?_⟩
  rw [State.die_modDie_self (s.emitHost _) (lt_of_lt_of_eq bound dies.symm)]
  exact List.getElem?_set_self (List.getElem?_eq_some_iff.mp (Option.join_eq_some_iff.mp found)).1

theorem elogEntryRead_none {s : State} (on : s.powered = true) (d k : BitVec 2) (none : elogEntry s d.toNat = none) :
    exec (.elogEntryRead d k) s = .next (s.emit (.host s.ideKeys (.regData 0#64))) := by
  have next : execElogEntryRead d k s = .next (elogRead s d.toNat k.toNat) := withPower_on on _
  have data : elogData s d.toNat k.toNat = 0 := by
    unfold elogData
    rw [none]
  have again (m : HostMsg) : elogEntry (s.emitHost m) d.toNat = .none := none
  unfold elogRead elogMarkRead at next
  rw [data, again] at next
  exact next

theorem errorCounters_written {s : State} (on : s.powered = true) (off : BitVec 20) (h : off.toNat = ERRCNT0 ∨ off.toNat = ERRCNT1) (v : DWord) :
    WritesFields s v off.toNat [(0, 64)] := by
  refine writesFields_of_eq on off.isLt (by decide) ?_
  rcases h with h | h <;> rw [h] <;> rfl

/-! ## Identity (R31, R231) -/

/-- A number that is written and locked. -/
theorem lockedField (s : State) (off : Nat) {w v : Nat} (fits : w ≤ 16) (h : v < 2 ^ w) :
    ((s.setField off 0 w v).setField off 16 1 1).field off 0 w = v ∧ ((s.setField off 0 w v).setField off 16 1 1).field off 16 1 = 1
      ∧ OtherRegisters s ((s.setField off 0 w v).setField off 16 1 1) [off] := by
  refine ⟨?_, State.bit_setField _ _ (by omega), ?_⟩
  · rw [State.field_setField_apart _ _ (by omega) (by omega), State.field_setField_self _ _ (by omega), Nat.mod_eq_of_lt h]
  · exact OtherRegisters.setField (OtherRegisters.setField (OtherRegisters.refl s _) List.mem_cons_self 0 w v) List.mem_cons_self 16 1 1

theorem incarnWrite_event {s : State} (on : s.powered = true) (v : BitVec 16) :
    (s.field INCARN 16 1 = 0 → ∃ t, exec (.incarnWrite v) s = .next t ∧ t.field INCARN 0 16 = v.toNat
      ∧ t.field INCARN 16 1 = 1 ∧ OtherRegisters s t [INCARN])
    ∧ (s.field INCARN 16 1 = 1 → exec (.incarnWrite v) s = .next s) := by
  have next : execIncarnWrite v s = .next (writeIncarn s v.toNat) := withPower_on on _
  refine ⟨fun free => ⟨_, next.trans (congrArg _ (if_pos free)), lockedField s INCARN (by omega) v.isLt⟩, fun locked => ?_⟩
  exact next.trans (congrArg _ (if_neg (by omega)))

theorem devnumWrite_event {s : State} (on : s.powered = true) (v : BitVec 10) :
    (s.field DEVNUM 16 1 = 0 → ∃ t, exec (.devnumWrite v) s = .next t ∧ t.devnum = v.toNat
      ∧ t.field DEVNUM 16 1 = 1 ∧ OtherRegisters s t [DEVNUM])
    ∧ (s.field DEVNUM 16 1 = 1 → exec (.devnumWrite v) s = .next s) := by
  have next : execDevnumWrite v s = .next (writeDevnum s v.toNat) := withPower_on on _
  refine ⟨fun free => ⟨_, next.trans (congrArg _ (if_pos free)), lockedField s DEVNUM (by omega) v.isLt⟩, fun locked => ?_⟩
  exact next.trans (congrArg _ (if_neg (by omega)))

theorem dumpsLogsAndIdentity : DumpsLogsAndIdentity := by
  intro s on
  obtain ⟨notDue, due, ack, noAck, ovwr, noOvwr⟩ := lantern_events on
  exact ⟨notDue, due, ack, noAck, ovwr, noOvwr, fun d dies => elogClear_event on d dies,
    fun d k _ found dies => elogEntryRead_event on d k found dies,
    fun d k found => elogEntryRead_none on d k found, errorCounters_written on, fun v => (incarnWrite_event on v).1,
    fun v => (incarnWrite_event on v).2, fun v => (devnumWrite_event on v).1, fun v => (devnumWrite_event on v).2⟩

/-! ## MSI-X (R104) -/

theorem sendPending_closed {s : State} (closed : msixOpen s = false) (e : Nat) : sendPending s e = s := by
  unfold sendPending
  split
  · simp [closed]
  · rfl

theorem sendPending_config (s : State) (e : Nat) : (sendPending s e).hostCfg = s.hostCfg := by
  unfold sendPending
  split
  · split <;> rfl
  · rfl

/-- What a vector becomes once its message may be sent. -/
def MsixVec.sent (v : MsixVec) : MsixVec := { v with pending := v.pending && v.masked }

theorem sendPending_open {s : State} (opened : msixOpen s = true) {e : Nat} {v : MsixVec} (found : s.msix[e]? = some v) :
    (sendPending s e).msix = s.msix.set e v.sent
      ∧ (sendPending s e).outbox = if v.pending && !v.masked then .host s.ideKeys (.msix e) :: s.outbox else s.outbox := by
  obtain ⟨bound, rfl⟩ := List.getElem?_eq_some_iff.mp found
  unfold sendPending
  rw [found]
  dsimp only
  rw [opened, Bool.and_true]
  generalize hv : s.msix[e] = v at found ⊢
  cases send : v.pending && !v.masked
  · have same : v.sent = v := by
      cases v with | mk addr data masked pending => cases pending <;> cases masked <;> simp_all [MsixVec.sent]
    rw [same, ← hv, List.set_getElem_self]
    exact ⟨rfl, rfl⟩
  · have emptied : v.sent = { v with pending := false } := by
      cases v with | mk addr data masked pending => cases pending <;> cases masked <;> simp_all [MsixVec.sent]
    rw [emptied]
    exact ⟨rfl, rfl⟩

theorem sendPending_vectors {s : State} (opened : msixOpen s = true) (e i : Nat) :
    (sendPending s e).msix[i]? = if i = e then (s.msix[i]?).map MsixVec.sent else s.msix[i]? := by
  cases found : s.msix[e]? with
  | none =>
    have same : sendPending s e = s := by
      unfold sendPending
      rw [found]
    rw [same]
    split
    case isTrue here => rw [here, found]; rfl
    case isFalse => rfl
  | some v =>
    rw [(sendPending_open opened found).1]
    by_cases here : i = e
    · rw [if_pos here, here, found, List.getElem?_set_self (List.getElem?_eq_some_iff.mp found).1]
      rfl
    · rw [if_neg here, List.getElem?_set_ne (Ne.symm here)]

theorem foldl_sendPending_config (l : List Nat) (s : State) : (l.foldl sendPending s).hostCfg = s.hostCfg :=
  foldl_keeps State.hostCfg sendPending_config l s

theorem foldl_sendPending_closed {s : State} (closed : msixOpen s = false) (l : List Nat) : l.foldl sendPending s = s := by
  induction l with
  | nil => rfl
  | cons e es ih => rw [List.foldl_cons, sendPending_closed closed, ih]

theorem foldl_sendPending_vectors {s : State} (opened : msixOpen s = true) (n i : Nat) :
    ((List.range n).foldl sendPending s).msix[i]? = if i < n then (s.msix[i]?).map MsixVec.sent else s.msix[i]? := by
  induction n with
  | zero => rfl
  | succ n ih =>
    have opened' : msixOpen ((List.range n).foldl sendPending s) = true := by
      unfold msixOpen
      rw [foldl_sendPending_config]
      exact opened
    rw [List.range_succ, List.foldl_concat, sendPending_vectors opened', ih]
    rcases Nat.lt_trichotomy i n with below | rfl | above
    · rw [if_neg (by omega), if_pos below, if_pos (by omega)]
    · rw [if_pos rfl, if_neg (by omega), if_pos (by omega)]
    · rw [if_neg (by omega), if_neg (by omega), if_neg (by omega)]

theorem foldl_sendPending_all {s : State} (opened : msixOpen s = true) {n : Nat} (all : s.msix.length = n) :
    ((List.range n).foldl sendPending s).msix = s.msix.map MsixVec.sent := by
  refine List.ext_getElem? fun i => ?_
  rw [foldl_sendPending_vectors opened, List.getElem?_map]
  split
  · rfl
  · rw [List.getElem?_eq_none (by omega)]
    rfl

/-- A vector's mask is cleared. -/
def clearMask (s : State) (e : Nat) (v : MsixVec) : State := { s with msix := s.msix.set e { v with masked := false } }

theorem msixVectorUnmask_event {s : State} (on : s.powered = true) (e : BitVec 7) {v : MsixVec} (found : s.msix[e.toNat]? = some v) :
    ∃ t, exec (.msixVectorUnmask e) s = .next t
      ∧ t.msix = s.msix.set e.toNat { v with masked := false, pending := v.pending && !msixOpen s }
      ∧ t.outbox = if v.pending && msixOpen s then .host s.ideKeys (.msix e.toNat) :: s.outbox else s.outbox := by
  have next : execMsixVectorUnmask e s = .next (unmaskMsix s e.toNat) := withPower_on on _
  have unmasks : unmaskMsix s e.toNat = sendPending (clearMask s e.toNat v) e.toNat := by
    unfold unmaskMsix
    rw [found]
    rfl
  have bound := (List.getElem?_eq_some_iff.mp found).1
  have unmasked : (clearMask s e.toNat v).msix[e.toNat]? = some { v with masked := false } := List.getElem?_set_self bound
  refine ⟨_, next, ?_⟩
  rw [unmasks]
  cases opened : msixOpen s
  · rw [sendPending_closed (s := clearMask s e.toNat v) opened, Bool.not_false, Bool.and_true, Bool.and_false]
    exact ⟨rfl, rfl⟩
  · obtain ⟨vectors, sent⟩ := sendPending_open (s := clearMask s e.toNat v) opened unmasked
    rw [vectors, sent, Bool.not_true, Bool.and_true, Bool.and_false]
    exact ⟨(List.set_set ..).trans (by simp [MsixVec.sent]), by simp [clearMask]⟩

theorem msixVectorUnmask_none {s : State} (on : s.powered = true) (e : BitVec 7) (none : s.msix[e.toNat]? = none) :
    exec (.msixVectorUnmask e) s = .next s := by
  have next : execMsixVectorUnmask e s = .next (unmaskMsix s e.toNat) := withPower_on on _
  unfold unmaskMsix at next
  rw [none] at next
  exact next

/-! ## Configuration requests (R33, R102, R104) -/

theorem configuration_eq {s : State} (on : s.powered = true) (w : Option ConfigAccess) : exec (.configurationRequest w) s
    = .next (if (s.die 0).up then
        match w with
        | some w => serveConfig s w
        | none => s.emitHost .configDone
      else s.emitHost .configRetry) := (withPower_on on _ : execConfigurationRequest w s = _)

theorem configuration_retry {s : State} (on : s.powered = true) (down : (s.die 0).up = false) (w : Option ConfigAccess) :
    exec (.configurationRequest w) s = .next (s.emit (.host s.ideKeys .configRetry)) := by
  rw [configuration_eq on, down]
  rfl

theorem configuration_served {s : State} (on : s.powered = true) (up : (s.die 0).up = true) (w : ConfigAccess) :
    exec (.configurationRequest (some w)) s = .next (serveConfig s w) := by
  rw [configuration_eq on, up]
  rfl

theorem bar_written {s : State} (on : s.powered = true) (up : (s.die 0).up = true) (n : BitVec 2) (a : DWord)
    (bars : s.hostCfg.bars.length = 3) (hn : n.toNat < 3) : ∃ t,
      exec (.configurationRequest (some (.bar n a))) s = .next t ∧ t.outbox = .host s.ideKeys .configDone :: s.outbox
        ∧ t.hostCfg.bars[n.toNat]? = some (BitVec.ofNat 64 (a.toNat / barSize n.toNat * barSize n.toNat))
        ∧ ∀ k, k ≠ n.toNat → t.hostCfg.bars[k]? = s.hostCfg.bars[k]? :=
  ⟨_, configuration_served on up _, rfl, List.getElem?_set_self (lt_of_lt_of_eq hn bars.symm), fun _ hk => List.getElem?_set_ne hk.symm⟩

theorem bar_high (a : DWord) : BitVec.ofNat 32 (a.toNat / 2 ^ 32) = a.extractLsb' 32 32 := by
  refine BitVec.eq_of_toNat_eq ?_
  rw [BitVec.toNat_ofNat, BitVec.extractLsb'_toNat, Nat.shiftRight_eq_div_pow]

theorem bar_low (a : DWord) (code : BitVec 4) : BitVec.ofNat 32 (a.toNat / 16 * 16 + code.toNat) = (a.extractLsb' 4 28 ++ code : BitVec 32) := by
  refine BitVec.eq_of_toNat_eq ?_
  rw [BitVec.toNat_ofNat, BitVec.toNat_append, BitVec.extractLsb'_toNat, Nat.shiftRight_eq_div_pow, ← Nat.shiftLeft_add_eq_or_of_lt code.isLt,
    Nat.shiftLeft_eq]
  have := code.isLt
  omega

theorem barRegister_eq {s : State} {r : BitVec 3} {v : Word}
    (held : ∀ a, s.hostCfg.bars[r.toNat / 2]? = some a → r.toNat < 6 →
      v = if r.toNat % 2 = 1 then a.extractLsb' 32 32 else (a.extractLsb' 4 28 ++ (if r.toNat = 0 then 0x4#4 else 0xC#4)))
    (some : r.toNat < 6 → (s.hostCfg.bars[r.toNat / 2]?).isSome = true) (high : 6 ≤ r.toNat → v = 0#32) : barRegister s r.toNat = v := by
  unfold barRegister
  dsimp only
  by_cases pair : 6 ≤ r.toNat
  · rw [if_pos pair, high pair]
  · obtain ⟨a, ha⟩ := Option.isSome_iff_exists.mp (some (by omega))
    rw [if_neg pair, held a ha (by omega), List.getD_eq_getElem?_getD, ha, Option.getD_some]
    split
    · exact bar_high a
    · by_cases zero : r.toNat = 0
      · rw [if_pos (by omega), if_pos zero]
        exact bar_low a 0x4#4
      · rw [if_neg (by omega), if_neg zero]
        exact bar_low a 0xC#4

/-- A configuration write of MSI-X, before pending messages go. -/
def msixConfigured (s : State) (enable masked : Bool) : State :=
  { s.emitHost .configDone with hostCfg := { s.hostCfg with msixEnable := enable, msixMask := masked } }

theorem msix_configured {s : State} (on : s.powered = true) (up : (s.die 0).up = true) (enable masked : Bool) : ∃ t,
    exec (.configurationRequest (some (.msix enable masked))) s = .next t
      ∧ t.hostCfg = { s.hostCfg with msixEnable := enable, msixMask := masked }
      ∧ (enable = true → masked = false → s.msix.length = 65 → t.msix = s.msix.map fun v => { v with pending := v.pending && v.masked })
      ∧ (enable = false ∨ masked = true → t.msix = s.msix) := by
  have opened : msixOpen (msixConfigured s enable masked) = (enable && !masked) := rfl
  have next : exec (.configurationRequest (some (.msix enable masked))) s
      = .next ((List.range 65).foldl sendPending (msixConfigured s enable masked)) := configuration_served on up _
  refine ⟨_, next, foldl_sendPending_config _ _, fun yes no all => ?_, fun closed => ?_⟩
  · exact foldl_sendPending_all (by rw [opened, yes, no]; rfl) all
  · have off : (enable && !masked) = false := by rcases closed with h | h <;> simp [h]
    rw [foldl_sendPending_closed (opened.trans off)]
    rfl

/-! ## Snoops (R181) -/

theorem returnHost_keeps (s : State) (w : Nat) (x : CanWord) : (returnHost s w x).dies = s.dies ∧ (returnHost s w x).mregs = s.mregs := by
  unfold returnHost
  split <;> exact ⟨rfl, rfl⟩

theorem snoop_event {s : State} (on : s.powered = true) (line : BitVec 51) (dies : s.dies.length = 4) :
    ∃ t, exec (.cxlCacheSnoop line) s = .next t ∧ t.mregs = s.mregs
      ∧ (t.die 0).canopy = (s.die 0).canopy.filter fun e => !decide (hostBase ≤ e.1 ∧ (e.1 - hostBase) / 32 = line.toNat) := by
  refine ⟨_, (withPower_on on _ : execCxlCacheSnoop line s = _), ?_, ?_⟩
  · refine foldl_keeps State.mregs (fun u e => ?_) _ _
    split
    · exact (returnHost_keeps ..).2
    · rfl
  · dsimp only
    generalize returned : List.foldl _ s _ = u
    have same : u.dies = s.dies := by
      rw [← returned]
      refine foldl_keeps State.dies (fun u e => ?_) _ _
      split
      · exact (returnHost_keeps ..).1
      · rfl
    rw [State.die_modDie_self u (by rw [same]; omega)]
    unfold State.die
    rw [same]

theorem theHostLinkIsServed : TheHostLinkIsServed := by
  intro s on
  refine ⟨(withPower_on on _ : execIdeKeyProgram s = _), fun w down => configuration_retry on down w, fun up => ⟨?_, fun on' => ?_, ?_, ?_, ?_⟩,
    fun line dies => snoop_event on line dies, fun e v found => msixVectorUnmask_event on e found, fun e none => msixVectorUnmask_none on e none⟩
  · rw [configuration_eq on, up]
    rfl
  · exact configuration_served on up _
  · exact fun n a bars hn => bar_written on up n a bars hn
  · intro r v held some high
    rw [configuration_served on up, serveConfig, barRegister_eq held some high]
    rfl
  · exact fun enable masked => msix_configured on up enable masked

/-- Settles O45: event by event; an enabled MSI-X function sends what is pending by a fold over the vectors. -/
theorem dumpsLogsIdentityAndHostLink : Obligations.DumpsLogsIdentityAndHostLink := ⟨dumpsLogsAndIdentity, theHostLinkIsServed⟩

end Sys2Proof.Machine
end

section
/-! PROOF. What the bytes of a number are, what an entry of the error log leaves, and the states of the link ports (R5, R21, R27, R28). -/

namespace Sys2Proof.Machine

/-! ## Little-endian bytes (R5) -/

@[simp] theorem leBytes_length (n v : Nat) : (leBytes n v).length = n := by
  induction n generalizing v with
  | zero => rfl
  | succ n ih => exact congrArg Nat.succ (ih _)

theorem leNat_leBytes (n v : Nat) : leNat (leBytes n v) = v % 256 ^ n := by
  induction n generalizing v with
  | zero => simp [leBytes, leNat, Nat.mod_one]
  | succ n ih =>
    show (BitVec.ofNat 8 v).toNat + 256 * leNat (leBytes n (v / 256)) = _
    rw [ih, BitVec.toNat_ofNat, Nat.pow_succ' (m := 256), Nat.mod_mul]

theorem leNat_leBytes_of_lt {n v : Nat} (h : v < 256 ^ n) : leNat (leBytes n v) = v := by
  rw [leNat_leBytes, Nat.mod_eq_of_lt h]

theorem leNat_lt (bs : List Byte) : leNat bs < 256 ^ bs.length := by
  induction bs with
  | nil => exact Nat.one_pos
  | cons b bs ih =>
    have := b.isLt
    show b.toNat + 256 * leNat bs < 256 ^ (bs.length + 1)
    rw [Nat.pow_succ]
    omega

/-! ## The error log (R21) -/

/-- What the writes of registers and of logs leave, an entry of the error log leaves. -/
theorem State.logError_keeps {γ : Type} (g : State → γ) (registers : ∀ s off lo w x, g (State.setField s off lo w x) = g s)
    (logs : ∀ s d f, g (State.modDie s d f) = g s) (s : State) (d : Nat) (agent : Word) (code detail addr : Nat) :
    g (s.logError d agent code detail addr) = g s := by
  unfold State.logError State.countDie State.count
  extract_lets e k lost u v
  have lostKept : g v = g s := by
    show g (if lost then _ else u) = _
    split
    · exact (registers ..).trans (logs ..)
    · exact logs ..
  exact (registers ..).trans ((registers ..).trans lostKept)

theorem State.logError_ports (s : State) (d : Nat) (agent : Word) (code detail addr : Nat) :
    (s.logError d agent code detail addr).ports = s.ports :=
  State.logError_keeps State.ports State.setField_ports State.modDie_ports ..

theorem State.mreg_logError (s : State) {d o : Nat} (hd : d < 4) (h : o < 0x400 ∨ 0x900 ≤ o) (agent : Word) (code detail addr : Nat) :
    (s.logError d agent code detail addr).mreg o = s.mreg o := by
  have control : o ≠ ELOGCTL d := by unfold ELOGCTL; omega
  have counter : o ≠ CNT d 13 := by unfold CNT; omega
  unfold State.logError
  extract_lets e k lost u v
  have lostKept : v.mreg o = s.mreg o := by
    show (if lost then u.countDie d .eloglost else u).mreg o = _
    split
    · exact State.mreg_count_ne _ counter ..
    · rfl
  rw [State.mreg_count_ne _ control, State.mreg_setField_ne _ control, lostKept]

theorem logDie_lt (s : State) {d : Nat} (h : d < 4) : logDie s d < 4 := by
  unfold logDie
  split
  · split <;> decide
  · exact h

/-! ## Ports (R27, R28) -/

theorem LLSTAT_outside_log {p : Nat} (h : p < 24) : LLSTAT p < 0x400 := by unfold LLSTAT; omega

theorem setPortEnable_switches {s : State} {p : Nat} {on : Bool} (h : s.field LLEN p 1 = (!on).toNat) :
    setPortEnable s p on = switchPort s p on.toNat := by
  unfold setPortEnable llEnabled
  rw [h]
  cases on <;> rfl

theorem setPortEnable_same {s : State} {p : Nat} {on : Bool} (h : s.field LLEN p 1 = on.toNat) : setPortEnable s p on = s := by
  unfold setPortEnable llEnabled
  rw [h]
  cases on <;> rfl

theorem switchPort_event (s : State) {p : Nat} (hp : p < 24) (ports : s.ports.length = 24) (on : Bool) :
    (switchPort s p on.toNat).field LLEN p 1 = on.toNat ∧ (switchPort s p on.toNat).portState p = on.toNat
      ∧ (switchPort s p on.toNat).port p = Port.reset ∧ OtherRegisters s (switchPort s p on.toNat) [LLEN, LLSTAT p] := by
  have bit : on.toNat < 2 := on.toNat_lt
  obtain ⟨state, port⟩ := switchPort_own s (p := p) (by omega) bit
  refine ⟨?_, state, port, fun o ho => ?_⟩
  · have enables : (switchPort s p on.toNat).mreg LLEN = (s.setField LLEN p 1 on.toNat).mreg LLEN :=
      State.mreg_setField_ne _ (LLSTAT_ne_LLEN p).symm ..
    rw [State.field_congr enables, State.field_setField_self _ _ (by omega), Nat.mod_eq_of_lt (by omega)]
  · simp only [List.mem_cons, List.not_mem_nil, or_false, not_or] at ho
    exact switchPort_mreg_ne s p _ ho.1 ho.2

/-- A port starts to train. -/
theorem trainPort_event (s : State) {p : Nat} (hp : p < 24) (ports : s.ports.length = 24) :
    (trainPort s p).portState p = 1 ∧ (trainPort s p).port p = Port.reset ∧ OtherRegisters s (trainPort s p) [LLSTAT p] := by
  refine ⟨State.field_setField_self _ _ (by omega) 1, State.port_setPort_self _ (lt_of_lt_of_eq hp ports.symm) _, ?_⟩
  exact fun o ho => OtherRegisters.setField (OtherRegisters.refl s _) List.mem_cons_self 0 4 1 o ho

theorem portsAreEnabledAndTrained : PortsAreEnabledAndTrained := by
  intro s p on ports hp
  have enable : execLlPortEnable p s = .next (setPortEnable s p.toNat true) := (withPower_on on _).trans (congrArg _ (if_pos hp))
  have disable : execLlPortDisable p s = .next (setPortEnable s p.toNat false) := (withPower_on on _).trans (congrArg _ (if_pos hp))
  have retrain : execLlStateRetrain p s = .next _ := withPower_on on _
  have trained : execLlTrained p s = .next _ := withPower_on on _
  refine ⟨fun off => ?_, fun already => ?_, fun up => ?_, fun already => ?_, fun down => ?_, fun other => ?_, fun training => ?_, fun other => ?_⟩
  · rw [setPortEnable_switches off] at enable
    exact ⟨_, enable, switchPort_event s hp ports true⟩
  · rw [setPortEnable_same already] at enable
    exact enable
  · rw [setPortEnable_switches up] at disable
    exact ⟨_, disable, switchPort_event s hp ports false⟩
  · rw [setPortEnable_same already] at disable
    exact disable
  · exact ⟨_, retrain.trans (congrArg _ (if_pos ⟨hp, down⟩)), trainPort_event s hp ports⟩
  · exact retrain.trans (congrArg _ (if_neg fun h => other h.2))
  · refine ⟨_, trained.trans (congrArg _ (if_pos ⟨hp, training⟩)), State.field_setField_self _ _ (by omega) 2, rfl, ?_⟩
    exact fun o ho => OtherRegisters.setField (OtherRegisters.refl s _) List.mem_cons_self 0 4 2 o ho
  · exact trained.trans (congrArg _ (if_neg fun h => other h.2))

end Sys2Proof.Machine
end

section
/-! PROOF. Flits, their replay and their receipt (R24, R25, R26, R28). -/

namespace Sys2Proof.Machine

/-! ## What a port sends (R24, R26) -/

theorem Port.stop_empty {x : Port} (h : x.held = 0) : x.stop = false := by
  unfold Port.stop
  rw [h]
  exact decide_eq_false (by omega)

theorem Port.go_empty {x : Port} (h : x.held = 0) : x.go = x.choked := by
  unfold Port.go rxSize
  rw [h, decide_eq_true (by omega), Bool.and_true]

/-- A port with an empty input buffer has nothing left to say once it has sent. -/
theorem Port.sent_empty {x : Port} (h : x.held = 0) : x.sent = { x with nak := false, choked := false } := by
  unfold Port.sent
  rw [Port.stop_empty h, Port.go_empty h]
  cases x.choked <;> rfl

theorem Port.sent_sent {x : Port} (h : x.held = 0) : x.sent.sent = x.sent := by
  have held : x.sent.held = 0 := h
  rw [Port.sent_empty held, Port.sent_empty h]

theorem Port.control_lt (x : Port) : x.control < 256 ^ 2 := by
  unfold Port.control
  dsimp only
  cases x.nak <;> cases x.stop <;> cases x.go <;> simp only [if_true, Bool.false_eq_true, if_false] <;> omega

theorem drainPort_empty {s : State} {p : Nat} (h : (s.port p).held = 0) : drainPort s p = s := if_pos h

/-! ## The bytes of a flit (R24) -/

theorem sealFlit_length {body : List Byte} (h : body.length = 252) : (sealFlit body).length = 256 := by
  simp [sealFlit, h]

theorem sealFlit_take {body : List Byte} (h : body.length = 252) : (sealFlit body).take 252 = body := List.take_left' h

theorem sealFlit_crc {body : List Byte} (h : body.length = 252) :
    leNat ((sealFlit body).drop 252) = (crc32c ((sealFlit body).take 252)).toNat := by
  rw [sealFlit_take h]
  unfold sealFlit
  rw [List.drop_left' h]
  exact leNat_leBytes_of_lt (crc32c body).isLt

/-- Bytes 0 to 251 of a flit of this device. -/
def flitBody (s : State) (p ty seq dst : Nat) (payload : List Byte) : List Byte :=
  leBytes 2 (seq % 4096 + 4096 * ty) ++ leBytes 2 (s.port p).control ++ leBytes 2 s.devnum
    ++ leBytes 2 (s.field INCARN 0 16) ++ leBytes 2 dst ++ leBytes 6 0 ++ (payload ++ List.replicate 236 0#8).take 236

theorem flitBody_length (s : State) (p ty seq dst : Nat) (payload : List Byte) : (flitBody s p ty seq dst payload).length = 252 := by
  unfold flitBody
  simp only [List.length_append, leBytes_length, List.length_take, List.length_replicate]
  omega

theorem makeFlit_fields (s : State) {p ty seq dst : Nat} (hty : ty ≤ 3) (payload : List Byte) :
    let bs := makeFlit s p ty seq dst payload
    bs.length = 256 ∧ leNat (bs.take 2) = seq % 4096 + 4096 * ty ∧ leNat ((bs.drop 2).take 2) = (s.port p).control
      ∧ leNat (bs.drop 252) = (crc32c (bs.take 252)).toNat := by
  have body := flitBody_length s p ty seq dst payload
  refine ⟨sealFlit_length body, ?_, ?_, sealFlit_crc body⟩
  · have start : (makeFlit s p ty seq dst payload).take 2 = leBytes 2 (seq % 4096 + 4096 * ty) := by
      unfold makeFlit sealFlit
      simp only [List.append_assoc]
      exact List.take_left' (leBytes_length 2 _)
    rw [start, leNat_leBytes_of_lt (by omega)]
  · have word : ((makeFlit s p ty seq dst payload).drop 2).take 2 = leBytes 2 (s.port p).control := by
      unfold makeFlit sealFlit
      simp only [List.append_assoc]
      rw [List.drop_left' (leBytes_length 2 _)]
      exact List.take_left' (leBytes_length 2 _)
    rw [word, leNat_leBytes_of_lt (Port.control_lt _)]

/-! ## What a flit says that arrives (R25, R26) -/

theorem State.field_count (s : State) (off : Nat) {lo w : Nat} (h : lo + w ≤ 64) (n : Nat) :
    (s.count off lo w n).field off lo w = min (s.field off lo w + n) (2 ^ w - 1) := by
  have full : 2 ^ w - 1 < 2 ^ w := Nat.sub_lt (Nat.two_pow_pos w) Nat.one_pos
  unfold State.count
  rw [State.field_setField_self _ _ h, Nat.mod_eq_of_lt (lt_of_le_of_lt (Nat.min_le_right _ _) full)]

@[simp] theorem State.setPort_field (s : State) (p : Nat) (x : Port) (o lo w : Nat) : (s.setPort p x).field o lo w = s.field o lo w := rfl
@[simp] theorem State.setPort_ports_length (s : State) (p : Nat) (x : Port) : (s.setPort p x).ports.length = s.ports.length := List.length_set
@[simp] theorem State.setPort_outbox (s : State) (p : Nat) (x : Port) : (s.setPort p x).outbox = s.outbox := rfl

/-- The test of a flit's length and CRC in the model's words. -/
def crcWrong (flit : List Byte) : Prop :=
  flit.length ≠ 256 ∨ BitVec.ofNat 32 (leNat ((flit.drop 252).take 4)) ≠ crc32c (flit.take 252)

theorem crcWrong_iff (flit : List Byte) :
    crcWrong flit ↔ flit.length ≠ 256 ∨ leNat (flit.drop 252) ≠ (crc32c (flit.take 252)).toNat := by
  refine or_congr_right' fun length => not_congr ?_
  have four : (flit.drop 252).length = 4 := by
    rw [List.length_drop]
    omega
  have fits : leNat (flit.drop 252) < 2 ^ 32 := by
    have := leNat_lt (flit.drop 252)
    rwa [four] at this
  rw [List.take_of_length_le four.le, ← BitVec.toNat_inj, BitVec.toNat_ofNat, Nat.mod_eq_of_lt fits]

theorem receiveFlit_wrong {s : State} {p : Nat} (empty : (s.port p).held = 0) {flit : List Byte} (wrong : crcWrong flit) :
    receiveFlit s p flit = ((s.count (LLSTAT p) 48 16 1).countDrop).setPort p { s.port p with nak := true } := by
  unfold receiveFlit
  dsimp only
  rw [drainPort_empty empty]
  exact if_pos wrong

theorem receiveFlit_right {s : State} {p : Nat} (empty : (s.port p).held = 0) {flit : List Byte} (right : ¬ crcWrong flit) : receiveFlit s p flit
    = if 4 ≤ leNat (flit.take 2) / 4096 then s.countDrop
      else if leNat (flit.take 2) / 4096 = 0 then flitControl s p (leNat ((flit.drop 2).take 2))
      else if !gateOpen s then s.countDrop
      else
        let t := flitControl s p (leNat ((flit.drop 2).take 2))
        if t.portState p ≠ 2 ∨ leNat (flit.take 2) % 4096 ≠ (s.port p).rxExpect ∨ rxSize ≤ (s.port p).held then t
        else
          acceptMessage (t.setPort p { t.port p with rxExpect := ((s.port p).rxExpect + 1) % 4096, held := (s.port p).held + 1 }) p
            (leNat ((flit.drop 4).take 2) % 1024) (leNat ((flit.drop 6).take 2)) ((flit.drop 16).take 236) := by
  unfold receiveFlit
  dsimp only
  rw [drainPort_empty empty]
  exact if_neg right

/-- A flit that acknowledges and says nothing more. -/
theorem flitControl_quiet (s : State) (p : Nat) {w1 : Nat} (quiet : w1 / 4096 % 8 = 0) :
    ∃ left, flitControl s p w1 = s.setPort p { s.port p with replay := left } := by
  have bit {i : Nat} (h : i = 12 ∨ i = 13 ∨ i = 14) : ¬ fieldOf w1 i 1 = 1 := by
    unfold fieldOf
    rcases h with rfl | rfl | rfl <;> omega
  unfold flitControl
  dsimp only
  rw [if_neg (bit (by simp)), if_neg (bit (by simp)), if_neg (bit (by simp))]
  exact ⟨_, rfl⟩

theorem State.logError_port (s : State) (d : Nat) (agent : Word) (code detail addr r : Nat) :
    (s.logError d agent code detail addr).port r = s.port r := by
  unfold State.port
  rw [State.logError_ports]

/-- What a message that is dropped, and one that is taken, leave. -/
theorem acceptMessage_keeps {γ : Type} (g : State → γ) (s : State) (p src inc : Nat) (payload : List Byte)
    (dropped : g (s.count INCARN 32 16 1).countDrop = g s)
    (taken : ∀ peers dead a m, g ((noteHeard { s with peerInc := peers, deadAgents := dead } a).emit m) = g s) :
    g (acceptMessage s p src inc payload) = g s := by
  unfold acceptMessage
  extract_lets a cur behind
  split
  · exact dropped
  · split
    · rfl
    · exact taken ..

theorem acceptMessage_ports (s : State) (p src inc : Nat) (payload : List Byte) : (acceptMessage s p src inc payload).ports = s.ports :=
  acceptMessage_keeps State.ports s p src inc payload (by rw [State.countDrop, State.count_ports, State.count_ports]) fun _ _ _ _ => rfl

theorem acceptMessage_port (s : State) (p src inc : Nat) (payload : List Byte) (r : Nat) :
    (acceptMessage s p src inc payload).port r = s.port r := by
  unfold State.port
  rw [acceptMessage_ports]

/-! ## A flit sent again (R25) -/

/-- The bytes of a numbered flit that is sent once more. -/
def again (control : Nat) (bs : List Byte) : List Byte := sealFlit (bs.take 2 ++ leBytes 2 control ++ (bs.drop 4).take 248)

theorem again_bytes {bs : List Byte} (h : bs.length = 256) (control : Nat) : (again control bs).take 2 = bs.take 2
    ∧ ((again control bs).drop 4).take 248 = (bs.drop 4).take 248
    ∧ leNat ((again control bs).drop 252) = (crc32c ((again control bs).take 252)).toNat := by
  have two : (bs.take 2).length = 2 := by rw [List.length_take]; omega
  have rest : ((bs.drop 4).take 248).length = 248 := by rw [List.length_take, List.length_drop]; omega
  have head : (bs.take 2 ++ leBytes 2 control).length = 4 := by rw [List.length_append, two, leBytes_length]
  refine ⟨?_, ?_, sealFlit_crc (by rw [List.length_append, head, rest])⟩
  · unfold again sealFlit
    rw [List.append_assoc, List.append_assoc]
    exact List.take_left' two
  · unfold again sealFlit
    rw [List.append_assoc, List.drop_left' head]
    exact List.take_left' rest

theorem resend_eq (s : State) (p : Nat) (f : Nat × List Byte × Nat) :
    resend s p f = (s.emit (.flit p (again (s.port p).control f.2.1))).setPort p (s.port p).sent := rfl

/-- What a port that has spoken sends again. -/
def replayed (p : Nat) (x : Port) (f : Nat × List Byte × Nat) : OutMsg := .flit p (again x.sent.control f.2.1)

/-- The replay of a port that has spoken already. -/
theorem foldl_resend_spoken {s : State} {p : Nat} {x : Port} (hp : p < s.ports.length) (port : s.port p = x.sent) (empty : x.held = 0)
    (l : List (Nat × List Byte × Nat)) : let t := l.foldl (fun s f => resend s p f) s
      t.port p = x.sent ∧ t.outbox = (l.map (replayed p x)).reverse ++ s.outbox ∧ t.mregs = s.mregs ∧ t.ports.length = s.ports.length := by
  induction l generalizing s with
  | nil => exact ⟨port, rfl, rfl, rfl⟩
  | cons f fs ih =>
    have spoken : (resend s p f).port p = x.sent := by
      rw [resend_eq, State.port_setPort_self (s.emit _) hp, port, Port.sent_sent empty]
    have length : (resend s p f).ports.length = s.ports.length := State.setPort_ports_length ..
    obtain ⟨last, out, regs, kept⟩ := ih (by rw [length]; exact hp) spoken
    refine ⟨last, ?_, regs, kept.trans length⟩
    rw [List.foldl_cons, out, resend_eq, port]
    simp [replayed, State.emit]

theorem foldl_resend {s : State} {p : Nat} {x : Port} (hp : p < s.ports.length) (port : x = s.port p) (empty : x.held = 0)
    (f : Nat × List Byte × Nat) (l : List (Nat × List Byte × Nat)) : let t := (f :: l).foldl (fun s f => resend s p f) s
      t.port p = x.sent ∧ t.outbox = (.flit p (again x.control f.2.1) :: l.map (replayed p x)).reverse ++ s.outbox ∧ t.mregs = s.mregs
        ∧ t.ports.length = s.ports.length := by
  have spoken : (resend s p f).port p = x.sent := by
    rw [resend_eq, State.port_setPort_self (s.emit _) hp, port]
  have length : (resend s p f).ports.length = s.ports.length := State.setPort_ports_length ..
  obtain ⟨last, out, regs, kept⟩ := foldl_resend_spoken (by rw [length]; exact hp) spoken empty l
  refine ⟨last, ?_, regs, kept.trans length⟩
  rw [List.foldl_cons, out, resend_eq, ← port]
  simp [State.emit]

section
variable {s : State} {p : BitVec 5} {x : Port} (on : s.powered = true) (ports : s.ports.length = 24) (hp : p.toNat < 24)
  (up : s.portState p.toNat = 2) (port : x = s.port p.toNat) (empty : x.held = 0)
include on ports hp up port empty

/-! ## Sending (R24, R26, R28) -/

omit ports in
theorem flitSend_eq {ty : BitVec 4} (hty : ty.toNat ≤ 3) (dst : BitVec 10) (pay : List Byte) : exec (.flitSend p ty dst pay) s
    = .next (if ty = 0#4 then (s.emit (.flit p.toNat (makeFlit s p.toNat 0 (x.txSeq + 4095) dst.toNat []))).setPort p.toNat x.sent
      else if !gateOpen s || x.stopped || decide (512 ≤ x.replay.length) then s
      else (s.emit (.flit p.toNat (makeFlit s p.toNat ty.toNat x.txSeq dst.toNat pay))).setPort p.toNat
        { x.sent with txSeq := (x.txSeq + 1) % 4096, replay := x.replay ++ [(x.txSeq, makeFlit s p.toNat ty.toNat x.txSeq dst.toNat pay, 0)] }) := by
  have drained : drainPort s p.toNat = s := drainPort_empty (port ▸ empty)
  have opened : ¬ (24 ≤ p.toNat ∨ s.portState p.toNat ≠ 2 ∨ 4 ≤ ty.toNat) := by
    rintro (h | h | h)
    · omega
    · exact h up
    · omega
  refine (withPower_on on _ : execFlitSend p ty dst pay s = _).trans (congrArg _ ?_)
  dsimp only
  rw [if_neg opened, drained, ← port]

theorem flitSend_numbered {ty : BitVec 4} (low : 1 ≤ ty.toNat) (high : ty.toNat ≤ 3) (dst : BitVec 10) (pay : List Byte) (gate : gateOpen s = true)
    (go : x.stopped = false) (room : x.replay.length < 512) : ∃ t bs, exec (.flitSend p ty dst pay) s = .next t ∧ bs.length = 256
        ∧ leNat (bs.take 2) = x.txSeq % 4096 + 4096 * ty.toNat ∧ leNat ((bs.drop 2).take 2) = x.control
        ∧ leNat (bs.drop 252) = (crc32c (bs.take 252)).toNat ∧ t.outbox = .flit p.toNat bs :: s.outbox
        ∧ t.port p.toNat = { x.sent with txSeq := (x.txSeq + 1) % 4096, replay := x.replay ++ [(x.txSeq, bs, 0)] } := by
  have next := flitSend_eq on hp up port empty high dst pay
  have numbered : ty ≠ 0#4 := by rintro rfl; exact absurd low (by decide)
  have free : ¬ (!gateOpen s || x.stopped || decide (512 ≤ x.replay.length)) = true := by
    rw [gate, go, decide_eq_false (by omega)]
    decide
  rw [if_neg numbered, if_neg free] at next
  obtain ⟨length, head, control, crc⟩ := makeFlit_fields s (p := p.toNat) (seq := x.txSeq) (dst := dst.toNat) high pay
  exact ⟨_, _, next, length, head, by rw [control, port], crc, rfl, State.port_setPort_self _ (lt_of_lt_of_eq hp ports.symm) _⟩

omit ports in
theorem flitSend_held {ty : BitVec 4} (low : 1 ≤ ty.toNat) (high : ty.toNat ≤ 3) (dst : BitVec 10) (pay : List Byte)
    (held : gateOpen s = false ∨ x.stopped = true ∨ 512 ≤ x.replay.length) : exec (.flitSend p ty dst pay) s = .next s := by
  have next := flitSend_eq on hp up port empty high dst pay
  have numbered : ty ≠ 0#4 := by rintro rfl; exact absurd low (by decide)
  have back : (!gateOpen s || x.stopped || decide (512 ≤ x.replay.length)) = true := by
    rcases held with h | h | h <;> simp [h]
  rw [if_neg numbered, if_pos back] at next
  exact next

theorem flitSend_idle (dst : BitVec 10) (pay : List Byte) : ∃ t bs, exec (.flitSend p 0#4 dst pay) s = .next t
    ∧ t.outbox = .flit p.toNat bs :: s.outbox ∧ t.port p.toNat = x.sent := by
  have next := flitSend_eq on hp up port empty (ty := 0#4) (by decide) dst pay
  rw [if_pos rfl] at next
  exact ⟨_, _, next, rfl, State.port_setPort_self _ (lt_of_lt_of_eq hp ports.symm) _⟩

/-! ## Receipt (R25, R26) -/

omit ports port empty in
theorem flitReceive_next (flit : List Byte) : exec (.flitReceive p flit) s = .next (receiveFlit s p.toNat flit) :=
  (withPower_on on _ : execFlitReceive p flit s = _).trans (congrArg _ (if_pos ⟨hp, up⟩))

theorem flitReceive_wrongCrc {flit : List Byte} (wrong : flit.length ≠ 256 ∨ leNat (flit.drop 252) ≠ (crc32c (flit.take 252)).toNat) :
    ∃ t, exec (.flitReceive p flit) s = .next t ∧ t.port p.toNat = { x with nak := true }
      ∧ t.field (LLSTAT p.toNat) 48 16 = min (s.field (LLSTAT p.toNat) 48 16 + 1) (2 ^ 16 - 1)
      ∧ t.field ERRCNT1 32 32 = min (s.field ERRCNT1 32 32 + 1) (2 ^ 32 - 1) ∧ t.outbox = s.outbox := by
  have next := flitReceive_next on hp up flit
  have drops : LLSTAT p.toNat ≠ ERRCNT1 := by unfold LLSTAT ERRCNT1; omega
  rw [receiveFlit_wrong (port ▸ empty) ((crcWrong_iff flit).mpr wrong), ← port] at next
  refine ⟨_, next, State.port_setPort_self _ (lt_of_lt_of_eq hp ports.symm) _, ?_, ?_, by simp [State.countDrop]⟩
  · rw [State.setPort_field, State.countDrop, State.count, State.field_setField_ne _ drops, State.field_count _ _ (by omega)]
  · rw [State.setPort_field, State.countDrop, State.field_count _ _ (by omega), State.count, State.field_setField_ne _ drops.symm]

omit ports in
theorem flitReceive_reserved {flit : List Byte} (whole : flit.length = 256) (crc : leNat (flit.drop 252) = (crc32c (flit.take 252)).toNat)
    (reserved : 4 ≤ leNat (flit.take 2) / 4096) : exec (.flitReceive p flit) s = .next s.countDrop := by
  have next := flitReceive_next on hp up flit
  have right := mt (crcWrong_iff flit).mp (by rintro (h | h); exacts [h whole, h crc])
  rw [receiveFlit_right (port ▸ empty) right, if_pos reserved] at next
  exact next

theorem flitReceive_numbered {flit : List Byte} (whole : flit.length = 256) (crc : leNat (flit.drop 252) = (crc32c (flit.take 252)).toNat)
    (low : 1 ≤ leNat (flit.take 2) / 4096) (high : leNat (flit.take 2) / 4096 < 4) (gate : gateOpen s = true)
    (quiet : leNat ((flit.drop 2).take 2) / 4096 % 8 = 0) : ∃ t, exec (.flitReceive p flit) s = .next t
      ∧ (t.port p.toNat).rxExpect = (if leNat (flit.take 2) % 4096 = x.rxExpect then (x.rxExpect + 1) % 4096 else x.rxExpect)
      ∧ (t.port p.toNat).held = if leNat (flit.take 2) % 4096 = x.rxExpect then 1 else 0 := by
  have next := flitReceive_next on hp up flit
  have right := mt (crcWrong_iff flit).mp (by rintro (h | h); exacts [h whole, h crc])
  have shut : ¬ (!gateOpen s) = true := by rw [gate]; decide
  obtain ⟨left, acknowledged⟩ := flitControl_quiet s p.toNat quiet
  rw [receiveFlit_right (port ▸ empty) right, if_neg (by omega), if_neg (by omega), if_neg shut, acknowledged, ← port] at next
  have mine (t : State) (h : t.ports.length = 24) (y : Port) : (t.setPort p.toNat y).port p.toNat = y :=
    State.port_setPort_self t (lt_of_lt_of_eq hp h.symm) y
  have room : ¬ rxSize ≤ x.held := by
    unfold rxSize
    omega
  have stays : (s.setPort p.toNat { x with replay := left }).portState p.toNat = 2 := up
  refine ⟨_, next, ?_⟩
  dsimp only
  by_cases expected : leNat (flit.take 2) % 4096 = x.rxExpect
  · rw [if_neg (by rintro (h | h | h); exacts [h stays, h expected, room h]), if_pos expected, if_pos expected]
    rw [acceptMessage_port, mine _ (by rw [State.setPort_ports_length, ports]), mine s ports]
    exact ⟨rfl, congrArg (· + 1) empty⟩
  · rw [if_pos (.inr (.inl expected)), if_neg expected, if_neg expected, mine s ports]
    exact ⟨rfl, empty⟩

/-! ## Replay (R25) -/

omit port empty ports in
theorem llReplayTimeout_next : exec (.llReplayTimeout p) s = .next (retransmit s p.toNat) :=
  (withPower_on on _ : execLlReplayTimeout p s = _).trans (congrArg _ (if_pos ⟨hp, up⟩))

omit ports empty in
theorem llReplayTimeout_none (h : x.replay = [] ∨ x.stopped = true) : exec (.llReplayTimeout p) s = .next s := by
  have next := llReplayTimeout_next on hp up
  have nothing : (x.replay.isEmpty || x.stopped) = true := by rcases h with h | h <;> simp [h]
  unfold retransmit at next
  rw [← port, if_pos nothing] at next
  exact next

theorem llReplayTimeout_again (waiting : x.replay ≠ []) (go : x.stopped = false) (flits : ∀ f ∈ x.replay, f.2.1.length = 256 ∧ f.2.2 < 16) :
    ∃ (t : State) (fs : List OutMsg), exec (.llReplayTimeout p) s = .next t ∧ t.portState p.toNat = 2
      ∧ t.port p.toNat = { x.sent with replay := x.replay.map fun f => (f.1, f.2.1, f.2.2 + 1) }
      ∧ t.field (LLSTAT p.toNat) 32 16 = min (s.field (LLSTAT p.toNat) 32 16 + 1) (2 ^ 16 - 1)
      ∧ t.outbox = fs.reverse ++ s.outbox ∧ fs.length = x.replay.length
      ∧ ∀ (i : Nat) f, x.replay[i]? = some f → ∃ bs : List Byte, fs[i]? = some (.flit p.toNat bs) ∧ bs.take 2 = f.2.1.take 2
        ∧ (bs.drop 4).take 248 = (f.2.1.drop 4).take 248 ∧ leNat (bs.drop 252) = (crc32c (bs.take 252)).toNat := by
  have next := llReplayTimeout_next on hp up
  have pending : ¬ (x.replay.isEmpty || x.stopped) = true := by simp [waiting, go]
  have young : ¬ (x.replay.any fun f => decide (16 ≤ f.2.2)) = true := by
    simp only [List.any_eq_true, decide_eq_true_eq, not_exists, not_and]
    exact fun f hf => Nat.not_le.mpr (flits f hf).2
  unfold retransmit at next
  dsimp only at next
  rw [← port, if_neg pending, if_neg young] at next
  obtain ⟨f, l, hl⟩ := List.exists_cons_of_ne_nil waiting
  have resent := foldl_resend (lt_of_lt_of_eq hp ports.symm) port empty f l
  rw [← hl] at resent
  generalize x.replay.foldl (fun s f => resend s p.toNat f) s = u at next resent
  obtain ⟨spoken, out, regs, length⟩ := resent
  have same (o : Nat) : u.mreg o = s.mreg o := by unfold State.mreg; rw [regs]
  refine ⟨_, _, next, ?_, ?_, ?_, (State.setPort_outbox ..).trans out, by simp [hl], fun i g hg => ?_⟩
  · exact (State.field_setField_apart _ _ (by omega) (by omega) _).trans ((State.field_congr (same _)).trans up)
  · rw [State.port_setPort_self _ (by simpa [State.count, State.setField] using lt_of_lt_of_eq hp (length.trans ports).symm), spoken]
  · rw [State.setPort_field, State.field_count _ _ (by omega), State.field_congr (same _)]
  · rw [hl] at hg
    have bytes (control : Nat) := again_bytes (flits g (hl ▸ List.mem_of_getElem? hg)).1 control
    cases i with
    | zero =>
      obtain rfl : f = g := by simpa using hg
      exact ⟨_, rfl, bytes _⟩
    | succ i => exact ⟨_, by rw [List.getElem?_cons_succ, List.getElem?_map, show l[i]? = some g by simpa using hg]; rfl, bytes _⟩

omit empty in
theorem llReplayTimeout_down (go : x.stopped = false) (old : ∃ f ∈ x.replay, 16 ≤ f.2.2) : ∃ t, exec (.llReplayTimeout p) s = .next t
    ∧ t.portState p.toNat = 3 ∧ t.port p.toNat = Port.reset := by
  have next := llReplayTimeout_next on hp up
  obtain ⟨f, hf, age⟩ := old
  have pending : ¬ (x.replay.isEmpty || x.stopped) = true := by
    rw [go, List.isEmpty_eq_false_iff_exists_mem.mpr ⟨f, hf⟩]
    decide
  have tired : (x.replay.any fun f => decide (16 ≤ f.2.2)) = true := List.any_eq_true.mpr ⟨f, hf, decide_eq_true age⟩
  unfold retransmit at next
  dsimp only at next
  rw [← port, if_neg pending, if_pos tired] at next
  refine ⟨_, next, ?_, ?_⟩
  · unfold portDown State.portState
    rw [State.field_congr (State.mreg_logError _ (logDie_lt s (by omega)) (.inl (LLSTAT_outside_log hp)) ..)]
    exact State.field_setField_self _ _ (by omega) 3
  · unfold portDown
    rw [State.logError_port]
    exact State.port_setPort_self _ (lt_of_lt_of_eq hp ports.symm) _

end

theorem flitsAreSentAndReplayed : FlitsAreSentAndReplayed := by
  intro s p x on ports hp up port empty
  exact ⟨fun _ dst pay low high gate go room => flitSend_numbered on ports hp up port empty low high dst pay gate go room,
    fun _ dst pay low high held => flitSend_held on hp up port empty low high dst pay held,
    fun dst pay => flitSend_idle on ports hp up port empty dst pay,
    fun _ wrong => flitReceive_wrongCrc on ports hp up port empty wrong,
    fun _ whole crc reserved => flitReceive_reserved on hp up port empty whole crc reserved,
    fun _ whole crc low high gate quiet => flitReceive_numbered on ports hp up port empty whole crc low high gate quiet,
    llReplayTimeout_none on hp up port, llReplayTimeout_again on ports hp up port empty, llReplayTimeout_down on ports hp up port⟩

end Sys2Proof.Machine
end

section
/-! PROOF. Heartbeats, dead agents and their return (R18, R30, R32, R207). -/

namespace Sys2Proof.Machine

/-! ## Heartbeats (R30) -/

theorem heardAt_noteHeard (s : State) (a : Agent) : heardAt (noteHeard s a) a = (s.die 0).cycle := by
  unfold heardAt noteHeard
  rw [List.find?_cons_of_pos (by exact beq_self_eq_true a)]
  rfl

/-! ## The registers of an agent -/

theorem agentCores_lt (a : Agent) : ∀ c ∈ agentCores a, c < 64 := by
  intro c hc
  cases a with
  | core k =>
    obtain rfl := List.mem_singleton.mp hc
    exact k.isLt
  | die d =>
    obtain ⟨i, hi, rfl⟩ := List.mem_map.mp hc
    have := List.mem_range.mp hi
    have := d.isLt
    omega
  | device n => exact absurd hc List.not_mem_nil

/-- An agent's incarnation stands apart from the counters, the logs, and the repairs. -/
theorem incReg_place {a : Agent} {r : Nat} (h : incReg a = some r) : 0xA00 ≤ r ∧ r < 0x1000 := by
  cases a with
  | core k =>
    have := k.isLt
    obtain rfl : COREINC k.toNat = r := Option.some.inj h
    unfold COREINC
    omega
  | die d =>
    have := d.isLt
    obtain rfl : DIEINC d.toNat = r := Option.some.inj h
    unfold DIEINC
    omega
  | device n => cases h

theorem agentDie_lt {a : Agent} {d : Nat} (h : agentDie a = some d) : d < 4 := by
  cases a with
  | core k =>
    have := k.isLt
    obtain rfl : coreDie k.toNat = d := Option.some.inj h
    unfold coreDie
    omega
  | die k =>
    obtain rfl : k.toNat = d := Option.some.inj h
    exact k.isLt
  | device n => cases h

/-! ## Death (R30, R32, R207) -/

/-- What the poisoning of a sector leaves. -/
theorem poisonSectorOf_keeps {γ : Type} (g : State → γ)
    (h : ∀ (s : State) l2 held poison, g { s with l2 := l2, l2held := held, poison := poison } = g s)
    (s : State) (w : Nat) : g (poisonSectorOf s w) = g s := by
  unfold poisonSectorOf
  extract_lets sec u
  have started : g u = g s := h s _ _ s.poison
  split
  · exact (h u u.l2 u.l2held _).trans started
  · exact started

/-- A core of a dead agent: its words are poisoned at their homes, and its L1 is empty. -/
def coreLost (s : State) (c : Nat) : State :=
  (((s.registrants.filter fun r => r.2 == c).map (·.1)).foldl poisonSectorOf
    { s with registrants := s.registrants.filter fun r => r.2 != c }).modCore c fun k => { k with l1 := [] }

/-- What is left of a state once cores have died. -/
structure CoresLost (s t : State) (cs : List Nat) : Prop where
  teams : t.teams = s.teams
  regs : t.mregs = s.mregs
  dead : t.deadAgents = s.deadAgents
  length : t.cores.length = s.cores.length
  registrants : ∀ r ∈ t.registrants, r ∈ s.registrants ∧ r.2 ∉ cs
  empty : ∀ c ∈ cs, (t.core c).l1 = []
  others : ∀ c, (s.core c).l1 = [] → (t.core c).l1 = []

theorem coresLost_one {s : State} {c : Nat} (hc : c < s.cores.length) : CoresLost s (coreLost s c) [c] := by
  unfold coreLost
  generalize hu : List.foldl poisonSectorOf _ _ = u
  have kept {γ : Type} (g : State → γ) (h : ∀ (s : State) l2 held poison, g { s with l2 := l2, l2held := held, poison := poison } = g s) :
      g u = g { s with registrants := s.registrants.filter fun r => r.2 != c } := by
    rw [← hu]
    exact foldl_keeps g (poisonSectorOf_keeps g h) _ _
  have cores : u.cores = s.cores := kept State.cores fun _ _ _ _ => rfl
  have emptied : ((u.modCore c fun k => { k with l1 := [] }).core c).l1 = [] := by
    rw [State.core_modCore_self u (by rw [cores]; exact hc)]
  refine ⟨kept State.teams fun _ _ _ _ => rfl, kept State.mregs fun _ _ _ _ => rfl, kept State.deadAgents fun _ _ _ _ => rfl, ?_, fun r hr => ?_,
    fun e he => ?_, fun e he => ?_⟩
  · exact (List.length_set).trans (congrArg List.length cores)
  · have held : u.registrants = s.registrants.filter fun r => r.2 != c := kept State.registrants fun _ _ _ _ => rfl
    have hr' : r ∈ u.registrants := hr
    rw [held, List.mem_filter] at hr'
    exact ⟨hr'.1, by simpa using hr'.2⟩
  · rw [List.mem_singleton.mp he]
    exact emptied
  · by_cases here : e = c
    · rw [here]
      exact emptied
    · rw [State.core_modCore_ne u here]
      unfold State.core at he ⊢
      rw [cores]
      exact he

theorem coresLost_fold {s : State} (cs : List Nat) (hc : ∀ c ∈ cs, c < s.cores.length) : CoresLost s (cs.foldl coreLost s) cs := by
  induction cs generalizing s with
  | nil => exact ⟨rfl, rfl, rfl, rfl, fun r hr => ⟨hr, List.not_mem_nil⟩, fun c h => absurd h List.not_mem_nil, fun _ h => h⟩
  | cons c cs ih =>
    have one := coresLost_one (hc c List.mem_cons_self)
    have rest := ih (s := coreLost s c) fun e he => by rw [one.length]; exact hc e (List.mem_cons_of_mem c he)
    refine ⟨rest.teams.trans one.teams, rest.regs.trans one.regs, rest.dead.trans one.dead, rest.length.trans one.length, fun r hr => ?_,
      fun e he => ?_, fun e he => rest.others e (one.others e he)⟩
    · obtain ⟨before, apart⟩ := rest.registrants r hr
      obtain ⟨first, other⟩ := one.registrants r before
      simp only [List.mem_cons, List.not_mem_nil, or_false] at other ⊢
      exact ⟨first, by simp [other, apart]⟩
    · rcases List.mem_cons.mp he with rfl | he
      · exact rest.others e (one.empty e List.mem_cons_self)
      · exact rest.empty e he

/-- A core of a dead agent, and its teams. -/
def coreEnds (s : State) (c : Nat) : State :=
  (((coreLost s c).teams.filter fun t => t.coreNo == c).map (·.key)).foldl endDeadTeam (coreLost s c)

theorem foldl_coreEnds {s : State} {cs : List Nat} (hc : ∀ c ∈ cs, c < s.cores.length) (idle : ∀ t ∈ s.teams, t.coreNo ∉ cs) :
    cs.foldl coreEnds s = cs.foldl coreLost s := by
  induction cs generalizing s with
  | nil => rfl
  | cons c cs ih =>
    have one := coresLost_one (hc c List.mem_cons_self)
    have none : (coreLost s c).teams.filter (fun t => t.coreNo == c) = [] := by
      rw [one.teams, List.filter_eq_nil_iff]
      exact fun t ht e => idle t ht (by rw [beq_iff_eq.mp e]; exact List.mem_cons_self)
    have same : coreEnds s c = coreLost s c := by
      unfold coreEnds
      rw [none]
      rfl
    rw [List.foldl_cons, List.foldl_cons, same]
    exact ih (fun e he => by rw [one.length]; exact hc e (List.mem_cons_of_mem c he)) fun t ht h =>
      idle t (by rwa [one.teams] at ht) (List.mem_cons_of_mem c h)

/-- An agent's death as its own registers show it. -/
def deathMarked (s : State) (a : Agent) : State :=
  match incReg a with
  | some r => { s with deadAgents := a :: s.deadAgents }.setField r 16 1 1
  | none => { s with deadAgents := a :: s.deadAgents }

theorem deathMarked_keeps {γ : Type} (g : State → γ) (h : ∀ s off lo w x, g (State.setField s off lo w x) = g s)
    (s : State) (a : Agent) : g (deathMarked s a) = g { s with deadAgents := a :: s.deadAgents } := by
  unfold deathMarked
  split
  · exact h ..
  · rfl

theorem field_deathMarked (s : State) {a : Agent} {r : Nat} (h : incReg a = some r) : (deathMarked s a).field r 16 1 = 1 := by
  unfold deathMarked
  rw [h]
  exact State.bit_setField _ _ (by omega)

/-- A death is an entry of a die's log, and then the loss of the agent's cores. -/
theorem declareDead_eq (s : State) (a : Agent) : ∃ d agent, d < 4
    ∧ declareDead s a = (agentCores a).foldl coreEnds ((deathMarked s a).logError d agent 5 0 0) := by
  cases a with
  | core c => exact ⟨logDie (deathMarked s (.core c)) (coreDie c.toNat), agentWord (coreDie c.toNat) (c.toNat % 16) 0 0,
      logDie_lt _ (agentDie_lt (a := .core c) rfl), rfl⟩
  | die d => exact ⟨logDie (deathMarked s (.die d)) d.toNat, agentWord d.toNat 0 0 0, logDie_lt _ d.isLt, rfl⟩
  | device n => exact ⟨logDie (deathMarked s (.device n)) 0, agentWord 0 0 0 n.toNat, logDie_lt _ (by decide), rfl⟩

theorem agentDead_event {s : State} (on : s.powered = true) {a : Agent} (alive : s.deadAgents.contains a = false)
    (silent : heardAt s a + silence s ≤ (s.die 0).cycle) (cores : s.cores.length = 64) (idle : ∀ t ∈ s.teams, t.coreNo ∉ agentCores a) :
    ∃ t, exec (.agentDead a) s = .next t ∧ t.deadAgents = a :: s.deadAgents
      ∧ (∀ r ∈ t.registrants, r.2 ∉ agentCores a) ∧ (∀ c ∈ agentCores a, (t.core c).l1 = [])
      ∧ (∀ r, incReg a = some r → t.field r 16 1 = 1) ∧ t.teams = s.teams := by
  have due : ¬ (s.deadAgents.contains a || decide ((s.die 0).cycle < heardAt s a + silence s)) = true := by
    rw [alive, decide_eq_false (Nat.not_lt.mpr silent)]
    decide
  have next : execAgentDead a s = .next (declareDead s a) := (withPower_on on _).trans (congrArg _ (if_neg due))
  obtain ⟨d, agent, hd, eq⟩ := declareDead_eq s a
  have kept {γ : Type} (g : State → γ) (registers : ∀ s off lo w x, g (State.setField s off lo w x) = g s)
      (logs : ∀ s d f, g (State.modDie s d f) = g s) :
      g ((deathMarked s a).logError d agent 5 0 0) = g { s with deadAgents := a :: s.deadAgents } :=
    (State.logError_keeps g registers logs ..).trans (deathMarked_keeps g registers s a)
  have marked {r : Nat} (h : incReg a = some r) : ((deathMarked s a).logError d agent 5 0 0).field r 16 1 = 1 := by
    have := incReg_place h
    rw [State.field_congr (State.mreg_logError _ hd (by omega) ..)]
    exact field_deathMarked s h
  have coresKept := kept State.cores State.setField_cores State.modDie_cores
  have teamsKept := kept State.teams State.setField_teams State.modDie_teams
  have deadKept := kept State.deadAgents State.setField_deadAgents State.modDie_deadAgents
  generalize (deathMarked s a).logError d agent 5 0 0 = u at eq coresKept teamsKept deadKept marked
  have inside : ∀ c ∈ agentCores a, c < u.cores.length := fun c hc => by
    rw [coresKept]
    exact lt_of_lt_of_eq (agentCores_lt a c hc) cores.symm
  rw [eq, foldl_coreEnds inside (by rw [teamsKept]; exact idle)] at next
  have lost := coresLost_fold (agentCores a) inside
  refine ⟨_, next, lost.dead.trans deadKept, fun r hr => (lost.registrants r hr).2, lost.empty, fun r h => ?_, lost.teams.trans teamsKept⟩
  have same : ((agentCores a).foldl coreLost u).mreg r = u.mreg r := by
    unfold State.mreg
    rw [lost.regs]
  rw [State.field_congr same]
  exact marked h

/-! ## Return (R13, R18, R30) -/

theorem mreg_repairDie_ne (s : State) {d o : Nat} (h : o ≠ REPAIR d) (p : Nat) : (repairDie s d p).mreg o = s.mreg o := by
  unfold repairDie
  split
  · exact (State.mreg_setField_ne _ h ..).trans (State.mreg_setField_ne s h ..)
  · rfl

theorem repairDie_outbox (s : State) (d p : Nat) : (repairDie s d p).outbox = s.outbox := by
  unfold repairDie
  split
  · rw [State.setField_outbox, State.setField_outbox]
  · rfl

theorem field_repairDie (s : State) (d : Nat) {p : Nat} (h : p ≤ 16) :
    (repairDie s d p).field (REPAIR d) 0 17 = 2 ^ p ∧ (repairDie s d p).field (REPAIR d) 31 1 = 1 := by
  have fits : 2 ^ p < 2 ^ 17 := Nat.pow_lt_pow_right (by decide) (by omega)
  unfold repairDie
  rw [if_pos h]
  refine ⟨?_, State.bit_setField _ _ (by omega)⟩
  rw [State.field_setField_apart _ _ (by omega) (by omega), State.field_setField_self _ _ (by omega), Nat.mod_eq_of_lt fits]

theorem repairDie_deadAgents (s : State) (d p : Nat) : (repairDie s d p).deadAgents = s.deadAgents := by
  unfold repairDie
  split
  · rw [State.setField_deadAgents, State.setField_deadAgents]
  · rfl

/-- A dead agent is heard again, through the repair of its die where one is needed. -/
def repaired (s : State) (a : Agent) (repair : Option (BitVec 5)) : State :=
  let s := noteHeard { s with deadAgents := s.deadAgents.filter (· != a) } a
  match repair, agentDie a with
  | some p, some d => repairDie s d p.toNat
  | _, _ => s

theorem mreg_repaired (s : State) (a : Agent) (repair : Option (BitVec 5)) {o : Nat} (h : 0x40 ≤ o) : (repaired s a repair).mreg o = s.mreg o := by
  unfold repaired
  dsimp only
  split
  next p d _ hd =>
    have := agentDie_lt hd
    exact mreg_repairDie_ne _ (by unfold REPAIR; omega) _
  next => rfl

theorem repaired_outbox (s : State) (a : Agent) (repair : Option (BitVec 5)) : (repaired s a repair).outbox = s.outbox := by
  unfold repaired
  dsimp only
  split
  · exact repairDie_outbox ..
  · rfl

theorem repaired_deadAgents (s : State) (a : Agent) (repair : Option (BitVec 5)) :
    (repaired s a repair).deadAgents = s.deadAgents.filter (· != a) := by
  unfold repaired
  dsimp only
  split
  · exact repairDie_deadAgents ..
  · rfl

/-- The cores of an agent that returns are fresh. -/
def restarted (s : State) (a : Agent) (repair : Option (BitVec 5)) : State :=
  (agentCores a).foldl (fun s c => s.setCore c Core.reset) (repaired s a repair)

theorem restarted_keeps {γ : Type} (g : State → γ) (h : ∀ s c k, g (State.setCore s c k) = g s) (s : State) (a : Agent)
    (repair : Option (BitVec 5)) : g (restarted s a repair) = g (repaired s a repair) := foldl_keeps g (fun s c => h s c _) _ _

theorem mreg_restarted (s : State) (a : Agent) (repair : Option (BitVec 5)) (o : Nat) :
    (restarted s a repair).mreg o = (repaired s a repair).mreg o := by
  unfold State.mreg
  rw [restarted_keeps State.mregs State.setCore_mregs]

theorem agentReadmit_own {s : State} (on : s.powered = true) {a : Agent} (dead : s.deadAgents.contains a = true) (repair : Option (BitVec 5))
    {r : Nat} (h : incReg a = some r) : exec (.agentReadmit ⟨a, repair⟩) s = .next
      ((((restarted s a repair).setField r 16 1 0).setField r 0 16 (((restarted s a repair).field r 0 16 + 1) % 65536)).emit
        (.announce a (((restarted s a repair).field r 0 16 + 1) % 65536))) := by
  refine (withPower_on on _ : execAgentReadmit ⟨a, repair⟩ s = _).trans (congrArg _ ((if_pos dead).trans ?_))
  cases a with
  | core c => obtain rfl := Option.some.inj h; rfl
  | die d => obtain rfl := Option.some.inj h; rfl
  | device n => cases h

theorem agentReadmit_device {s : State} (on : s.powered = true) {n : BitVec 10} (dead : s.deadAgents.contains (.device n) = true)
    (repair : Option (BitVec 5)) : ∃ t, exec (.agentReadmit ⟨.device n, repair⟩) s = .next t
      ∧ t.deadAgents = (restarted s (.device n) repair).deadAgents :=
  ⟨_, (withPower_on on _ : execAgentReadmit ⟨.device n, repair⟩ s = _).trans (congrArg _ (if_pos dead)), rfl⟩

theorem not_contains_filter (a : Agent) (l : List Agent) : (l.filter (· != a)).contains a = false := by
  simp

theorem agentReadmit_event {s : State} (on : s.powered = true) {a : Agent} (dead : s.deadAgents.contains a = true) (repair : Option (BitVec 5)) :
    ∃ t, exec (.agentReadmit ⟨a, repair⟩) s = .next t ∧ t.deadAgents.contains a = false
      ∧ (∀ r, incReg a = some r → t.field r 0 16 = (s.field r 0 16 + 1) % 65536 ∧ t.field r 16 1 = 0
        ∧ t.outbox = .announce a ((s.field r 0 16 + 1) % 65536) :: s.outbox)
      ∧ ∀ d x, agentDie a = some d → repair = some x → x.toNat ≤ 16 → t.field (REPAIR d) 0 17 = 2 ^ x.toNat ∧ t.field (REPAIR d) 31 1 = 1 := by
  have heard : (restarted s a repair).deadAgents.contains a = false := by
    rw [restarted_keeps State.deadAgents State.setCore_deadAgents, repaired_deadAgents]
    exact not_contains_filter a _
  cases own : incReg a with
  | none =>
    cases a with
    | device n =>
      obtain ⟨t, next, same⟩ := agentReadmit_device on dead repair
      exact ⟨t, next, by rw [same]; exact heard, (fun _ h => nomatch h), (fun _ _ h => nomatch h)⟩
    | core c => cases own
    | die d => cases own
  | some r =>
    have place := incReg_place own
    have count : (restarted s a repair).field r 0 16 = s.field r 0 16 := State.field_congr
      ((mreg_restarted s a repair r).trans (mreg_repaired s a repair (by omega)))
    have out : (restarted s a repair).outbox = s.outbox :=
      (restarted_keeps State.outbox State.setCore_outbox s a repair).trans (repaired_outbox ..)
    have next := agentReadmit_own on dead repair own
    rw [count] at next
    refine ⟨_, next, ?_, fun r' h => ?_, fun d x hd hx low => ?_⟩
    · rw [State.emit_deadAgents, State.setField_deadAgents, State.setField_deadAgents]
      exact heard
    · obtain rfl := Option.some.inj h
      refine ⟨?_, ?_, ?_⟩
      · rw [State.emit_field, State.field_setField_self _ _ (by omega)]
        omega
      · rw [State.emit_field, State.field_setField_apart _ _ (by omega) (by omega), State.field_setField_self _ _ (by omega)]
        rfl
      · rw [State.emit_outbox, State.setField_outbox, State.setField_outbox, out]
    · have below := agentDie_lt hd
      have apart : REPAIR d ≠ r := by unfold REPAIR; omega
      have shown : repaired s a repair = repairDie (noteHeard { s with deadAgents := s.deadAgents.filter (· != a) } a) d x.toNat := by
        unfold repaired
        rw [hx, hd]
      obtain ⟨bits, soft⟩ := field_repairDie (noteHeard { s with deadAgents := s.deadAgents.filter (· != a) } a) d low
      rw [← shown] at bits soft
      have map (lo w : Nat) : (restarted s a repair).field (REPAIR d) lo w = (repaired s a repair).field (REPAIR d) lo w :=
        State.field_congr (mreg_restarted s a repair _)
      exact ⟨by rw [State.emit_field, State.field_setField_ne _ apart, State.field_setField_ne _ apart, map, bits],
        by rw [State.emit_field, State.field_setField_ne _ apart, State.field_setField_ne _ apart, map, soft]⟩

/-! ## Read-only registers (R18, R32) -/

theorem writeReg_readOnly (s : State) {off : Nat} (h : 0x20 ≤ off ∧ off < 0x40 ∨ 0xA00 ≤ off ∧ off < 0x1000) (v : Nat) : writeReg s off v = s := by
  by_cases aligned : off % 8 = 0
  · unfold writeReg MODCTL INCARN DEVNUM ERRCNT0 ERRCNT1 LANTSTAT LLEN VTINV TFCLR TLBINV TRAPCNT PFQBASE PFQPTR PFRESP PFNOTE LERR LCNT
    simp only [Bool.and_eq_true, Bool.or_eq_true, decide_eq_true_eq]
    simp (disch := omega) only [if_neg]
  · exact writeReg_unaligned s aligned v

theorem agentsDieAndComeBack : AgentsDieAndComeBack := by
  intro s a on
  refine ⟨fun alive => ?_, fun dead => ⟨?_, ?_⟩, fun recent => ?_, agentDead_event on, fun repair dead => agentReadmit_event on dead repair,
    fun repair alive => ?_, fun off v h => ?_⟩
  · have next : execHeartbeatSend a s = .next (noteHeard s a) := (withPower_on on _).trans (congrArg _ (if_neg (by rw [alive]; decide)))
    exact ⟨_, next, heardAt_noteHeard s a, rfl⟩
  · exact (withPower_on on _ : execHeartbeatSend a s = _).trans (congrArg _ (if_pos dead))
  · exact (withPower_on on _ : execAgentDead a s = _).trans (congrArg _ (if_pos (by rw [dead]; rfl)))
  · exact (withPower_on on _ : execAgentDead a s = _).trans (congrArg _ (if_pos (by rw [decide_eq_true recent, Bool.or_true])))
  · exact (withPower_on on _ : execAgentReadmit ⟨a, repair⟩ s = _).trans (congrArg _ (if_neg (by rw [alive]; decide)))
  · rw [exec_registerWrite on, writeReg_readOnly s h]

/-- Settles O46: ports and flits event by event, the replay by induction on the replay buffer, a death by induction on the agent's cores. -/
theorem linksAndAgents : Obligations.LinksAndAgents := ⟨portsAreEnabledAndTrained, flitsAreSentAndReplayed, agentsDieAndComeBack⟩

end Sys2Proof.Machine
end

section
/-! PROOF. What the operations on memory leave: whatever an observation reads that the homes, the caches and the counters do not hold
(R50, R181 to R189). -/

namespace Sys2Proof.Machine

/-- An observation that sees nothing that a read at a home changes: the memory and the L2s themselves, counters, clocks and logs. -/
structure Unread {γ : Type} (g : State → γ) : Prop where
  homes : ∀ (s : State) mregs residues dram l2 l2held poison stks heard outbox tick,
    g { s with
      mregs := mregs, residues := residues, dram := dram, l2 := l2, l2held := l2held, poison := poison, stks := stks, heard := heard
      outbox := outbox, tick := tick } = g s
  logs : ∀ (s : State) (d : Nat) (f : Die → List (Option LogEntry)), g (s.modDie d fun x => { x with log := f x }) = g s

/-- An observation that sees no memory, no cache, no register, and nothing that goes to the host. -/
def Blind {γ : Type} (g : State → γ) : Prop := ∀ (s : State) mregs residues dram l2 l2held poison cores dies stks registrants hostLines heard
  outbox tick tornViews,
  g { s with
    mregs := mregs, residues := residues, dram := dram, l2 := l2, l2held := l2held, poison := poison, cores := cores, dies := dies, stks := stks
    registrants := registrants, hostLines := hostLines, heard := heard, outbox := outbox, tick := tick, tornViews := tornViews } = g s

theorem Blind.unread {γ : Type} {g : State → γ} (h : Blind g) : Unread g := ⟨fun _ _ _ _ _ _ _ _ _ _ _ => h .., fun _ _ _ => h ..⟩

/-! Each operation, after a state that shows `x`, shows `x`. -/

theorem foldl_shows {γ β : Type} {g : State → γ} {s : State} {x : γ} (e : g s = x) {f : State → β → State}
    (step : ∀ s b, g (f s b) = g s) (l : List β) : g (l.foldl f s) = x :=
  (foldl_keeps g step l s).trans e

/-! ## Reads at the homes -/

section
variable {γ : Type} {g : State → γ} (h : Unread g) {s : State} {x : γ} (e : g s = x)
include h e

theorem Unread.setField (off lo w v : Nat) : g (s.setField off lo w v) = x := (h.homes ..).trans e
theorem Unread.nextTick : g (s.nextTick) = x := (h.homes ..).trans e
theorem Unread.emit (m : OutMsg) : g (s.emit m) = x := (h.homes ..).trans e
theorem Unread.setStk (n : Nat) (k : Stack) : g (s.setStk n k) = x := (h.homes ..).trans e
theorem Unread.clearPoison (n : Nat) : g (s.clearPoison n) = x := (h.homes ..).trans e
theorem Unread.noteHeard (a : Agent) : g (noteHeard s a) = x := (h.homes ..).trans e

theorem Unread.count (off lo w n : Nat) : g (s.count off lo w n) = x := h.setField e ..
theorem Unread.countUnits (off lo w n : Nat) : g (s.countUnits off lo w n) = x :=
  h.count (s := { s with residues := _ }) ((h.homes ..).trans e) ..
theorem Unread.hear (c : Nat) : g (s.hear c) = x := h.noteHeard (h.noteHeard e _) _

theorem Unread.countBurst (stack lo : Nat) : g (s.countBurst stack lo) = x :=
  h.nextTick (h.count (h.countUnits (h.countUnits e ..) ..) ..)

theorem Unread.cancelScrub (n : Nat) : g (s.cancelScrub n) = x := by
  unfold State.cancelScrub
  extract_lets k
  split
  · split
    · exact h.setStk e ..
    · exact e
  · exact e

theorem Unread.putSector (n : Nat) (whole : Bool) (bs : List (Nat × Byte)) : g (s.putSector n whole bs) = x := by
  unfold State.putSector
  extract_lets stack u v w
  have started : g v = x := by
    show g (if whole then _ else _) = x
    split
    · exact h.clearPoison (h.cancelScrub e _) _
    · exact h.count (h.cancelScrub e _) ..
  split
  · exact h.count (h.count started ..) ..
  · refine h.countBurst (s := { w with dram := _ }) ((h.homes ..).trans ?_) ..
    show g (if whole then _ else _) = x
    split
    · exact started
    · exact h.countBurst started ..

theorem Unread.writeBackSector (sec : Nat) : g (writeBackSector s sec) = x := by
  unfold Machine.writeBackSector
  extract_lets mine u
  have cleared : g u = x := (h.homes ..).trans e
  split
  · exact e
  · split
    · exact h.putSector cleared ..
    · exact h.count cleared ..

theorem Unread.dropL2 (sec : Nat) : g (dropL2 s sec) = x := (h.homes ..).trans (h.writeBackSector e sec)

theorem Unread.roomL2 (d : Nat) : g (roomL2 s d) = x := by
  unfold Machine.roomL2
  split
  · exact e
  · extract_lets secs
    split
    · exact e
    · exact h.dropL2 (h.nextTick e) _

theorem Unread.logError (d : Nat) (agent : Word) (code detail addr : Nat) : g (s.logError d agent code detail addr) = x := by
  unfold State.logError
  extract_lets entry k lost u v
  have logged : g v = x := by
    show g (if lost then u.countDie d .eloglost else u) = x
    split
    · exact h.count ((h.logs ..).trans e) ..
    · exact (h.logs ..).trans e
  exact h.count (h.setField logged ..) ..

theorem Unread.deliverPoison (d addr : Nat) : g (s.deliverPoison d addr) = x := h.logError (h.count e ..) ..

theorem Unread.deliverSectors (secs : List Nat) : g (deliverSectors s secs) = x :=
  foldl_shows e (fun _ _ => h.deliverPoison rfl ..) _

theorem Unread.fetchSector (sec : Nat) : g (fetchSector s sec) = x := by
  unfold Machine.fetchSector
  split
  · exact e
  · extract_lets u v
    split
    · exact h.countBurst e ..
    · exact (h.homes ..).trans (h.roomL2 (h.countBurst e ..) _)

theorem Unread.askHome (ws : List Nat) : g (askHome s ws) = x := by
  unfold Machine.askHome
  extract_lets u miss
  have heard : g u = x := foldl_shows e (fun _ _ => h.hear rfl _) _
  generalize miss = secs
  cases secs with
  | nil => exact heard
  | cons sec secs => exact foldl_shows (h.count heard ..) (fun _ _ => h.fetchSector rfl _) _

theorem Unread.bulkSector (d sec : Nat) : g (bulkSector s d sec).2.2 = x := by
  unfold Machine.bulkSector
  split
  · split
    · exact (h.homes ..).trans e
    · exact h.deliverPoison e ..
  · extract_lets ws u vs
    have asked : g u = x := h.askHome (h.noteHeard e _) _
    split
    · exact h.deliverSectors asked _
    · exact asked

theorem Unread.bulkBytes (d a n : Nat) : g (bulkBytes s d a n).2.2 = x := by
  unfold Machine.bulkBytes
  extract_lets first last r
  split
  · exact e
  · exact List.foldlRecOn (motive := fun acc : List Byte × Bool × State => g acc.2.2 = x) _ _ e
      fun acc ha i _ => h.bulkSector ha d (first + i)

end

/-! ## Writes, and what the cores hold -/

section
variable {γ : Type} {g : State → γ} (h : Blind g) {s : State} {x : γ} (e : g s = x)
include h e

theorem Blind.emit (m : OutMsg) : g (s.emit m) = x := (h ..).trans e
theorem Blind.modCore (c : Nat) (f : Core → Core) : g (s.modCore c f) = x := (h ..).trans e
theorem Blind.modDie (d : Nat) (f : Die → Die) : g (s.modDie d f) = x := (h ..).trans e
theorem Blind.countDrop (n : Nat) : g (s.countDrop n) = x := h.unread.count e ..

theorem Blind.writeL2 (sec : Nat) (w : EnWrite) : g (writeL2 s sec w) = x := by
  unfold Machine.writeL2
  refine foldl_shows ?_ (fun _ _ => h ..) w
  split
  · exact e
  · exact h.unread.roomL2 e _

theorem Blind.homeWriteSector (enabled : Bool) (sec : Nat) (w : EnWrite) : g (homeWriteSector s enabled sec w) = x := by
  unfold Machine.homeWriteSector
  split
  · exact h.countDrop e _
  · extract_lets inSector whole here past u
    have merged : g u = x := by
      show g (if here.isEmpty then _ else _) = x
      split
      · exact e
      · exact h.writeL2 e ..
    split
    · exact h.writeL2 e ..
    · split
      · exact h.unread.putSector e ..
      · split
        · exact merged
        · exact h.unread.putSector merged ..

theorem Blind.backInvalidate (lines : List Nat) : g (backInvalidate s lines) = x := by
  unfold Machine.backInvalidate
  extract_lets held
  split
  · exact e
  · exact foldl_shows ((h ..).trans e) (fun _ _ => h.emit rfl _) _

omit e in
theorem Blind.noteTorn (old : State) {new : State} (e : g new = x) (w : EnWrite) : g (noteTorn old new w) = x := by
  unfold Machine.noteTorn
  extract_lets hit
  split
  · exact e
  · refine foldl_shows e (fun _ _ => ?_) _
    extract_lets body
    split
    · exact h ..
    · split
      · exact h ..
      · rfl

theorem Blind.homeWrite (w : EnWrite) (enabled : Bool) : g (homeWrite s w enabled) = x :=
  h.noteTorn _ (foldl_shows (h.backInvalidate e _) (fun _ _ => h.homeWriteSector rfl ..) _) _

theorem Blind.updateCan (c w : Nat) (v mask : Word) : g (updateCan s c w v mask) = x := by
  unfold Machine.updateCan
  extract_lets d
  split
  · exact e
  · split
    · exact h.modDie e ..
    · exact e

theorem Blind.writeHomeWord (c w : Nat) (v : Word) : g (writeHomeWord s c w v) = x := h.updateCan (h.homeWrite (h.unread.hear e _) ..) ..

theorem Blind.revokeWord (w : Nat) : g (revokeWord s w) = x := by
  unfold Machine.revokeWord
  split
  · exact e
  · refine (h ..).trans ?_
    split
    · refine h.modCore ?_ ..
      split
      · exact h.writeHomeWord e ..
      · exact e
    · exact e

theorem Blind.dropStore (c w : Nat) : g (dropStore s c w) = x := by
  unfold Machine.dropStore
  refine h.countDrop (h.modCore ?_ ..) _
  split
  · exact (h ..).trans e
  · exact e

theorem Blind.registerWord (c w : Nat) : g (registerWord s c w) = x := by
  unfold Machine.registerWord
  split
  · exact h.dropStore e ..
  · extract_lets u v
    have registered : g v = x := by
      show g (if _ then _ else _) = x
      split
      · exact e
      · exact (h ..).trans (h.backInvalidate (h.unread.hear (h.revokeWord e _) _) _)
    split
    · exact h.modCore registered ..
    · exact registered

theorem Blind.registerPending (c : Nat) : g (registerPending s c) = x := by
  refine foldl_shows e (fun _ _ => ?_) _
  split
  · exact h.registerWord rfl ..
  · rfl

theorem Blind.dropWritten (c : Nat) (hit : Nat → Bool) : g (dropWritten s c hit) = x := by
  unfold Machine.dropWritten dropCanopy invalidateL1
  exact h.modDie (h.modCore (h.registerPending e _) ..) ..

end

end Sys2Proof.Machine
end

section
/-! PROOF. Launch queues: enabling, parsing, aborting and completing (R106, R111, R115, R122, R125). -/

namespace Sys2Proof.Machine

/-! ## The queue registers -/

theorem QCTL_bounds {q : Nat} (h : q < 64) : 0x8008 ≤ QCTL q ∧ QCTL q < 0x8800 := by unfold QCTL; omega

theorem setQueueEnable_fields (s : State) (q : Nat) (on : Bool) : (setQueueEnable s q on).field (QCTL q) 0 1 = on.toNat
    ∧ OtherRegisters s (setQueueEnable s q on) [QCTL q] ∧ { setQueueEnable s q on with mregs := s.mregs } = s := by
  refine ⟨?_, fun o ho => OtherRegisters.setField (OtherRegisters.refl s _) List.mem_cons_self 0 1 _ o ho, rfl⟩
  unfold setQueueEnable
  rw [State.field_setField_self _ _ (by omega)]
  cases on <;> rfl

/-! ## Parsing (R111) -/

/-- Whatever a record holds, EXPSEQ goes on. -/
theorem parseRecord_seq (s : State) (q : Nat) :
    (parseRecord s q).field (QSEQ q) 0 32 = (s.field (QSEQ q) 0 32 + 1) % 2 ^ 32 := State.field_setField_self _ _ (by omega) _

/-! ## Aborts (R125) -/

theorem aborting_congr {s t : State} {q : Nat} (h : t.mreg (QCTL q) = s.mreg (QCTL q)) : queueAborting t q = queueAborting s q := by
  unfold queueAborting
  rw [State.field_congr h]

/-- The launches of a queue that aborts have ended with an error, where they had none. -/
def endsAborted (q : Nat) (l : Launch) : Launch := if l.q = q ∧ l.err.isNone then { l with err := some 0x40 } else l

theorem endsAborted_err {q : Nat} {l : Launch} (h : (endsAborted q l).q = q) : (endsAborted q l).err.isSome = true := by
  unfold endsAborted at h ⊢
  split
  · rfl
  · next other =>
    rw [if_neg other] at h
    simpa [h, Option.isSome_iff_ne_none] using other

/-- A queue's abort as its control register, its saved blocks and its launches show it. -/
def abortMarked (s : State) (q : Nat) : State :=
  { s.setField (QCTL q) 15 1 1 with
    saved := s.saved.filter fun b => b.block.q != q, launches := s.launches.map (endsAborted q) }

/-- What the registers of the pool and of the counts do not hold, an abort of a queue without resident blocks has of its marks. -/
theorem startAbort_shows {γ : Type} (g : State → γ) {s : State} {q : Nat} (hq : q < 64)
    (registers : ∀ s off lo w v, off ≠ QCTL q → g (State.setField s off lo w v) = g s) (last : ∀ s q x, g (setLast s q x) = g s)
    (marks : ∀ (s : State) saved off lo w v ls, off ≠ QCTL q →
      g { State.setField { s with saved := saved } off lo w v with launches := ls } = g { s with saved := saved, launches := ls })
    (fresh : queueAborting s q = false) (none : ∀ b ∈ s.blocks, b.q ≠ q) : g (startAbort s q) = g (abortMarked s q) := by
  have resident : s.blocks.filter (fun b => b.q == q) = [] := by simpa using none
  have used : CTXSIZE ≠ QCTL q := by unfold CTXSIZE QCTL; omega
  have stat : QSTAT q ≠ QCTL q := by unfold QSTAT QCTL; omega
  have counts : LCNT ≠ QCTL q := by unfold LCNT QCTL; omega
  unfold startAbort
  rw [if_neg (by rw [fresh]; decide)]
  extract_lets held s1 s2 s3 mark s4 s5 s6
  have same : s2 = s1 := by
    show (List.filter _ s.blocks).reverse.foldl _ _ = _
    rw [resident]
    rfl
  have marked : g s4 = g (abortMarked s q) := by
    show g { updateUsed { s2 with saved := s2.saved.filter _ } with launches := s2.launches.map (endsAborted q) } = _
    rw [same]
    exact marks _ _ _ _ _ _ _ used
  have shown : g s5 = g (abortMarked s q) := by
    show g (if held.isEmpty then s4 else _) = _
    split
    · exact marked
    · exact (registers _ _ _ _ _ stat).trans marked
  have counted : g s6 = g (abortMarked s q) := (registers _ _ _ _ _ counts).trans shown
  split
  · split
    · exact (last ..).trans counted
    · exact counted
  · exact counted

theorem queueAbort_event {s : State} (on : s.powered = true) (q : BitVec 6) (fresh : queueAborting s q.toNat = false)
    (none : ∀ b ∈ s.blocks, b.q ≠ q.toNat) : ∃ t, exec (.queueAbort q) s = .next t
      ∧ queueAborting t q.toNat = true ∧ (∀ l ∈ t.launches, l.q = q.toNat → l.err.isSome = true)
      ∧ (∀ x ∈ t.saved, x.block.q ≠ q.toNat) ∧ t.blocks = s.blocks ∧ t.teams = s.teams := by
  have shows {γ : Type} (g : State → γ) registers last marks := startAbort_shows g q.isLt registers last marks fresh none
  have control : (startAbort s q.toNat).mreg (QCTL q.toNat) = (abortMarked s q.toNat).mreg (QCTL q.toNat) :=
    shows (fun s => s.mreg (QCTL q.toNat)) (fun s off lo w v h => State.mreg_setField_ne s h.symm ..) (fun _ _ _ => rfl)
      fun _ _ _ _ _ _ _ h => State.mreg_setField_ne _ h.symm ..
  have launches : (startAbort s q.toNat).launches = s.launches.map (endsAborted q.toNat) :=
    shows State.launches (fun _ _ _ _ _ _ => State.setField_launches ..) (fun _ _ _ => rfl) fun _ _ _ _ _ _ _ _ => rfl
  have saved : (startAbort s q.toNat).saved = s.saved.filter fun b => b.block.q != q.toNat :=
    shows State.saved (fun _ _ _ _ _ _ => State.setField_saved ..) (fun _ _ _ => rfl)
      fun s saved off lo w v _ _ => State.setField_saved { s with saved := saved } off lo w v
  refine ⟨_, (withPower_on on _ : execQueueAbort q s = _), ?_, fun l hl own => ?_, fun x hx => ?_, ?_, ?_⟩
  · rw [aborting_congr control]
    exact beq_iff_eq.mpr (State.bit_setField s _ (by omega))
  · rw [launches] at hl
    obtain ⟨l, -, rfl⟩ := List.mem_map.mp hl
    exact endsAborted_err own
  · rw [saved] at hx
    simpa using (List.mem_filter.mp hx).2
  · exact shows State.blocks (fun _ _ _ _ _ _ => State.setField_blocks ..) (fun _ _ _ => rfl)
      fun s saved off lo w v _ _ => State.setField_blocks { s with saved := saved } off lo w v
  · exact shows State.teams (fun _ _ _ _ _ _ => State.setField_teams ..) (fun _ _ _ => rfl)
      fun s saved off lo w v _ _ => State.setField_teams { s with saved := saved } off lo w v

/-! ## Completion writes (R122, R124, R125) -/

/-- A completion that goes to the host, with no MSI-X. -/
theorem writeCompletion_host (s : State) {l : Launch} (host : l.cfg.compHost = true) (quiet : l.cfg.irq = false) (failed : Bool) :
    writeCompletion s l failed = if failed then completionFails s 0 l.q l.cfg.compaddr
      else s.emitHost (.hostWrite l.cfg.compaddr (BitVec.ofNat 64 (match l.err with
        | some code => 0x80 * 2 ^ 56 + code * 2 ^ 48 + l.seq
        | none => l.cfg.compval))) := by
  unfold writeCompletion completionWrite
  rw [host, quiet]
  rfl

/-- The error completion of an aborted launch. -/
def abortMessage (s : State) (l : Launch) : OutMsg :=
  .host s.ideKeys (.hostWrite l.cfg.compaddr (BitVec.ofNat 64 (0x80 * 2 ^ 56 + 0x40 * 2 ^ 48 + l.seq)))

theorem foldl_abortCompletions (s : State) (ls : List Launch)
    (h : ∀ l ∈ ls, l.cfg.compHost = true ∧ l.cfg.irq = false ∧ l.err = some 0x40) (n : Nat) :
    (ls.zipIdx n).foldl (fun s x => writeCompletion s x.1 (([] : List Bool).getD x.2 false)) s
      = { s with outbox := (ls.map (abortMessage s)).reverse ++ s.outbox } := by
  induction ls generalizing s n with
  | nil => rfl
  | cons l ls ih =>
    obtain ⟨host, quiet, code⟩ := h l List.mem_cons_self
    have one : writeCompletion s l (([] : List Bool).getD n false) = s.emit (abortMessage s l) := by
      rw [writeCompletion_host s host quiet, code]
      rfl
    rw [List.zipIdx_cons, List.foldl_cons, one, ih (s.emit _) (fun x hx => h x (List.mem_cons_of_mem l hx))]
    have same : abortMessage (s.emit (abortMessage s l)) = abortMessage s := rfl
    rw [same, List.map_cons, List.reverse_cons, List.append_assoc]
    rfl

theorem abortFinish_event {s : State} (on : s.powered = true) (q : BitVec 6) (aborting : queueAborting s q.toNat = true)
    (h : ∀ l ∈ s.launches, l.q = q.toNat → l.cfg.compHost = true ∧ l.cfg.irq = false ∧ l.err = some 0x40) :
    ∃ t, exec (.abortFinish ⟨q, []⟩) s = .next t ∧ queueAborting t q.toNat = false
      ∧ t.launches = s.launches.filter (fun l => l.q != q.toNat)
      ∧ t.outbox = ((s.launches.filter fun l => l.q == q.toNat).map fun l =>
          OutMsg.host s.ideKeys (.hostWrite l.cfg.compaddr (BitVec.ofNat 64 (0x80 * 2 ^ 56 + 0x40 * 2 ^ 48 + l.seq)))).reverse ++ s.outbox := by
  have susp : SUSP ≠ QCTL q.toNat := by
    have := (QCTL_bounds q.isLt).2
    unfold SUSP
    omega
  have next : execAbortFinish ⟨q, []⟩ s = .next (finishAbort s q.toNat []) := withPower_on on _
  unfold finishAbort at next
  rw [if_pos aborting, foldl_abortCompletions s _ fun l hl => h l (List.mem_filter.mp hl).1 (by simpa using (List.mem_filter.mp hl).2)] at next
  refine ⟨_, next, ?_, ?_, ?_⟩
  · unfold queueAborting
    rw [State.field_setField_ne _ susp.symm, State.field_setField_self _ _ (by omega)]
    rfl
  · rw [State.setField_launches, State.setField_launches]
  · rw [State.setField_outbox, State.setField_outbox]
    rfl

/-- A launch leaves its queue. -/
def launchGone (s : State) (l : Launch) : State := { s with launches := s.launches.filter fun x => !(x.q == l.q && x.seq == l.seq) }

theorem launchGone_leaves (s : State) (l : Launch) : (launchGone s l).dram = s.dram ∧ (launchGone s l).teams = s.teams
    ∧ (launchGone s l).outbox = s.outbox ∧ (launchGone s l).mregs = s.mregs := ⟨rfl, rfl, rfl, rfl⟩

theorem launchGone_launches (s : State) (l : Launch) : ∀ x ∈ (launchGone s l).launches, ¬ (x.q = l.q ∧ x.seq = l.seq) := by
  rintro x hx ⟨q, seq⟩
  have apart := (List.mem_filter.mp hx).2
  simp [q, seq] at apart

theorem completeLaunch_some {s : State} {q : Nat} {l : Launch} (h : completable s q = some l) (failed : Bool) :
    completeLaunch s q failed = launchGone (writeCompletion s l failed) l := by
  unfold completeLaunch
  rw [h]
  rfl

theorem completionFails_leaves (s : State) (q addr : Nat) : let t := completionFails s 0 q addr
    t.dram = s.dram ∧ t.teams = s.teams ∧ t.outbox = s.outbox ∧ t.field ERRCNT1 32 32 = min (s.field ERRCNT1 32 32 + 1) (2 ^ 32 - 1) := by
  have kept {γ : Type} (g : State → γ) (registers : ∀ s off lo w v, g (State.setField s off lo w v) = g s)
      (logs : ∀ s d f, g (State.modDie s d f) = g s) : g (completionFails s 0 q addr) = g s :=
    (State.logError_keeps g registers logs ..).trans (registers ..)
  refine ⟨kept _ State.setField_dram State.modDie_dram, kept _ State.setField_teams State.modDie_teams,
    kept _ State.setField_outbox State.modDie_outbox, ?_⟩
  unfold completionFails
  rw [State.field_congr (State.mreg_logError _ (logDie_lt s (by decide)) (.inl (by decide)) ..), State.countDrop, State.field_count _ _ (by omega)]

theorem launchComplete_event {s : State} (on : s.powered = true) (q : BitVec 6) {l : Launch} (ready : completable s q.toNat = some l) (e : Bool) :
    ∃ t, exec (.launchComplete ⟨q, e⟩) s = .next t ∧ (∀ x ∈ t.launches, ¬ (x.q = l.q ∧ x.seq = l.seq))
      ∧ (l.err = none → l.cfg.compHost = true → l.cfg.irq = false → t.dram = s.dram ∧ t.teams = s.teams
        ∧ (e = false → t.outbox = .host s.ideKeys (.hostWrite l.cfg.compaddr (BitVec.ofNat 64 l.cfg.compval)) :: s.outbox)
        ∧ (e = true → t.outbox = s.outbox ∧ t.field ERRCNT1 32 32 = min (s.field ERRCNT1 32 32 + 1) (2 ^ 32 - 1))) := by
  have next : execLaunchComplete ⟨q, e⟩ s = .next (completeLaunch s q.toNat e) := withPower_on on _
  rw [completeLaunch_some ready] at next
  refine ⟨_, next, launchGone_launches _ l, fun good host quiet => ?_⟩
  obtain ⟨dram, teams, out, regs⟩ := launchGone_leaves (writeCompletion s l e) l
  have count : (launchGone (writeCompletion s l e) l).field ERRCNT1 32 32 = (writeCompletion s l e).field ERRCNT1 32 32 := by
    unfold State.field State.mreg
    rw [regs]
  rw [dram, teams, out, count, writeCompletion_host s host quiet, good]
  cases e
  · exact ⟨rfl, rfl, fun _ => rfl, fun h => nomatch h⟩
  · obtain ⟨dram, teams, out, count⟩ := completionFails_leaves s l.q l.cfg.compaddr
    exact ⟨dram, teams, (fun h => nomatch h), fun _ => ⟨out, count⟩⟩

theorem queuesParseAbortAndComplete : QueuesParseAbortAndComplete := by
  intro s q on
  have enable (b : Bool) := setQueueEnable_fields s q.toNat b
  have parse : execRecordParse q s = .next _ := withPower_on on _
  refine ⟨⟨_, (withPower_on on _ : execQueueEnable q s = _), enable true⟩, ⟨_, (withPower_on on _ : execQueueDisable q s = _), enable false⟩,
    fun no => parse.trans (congrArg _ (if_neg (by rw [no]; decide))),
    fun yes => ⟨_, parse.trans (congrArg _ (if_pos yes)), parseRecord_seq s q.toNat⟩,
    fun aborting => ?_, fun fresh none => queueAbort_event on q fresh none, fun e none => ?_, fun aborting h => abortFinish_event on q aborting h,
    fun e none => ?_, fun l e ready => launchComplete_event on q ready e⟩
  · exact (withPower_on on _ : execQueueAbort q s = _).trans (congrArg _ (if_pos aborting))
  · exact (withPower_on on _ : execAbortFinish ⟨q, e⟩ s = _).trans (congrArg _ (if_neg (by rw [none]; decide)))
  · have next : execLaunchComplete ⟨q, e⟩ s = .next (completeLaunch s q.toNat e) := withPower_on on _
    unfold completeLaunch at next
    rw [none] at next
    exact next

end Sys2Proof.Machine
end

section
/-! PROOF. Placement and completion of blocks (R35, R117, R120, R123, R133, R149). -/

namespace Sys2Proof.Machine

/-! ## Cores made fresh (R188, R204) -/

theorem foldl_same {β : Type} {f : State → β → State} {s : State} (l : List β) (h : ∀ x ∈ l, f s x = s) : l.foldl f s = s := by
  induction l with
  | nil => rfl
  | cons x xs ih =>
    rw [List.foldl_cons, h x List.mem_cons_self]
    exact ih fun y hy => h y (List.mem_cons_of_mem x hy)

/-- Nothing is on its way to be registered from the cores of a list. -/
def NothingPending (s : State) (cores : List Nat) : Prop := ∀ c ∈ cores, ∀ e ∈ (s.core c).l1, e.2.pend = false

theorem registerPending_none {s : State} {c : Nat} (h : ∀ e ∈ (s.core c).l1, e.2.pend = false) : registerPending s c = s := by
  refine foldl_same _ fun e he => ?_
  rw [h e he]
  rfl

theorem HomesKept.trans {s t u : State} (h : HomesKept s t) (h' : HomesKept t u) : HomesKept s u := by
  obtain ⟨dram, l2, regs, poison⟩ := h
  obtain ⟨dram', l2', regs', poison'⟩ := h'
  exact ⟨dram'.trans dram, l2'.trans l2, regs'.trans regs, poison'.trans poison⟩

theorem core_modCore_l1_subset (s : State) (c e : Nat) (p : Nat × L1Word → Bool) :
    ∀ x ∈ ((s.modCore c fun k => { k with l1 := k.l1.filter p }).core e).l1, x ∈ (s.core e).l1 := by
  intro x hx
  by_cases here : e = c
  · subst here
    by_cases inside : e < s.cores.length
    · rw [State.core_modCore_self s inside] at hx
      exact (List.mem_filter.mp hx).1
    · have same (f : Core → Core) : (s.modCore e f).cores = s.cores := List.set_eq_of_length_le (Nat.le_of_not_lt inside)
      unfold State.core at hx ⊢
      rwa [same] at hx
  · rwa [State.core_modCore_ne s here] at hx

theorem freshen_settled {s : State} {c : Nat} (h : ∀ e ∈ (s.core c).l1, e.2.pend = false) :
    HomesKept s (freshen s c) ∧ ∀ e, ∀ x ∈ ((freshen s c).core e).l1, x ∈ (s.core e).l1 := by
  unfold freshen dropWritten dropCanopy invalidateL1
  rw [registerPending_none h]
  exact ⟨⟨rfl, rfl, rfl, rfl⟩, fun e => core_modCore_l1_subset s c e _⟩

theorem foldl_freshen_settled {s : State} (cores : List Nat) (h : NothingPending s cores) : HomesKept s (cores.foldl freshen s) := by
  induction cores generalizing s with
  | nil => exact ⟨rfl, rfl, rfl, rfl⟩
  | cons c cs ih =>
    obtain ⟨homes, fewer⟩ := freshen_settled (h c List.mem_cons_self)
    exact HomesKept.trans homes (ih fun e he x hx => h e (List.mem_cons_of_mem c he) x (fewer e x hx))

theorem foldl_freshen_blind {γ : Type} {g : State → γ} (h : Blind g) (cores : List Nat) (s : State) : g (cores.foldl freshen s) = g s :=
  foldl_keeps g (fun _ _ => h.dropWritten rfl ..) _ _

/-! ## Placement (R123, R133) -/

theorem blockPlace_eq {s : State} (on : s.powered = true) : exec .blockPlace s = .next (placeNext s) := (withPower_on on _ : execBlockPlace s = _)

theorem placeNext_held {s : State} (h : placing s = false) : placeNext s = s := by
  unfold placeNext
  rw [h]
  rfl

theorem placeNext_none {s s1 : State} (may : placing s = true) (h : nextCandidate s = (none, s1)) : placeNext s = s1 := by
  unfold placeNext
  rw [if_pos may, h]

theorem placeNext_some {s s1 : State} {q : Nat} {c : Candidate} (may : placing s = true) (h : nextCandidate s = (some (q, c), s1)) :
    placeNext s = c.serve s1 q := by
  unfold placeNext
  rw [if_pos may, h]

theorem placing_false {s : State} (h : serving s = false ∨ moveDue s = true) : placing s = false := by
  unfold placing
  rcases h with h | h <;> rw [h]
  · rfl
  · exact Bool.and_false _

/-- The team of a number on the seats of a new block. -/
def seatedTeam (l : Launch) (cores : List Nat) (seats : List Seat) (order num : Nat) : Team :=
  let (core, part, slot) := seatOf cores seats l.cfg.coresN num
  newTeam l.cfg ⟨l.q, l.seq, l.nextBlk, num⟩ core part slot (order + num)

theorem freshTeam_seatedTeam (l : Launch) (cores : List Nat) (seats : List Seat) (order num : Nat) :
    FreshTeam (seatedTeam l cores seats order num) l.cfg :=
  ⟨⟨rfl, rfl, rfl, rfl, rfl⟩, ⟨rfl, rfl, rfl⟩, ⟨rfl, rfl, rfl, rfl, rfl, rfl⟩, ⟨rfl, rfl, rfl, rfl, rfl⟩⟩

theorem prepareLaunch_noBitmap {s : State} {l : Launch} (h : l.cfg.bmaddr = 0) : ∃ ls, prepareLaunch s l = { s with launches := ls } := by
  unfold prepareLaunch
  split
  · exact ⟨s.launches, rfl⟩
  · extract_lets mark u
    exact ⟨s.launches.map mark, rfl⟩

theorem blind_teams : Blind State.teams := fun _ _ _ _ _ _ _ _ _ _ _ _ _ _ _ _ => rfl
theorem blind_blocks : Blind State.blocks := fun _ _ _ _ _ _ _ _ _ _ _ _ _ _ _ _ => rfl
theorem blind_placeCount : Blind State.placeCount := fun _ _ _ _ _ _ _ _ _ _ _ _ _ _ _ _ => rfl

/-- A block that is placed, with no bitmap to clear. -/
theorem seatBlock_fresh {s : State} {l : Launch} (cores : List Nat) (seats : List Seat) (bitmap : l.cfg.bmaddr = 0) :
    ∃ new, (seatBlock s l cores seats).teams = s.teams ++ new ∧ new.length = l.cfg.nt
      ∧ (∀ u ∈ new, FreshTeam u l.cfg ∧ u.cfg = l.cfg ∧ u.key.q = l.q ∧ u.key.seq = l.seq ∧ u.key.blk = l.nextBlk)
      ∧ new.map (·.key.num) = List.range l.cfg.nt
      ∧ (seatBlock s l cores seats).blocks = s.blocks ++ [newBlock l.q l.seq l.nextBlk l.cfg cores seats s.placeCount]
      ∧ (NothingPending s cores → HomesKept s (seatBlock s l cores seats)) := by
  obtain ⟨ls, prepared⟩ := prepareLaunch_noBitmap (s := s) bitmap
  have shows {γ : Type} {g : State → γ} (h : Blind g) : g (cores.foldl freshen (prepareLaunch s l)) = g { s with launches := ls } := by
    rw [prepared]
    exact foldl_freshen_blind h ..
  have teams : (cores.foldl freshen (prepareLaunch s l)).teams = s.teams := shows blind_teams
  have blocks : (cores.foldl freshen (prepareLaunch s l)).blocks = s.blocks := shows blind_blocks
  have count : (cores.foldl freshen (prepareLaunch s l)).placeCount = s.placeCount := shows blind_placeCount
  have homes (still : NothingPending s cores) : HomesKept s (cores.foldl freshen (prepareLaunch s l)) := by
    rw [prepared]
    exact foldl_freshen_settled (s := { s with launches := ls }) cores still
  unfold seatBlock
  generalize cores.foldl freshen (prepareLaunch s l) = u at teams blocks count homes
  refine ⟨(List.range l.cfg.nt).map (seatedTeam l cores seats (nextOrder u)), ?_, ?_, fun t ht => ?_, ?_, ?_, fun still => homes still⟩
  · rw [← teams]
    rfl
  · rw [List.length_map, List.length_range]
  · obtain ⟨num, -, rfl⟩ := List.mem_map.mp ht
    exact ⟨freshTeam_seatedTeam .., rfl, rfl, rfl, rfl⟩
  · rw [List.map_map]
    exact List.map_id _
  · rw [← blocks, ← count]

/-! ## Completion (R120, R149) -/

theorem mem_insertNat (n : Nat) (l : List Nat) : n ∈ insertNat n l := by
  induction l with
  | nil => exact List.mem_singleton_self n
  | cons m r ih =>
    unfold insertNat
    split
    · exact List.mem_cons_self
    · split
      · next e => exact e ▸ List.mem_cons_self
      · exact List.mem_cons_of_mem m ih

theorem completeBlock_leaves (s : State) (b : Block) : (∀ x ∈ (completeBlock s b).blocks, sameBlock x b = false)
    ∧ ∀ l ∈ (completeBlock s b).launches, l.q = b.q → l.seq = b.seq → b.idx ∈ l.done := by
  unfold completeBlock
  extract_lets drained a revoked u mark
  clear_value u
  refine ⟨fun x hx => by simpa using (List.mem_filter.mp hx).2, fun l hl => ?_⟩
  obtain ⟨l, -, rfl⟩ := List.mem_map.mp hl
  intro q seq
  by_cases own : l.q = b.q ∧ l.seq = b.seq
  · have marked : mark l = { l with done := insertNat b.idx l.done } := if_pos own
    rw [marked]
    exact mem_insertNat ..
  · have other : mark l = l := if_neg own
    rw [other] at q seq
    exact absurd ⟨q, seq⟩ own

theorem blockComplete_eq {s : State} (on : s.powered = true) (q : BitVec 6) (seq : Word) (blk : BitVec 20) : exec (.blockComplete q seq blk) s
    = .next (match s.blocks.find? fun b => isBlock q.toNat seq.toNat blk.toNat b && b.live.isEmpty with
      | some b => completeBlock s b
      | none => s) := (withPower_on on _ : execBlockComplete q seq blk s = _)

theorem blocksArePlacedAndComplete : BlocksArePlacedAndComplete := by
  intro s on
  have place := blockPlace_eq on
  refine ⟨fun held => ?_, fun held => ?_, fun may s1 h => ?_, fun may s1 q l cores seats h bitmap => ?_, fun may s1 q x cores seats h => ?_,
    fun q seq blk none => ?_, fun q seq blk b found => ?_⟩
  · rw [place, placeNext_held held]
  · rw [place, placeNext_held (placing_false held)]
  · rw [place, placeNext_none may h]
  · rw [placeNext_some may h] at place
    obtain ⟨new, teams, length, fresh, nums, blocks, homes⟩ :=
      seatBlock_fresh (s := { s1 with lastQueue := s1.lastQueue.set (queuePrio s1 q) q }) cores seats bitmap
    exact ⟨_, new, place, teams, length, fresh, nums, blocks, homes⟩
  · rw [place, placeNext_some may h]
    rfl
  · rw [blockComplete_eq on, none]
  · have found' := List.find?_some found
    simp only [isBlock, Bool.and_eq_true, beq_iff_eq] at found'
    obtain ⟨⟨⟨own, launch⟩, index⟩, -⟩ := found'
    have next := blockComplete_eq on q seq blk
    rw [found] at next
    obtain ⟨gone, done⟩ := completeBlock_leaves s b
    unfold sameBlock at gone
    unfold isBlock
    rw [own, launch, index] at gone done
    exact ⟨_, next, gone, done⟩

/-- Settles O49: event by event; an abort and a placement from what their last updates leave, since no operation on memory between reaches
queues, blocks or teams. -/
theorem queuesLaunchesAndBlocks : Obligations.QueuesLaunchesAndBlocks := ⟨queuesParseAbortAndComplete, blocksArePlacedAndComplete⟩

end Sys2Proof.Machine
end

section
/-! PROOF. Lane loads (R37, R137, R317, R318, R321, R324): what they send, and what their data does to the registers. -/

namespace Sys2Proof.Machine

/-! ## A lane load issues -/

theorem effAddr_eq (pair : Nat) (off : Byte) (n : Nat) : effAddr pair off n = pairAddress pair off n := by
  unfold effAddr pairAddress intBits
  rw [show ((2 ^ 64 : Nat) : Int) = 2 ^ 64 from rfl]
  rfl

/-- The addresses that the model sends are those of R318. -/
theorem lanesOf_addresses (s : State) (t : Team) (p : LPre) (code : Nat) (off : Byte) (n : Nat) :
    (lanesOf t (effMask t p).1).map (fun l => (l, effAddr (opnd s t .m .i64 code l) off n)) = laneAddresses s t p code off n := by
  unfold lanesOf laneAddresses
  simp only [effAddr_eq]

/-- A lane memory instruction that issues passes an empty mask by, and otherwise does what its body says. -/
theorem laneMem_runs {s : State} {t : Team} {p : LPre} {f : Form} {d a b : Nat} (h : LaneRuns s t p f d a b) (base : Nat)
    (body : State → Team → Codes → Mask → State) :
    laneMem s p f d a b base body = .next (if (effMask t p).1 = 0#1024 then passEmpty s p base (effMask t p).2
      else body s t (laneCodes t p d a b) (effMask t p).1) := by
  unfold laneMem
  rw [laneIssue_runs h]

theorem withTargets_error {s w : State} {t : Team} {f : AccForm} {addrs : List (Nat × Nat)} {sends : Nat → Bool}
    (h : targets s t f addrs sends [] = .error w) (go : State → List (Nat × Tgt) → State) :
    withTargets s t f addrs sends go = w := by
  unfold withTargets
  rw [h]

theorem withTargets_ok {s s1 : State} {t : Team} {f : AccForm} {addrs : List (Nat × Nat)} {sends : Nat → Bool}
    {tgts : List (Nat × Tgt)} (h : targets s t f addrs sends [] = .ok (s1, tgts)) (go : State → List (Nat × Tgt) → State) :
    withTargets s t f addrs sends go = go s1 tgts := by
  unfold withTargets
  rw [h]

/-- What a lane memory instruction that posted a load leaves of its team, that load apart. -/
theorem LaneEnds.posted (t : Team) (r : List LoadReq) (p : LPre) (f : Form) (k : Codes) (base : Nat) (dead : Bool) :
    (({ t with loads := t.loads ++ r } : Team).laneEnd p f k base dead).loads = t.loads ++ r
    ∧ LaneEnds t { ({ t with loads := t.loads ++ r } : Team).laneEnd p f k base dead with loads := t.loads } p f k base dead := by
  obtain ⟨-, hregs, hdead, hl, hx, hu, htags, hstatus, hmoved, ⟨hsame⟩⟩ :=
    Team.laneEnd_spec ({ t with loads := t.loads ++ r } : Team) p f k base dead
  refine ⟨?_, hregs, hdead, ⟨hl, hx, hu⟩, htags, hstatus, hmoved, ⟨?_⟩⟩
  · exact congrArg Team.loads hsame
  · exact congrArg (fun v : Team => { v with loads := t.loads }) hsame

/-- A plain lane load: an empty mask is passed by, and otherwise its accesses are checked and its requests go out. -/
theorem laneLoad_runs {s : State} {t : Team} {p : LPre} {d a o : Byte} {n : Nat} (signed : Bool) {k : Codes}
    (h : LaneRuns s t p (Form.of .m (.dst (ceilDiv n 4)) .pair .field) d.toNat a.toNat o.toNat)
    (hk : k = laneCodes t p d.toNat a.toNat o.toNat) :
    laneLoad s p d a o n signed = .next (if (effMask t p).1 = 0#1024 then passEmpty s p 1 (effMask t p).2
      else withTargets s t ⟨n, .read, false, false⟩ (laneAddresses s t p k.a o n) (fun _ => true) fun s tgts =>
        endLane (postLoad s k.d ⟨n, signed, false, (pfxOf p).zm⟩ tgts) p (Form.of .m (.dst (ceilDiv n 4)) .pair .field) k 1
          (readsDead t .m k.a 2)) := by
  unfold laneLoad
  rw [laneMem_runs h]
  simp only [lanesOf_addresses, ← hk]

/-- The load is added to the team's outstanding ones, and the instruction ends. -/
theorem endLane_postLoad {s : State} {t : Team} (h : s.teams[s.cur]? = some t) (d : Nat) (lf : LoadForm)
    (tgts : List (Nat × Tgt)) (p : LPre) (f : Form) (k : Codes) (base : Nat) (dead : Bool) :
    endLane (postLoad s d lf tgts) p f k base dead = s.setTeam s.cur (({ t with
      loads := t.loads ++ [⟨d, lf.n, lf.signed, lf.uni, lf.zm, needOf tgts, tgts⟩] } : Team).laneEnd p f k base dead) := by
  unfold postLoad endLane
  rw [State.modTeam_eq h, State.setTeam_cur, State.modTeam_eq (State.setTeam_get h _), State.setTeam_setTeam]

/-- The seven plain loads, each the shared load of its size. -/
theorem exec_plainLoad {p : LPre} {d a o : Byte} {i : Instr} {n : Nat} {signed : Bool}
    (h : (i, n, signed) ∈ [(Instr.ldb p d a o, 1, false), (.ldbs p d a o, 1, true), (.ldh p d a o, 2, false),
      (.ldhs p d a o, 2, true), (.ldw p d a o, 4, false), (.ldd p d a o, 8, false), (.ldq p d a o, 16, false)]) (s : State) :
    exec i s = laneLoad s p d a o n signed := by
  simp only [List.mem_cons, Prod.mk.injEq, List.not_mem_nil, or_false] at h
  rcases h with h | h | h | h | h | h | h <;> obtain ⟨rfl, rfl, rfl⟩ := h <;> rfl

theorem laneLoadsGoOut : LaneLoadsGoOut := by
  intro p d a o i n signed hi s t f k hf hk hr
  subst hf
  have hx := (exec_plainLoad hi s).trans (laneLoad_runs signed hr hk)
  refine ⟨fun hz => ?_, fun hz => ⟨fun w hw => ?_, fun s1 tgts t1 ht ht1 => ?_⟩⟩
  · obtain ⟨u, hu, hs⟩ := passEmpty_gives hr.1 p 1 (effMask t p).2
    exact ⟨u, by rw [hx, if_pos hz, hu], hs⟩
  · rw [hx, if_neg hz, withTargets_error hw]
  · obtain ⟨hl, he⟩ := LaneEnds.posted t1 [⟨k.d, n, signed, false, (pfxOf p).zm, needOf tgts, tgts⟩] p
      (Form.of .m (.dst ((n + 3) / 4)) .pair .field) k 1 (readsDead t .m k.a 2)
    exact ⟨_, by rw [hx, if_neg hz, withTargets_ok ht, endLane_postLoad ht1]; rfl, hl, he⟩

/-! ## The requests of a load of one pass (R324) -/

/-- Lanes below 32 are one pass. -/
theorem passesOf_one {α : Type} {lane : α → Nat} {xs : List α} (h : ∀ x ∈ xs, lane x < 32) (hn : xs ≠ []) :
    passesOf lane xs = [xs] := by
  refine List.splitBy_of_isChain hn (List.Pairwise.isChain (List.pairwise_of_forall_mem_list fun x hx y hy => ?_))
  have hx0 : lane x / 32 = 0 := Nat.div_eq_of_lt (h x hx)
  have hy0 : lane y / 32 = 0 := Nat.div_eq_of_lt (h y hy)
  simp [hx0, hy0]

theorem coalesce_one (rs : List WordReq) : coalesce [rs] = [rs] := by
  unfold coalesce
  simp only [List.foldl_cons, List.foldl_nil]
  rw [List.foldl_fixed' fun key => by simp]
  simp

theorem readPasses_one (s : State) (c : Nat) (rs : List WordReq) :
    readPasses s c [rs] = ([(readWords s c rs).1], (readWords s c rs).2) := by
  unfold readPasses
  rw [coalesce_one]
  simp

/-! ## The registers that the data enters (R321, R324) -/

/-- Each active lane with the value that its bytes give. -/
def LoadReq.laneVals (r : LoadReq) (tbl : WordTable) : List (Nat × Nat) :=
  r.reads.map fun y => (y.1, loadValue r.n r.signed (y.2.value tbl))

/-- Word `i` of the destination of a load with these values, over what the register held. -/
def LoadReq.newWord (r : LoadReq) (vals : List (Nat × Nat)) (i tl : Nat) (old : Lanes) : Lanes :=
  if r.uni then List.replicate tl (BitVec.ofNat 32 (((vals.head?.map (·.2)).getD 0) / 2 ^ (32 * i)))
  else old.zipIdx.map fun x => match look x.2 vals with
    | some v => BitVec.ofNat 32 (v / 2 ^ (32 * i))
    | none => if r.zm then 0#32 else x.1

/-- The team after the data of a load has entered its registers. -/
def LoadReq.enters (r : LoadReq) (vals : List (Nat × Nat)) (t : Team) : Team :=
  (List.range (ceilDiv r.n 4)).foldl (fun (t : Team) i => t.setReg (r.dst + i) (r.newWord vals i t.tl (t.reg (r.dst + i)))) t

/-- The data of a load of one pass without poison enters the registers, and the team wakes if that was its last wait. -/
theorem loadArrive_one {s s1 : State} {k : Nat} {t t1 : Team} {r : LoadReq} {tbl : WordTable} (ht : s.teams[k]? = some t)
    (hl : ∀ x ∈ r.reads, x.1 < 32) (hn : r.reads ≠ [])
    (hr : readWords s t.coreNo (r.reads.flatMap fun x => x.2.wordReqs) = (tbl, s1)) (ht1 : s1.teams[k]? = some t1)
    (hp : ∀ x ∈ r.reads, x.2.poisoned tbl = false) :
    loadArrive s k r = wakeLoad (s1.setTeam k (r.enters (r.laneVals tbl) t1)) k := by
  have hbad : (r.reads.find? fun y => y.2.poisoned tbl) = none := by
    rw [List.find?_eq_none]
    intro x hx
    simp [hp x hx]
  unfold loadArrive
  rw [ht]
  simp only [passesOf_one hl hn, List.map_cons, List.map_nil, readPasses_one, hr, List.zip_cons_cons, List.zip_nil_left,
    List.foldl_cons, List.foldl_nil, hbad, Option.map_none, List.nil_append]
  rw [State.modTeam_eq ht1]
  rfl

theorem Team.setRegs_tl (t : Team) (d : Nat) (word : Nat → Lanes) (w : Nat) :
    ((List.range w).foldl (fun t i => t.setReg (d + i) (word i)) t).tl = t.tl :=
  (SameElse.foldl (fun (u : Team) i => u.setReg (d + i) (word i)) (fun u _ => SameElse.setReg u _ _) (List.range w) t).tl

/-- The next register to write reads as it did. -/
theorem Team.setRegs_reg (t : Team) (d : Nat) (word : Nat → Lanes) (w : Nat) :
    ((List.range w).foldl (fun t i => t.setReg (d + i) (word i)) t).reg (d + w) = t.reg (d + w) := by
  unfold Team.reg
  rw [Team.setRegs_isDead, Team.setRegs_tl, List.getD_eq_getElem?_getD, Team.setRegs_others t d word w _ (.inr le_rfl),
    ← List.getD_eq_getElem?_getD]
  simp

/-- Registers written in turn, each from what it held, hold what they would if all were read first. -/
theorem Team.setRegs_ofOld (t : Team) (d : Nat) (g : Nat → Nat → Lanes → Lanes) (w : Nat) :
    (List.range w).foldl (fun (u : Team) i => u.setReg (d + i) (g i u.tl (u.reg (d + i)))) t
      = (List.range w).foldl (fun (u : Team) i => u.setReg (d + i) (g i t.tl (t.reg (d + i)))) t := by
  induction w with
  | zero => rfl
  | succ w ih =>
    have htl := Team.setRegs_tl t d (fun i => g i t.tl (t.reg (d + i))) w
    have hreg := Team.setRegs_reg t d (fun i => g i t.tl (t.reg (d + i))) w
    rw [List.range_succ, List.foldl_append, List.foldl_append, ih, List.foldl_cons, List.foldl_nil, List.foldl_cons,
      List.foldl_nil, htl, hreg]

theorem LoadReq.enters_eq (r : LoadReq) (vals : List (Nat × Nat)) (t : Team) :
    r.enters vals t = (List.range (ceilDiv r.n 4)).foldl
      (fun (u : Team) i => u.setReg (r.dst + i) (r.newWord vals i t.tl (t.reg (r.dst + i)))) t :=
  Team.setRegs_ofOld t r.dst (r.newWord vals) (ceilDiv r.n 4)

/-- Only registers and their dead marks are written. -/
theorem LoadReq.enters_else (r : LoadReq) (vals : List (Nat × Nat)) (t : Team) :
    { r.enters vals t with regs := t.regs, dead := t.dead } = t := by
  rw [LoadReq.enters_eq]
  generalize List.range (ceilDiv r.n 4) = is
  generalize hw : (fun i => r.newWord vals i t.tl (t.reg (r.dst + i))) = word
  suffices h : ∀ u : Team, { u with regs := t.regs, dead := t.dead } = t →
      { is.foldl (fun (u : Team) i => u.setReg (r.dst + i) (word i)) u with regs := t.regs, dead := t.dead } = t by
    subst hw
    exact h t rfl
  induction is with
  | nil => exact fun u h => h
  | cons i is ih => exact fun u h => ih _ h

/-- A lane of what a register is written with: the word of its value, or without one zero or its old word. -/
theorem LoadReq.newWord_lane (r : LoadReq) (vals : List (Nat × Nat)) (i : Nat) {tl l : Nat} {old : Lanes} (hl : l < tl)
    (ho : old.length = tl) : (r.newWord vals i tl old).getD l 0#32
      = if r.uni then BitVec.ofNat 32 (((vals.head?.map (·.2)).getD 0) / 2 ^ (32 * i))
        else match look l vals with
          | some v => BitVec.ofNat 32 (v / 2 ^ (32 * i))
          | none => if r.zm then 0#32 else old.getD l 0#32 := by
  unfold LoadReq.newWord
  by_cases hu : r.uni = true
  · rw [if_pos hu, if_pos hu, List.getD_replicate _ hl]
  · rw [if_neg hu, if_neg hu]
    have hlt : l < old.length := by omega
    simp [List.getD_eq_getElem?_getD, List.getElem?_map, List.getElem?_zipIdx, List.getElem?_eq_getElem hlt]

theorem look_laneVals (r : LoadReq) (tbl : WordTable) (l : Nat) :
    look l (r.laneVals tbl) = (r.reads.find? fun x => x.1 == l).map fun x => loadValue r.n r.signed (x.2.value tbl) := by
  unfold LoadReq.laneVals
  induction r.reads with
  | nil => rfl
  | cons x xs ih =>
    rw [List.map_cons, look, ih, List.find?_cons]
    by_cases hx : x.1 = l
    · simp [hx]
    · rw [if_neg hx, beq_eq_false_iff_ne.2 hx]

theorem reg_length {t : Team} (h : ∀ v ∈ t.regs, v.length = t.tl) (n : Nat) : (t.reg n).length = t.tl := by
  unfold Team.reg
  split
  · exact List.length_replicate
  · rw [List.getD_eq_getElem?_getD]
    cases hn : t.regs[n]? with
    | none => exact List.length_replicate
    | some v => exact h v (List.mem_of_getElem? hn)

/-- What a lane of a destination holds after the data has entered. -/
theorem LoadReq.enters_regAt {r : LoadReq} {tbl : WordTable} {t : Team} (hd : r.dst + ceilDiv r.n 4 ≤ t.regs.length)
    (hv : ∀ v ∈ t.regs, v.length = t.tl) {j l : Nat} (hj : j < ceilDiv r.n 4) (hl : l < t.tl) :
    (r.enters (r.laneVals tbl) t).regAt (r.dst + j) l
      = if r.uni then BitVec.ofNat 32 (((r.reads.head?.map fun x => loadValue r.n r.signed (x.2.value tbl)).getD 0) / 2 ^ (32 * j))
        else match r.reads.find? (fun x => x.1 == l) with
          | some x => BitVec.ofNat 32 (loadValue r.n r.signed (x.2.value tbl) / 2 ^ (32 * j))
          | none => if r.zm then 0#32 else t.regAt (r.dst + j) l := by
  have hhead : (r.laneVals tbl).head?.map (·.2) = r.reads.head?.map fun x => loadValue r.n r.signed (x.2.value tbl) := by
    unfold LoadReq.laneVals
    cases r.reads <;> rfl
  rw [LoadReq.enters_eq, Team.setRegs_regAt t r.dst (fun i => r.newWord (r.laneVals tbl) i t.tl (t.reg (r.dst + i)))
    _ hd, if_pos (by omega), Nat.add_sub_cancel_left, LoadReq.newWord_lane r _ j hl (reg_length hv _), hhead, look_laneVals]
  cases r.reads.find? (fun x => x.1 == l) <;> rfl

/-! ## The team wakes (R137) -/

/-- A team that waits for loads wakes where none of those still outstanding writes what it waits for. -/
theorem wakeLoad_setTeam {s : State} {k : Nat} {t u : Team} (ht : s.teams[k]? = some t)
    (hu : { u with regs := t.regs, dead := t.dead } = t) :
    wakeLoad (s.setTeam k u) k = match t.park with
      | some (.load rs) => if t.loads.any (fun x => rs.any x.writes) then s.setTeam k u else unparkKey (s.setTeam k u) t.key
      | _ => s.setTeam k u := by
  unfold wakeLoad
  rw [State.setTeam_get ht]
  have hp : u.park = t.park := by rw [← hu]
  have hl : u.loads = t.loads := by rw [← hu]
  have hk : u.key = t.key := by rw [← hu]
  simp only [hp, hl, hk] <;> rfl

theorem loadsWriteTheirRegisters : LoadsWriteTheirRegisters := by
  intro s s1 k t t1 r tbl ht hl hn hr ht1 hp hd _ hv
  have helse := LoadReq.enters_else r (r.laneVals tbl) t1
  refine ⟨r.enters (r.laneVals tbl) t1, ?_, fun n hout => ?_, fun j l hj hlt => ⟨fun x y hxy => ?_, fun hu hx => ?_⟩, helse⟩
  · rw [loadArrive_one ht hl hn hr ht1 hp, wakeLoad_setTeam ht1 helse] <;> rfl
  · rw [LoadReq.enters_eq]
    exact Team.setRegs_others t1 r.dst (fun i => r.newWord (r.laneVals tbl) i t1.tl (t1.reg (r.dst + i))) _ n hout
  · rw [LoadReq.enters_regAt hd hv hj hlt]
    by_cases hu : r.uni = true
    · rw [if_pos hu] at hxy ⊢
      rw [hxy]
      rfl
    · rw [if_neg hu] at hxy ⊢
      rw [hxy]
      rfl
  · have hnone : (r.reads.find? fun x => x.1 == l) = none := by
      rw [List.find?_eq_none]
      intro x hx'
      simpa using hx x hx'
    rw [LoadReq.enters_regAt hd hv hj hlt, if_neg (by simp [hu]), hnone]

/-- Settles O23: a lane load that issues is the shared frame of lane memory instructions, whose addresses are those of R318; and the
data of a load of one pass is one table of words, whose values enter each register over what it held before the load. -/
theorem laneLoadsReadMemory : Obligations.LaneLoadsReadMemory := ⟨laneLoadsGoOut, loadsWriteTheirRegisters⟩

end Sys2Proof.Machine
end

section
/-! PROOF. The base bit of each view bit (R79, R92). -/

namespace Sys2Proof.Machine

/-! ## Coordinates (R79) -/

theorem prod_map_range {M : Type} [CommMonoid M] (n : Nat) (f : Nat → M) :
    ((List.range n).map f).prod = ∏ k ∈ Finset.range n, f k := by
  induction n with
  | zero => rfl
  | succ n ih => rw [List.range_succ, List.map_append, List.prod_append, ih, Finset.prod_range_succ]; simp

theorem sum_map_range {M : Type} [AddCommMonoid M] (n : Nat) (f : Nat → M) :
    ((List.range n).map f).sum = ∑ k ∈ Finset.range n, f k := by
  induction n with
  | zero => rfl
  | succ n ih => rw [List.range_succ, List.map_append, List.sum_append, ih, Finset.sum_range_succ]; simp

/-- The coordinates of a number in mixed radix are its digits. -/
theorem coords_digits (n : Nat) : ∀ (dim i : Nat → Nat), (∀ k, k < n → i k < dim k) →
    ∀ k, k < n → (coords ((List.range n).map dim) (∑ k ∈ Finset.range n, i k * ∏ j ∈ Finset.range k, dim j)).getD k 0 = i k := by
  induction n with
  | zero => exact fun _ _ _ k hk => absurd hk (Nat.not_lt_zero k)
  | succ n ih =>
    intro dim i hi k hk
    have hpos : 0 < dim 0 := Nat.lt_of_le_of_lt (Nat.zero_le _) (hi 0 (Nat.succ_pos n))
    have he : (∑ k ∈ Finset.range (n + 1), i k * ∏ j ∈ Finset.range k, dim j)
        = i 0 + dim 0 * ∑ k ∈ Finset.range n, i (k + 1) * ∏ j ∈ Finset.range k, dim (j + 1) := by
      rw [Finset.sum_range_succ', Finset.mul_sum, Finset.prod_range_zero, mul_one, Nat.add_comm]
      congr 1
      refine Finset.sum_congr rfl fun k _ => ?_
      rw [Finset.prod_range_succ']
      ring
    rw [he, List.range_succ_eq_map, List.map_cons, List.map_map, coords, Nat.add_mul_mod_self_left,
      Nat.mod_eq_of_lt (hi 0 (Nat.succ_pos n)), Nat.add_mul_div_left _ _ hpos,
      Nat.div_eq_of_lt (hi 0 (Nat.succ_pos n)), Nat.zero_add]
    cases k with
    | zero => rfl
    | succ k => exact ih (fun k => dim (k + 1)) (fun k => i (k + 1)) (fun k hk => hi _ (Nat.succ_lt_succ hk)) k (Nat.lt_of_succ_lt_succ hk)

/-- A coordinate as the model takes it is the one of R79. -/
theorem coords_of_coordinates {v : VDesc} {e : Nat} {i : Nat → Nat} (h : Coordinates v e i) {k : Nat} (hk : k < v.rank) :
    (coords ((List.range v.rank).map v.dim) e).getD k 0 = i k := by
  obtain ⟨hi, rfl⟩ := h
  exact coords_digits v.rank v.dim i hi k hk

/-! ## Elements by the kind of the view -/

theorem element_stride {v : VDesc} (hv : v.kind = 3) {e : Nat} {i : Nat → Nat} (h : Coordinates v e i) :
    v.element e = ∑ k ∈ Finset.range v.rank, (i k : Int) * v.stride k := by
  unfold VDesc.element
  rw [hv]
  change ((List.range v.rank).map fun k => ((((coords ((List.range v.rank).map v.dim) e).getD k 0 : Nat) : Int) * v.stride k)).sum = _
  rw [sum_map_range]
  refine Finset.sum_congr rfl fun k hk => ?_
  rw [coords_of_coordinates h (Finset.mem_range.1 hk)]

/-- The size of base dimension `j` of a PERM view, as the model takes it. -/
def VDesc.baseSize (v : VDesc) (j : Nat) : Nat := ((List.range v.rank).filter fun k => v.sel k == j).foldl (fun _ k => v.dim k) 1

/-- The last of a list that is not empty. -/
theorem foldl_last {α β : Type} (f : α → β) (b x : β) (l : List α) (hn : l ≠ []) (h : ∀ a ∈ l, f a = x) :
    l.foldl (fun _ a => f a) b = x := by
  induction l generalizing b with
  | nil => exact absurd rfl hn
  | cons a l ih =>
    cases l with
    | nil => exact h a List.mem_cons_self
    | cons c l => exact ih (f a) (List.cons_ne_nil _ _) fun y hy => h y (List.mem_cons_of_mem a hy)

theorem baseSize_eq {v : VDesc} (hp : Permutes v) {size : Nat → Nat} (hs : ∀ k, k < v.rank → size (v.sel k) = v.dim k) {j : Nat}
    (hj : j < v.rank) : v.baseSize j = size j := by
  obtain ⟨k, hk, rfl⟩ := hp.2 j hj
  refine foldl_last v.dim 1 (size (v.sel k)) _ (List.ne_nil_of_mem (a := k) ?_) fun a ha => ?_
  · simp [hk]
  · obtain ⟨ha, hsel⟩ := List.mem_filter.1 ha
    rw [← hs a (List.mem_range.1 ha), eq_of_beq hsel]

theorem element_perm {v : VDesc} (hv : v.kind = 1) (hp : Permutes v) {size : Nat → Nat}
    (hs : ∀ k, k < v.rank → size (v.sel k) = v.dim k) {e : Nat} {i : Nat → Nat} (h : Coordinates v e i) :
    v.element e = (∑ k ∈ Finset.range v.rank, i k * ∏ j ∈ Finset.range (v.sel k), size j : Nat) := by
  unfold VDesc.element
  rw [hv]
  change ((((List.range v.rank).map fun k => (coords ((List.range v.rank).map v.dim) e).getD k 0
    * ((List.range (v.sel k)).map v.baseSize).prod).sum : Nat) : Int) = _
  rw [sum_map_range]
  congr 1
  refine Finset.sum_congr rfl fun k hk => ?_
  rw [Finset.mem_range] at hk
  rw [coords_of_coordinates h hk, prod_map_range]
  congr 1
  exact Finset.prod_congr rfl fun j hj => baseSize_eq hp hs ((Finset.mem_range.1 hj).trans (hp.1 k hk))

/-- The digits of a number in mixed radix. -/
theorem mod_digit {a n q : Nat} (h : a < n) : (a + n * q) % n = a := by
  rw [Nat.add_mul_mod_self_left, Nat.mod_eq_of_lt h]

theorem div_digit {a n q : Nat} (h : a < n) : (a + n * q) / n = q := by
  rw [Nat.add_mul_div_left _ _ (Nat.lt_of_le_of_lt (Nat.zero_le a) h), Nat.div_eq_of_lt h, Nat.zero_add]

theorem element_tile {v : VDesc} (hv : v.kind = 2) {c rw tc tr : Nat} (h : Nat) (hc : c < v.t0) (hr : rw < v.t1)
    (htc : tc < v.dim 0 / v.t0) (htr : tr < v.dim 1 / v.t1) :
    v.element (c + v.t0 * (rw + v.t1 * (tc + v.dim 0 / v.t0 * (tr + v.dim 1 / v.t1 * h))))
      = (tc * v.t0 + c + v.dim 0 * (tr * v.t1 + rw) + v.dim 0 * v.dim 1 * h : Nat) := by
  unfold VDesc.element
  rw [hv]
  simp only [mod_digit hc, div_digit hc, mod_digit hr, div_digit hr, mod_digit htc, div_digit htc, mod_digit htr, div_digit htr]

/-! ## Base bits -/

theorem baseBit_past {v : VDesc} {b : Nat} (h : v.count * v.width ≤ b) : v.baseBit b = none := by
  unfold VDesc.baseBit
  simp only [if_pos h]

/-- Bit `t` of element `e`, but in a view of planes. -/
theorem baseBit_element {v : VDesc} (hk : v.kind ≠ 4) {e t n : Nat} (ht : t < v.width) (he : e < v.count)
    (hn : (n : Int) = 8 * v.base + v.width * v.element e + t) : v.baseBit (v.width * e + t) = some n := by
  have hin : ¬ v.count * v.width ≤ v.width * e + t := by
    have : v.width * (e + 1) ≤ v.width * v.count := Nat.mul_le_mul_left _ he
    rw [Nat.mul_comm v.count]
    rw [Nat.mul_add] at this
    omega
  unfold VDesc.baseBit
  simp only [if_neg hin, if_neg hk]
  rw [Nat.add_comm, mod_digit ht, div_digit ht, ← hn, Int.toNat_natCast]

/-- Plane `p` of element `j` of a group of planes. -/
theorem baseBit_plane {v : VDesc} (hk : v.kind = 4) {q p j : Nat} (hp : p < v.width) (hj : j < v.t0)
    (hin : v.width * v.t0 * q + v.t0 * p + j < v.count * v.width) :
    v.baseBit (v.width * v.t0 * q + v.t0 * p + j) = some (8 * v.base + v.width * (q * v.t0 + j) + p) := by
  have hr : v.t0 * p + j < v.width * v.t0 := by
    have : v.t0 * (p + 1) ≤ v.t0 * v.width := Nat.mul_le_mul_left _ hp
    rw [Nat.mul_comm v.width]
    rw [Nat.mul_add] at this
    omega
  unfold VDesc.baseBit
  simp only [if_neg (Nat.not_le.2 hin), if_pos hk]
  rw [show v.width * v.t0 * q + v.t0 * p + j = (v.t0 * p + j) + v.width * v.t0 * q by omega, mod_digit hr, div_digit hr,
    Nat.add_comm (v.t0 * p) j, mod_digit hj, div_digit hj]

/-- A bit of row `i` of a gathered view. -/
theorem gatherBit_row (v : VDesc) (ix : Nat → RowIx) {i y j : Nat} (hy : y < v.rowb) (hj : j < 8) :
    v.gatherBit ix (8 * (i * v.rowb + y) + j) = match ix i with
      | .row n => some (8 * (v.base + n * v.rowb + y) + j)
      | _ => none := by
  have hb : (8 * (i * v.rowb + y) + j) / 8 = y + v.rowb * i := by rw [Nat.add_comm, div_digit hj, Nat.mul_comm i, Nat.add_comm]
  have hm : (8 * (i * v.rowb + y) + j) % 8 = j := by rw [Nat.add_comm, mod_digit hj]
  unfold VDesc.gatherBit
  rw [hb, hm, div_digit hy, mod_digit hy] <;> cases ix i <;> rfl

theorem extent_bits {v : VDesc} (h : v.isGather = false) :
    v.count * v.width ≤ 8 * v.extent ∧ 8 * v.extent < v.count * v.width + 8 := by
  unfold VDesc.extent
  rw [h, if_neg Bool.false_ne_true]
  unfold ceilDiv
  omega

theorem bits_getElem (v : VDesc) (ix : IndexTable) (o n : Nat) {j : Nat} (hj : j < 8 * n) : (v.bits ix o n)[j]?
    = some (if v.isGather then v.gatherBit ix.at (8 * o + j) else v.baseBit (8 * o + j)) := by
  unfold VDesc.bits
  rw [List.getElem?_map, List.getElem?_range hj]
  rfl

theorem bits_length (v : VDesc) (ix : IndexTable) (o n : Nat) : (v.bits ix o n).length = 8 * n := by
  unfold VDesc.bits
  rw [List.length_map, List.length_range]

theorem viewBitsHaveTheirBaseBits : ViewBitsHaveTheirBaseBits := by
  intro v
  refine ⟨fun h => ⟨prod_map_range v.rank v.dim, extent_bits h⟩, fun h => ?_, fun h e => ?_,
    fun e i hc => ⟨fun h => element_stride h hc, fun size h hp hs => element_perm h hp hs hc⟩,
    fun h c rw tc tr x hc hr htc htr => element_tile h x hc hr htc htr, fun b h => baseBit_past h,
    fun hk _ e t n ht he hn => baseBit_element hk ht he hn, fun hk q p j hp hj hin => baseBit_plane hk hp hj hin,
    fun ix i y j hy hj => gatherBit_row v ix hy hj, fun x => rfl, rfl,
    fun ix o n => ⟨bits_length v ix o n, fun j hj => bits_getElem v ix o n hj⟩⟩
  · unfold VDesc.extent
    rw [if_pos h]
  · unfold VDesc.element
    rw [h]
    rfl

end Sys2Proof.Machine
end

section
/-! PROOF. What a fill finds of a descriptor (R76 to R78, R80, R100). -/

namespace Sys2Proof.Machine

/-! ## Fields (R76) -/

theorem descBits_eq_fieldOf {x o hi lo a w : Nat} (ha : 8 * o + lo = a) (hw : hi + 1 - lo = w) : descBits x o hi lo = fieldOf x a w := by
  subst ha hw
  rfl

theorem fieldOf_one_beq (x i : Nat) : (fieldOf x i 1 == 1) = x.testBit i := by
  rw [fieldOf_one]
  cases x.testBit i <;> rfl

theorem signed32_eq_toInt {n : Nat} (h : n < 2 ^ 32) : signed32 n = (BitVec.ofNat 32 n).toInt := by
  unfold signed32
  rw [BitVec.toInt_eq_toNat_cond, BitVec.toNat_ofNat, Nat.mod_eq_of_lt h]
  split <;> split <;> omega

theorem fieldOf_lt (x lo w : Nat) : fieldOf x lo w < 2 ^ w := Nat.mod_lt _ (Nat.two_pow_pos w)

/-- An entry of a table of four. -/
theorem getD_map_range {α : Type} (f : Nat → α) {n k : Nat} (hk : k < n) (d : α) : ((List.range n).map f).getD k d = f k := by
  rw [List.getD_eq_getElem?_getD, List.getElem?_map, List.getElem?_range hk]
  rfl

theorem ofNat_fields (x : Nat) : (VDesc.ofNat x).v = x.testBit 24 ∧ (VDesc.ofNat x).gchk = x.testBit 25
    ∧ (VDesc.ofNat x).wr = x.testBit 14 ∧ (VDesc.ofNat x).kind = descBits x 0 3 0 ∧ (VDesc.ofNat x).rank = descBits x 0 7 4
    ∧ (VDesc.ofNat x).elem = descBits x 0 13 8 ∧ (VDesc.ofNat x).base = descBits x 8 57 0
    ∧ (∀ k, k < 4 → (VDesc.ofNat x).sel k = descBits x 0 (17 + 2 * k) (16 + 2 * k)
      ∧ (VDesc.ofNat x).dim k = descBits x (0x10 + 4 * k) 31 0
      ∧ (VDesc.ofNat x).stride k = (BitVec.ofNat 32 (descBits x (0x20 + 4 * k) 31 0)).toInt)
    ∧ (VDesc.ofNat x).t0 = descBits x 0x30 15 0 ∧ (VDesc.ofNat x).t1 = descBits x 0x30 31 16
    ∧ (VDesc.ofNat x).rowb = descBits x 0x34 19 0
    ∧ (VDesc.ofNat x).idxoff = descBits x 0x38 34 0 ∧ (VDesc.ofNat x).icnt = descBits x 0x38 63 40 := by
  refine ⟨fieldOf_one_beq x 24, fieldOf_one_beq x 25, fieldOf_one_beq x 14, rfl, rfl, rfl, rfl, fun k hk => ⟨?_, ?_, ?_⟩,
    (descBits_eq_fieldOf (a := 384) (w := 16) rfl rfl).symm, (descBits_eq_fieldOf (a := 400) (w := 16) rfl rfl).symm,
    (descBits_eq_fieldOf (a := 416) (w := 20) rfl rfl).symm, (descBits_eq_fieldOf (a := 448) (w := 35) rfl rfl).symm,
    (descBits_eq_fieldOf (a := 488) (w := 24) rfl rfl).symm⟩
  · rw [descBits_eq_fieldOf (a := 16 + 2 * k) (w := 2) (by omega) (by omega)]
    exact getD_map_range (fun k => fieldOf x (16 + 2 * k) 2) hk 0
  · rw [descBits_eq_fieldOf (a := 128 + 32 * k) (w := 32) (by omega) (by omega)]
    exact getD_map_range (fun k => fieldOf x (128 + 32 * k) 32) hk 0
  · rw [descBits_eq_fieldOf (a := 256 + 32 * k) (w := 32) (by omega) (by omega), ← signed32_eq_toInt (fieldOf_lt x _ 32)]
    exact getD_map_range (fun k => signed32 (fieldOf x (256 + 32 * k) 32)) hk 0

/-! ## Shape and range (R78, R80) -/

/-- Selectors that reach every dimension are a permutation. -/
theorem permutes_iff (v : VDesc) :
    Permutes v ↔ ∀ j, j < v.rank → ∃ k, k < v.rank ∧ v.sel k = j := by
  refine ⟨fun h => h.2, fun h => ⟨fun k hk => ?_, h⟩⟩
  have hsub : Finset.range v.rank ⊆ (Finset.range v.rank).image v.sel := by
    intro j hj
    obtain ⟨k, hk, rfl⟩ := h j (Finset.mem_range.1 hj)
    exact Finset.mem_image_of_mem _ (Finset.mem_range.2 hk)
  have heq := Finset.eq_of_subset_of_card_le hsub Finset.card_image_le
  exact Finset.mem_range.1 (heq ▸ Finset.mem_image_of_mem _ (Finset.mem_range.2 hk))

theorem elemWidth_pos {e w : Nat} (h : elemWidth e = some w) : 0 < w := by
  unfold elemWidth at h
  split at h
  all_goals (cases h; try decide)

theorem shapeOk_iff (v : VDesc) (n : Nat) : v.shapeOk n = true ↔ LegalShape v n := by
  have hperm : (v.kind = 1 → Permutes v) ↔ (v.kind = 1 → ∀ j, j < v.rank → ∃ k, k < v.rank ∧ v.sel k = j) :=
    imp_congr_right fun _ => permutes_iff v
  have hbit (i : Nat) : v.base.testBit i = true ↔ fieldOf v.base i 1 = 1 := by rw [← fieldOf_one_beq, beq_iff_eq]
  have hclear (i : Nat) : v.base.testBit i = false ↔ fieldOf v.base i 1 = 0 := by
    rw [fieldOf_one]
    cases v.base.testBit i <;> simp
  have hset (i : Nat) : ¬ fieldOf v.base i 1 = 0 ↔ fieldOf v.base i 1 = 1 := by
    rw [fieldOf_one]
    cases v.base.testBit i <;> simp
  unfold VDesc.shapeOk LegalShape
  rw [hperm]
  simp only [Bool.and_eq_true, decide_eq_true_eq, Bool.or_eq_true, bne_iff_ne, ne_eq, List.all_eq_true, List.mem_range,
    List.any_eq_true, beq_iff_eq, Bool.not_eq_true', Bool.and_eq_false_iff, beq_eq_false_iff_ne, hbit, hclear,
    Nat.dvd_iff_mod_eq_zero, imp_iff_not_or, hset, Nat.not_le, and_assoc]
  rfl

/-- The base range as the model takes it is the one of R80. -/
theorem baseRange_iff (v : VDesc) (lo hi : Int) : BaseRange v lo hi ↔ (lo, hi) = v.range := by
  have hdiv (x : Int) : x.fdiv 8 = x / 8 := Int.fdiv_eq_ediv_of_nonneg x (by decide)
  unfold BaseRange VDesc.range VDesc.isGather
  by_cases h3 : v.kind = 3
  · simp [h3, hdiv, sum_map_range]
  · by_cases h5 : v.kind = 5
    · simp [h5]
    · simp [h3, h5]

/-- The home range of BASE's die (R78). -/
theorem homeOk_iff (v : VDesc) : v.homeOk = true ↔ WithinHome v := by
  have hdiv (x : Int) : x.fdiv (2 ^ 37) = x / 2 ^ 37 := Int.fdiv_eq_ediv_of_nonneg x (by decide)
  obtain ⟨⟨lo, hi⟩, hr⟩ : ∃ r, v.range = r := ⟨_, rfl⟩
  have huniq : WithinHome v ↔ (v.base : Int) / 2 ^ 37 * 2 ^ 37 ≤ lo ∧ hi < ((v.base : Int) / 2 ^ 37 + 1) * 2 ^ 37
      ∧ lo < ((v.base : Int) / 2 ^ 37 + 1) * 2 ^ 37 ∧ (v.base : Int) / 2 ^ 37 * 2 ^ 37 ≤ hi
      ∧ (v.kind = 5 → 4 * v.idxoff + 4 * v.icnt ≤ 2 ^ 37) := by
    unfold WithinHome
    simp only [baseRange_iff, hr, Prod.mk.injEq]
    constructor
    · rintro ⟨_, _, ⟨rfl, rfl⟩, h⟩
      exact h
    · exact fun h => ⟨lo, hi, ⟨rfl, rfl⟩, h⟩
  have hgather : (v.isGather = false ∨ 4 * v.idxoff + 4 * v.icnt ≤ 2 ^ 37)
      ↔ (v.kind = 5 → 4 * v.idxoff + 4 * v.icnt ≤ 2 ^ 37) := by
    unfold VDesc.isGather
    rw [beq_eq_false_iff_ne, imp_iff_not_or]
  rw [huniq]
  unfold VDesc.homeOk
  rw [hr]
  simp only [hdiv, Bool.and_eq_true, decide_eq_true_eq, beq_iff_eq, Bool.or_eq_true, Bool.not_eq_true', hgather]
  constructor
  · rintro ⟨⟨⟨h0, h1⟩, h2⟩, h3⟩
    exact ⟨by omega, by omega, by omega, by omega, h3⟩
  · rintro ⟨h0, h1, h2, h3, h4⟩
    exact ⟨⟨⟨by omega, by omega⟩, by omega⟩, h4⟩

/-! ## What a fill finds (R78, R98, R100) -/

theorem outcome_invalid (s : State) {v : VDesc} (h : v.v = false) : v.outcome s = .illegal 1 := by
  unfold VDesc.outcome
  rw [h]
  rfl

theorem outcome_misshapen {s : State} {v : VDesc} (hv : v.v = true) (h : ¬ LegalShape v s.devnum) : v.outcome s = .illegal 2 := by
  rw [← shapeOk_iff, Bool.not_eq_true] at h
  unfold VDesc.outcome
  rw [hv, h]
  rfl

theorem outcome_astray {s : State} {v : VDesc} (hv : v.v = true) (hs : LegalShape v s.devnum) (h : ¬ WithinHome v) :
    v.outcome s = .illegal 5 := by
  rw [← shapeOk_iff] at hs
  rw [← homeOk_iff, Bool.not_eq_true] at h
  unfold VDesc.outcome
  rw [hv, hs, h]
  rfl

/-- A well-formed descriptor is tolerant if a tolerant frame of its home die lies in its ranges, and legal otherwise. -/
theorem outcome_wellFormed {s : State} {v : VDesc} (hv : v.v = true) (hs : LegalShape v s.devnum) (h : WithinHome v) :
    v.outcome s = if v.base.testBit 46 = false ∧ (s.die (homeDie v.base)).tolMap.any v.frames = true then .tolerantD else .legal := by
  rw [← shapeOk_iff] at hs
  rw [← homeOk_iff] at h
  have hbit : (fieldOf v.base 46 1 == 0) = !v.base.testBit 46 := by
    rw [fieldOf_one]
    cases v.base.testBit 46 <;> rfl
  unfold VDesc.outcome
  rw [hv, hs, h, hbit]
  simp

/-- A frame in the base range, or in the index list of a gathered view. -/
theorem frames_of_reached {v : VDesc} {lo hi : Int} {f : Nat} (hr : BaseRange v lo hi)
    (h : lo % 2 ^ 37 / 2 ^ 16 ≤ (f : Int) ∧ (f : Int) ≤ hi % 2 ^ 37 / 2 ^ 16
      ∨ v.kind = 5 ∧ 4 * v.idxoff / 2 ^ 16 ≤ f ∧ f ≤ (4 * v.idxoff + 4 * v.icnt - 1) / 2 ^ 16) : v.frames f = true := by
  have hdiv (x : Int) : x.fdiv 65536 = x / 2 ^ 16 := Int.fdiv_eq_ediv_of_nonneg x (by decide)
  unfold VDesc.frames VDesc.isGather
  rw [← (baseRange_iff v lo hi).1 hr]
  simp only [Bool.or_eq_true, Bool.and_eq_true, decide_eq_true_eq, beq_iff_eq, hdiv]
  rcases h with h | ⟨hk, h1, h2⟩
  · exact .inl h
  · exact .inr ⟨⟨hk, h1⟩, h2⟩

theorem unread_tornViews : Unread State.tornViews := ⟨fun _ _ _ _ _ _ _ _ _ _ _ => rfl, fun _ _ _ => rfl⟩

theorem fillView_untorn {s w : State} {n : Nat} {bs : List Byte} {p : Bool} (ht : s.tornViews.contains n = false)
    (h : bulkBytes s 0 (0x1FB7FE0000 + 64 * n) 64 = (bs, p, w)) :
    fillView s n = (⟨n, VDesc.ofNat (leNat bs), if p then .illegal 2 else (VDesc.ofNat (leNat bs)).outcome w⟩, w) := by
  have hw : w.tornViews = s.tornViews := by
    have := unread_tornViews.bulkBytes (s := s) rfl 0 (0x1FB7FE0000 + 64 * n) 64
    rwa [h] at this
  have hw' : w.tornViews.contains n = false := by rw [hw, ht]
  unfold fillView
  rw [show DESCBASE = 0x1FB7FE0000 from rfl, h]
  simp only [hw', Bool.false_eq_true, if_false]

theorem descriptorsAreChecked : DescriptorsAreChecked := by
  refine ⟨by decide, fun x v hv => hv ▸ ofNat_fields x,
    fun s v _ => ⟨outcome_invalid s, fun hv => ⟨outcome_misshapen hv, fun hs => ⟨outcome_astray hv hs, fun hw => ?_⟩⟩⟩,
    fun s v lo hi f hv hs hw hr hb hf hin => ?_, fun s n bs p w ht h => fillView_untorn ht h⟩
  · rw [outcome_wellFormed hv hs hw]
    split
    next h =>
      refine .inr ⟨rfl, h.1, fun hnil => ?_⟩
      rw [hnil] at h
      exact absurd h.2 (by simp)
    next => exact .inl rfl
  · rw [outcome_wellFormed hv hs hw, if_pos ⟨hb, List.any_eq_true.2 ⟨f, hf, frames_of_reached hr hin⟩⟩]

end Sys2Proof.Machine
end

section
/-! PROOF. Loads and stores through views (R79, R81, R90, R91). -/

namespace Sys2Proof.Machine

/-! ## The write that view bits make (R90) -/

/-- The bit of a byte made from its eight bits. -/
theorem byteOfBits_getLsbD (b : Nat → Bool) {j : Nat} (hj : j < 8) : (byteOfBits b).getLsbD j = b j := by
  have h (n : Nat) : ((List.range n).foldl (fun (x : Byte) i => if b i then x ||| (1#8 <<< i) else x) 0#8).getLsbD j
      = (decide (j < n) && b j) := by
    induction n with
    | zero => simp
    | succ n ih =>
      rw [List.range_succ, List.foldl_append, List.foldl_cons, List.foldl_nil]
      by_cases hjn : j = n
      · subst hjn
        cases hb : b j with
        | false => rw [if_neg Bool.false_ne_true, ih, decide_eq_false (Nat.lt_irrefl j)]; simp
        | true => simp [hj]
      · have hlt : decide (j < n + 1) = decide (j < n) := decide_eq_decide.2 (by omega)
        have hone : (1#8 <<< n).getLsbD j = false := by
          rw [BitVec.getLsbD_shiftLeft, BitVec.getLsbD_one]
          simp; omega
        rw [hlt, ← ih]
        split
        · rw [BitVec.getLsbD_or, hone, Bool.or_false]
        · rfl
  rw [byteOfBits, h 8, decide_eq_true hj, Bool.true_and]

/-- The base bits that view bits name, in their order, with their values. -/
def namedBits (bits : List (Option Nat)) (val : Nat → Bool) : List (Nat × Bool) :=
  bits.zipIdx.filterMap fun x => x.1.map fun b => (b, val x.2)

theorem namedBits_append (bits : List (Option Nat)) (b : Option Nat) (val : Nat → Bool) :
    namedBits (bits ++ [b]) val = namedBits bits val ++ (b.map fun k => (k, val bits.length)).toList := by
  unfold namedBits
  rw [List.zipIdx_append, List.filterMap_append]
  cases b <;> simp

theorem mem_namedBits {bits : List (Option Nat)} {val : Nat → Bool} {k : Nat} :
    k ∈ (namedBits bits val).map Prod.fst ↔ ∃ p : Nat, bits[p]? = some (some k) := by
  unfold namedBits
  simp only [List.mem_map, List.mem_filterMap, Prod.exists, Option.map_eq_some_iff, Prod.mk.injEq,
    List.mk_mem_zipIdx_iff_getElem?]
  constructor
  · rintro ⟨_, _, ⟨b, p, hp, _, rfl, rfl, rfl⟩, rfl⟩
    exact ⟨p, hp⟩
  · rintro ⟨p, hp⟩
    exact ⟨k, val p, ⟨some k, p, hp, k, rfl, rfl, rfl⟩, rfl⟩

/-- The value of the highest view bit that names a base bit comes last. -/
theorem namedBits_last {bits : List (Option Nat)} (val : Nat → Bool) {k : Nat} : ∀ p : Nat, bits[p]? = some (some k) →
    (∀ q : Nat, p < q → bits[q]? ≠ some (some k)) →
    ((namedBits bits val).filter fun x => x.1 == k).getLast? = some (k, val p) := by
  induction bits using List.reverseRecOn with
  | nil => exact fun p hp => absurd hp (by simp)
  | append_singleton bits b ih =>
    intro p hp hq
    have hend : (bits ++ [b])[bits.length]? = some b := by simp
    rw [namedBits_append, List.filter_append]
    by_cases hb : b = some k
    · have hpl : p = bits.length := by
        have hle : p < (bits ++ [b]).length := (List.getElem?_eq_some_iff.1 hp).1
        rw [List.length_append, List.length_singleton] at hle
        rcases Nat.lt_or_ge p bits.length with h | h
        · exact absurd (hend.trans (by rw [hb])) (hq _ h)
        · omega
      subst hpl hb
      simp
    · have hlt : p < bits.length := by
        have hle : p < (bits ++ [b]).length := (List.getElem?_eq_some_iff.1 hp).1
        rw [List.length_append, List.length_singleton] at hle
        rcases Nat.lt_or_ge p bits.length with h | h
        · exact h
        · obtain rfl : p = bits.length := by omega
          rw [hend, Option.some.injEq] at hp
          exact absurd hp hb
      have hnone : ((b.map fun k => (k, val bits.length)).toList.filter fun x => x.1 == k) = [] := by
        cases b with
        | none => rfl
        | some m =>
          have hm : (m == k) = false := beq_eq_false_iff_ne.2 fun h => hb (by rw [h])
          simp [hm]
      rw [hnone, List.append_nil]
      rw [List.getElem?_append_left hlt] at hp
      refine ih p hp fun q hpq h => hq q hpq ?_
      rw [List.getElem?_append_left (List.getElem?_eq_some_iff.1 h).1, h]

/-- The value that bit `j` of base byte `a` takes, if a view bit names it. -/
def lastNamed (bits : List (Option Nat)) (val : Nat → Bool) (a j : Nat) : Option Bool :=
  (((namedBits bits val).filter fun x => x.1 / 8 == a).filter fun x => x.1 % 8 == j).getLast?.map (·.2)

theorem bitsWrite_eq (bits : List (Option Nat)) (val : Nat → Bool) :
    bitsWrite bits val = ((namedBits bits val).map fun x => x.1 / 8).dedup.map fun a =>
      (a, byteOfBits fun j => (lastNamed bits val a j).getD false, byteOfBits fun j => (lastNamed bits val a j).isSome) := rfl

theorem lastNamed_eq (bits : List (Option Nat)) (val : Nat → Bool) (a : Nat) {j : Nat} (hj : j < 8) :
    lastNamed bits val a j = ((namedBits bits val).filter fun x => x.1 == 8 * a + j).getLast?.map (·.2) := by
  unfold lastNamed
  rw [List.filter_filter]
  congr 3
  funext x
  rw [Bool.eq_iff_iff, Bool.and_eq_true, beq_iff_eq, beq_iff_eq, beq_iff_eq]
  omega

theorem lastNamed_isSome (bits : List (Option Nat)) (val : Nat → Bool) (a : Nat) {j : Nat} (hj : j < 8) :
    (lastNamed bits val a j).isSome = true ↔ ∃ p : Nat, bits[p]? = some (some (8 * a + j)) := by
  rw [lastNamed_eq bits val a hj, Option.isSome_map, List.getLast?_isSome, ne_eq, List.filter_eq_nil_iff, ← mem_namedBits (val := val),
    List.mem_map]
  simp only [beq_iff_eq, not_forall, not_not, exists_prop]

theorem bitsWrite_writes (bits : List (Option Nat)) (val : Nat → Bool) : ((bitsWrite bits val).map Prod.fst).Nodup
    ∧ (∀ p b : Nat, bits[p]? = some (some b) → b / 8 ∈ (bitsWrite bits val).map Prod.fst)
    ∧ ∀ a x en, (a, x, en) ∈ bitsWrite bits val → ∀ j, j < 8 →
      (en.getLsbD j = true ↔ ∃ p : Nat, bits[p]? = some (some (8 * a + j)))
      ∧ ∀ p : Nat, bits[p]? = some (some (8 * a + j)) → (∀ q : Nat, p < q → bits[q]? ≠ some (some (8 * a + j))) →
        x.getLsbD j = val p := by
  have hkeys : (bitsWrite bits val).map Prod.fst = ((namedBits bits val).map fun x => x.1 / 8).dedup := by
    rw [bitsWrite_eq, List.map_map]
    exact List.map_id _
  rw [hkeys]
  refine ⟨List.nodup_dedup _, fun p b hp => ?_, fun a x en hm j hj => ?_⟩
  · obtain ⟨x, hx, rfl⟩ := List.mem_map.1 (mem_namedBits (val := val).2 ⟨p, hp⟩)
    exact List.mem_dedup.2 (List.mem_map_of_mem hx)
  · rw [bitsWrite_eq, List.mem_map] at hm
    obtain ⟨_, _, he⟩ := hm
    obtain ⟨rfl, rfl, rfl⟩ := he
    refine ⟨?_, fun p hp hq => ?_⟩
    · rw [byteOfBits_getLsbD _ hj, lastNamed_isSome bits val _ hj]
    · rw [byteOfBits_getLsbD _ hj, lastNamed_eq bits val _ hj, namedBits_last val p hp hq]
      rfl

/-! ## Loads and stores of lanes (R79, R91) -/

/-- The number that a list of bits makes, least significant first. -/
theorem testBit_foldr (f : Option Nat → Nat) (hf : ∀ b, f b ≤ 1) (bits : List (Option Nat)) : ∀ j b, bits[j]? = some b →
    (bits.foldr (fun b acc => 2 * acc + f b) 0).testBit j = decide (f b = 1) := by
  induction bits with
  | nil => exact fun j b h => absurd h (by simp)
  | cons c bits ih =>
    intro j b h
    have hc := hf c
    rw [List.foldr_cons]
    cases j with
    | zero =>
      rw [List.getElem?_cons_zero, Option.some.injEq] at h
      subst h
      rw [Nat.testBit_zero]
      exact decide_eq_decide.2 (by omega)
    | succ j =>
      rw [Nat.testBit_succ, show (2 * List.foldr (fun b acc => 2 * acc + f b) 0 bits + f c) / 2
        = List.foldr (fun b acc => 2 * acc + f b) 0 bits by omega]
      exact ih j b h

theorem value_view {t : Tgt} {sub : Bool} {bits : List (Option Nat)} (h : t.loc = .view sub bits) (tbl : WordTable) {j : Nat}
    (hj : j < bits.length) : (t.value tbl).testBit j = (bits[j]?).join.any fun k => (tbl.val (k / 32)).getLsbD (k % 32) := by
  have hb := List.getElem?_eq_getElem hj
  unfold Tgt.value
  rw [h]
  simp only
  rw [testBit_foldr _ (fun b => by cases b <;> simp; split <;> simp) bits j _ hb, hb]
  cases bits[j] with
  | none => rfl
  | some k => cases hk : (tbl.val (k / 32)).getLsbD (k % 32) <;> simp [hk]

/-! ## STBM through a view of whole bytes (R91) -/

/-- A view of four bytes, writable. -/
def fourBytes : VEntry :=
  ⟨0, { v := true, gchk := false, wr := true, perm := [0, 1, 2, 3], elem := 0, rank := 1, kind := 0, base := 0, dims := [4, 1, 1, 1]
        strides := [0, 0, 0, 0], t0 := 0, t1 := 0, rowb := 0, icnt := 0, idxoff := 0 }, .legal⟩

/-- STBM of bit 0 of a word through that view. -/
def stbmThroughView : LaneStore := ⟨0, (Pre.through fourBytes 0 ⟨.plain 0, 4, 0, false, false, false⟩).tgt [], 1, 1⟩

/-- The model gives the write of STBM through a view of whole bytes the path of plain stores. -/
theorem stbmThroughView_plain : (StorePath.plain, [(0, 1#8, 1#8)]) ∈ stbmThroughView.parts true := by decide

/-- Refutes O48, of whose other parts `ViewBitsHaveTheirBaseBits` and `DescriptorsAreChecked` are proved above: whether a store through
a view carries its enables home is asked of the view alone, so that STBM through a view of whole bytes goes as a plain store (R91). -/
theorem not_viewCachesEnginesAndHostAccesses : ¬ Obligations.ViewCachesEnginesAndHostAccesses := by
  unfold Obligations.ViewCachesEnginesAndHostAccesses
  rintro ⟨-, -, -, ⟨-, -, -, hparts⟩, -⟩
  exact hparts stbmThroughView true (.inr (.inr rfl)) _ stbmThroughView_plain rfl

end Sys2Proof.Machine
end

section
/-! PROOF. Writes at the homes (R43 to R51, R62, R86, R91): what the place of a sector depends on, and the bytes that the homes hold
after a write. -/

namespace Sys2Proof.Machine

/-! ## The place of a sector (R43 to R48, R51, R60) -/

/-- Two states in which each die and each stack maps addresses alike. -/
structure SamePlaces (s t : State) : Prop where
  dies : ∀ d, (t.die d).up = (s.die d).up ∧ (t.die d).single = (s.die d).single
  dead : t.deadAgents = s.deadAgents
  parked : ∀ n, (t.stk n).parked = (s.stk n).parked
  shapes : ∀ o, 0x1800 ≤ o → t.mreg o = s.mreg o

theorem SamePlaces.of_eq {s t : State} (dies : t.dies = s.dies) (dead : t.deadAgents = s.deadAgents) (stks : t.stks = s.stks)
    (mregs : t.mregs = s.mregs) : SamePlaces s t :=
  ⟨fun _ => by simp only [State.die, dies, and_self], dead, fun _ => by simp only [State.stk, stks],
    fun _ _ => by simp only [State.mreg, mregs]⟩

theorem SamePlaces.trans {s t u : State} (h : SamePlaces s t) (k : SamePlaces t u) : SamePlaces s u :=
  ⟨fun d => ⟨(k.dies d).1.trans (h.dies d).1, (k.dies d).2.trans (h.dies d).2⟩, k.dead.trans h.dead,
    fun n => (k.parked n).trans (h.parked n), fun o ho => (k.shapes o ho).trans (h.shapes o ho)⟩

theorem SamePlaces.placeRaw {s t : State} (h : SamePlaces s t) (d a : Nat) : placeRaw t d a = placeRaw s d a := by
  have base (d i : Nat) : 0x1800 ≤ SHBASE d i := by unfold SHBASE; omega
  have cfg (d i : Nat) : 0x1800 ≤ SHCFG d i := by unfold SHCFG; omega
  unfold Machine.placeRaw mapShaped shapeAt State.dieDead State.field
  simp only [h.dies, h.dead, h.shapes _ (base _ _), h.shapes _ (cfg _ _)]

theorem SamePlaces.place {s t : State} (h : SamePlaces s t) (a : Nat) : place t a = place s a := by
  have spots (x : Spot) : redirect t x = redirect s x := by
    unfold redirect parkSpot
    simp only [h.parked, h.placeRaw]
  unfold Machine.place
  simp only [h.placeRaw, funext spots]

/-- A field of an address above its place in the sector. -/
theorem fieldOf_sector {a b : Nat} (h : a / 32 = b / 32) {lo : Nat} (hlo : 5 ≤ lo) (w : Nat) : fieldOf a lo w = fieldOf b lo w := by
  have quot (x : Nat) : x / 2 ^ lo = x / 32 / 2 ^ (lo - 5) := by
    rw [Nat.div_div_eq_div_mul, show (32 : Nat) = 2 ^ 5 from rfl, ← Nat.pow_add, Nat.add_sub_cancel' hlo]
  unfold fieldOf
  rw [quot a, quot b, h]

theorem chanGroup_sector {a b : Nat} (h : a / 32 = b / 32) : chanGroup a = chanGroup b := by
  unfold chanGroup
  rw [fieldOf_sector h (by decide : 5 ≤ 7), fieldOf_sector h (by decide : 5 ≤ 17), fieldOf_sector h (by decide : 5 ≤ 27)]

theorem map46_sector {a b : Nat} (h : a / 32 = b / 32) (d : Nat) : map46 d a = map46 d b := by
  simp only [map46, chanGroup_sector h, fieldOf_sector h (by decide : 5 ≤ 5), fieldOf_sector h (by decide : 5 ≤ 17),
    fieldOf_sector h (by decide : 5 ≤ 19), fieldOf_sector h (by decide : 5 ≤ 21), fieldOf_sector h (by decide : 5 ≤ 12)]

theorem map47_sector {a b : Nat} (h : a / 32 = b / 32) (stack : Nat) : map47 stack a = map47 stack b := by
  have low : a < 0x0F80000000 ↔ b < 0x0F80000000 := by omega
  have high : 0x1F80000000 ≤ a ↔ 0x1F80000000 ≤ b := by omega
  have moved : (a - 0x1000000000) / 32 = (b - 0x1000000000) / 32 := by omega
  unfold map47
  extract_lets place
  rw [show place a = place b by simp only [place, map46_sector h, chanGroup_sector h],
    show place (a - 0x1000000000) = place (b - 0x1000000000) by simp only [place, map46_sector moved, chanGroup_sector moved]]
  simp only [low, high]

theorem mapShaped_sector {a b : Nat} (h : a / 32 = b / 32) (s : State) (d : Nat) : mapShaped s d a = mapShaped s d b := by
  have covers (f g : Nat) : (f * 2 ^ 21 ≤ a ∧ a < f * 2 ^ 21 + g * 2 ^ 21) ↔ (f * 2 ^ 21 ≤ b ∧ b < f * 2 ^ 21 + g * 2 ^ 21) := by omega
  have shape : shapeAt s d a = shapeAt s d b := by simp only [shapeAt, covers]
  have rows {r : Nat} (hr : 21 ≤ r) (w : Nat) : a / 2 ^ r % 2 ^ w = b / 2 ^ r % 2 ^ w := fieldOf_sector h (by omega) w
  unfold mapShaped
  rw [shape, map46_sector h]
  split
  · dsimp only
    split
    · rename_i hr
      rw [rows hr]
    · rfl
  · rfl

/-- The bytes of a sector lie in one place. -/
theorem place_sector (s : State) {a b : Nat} (h : a / 32 = b / 32) : place s a = place s b := by
  have inside : 2 ^ 39 ≤ a ↔ 2 ^ 39 ≤ b := by omega
  have die : homeDie a = homeDie b := by unfold homeDie; omega
  have offset : dieOffset a / 32 = dieOffset b / 32 := by unfold dieOffset; omega
  have raw : placeRaw s (homeDie a) (dieOffset a) = placeRaw s (homeDie b) (dieOffset b) := by
    unfold placeRaw
    simp only [die, map47_sector offset, mapShaped_sector offset]
  unfold place
  simp only [inside, raw]

/-! ## Bytes at the homes -/

/-- What an enabled write leaves of a byte: its entry there, if it has one, over the old value. -/
def writtenByte (e : Option (Byte × Byte)) (old : Byte) : Byte :=
  match e with
  | some (v, m) => (old &&& ~~~m) ||| (v &&& m)
  | none => old

@[simp] theorem writtenByte_none (old : Byte) : writtenByte none old = old := rfl

theorem writtenByte_full (v old : Byte) : writtenByte (some (v, fullMask)) old = v := by
  show (old &&& ~~~fullMask) ||| (v &&& fullMask) = v
  rw [show fullMask = BitVec.allOnes 8 from rfl, BitVec.not_allOnes, BitVec.and_zero, BitVec.and_allOnes, BitVec.zero_or]

theorem look_eq_none {α : Type} {k : Nat} {m : List (Nat × α)} (h : k ∉ m.map Prod.fst) : look k m = none := by
  induction m with
  | nil => rfl
  | cons e r ih =>
    rw [List.map_cons, List.mem_cons, not_or] at h
    obtain ⟨j, v⟩ := e
    rw [look, if_neg (Ne.symm h.1)]
    exact ih h.2

theorem look_append {α : Type} (k : Nat) (m n : List (Nat × α)) : look k (m ++ n) = (look k m).or (look k n) := by
  induction m with
  | nil => rfl
  | cons e r ih =>
    rw [List.cons_append, look, look, ih]
    split <;> rfl

theorem look_mem {α : Type} {k : Nat} {v : α} {m : List (Nat × α)} (h : look k m = some v) : (k, v) ∈ m := by
  induction m with
  | nil => cases h
  | cons e r ih =>
    obtain ⟨j, w⟩ := e
    rw [look] at h
    split at h
    · cases h
      subst_vars
      exact List.mem_cons_self
    · exact List.mem_cons_of_mem _ (ih h)

theorem look_of_mem {α : Type} {k : Nat} {v : α} {m : List (Nat × α)} (nodup : (m.map Prod.fst).Nodup) (h : (k, v) ∈ m) :
    look k m = some v := by
  induction m with
  | nil => cases h
  | cons e r ih =>
    rw [List.map_cons, List.nodup_cons] at nodup
    rcases List.mem_cons.1 h with rfl | h
    · rw [look, if_pos rfl]
    · have other : e.1 ≠ k := fun he => nodup.1 (he ▸ List.mem_map_of_mem (f := Prod.fst) h)
      rw [look, if_neg other, ih nodup.2 h]

theorem SamePlaces.homeByte {s t : State} (h : SamePlaces s t) (dram : t.dram = s.dram) {a : Nat} (l2 : look a t.l2 = look a s.l2) :
    homeByte t a = homeByte s a := by
  unfold Machine.homeByte
  rw [l2, h.place, dram]

theorem homeByte_putL2_self (s : State) (a : Nat) (b : Byte) : homeByte { s with l2 := put a b s.l2 } a = b := by
  unfold homeByte
  rw [look_put_self]

theorem homeByte_putL2_ne (s : State) {a k : Nat} (h : a ≠ k) (b : Byte) :
    homeByte { s with l2 := put k b s.l2 } a = homeByte s a :=
  SamePlaces.homeByte (s := s) (t := { s with l2 := put k b s.l2 }) (.of_eq rfl rfl rfl rfl) rfl (look_put_ne h b s.l2)

theorem put_length_le {α : Type} (k : Nat) (v : α) (m : List (Nat × α)) : (put k v m).length ≤ m.length + 1 := by
  induction m with
  | nil => exact Nat.le_refl _
  | cons e r ih =>
    obtain ⟨j, w⟩ := e
    rw [put]
    split
    · exact Nat.le_refl _
    · split <;> simp only [List.length_cons] <;> omega

/-! ## What changes below the cores -/

/-- Nothing changes but the memory below the L1s, with the Canopies, counters and what goes to the host; every address keeps its place. -/
structure MemoryOnly (s t : State) : Prop where
  same : { t with
    mregs := s.mregs, residues := s.residues, dram := s.dram, l2 := s.l2, stks := s.stks, dies := s.dies, tick := s.tick
    hostLines := s.hostLines, outbox := s.outbox, heard := s.heard, tornViews := s.tornViews } = s
  places : SamePlaces s t

theorem MemoryOnly.trans {s t u : State} (h : MemoryOnly s t) (k : MemoryOnly t u) : MemoryOnly s u := by
  have later := h.same
  rw [← k.same] at later
  exact ⟨later, h.places.trans k.places⟩

theorem MemoryOnly.registrants {s t : State} (h : MemoryOnly s t) : t.registrants = s.registrants := (congrArg State.registrants h.same :)
theorem MemoryOnly.teams {s t : State} (h : MemoryOnly s t) : t.teams = s.teams := (congrArg State.teams h.same :)
theorem MemoryOnly.cores {s t : State} (h : MemoryOnly s t) : t.cores = s.cores := (congrArg State.cores h.same :)
theorem MemoryOnly.poison {s t : State} (h : MemoryOnly s t) : t.poison = s.poison := (congrArg State.poison h.same :)
theorem MemoryOnly.l2held {s t : State} (h : MemoryOnly s t) : t.l2held = s.l2held := (congrArg State.l2held h.same :)

/-- Writes of what no place of a sector depends on. -/
theorem MemoryOnly.update (s : State) dram l2 tick hostLines outbox heard tornViews : MemoryOnly s { s with
    dram := dram, l2 := l2, tick := tick, hostLines := hostLines, outbox := outbox, heard := heard, tornViews := tornViews } :=
  ⟨rfl, .of_eq rfl rfl rfl rfl⟩

/-- The same, and the homes and their L2s hold what they held. -/
structure SameHomes (s t : State) : Prop extends MemoryOnly s t where
  l2 : t.l2 = s.l2
  dram : t.dram = s.dram

theorem SameHomes.trans {s t u : State} (h : SameHomes s t) (k : SameHomes t u) : SameHomes s u :=
  ⟨h.toMemoryOnly.trans k.toMemoryOnly, k.l2.trans h.l2, k.dram.trans h.dram⟩

theorem SameHomes.homeByte {s t : State} (h : SameHomes s t) (a : Nat) : homeByte t a = homeByte s a := h.places.homeByte h.dram (by rw [h.l2])

theorem SameHomes.homePoisoned {s t : State} (h : SameHomes s t) (sec : Nat) : homePoisoned t sec = homePoisoned s sec := by
  unfold Machine.homePoisoned l2Whole State.isPoisoned
  rw [h.places.place, h.poison, h.l2held, h.l2]

theorem SameHomes.hear (s : State) (c : Nat) : SameHomes s (s.hear c) := ⟨.update .., rfl, rfl⟩

theorem SameHomes.backInvalidate (s : State) (lines : List Nat) : SameHomes s (backInvalidate s lines) := by
  obtain ⟨held, out, h⟩ : ∃ held out, Machine.backInvalidate s lines = { s with hostLines := held, outbox := out } := by
    unfold Machine.backInvalidate
    dsimp only
    split
    · exact ⟨s.hostLines, s.outbox, rfl⟩
    · refine List.foldlRecOn (motive := fun t : State => ∃ held out, t = { s with hostLines := held, outbox := out }) _ _
        ⟨_, _, rfl⟩ ?_
      rintro _ ⟨held, out, rfl⟩ l _
      exact ⟨_, _, rfl⟩
  rw [h]
  exact ⟨.update .., rfl, rfl⟩

theorem SameHomes.noteTorn (old new : State) (w : EnWrite) : SameHomes new (noteTorn old new w) := by
  obtain ⟨torn, h⟩ : ∃ torn, Machine.noteTorn old new w = { new with tornViews := torn } := by
    unfold Machine.noteTorn
    dsimp only
    split
    · exact ⟨new.tornViews, rfl⟩
    · refine List.foldlRecOn (motive := fun t : State => ∃ torn, t = { new with tornViews := torn }) _ _ ⟨_, rfl⟩ ?_
      rintro _ ⟨torn, rfl⟩ n _
      dsimp only
      split
      · exact ⟨_, rfl⟩
      · split <;> exact ⟨_, rfl⟩
  rw [h]
  exact ⟨.update .., rfl, rfl⟩

theorem SameHomes.updateCan (s : State) (c w : Nat) (v mask : Word) : SameHomes s (updateCan s c w v mask) := by
  unfold Machine.updateCan
  dsimp only
  split
  · exact ⟨.update .., rfl, rfl⟩
  · split
    · rename_i x _
      refine ⟨⟨rfl, fun d => ?_, rfl, fun _ => rfl, fun _ _ => rfl⟩, rfl, rfl⟩
      by_cases hd : d = coreDie c
      · by_cases there : d < s.dies.length
        · rw [← hd, setCan, State.die_modDie_self s there]
          exact ⟨rfl, rfl⟩
        · rw [← hd, setCan, State.modDie, State.setDie, List.set_eq_of_length_le (Nat.not_lt.1 there)]
          exact ⟨rfl, rfl⟩
      · rw [setCan, State.die_modDie_ne s hd]
        exact ⟨rfl, rfl⟩
    · exact ⟨.update .., rfl, rfl⟩

/-! ## Writes in the L2s (R181) -/

/-- What a write in the home L2s leaves. -/
structure L2Written (s t : State) (w : EnWrite) : Prop extends MemoryOnly s t where
  dram : t.dram = s.dram
  room : t.l2.length ≤ s.l2.length + w.length
  others : ∀ a, a ∉ w.map Prod.fst → look a t.l2 = look a s.l2
  bytes : ∀ a, homeByte t a = writtenByte (look a w) (homeByte s a)

theorem L2Written.nil (s : State) : L2Written s s [] := ⟨.update s .., rfl, Nat.le_refl _, fun _ _ => rfl, fun _ => rfl⟩

/-- Bytes put into the L2s one after another, with enables. -/
theorem L2Written.foldl {w : EnWrite} (nodup : (w.map Prod.fst).Nodup) (s : State) :
    L2Written s (w.foldl (fun s (x : Nat × Byte × Byte) =>
      { s with l2 := put x.1 ((homeByte s x.1 &&& ~~~x.2.2) ||| (x.2.1 &&& x.2.2)) s.l2 }) s) w := by
  induction w generalizing s with
  | nil => exact .nil s
  | cons x w ih =>
    rw [List.map_cons, List.nodup_cons] at nodup
    obtain ⟨k, v, e⟩ := x
    obtain ⟨b, hb⟩ : ∃ b, b = (homeByte s k &&& ~~~e) ||| (v &&& e) := ⟨_, rfl⟩
    rw [List.foldl_cons, ← hb]
    have rest := ih nodup.2 { s with l2 := put k b s.l2 }
    refine ⟨(MemoryOnly.update s ..).trans rest.toMemoryOnly, rest.dram, ?_, fun a ha => ?_, fun a => (rest.bytes a).trans ?_⟩
    · have := rest.room
      have := put_length_le k b s.l2
      simp only [List.length_cons] at *
      omega
    · rw [List.map_cons, List.mem_cons, not_or] at ha
      exact (rest.others a ha.2).trans (look_put_ne ha.1 _ _)
    · by_cases hak : a = k
      · rw [hak, look_eq_none nodup.1, homeByte_putL2_self, look, if_pos rfl, hb]
        rfl
      · rw [homeByte_putL2_ne s hak, look, if_neg (Ne.symm hak)]

/-- A write in the home L2 that needs no room there. -/
theorem L2Written.writeL2 {s : State} {sec : Nat} {w : EnWrite} (nodup : (w.map Prod.fst).Nodup)
    (room : (∃ a, a / 32 = sec ∧ l2HoldsByte s a = true) ∨ s.l2.length + s.l2held.length < l2Size) : L2Written s (writeL2 s sec w) w := by
  have kept : (if s.l2held.contains sec || s.l2.any (·.1 / 32 == sec) then s else roomL2 s (homeDie (32 * sec))) = s := by
    split
    · rfl
    · rename_i absent
      rcases room with ⟨a, rfl, held⟩ | free
      · refine absurd ?_ absent
        unfold l2HoldsByte at held
        rw [Bool.or_eq_true] at held ⊢
        refine held.imp id fun dirty => ?_
        obtain ⟨b, hb⟩ := Option.isSome_iff_exists.1 dirty
        exact List.any_eq_true.2 ⟨_, look_mem hb, beq_self_eq_true _⟩
      · unfold roomL2
        rw [if_pos free]
  unfold Machine.writeL2
  rw [kept]
  exact .foldl nodup s

/-! ## A sector at its controller (R50) -/

theorem MemoryOnly.count (s : State) {off : Nat} (h : off < 0x1800) (lo w n : Nat) : MemoryOnly s (s.count off lo w n) :=
  ⟨rfl, fun _ => ⟨rfl, rfl⟩, rfl, fun _ => rfl, fun _ ho => State.mreg_count_ne s (by omega) ..⟩

theorem MemoryOnly.countUnits (s : State) {off : Nat} (h : off < 0x1800) (lo w n : Nat) : MemoryOnly s (s.countUnits off lo w n) :=
  ⟨rfl, fun _ => ⟨rfl, rfl⟩, rfl, fun _ => rfl, fun _ ho => State.mreg_countUnits_ne s (by omega) ..⟩

theorem STK_lt {n r : Nat} (hn : n < 8) (hr : r < 0x80) : STK n r < 0x1800 := by
  unfold STK
  omega

theorem MemoryOnly.countBurst (s : State) {stack : Nat} (h : stack < 8) (lo : Nat) : MemoryOnly s (s.countBurst stack lo) := by
  have reads : STK stack 0x38 < 0x1800 := STK_lt h (by decide)
  have acts : STK stack 0x40 < 0x1800 := STK_lt h (by decide)
  unfold State.countBurst
  extract_lets u f opened conflicts v
  exact (((MemoryOnly.countUnits s reads ..).trans (.countUnits u acts ..)).trans (.count (u.countUnits ..) acts ..)).trans (.update v ..)

theorem MemoryOnly.cancelScrub (s : State) (n : Nat) : MemoryOnly s (s.cancelScrub n) := by
  unfold State.cancelScrub
  dsimp only
  split
  · split
    · rename_i m flag bs wb here
      refine ⟨rfl, fun _ => ⟨rfl, rfl⟩, rfl, fun k => ?_, fun _ _ => rfl⟩
      by_cases hk : k = sectorStack n
      · by_cases there : k < s.stks.length
        · rw [← hk, State.stk_setStk_self s there]
        · rw [← hk, State.setStk, List.set_eq_of_length_le (Nat.not_lt.1 there)]
      · exact congrArg Stack.parked (getD_set_ne hk ..)
    · exact .update ..
  · exact .update ..

/-- A write of part of a sector that is not poisoned. -/
theorem putSector_part {s : State} {n : Nat} (clean : s.isPoisoned n = false) (bs : List (Nat × Byte)) :
    MemoryOnly s (s.putSector n false bs) ∧ (s.putSector n false bs).l2 = s.l2
      ∧ (s.putSector n false bs).dram = bs.foldl (fun m b => Memory.write m (32 * n + b.1) b.2) s.dram := by
  have stack := sectorStack_lt n
  obtain ⟨u, hu⟩ : ∃ u, u = (s.cancelScrub n).count (STK (sectorStack n) 0x48) 32 32 1 := ⟨_, rfl⟩
  have started : MemoryOnly s u := hu ▸ (MemoryOnly.cancelScrub s n).trans (.count _ (STK_lt stack (by decide)) ..)
  obtain ⟨v, hv⟩ : ∃ v, v = u.countBurst (sectorStack n) 32 := ⟨_, rfl⟩
  have read : MemoryOnly s v := hv ▸ started.trans (.countBurst u stack 32)
  have dram : v.dram = s.dram := by rw [hv, State.countBurst_dram, hu, State.count_dram, State.cancelScrub_dram]
  have eq : s.putSector n false bs = State.countBurst { v with
      dram := bs.foldl (fun m b => Memory.write m (32 * n + b.1) b.2) v.dram } (sectorStack n) 0 := by
    have still : u.isPoisoned n = false := by
      unfold State.isPoisoned at clean ⊢
      rw [started.poison, clean]
    unfold State.putSector
    simp only [Bool.false_eq_true, if_false]
    rw [← hu, ← hv]
    simp only [still, Bool.false_eq_true, if_false]
  refine ⟨?_, State.putSector_l2 .., ?_⟩
  · rw [eq]
    exact (read.trans (.update v ..)).trans (.countBurst _ stack _)
  · rw [eq, State.countBurst_dram, ← dram]

/-- A byte after writes of bytes of one sector. -/
theorem read_foldl_write {n : Nat} {bs : List (Nat × Byte)} (nodup : (bs.map Prod.fst).Nodup) (inside : ∀ x ∈ bs, x.1 < 32) (m : Memory) (b : Nat) :
    Memory.read (bs.foldl (fun m x => Memory.write m (32 * n + x.1) x.2) m) b
      = if b / 32 = n then (look (b % 32) bs).getD (Memory.read m b) else Memory.read m b := by
  induction bs generalizing m with
  | nil => simp [look]
  | cons x bs ih =>
    obtain ⟨k, v⟩ := x
    rw [List.map_cons, List.nodup_cons] at nodup
    have hk : k < 32 := inside _ List.mem_cons_self
    rw [List.foldl_cons, ih nodup.2 (fun y hy => inside y (List.mem_cons_of_mem _ hy)), look]
    by_cases here : b = 32 * n + k
    · have hn : b / 32 = n := by omega
      have hb : b % 32 = k := by omega
      rw [if_pos hn, if_pos hn, hb, look_eq_none nodup.1, if_pos rfl, here, Memory.read_write_self]
      rfl
    · rw [Memory.read_write_ne m here]
      by_cases hn : b / 32 = n
      · rw [if_pos hn, if_pos hn, if_neg (by omega)]
      · rw [if_neg hn, if_neg hn]

/-- The entry for a byte of a sector, in a write that names its bytes by their place there. -/
theorem look_inSector {α β : Type} {sec : Nat} (f : Nat → α → β) {w : List (Nat × α)} (keys : ∀ x ∈ w, x.1 / 32 = sec) {a : Nat} (ha : a / 32 = sec) :
    look (a % 32) (w.map fun x => (x.1 % 32, f (x.1 % 32) x.2)) = (look a w).map (f (a % 32)) := by
  induction w with
  | nil => rfl
  | cons x w ih =>
    obtain ⟨k, v⟩ := x
    have hk : k / 32 = sec := keys _ List.mem_cons_self
    rw [List.map_cons, look, look, ih fun y hy => keys y (List.mem_cons_of_mem _ hy)]
    by_cases here : k = a
    · rw [if_pos here, here, if_pos rfl]
      rfl
    · rw [if_neg here, if_neg (by omega)]

/-- A write of a byte by its address lies in `sec` and does not fill the sector. -/
structure PartOf (sec : Nat) (w : EnWrite) : Prop where
  nodup : (w.map Prod.fst).Nodup
  keys : ∀ x ∈ w, x.1 / 32 = sec
  short : ∃ i, i < 32 ∧ ∀ x ∈ w, x.1 ≠ 32 * sec + i

theorem PartOf.filter {sec : Nat} {w : EnWrite} (h : PartOf sec w) (p : Nat × Byte × Byte → Bool) : PartOf sec (w.filter p) := by
  obtain ⟨i, hi, absent⟩ := h.short
  exact ⟨h.nodup.sublist (List.filter_sublist.map _), fun x hx => h.keys x (List.mem_of_mem_filter hx), i, hi,
    fun x hx => absent x (List.mem_of_mem_filter hx)⟩

/-- What a write of part of the sector `sec`, which lies at `n`, leaves at its home: its bytes, and every byte of another place. -/
structure Merged (s t : State) (sec n : Nat) (w : EnWrite) : Prop extends MemoryOnly s t where
  bytes : ∀ a, a / 32 = sec ∨ place s a ≠ some n → homeByte t a = writtenByte (look a w) (homeByte s a)
  others : ∀ b, b / 32 ≠ n → Memory.read t.dram b = Memory.read s.dram b

/-- Enabled bytes of a sector that its controller merges. -/
theorem Merged.enableSector {s : State} {sec n : Nat} {w : EnWrite} (part : PartOf sec w) (spot : place s (32 * sec) = some n)
    (clean : s.isPoisoned n = false) (below : ∀ x ∈ w, look x.1 s.l2 = none) :
    Merged s (s.enableSector n (w.map fun x => (x.1 % 32, x.2))) sec n w := by
  obtain ⟨bs, hbs⟩ : ∃ bs, bs = w.map fun x => (x.1 % 32, (Memory.read s.dram (32 * n + x.1 % 32) &&& ~~~x.2.2) ||| (x.2.1 &&& x.2.2)) :=
    ⟨_, rfl⟩
  have eq : s.enableSector n (w.map fun x => (x.1 % 32, x.2)) = s.putSector n false bs := by
    obtain ⟨i, hi, absent⟩ := part.short
    have short : ((List.range 32).all fun i => (w.map fun x => (x.1 % 32, x.2)).any fun x => x.1 == i && x.2.2 == 0xFF#8) = false := by
      refine List.all_eq_false.2 ⟨i, List.mem_range.2 hi, ?_⟩
      rw [List.any_map, List.any_eq_true]
      rintro ⟨x, hx, named⟩
      have := absent x hx
      have := part.keys x hx
      simp only [Function.comp_apply, Bool.and_eq_true, beq_iff_eq] at named
      omega
    rw [State.enableSector, short, List.map_map, hbs]
    rfl
  obtain ⟨only, l2, dram⟩ := putSector_part clean bs
  rw [eq]
  have nodup : (bs.map Prod.fst).Nodup := by
    rw [hbs, List.map_map]
    refine (List.nodup_map_iff_inj_on (List.Nodup.of_map _ part.nodup)).2 fun x hx y hy same => ?_
    have := part.keys x hx
    have := part.keys y hy
    exact List.inj_on_of_nodup_map part.nodup hx hy (by simp only [Function.comp_apply] at same; omega)
  have inside : ∀ x ∈ bs, x.1 < 32 := by
    rw [hbs]
    rintro _ hx
    obtain ⟨x, -, rfl⟩ := List.mem_map.1 hx
    exact Nat.mod_lt _ (by decide)
  have reads (b : Nat) := dram ▸ read_foldl_write (n := n) nodup inside s.dram b
  refine ⟨only, fun a ha => ?_, fun b hb => (reads b).trans (if_neg hb)⟩
  have sectorOf {a : Nat} (h : a / 32 = sec) : place s a = some n := (place_sector s (by omega)).trans spot
  unfold homeByte
  rw [l2, only.places.place]
  cases dirty : look a s.l2 with
  | some b =>
    have other : a ∉ w.map Prod.fst := fun h => by
      obtain ⟨x, hx, rfl⟩ := List.mem_map.1 h
      rw [below x hx] at dirty
      cases dirty
    rw [look_eq_none other]
    rfl
  | none =>
    by_cases inSec : a / 32 = sec
    · simp only [sectorOf inSec, reads]
      rw [if_pos (by omega), show (32 * n + a % 32) % 32 = a % 32 by omega, hbs,
        look_inSector (fun i (v : Byte × Byte) => (Memory.read s.dram (32 * n + i) &&& ~~~v.2) ||| (v.1 &&& v.2)) part.keys inSec]
      cases look a w <;> rfl
    · have other : a ∉ w.map Prod.fst := fun h => by
        obtain ⟨x, hx, rfl⟩ := List.mem_map.1 h
        exact inSec (part.keys x hx)
      rw [look_eq_none other, writtenByte_none]
      cases far : place s a with
      | none => rfl
      | some m =>
        have ne : m ≠ n := fun h => (ha.resolve_left inSec) (h ▸ far)
        exact (reads _).trans (if_neg (by omega))

/-! ## A sector at its home (R50, R62, R86, R91) -/

theorem look_none_of_unheld {s : State} {a : Nat} (h : l2HoldsByte s a = false) : look a s.l2 = none := by
  unfold l2HoldsByte at h
  exact Option.not_isSome_iff_eq_none.1 (by simp [(Bool.or_eq_false_iff.1 h).2])

/-- A sector that delivers no poison, and that the L2 lacks in part, is not marked. -/
theorem unpoisoned_of_unheld {s : State} {sec n a : Nat} (spot : place s (32 * sec) = some n) (clean : homePoisoned s sec = false)
    (ha : a / 32 = sec) (h : l2HoldsByte s a = false) : s.isPoisoned n = false := by
  have lacks : l2Whole s sec = false := by
    refine List.all_eq_false.2 ⟨a % 32, List.mem_range.2 (Nat.mod_lt _ (by decide)), ?_⟩
    rw [show 32 * sec + a % 32 = a by omega, look_none_of_unheld h]
    exact Bool.false_ne_true
  unfold l2HoldsByte at h
  rw [ha] at h
  unfold homePoisoned at clean
  simp only [spot, lacks, (Bool.or_eq_false_iff.1 h).1, Bool.not_false, Bool.and_true] at clean
  exact clean

theorem writtenByte_split (w : EnWrite) (p : Nat → Bool) (a : Nat) (old : Byte) :
    writtenByte (look a (w.filter fun x => !p x.1)) (writtenByte (look a (w.filter fun x => p x.1)) old) = writtenByte (look a w) old := by
  rw [look_filter p, look_filter fun a => !p a]
  cases p a <;> rfl

/-- Enabled bytes of a sector that is not poisoned merge into what the home holds, in the L2 or at the controller. -/
theorem Merged.homeWriteSector {s : State} {sec n : Nat} {w : EnWrite} (part : PartOf sec w) (spot : place s (32 * sec) = some n)
    (clean : homePoisoned s sec = false) : Merged s (homeWriteSector s true sec w) sec n w := by
  obtain ⟨here, hhere⟩ : ∃ here, here = w.filter fun x => l2HoldsByte s x.1 := ⟨_, rfl⟩
  obtain ⟨past, hpast⟩ : ∃ past, past = w.filter fun x => !l2HoldsByte s x.1 := ⟨_, rfl⟩
  obtain ⟨u, hu⟩ : ∃ u, u = if here.isEmpty then s else writeL2 s sec here := ⟨_, rfl⟩
  have merged : L2Written s u here := by
    cases hh : here with
    | nil =>
      rw [hu, hh]
      exact .nil s
    | cons x rest =>
      have hx := List.mem_filter.1 (hhere ▸ hh ▸ List.mem_cons_self : x ∈ w.filter fun x => l2HoldsByte s x.1)
      rw [hu, if_neg (by simp [hh]), ← hh]
      exact .writeL2 (hhere ▸ (part.filter _).nodup) (.inl ⟨x.1, part.keys x hx.1, hx.2⟩)
  have eq : Machine.homeWriteSector s true sec w = if past.isEmpty then u else u.enableSector n (past.map fun x => (x.1 % 32, x.2)) := by
    obtain ⟨i, hi, absent⟩ := part.short
    have short : ((List.range 32).all fun i => w.any fun x => x.1 == 32 * sec + i && x.2.2 == fullMask) = false := by
      refine List.all_eq_false.2 ⟨i, List.mem_range.2 hi, ?_⟩
      rw [List.any_eq_true]
      rintro ⟨x, hx, named⟩
      exact absent x hx (beq_iff_eq.1 (Bool.and_eq_true .. ▸ named).1)
    rw [Machine.homeWriteSector, spot]
    simp only [short, clean, Bool.false_eq_true, if_false, Bool.not_true, Bool.false_or, Bool.true_and, ← hhere, ← hpast, ← hu]
  have both (a : Nat) : writtenByte (look a past) (homeByte u a) = writtenByte (look a w) (homeByte s a) := by
    rw [merged.bytes, hpast, hhere, writtenByte_split]
  rw [eq]
  cases hp : past with
  | nil =>
    rw [hp] at both
    exact ⟨merged.toMemoryOnly, fun a _ => both a, fun _ _ => by rw [List.isEmpty_nil, if_pos rfl, merged.dram]⟩
  | cons x rest =>
    have unheld {y : Nat × Byte × Byte} (hy : y ∈ past) : y ∈ w ∧ l2HoldsByte s y.1 = false := by
      rw [hpast] at hy
      simpa using List.mem_filter.1 hy
    have hx := unheld (hp ▸ List.mem_cons_self : x ∈ past)
    have below : ∀ y ∈ past, look y.1 u.l2 = none := fun y hy => by
      refine (merged.others _ fun h => ?_).trans (look_none_of_unheld (unheld hy).2)
      obtain ⟨z, hz, same⟩ := List.mem_map.1 h
      rw [hhere] at hz
      exact absurd (same ▸ (List.mem_filter.1 hz).2) (by rw [(unheld hy).2]; exact Bool.false_ne_true)
    have unmarked : u.isPoisoned n = false := by
      have := unpoisoned_of_unheld spot clean (part.keys x hx.1) hx.2
      unfold State.isPoisoned at this ⊢
      rwa [merged.poison]
    have rest := Merged.enableSector (s := u) (w := past) (hpast ▸ part.filter _) ((merged.places.place _).trans spot) unmarked below
    rw [← hp, if_neg (by simp [hp])]
    exact ⟨merged.toMemoryOnly.trans rest.toMemoryOnly,
      fun a ha => (rest.bytes a (ha.imp id fun h => by rwa [merged.places.place])).trans (both a),
      fun b hb => (rest.others b hb).trans (by rw [merged.dram])⟩

/-! ## Writes at the homes -/

theorem dedup_of_all_eq {α : Type} [DecidableEq α] {l : List α} {k : α} (h : ∀ x ∈ l, x = k) (hn : l ≠ []) : l.dedup = [k] := by
  rw [List.eq_replicate_of_mem h, List.replicate_dedup (fun h0 => hn (List.eq_nil_of_length_eq_zero h0))]

theorem filter_enabled {w : EnWrite} (h : ∀ x ∈ w, x.2.2 ≠ 0#8) : (w.filter fun x => x.2.2 != 0#8) = w :=
  List.filter_eq_self.2 fun x hx => bne_iff_ne.2 (h x hx)

/-- A write at the homes is what it does to each sector, and what it tells the host and the view table. -/
theorem homeWrite_sectorwise (s : State) {w : EnWrite} (h : ∀ x ∈ w, x.2.2 ≠ 0#8) (enabled : Bool) : ∃ u, SameHomes s u
    ∧ SameHomes ((w.map fun x => x.1 / 32).dedup.foldl
      (fun s sec => homeWriteSector s enabled sec (w.filter fun x => x.1 / 32 == sec)) u) (homeWrite s w enabled) := by
  refine ⟨_, .backInvalidate s (w.map fun x => x.1 / 128), ?_⟩
  unfold homeWrite
  rw [filter_enabled h]
  exact .noteTorn ..

/-- Enabled bytes of one sector, written at its home. -/
theorem Merged.homeWrite {s : State} {sec n : Nat} {w : EnWrite} (part : PartOf sec w) (named : w ≠ []) (enabled : ∀ x ∈ w, x.2.2 ≠ 0#8)
    (spot : place s (32 * sec) = some n) (clean : homePoisoned s sec = false) : Merged s (homeWrite s w true) sec n w := by
  have sectors : (w.map fun x => x.1 / 32).dedup = [sec] :=
    dedup_of_all_eq (fun y hy => by obtain ⟨x, hx, rfl⟩ := List.mem_map.1 hy; exact part.keys x hx) (by simpa using named)
  have alone : (w.filter fun x => x.1 / 32 == sec) = w := List.filter_eq_self.2 fun x hx => beq_iff_eq.2 (part.keys x hx)
  obtain ⟨u, told, noted⟩ := homeWrite_sectorwise s enabled true
  rw [sectors, List.foldl_cons, List.foldl_nil, alone] at noted
  have merged := Merged.homeWriteSector (s := u) part ((told.places.place _).trans spot) ((told.homePoisoned sec).trans clean)
  exact ⟨(told.toMemoryOnly.trans merged.toMemoryOnly).trans noted.toMemoryOnly,
    fun a ha => by rw [noted.homeByte, merged.bytes a (ha.imp id fun h => by rwa [told.places.place]), told.homeByte],
    fun b hb => by rw [noted.dram, merged.others b hb, told.dram]⟩

/-! ### Whole sectors -/

theorem bytesWrite_cons (a : Nat) (b : Byte) (bs : List Byte) : bytesWrite a (b :: bs) = (a, b, fullMask) :: bytesWrite (a + 1) bs := by
  unfold bytesWrite
  rw [List.zipIdx_cons, List.map_cons]

theorem bytesWrite_append (a : Nat) (bs cs : List Byte) : bytesWrite a (bs ++ cs) = bytesWrite a bs ++ bytesWrite (a + bs.length) cs := by
  unfold bytesWrite
  rw [List.zipIdx_append, List.map_append]

@[simp] theorem bytesWrite_length (a : Nat) (bs : List Byte) : (bytesWrite a bs).length = bs.length := by simp [bytesWrite]

theorem look_bytesWrite (a k : Nat) (bs : List Byte) :
    look k (bytesWrite a bs) = if a ≤ k then (bs[k - a]?).map fun b => (b, fullMask) else none := by
  induction bs generalizing a with
  | nil => simp [bytesWrite, look]
  | cons b bs ih =>
    rw [bytesWrite_cons, look, ih]
    rcases Nat.lt_trichotomy a k with h | h | h
    · rw [if_neg (by omega), if_pos (by omega), if_pos (by omega), show k - a = k - (a + 1) + 1 by omega, List.getElem?_cons_succ]
    · subst h
      simp
    · rw [if_neg (by omega), if_neg (by omega), if_neg (by omega)]

theorem mem_bytesWrite {a : Nat} {bs : List Byte} {x : Nat × Byte × Byte} (h : x ∈ bytesWrite a bs) :
    a ≤ x.1 ∧ x.1 < a + bs.length ∧ x.2.2 = fullMask := by
  induction bs generalizing a with
  | nil => simp [bytesWrite] at h
  | cons b bs ih =>
    rw [bytesWrite_cons, List.mem_cons] at h
    rw [List.length_cons]
    rcases h with rfl | h
    · exact ⟨Nat.le_refl _, by omega, rfl⟩
    · obtain ⟨low, high, full⟩ := ih h
      exact ⟨by omega, by omega, full⟩

theorem bytesWrite_nodup (a : Nat) (bs : List Byte) : ((bytesWrite a bs).map Prod.fst).Nodup := by
  induction bs generalizing a with
  | nil => exact List.nodup_nil
  | cons b bs ih =>
    rw [bytesWrite_cons, List.map_cons, List.nodup_cons]
    refine ⟨fun h => ?_, ih _⟩
    obtain ⟨x, hx, same⟩ := List.mem_map.1 h
    have := mem_bytesWrite hx
    omega

/-- A whole sector enters the L2 of its home, whatever its mark (R62). -/
theorem homeWriteSector_whole {s : State} {sec : Nat} {bs : List Byte} (len : bs.length = 32) (spot : place s (32 * sec) ≠ none)
    (enabled : Bool) : homeWriteSector s enabled sec (bytesWrite (32 * sec) bs) = writeL2 s sec (bytesWrite (32 * sec) bs) := by
  obtain ⟨n, hn⟩ := Option.ne_none_iff_exists'.1 spot
  have whole : ((List.range 32).all fun i => (bytesWrite (32 * sec) bs).any fun x => x.1 == 32 * sec + i && x.2.2 == fullMask) = true := by
    refine List.all_eq_true.2 fun i hi => List.any_eq_true.2 ?_
    have inside : i < bs.length := by rw [len]; exact List.mem_range.1 hi
    refine ⟨(32 * sec + i, bs[i], fullMask), look_mem ?_, by simp⟩
    rw [look_bytesWrite, if_pos (by omega), Nat.add_sub_cancel_left, List.getElem?_eq_getElem inside]
    rfl
  unfold homeWriteSector
  rw [hn]
  simp only [whole, if_true]

theorem dedup_map_append {α β : Type} [DecidableEq β] {f : α → β} {xs ys : List α} {x y : β} (hx : ∀ a ∈ xs, f a = x) (hy : ∀ a ∈ ys, f a = y)
    (ne : x ≠ y) (someX : xs ≠ []) (someY : ys ≠ []) : ((xs ++ ys).map f).dedup = [x, y] := by
  have all {zs : List α} {z : β} (h : ∀ a ∈ zs, f a = z) : ∀ b ∈ zs.map f, b = z := fun b hb => by
    obtain ⟨a, ha, rfl⟩ := List.mem_map.1 hb
    exact h a ha
  have apart : List.Disjoint (xs.map f) (ys.map f) := fun b hb hc => ne ((all hx b hb).symm.trans (all hy b hc))
  rw [List.map_append, apart.dedup_append, dedup_of_all_eq (all hx) (by simpa using someX), dedup_of_all_eq (all hy) (by simpa using someY)]
  rfl

/-- Two whole sectors in a row, written at their homes. -/
theorem homeWrite_sectors {s : State} {sec : Nat} {bs cs : List Byte} (lenB : bs.length = 32) (lenC : cs.length = 32)
    (spotB : place s (32 * sec) ≠ none) (spotC : place s (32 * (sec + 1)) ≠ none) (room : s.l2.length + s.l2held.length + 64 ≤ l2Size) (a : Nat) :
    homeByte (homeWrite s (bytesWrite (32 * sec) (bs ++ cs))) a
      = writtenByte (look a (bytesWrite (32 * sec) (bs ++ cs))) (homeByte s a) := by
  obtain ⟨b, hb⟩ : ∃ b, b = bytesWrite (32 * sec) bs := ⟨_, rfl⟩
  obtain ⟨c, hc⟩ : ∃ c, c = bytesWrite (32 * (sec + 1)) cs := ⟨_, rfl⟩
  have split : bytesWrite (32 * sec) (bs ++ cs) = b ++ c := by
    rw [bytesWrite_append, lenB, hb, hc]
    rfl
  have inB : ∀ x ∈ b, x.1 / 32 = sec := fun x hx => by
    have := mem_bytesWrite (hb ▸ hx)
    omega
  have inC : ∀ x ∈ c, x.1 / 32 = sec + 1 := fun x hx => by
    have := mem_bytesWrite (hc ▸ hx)
    omega
  have enabled : ∀ x ∈ b ++ c, x.2.2 ≠ 0#8 := fun x hx => by
    rw [(mem_bytesWrite (split ▸ hx)).2.2]
    decide
  have nodupC : (c.map Prod.fst).Nodup := hc ▸ bytesWrite_nodup ..
  have lengthB : b.length = 32 := by rw [hb, bytesWrite_length, lenB]
  have lengthC : c.length = 32 := by rw [hc, bytesWrite_length, lenC]
  have sectors : ((b ++ c).map fun x => x.1 / 32).dedup = [sec, sec + 1] :=
    dedup_map_append inB inC (by omega) (List.ne_nil_of_length_eq_add_one lengthB) (List.ne_nil_of_length_eq_add_one lengthC)
  have onlyB : ((b ++ c).filter fun x => x.1 / 32 == sec) = b := by
    rw [List.filter_append, List.filter_eq_self.2 fun x hx => beq_iff_eq.2 (inB x hx),
      List.filter_eq_nil_iff.2 fun x hx => by simp [inC x hx], List.append_nil]
  have onlyC : ((b ++ c).filter fun x => x.1 / 32 == sec + 1) = c := by
    rw [List.filter_append, List.filter_eq_self.2 fun x hx => beq_iff_eq.2 (inC x hx),
      List.filter_eq_nil_iff.2 fun x hx => by simp [inB x hx], List.nil_append]
  obtain ⟨u, told, noted⟩ := homeWrite_sectorwise s enabled false
  have first : L2Written u (writeL2 u sec b) b := .writeL2 (hb ▸ bytesWrite_nodup ..) (.inr (by rw [told.l2, told.l2held]; omega))
  have second : L2Written (writeL2 u sec b) (writeL2 (writeL2 u sec b) (sec + 1) c) c := .writeL2 nodupC (.inr (by
    have := first.room
    rw [told.l2] at this
    rw [first.l2held, told.l2held]
    omega))
  have eq : ((b ++ c).map fun x => x.1 / 32).dedup.foldl (fun s sec => homeWriteSector s false sec ((b ++ c).filter fun x => x.1 / 32 == sec)) u
      = writeL2 (writeL2 u sec b) (sec + 1) c := by
    rw [sectors, List.foldl_cons, List.foldl_cons, List.foldl_nil, onlyB, onlyC]
    have wholeB : homeWriteSector u false sec b = writeL2 u sec b := by
      rw [hb, homeWriteSector_whole lenB (by rwa [told.places.place])]
    rw [wholeB, hc, homeWriteSector_whole lenC (by rwa [first.places.place, told.places.place])]
  rw [eq] at noted
  rw [split, noted.homeByte, second.bytes, first.bytes, told.homeByte, look_append]
  by_cases ha : a ∈ b.map Prod.fst
  · have notC : a ∉ c.map Prod.fst := fun h => by
      obtain ⟨x, hx, rfl⟩ := List.mem_map.1 ha
      obtain ⟨y, hy, same⟩ := List.mem_map.1 h
      have := inB x hx
      have := inC y hy
      omega
    rw [look_eq_none notC, Option.or_none, writtenByte_none]
  · rw [look_eq_none ha, Option.none_or, writtenByte_none]

end Sys2Proof.Machine
end

section
/-! PROOF. VINV and SIGCLR (R73, R196, R226, R339). -/

namespace Sys2Proof.Machine

/-! ## VINV (R73, R226) -/

section
variable {γ : Type} {g : State → γ} (h : Blind g) {s : State} {x : γ} (e : g s = x)
include h e

theorem Blind.registerPair (c w : Nat) : g (registerPair s c w) = x := by
  unfold Machine.registerPair
  extract_lets u
  have first : g u = x := h.registerWord e ..
  split
  · exact h.registerWord first ..
  · exact first

theorem Blind.drainWord (c w : Nat) : g (drainWord s c w) = x := by
  unfold Machine.drainWord
  split
  · split
    · exact e
    · split
      · exact h.dropStore e ..
      · exact h.modCore (h.writeHomeWord (h.registerPair e ..) ..) ..
  · exact e

theorem Blind.drainViewTable (c : Nat) : g (drainViewTable s c) = x := by
  refine foldl_shows e (fun _ _ => ?_) _
  split
  · exact h.drainWord rfl ..
  · rfl

end

theorem blind_runningTeam : Blind fun s => (s.teams, s.cur) := fun _ _ _ _ _ _ _ _ _ _ _ _ _ _ _ _ => rfl

theorem drainViewTable_clean {s : State} {c : Nat} (h : ∀ e ∈ (s.core c).l1, e.2.dirty = false) : drainViewTable s c = s :=
  foldl_same _ fun e he => by rw [h e he, Bool.and_false, if_neg Bool.false_ne_true]

/-- No view cache of a core or of an engine holds an entry that it has been told to drop. -/
theorem mem_dropViews {s : State} {p : VEntry → Bool} {v : VEntry} (h : v ∈ ((dropViews s p).cores.flatMap (·.vcache))
    ++ (dropViews s p).dies.flatMap fun x => x.engines.flatMap (·.vcache)) : p v = false := by
  unfold dropViews at h
  simp only [List.mem_append, List.mem_flatMap, List.mem_map] at h
  rcases h with ⟨_, ⟨k, -, rfl⟩, hv⟩ | ⟨_, ⟨k, -, rfl⟩, _, he, hv⟩
  · simpa using (List.mem_filter.1 hv).2
  · obtain ⟨e, -, rfl⟩ := List.mem_map.1 he
    simpa using (List.mem_filter.1 hv).2

/-- The operand codes of an instruction without REP. -/
theorem uniCodes_none (t : Team) (d a b : Nat) : (uniCodes t none d a b).a = a := by
  simp [uniCodes, fieldsFor, Fields.codes, FieldAt.value]

theorem endUni_eq {s : State} {t : Team} (ht : s.teams[s.cur]? = some t) (words : Nat) (dead : Bool) :
    endUni s words dead = s.setTeam s.cur ((t.noteDead dead).pass words) := State.modTeam_eq ht _

@[simp] theorem Team.noteDead_regs (t : Team) (b : Bool) : (t.noteDead b).regs = t.regs := by cases b <;> rfl
@[simp] theorem Team.noteDead_pc (t : Team) (b : Bool) : (t.noteDead b).pc = t.pc := by cases b <;> rfl
@[simp] theorem Team.noteDead_sigW (t : Team) (b : Bool) : (t.noteDead b).sigW = t.sigW := by cases b <;> rfl

theorem exec_vinv (a : Byte) (s : State) : exec (.vinv a) s = vinvIssue s (.src 1) a.toNat fun n e => e.view == n := rfl
theorem exec_vinvAll (s : State) : exec .vinvAll s = vinvIssue s .field 0 fun _ _ => true := rfl

/-- VINV in user context without VIEWADM. -/
theorem vinvIssue_traps {s : State} {t : Team} {a : Role} {code : Nat} (ht : s.teams[s.cur]? = some t) (rep : t.repIdx = 0)
    (adm : t.cfg.viewadm = false) (user : t.priv = false) (role : a = .src 1 ∨ a = .field) (reg : code < 160)
    (drop : Nat → VEntry → Bool) : vinvIssue s a code drop = .next (trapCause s s.cur .priv) := by
  unfold vinvIssue
  rw [ht]
  refine uniIssue_traps ht (fun _ => rep) ?_ _
  have value (i c : Nat) : (⟨c, 0, i⟩ : FieldAt).value = c := by simp [FieldAt.value]
  have legal : (⟨code, 0, t.repIdx⟩ : FieldAt).illop a .m = false := by
    rcases role with rfl | rfl <;> simp [FieldAt.illop, value, reg, Role.align]
  have unread (c : Nat) : (⟨c, 0, t.repIdx⟩ : FieldAt).illop .field .m = false := by simp [FieldAt.illop]
  simp [check, Form.of, fieldsFor, legal, unread, adm, user, Form.moreFields]

/-- VINV that issues drops the views that it names from every view cache. -/
theorem vinvIssue_drops {s : State} {t : Team} {a : Role} {code : Nat} (drop : Nat → VEntry → Bool)
    (runs : UniRuns s t none { Form.of .m .field a .field with priv := !t.cfg.viewadm } 0 code 0) :
    ∃ w u, vinvIssue s a code drop = .next w ∧ w.teams[s.cur]? = some u ∧ u.pc = t.pc + 4 ∧ u.regs = t.regs
      ∧ ((∀ e ∈ (s.core t.coreNo).l1, e.2.dirty = false) → HomesKept s w)
      ∧ ∀ v ∈ (w.cores.flatMap (·.vcache)) ++ w.dies.flatMap (fun x => x.engines.flatMap (·.vcache)),
          drop (opnd s t .m .i32 code 0 % 2048) v = false := by
  have ht := runs.1
  obtain ⟨v, hv⟩ : ∃ v, v = dropViews (drainViewTable s t.coreNo) (drop (opnd s t .m .i32 code 0 % 2048)) := ⟨_, rfl⟩
  have kept : (v.teams, v.cur) = (s.teams, s.cur) := hv ▸ blind_runningTeam.drainViewTable rfl t.coreNo
  obtain ⟨teams, cur⟩ := Prod.mk.inj kept
  have hvt : v.teams[v.cur]? = some t := by rw [teams, cur, ht]
  obtain ⟨dead, eq⟩ : ∃ dead, vinvIssue s a code drop = .next (endUni v 1 dead) := by
    refine ⟨a != .field && readsDead t .m code 1, ?_⟩
    unfold vinvIssue
    rw [ht]
    refine (uniIssue_runs runs _).trans ?_
    simp only [uniCodes_none, ← hv]
  rw [eq, endUni_eq hvt]
  refine ⟨_, (t.noteDead dead).pass 1, rfl, ?_, congrArg (· + 4) (Team.noteDead_pc ..), Team.noteDead_regs .., fun clean => ?_,
    fun x hx => mem_dropViews (hv ▸ hx)⟩
  · exact cur ▸ State.setTeam_get hvt _
  · rw [hv, drainViewTable_clean clean]
    exact ⟨rfl, rfl, rfl, rfl⟩

/-! ## SIGCLR (R196, R339) -/

theorem settleAll_quiet {s : State} {k : Nat} {t : Team} (ht : s.teams[k]? = some t) (quiet : Quiet s t) : settleAll s k = s := by
  obtain ⟨loads, -, unread⟩ := quiet
  unfold settleAll
  rw [settleLoads_none ht (by rw [loads]; rfl)]
  unfold settleMrd
  rw [ht]
  refine matrixUntil_none (List.any_eq_false.2 fun o ho => ?_) _
  rw [beq_false_of_ne (unread o ho), Bool.false_and]
  exact Bool.false_ne_true

theorem drainCore_empty {s : State} {c : Nat} (h : (s.core c).l1 = []) : drainCore s c = s := by
  unfold drainCore
  rw [h]
  rfl

/-- Before a release of a team that waits for nothing, at a core with nothing to drain. -/
theorem beforeRelease_quiet {s : State} {k : Nat} {t : Team} (ht : s.teams[k]? = some t) (quiet : Quiet s t)
    (h : (s.core t.coreNo).l1 = []) (sc : Scope) : beforeRelease s k sc = s := by
  unfold beforeRelease
  simp only [settleAll_quiet ht quiet, ht, releaseDrain, drainCore_empty h, ite_self]

theorem revokeBlockBut_unheld {s : State} {w : Nat} (h : ∀ j, j < 32 → look (blockWord w + j) s.registrants = none) (c : Nat) :
    revokeBlockBut s c w = s :=
  foldl_same _ fun j hj => by simp only [h j (List.mem_range.1 hj)]

/-- Where no granule is sealed, a write of this device's memory meets no seal. -/
theorem meetsSeal_unsealed {s : State} {w : EnWrite} (seals : ∀ d, (s.die d).seals = [])
    (near : ∀ x ∈ w, isRemoteWord (x.1 / 4) = false) : meetsSeal s w = (false, s) := by
  have none (a : Nat) : sealAt s a = none := by
    unfold sealAt
    rw [seals]
    rfl
  have first : (w.any fun x => !isRemoteWord (x.1 / 4) && (sealAt s x.1).isSome) = false :=
    List.any_eq_false.2 fun x _ => by simp [none]
  have second : (w.any fun x => isRemoteWord (x.1 / 4) && reachable s (remoteDevice x.1)) = false :=
    List.any_eq_false.2 fun x hx => by simp [near x hx]
  unfold meetsSeal
  rw [first, second]
  rfl

theorem isRemoteWord_near {w : Nat} (h : w < 2 ^ 44) : isRemoteWord w = false := by
  unfold isRemoteWord
  rw [Nat.div_eq_of_lt h]
  simp

/-- SIGCLR of a sync block that stands at its home. -/
theorem sigclr_clears {s s1 : State} {t : Team} {a : Byte} {g : Tgt} {pa : Nat}
    (runs : UniRuns s t none (Form.of .u .field .pair .field) 0 a.toNat 0) (quiet : Quiet s1 t)
    (found : resolve s t.who ⟨8, .write, true, false⟩ [(0, opnd s t .u .i64 a.toNat 0)] = (⟨none, [(0, g)], false⟩, s1))
    (aligned : opnd s t .u .i64 a.toNat 0 % 128 = 0) (waits : hasWaited s s1 t.coreNo = false) (team : s1.teams[s.cur]? = some t)
    (loc : g.loc = .plain pa) (sync : g.sync = true) (near : pa < 2 ^ 46) (block : pa % 128 = 0) (l1 : (s1.core t.coreNo).l1 = [])
    (seals : ∀ e, (s1.die e).seals = []) (home : ∀ j, j < 32 → look (pa / 4 + j) s1.registrants = none) :
    ∃ dead w, w = homeWrite s1 (bytesWrite (pa + 64) (List.replicate 64 0#8)) ∧ exec (.swrSigclr a) s = .next (endUni (clearW w w.cur) 1 dead) := by
  refine ⟨readsDead t .u a.toNat 2, _, rfl, ?_⟩
  rw [show exec (.swrSigclr a) s = execSwrSigclr a s from rfl, execSwrSigclr, uniIssue_runs runs]
  have start : opnd s t .u .i64 a.toNat 0 / 128 * 128 = opnd s t .u .i64 a.toNat 0 := by omega
  have must : mustWait s s1 t = false := by simp [mustWait, waits]
  have there : g.syncPa = some pa := by
    unfold Tgt.syncPa
    rw [loc]
    simp [sync]
  have base : blockOfPa pa = pa := by unfold blockOfPa; omega
  have near64 : ∀ x ∈ bytesWrite (pa + 64) (List.replicate 64 0#8), isRemoteWord (x.1 / 4) = false := fun x hx => by
    have := mem_bytesWrite hx
    rw [List.length_replicate] at this
    exact isRemoteWord_near (by omega)
  have held : revokeBlockBut s1 64 (pa / 4) = s1 := revokeBlockBut_unheld (fun j hj => by
    rw [show blockWord (pa / 4) = pa / 4 by unfold blockWord; omega, home j hj]) 64
  have before : beforeRelease s1 s.cur .pkg = s1 := beforeRelease_quiet team quiet l1 _
  simp only [uniCodes_none, start, found, aligned, must, stainTeam, before, there, base, meetsSeal_unsealed seals near64, held,
    isRemoteWord_near (by omega : pa / 4 < 2 ^ 44), worst, if_true, Option.map_none, Option.toList_none, List.nil_append, Bool.and_false,
    Bool.false_eq_true, if_false, List.foldl_cons, List.foldl_nil]

/-- The running team after a release that clears W. -/
theorem endUni_clearW {s : State} {t : Team} (ht : s.teams[s.cur]? = some t) (dead : Bool) : ∃ u,
    endUni (clearW s s.cur) 1 dead = s.setTeam s.cur u ∧ u.pc = t.pc + 4 ∧ u.sigW = 0#512 ∧ u.regs = t.regs := by
  refine ⟨(({ t with sigW := 0#512 } : Team).noteDead dead).pass 1, ?_, ?_, ?_, ?_⟩
  · unfold clearW
    rw [State.modTeam_eq ht, endUni_eq (State.setTeam_get ht _)]
    exact State.setTeam_setTeam ..
  · rw [Team.pass_pc, Team.noteDead_pc]
  · rw [Team.pass_sigW, Team.noteDead_sigW]
  · rw [Team.pass_regs, Team.noteDead_regs]

theorem place_of_clean {s : State} {sec : Nat} (h : homePoisoned s sec = false) : place s (32 * sec) ≠ none := fun none => by
  unfold homePoisoned at h
  rw [none] at h
  cases h

/-- The slot of a sync block that its home has cleared. -/
theorem homeByte_clearedSlot {s : State} {pa : Nat} (block : pa % 128 = 0) (clean : ∀ j, j < 32 → homePoisoned s ((pa / 4 + j) / 8) = false)
    (room : s.l2.length + s.l2held.length + 64 ≤ l2Size) (a : Nat) :
    homeByte (homeWrite s (bytesWrite (pa + 64) (List.replicate 64 0#8))) a = if pa + 64 ≤ a ∧ a < pa + 128 then 0#8 else homeByte s a := by
  obtain ⟨sec, hsec⟩ : ∃ sec, pa + 64 = 32 * sec := ⟨pa / 32 + 2, by omega⟩
  have spot (j : Nat) (hj : j < 32) : place s (32 * ((pa / 4 + j) / 8)) ≠ none := place_of_clean (clean j hj)
  have sectors := homeWrite_sectors (s := s) (sec := sec) (bs := List.replicate 32 0#8) (cs := List.replicate 32 0#8) List.length_replicate
    List.length_replicate (by rw [show sec = (pa / 4 + 16) / 8 by omega]; exact spot 16 (by decide))
    (by rw [show sec + 1 = (pa / 4 + 24) / 8 by omega]; exact spot 24 (by decide)) room a
  rw [List.replicate_append_replicate] at sectors
  rw [hsec, sectors, look_bytesWrite, List.getElem?_replicate]
  by_cases low : 32 * sec ≤ a
  · by_cases high : a < pa + 128
    · rw [if_pos low, if_pos (by omega), if_pos ⟨low, high⟩, Option.map_some, writtenByte_full]
    · rw [if_pos low, if_neg (by omega), if_neg (by omega)]
      rfl
  · rw [if_neg low, if_neg (by omega), writtenByte_none]

/-- Settles O36: VINV drops the views that it names from every view cache once the core's own writes of descriptors have gone home, and
SIGCLR writes the two sectors of the slot whole at the home of its block. -/
theorem vinvDropsViewsAndSigclrClearsSlots : Obligations.VinvDropsViewsAndSigclrClearsSlots := by
  unfold Obligations.VinvDropsViewsAndSigclrClearsSlots
  intro s t a
  refine ⟨?_, ?_⟩
  · rintro i f code (⟨rfl, rfl, rfl⟩ | ⟨rfl, rfl, rfl⟩)
    · rw [exec_vinv]
      refine ⟨fun ht rep adm user reg => vinvIssue_traps ht rep adm user (.inl rfl) reg _, fun runs => ?_⟩
      obtain ⟨w, u, next, team, pc, regs, homes, views⟩ := vinvIssue_drops (fun n e => e.view == n) runs
      exact ⟨w, u, next, team, pc, regs, homes, fun v hv => ⟨rfl, beq_eq_false_iff_ne.1 (views v hv)⟩⟩
    · rw [exec_vinvAll]
      refine ⟨fun ht rep adm user reg => vinvIssue_traps ht rep adm user (.inr rfl) reg _, fun runs => ?_⟩
      obtain ⟨w, u, next, team, pc, regs, homes, views⟩ := vinvIssue_drops (fun _ _ => true) runs
      exact ⟨w, u, next, team, pc, regs, homes, fun v hv => absurd (views v hv) (by decide)⟩
  · intro s1 g pa runs quiet found aligned waits cur team loc sync near block l1 seals home room
    obtain ⟨dead, w, hw, next⟩ := sigclr_clears runs quiet found aligned waits (cur ▸ team) loc sync near block l1 seals
      fun j hj => (home j hj).2.1
    have kept : (w.teams, w.cur) = (s1.teams, s1.cur) := hw ▸ blind_runningTeam.homeWrite rfl _ _
    rw [Prod.mk.injEq, cur] at kept
    have wt : w.teams[w.cur]? = some t := by rw [kept.1, kept.2, ← cur, team]
    obtain ⟨u, ends, pc, sig, regs⟩ := endUni_clearW wt dead
    rw [kept.2] at wt ends next
    have bytes (e : Nat) : homeByte (w.setTeam s.cur u) e = homeByte w e :=
      SamePlaces.homeByte (s := w) (t := w.setTeam s.cur u) (.of_eq rfl rfl rfl rfl) rfl rfl
    refine ⟨_, u, next.trans (congrArg _ ends), State.setTeam_get wt u, pc, sig, regs, fun j low high => ?_, fun e he => ?_⟩
    · rw [bytes, hw, homeByte_clearedSlot block (fun j hj => (home j hj).2.2) room, if_pos (by omega)]
    · rw [bytes, hw, homeByte_clearedSlot block (fun j hj => (home j hj).2.2) (by omega), if_neg (by omega)]

end Sys2Proof.Machine
end

section
/-! PROOF. Stores (R91, R183, R187, R321, R323): words in the core's L1, enabled bytes at their home. -/

namespace Sys2Proof.Machine

/-! ## The words of an enabled write -/

theorem mergeWord_byte (old : Word) (v : Byte) {b i : Nat} (hi : i < 32) :
    (mergeWord old (v.setWidth 32 <<< (8 * b)) (0xFF#32 <<< (8 * b))).getLsbD i = if i / 8 = b then v.getLsbD (i % 8) else old.getLsbD i := by
  have ones (n : Nat) (hn : n < 32) : (0xFF#32).getLsbD n = decide (n < 8) := by
    revert n
    decide
  unfold mergeWord
  simp only [BitVec.getLsbD_or, BitVec.getLsbD_and, BitVec.getLsbD_not, BitVec.getLsbD_shiftLeft, BitVec.getLsbD_setWidth, hi, decide_true,
    Bool.true_and, ones (i - 8 * b) (by omega)]
  by_cases here : i / 8 = b
  · have low : i - 8 * b = i % 8 := by omega
    rw [if_pos here, low, decide_eq_false (by omega), decide_eq_true (by omega : i % 8 < 8), decide_eq_true (by omega : i % 8 < 32)]
    simp
  · rw [if_neg here]
    rcases Nat.lt_or_ge i (8 * b) with h | h
    · rw [decide_eq_true h]
      simp
    · rw [decide_eq_false (by omega : ¬ i < 8 * b), decide_eq_false (by omega : ¬ i - 8 * b < 8)]
      simp

/-- A word made of one byte, `f`, of each entry of a write in that word. -/
def EnWrite.wordOf (f : Byte × Byte → Byte) (w : EnWrite) (k : Nat) : Word :=
  (w.filter fun x => x.1 / 4 == k).foldl
    (fun acc x => mergeWord acc ((f x.2).setWidth 32 <<< (8 * (x.1 % 4))) (0xFF#32 <<< (8 * (x.1 % 4)))) 0#32

theorem EnWrite.words_eq (w : EnWrite) :
    w.words = (w.map fun x => x.1 / 4).dedup.map fun k => (k, w.wordOf Prod.fst k, w.wordOf Prod.snd k) := rfl

theorem foldl_mergeWord (f : Byte × Byte → Byte) {k : Nat} {w : EnWrite} (nodup : (w.map Prod.fst).Nodup) (keys : ∀ x ∈ w, x.1 / 4 = k) {i : Nat}
    (hi : i < 32) (old : Word) : (w.foldl (fun acc x =>
      mergeWord acc ((f x.2).setWidth 32 <<< (8 * (x.1 % 4))) (0xFF#32 <<< (8 * (x.1 % 4)))) old).getLsbD i
      = match look (4 * k + i / 8) w with
        | some e => (f e).getLsbD (i % 8)
        | none => old.getLsbD i := by
  induction w generalizing old with
  | nil => rfl
  | cons x w ih =>
    obtain ⟨a, e⟩ := x
    rw [List.map_cons, List.nodup_cons] at nodup
    have ha : a / 4 = k := keys _ List.mem_cons_self
    rw [List.foldl_cons, ih nodup.2 fun y hy => keys y (List.mem_cons_of_mem _ hy)]
    by_cases here : a = 4 * k + i / 8
    · have none : look (4 * k + i / 8) w = none := look_eq_none (here ▸ nodup.1)
      rw [none, look, if_pos here]
      exact (mergeWord_byte old (f e) hi).trans (if_pos (by omega))
    · rw [look, if_neg here]
      cases look (4 * k + i / 8) w with
      | some e => rfl
      | none => exact (mergeWord_byte old (f e) hi).trans (if_neg (by omega))

/-- A bit of a word of a write. -/
theorem EnWrite.wordOf_getLsbD (f : Byte × Byte → Byte) {w : EnWrite} (nodup : (w.map Prod.fst).Nodup) (k : Nat) {i : Nat} (hi : i < 32) :
    (w.wordOf f k).getLsbD i = ((look (4 * k + i / 8) w).map fun e => (f e).getLsbD (i % 8)).getD false := by
  have only : look (4 * k + i / 8) (w.filter fun x => x.1 / 4 == k) = look (4 * k + i / 8) w := by
    rw [look_filter fun a => a / 4 == k, if_pos (beq_iff_eq.2 (by omega))]
  unfold EnWrite.wordOf
  rw [foldl_mergeWord f (nodup.sublist (List.filter_sublist.map _)) (fun x hx => beq_iff_eq.1 (List.mem_filter.1 hx).2) hi, only]
  cases look (4 * k + i / 8) w with
  | some e => rfl
  | none => exact BitVec.getLsbD_zero

/-! ## Several writes merged -/

/-- What a write gives to a byte, and the bits of it that it names: of several values of a bit the last stands (R90). -/
def EnWrite.mergedByte (w : EnWrite) (a : Nat) : Byte × Byte :=
  (w.filter fun x => x.1 == a).foldl (fun acc x => ((acc.1 &&& ~~~x.2.2) ||| (x.2.1 &&& x.2.2), acc.2 ||| x.2.2)) (0#8, 0#8)

theorem mergeWrites_eq (w : EnWrite) : mergeWrites w = (w.map Prod.fst).dedup.map fun a => (a, w.mergedByte a) := by
  have tagged (a : Nat) (l : EnWrite) (e : Byte × Byte) : l.foldl (fun (acc : Nat × Byte × Byte) x =>
      (a, (acc.2.1 &&& ~~~x.2.2) ||| (x.2.1 &&& x.2.2), acc.2.2 ||| x.2.2)) (a, e)
      = (a, l.foldl (fun acc x => ((acc.1 &&& ~~~x.2.2) ||| (x.2.1 &&& x.2.2), acc.2 ||| x.2.2)) e) := by
    induction l generalizing e with
    | nil => rfl
    | cons x l ih => exact ih _
  exact List.map_congr_left fun a _ => tagged a _ (0#8, 0#8)

theorem mergeWrites_keys (w : EnWrite) : (mergeWrites w).map Prod.fst = (w.map Prod.fst).dedup := by
  rw [mergeWrites_eq, List.map_map]
  exact List.map_id _

theorem mergeWrites_nodup (w : EnWrite) : ((mergeWrites w).map Prod.fst).Nodup := mergeWrites_keys w ▸ List.nodup_dedup _

theorem mem_mergeWrites_keys {w : EnWrite} {x : Nat × Byte × Byte} (h : x ∈ mergeWrites w) : ∃ y ∈ w, y.1 = x.1 := by
  have := List.mem_map_of_mem (f := Prod.fst) h
  rw [mergeWrites_keys, List.mem_dedup] at this
  exact List.mem_map.1 this

theorem look_mergeWrites {w : EnWrite} {a : Nat} (h : a ∈ w.map Prod.fst) : look a (mergeWrites w) = some (w.mergedByte a) := by
  refine look_of_mem (mergeWrites_nodup w) ?_
  rw [mergeWrites_eq]
  exact List.mem_map_of_mem (f := fun a => (a, w.mergedByte a)) (List.mem_dedup.2 h)

/-- The last whole byte stands. -/
theorem mergedByte_last {u w : EnWrite} {a : Nat} (v : Byte) (h : a ∉ w.map Prod.fst) : (u ++ (a, v, fullMask) :: w).mergedByte a = (v, fullMask) := by
  have later : (w.filter fun x => x.1 == a) = [] := List.filter_eq_nil_iff.2 fun x hx here =>
    h (beq_iff_eq.1 here ▸ List.mem_map_of_mem (f := Prod.fst) hx)
  have covered (e : Byte × Byte) : ((e.1 &&& ~~~fullMask) ||| (v &&& fullMask), e.2 ||| fullMask) = (v, fullMask) := by
    rw [show (e.1 &&& ~~~fullMask) ||| (v &&& fullMask) = v from writtenByte_full v e.1, show fullMask = BitVec.allOnes 8 from rfl,
      BitVec.or_allOnes]
  unfold EnWrite.mergedByte
  rw [List.filter_append, List.filter_cons_of_pos (by simp), later, List.foldl_append, List.foldl_cons, List.foldl_nil]
  exact covered _

/-- A byte that one entry writes. -/
theorem mergedByte_only {w : EnWrite} (nodup : (w.map Prod.fst).Nodup) {a : Nat} {e : Byte × Byte} (h : look a w = some e) :
    w.mergedByte a = (e.1 &&& e.2, e.2) := by
  have single : (w.filter fun x => x.1 == a) = [(a, e)] := by
    induction w with
    | nil => cases h
    | cons x w ih =>
      obtain ⟨k, d⟩ := x
      rw [List.map_cons, List.nodup_cons] at nodup
      by_cases here : k = a
      · rw [look, if_pos here, Option.some.injEq] at h
        rw [List.filter_cons_of_pos (by simpa using here), h, here, List.filter_eq_nil_iff.2 fun x hx there => ?_]
        exact nodup.1 (List.mem_map.2 ⟨x, hx, (beq_iff_eq.1 there).trans here.symm⟩)
      · rw [look, if_neg here] at h
        rw [List.filter_cons_of_neg (by simpa using here), ih nodup.2 h]
  unfold EnWrite.mergedByte
  rw [single, List.foldl_cons, List.foldl_nil]
  simp

/-! ## The bytes of a store (R321, R323) -/

/-- The bytes of a store that have an enabled bit. -/
def LaneStore.bytes (x : LaneStore) : EnWrite := (x.tgt.write x.val x.mask).filter fun y => y.2.2 != 0#8

/-- A store to this device's memory, in a page that is cached and holds no sync block. -/
structure NearStore (x : LaneStore) (pa : Nat) : Prop where
  loc : x.tgt.loc = .plain pa
  inside : pa + x.tgt.n ≤ 2 ^ 46
  cached : x.tgt.uncached = false
  unsynced : x.tgt.sync = false

section
variable {x : LaneStore} {pa : Nat} (h : NearStore x pa)
include h

theorem NearStore.bytes_eq : x.bytes = ((List.range x.tgt.n).map fun i =>
    (pa + i, BitVec.ofNat 8 (x.val / 2 ^ (8 * i)), BitVec.ofNat 8 (x.mask / 2 ^ (8 * i)))).filter fun y => y.2.2 != 0#8 := by
  unfold LaneStore.bytes Tgt.write
  rw [h.loc]

theorem NearStore.mem_bytes {y : Nat × Byte × Byte} : y ∈ x.bytes ↔ ∃ i, i < x.tgt.n
    ∧ y = (pa + i, BitVec.ofNat 8 (x.val / 2 ^ (8 * i)), BitVec.ofNat 8 (x.mask / 2 ^ (8 * i))) ∧ BitVec.ofNat 8 (x.mask / 2 ^ (8 * i)) ≠ 0#8 := by
  rw [h.bytes_eq, List.mem_filter, List.mem_map]
  constructor
  · rintro ⟨⟨i, hi, rfl⟩, on⟩
    exact ⟨i, List.mem_range.1 hi, rfl, bne_iff_ne.1 on⟩
  · rintro ⟨i, hi, rfl, on⟩
    exact ⟨⟨i, List.mem_range.2 hi, rfl⟩, bne_iff_ne.2 on⟩

theorem NearStore.bytes_nodup : (x.bytes.map Prod.fst).Nodup := by
  have all : (((List.range x.tgt.n).map fun i =>
      (pa + i, BitVec.ofNat 8 (x.val / 2 ^ (8 * i)), BitVec.ofNat 8 (x.mask / 2 ^ (8 * i)))).map Prod.fst).Nodup := by
    rw [List.map_map]
    exact List.nodup_range.map fun i j same => Nat.add_left_cancel same
  rw [h.bytes_eq]
  exact all.sublist (List.filter_sublist.map _)

theorem NearStore.bytes_inside {y : Nat × Byte × Byte} (hy : y ∈ x.bytes) : pa ≤ y.1 ∧ y.1 < pa + x.tgt.n ∧ isRemoteWord (y.1 / 4) = false
    ∧ y.2.2 ≠ 0#8 := by
  obtain ⟨i, hi, rfl, on⟩ := h.mem_bytes.1 hy
  have := h.inside
  exact ⟨Nat.le_add_right .., Nat.add_lt_add_left hi pa, isRemoteWord_near (by omega), on⟩

/-- How a store to memory that is neither uncached nor in a sync page reaches it. -/
theorem NearStore.parts (bits : Bool) : x.parts bits = [(.far, []), (if bits then .narrow else .plain, x.bytes)] := by
  have far : (x.bytes.filter fun y => isRemoteWord (y.1 / 4)) = [] :=
    List.filter_eq_nil_iff.2 fun y hy => by rw [(h.bytes_inside hy).2.2.1]; exact Bool.false_ne_true
  have near : (x.bytes.filter fun y => !isRemoteWord (y.1 / 4)) = x.bytes :=
    List.filter_eq_self.2 fun y hy => by rw [(h.bytes_inside hy).2.2.1]; rfl
  unfold LaneStore.parts
  rw [show ((x.tgt.write x.val x.mask).filter fun y => y.2.2 != 0#8) = x.bytes from rfl]
  simp only [h.loc, h.cached, h.unsynced, List.partition_eq_filter_filter, far, Bool.false_eq_true, if_false]
  exact congrArg (fun w => [(StorePath.far, []), (if bits then StorePath.narrow else .plain, w)]) near

end

/-! ## A pass of stores (R81, R183) -/

/-- Where no granule is sealed, every home takes the stores of a pass. -/
theorem acceptStores_near {s : State} (seals : ∀ d, (s.die d).seals = []) (bits : Bool) {xs : List LaneStore} (near : ∀ x ∈ xs, ∃ pa, NearStore x pa) :
    ∃ sigs, acceptStores s xs bits
      = (⟨sigs, none⟩, xs.flatMap fun x => [(.far, []), (if bits then .narrow else .plain, x.bytes)], s) := by
  induction xs using List.reverseRecOn with
  | nil => exact ⟨[], rfl⟩
  | append_singleton xs x ih =>
    obtain ⟨pa, h⟩ := near x (by simp)
    obtain ⟨sigs, taken⟩ := ih fun y hy => near y (List.mem_append_left _ hy)
    have free : meetsSeal s x.bytes = (false, s) := meetsSeal_unsealed seals fun y hy => (h.bytes_inside hy).2.2.1
    refine ⟨sigs ++ sigAddrs x.tgt x.bytes, ?_⟩
    unfold acceptStores at taken ⊢
    rw [List.foldl_append, taken, List.foldl_cons, List.foldl_nil, List.flatMap_append, List.flatMap_singleton, ← h.parts bits]
    simp only [h.loc, show ((x.tgt.write x.val x.mask).filter fun y => y.2.2 != 0#8) = x.bytes from rfl, free, Bool.false_or, ite_self,
      Bool.false_eq_true, if_false]

/-- What the plain and narrow stores of a pass write, one entry for each byte. -/
def passBytes (xs : List LaneStore) : EnWrite := mergeWrites (xs.flatMap LaneStore.bytes)

theorem passBytes_nodup (xs : List LaneStore) : ((passBytes xs).map Prod.fst).Nodup := mergeWrites_nodup _

theorem onPath_near (xs : List LaneStore) (q : StorePath) (p : StorePath → Bool) :
    onPath (xs.flatMap fun x => [(.far, []), (q, x.bytes)]) p = if p q then xs.flatMap LaneStore.bytes else [] := by
  unfold onPath
  induction xs with
  | nil => simp
  | cons x xs ih =>
    rw [List.flatMap_cons, List.filter_append, List.flatMap_append, ih]
    cases hq : p q <;> cases hf : p .far <;> simp [hq, hf]

/-- Words that the stores of a pass write whole in the core's L1. -/
def passWhole (xs : List LaneStore) (bits : Bool) : List Nat :=
  wholeWords (xs.flatMap fun x => [(.far, []), (if bits then .narrow else .plain, x.bytes)])

/-- A pass of stores to this device's memory: whole words in the core's L1, and the rest with its enables to the homes. -/
theorem storePass_near {s : State} (seals : ∀ d, (s.die d).seals = []) (c : Nat) (bits : Bool) {xs : List LaneStore}
    (near : ∀ x ∈ xs, ∃ pa, NearStore x pa) : ∃ sigs, storePass s c xs bits = (⟨sigs, none⟩,
      byLine (((passBytes xs).words.filter fun x => (passWhole xs bits).contains x.1).foldl (fun s x => storeL1 s c x.1 x.2.1) s)
        ((passBytes xs).filter fun x => !(passWhole xs bits).contains (x.1 / 4)) fun s w => storeEnabled s c w) := by
  obtain ⟨sigs, accepted⟩ := acceptStores_near seals bits near
  refine ⟨sigs, ?_⟩
  have none (p : StorePath → Bool) (h : p (if bits then .narrow else .plain) = false) :
      mergeWrites (onPath (xs.flatMap fun x => [(.far, []), (if bits then StorePath.narrow else .plain, x.bytes)]) p) = [] := by
    rw [onPath_near, h]
    rfl
  have both : onPath (xs.flatMap fun x => [(.far, []), (if bits then StorePath.narrow else .plain, x.bytes)])
      (fun p => p == .plain || p == .narrow) = xs.flatMap LaneStore.bytes := by
    rw [onPath_near, if_pos (by cases bits <;> rfl)]
  unfold storePass
  simp only [accepted, none (· == .host) (by cases bits <;> rfl), none (· == .far) (by cases bits <;> rfl),
    none (· == .uncached) (by cases bits <;> rfl), none (· == .sync) (by cases bits <;> rfl), both, List.isEmpty_nil, if_true]
  rfl

/-! ## Whole words in an L1 (R183) -/

/-- Nothing changes but the L1 of core `c`. -/
structure L1Only (s t : State) (c : Nat) : Prop where
  same : { t with cores := s.cores } = s
  count : t.cores.length = s.cores.length
  others : ∀ e, e ≠ c → (t.core e).l1 = (s.core e).l1

theorem L1Only.refl (s : State) (c : Nat) : L1Only s s c := ⟨rfl, rfl, fun _ _ => rfl⟩

theorem L1Only.trans {s t u : State} {c : Nat} (h : L1Only s t c) (k : L1Only t u c) : L1Only s u c := by
  have later := h.same
  rw [← k.same] at later
  exact ⟨later, k.count.trans h.count, fun e he => (k.others e he).trans (h.others e he)⟩

theorem L1Only.homes {s t : State} {c : Nat} (h : L1Only s t c) : HomesKept s t :=
  ⟨(congrArg State.dram h.same :), (congrArg State.l2 h.same :), (congrArg State.registrants h.same :), (congrArg State.poison h.same :)⟩

theorem L1Only.dies {s t : State} {c : Nat} (h : L1Only s t c) : t.dies = s.dies := (congrArg State.dies h.same :)

/-- A core holds a word with a value that its home is to learn: dirty, and registered or about to be. -/
def HoldsDirty (s : State) (c w : Nat) (v : Word) : Prop := ∃ y, l1Word s c w = some y ∧ y.val = v ∧ y.dirty = true ∧ (y.reg = true ∨ y.pend = true)

theorem setL1_core {s : State} {c : Nat} (hc : c < s.cores.length) (w : Nat) (x : L1Word) :
    ((setL1 s c w x).core c).l1 = put w x (s.core c).l1 := by
  unfold setL1
  rw [State.core_modCore_self s hc]

theorem l1Word_setL1_self {s : State} {c : Nat} (hc : c < s.cores.length) (w : Nat) (x : L1Word) : l1Word (setL1 s c w x) c w = some x := by
  unfold l1Word
  rw [setL1_core hc, look_put_self]

theorem l1Word_setL1_ne {s : State} {c : Nat} (hc : c < s.cores.length) {w k : Nat} (h : k ≠ w) (x : L1Word) :
    l1Word (setL1 s c w x) c k = l1Word s c k := by
  unfold l1Word
  rw [setL1_core hc, look_put_ne h]

theorem L1Only.setL1 (s : State) (c w : Nat) (x : L1Word) : L1Only s (setL1 s c w x) c :=
  ⟨rfl, List.length_set, fun e he => by
    unfold Machine.setL1
    rw [State.core_modCore_ne s he]⟩

/-- An L1 with a free line makes no room. -/
theorem fillL1_free {s : State} {c : Nat} (room : (s.core c).l1.length < l1Lines) (w : Nat) (x : L1Word) : fillL1 s c w x = setL1 s c w x := by
  unfold fillL1 roomL1
  simp only [List.length_map, room, true_or, if_true]

/-- A whole word stored in an L1 with a free line. -/
theorem storeL1_stores {s : State} {c : Nat} (room : (s.core c).l1.length < l1Lines) (w : Nat) (v : Word) :
    ∃ x, storeL1 s c w v = setL1 s c w x ∧ x.val = v ∧ x.dirty = true ∧ (x.reg = true ∨ x.pend = true) := by
  unfold storeL1
  split
  · rename_i x _
    refine ⟨_, rfl, rfl, rfl, ?_⟩
    cases hr : x.reg <;> simp
  · exact ⟨_, fillL1_free room .., rfl, rfl, .inr rfl⟩

/-- What whole words stored in the L1 of core `c` leave: those words, dirty, and every other word as it was. -/
structure WordsHeld (s t : State) (c : Nat) (ws : List (Nat × Word × Word)) : Prop extends L1Only s t c where
  room : (t.core c).l1.length ≤ (s.core c).l1.length + ws.length
  kept : ∀ k, k ∉ ws.map Prod.fst → l1Word t c k = l1Word s c k
  held : ∀ x ∈ ws, HoldsDirty t c x.1 x.2.1

theorem WordsHeld.foldl_storeL1 {c : Nat} {ws : List (Nat × Word × Word)} (nodup : (ws.map Prod.fst).Nodup) {s : State} (hc : c < s.cores.length)
    (room : (s.core c).l1.length + ws.length ≤ l1Lines) : WordsHeld s (ws.foldl (fun s x => storeL1 s c x.1 x.2.1) s) c ws := by
  induction ws generalizing s with
  | nil => exact ⟨.refl s c, Nat.le_refl _, fun _ _ => rfl, fun _ h => by cases h⟩
  | cons e ws ih =>
    rw [List.map_cons, List.nodup_cons] at nodup
    rw [List.length_cons] at room
    obtain ⟨x, stored, val, dirty, known⟩ := storeL1_stores (by omega : (s.core c).l1.length < l1Lines) e.1 e.2.1
    have one : L1Only s (setL1 s c e.1 x) c := .setL1 ..
    have length : ((setL1 s c e.1 x).core c).l1.length ≤ (s.core c).l1.length + 1 := by
      rw [setL1_core hc]
      exact put_length_le ..
    have rest := ih nodup.2 (s := setL1 s c e.1 x) (one.count ▸ hc) (by omega)
    rw [List.foldl_cons, stored]
    refine ⟨one.trans rest.toL1Only, ?_, fun k hk => ?_, fun y hy => ?_⟩
    · have := rest.room
      rw [List.length_cons]
      omega
    · rw [List.map_cons, List.mem_cons, not_or] at hk
      exact (rest.kept k hk.2).trans (l1Word_setL1_ne hc hk.1 x)
    · rcases List.mem_cons.1 hy with rfl | hy
      · exact ⟨x, (rest.kept _ nodup.1).trans (l1Word_setL1_self hc ..), val, dirty, known⟩
      · exact rest.held y hy

/-! ## Stores of whole words (R183, R187, R321) -/

/-- A store of all bits of whole words of plain memory. -/
structure WordStore (x : LaneStore) (pa : Nat) : Prop extends NearStore x pa where
  aligned : pa % 4 = 0
  whole : x.tgt.n % 4 = 0
  size : x.tgt.n ≤ 16
  full : x.mask = 2 ^ (8 * x.tgt.n) - 1

theorem WordStore.of_plainWords {x : LaneStore} {pa : Nat} (full : x.mask = 2 ^ (8 * x.tgt.n) - 1) (h : PlainWords x.tgt pa) : WordStore x pa := by
  obtain ⟨loc, inside, aligned, size, cached, unsynced⟩ := h
  refine ⟨⟨loc, inside, cached, unsynced⟩, ?_, ?_, ?_, full⟩
  all_goals rcases size with size | size | size <;> rw [size] at aligned <;> omega

theorem fullByte {n i : Nat} (h : i < n) : BitVec.ofNat 8 ((2 ^ (8 * n) - 1) / 2 ^ (8 * i)) = fullMask := by
  refine BitVec.eq_of_getLsbD_eq fun j hj => ?_
  rw [BitVec.getLsbD_ofNat, decide_eq_true hj, Bool.true_and, Nat.testBit_div_two_pow, Nat.testBit_two_pow_sub_one, decide_eq_true (by omega)]
  revert j
  decide

/-- A byte that a store of whole words writes. -/
theorem WordStore.look_bytes {x : LaneStore} {pa : Nat} (h : WordStore x pa) {i : Nat} (hi : i < x.tgt.n) :
    look (pa + i) x.bytes = some (BitVec.ofNat 8 (x.val / 2 ^ (8 * i)), fullMask) := by
  refine look_of_mem h.bytes_nodup (h.mem_bytes.2 ⟨i, hi, ?_, ?_⟩)
  · rw [h.full, fullByte hi]
  · rw [h.full, fullByte hi]
    decide

theorem WordStore.full_bytes {x : LaneStore} {pa : Nat} (h : WordStore x pa) {y : Nat × Byte × Byte} (hy : y ∈ x.bytes) :
    pa ≤ y.1 ∧ y.1 < pa + x.tgt.n ∧ y.2.2 = fullMask := by
  obtain ⟨i, hi, rfl, -⟩ := h.mem_bytes.1 hy
  exact ⟨Nat.le_add_right .., Nat.add_lt_add_left hi pa, by rw [h.full, fullByte hi]⟩

/-- A store covers no byte of a word. -/
def LaneStore.Misses (x : LaneStore) (k : Nat) : Prop := ∀ pa, x.tgt.loc = .plain pa → 4 * k < pa ∨ pa + x.tgt.n ≤ 4 * k

/-- What stores of whole words leave: in each word that they cover, the value of the last one that covers it (R187). -/
structure WordsStored (s t : State) (c : Nat) (xs : List LaneStore) : Prop extends L1Only s t c where
  room : (t.core c).l1.length ≤ (s.core c).l1.length + 4 * xs.length
  kept : ∀ k, (∀ x ∈ xs, x.Misses k) → l1Word t c k = l1Word s c k
  last : ∀ ys x zs pa j, xs = ys ++ x :: zs → x.tgt.loc = .plain pa → 4 * j < x.tgt.n → (∀ z ∈ zs, z.Misses (pa / 4 + j)) →
    HoldsDirty t c (pa / 4 + j) (BitVec.ofNat 32 (x.val / 2 ^ (32 * j)))

theorem WordsStored.nil (s : State) (c : Nat) : WordsStored s s c [] :=
  ⟨.refl s c, Nat.le_refl _, fun _ _ => rfl, fun ys x zs _ _ h => by simp at h⟩

theorem HoldsDirty.congr {s t : State} {c k : Nat} {v : Word} (h : HoldsDirty s c k v) (same : l1Word t c k = l1Word s c k) : HoldsDirty t c k v := by
  unfold HoldsDirty
  rwa [same]

/-- Stores one after another. -/
theorem WordsStored.append {s t u : State} {c : Nat} {xs ys : List LaneStore} (h : WordsStored s t c xs) (k : WordsStored t u c ys) :
    WordsStored s u c (xs ++ ys) := by
  refine ⟨h.toL1Only.trans k.toL1Only, ?_, fun w miss => ?_, fun as x bs pa j split loc inside miss => ?_⟩
  · have := h.room
    have := k.room
    rw [List.length_append]
    omega
  · exact (k.kept w fun x hx => miss x (List.mem_append_right _ hx)).trans (h.kept w fun x hx => miss x (List.mem_append_left _ hx))
  · rcases List.append_eq_append_iff.1 split with ⟨ds, rfl, hys⟩ | ⟨ds, hxs, hbs⟩
    · exact k.last ds x bs pa j hys loc inside miss
    · cases ds with
      | nil =>
        rw [List.append_nil] at hxs
        exact k.last [] x bs pa j hbs.symm loc inside miss
      | cons d ds =>
        rw [List.cons_append, List.cons.injEq] at hbs
        obtain ⟨rfl, rfl⟩ := hbs
        exact (h.last as x ds pa j hxs loc inside fun z hz => miss z (List.mem_append_left _ hz)).congr
          (k.kept _ fun z hz => miss z (List.mem_append_right _ hz))

/-! ### One pass -/

theorem mem_words_keys {w : EnWrite} {k : Nat} : k ∈ w.words.map Prod.fst ↔ ∃ z ∈ w, z.1 / 4 = k := by
  rw [EnWrite.words_eq, List.map_map, show (Prod.fst ∘ fun k => (k, w.wordOf Prod.fst k, w.wordOf Prod.snd k)) = id from rfl, List.map_id,
    List.mem_dedup, List.mem_map]

theorem words_nodup (w : EnWrite) : (w.words.map Prod.fst).Nodup := by
  rw [EnWrite.words_eq, List.map_map, show (Prod.fst ∘ fun k => (k, w.wordOf Prod.fst k, w.wordOf Prod.snd k)) = id from rfl, List.map_id]
  exact List.nodup_dedup _

/-- A store of whole words names every bit of each word that it names. -/
theorem WordStore.words_full {x : LaneStore} {pa : Nat} (h : WordStore x pa) {y : Nat × Word × Word} (hy : y ∈ x.bytes.words) :
    y.2.2 = ~~~0#32 := by
  rw [EnWrite.words_eq, List.mem_map] at hy
  obtain ⟨k, hk, rfl⟩ := hy
  obtain ⟨z, hz, rfl⟩ := List.mem_map.1 (List.mem_dedup.1 hk)
  obtain ⟨low, high, -⟩ := h.full_bytes hz
  have := h.aligned
  have := h.whole
  refine BitVec.eq_of_getLsbD_eq fun i hi => ?_
  obtain ⟨j, hj, inside⟩ : ∃ j, 4 * (z.1 / 4) + i / 8 = pa + j ∧ j < x.tgt.n := ⟨4 * (z.1 / 4) + i / 8 - pa, by omega, by omega⟩
  rw [EnWrite.wordOf_getLsbD _ h.bytes_nodup _ hi, hj, h.look_bytes inside, BitVec.not_zero, BitVec.getLsbD_allOnes, decide_eq_true hi]
  have ones : ∀ b, b < 8 → fullMask.getLsbD b = true := by decide
  exact ones _ (Nat.mod_lt _ (by decide))

section
variable {xs : List LaneStore} (words : ∀ x ∈ xs, ∃ pa, WordStore x pa)
include words

/-- Stores of whole words alone leave nothing to carry home. -/
theorem passWhole_words {z : Nat × Byte × Byte} (hz : z ∈ passBytes xs) : z.1 / 4 ∈ passWhole xs false := by
  obtain ⟨y, hy, same⟩ := mem_mergeWrites_keys hz
  obtain ⟨x, hx, hyx⟩ := List.mem_flatMap.1 hy
  unfold passWhole wholeWords
  extract_lets full part
  have none : part = [] := by
    refine List.flatMap_eq_nil_iff.2 fun e he => ?_
    obtain ⟨x, hx, hex⟩ := List.mem_flatMap.1 he
    obtain ⟨pa, h⟩ := words x hx
    rcases List.mem_cons.1 hex with rfl | hex
    · rfl
    · obtain rfl := List.mem_singleton.1 hex
      refine List.map_eq_nil_iff.2 (List.filter_eq_nil_iff.2 fun y hy => ?_)
      rw [h.words_full hy, bne_self_eq_false]
      exact Bool.false_ne_true
  obtain ⟨pa, h⟩ := words x hx
  obtain ⟨e, he, key⟩ := List.mem_map.1 (mem_words_keys.2 ⟨y, hyx, rfl⟩)
  rw [none, List.mem_filter, List.mem_dedup, List.mem_flatMap, ← same]
  refine ⟨⟨(.plain, x.bytes), List.mem_filter.2 ⟨List.mem_flatMap.2 ⟨x, hx, by simp⟩, rfl⟩, ?_⟩, rfl⟩
  exact List.mem_map.2 ⟨e, List.mem_filter.2 ⟨he, by rw [h.words_full he, beq_self_eq_true]⟩, key⟩

theorem passWords_length : (passBytes xs).words.length ≤ 4 * xs.length := by
  have sub : (passBytes xs).words.map Prod.fst ⊆ xs.flatMap fun x => x.tgt.wordNames := fun k hk => by
    obtain ⟨z, hz, rfl⟩ := mem_words_keys.1 hk
    obtain ⟨y, hy, same⟩ := mem_mergeWrites_keys hz
    obtain ⟨x, hx, hyx⟩ := List.mem_flatMap.1 hy
    obtain ⟨pa, h⟩ := words x hx
    obtain ⟨low, high, -⟩ := h.full_bytes hyx
    refine List.mem_flatMap.2 ⟨x, hx, ?_⟩
    unfold Tgt.wordNames ceilDiv
    rw [h.loc]
    exact List.mem_map.2 ⟨z.1 / 4 - pa / 4, List.mem_range.2 (by have := h.aligned; have := h.whole; omega), by omega⟩
  have each : ∀ n ∈ xs.map fun x => x.tgt.wordNames.length, n ≤ 4 := fun n hn => by
    obtain ⟨x, hx, rfl⟩ := List.mem_map.1 hn
    obtain ⟨pa, h⟩ := words x hx
    unfold Tgt.wordNames ceilDiv
    rw [h.loc]
    simp only [List.length_map, List.length_range]
    have := h.aligned
    have := h.size
    omega
  calc (passBytes xs).words.length = ((passBytes xs).words.map Prod.fst).length := (List.length_map _).symm
    _ ≤ (xs.flatMap fun x => x.tgt.wordNames).length := ((words_nodup _).subperm sub).length_le
    _ = (xs.map fun x => x.tgt.wordNames.length).sum := List.length_flatMap
    _ ≤ xs.length * 4 := by simpa using List.sum_le_card_nsmul _ 4 each
    _ = 4 * xs.length := Nat.mul_comm ..

/-- The byte that the last store that covers it gives. -/
theorem look_passBytes_last {ys zs : List LaneStore} {x : LaneStore} {pa i : Nat} (split : xs = ys ++ x :: zs) (loc : x.tgt.loc = .plain pa)
    (hi : i < x.tgt.n) (miss : ∀ z ∈ zs, z.Misses ((pa + i) / 4)) :
    look (pa + i) (passBytes xs) = some (BitVec.ofNat 8 (x.val / 2 ^ (8 * i)), fullMask) := by
  have store {y : LaneStore} (hy : y ∈ ys ++ x :: zs) := words y (split ▸ hy)
  obtain ⟨pa', h⟩ := store (List.mem_append_right _ List.mem_cons_self)
  obtain rfl : pa = pa' := by
    have := loc.symm.trans h.loc
    injection this
  obtain ⟨as, bs, here⟩ := List.append_of_mem (look_mem (h.look_bytes hi))
  have nodup := h.bytes_nodup
  rw [here, List.map_append, List.map_cons] at nodup
  have later : pa + i ∉ (bs ++ zs.flatMap LaneStore.bytes).map Prod.fst := by
    rw [List.map_append, List.mem_append, not_or]
    refine ⟨(List.nodup_cons.1 (List.nodup_append.1 nodup).2.1).1, fun mem => ?_⟩
    obtain ⟨y, hy, same⟩ := List.mem_map.1 mem
    obtain ⟨z, hz, hyz⟩ := List.mem_flatMap.1 hy
    obtain ⟨pz, hz'⟩ := store (List.mem_append_right _ (List.mem_cons_of_mem _ hz))
    obtain ⟨low, high, -⟩ := hz'.full_bytes hyz
    have := miss z hz pz hz'.loc
    have := hz'.aligned
    have := hz'.whole
    omega
  have all : xs.flatMap LaneStore.bytes = (ys.flatMap LaneStore.bytes ++ as) ++ (pa + i, BitVec.ofNat 8 (x.val / 2 ^ (8 * i)), fullMask)
      :: (bs ++ zs.flatMap LaneStore.bytes) := by
    rw [split, List.flatMap_append, List.flatMap_cons, here]
    simp only [List.append_assoc, List.cons_append]
  unfold passBytes
  rw [look_mergeWrites (by rw [all]; simp), all, mergedByte_last _ later]

/-- The word that the last store that covers it gives. -/
theorem wordOf_passBytes_last {ys zs : List LaneStore} {x : LaneStore} {pa j : Nat} (split : xs = ys ++ x :: zs) (loc : x.tgt.loc = .plain pa)
    (aligned : pa % 4 = 0) (hj : 4 * j + 4 ≤ x.tgt.n) (miss : ∀ z ∈ zs, z.Misses (pa / 4 + j)) :
    (passBytes xs).wordOf Prod.fst (pa / 4 + j) = BitVec.ofNat 32 (x.val / 2 ^ (32 * j)) := by
  refine BitVec.eq_of_getLsbD_eq fun i hi => ?_
  have byte := look_passBytes_last words split loc (by omega : 4 * j + i / 8 < x.tgt.n)
    (by rwa [show (pa + (4 * j + i / 8)) / 4 = pa / 4 + j by omega])
  rw [EnWrite.wordOf_getLsbD _ (passBytes_nodup xs) _ hi, show 4 * (pa / 4 + j) + i / 8 = pa + (4 * j + i / 8) by omega, byte, Option.map_some,
    Option.getD_some, BitVec.getLsbD_ofNat, BitVec.getLsbD_ofNat, Nat.testBit_div_two_pow, Nat.testBit_div_two_pow, decide_eq_true hi,
    decide_eq_true (Nat.mod_lt i (by decide)), show i % 8 + 8 * (4 * j + i / 8) = i + 32 * j by omega]

/-- A pass of stores of whole words. -/
theorem storePass_words {s : State} {c : Nat} (hc : c < s.cores.length) (seals : ∀ d, (s.die d).seals = [])
    (room : (s.core c).l1.length + 4 * xs.length ≤ l1Lines) :
    ∃ sigs t, storePass s c xs false = (⟨sigs, none⟩, t) ∧ WordsStored s t c xs := by
  obtain ⟨sigs, eq⟩ := storePass_near seals c false fun x hx => (words x hx).imp fun _ h => h.toNearStore
  have whole : ((passBytes xs).words.filter fun x => (passWhole xs false).contains x.1) = (passBytes xs).words :=
    List.filter_eq_self.2 fun y hy => by
      obtain ⟨z, hz, key⟩ := mem_words_keys.1 (List.mem_map_of_mem (f := Prod.fst) hy)
      exact List.contains_iff_mem.2 (key ▸ passWhole_words words hz)
  have rest : ((passBytes xs).filter fun x => !(passWhole xs false).contains (x.1 / 4)) = [] :=
    List.filter_eq_nil_iff.2 fun z hz => by
      rw [List.contains_iff_mem.2 (passWhole_words words hz)]
      exact Bool.false_ne_true
  have length := passWords_length words
  have held := WordsHeld.foldl_storeL1 (words_nodup (passBytes xs)) hc (by omega)
  rw [whole, rest] at eq
  refine ⟨sigs, _, eq, held.toL1Only, held.room.trans (by omega), fun k miss => held.kept k fun hk => ?_,
    fun ys x zs pa j split loc inside miss => ?_⟩
  · obtain ⟨z, hz, rfl⟩ := mem_words_keys.1 hk
    obtain ⟨y, hy, same⟩ := mem_mergeWrites_keys hz
    obtain ⟨x, hx, hyx⟩ := List.mem_flatMap.1 hy
    obtain ⟨pa, h⟩ := words x hx
    obtain ⟨low, high, -⟩ := h.full_bytes hyx
    have := miss x hx pa h.loc
    have := h.aligned
    have := h.whole
    omega
  · obtain ⟨pa', h⟩ := words x (split ▸ List.mem_append_right _ List.mem_cons_self)
    obtain rfl : pa = pa' := by
      have := loc.symm.trans h.loc
      injection this
    have aligned := h.aligned
    have covers : 4 * j + 4 ≤ x.tgt.n := by
      have := h.whole
      omega
    obtain ⟨y, hy, key⟩ := List.mem_map.1 (mem_words_keys.2 ⟨_, look_mem (look_passBytes_last words split loc inside
      (by rwa [show (pa + 4 * j) / 4 = pa / 4 + j by omega])), show (pa + 4 * j) / 4 = pa / 4 + j by omega⟩)
    have dirty := held.held y hy
    rw [EnWrite.words_eq, List.mem_map] at hy
    obtain ⟨k, -, rfl⟩ := hy
    obtain rfl : k = pa / 4 + j := key
    rwa [wordOf_passBytes_last words split loc aligned covers miss] at dirty

end

/-! ### All passes of an instruction (R324) -/

/-- One pass of an instruction's stores, after the sectors and the refusals of those before it. -/
def storeStep (c : Nat) (bits : Bool) (acc : List Nat × Option (Nat × Nat) × State) (pass : List LaneStore) :
    List Nat × Option (Nat × Nat) × State :=
  (acc.1 ++ (storePass acc.2.2 c pass bits).1.sigs, acc.2.1 <|> (storePass acc.2.2 c pass bits).1.sealedAt, (storePass acc.2.2 c pass bits).2)

theorem foldl_storeStep {c : Nat} {passes : List (List LaneStore)} (words : ∀ p ∈ passes, ∀ x ∈ p, ∃ pa, WordStore x pa) {s : State}
    (hc : c < s.cores.length) (seals : ∀ d, (s.die d).seals = []) (room : (s.core c).l1.length + 4 * passes.flatten.length ≤ l1Lines)
    (sigs : List Nat) : ∃ sigs' t, passes.foldl (storeStep c false) (sigs, none, s) = (sigs', none, t) ∧ WordsStored s t c passes.flatten := by
  induction passes generalizing s sigs with
  | nil => exact ⟨sigs, s, rfl, .nil s c⟩
  | cons p passes ih =>
    rw [List.flatten_cons, List.length_append] at room
    obtain ⟨new, t, pass, stored⟩ := storePass_words (words p List.mem_cons_self) hc seals (by omega)
    have still (d : Nat) : (t.die d).seals = [] := by
      have := seals d
      unfold State.die at this ⊢
      rwa [stored.dies]
    obtain ⟨sigs', u, rest, all⟩ := ih (fun q hq => words q (List.mem_cons_of_mem _ hq)) (stored.count ▸ hc) still
      (by have := stored.room; omega) (sigs ++ new)
    refine ⟨sigs', u, ?_, stored.append all⟩
    rw [List.foldl_cons, ← rest, storeStep, pass]
    rfl

/-- The stores of an instruction whose team waits for no load. -/
theorem doStores_eq {s : State} {t : Team} (ht : s.teams[s.cur]? = some t) (loads : t.loads = []) {xs : List LaneStore} {bits : Bool} {sigs : List Nat}
    {u : State} (run : (passesOf LaneStore.lane xs).foldl (storeStep t.coreNo bits) ([], none, s) = (sigs, none, u)) :
    doStores s xs bits = u.modTeam u.cur fun t => t.insertSigs sigs := by
  have settled : settleWords s s.cur (xs.flatMap fun x => x.tgt.wordNames) = s := settleLoads_none ht (by rw [loads]; rfl)
  unfold doStores
  rw [ht]
  simp only [settled]
  rw [show (fun (acc : List Nat × Option (Nat × Nat) × State) pass => (acc.1 ++ (storePass acc.2.2 t.coreNo pass bits).1.sigs,
    acc.2.1 <|> (storePass acc.2.2 t.coreNo pass bits).1.sealedAt, (storePass acc.2.2 t.coreNo pass bits).2)) = storeStep t.coreNo bits from rfl, run]

theorem wordStoresStayInTheL1 : WordStoresStayInTheL1 := by
  intro s w t xs ht loads hc seals room plain hw
  have words : ∀ x ∈ xs, ∃ pa, WordStore x pa := fun x hx => (plain x hx).2.imp fun _ h => .of_plainWords (plain x hx).1 h
  have flat : (passesOf LaneStore.lane xs).flatten = xs := List.flatten_splitBy ..
  obtain ⟨sigs, u, run, stored⟩ := foldl_storeStep (passes := passesOf LaneStore.lane xs)
    (fun p hp x hx => words x (flat ▸ List.mem_flatten_of_mem hp hx)) hc seals (by rwa [flat]) []
  rw [flat] at stored
  obtain rfl : w = u.modTeam u.cur fun t => t.insertSigs sigs := hw.trans (doStores_eq ht loads run)
  refine ⟨stored.homes, stored.others, stored.kept, fun ys x zs pa j split loc inside miss => ?_⟩
  obtain ⟨-, pa', plainPa⟩ := plain x (split ▸ List.mem_append_right _ List.mem_cons_self)
  obtain ⟨loc', -, aligned, size, -⟩ := plainPa
  obtain rfl : pa = pa' := by
    have := loc.symm.trans loc'
    injection this
  have word : pa % 4 = 0 := by rcases size with h | h | h <;> rw [h] at aligned <;> omega
  refine stored.last ys x zs pa j split loc inside fun z hz pz locz => ?_
  have := miss z hz pz locz
  omega

/-! ## A store with enables (R91, R321, R323) -/

/-- A write in one line is one request. -/
theorem byLine_one {w : EnWrite} {l : Nat} (named : w ≠ []) (line : ∀ x ∈ w, x.1 / 128 = l) (s : State) (send : State → EnWrite → State) :
    byLine s w send = send s w := by
  have lines : (w.map fun x => x.1 / 128).dedup = [l] :=
    dedup_of_all_eq (fun y hy => by obtain ⟨x, hx, rfl⟩ := List.mem_map.1 hy; exact line x hx) (by simpa using named)
  unfold byLine
  rw [lines, List.foldl_cons, List.foldl_nil, List.filter_eq_self.2 fun x hx => beq_iff_eq.2 (line x hx)]

/-- A write that finds the homes as they were. -/
theorem SameHomes.merged {s t u : State} {sec n : Nat} {w : EnWrite} (h : SameHomes s t) (k : Merged t u sec n w) : Merged s u sec n w :=
  ⟨h.toMemoryOnly.trans k.toMemoryOnly, fun a ha => by rw [k.bytes a (ha.imp id fun away => by rwa [h.places.place]), h.homeByte],
    fun b hb => by rw [k.others b hb, h.dram]⟩

theorem Merged.nil (s : State) (sec n : Nat) : Merged s s sec n [] := ⟨.update s .., fun _ _ => rfl, fun _ _ => rfl⟩

/-- Enabled bytes of a word that no core holds. -/
theorem Merged.storeEnabled {s : State} {c k sec n : Nat} {w : EnWrite} (part : PartOf sec w) (named : w ≠ []) (enabled : ∀ x ∈ w, x.2.2 ≠ 0#8)
    (word : ∀ x ∈ w, x.1 / 4 = k) (unheld : l1Word s c k = none) (unregistered : look k s.registrants = none)
    (spot : place s (32 * sec) = some n) (clean : homePoisoned s sec = false) : Merged s (storeEnabled s c w) sec n w := by
  have one : (w.map fun x => x.1 / 4).dedup = [k] :=
    dedup_of_all_eq (fun y hy => by obtain ⟨x, hx, rfl⟩ := List.mem_map.1 hy; exact word x hx) (by simpa using named)
  have heard := SameHomes.hear s c
  obtain ⟨u, hu⟩ : ∃ u, u = s.hear c := ⟨_, rfl⟩
  rw [← hu] at heard
  have absent : l1Word u c k = none := by
    rw [← unheld]
    unfold l1Word State.core
    rw [heard.cores]
  have free : look k u.registrants = none := by rw [heard.registrants, unregistered]
  have drained : drainWord u c k = u := by
    unfold drainWord
    rw [absent]
  have revoked : revoke u k = u := by
    unfold revoke
    rw [free]
  have eq : Machine.storeEnabled s c w = Machine.homeWrite (updateCan u c k (w.wordOf Prod.fst k) (w.wordOf Prod.snd k)) w true := by
    unfold Machine.storeEnabled
    rw [EnWrite.words_eq, one, ← hu]
    simp only [List.map_cons, List.map_nil, List.foldl_cons, List.foldl_nil, drained, revoked, free, absent, ite_self]
  have told := heard.trans (.updateCan u c k (w.wordOf Prod.fst k) (w.wordOf Prod.snd k))
  rw [eq]
  exact told.merged (.homeWrite part named enabled ((told.places.place _).trans spot) ((told.homePoisoned sec).trans clean))

/-! ### One store of at most a word -/

/-- What one store writes of a byte. -/
theorem NearStore.look_passBytes {x : LaneStore} {pa : Nat} (h : NearStore x pa) (a : Nat) :
    look a (passBytes [x]) = (look a x.bytes).map fun e => (e.1 &&& e.2, e.2) := by
  have all : [x].flatMap LaneStore.bytes = x.bytes := List.flatMap_singleton ..
  unfold passBytes
  rw [all]
  cases e : look a x.bytes with
  | some e' => rw [look_mergeWrites (List.mem_map_of_mem (f := Prod.fst) (look_mem e)), mergedByte_only h.bytes_nodup e, Option.map_some]
  | none =>
    refine look_eq_none fun key => ?_
    rw [mergeWrites_keys, List.mem_dedup, List.mem_map] at key
    obtain ⟨y, hy, rfl⟩ := key
    rw [look_of_mem h.bytes_nodup hy] at e
    cases e

section
variable {x : LaneStore} {pa : Nat} (h : NearStore x pa)
include h

theorem NearStore.look_bytes_outside {a : Nat} (out : a < pa ∨ pa + x.tgt.n ≤ a) : look a x.bytes = none :=
  look_eq_none fun key => by
    obtain ⟨y, hy, rfl⟩ := List.mem_map.1 key
    obtain ⟨low, high, -⟩ := h.bytes_inside hy
    omega

/-- A byte under a store: the enabled bits of its value, and its others. -/
theorem NearStore.writtenByte {i : Nat} (hi : i < x.tgt.n) (old : Byte) :
    writtenByte (look (pa + i) (passBytes [x])) old = (old &&& ~~~BitVec.ofNat 8 (x.mask / 2 ^ (8 * i)))
      ||| (BitVec.ofNat 8 (x.val / 2 ^ (8 * i)) &&& BitVec.ofNat 8 (x.mask / 2 ^ (8 * i))) := by
  rw [h.look_passBytes]
  by_cases off : BitVec.ofNat 8 (x.mask / 2 ^ (8 * i)) = 0#8
  · have absent : look (pa + i) x.bytes = none := look_eq_none fun key => by
      obtain ⟨y, hy, same⟩ := List.mem_map.1 key
      obtain ⟨j, -, rfl, on⟩ := h.mem_bytes.1 hy
      obtain rfl : j = i := Nat.add_left_cancel same
      exact on off
    rw [absent, off, Option.map_none, BitVec.and_zero, BitVec.or_zero, BitVec.not_zero, BitVec.and_allOnes, writtenByte_none]
  · rw [look_of_mem h.bytes_nodup (h.mem_bytes.2 ⟨i, hi, rfl, off⟩)]
    show (old &&& ~~~_) ||| (_ &&& _ &&& _) = _
    rw [BitVec.and_assoc, BitVec.and_self]

/-- The entries of one store. -/
theorem NearStore.passBytes_inside {y : Nat × Byte × Byte} (hy : y ∈ passBytes [x]) : pa ≤ y.1 ∧ y.1 < pa + x.tgt.n ∧ y.2.2 ≠ 0#8 := by
  have here := look_of_mem (passBytes_nodup [x]) hy
  rw [h.look_passBytes, Option.map_eq_some_iff] at here
  obtain ⟨e, he, eq⟩ := here
  obtain ⟨low, high, -, on⟩ := h.bytes_inside (look_mem he)
  exact ⟨low, high, by rwa [← eq]⟩

/-- A store that names every bit of a word covers the word. -/
theorem NearStore.covers {k : Nat} (full : x.bytes.wordOf Prod.snd k = ~~~0#32) {b : Nat} (hb : b < 4) :
    pa ≤ 4 * k + b ∧ 4 * k + b < pa + x.tgt.n ∧ BitVec.ofNat 8 (x.mask / 2 ^ (8 * (4 * k + b - pa))) = fullMask := by
  have bit (j : Nat) (hj : j < 8) : ((look (4 * k + b) x.bytes).map fun e => e.2.getLsbD j).getD false = true := by
    have := EnWrite.wordOf_getLsbD Prod.snd h.bytes_nodup k (by omega : 8 * b + j < 32)
    rw [full, BitVec.not_zero, BitVec.getLsbD_allOnes, decide_eq_true (by omega), show (8 * b + j) / 8 = b by omega,
      show (8 * b + j) % 8 = j by omega] at this
    exact this.symm
  cases e : look (4 * k + b) x.bytes with
  | none =>
    have := bit 0 (by decide)
    rw [e] at this
    cases this
  | some m =>
    rw [e] at bit
    obtain ⟨i, hi, eq, -⟩ := h.mem_bytes.1 (look_mem e)
    obtain ⟨address, entry⟩ := Prod.mk.inj eq
    rw [show 4 * k + b - pa = i by omega]
    refine ⟨by omega, by omega, BitVec.eq_of_getLsbD_eq fun j hj => ?_⟩
    have on : ∀ j, j < 8 → fullMask.getLsbD j = true := by decide
    rw [on j hj, ← bit j hj, entry]
    rfl

/-- A store of less than a word, or of bits, writes no word whole in the core's L1. -/
theorem NearStore.passWhole_narrow {bits : Bool} (size : x.tgt.n ≤ 4) (mask : x.mask < 2 ^ (8 * x.tgt.n))
    (narrow : x.mask ≠ 2 ^ 32 - 1 ∨ bits = true) : passWhole [x] bits = [] := by
  have part (k : Nat) (plain : bits = false) (full : x.bytes.wordOf Prod.snd k = ~~~0#32) : False := by
    have first := h.covers full (by decide : 0 < 4)
    have last := h.covers full (by decide : 3 < 4)
    have start : pa = 4 * k := by omega
    have four : x.tgt.n = 4 := by omega
    rw [four] at mask
    have byte (b : Nat) (hb : b < 4) : x.mask / 2 ^ (8 * b) % 256 = 255 := by
      obtain ⟨-, -, named⟩ := h.covers full hb
      rw [start, Nat.add_sub_cancel_left] at named
      exact congrArg BitVec.toNat named
    have b0 := byte 0 (by decide)
    have b1 := byte 1 (by decide)
    have b2 := byte 2 (by decide)
    have b3 := byte 3 (by decide)
    norm_num at b0 b1 b2 b3 mask narrow
    exact (narrow.resolve_right (by simp [plain])) (by omega)
  unfold passWhole wholeWords
  rw [List.flatMap_singleton, List.filter_eq_nil_iff]
  intro k hk
  exfalso
  rw [List.mem_dedup, List.mem_flatMap] at hk
  obtain ⟨e, he, hk⟩ := hk
  obtain ⟨he, plain⟩ := List.mem_filter.1 he
  rcases List.mem_cons.1 he with rfl | he
  · cases plain
  · obtain rfl := List.mem_singleton.1 he
    cases bits with
    | true => cases plain
    | false =>
      obtain ⟨y, hy, rfl⟩ := List.mem_map.1 hk
      obtain ⟨hy, full⟩ := List.mem_filter.1 hy
      rw [EnWrite.words_eq, List.mem_map] at hy
      obtain ⟨k, -, rfl⟩ := hy
      exact part k rfl (beq_iff_eq.1 full)

/-- The bytes of one aligned store of at most a word are part of a sector. -/
theorem NearStore.partOf (size : x.tgt.n = 1 ∨ x.tgt.n = 2 ∨ x.tgt.n = 4) (aligned : pa % x.tgt.n = 0) : PartOf (pa / 32) (passBytes [x]) where
  nodup := passBytes_nodup [x]
  keys y hy := by
    obtain ⟨low, high, -⟩ := h.passBytes_inside hy
    rcases size with n | n | n <;> rw [n] at aligned high <;> omega
  short := ⟨if pa % 32 = 0 then 31 else 0, by split <;> decide, fun y hy => by
    obtain ⟨low, high, -⟩ := h.passBytes_inside hy
    split <;> omega⟩

/-- A store with enables, of at most a word that no core holds. -/
theorem NearStore.merged {s : State} {c n : Nat} {bits : Bool} (size : x.tgt.n = 1 ∨ x.tgt.n = 2 ∨ x.tgt.n = 4) (aligned : pa % x.tgt.n = 0)
    (mask : x.mask < 2 ^ (8 * x.tgt.n)) (narrow : x.mask ≠ 2 ^ 32 - 1 ∨ bits = true) (seals : ∀ d, (s.die d).seals = [])
    (unheld : l1Word s c (pa / 4) = none) (unregistered : look (pa / 4) s.registrants = none) (spot : place s (32 * (pa / 32)) = some n)
    (clean : homePoisoned s (pa / 32) = false) :
    ∃ sigs t, storePass s c [x] bits = (⟨sigs, none⟩, t) ∧ Merged s t (pa / 32) n (passBytes [x]) := by
  obtain ⟨sigs, eq⟩ := storePass_near seals c bits fun y hy => ⟨pa, List.mem_singleton.1 hy ▸ h⟩
  have word : ∀ y ∈ passBytes [x], y.1 / 4 = pa / 4 := fun y hy => by
    obtain ⟨low, high, -⟩ := h.passBytes_inside hy
    rcases size with n | n | n <;> rw [n] at aligned high <;> omega
  have line : ∀ y ∈ passBytes [x], y.1 / 128 = pa / 128 := fun y hy => by
    have := word y hy
    omega
  rw [h.passWhole_narrow (by omega) mask narrow, List.filter_eq_nil_iff.2 fun y _ => by simp, List.foldl_nil,
    List.filter_eq_self.2 fun y _ => by simp] at eq
  refine ⟨sigs, _, eq, ?_⟩
  rcases Decidable.em (passBytes [x] = []) with none | named
  · rw [none]
    exact .nil s ..
  · rw [byLine_one named line]
    exact .storeEnabled (h.partOf size aligned) named (fun y hy => (h.passBytes_inside hy).2.2) word unheld unregistered spot clean

end

theorem narrowStoresGoToTheHome : NarrowStoresGoToTheHome := by
  intro s w c pa v mask t bits r loc size aligned near cached unsynced bound narrow seals unheld unregistered clean room stored
  have h : NearStore ⟨0, t, v, mask⟩ pa := ⟨loc, by
    show pa + t.n ≤ 2 ^ 46
    rcases size with n | n | n <;> rw [n] at aligned ⊢ <;> omega, cached, unsynced⟩
  obtain ⟨n, spot⟩ := Option.ne_none_iff_exists'.1 (place_of_clean clean)
  have there : place s pa = some n := (place_sector s (by omega)).trans spot
  obtain ⟨sigs, u, pass, merged⟩ := h.merged size aligned bound narrow seals unheld unregistered spot clean
  have eq : storeTgt s c t v mask bits = (⟨sigs, false⟩, u) := by
    unfold storeTgt
    rw [pass]
    rfl
  obtain ⟨rfl, rfl⟩ := Prod.mk.inj (eq.symm.trans stored)
  refine ⟨rfl, fun i hi => ?_, fun a out away => ?_, fun m hm b hb => ?_, merged.registrants, merged.teams, fun e => ?_⟩
  · have inside : (pa + i) / 32 = pa / 32 := by rcases size with n | n | n <;> rw [n] at aligned hi <;> omega
    rw [merged.bytes _ (.inl inside)]
    exact h.writtenByte hi _
  · rw [merged.bytes a (away.imp id fun other => there ▸ other), h.look_passBytes, h.look_bytes_outside out]
    rfl
  · obtain rfl : n = m := Option.some.inj (there.symm.trans hm)
    exact merged.others b hb
  · unfold State.core
    rw [merged.cores]

/-- Settles O26: whole words of plain memory pass by pass in the core's L1, and the enabled bits of a narrower store at its home. -/
theorem storesReachTheL1OrTheHome : Obligations.StoresReachTheL1OrTheHome := ⟨wordStoresStayInTheL1, narrowStoresGoToTheHome⟩

end Sys2Proof.Machine
end

section
/-! PROOF. REGION's checkpoint and the operand cache (R164, R167, R221, R264, R308 to R310). -/

namespace Sys2Proof.Machine

/-! ## The checks of R264 and the operand codes of a uniform instruction -/

/-- Where a form passes its checks, the same form with further registers fails only at one beyond the allotment. -/
theorem check_regs {t : Team} {f : Form} {x : Fields} {m : Nat} (h : check t f x false m = none) (no_regs : f.regs = [])
    (rs : List Nat) :
    check t { f with regs := rs } x false m = if rs.any (fun r => decide (t.allot ≤ r)) then some .regbound else none := by
  by_cases far : rs.any (fun r => decide (t.allot ≤ r))
  · rw [if_pos far]
    unfold check at h ⊢
    simp only [far, Bool.or_true, if_true]
    split at h
    · cases h
    next ill =>
    rw [if_neg ill]
    split at h
    · cases h
    next illop =>
    rw [if_neg (by exact illop)]
    split at h
    · cases h
    next priv =>
    rw [if_neg (by exact priv)]
  · rw [if_neg far]
    unfold check at h ⊢
    simp only [no_regs, List.any_nil] at h
    simp only [Bool.eq_false_iff.2 far]
    exact h

/-- The operand codes of a uniform instruction without REP are its fields. -/
theorem uniCodes_eq (t : Team) (d a b : Nat) : uniCodes t none d a b = ⟨d, a, b, 164⟩ := by
  simp [uniCodes, fieldsFor, Fields.codes, FieldAt.value]

/-! ## REGION (R167, R221, R308) -/

theorem mem_liveRegs {live : BitVec 160} {r : Nat} : r ∈ liveRegs live ↔ live.getLsbD r = true := by
  unfold liveRegs
  rw [List.mem_filter, List.mem_range]
  exact ⟨fun h => h.2, fun h => ⟨BitVec.lt_of_getLsbD h, h⟩⟩

/-- A table that lists a value of each of its keys. -/
theorem look_map_keys {α : Type} (g : Nat → α) (ks : List Nat) (k : Nat) :
    look k (ks.map fun j => (j, g j)) = if k ∈ ks then some (g k) else none := by
  induction ks with
  | nil => rfl
  | cons j js ih =>
    rw [List.map_cons, look, ih]
    by_cases h : j = k
    · subst h; simp
    · simp [h, Ne.symm h]

/-- REGBOUND's test of a REGION: too many registers, or one beyond the allotment. -/
theorem regionBound_iff {t : Team} {live : BitVec 160} : regionBound t live = true ↔
    t.regs.length / 8 < (liveRegs live).length ∨ ∃ r, live.getLsbD r = true ∧ t.regs.length ≤ r := by
  unfold regionBound Team.allot
  simp only [Bool.or_eq_true, decide_eq_true_eq, List.any_eq_true, mem_liveRegs]

/-- What a REGION's checkpoint holds (R167). -/
theorem Team.checkpoint_ckpt {t : Team} (user : t.priv = false) (live : BitVec 160) (head : Nat) :
    (t.checkpoint live head).ckpt
      = ⟨(liveRegs live).map fun r => (r, t.reg r), t.mask, t.stack, t.fibres, t.rng, head, true⟩ := by
  unfold Team.checkpoint
  rw [if_neg (by simp [user])]

/-- In privileged context there is none (R221). -/
theorem Team.checkpoint_priv {t : Team} (priv : t.priv = true) (live : BitVec 160) (head : Nat) : t.checkpoint live head = t := by
  unfold Team.checkpoint
  rw [if_pos priv]

theorem Team.checkpoint_eq (t : Team) (live : BitVec 160) (head : Nat) :
    t.checkpoint live head = { t with ckpt := (t.checkpoint live head).ckpt } := by
  unfold Team.checkpoint
  split <;> rfl

/-- A REGION whose mask names a register beyond the allotment fails with the checks of R264. -/
theorem execRegion_beyond {s : State} {t : Team} {live : BitVec 160} (h : UniRuns s t none (uniForm .field) 0 0 0)
    {r : Nat} (listed : live.getLsbD r = true) (beyond : t.regs.length ≤ r) :
    execRegion live s = .next (trapCause s s.cur .regbound) := by
  obtain ⟨team, rep, checked, -, -⟩ := h
  unfold execRegion
  rw [team]
  refine uniIssue_traps team rep ((check_regs checked rfl _).trans (if_pos ?_)) _
  exact List.any_eq_true.2 ⟨r, List.mem_filter.2 ⟨mem_liveRegs.2 listed, decide_eq_true beyond⟩, decide_eq_true beyond⟩

/-- A REGION whose registers all lie in the allotment tests their number. -/
theorem execRegion_within {s : State} {t : Team} {live : BitVec 160} (h : UniRuns s t none (uniForm .field) 0 0 0)
    (within : ∀ r, live.getLsbD r = true → r < t.regs.length) :
    execRegion live s = .next (if regionBound t live then trapCause s s.cur .regbound
      else waitFor s s.cur (liveRegs live) false fun s => afterWait s fun s _ =>
        s.modTeam s.cur fun t => (t.checkpoint live (t.pc + 24)).pass 6) := by
  have none_beyond : (liveRegs live).filter (fun r => decide (t.allot ≤ r)) = [] := by
    rw [List.filter_eq_nil_iff]
    intro r hr
    rw [decide_eq_true_eq]
    exact Nat.not_le.2 (within r (mem_liveRegs.1 hr))
  unfold execRegion
  rw [h.1]
  dsimp only
  rw [none_beyond]
  exact uniIssue_runs h _

/-- Settles O17: a register beyond the allotment is found with the named registers, too many by the instruction's own test, and
otherwise the registers of the mask enter the checkpoint. -/
theorem regionTakesACheckpoint : Obligations.RegionTakesACheckpoint := by
  intro s t live runs
  refine ⟨fun bad => ?_, fun few within ready => ?_⟩
  · by_cases far : ∃ r, live.getLsbD r = true ∧ t.regs.length ≤ r
    · obtain ⟨r, listed, beyond⟩ := far
      exact execRegion_beyond runs listed beyond
    · have within : ∀ r, live.getLsbD r = true → r < t.regs.length := by
        intro r listed
        by_contra beyond
        exact far ⟨r, listed, by omega⟩
      exact (execRegion_within runs within).trans (by rw [if_pos (regionBound_iff.2 bad)])
  · have fits : ¬ regionBound t live = true := by
      rw [regionBound_iff]
      rintro (many | ⟨r, listed, beyond⟩)
      · exact absurd few (Nat.not_le.2 many)
      · exact absurd (within r listed) (by omega)
    have ⟨team, _, _, _, pending⟩ := runs
    refine ⟨(t.checkpoint live (t.pc + 24)).ckpt, ?_, fun priv => by rw [Team.checkpoint_priv priv], fun user => ?_⟩
    · refine (execRegion_within runs within).trans ?_
      rw [if_neg fits, waitFor_none team ready, afterWait_eq team pending, State.modTeam_eq team, Team.checkpoint_eq t]
      rfl
    · rw [Team.checkpoint_ckpt user]
      refine ⟨rfl, rfl, rfl, rfl, rfl, rfl, fun r => ?_⟩
      rw [look_map_keys]
      simp only [mem_liveRegs]

/-! ## The operand cache (R164, R309, R310) -/

/-- The registers of an OCLD whose list ends in unused entries. -/
theorem ocldRegs_eq {ws : List Word} {rs : List Byte} {m : Nat} (es : ocldEntries ws = rs ++ List.replicate m 0xFF#8)
    (used : ∀ r ∈ rs, r ≠ 0xFF#8) : ocldRegs ws = rs.map BitVec.toNat := by
  unfold ocldRegs
  rw [es, List.filter_append, List.filter_eq_self.2 fun r hr => by simpa using used r hr,
    List.filter_eq_nil_iff.2 fun r hr => by simp [List.eq_of_mem_replicate hr], List.append_nil]

/-- Such a list has no gap before a used entry. -/
theorem ocld_noGap {rs : List Byte} (m : Nat) (some_used : rs ≠ []) (used : ∀ r ∈ rs, r ≠ 0xFF#8) :
    ((rs ++ List.replicate m 0xFF#8).head? == some 0xFF#8
      || ((rs ++ List.replicate m 0xFF#8).dropWhile (· != 0xFF#8)).any fun e => decide (e.toNat < 160)) = false := by
  obtain ⟨r, rest, rfl⟩ := List.exists_cons_of_ne_nil some_used
  have first : r ≠ 0xFF#8 := used r List.mem_cons_self
  rw [List.dropWhile_append_of_pos fun r hr => by simpa using used r hr, Bool.or_eq_false_iff]
  refine ⟨by simpa using first, List.any_eq_false.2 fun e he => ?_⟩
  rw [List.eq_of_mem_replicate ((List.dropWhile_sublist _).subset he)]
  decide

/-- OCLD of one register: its tag is filled in place, or it joins the end, where it displaces the earliest of 16. -/
theorem fillTag_eq (oc : List (Nat × Bool)) (r : Nat) :
    fillTag oc r = if r ∈ oc.map (·.1) then oc.map fun e => (e.1, e.2 || decide (e.1 = r))
      else (if oc.length < 16 then oc else oc.tail) ++ [(r, true)] := by
  have tagged : (oc.any fun e => e.1 == r) = true ↔ r ∈ oc.map (·.1) := by simp [List.any_eq_true]
  unfold fillTag
  by_cases h : r ∈ oc.map (·.1)
  · rw [if_pos (tagged.2 h), if_pos h]
    refine List.map_congr_left fun e _ => ?_
    by_cases he : e.1 = r <;> simp [he]
  · rw [if_neg (mt tagged.1 h), if_neg h, List.drop_one]
    by_cases full : 16 ≤ oc.length
    · rw [if_pos full, if_neg (by omega)]
    · rw [if_neg full, if_pos (by omega)]

/-- Settles O18: the tags of a list without gaps are filled one by one, and the drops filter them. -/
theorem operandCacheFillsAndDrops : Obligations.OperandCacheFillsAndDrops := by
  intro s t ws rs m a b
  refine ⟨fun es some_used used h => ⟨_, ?_, rfl⟩, fun h => ?_, fun h => ?_⟩
  · show execOcld ws s = _
    unfold execOcld
    rw [ocldRegs_eq es used, es, List.map_map]
    dsimp only
    rw [ocld_noGap m some_used used]
    refine (uniIssue_runs h _).trans ?_
    rw [List.foldl_map]
    simp only [fillTag_eq]
    rfl
  · refine Eq.trans (b := uniIssue s none (Form.of .u .field .optReg .optReg) 0 a.toNat b.toNat fun s t k =>
      s.setTeam s.cur (({ t with ocache := t.ocache.filter fun e => e.1 != k.a && e.1 != k.b } : Team).pass 1)) rfl ?_
    rw [uniIssue_runs h, uniCodes_eq]
    have same (e : Nat × Bool) : (e.1 != a.toNat && e.1 != b.toNat) = decide (e.1 ≠ a.toNat ∧ e.1 ≠ b.toNat) := by
      by_cases h1 : e.1 = a.toNat <;> by_cases h2 : e.1 = b.toNat <;> simp [h1, h2]
    simp only [same]
    rfl
  · exact (uniIssue_runs h fun s t _ => s.setTeam s.cur (({ t with ocache := [] } : Team).pass 1) :)

end Sys2Proof.Machine
end

section
/-! PROOF. A target of no structured transfer at a closing instruction (R264, R303). -/

namespace Sys2Proof.Machine

open Tests

/-- A team whose last transfer names a kind of target that no structured transfer has. -/
def strayTeam : Team := { loadTeam with expect := some 4 }

/-- The stray team at a BAR.ARV with its REGION, on a core whose instruction cache is empty. -/
def strayPair : State := (State.put (coded [0, 0, 0xB4000000, 0, 0, 0, 0, 0]) strayTeam).modCore 0 fun c => { c with icache := [] }

/-- The state that the fetch of that REGION leaves. -/
def strayEnd : State := (pairTest strayPair strayPair.cur strayTeam (strayTeam.pc + 8)).2

theorem strayPair_team : strayPair.teams[strayPair.cur]? = some strayTeam := by decide +kernel

theorem strayPair_pairs : hasWalked strayPair strayEnd strayTeam.die = false
    ∧ (pairTest strayPair strayPair.cur strayTeam (strayTeam.pc + 8)).1 = .region 0 ∧ strayEnd.cur = strayPair.cur := by
  decide +kernel

theorem strayPair_region : pairTest strayPair strayPair.cur strayTeam (strayTeam.pc + 8) = (.region 0, strayEnd) := by
  unfold strayEnd
  exact Prod.ext strayPair_pairs.2.1 (by dsimp only)

/-- The checks of R264 stop the BAR.ARV before its pairing test: the trap leaves the instruction cache as it was. -/
theorem strayPair_trapsAtItsChecks : exec (.barArv 0) strayPair = .next (trapCause strayPair strayPair.cur .illins) := by
  have fails : check strayTeam (Form.closed { uniForm .field with pipe := .m }) (fieldsFor none strayTeam.repIdx 0 0 0 164) false 164
      = some .illins := by decide +kernel
  refine Eq.trans (b := execBarArv 0 strayPair) (by unfold exec; rfl) ?_
  unfold execBarArv
  exact uniIssue_traps strayPair_team (fun _ => rfl) fails _

/-- Past the pairing test the words of the REGION stand in the instruction cache. -/
theorem strayEnd_icache : ((trapCause strayPair strayPair.cur .illins).core 0).icache.length
    ≠ ((trapCause strayEnd strayPair.cur .illins).core 0).icache.length := by decide +kernel

/-- Refutes O12: its third clause lets a team expect any number for a target. A closing instruction admits only the targets of
R303 past its checks of R264, so that one reached with another number traps before the pairing test, in the state before
the fetch of its REGION and not after it. -/
theorem not_maskAndStackTransfers : ¬ Obligations.MaskAndStackTransfers := by
  rintro ⟨-, -, reach⟩
  obtain ⟨-, -, closing⟩ := reach strayPair strayTeam 4 strayPair_team rfl rfl
  obtain ⟨unwalked, -, stays⟩ := strayPair_pairs
  obtain ⟨late, -⟩ := closing 0 0 0 strayEnd unwalked rfl (strayPair_region) stays
  have same := (Host.Outcome.next.inj (strayPair_trapsAtItsChecks.symm.trans late))
  exact strayEnd_icache (congrArg (fun s : State => (s.core 0).icache.length) same)

end Sys2Proof.Machine
end

section
/-! PROOF. FREE gives the allotment back (R170, R312). -/

namespace Sys2Proof.Machine

/-- A team that has nothing outstanding drains nothing: offers of its block that waited for no operation take effect. -/
theorem drainOps_finished {s : State} {t : Team} (h : Finished s t) : drainOps s t.key = offerEffect s t.key := by
  obtain ⟨⟨-, -, no_matrix⟩, no_copy, team⟩ := h
  have tables : ((s.core t.coreNo).copyQ.filter fun o => o.team == t.key) = [] :=
    List.filter_eq_nil_iff.2 fun o ho => by simpa using no_copy o ho
  unfold drainOps
  rw [team]
  dsimp only
  rw [tables, List.filterMap_nil, foldl_same _ fun o ho => ?_,
    matrixUntil_none (List.any_eq_false.2 fun o ho => by simpa using no_matrix o ho)]
  rw [beq_false_of_ne (no_copy o ho)]
  cases o.table <;> rfl

/-- The team whose allotment FREE has given back. -/
def Team.unallotted (t : Team) : Team :=
  { t with
    regs := t.regs.take t.cfg.pregs, dead := t.dead &&& BitVec.ofNat 160 (2 ^ t.cfg.pregs - 1), accRun := none, tileRun := none
    allotted := false }

/-- The team that FREE leaves at its own place. -/
def Team.freed (t : Team) : Team :=
  ({ t.unallotted with ckpt := ⟨[], t.mask, t.stack, t.fibres, t.rng, t.pc + 8, true⟩ } : Team).pass 2

theorem freeAllot_team {s : State} {t : Team} (team : s.teams[s.cur]? = some t) :
    (freeAllot (offerEffect s t.key) t).teams[s.cur]? = some t.unallotted := by
  show (s.teams.map _)[s.cur]? = _
  rw [List.getElem?_map, team]
  simp [Team.unallotted]

theorem freeAllot_memory (s : State) (t : Team) :
    (freeAllot s t).dram = s.dram ∧ (freeAllot s t).l2 = s.l2 ∧ (freeAllot s t).cores = s.cores := ⟨rfl, rfl, rfl⟩

/-- FREE of a team that has nothing outstanding. -/
theorem exec_free {s : State} {t : Team} (runs : UniRuns s t none (uniForm .field) 0 0 0) (done : Finished s t) :
    exec .free s = .next ((freeAllot (offerEffect s t.key) t).setTeam s.cur t.freed) := by
  obtain ⟨team, -⟩ := id runs
  have cur : (freeAllot (offerEffect s t.key) t).cur = s.cur := rfl
  show execFree s = _
  unfold execFree
  refine (uniIssue_runs runs _).trans ?_
  dsimp only
  rw [settleAll_quiet team done.1, drainOps_finished done, cur, State.modTeam_eq (freeAllot_team team)]
  rfl

/-- The blocks that FREE leaves: the units and rows of its team are gone from its own block. -/
theorem freed_block {s : State} {t : Team} {j : Nat} {b b' : Block} (hb : s.blocks[j]? = some b)
    (hb' : (freeAllot (offerEffect s t.key) t).blocks[j]? = some b') :
    (b.holds t.key = false → b' = b)
    ∧ (b.holds t.key = true → ∃ us : List (Nat × UnitOwner), b' = { b with
        units := us.filter fun u => u.2 != .held t.key.num, accRuns := b.accRuns.filter fun r => r.2.2.2 != t.key.num }) := by
  change ((s.blocks.map _).map _)[j]? = some b' at hb'
  simp only [List.getElem?_map, hb, Option.map_some, Option.some.injEq] at hb'
  subst hb'
  refine ⟨fun other => by simp [other], fun own => ?_⟩
  rw [if_pos own]
  exact ⟨_, if_pos own⟩

/-- Settles O20: nothing is left to drain, so that FREE is the return of the allotment alone. -/
theorem freeReturnsTheAllotment : Obligations.FreeReturnsTheAllotment := by
  intro s t runs done
  obtain ⟨team, -⟩ := id runs
  obtain ⟨memory, homes, cores⟩ := freeAllot_memory (offerEffect s t.key) t
  refine ⟨_, exec_free runs done, ⟨t.freed, ?_, ?_⟩, memory, homes, cores, fun j b b' hb hb' => ?_⟩
  · exact State.setTeam_get (freeAllot_team team) _
  · exact ⟨rfl, rfl, rfl, rfl, rfl, rfl, rfl, rfl, rfl⟩
  obtain ⟨other, own⟩ := freed_block hb (State.setTeam_blocks .. ▸ hb')
  cases holds : b.holds t.key with
  | false =>
    obtain rfl := other holds
    exact ⟨fun _ _ h => by simp at h, fun _ _ h => by simp at h, fun e he _ => he, rfl, rfl⟩
  | true =>
    obtain ⟨us, rfl⟩ := own holds
    refine ⟨fun e he _ => ?_, fun e he _ => ?_, fun e he far => ?_, rfl, rfl⟩
    · simpa using (List.mem_filter.1 he).2
    · simpa using (List.mem_filter.1 he).2
    · exact List.mem_filter.2 ⟨he, by simpa using far⟩

end Sys2Proof.Machine
end

section
/-! PROOF. RNG and ACTV (R178, R180, R237, R292, R293). -/

namespace Sys2Proof.Machine

/-! ## What the end of a lane instruction commutes with -/

/-- The random state does not take part in the end of a lane instruction. -/
theorem Team.laneEnd_withRng (t : Team) (rng : List DWord) (p : LPre) (f : Form) (k : Codes) (base : Nat) (dead : Bool) :
    ({ t with rng := rng } : Team).laneEnd p f k base dead = { t.laneEnd p f k base dead with rng := rng } := by
  have kills (ns : List Nat) (u : Team) :
      ns.foldl Team.killReg { u with rng := rng } = { ns.foldl Team.killReg u with rng := rng } := by
    induction ns generalizing u with
    | nil => rfl
    | cons n ns ih => exact ih (u.killReg n)
  have passes (u : Team) (rep : Option Rep) (w : Nat) :
      ({ u with rng := rng } : Team).passRep rep w = { u.passRep rep w with rng := rng } := by
    unfold Team.passRep
    cases rep with
    | none => rfl
    | some r =>
      dsimp only
      split <;> rfl
  unfold Team.laneEnd
  rw [← passes, ← kills]
  cases dead <;> rfl

/-- A sticky bit of STATUS may be set before or after the end of a lane instruction. -/
theorem Team.laneEnd_raise (t : Team) (bits : Word) (p : LPre) (f : Form) (k : Codes) (base : Nat) (dead : Bool) :
    (t.raise bits).laneEnd p f k base dead = (t.laneEnd p f k base dead).raise bits := by
  have kills (ns : List Nat) (u : Team) : ns.foldl Team.killReg (u.raise bits) = (ns.foldl Team.killReg u).raise bits := by
    induction ns generalizing u with
    | nil => rfl
    | cons n ns ih => exact ih (u.killReg n)
  have passes (u : Team) (rep : Option Rep) (w : Nat) : (u.raise bits).passRep rep w = (u.passRep rep w).raise bits := by
    unfold Team.passRep
    cases rep with
    | none => rfl
    | some r =>
      dsimp only
      split
      next h => rw [if_pos (by exact h)]; rfl
      next h => rw [if_neg (by exact h)]; rfl
  unfold Team.laneEnd
  rw [← passes, ← kills]
  cases dead with
  | false => rfl
  | true =>
    have swap (u : Team) : (u.raise bits).raise deadReadBit = (u.raise deadReadBit).raise bits := by
      unfold Team.raise
      simp only [BitVec.or_assoc, BitVec.or_comm bits]
    dsimp only
    rw [if_pos rfl, if_pos rfl, ← swap]
    rfl

theorem Team.raise_then_laneEnd (t : Team) (bits : Word) (fl : FFlags) (p : LPre) (f : Form) (k : Codes) (base : Nat) (dead : Bool) :
    ((t.raise bits).raiseFlags fl).laneEnd p f k base dead = ((t.raiseFlags fl).laneEnd p f k base dead).raise bits := by
  rw [← Team.laneEnd_raise]
  unfold Team.raiseFlags Team.raise
  simp only [BitVec.or_assoc, BitVec.or_comm bits]

/-- No flags of any lane leave STATUS as it is. -/
theorem Team.raiseFlags_none (t : Team) : t.raiseFlags FFlags.none = t := by
  unfold Team.raiseFlags Team.raise
  rw [show FFlags.none.bits = 0#32 from rfl, BitVec.or_zero]

theorem laneFlags_none (t : Team) (p : LPre) (vals : Nat → Nat) : laneFlags t p (fun l => (vals l, FFlags.none)) = FFlags.none := by
  unfold laneFlags orFlags
  simp only [ite_self]
  rw [List.foldl_map]
  induction t.tl with
  | zero => rfl
  | succ n ih => rw [List.range_succ, List.foldl_concat, ih]; rfl

/-! ## RNG (R180, R292) -/

/-- The random states after an RNG under a mask. -/
def advanced (rng : List DWord) (mask : Mask) : List DWord :=
  rng.zipIdx.map fun x => if mask.getLsbD x.2 then (rngNext x.1).1 else x.1

theorem advanced_get (rng : List DWord) (mask : Mask) (l : Nat) :
    (advanced rng mask)[l]? = (rng[l]?).map fun x => if mask.getLsbD l then (rngNext x).1 else x := by
  unfold advanced
  rw [List.getElem?_map, List.getElem?_zipIdx]
  cases rng[l]? <;> simp

/-- RNG where some lane is active. -/
theorem exec_rng {p : LPre} {d : Byte} {s : State} {t : Team} (runs : LaneRuns s t p (Form.of .l (.dst 1) .field .field) d.toNat 0 0)
    (active : (effMask t p).1 ≠ 0#1024) : exec (.rng p d) s = .next (s.setTeam s.cur { ((t.writeLanes .l 1
      (laneCodes t p d.toNat 0 0).d (effMask t p).1 (pfxOf p).zm fun l => (((t.rng.map rngNext).map (·.2)).getD l 0#32).toNat).raiseFlags
        FFlags.none).laneEnd p (Form.of .l (.dst 1) .field .field) (laneCodes t p d.toNat 0 0) 1 false
      with rng := advanced t.rng (effMask t p).1 }) := by
  show execRng p d s = _
  unfold execRng
  refine (laneIssue_runs runs _).trans ?_
  dsimp only
  rw [if_neg active, Team.raiseFlags_none, ← Team.laneEnd_withRng]
  rfl

/-- A lane reads its place of a list of words. -/
theorem toNat_getD_map {α : Type} (g : α → Word) (xs : List α) (l : Nat) :
    ((xs.map g).getD l 0#32).toNat = ((xs[l]?).map fun x => (g x).toNat).getD 0 := by
  rw [List.getD_eq_getElem?_getD, List.getElem?_map]
  cases xs[l]? <;> rfl

theorem rngAdvancesActiveLanes : RngAdvancesActiveLanes := by
  intro p d s t runs active x1 x2 x3 out
  have room : (laneCodes t p d.toNat 0 0).d < 160 → 1 = 0 ∨ (laneCodes t p d.toNat 0 0).d + 1 ≤ t.regs.length :=
    fun hd => .inr (check_dest runs.2.2.1 Role.noConfusion hd)
  have states : (fun x => (rngNext x).1) = x3 := rfl
  have yields : (fun x => (rngNext x).2) = out := rfl
  have value (l : Nat) : (((t.rng.map rngNext).map (·.2)).getD l 0#32).toNat = ((t.rng[l]?).map fun x => (out x).toNat).getD 0 := by
    rw [List.map_map, ← yields]
    exact toNat_getD_map (fun x => (rngNext x).2) t.rng l
  refine ⟨_, advanced t.rng (effMask t p).1, exec_rng runs active, ?_, ?_, fun l => ?_⟩
  · exact laneResult_of (f := Form.of .l (.dst 1) .field .field) (dead := false) room (fun l _ _ => value l) (laneFlags_none t p _).symm
  · rw [advanced, List.length_map, List.length_zipIdx]
  · rw [advanced_get, ← states]

/-! ## ACTV's banks (R178, R293) -/

/-- The flags of the lanes' results, ORed. -/
theorem orFlags_results (t : Team) (p : LPre) (res : Nat → Nat × FFlags) :
    orFlags (((List.range t.tl).map fun l => if (effMask t p).1.getLsbD l then res l else (0, FFlags.none)).map (·.2))
      = laneFlags t p res := by
  unfold laneFlags
  rw [List.map_map]
  refine congrArg orFlags (List.map_congr_left fun l _ => ?_)
  dsimp only [Function.comp]
  split <;> rfl

/-- The results of ACTV from a bank, where its launch filled it. -/
def actvResult (s : State) (t : Team) (p : LPre) (code : Nat) (bank : Option (List DWord)) (l : Nat) : Nat × FFlags :=
  match bank with
  | some es => actvValue (modeOf p) (satBit p) es (opnd s t .x .f32 code l)
  | none => (poisonWord.toNat, FFlags.none)

/-- ACTV where some lane is active. -/
theorem exec_actv {p : LPre} {d a b : Byte} {s : State} {t : Team} {f : Form} {k : Codes} {bank : Option (List DWord)}
    (form : f = { Form.of .x (.dst 1) (.src 1) .table with rounds := true, sat := true })
    (codes : k = laneCodes t p d.toNat a.toNat b.toNat) (active_bank : actvBank s t (b.toNat - 224) = bank)
    (runs : LaneRuns s t p f d.toNat a.toNat b.toNat) (active : (effMask t p).1 ≠ 0#1024) :
    ∃ u, exec (.actv p d a b) s = .next (s.setTeam s.cur (if bank.isNone then u.raise poisonBit else u))
      ∧ LaneResult t u p f k 1 (readsDead t .x k.a 1) (actvResult s t p k.a bank) := by
  subst form codes active_bank
  have room : (laneCodes t p d.toNat a.toNat b.toNat).d < 160 → 1 = 0 ∨ (laneCodes t p d.toNat a.toNat b.toNat).d + 1 ≤ t.regs.length :=
    fun hd => .inr (check_dest runs.2.2.1 Role.noConfusion hd)
  refine ⟨_, ?_, laneResult_of (vals := fun l => (((List.range t.tl).map fun l => if (effMask t p).1.getLsbD l then
    actvResult s t p (laneCodes t p d.toNat a.toNat b.toNat).a (actvBank s t (b.toNat - 224)) l else (0, FFlags.none)).getD l
      (0, FFlags.none)).1) room (fun l hl hb => by simp [hl, hb]) rfl⟩
  show execActv p d a b s = _
  unfold execActv
  refine (laneIssue_runs runs _).trans ?_
  dsimp only
  rw [if_neg active]
  generalize actvBank s t (b.toNat - 224) = bank
  rw [← orFlags_results]
  cases bank with
  | some es => rfl
  | none => exact congrArg (fun u => Host.Outcome.next (s.setTeam s.cur u)) (Team.raise_then_laneEnd ..)

theorem actvReadsTheActiveBank : ActvReadsTheActiveBank := by
  intro p d a b s t tab f k bank value runs active table
  have owned : actvBank s t (b.toNat - 224) = if bank.owner = some (t.key.q, t.key.seq) then some bank.entries else none := by
    unfold actvBank
    rw [table]
    rfl
  refine ⟨fun own => ?_, fun foreign => ?_⟩
  · rw [if_pos own] at owned
    obtain ⟨u, eq, result⟩ := exec_actv rfl rfl owned runs active
    exact ⟨u, eq, result⟩
  · rw [if_neg foreign] at owned
    obtain ⟨u, eq, result⟩ := exec_actv rfl rfl owned runs active
    exact ⟨u, eq, result⟩

/-! ## A value of FP32 rounds to its own pattern (R232, R237, R238) -/

/-- `M × 2^Q` as FP32 holds its finite magnitudes. -/
structure Fp32Scaled (M : Nat) (Q : Int) : Prop where
  significand : M < 2 ^ 24
  quantum : -149 ≤ Q ∧ Q ≤ 104
  normal : M < 2 ^ 23 → Q = -149

/-- The fields of an FP32 pattern whose exponent is not all ones. -/
theorem fp32_read_below {w : Nat} (ex : w / 2 ^ 23 % 2 ^ 8 ≠ 255) :
    Fmt.fp32.read w = .fin (w / 2 ^ 31 % 2 == 1) (if w / 2 ^ 23 % 2 ^ 8 = 0
      then ⟨(if w / 2 ^ 31 % 2 == 1 then -1 else 1) * (w % 2 ^ 23 : Nat), -149⟩
      else ⟨(if w / 2 ^ 31 % 2 == 1 then -1 else 1) * (2 ^ 23 + w % 2 ^ 23 : Nat), (w / 2 ^ 23 % 2 ^ 8 : Nat) - 150⟩) := by
  have top : (w / 2 ^ Fmt.fp32.fbits % 2 ^ Fmt.fp32.ebits == Fmt.fp32.topExp) = false := beq_false_of_ne ex
  have bias (e : Int) : e - Fmt.fp32.bias - Fmt.fp32.fbits = e - 150 := by
    rw [show Fmt.fp32.bias = 127 from rfl, show Fmt.fp32.fbits = 23 from rfl]
    omega
  unfold Fmt.read
  simp only [top, Bool.false_and, Bool.false_eq_true, if_false, bias]
  by_cases zero : w / 2 ^ 23 % 2 ^ 8 = 0
  · rw [if_pos (by exact zero), if_pos zero]
    rfl
  · rw [if_neg (by exact zero), if_neg zero]
    rfl

theorem fp32_read_top {w : Nat} (ex : w / 2 ^ 23 % 2 ^ 8 = 255) (neg : Bool) (v : Dy) : Fmt.fp32.read w ≠ .fin neg v := by
  have top : (w / 2 ^ Fmt.fp32.fbits % 2 ^ Fmt.fp32.ebits == Fmt.fp32.topExp) = true := beq_iff_eq.2 ex
  unfold Fmt.read
  simp only [top, Bool.true_and, show (Fmt.fp32.specials == Specials.ieee) = true from rfl, if_true]
  split <;> exact FVal.noConfusion

theorem fp32_signBit {w : Nat} (word : w < 2 ^ 32) : Fmt.fp32.signBit (w / 2 ^ 31 % 2 == 1) = w / 2 ^ 31 * 2 ^ 31 := by
  have bit : w / 2 ^ 31 = 0 ∨ w / 2 ^ 31 = 1 := by omega
  rcases bit with h | h <;> rw [h] <;> rfl

theorem fp32_pack {M : Nat} {Q : Int} (scaled : Fp32Scaled M Q) :
    Fmt.fp32.pack M Q = if M < 2 ^ 23 then M else (Q + 150).toNat * 2 ^ 23 + (M - 2 ^ 23) := by
  have := scaled.significand
  have bias : Q + Fmt.fp32.fbits + Fmt.fp32.bias = Q + 150 := by
    rw [show Fmt.fp32.bias = 127 from rfl, show Fmt.fp32.fbits = 23 from rfl]
    omega
  unfold Fmt.pack
  simp only [if_neg (show ¬ M = 2 ^ (Fmt.fp32.fbits + 1) from Nat.ne_of_lt this), bias]
  rfl

/-- What a pattern of a finite FP32 value tells of the value. -/
theorem fp32_read_fin {w : Nat} (word : w < 2 ^ 32) {neg : Bool} {v : Dy} (h : Fmt.fp32.read w = .fin neg v) :
    ∃ M : Nat, v.m = (if neg then -1 else 1) * (M : Int) ∧ Fp32Scaled M v.e ∧ w = Fmt.fp32.signBit neg + Fmt.fp32.pack M v.e := by
  have frac : w % 2 ^ 23 < 2 ^ 23 := Nat.mod_lt _ (by decide)
  by_cases ex : w / 2 ^ 23 % 2 ^ 8 = 255
  · exact absurd h (fp32_read_top ex neg v)
  rw [fp32_read_below ex] at h
  obtain ⟨rfl, rfl⟩ := FVal.fin.inj h
  rw [fp32_signBit word]
  by_cases zero : w / 2 ^ 23 % 2 ^ 8 = 0
  · rw [if_pos zero]
    have scaled : Fp32Scaled (w % 2 ^ 23) (-149) := ⟨by omega, by omega, fun _ => rfl⟩
    refine ⟨_, rfl, scaled, ?_⟩
    rw [fp32_pack scaled, if_pos frac]
    omega
  · rw [if_neg zero]
    have scaled : Fp32Scaled (2 ^ 23 + w % 2 ^ 23) ((w / 2 ^ 23 % 2 ^ 8 : Nat) - 150) := ⟨by omega, by omega, by omega⟩
    refine ⟨_, rfl, scaled, ?_⟩
    rw [fp32_pack scaled, if_neg (by omega)]
    omega

theorem fp32_pack_finite {M : Nat} {Q : Int} (scaled : Fp32Scaled M Q) : Fmt.fp32.pack M Q ≤ Fmt.fp32.maxBits := by
  obtain ⟨significand, quantum, -⟩ := id scaled
  rw [fp32_pack scaled, show Fmt.fp32.maxBits = 255 * 2 ^ 23 - 1 from rfl]
  split <;> omega

theorem log2_mul_two_pow {n : Nat} (nonzero : n ≠ 0) (j : Nat) : Nat.log2 (n * 2 ^ j) = Nat.log2 n + j := by
  induction j with
  | zero => rw [Nat.pow_zero, Nat.mul_one, Nat.add_zero]
  | succ j ih =>
    rw [Nat.pow_succ, ← Nat.mul_assoc, Nat.log2_eq_log_two, Nat.log_mul_base (by decide) (by positivity), ← Nat.log2_eq_log_two, ih]
    rfl

/-- The exponent that rounding of `n / 2^k` starts from is that of the value. -/
theorem roundRat_exponent {n : Nat} (nonzero : n ≠ 0) (k : Nat) :
    ¬ n * 2 ^ (-((Nat.log2 n : Int) - k)).toNat < 2 ^ k * 2 ^ ((Nat.log2 n : Int) - k).toNat := by
  have least : 2 ^ Nat.log2 n ≤ n := Nat.log2_self_le nonzero
  refine Nat.not_lt.2 (le_trans ?_ (Nat.mul_le_mul_right _ least))
  rw [← Nat.pow_add, ← Nat.pow_add]
  exact Nat.pow_le_pow_right (by decide) (by omega)

/-- Rounding finds the quantum of an exact value. -/
theorem fp32_roundRat_exact {M n k : Nat} {Q : Int} (scaled : Fp32Scaled M Q) (nonzero : M ≠ 0)
    (exact : n * 2 ^ (-Q).toNat = M * (2 ^ k * 2 ^ Q.toNat)) (mode : RMode) (sat neg : Bool) :
    Fmt.fp32.roundRat mode sat neg n (2 ^ k) = (Fmt.fp32.signBit neg + Fmt.fp32.pack M Q, FFlags.none) := by
  obtain ⟨significand, quantum, normal⟩ := id scaled
  have some_units : n ≠ 0 := by
    rintro rfl
    rw [Nat.zero_mul] at exact
    exact absurd exact.symm (by positivity)
  have exponent : (Nat.log2 n : Int) - k = Nat.log2 M + Q := by
    have logs := congrArg Nat.log2 exact
    rw [← Nat.pow_add, log2_mul_two_pow some_units, log2_mul_two_pow nonzero] at logs
    omega
  have unit : max ((Nat.log2 M : Int) + Q) Fmt.fp32.emin - Fmt.fp32.fbits = Q := by
    have top : Nat.log2 M < 24 := (Nat.log2_lt nonzero).2 significand
    rw [show Fmt.fp32.emin = -126 from rfl, show Fmt.fp32.fbits = 23 from rfl]
    by_cases small : M < 2 ^ 23
    · have : Nat.log2 M < 23 := (Nat.log2_lt nonzero).2 small
      have := normal small
      omega
    · have : 23 ≤ Nat.log2 M := (Nat.le_log2 nonzero).2 (Nat.not_lt.1 small)
      omega
  have units : roundUnits mode neg n (2 ^ k) Q = (M, false) := by
    unfold roundUnits
    have positive : 0 < 2 ^ k * 2 ^ Q.toNat := by positivity
    simp only [exact, Nat.mul_div_cancel _ positive, Nat.mul_mod_left, if_true]
  have start := roundRat_exponent some_units k
  rw [exponent] at start
  unfold Fmt.roundRat
  simp only [Nat.log2_two_pow, exponent, start, if_false, unit, units]
  rw [if_neg (Nat.not_lt.2 (fp32_pack_finite scaled)), Bool.and_false]
  rfl

/-- An exact FP32 value rounds to its pattern, however its dyadic form is scaled. -/
theorem fp32_round_read {w : Nat} (word : w < 2 ^ 32) {neg : Bool} {v x : Dy} (h : Fmt.fp32.read w = .fin neg v) (nonzero : v.m ≠ 0)
    (finer : x.e ≤ v.e) (same : x.m = v.m * 2 ^ (v.e - x.e).toNat) (mode : RMode) (sat negZero : Bool) :
    Fmt.fp32.round mode sat negZero x = (w, FFlags.none) := by
  obtain ⟨M, value, scaled, pattern⟩ := fp32_read_fin word h
  have some_units : M ≠ 0 := by
    rintro rfl
    exact nonzero (by rw [value, Nat.cast_zero, mul_zero])
  have positive : (0 : Int) < 2 ^ (v.e - x.e).toNat := by positivity
  have nonzero' : x.m ≠ 0 := by rw [same]; exact mul_ne_zero nonzero positive.ne'
  have sign : decide (x.m < 0) = neg := by
    rw [same, value]
    cases neg with
    | true => simpa using Nat.pos_of_ne_zero some_units
    | false => simp
  have magnitude : x.m.natAbs = M * 2 ^ (v.e - x.e).toNat := by
    rw [same, value, Int.natAbs_mul, Int.natAbs_mul, Int.natAbs_pow]
    cases neg <;> simp
  unfold Fmt.round
  rw [if_neg nonzero', sign, fp32_roundRat_exact scaled some_units, ← pattern]
  rw [magnitude, Nat.mul_assoc, Nat.mul_assoc, ← Nat.pow_add, ← Nat.pow_add, ← Nat.pow_add]
  congr 2
  omega

/-! ## ACTV on the grid of its table (R293) -/

/-- A value on the grid `2^-5` in the units of that grid. -/
theorem floor_shift_five {v : Dy} {K : Int} (grid : v.m * 32 = K * 2 ^ (-v.e).toNat) (whole : v.e ≤ 0) : (v.shift 5).floor = K := by
  unfold Dy.shift Dy.floor
  dsimp only
  by_cases coarse : 0 ≤ v.e + 5
  · rw [if_pos coarse]
    have powers : (32 : Int) = 2 ^ (v.e + 5).toNat * 2 ^ (-v.e).toNat := by
      rw [← pow_add, show (v.e + 5).toNat + (-v.e).toNat = 5 by omega]
      rfl
    rw [powers, ← mul_assoc] at grid
    exact mul_right_cancel₀ (by positivity) grid
  · rw [if_neg coarse]
    have powers : (2 : Int) ^ (-v.e).toNat = 2 ^ (-(v.e + 5)).toNat * 32 := by
      rw [show (-v.e).toNat = (-(v.e + 5)).toNat + 5 by omega, pow_add]
      rfl
    rw [powers, ← mul_assoc] at grid
    rw [mul_right_cancel₀ (by decide) grid]
    exact Int.mul_fdiv_cancel _ (by positivity)

/-- Such a value does not differ from its place of the grid. -/
theorem sub_grid_m {v : Dy} {K : Int} (grid : v.m * 32 = K * 2 ^ (-v.e).toNat) (whole : v.e ≤ 0) : (v.sub ⟨K, -5⟩).m = 0 := by
  have floor := floor_shift_five grid whole
  unfold Dy.shift Dy.floor at floor
  dsimp only at floor
  unfold Dy.sub Dy.add Dy.neg Dy.scaled
  dsimp only
  by_cases coarse : 0 ≤ v.e + 5
  · rw [if_pos coarse] at floor
    rw [show min v.e (-5) = -5 by omega, show v.e - -5 = v.e + 5 by omega, floor]
    simp
  · have powers : (2 : Int) ^ (-v.e).toNat = 2 ^ (-5 - v.e).toNat * 32 := by
      rw [show (-v.e).toNat = (-5 - v.e).toNat + 5 by omega, pow_add]
      rfl
    rw [powers, ← mul_assoc] at grid
    rw [show min v.e (-5) = v.e by omega, mul_right_cancel₀ (by decide) grid]
    simp

/-- A product with zero added to a finite value gives the value's pattern. -/
theorem fmaF_zero {m : RMode} {w : Nat} {kneg sneg rneg : Bool} {kv sv r : Dy} (word : w < 2 ^ 32)
    (knot : Fmt.fp32.read w = .fin kneg kv) (nonzero : kv.m ≠ 0) (zero : r.m = 0) :
    (Fmt.fp32.fmaF m false (.fin sneg sv) (.fin rneg r) (.fin kneg kv)).1 = w := by
  have product : (sv.mul r).m = 0 := by unfold Dy.mul; rw [zero, mul_zero]
  unfold Fmt.fmaF
  simp only [FVal.isNan, FVal.isInf, Bool.false_and, Bool.and_false, Bool.or_self, Bool.false_eq_true, if_false, FVal.real]
  rw [fp32_round_read word knot nonzero]
  · exact min_le_right _ _
  · unfold Dy.add Dy.scaled
    dsimp only
    rw [product, zero_mul, zero_add]

theorem actvOnTheGridGivesTheKnot : ActvOnTheGridGivesTheKnot := by
  intro m entries a i e neg kneg sneg v kv sv entry small value grid whole knot nonzero slope
  have index : (max 0 (min 255 ((v.shift 5).floor + 128))).toNat = i := by
    rw [floor_shift_five grid whole]
    omega
  have got : entries.getD i 0#64 = e := by rw [List.getD_eq_getElem?_getD, entry]; rfl
  unfold actvValue
  dsimp only
  rw [value]
  simp only [FVal.real, index, got, knot, slope, FVal.isNan, Bool.or_self, Bool.false_eq_true, if_false]
  exact fmaF_zero (Nat.mod_lt _ (by decide)) knot nonzero (sub_grid_m grid whole)

/-- Settles O7: RNG and ACTV write their lanes' values, and on the grid the product of ACTV is zero, so that its one rounding gives the
knot back. -/
theorem rngAndActvReadTheirState : Obligations.RngAndActvReadTheirState :=
  ⟨rngAdvancesActiveLanes, actvReadsTheActiveBank, actvOnTheGridGivesTheKnot⟩

end Sys2Proof.Machine
end

section
/-! PROOF. The bytes of the tile store, its loads and its stores (R171, R326). -/

namespace Sys2Proof.Machine

/-! ## Bytes of the tile stores -/

theorem State.modCore_beyond (s : State) {c : Nat} (h : s.cores.length ≤ c) (f : Core → Core) : s.modCore c f = s :=
  congrArg (fun cores => ({ s with cores := cores } : State)) (List.set_eq_of_length_le h)

/-- The byte at a place of a core's tile store. -/
def tileCell (s : State) (p : Nat × Nat) : Byte := Memory.read (s.core p.1).tile p.2

theorem tileByte_eq_cell (s : State) (b : Block) (m a : Nat) : tileByte s b m a = tileCell s (tileSpot b m a) := rfl

theorem tileCell_writeByte_self {s : State} {b : Block} {m a : Nat} (own : (tileSpot b m a).1 < s.cores.length) (v : Byte) :
    tileCell (tileWriteByte s b m a v) (tileSpot b m a) = v := by
  unfold tileCell tileWriteByte
  dsimp only
  rw [State.core_modCore_self s own, Memory.read_write_self]

theorem tileCell_writeByte_ne (s : State) {b : Block} {m a : Nat} {p : Nat × Nat} (apart : p ≠ tileSpot b m a) (v : Byte) :
    tileCell (tileWriteByte s b m a v) p = tileCell s p := by
  unfold tileCell tileWriteByte
  dsimp only
  by_cases core : p.1 = (tileSpot b m a).1
  · have place : p.2 ≠ (tileSpot b m a).2 := fun h => apart (Prod.ext core h)
    rw [core]
    by_cases own : (tileSpot b m a).1 < s.cores.length
    · rw [State.core_modCore_self s own, Memory.read_write_ne _ place]
    · rw [State.modCore_beyond s (Nat.not_lt.1 own)]
  · rw [State.core_modCore_ne s core]

/-- Two bytes of one place lie a multiple of 16 apart. -/
theorem tileSpot_mod {b : Block} {m x y : Nat} (h : tileSpot b m x = tileSpot b m y) : x % 16 = y % 16 := by
  have place := congrArg (fun p : Nat × Nat => p.2 % 16) h
  have low (a : Nat) : tileOff a % 16 = a % 16 := by
    unfold tileOff fieldOf
    omega
  simpa [tileSpot, tilePlace, Nat.mul_add_mod, low] using place

/-- A write outside of a place keeps it. -/
theorem tileCell_write_outside {s : State} {b : Block} {m a : Nat} {bs : List Byte} {p : Nat × Nat}
    (apart : ∀ j, j < bs.length → p ≠ tileSpot b m (a + j)) : tileCell (tileWrite s b m a bs) p = tileCell s p := by
  induction bs generalizing s a with
  | nil => rfl
  | cons v vs ih =>
    have rest : ∀ j, j < vs.length → p ≠ tileSpot b m (a + 1 + j) := fun j hj => by
      rw [Nat.add_assoc, Nat.add_comm 1]
      exact apart (j + 1) (Nat.succ_lt_succ hj)
    exact (ih rest).trans (tileCell_writeByte_ne s (apart 0 (Nat.succ_pos _)) v)

/-- Only bytes of tile stores differ. -/
structure OnlyTiles (s w : State) : Prop where
  same : { w with cores := s.cores } = s
  count : w.cores.length = s.cores.length
  cores : ∀ e, { w.core e with tile := (s.core e).tile } = s.core e

theorem OnlyTiles.refl (s : State) : OnlyTiles s s := ⟨rfl, rfl, fun _ => rfl⟩

theorem OnlyTiles.trans {s v w : State} (h : OnlyTiles s v) (h' : OnlyTiles v w) : OnlyTiles s w := by
  refine ⟨?_, h'.count.trans h.count, fun e => ?_⟩
  · exact (congrArg (fun x : State => { x with cores := s.cores }) h'.same).trans h.same
  · exact (congrArg (fun k : Core => { k with tile := (s.core e).tile }) (h'.cores e)).trans (h.cores e)

theorem OnlyTiles.homes {s w : State} (h : OnlyTiles s w) : HomesKept s w := by
  rw [← h.same]
  exact ⟨rfl, rfl, rfl, rfl⟩

theorem OnlyTiles.teams {s w : State} (h : OnlyTiles s w) : w.teams = s.teams := by rw [← h.same]

theorem OnlyTiles.cur {s w : State} (h : OnlyTiles s w) : w.cur = s.cur := by rw [← h.same]

theorem OnlyTiles.l1 {s w : State} (h : OnlyTiles s w) (e : Nat) : (w.core e).l1 = (s.core e).l1 := by rw [← h.cores e]

theorem OnlyTiles.writeByte (s : State) (b : Block) (m a : Nat) (v : Byte) : OnlyTiles s (tileWriteByte s b m a v) := by
  refine ⟨rfl, by simp [tileWriteByte], fun e => ?_⟩
  unfold tileWriteByte
  dsimp only
  by_cases own : (tileSpot b m a).1 < s.cores.length
  · by_cases core : e = (tileSpot b m a).1
    · rw [core, State.core_modCore_self s own]
    · rw [State.core_modCore_ne s core]
  · rw [State.modCore_beyond s (Nat.not_lt.1 own)]

theorem OnlyTiles.foldl {β : Type} {f : State → β → State} (step : ∀ s x, OnlyTiles s (f s x)) (xs : List β) (s : State) :
    OnlyTiles s (xs.foldl f s) :=
  foldl_induction (P := OnlyTiles s) (fun u x h => h.trans (step u x)) xs (OnlyTiles.refl s)

theorem OnlyTiles.write (s : State) (b : Block) (m a : Nat) (bs : List Byte) : OnlyTiles s (tileWrite s b m a bs) := by
  unfold tileWrite
  exact OnlyTiles.foldl (fun s (x : Byte × Nat) => OnlyTiles.writeByte s b m x.2 x.1) _ s

/-- A write of up to 16 bytes leaves each at its place. -/
theorem tileCell_write_inside {s : State} {b : Block} {m a : Nat} {bs : List Byte} (short : bs.length ≤ 16) {j : Nat} (inside : j < bs.length)
    (own : (tileSpot b m (a + j)).1 < s.cores.length) : tileCell (tileWrite s b m a bs) (tileSpot b m (a + j)) = bs[j] := by
  induction bs generalizing s a j with
  | nil => exact absurd inside (Nat.not_lt_zero j)
  | cons v vs ih =>
    rw [List.length_cons] at short inside
    cases j with
    | zero =>
      refine (tileCell_write_outside (s := tileWriteByte s b m a v) fun i hi same => ?_).trans (tileCell_writeByte_self own v)
      have := tileSpot_mod same
      omega
    | succ j =>
      have rest := ih (s := tileWriteByte s b m a v) (a := a + 1) (j := j) (by omega) (by omega)
      rw [Nat.add_assoc, Nat.add_comm 1, (OnlyTiles.writeByte s b m a v).count] at rest
      exact rest own

/-! ## Writes of several lanes, one after another -/

/-- Each lane of the list writes `n` bytes at its address. -/
def tileWrites (b : Block) (m : Nat) (bytes : Nat → List Byte) (s : State) (addrs : List (Nat × Nat)) : State :=
  addrs.foldl (fun s x => tileWrite s b m x.2 (bytes x.1)) s

section
variable {b : Block} {m n : Nat} {bytes : Nat → List Byte} (size : ∀ l, (bytes l).length = n)
include size

/-- A place that no lane covers is kept. -/
theorem tileCell_writes_outside {s : State} {addrs : List (Nat × Nat)} {p : Nat × Nat}
    (apart : ∀ x ∈ addrs, ∀ j, j < n → p ≠ tileSpot b m (x.2 + j)) : tileCell (tileWrites b m bytes s addrs) p = tileCell s p := by
  induction addrs generalizing s with
  | nil => rfl
  | cons x xs ih =>
    refine (ih (s := tileWrite s b m x.2 (bytes x.1)) fun y hy => apart y (List.mem_cons_of_mem x hy)).trans ?_
    exact tileCell_write_outside fun j hj => apart x List.mem_cons_self j (by rwa [← size x.1])

/-- The last lane that covers a place gives its byte. -/
theorem tileCell_writes_last {s : State} {ys zs : List (Nat × Nat)} {l x j : Nat} (short : n ≤ 16) (inside : j < n)
    (own : (tileSpot b m (x + j)).1 < s.cores.length)
    (last : ∀ z ∈ zs, ∀ i, i < n → tileSpot b m (z.2 + i) ≠ tileSpot b m (x + j)) :
    tileCell (tileWrites b m bytes s (ys ++ (l, x) :: zs)) (tileSpot b m (x + j)) = (bytes l)[j]'(by rwa [size]) := by
  unfold tileWrites
  rw [List.foldl_append, List.foldl_cons]
  refine (tileCell_writes_outside size fun z hz i hi => (last z hz i hi).symm).trans ?_
  refine tileCell_write_inside (by rwa [size]) (by rwa [size]) ?_
  rwa [(OnlyTiles.foldl (fun s x => OnlyTiles.write s b m x.2 (bytes x.1)) ys s).count]
end

theorem OnlyTiles.writes (b : Block) (m : Nat) (bytes : Nat → List Byte) (s : State) (addrs : List (Nat × Nat)) :
    OnlyTiles s (tileWrites b m bytes s addrs) := by
  unfold tileWrites
  exact OnlyTiles.foldl (fun s x => OnlyTiles.write s b m x.2 (bytes x.1)) addrs s

/-- Operands do not come from tile stores. -/
theorem OnlyTiles.opnd {s w : State} (h : OnlyTiles s w) (t : Team) (p : Pipe) (k : Kind) (code l : Nat) :
    Machine.opnd w t p k code l = Machine.opnd s t p k code l := by
  rw [← h.same]
  rfl

/-- A byte of a little-endian value. -/
theorem leBytes_get {n j : Nat} (inside : j < n) (v : Nat) :
    (leBytes n v)[j]'(by rwa [leBytes_length]) = BitVec.ofNat 8 (v / 2 ^ (8 * j)) := by
  induction n generalizing j v with
  | zero => exact absurd inside (Nat.not_lt_zero j)
  | succ n ih =>
    cases j with
    | zero => simp [leBytes]
    | succ j =>
      have rest := ih (Nat.lt_of_succ_lt_succ inside) (v / 256)
      rw [Nat.div_div_eq_div_mul, show 256 * 2 ^ (8 * j) = 2 ^ (8 * (j + 1)) by rw [Nat.mul_succ, Nat.pow_add, Nat.mul_comm]] at rest
      exact rest

/-! ## Masks as lists of lanes -/

/-- The mask of a list of lanes. -/
theorem getLsbD_lanes (addrs : List (Nat × Nat)) {l : Nat} (hl : l < 1024) :
    (addrs.foldl (fun (m : Mask) x => m ||| (1#1024 <<< x.1)) 0#1024).getLsbD l = decide (l ∈ addrs.map (·.1)) := by
  have bits (m : Mask) : (addrs.foldl (fun (m : Mask) x => m ||| (1#1024 <<< x.1)) m).getLsbD l
      = (m.getLsbD l || decide (l ∈ addrs.map (·.1))) := by
    induction addrs generalizing m with
    | nil => simp
    | cons x xs ih =>
      have one : (1#1024 <<< x.1).getLsbD l = decide (l = x.1) := by
        rw [BitVec.getLsbD_shiftLeft]
        by_cases h : l = x.1
        · simp [h, show x.1 < 1024 by omega]
        · have : l - x.1 = 0 → l < x.1 := by omega
          by_cases below : l < x.1
          · simp [below, h]
          · simp [h, below, show l - x.1 ≠ 0 by omega]
      rw [List.foldl_cons, ih, BitVec.getLsbD_or, one, List.map_cons]
      simp [Bool.or_assoc, beq_eq_decide]
  rw [bits, BitVec.getLsbD_zero, Bool.false_or]

theorem mem_lanesOf {t : Team} {mask : Mask} {l : Nat} : l ∈ lanesOf t mask ↔ l < t.tl ∧ mask.getLsbD l = true := by
  unfold lanesOf
  rw [List.mem_filter, List.mem_range]

/-- The active lanes of a mask, as a mask. -/
theorem getLsbD_activeLanes (t : Team) (mask : Mask) (addr : Nat → Nat) {l : Nat} (hl : l < t.tl) :
    (((lanesOf t mask).map fun l => (l, addr l)).foldl (fun (m : Mask) x => m ||| (1#1024 <<< x.1)) 0#1024).getLsbD l
      = mask.getLsbD l := by
  by_cases small : l < 1024
  · rw [getLsbD_lanes _ small, List.map_map]
    simp [mem_lanesOf, Function.comp_def, hl]
  · rw [BitVec.getLsbD_of_ge _ _ (Nat.not_lt.1 small), BitVec.getLsbD_of_ge _ _ (Nat.not_lt.1 small)]

/-- Values of the lanes of a mask, and the mask, count below the team's lanes alone. -/
theorem Team.writeLanes_congr (t : Team) (pipe : Pipe) (w d : Nat) {mask mask' : Mask} (zm : Bool) {vals vals' : Nat → Nat}
    (same : ∀ l, l < t.tl → mask.getLsbD l = mask'.getLsbD l) (values : ∀ l, l < t.tl → mask'.getLsbD l = true → vals l = vals' l) :
    t.writeLanes pipe w d mask zm vals = t.writeLanes pipe w d mask' zm vals' := by
  have all : (List.range t.tl).map (fun l => if mask.getLsbD l then vals l else if zm then 0 else oldDest t pipe w d l)
      = (List.range t.tl).map fun l => if mask'.getLsbD l then vals' l else if zm then 0 else oldDest t pipe w d l := by
    refine List.map_congr_left fun l hl => ?_
    have below := List.mem_range.1 hl
    rw [same l below]
    split
    next active => exact values l below active
    next => rfl
  unfold Team.writeLanes
  dsimp only
  rw [all]

/-! ## The tile-store forms (R326) -/

/-- The addresses of the active lanes. -/
def tileAddrs (s : State) (t : Team) (p : LPre) (code off : Nat) : List (Nat × Nat) :=
  (lanesOf t (effMask t p).1).map fun l => (l, opnd s t .m .i32 code l + off)

/-- A tile-store form that issues: an empty mask is passed by, and otherwise its accesses are checked before it acts. -/
theorem laneTile_runs {s : State} {t : Team} {p : LPre} {f f' : Form} {d a : Nat} {o : BitVec 4} {n : Nat} {k : Codes}
    (form : f' = { f with more := if 192 ≤ a then [(Role.run 1, a)] else [] }) (h : LaneRuns s t p f' d a 0)
    (codes : k = laneCodes t p d a 0) (go : State → Team → Codes → List (Nat × Nat) → State) :
    laneTile s p f d a o n go = .next (if (effMask t p).1 = 0#1024 then passEmpty s p 1 (effMask t p).2
      else match worst (tileFails s t n (tileAddrs s t p k.a (o.toNat * n))) with
        | some x => takeFail s s.cur x
        | none => go s t k (tileAddrs s t p k.a (o.toNat * n))) := by
  subst form codes
  unfold laneTile tileAddrIll
  simp only [decide_eq_true_eq]
  rw [laneMem_runs h]
  rfl

/-- A special as the address operand names no register, so that the end of the instruction does not see it. -/
theorem Team.laneEnd_special (t : Team) (p : LPre) {f f' : Form} {a : Nat} (no_more : f.more = [])
    (form : f' = { f with more := if 192 ≤ a then [(Role.run 1, a)] else [] }) (k : Codes) (base : Nat) (dead : Bool) :
    t.laneEnd p f k base dead = t.laneEnd p f' k base dead := by
  have reads : readRegs f k = readRegs f' k := by
    unfold readRegs
    rw [form, no_more]
    by_cases special : 192 ≤ a
    · have unnamed : codeRegs a 1 = [] := if_neg (by omega)
      simp [special, Role.width, unnamed]
    · simp [special]
  unfold Team.laneEnd
  rw [reads, form]
  rfl

theorem laneTile_passes {s : State} {t : Team} {p : LPre} {i : Instr} {out : State} (team : s.teams[s.cur]? = some t)
    (runs : exec i s = .next (if (effMask t p).1 = 0#1024 then passEmpty s p 1 (effMask t p).2 else out)) : PassesEmpty i s t p 1 := by
  intro empty
  obtain ⟨u, passed, rest⟩ := passEmpty_gives team p 1 (effMask t p).2
  exact ⟨u, by rw [runs, if_pos empty, passed], rest⟩

/-- A load of the tile store where no access fails. -/
theorem laneResult_tileLoad (s : State) {t : Team} {p : LPre} {f : Form} {k : Codes} {w : Nat} (dead : Bool) (pipe : f.pipe = .m)
    (room : k.d < 160 → w = 0 ∨ k.d + w ≤ t.regs.length) (off : Nat) (value : Nat → Nat) :
    LaneResult t ((t.writeLanes .m w k.d ((tileAddrs s t p k.a off).foldl (fun (m : Mask) x => m ||| (1#1024 <<< x.1)) 0#1024) (pfxOf p).zm
      fun l => (look l ((tileAddrs s t p k.a off).map fun x => (x.1, value x.2))).getD 0).laneEnd p f k 1 dead) p f k w dead
      fun l => (value (opnd s t .m .i32 k.a l + off), FFlags.none) := by
  unfold tileAddrs
  rw [Team.writeLanes_congr t .m w k.d (pfxOf p).zm (mask' := (effMask t p).1)
    (vals' := fun l => value (opnd s t .m .i32 k.a l + off)) (fun l hl => getLsbD_activeLanes t _ _ hl) fun l hl active => ?_]
  · rw [← Team.raiseFlags_none (Team.writeLanes ..), ← pipe]
    exact laneResult_of room (fun _ _ _ => rfl) (laneFlags_none t p _).symm
  · rw [List.map_map]
    simp only [Function.comp_def, look_map_keys (fun l => value (opnd s t .m .i32 k.a l + off))]
    rw [if_pos (mem_lanesOf.2 ⟨hl, active⟩), Option.getD_some]

/-- Each lane of a store writes its operand, which the lanes before it leave as it is. -/
theorem tileWrites_opnd {s v : State} (only : OnlyTiles s v) (t : Team) (b : Block) (m n code : Nat) (kd : Kind) (addrs : List (Nat × Nat)) :
    addrs.foldl (fun v x => tileWrite v b m x.2 (leBytes n (opnd v t .m kd code x.1))) v
      = tileWrites b m (fun l => leBytes n (opnd s t .m kd code l)) v addrs := by
  induction addrs generalizing v with
  | nil => rfl
  | cons x xs ih =>
    rw [List.foldl_cons, only.opnd, ih (only.trans (OnlyTiles.write ..))]
    rfl

/-- Stores of the tile store where no access fails. -/
theorem endLane_tileWrites {s : State} {t : Team} (team : s.teams[s.cur]? = some t) (b : Block) (m : Nat) (bytes : Nat → List Byte)
    (addrs : List (Nat × Nat)) (p : LPre) (f : Form) (k : Codes) (base : Nat) (dead : Bool) :
    endLane (tileWrites b m bytes s addrs) p f k base dead
      = (tileWrites b m bytes s addrs).setTeam (tileWrites b m bytes s addrs).cur (t.laneEnd p f k base dead) := by
  have only := OnlyTiles.writes b m bytes s addrs
  refine State.modTeam_eq ?_ _
  rw [only.teams, only.cur, team]

theorem LaneEnds.of_laneEnd (t : Team) (p : LPre) (f : Form) (k : Codes) (base : Nat) (dead : Bool) :
    LaneEnds t (t.laneEnd p f k base dead) p f k base dead := by
  obtain ⟨-, regs, marks, latL, latX, latU, tags, status, moves, frame⟩ := Team.laneEnd_spec t p f k base dead
  exact ⟨regs, marks, ⟨latL, latX, latU⟩, tags, status, moves, frame⟩

theorem tileLoad_runs {s : State} {t : Team} {p : LPre} {d a : Byte} {m o : BitVec 4} {w : Nat} {f : Form} {k : Codes} {i : Instr}
    (runs : ∀ s, exec i s = tileLoad s p d a m o w)
    (form : f = { Form.of .m (.dst w) (.src 1) .field with more := if 192 ≤ a.toNat then [(Role.run 1, a.toNat)] else [] })
    (codes : k = laneCodes t p d.toNat a.toNat 0) (h : LaneRuns s t p f d.toNat a.toNat 0) :
    PassesEmpty i s t p 1 ∧ ((effMask t p).1 ≠ 0#1024 →
      (∀ x, worst (tileFails s t (4 * w) (tileAddrs s t p k.a (o.toNat * (4 * w)))) = some x → exec i s = .next (takeFail s s.cur x))
      ∧ (tileFails s t (4 * w) (tileAddrs s t p k.a (o.toNat * (4 * w))) = [] → ∃ u, exec i s = .next (s.setTeam s.cur u)
        ∧ LaneResult t u p f k w (readsDead t .m k.a 1) fun l =>
          (leNat (tileRead s (blockFor s t) m.toNat (opnd s t .m .i32 k.a l + o.toNat * (4 * w)) (4 * w)), FFlags.none))) := by
  have issued := runs s
  unfold tileLoad at issued
  rw [laneTile_runs form h codes] at issued
  refine ⟨laneTile_passes h.1 issued, fun active => ⟨fun x fails => ?_, fun clear => ?_⟩⟩
  · rw [issued, if_neg active, fails]
  · subst form
    have room : k.d < 160 → w = 0 ∨ k.d + w ≤ t.regs.length := fun hd => by
      rw [codes] at hd ⊢
      exact .inr (check_dest h.2.2.1 Role.noConfusion hd)
    refine ⟨_, ?_, laneResult_tileLoad s (readsDead t .m k.a 1) rfl room (o.toNat * (4 * w)) fun x =>
      leNat (tileRead s (blockFor s t) m.toNat x (4 * w))⟩
    rw [issued, if_neg active, clear, ← Team.laneEnd_special _ p rfl rfl]
    rfl

theorem tileStore_runs {s : State} {t : Team} {p : LPre} {d a : Byte} {m o : BitVec 4} {w : Nat} {f : Form} {k : Codes} {i : Instr}
    (short : 4 * w ≤ 16) (runs : ∀ s, exec i s = tileStore s p d a m o w)
    (form : f = { noWriteForm (.src w) (.src 1) with more := if 192 ≤ a.toNat then [(Role.run 1, a.toNat)] else [] })
    (codes : k = laneCodes t p d.toNat a.toNat 0) (h : LaneRuns s t p f d.toNat a.toNat 0) {addrs : List (Nat × Nat)}
    (places : addrs = tileAddrs s t p k.a (o.toNat * (4 * w))) :
    PassesEmpty i s t p 1 ∧ ((effMask t p).1 ≠ 0#1024 →
      (∀ x, worst (tileFails s t (4 * w) addrs) = some x → exec i s = .next (takeFail s s.cur x))
      ∧ (tileFails s t (4 * w) addrs = [] → ∃ v u, exec i s = .next (v.setTeam v.cur u) ∧ v.teams = s.teams ∧ HomesKept s v
        ∧ LaneEnds t u p f k 1 (readsDead t .m k.a 1 || readsDead t .m k.d w) ∧ (∀ e, (v.core e).l1 = (s.core e).l1)
        ∧ (∀ c q, (∀ x ∈ addrs, ∀ j, j < 4 * w → (c, q) ≠ tileSpot (blockFor s t) m.toNat (x.2 + j)) →
            Memory.read (v.core c).tile q = Memory.read (s.core c).tile q)
        ∧ ∀ l x ys zs, addrs = ys ++ (l, x) :: zs → ∀ j, j < 4 * w → (tileSpot (blockFor s t) m.toNat (x + j)).1 < s.cores.length →
            (∀ z ∈ zs, ∀ i, i < 4 * w → tileSpot (blockFor s t) m.toNat (z.2 + i) ≠ tileSpot (blockFor s t) m.toNat (x + j)) →
            tileByte v (blockFor s t) m.toNat (x + j) = BitVec.ofNat 8 (opnd s t .m (kindOfBytes (4 * w)) k.d l / 2 ^ (8 * j)))) := by
  have issued := runs s
  unfold tileStore at issued
  rw [laneTile_runs form h codes, ← places] at issued
  refine ⟨laneTile_passes h.1 issued, fun active => ⟨fun x fails => ?_, fun clear => ?_⟩⟩
  · rw [issued, if_neg active, fails]
  · subst form
    let bytes (l : Nat) : List Byte := leBytes (4 * w) (opnd s t .m (kindOfBytes (4 * w)) k.d l)
    have size (l : Nat) : (bytes l).length = 4 * w := leBytes_length _ _
    have only := OnlyTiles.writes (blockFor s t) m.toNat bytes s addrs
    refine ⟨tileWrites (blockFor s t) m.toNat bytes s addrs, _, ?_, only.teams, only.homes, LaneEnds.of_laneEnd .., only.l1, fun c q apart => ?_,
      fun l x ys zs split j inside own last => ?_⟩
    · rw [issued, if_neg active, clear, ← Team.laneEnd_special t p rfl rfl, ← endLane_tileWrites h.1]
      exact congrArg (fun v => Host.Outcome.next (endLane v ..)) (tileWrites_opnd (OnlyTiles.refl s) ..)
    · exact tileCell_writes_outside (p := (c, q)) size apart
    · rw [tileByte_eq_cell, split, tileCell_writes_last size short inside own last]
      exact leBytes_get inside _

/-- Settles O27: one load and one store of `4 * w` bytes, at `w` 1 and 4. -/
theorem tileStoreForms : Obligations.TileStoreForms := by
  rintro p d a m o s t n more k addrs (rfl | rfl) rfl codes rfl
  · exact ⟨fun i f hi hf h => tileLoad_runs (w := 1) (fun s => by rw [hi]; rfl) hf codes h,
      fun i f hi hf h => tileStore_runs (w := 1) (by decide) (fun s => by rw [hi]; rfl) hf codes h rfl⟩
  · exact ⟨fun i f hi hf h => tileLoad_runs (w := 4) (fun s => by rw [hi]; rfl) hf codes h,
      fun i f hi hf h => tileStore_runs (w := 4) (by decide) (fun s => by rw [hi]; rfl) hf codes h rfl⟩

end Sys2Proof.Machine
end

section
/-! PROOF. ATOMT over the bytes of a block's tile store (R167, R168, R171, R329). -/

namespace Sys2Proof.Machine

/-! ## Closing instructions: the REGION does not see where the instruction left the pc (R167, R168) -/

/-- The team after the REGION that ends before `head`. -/
def Team.pastRegion (t : Team) (live : BitVec 160) (head : Nat) : Team := { (t.checkpoint live head).jump head with moved := false }

theorem Team.pastRegion_withPc (t : Team) (pc : Nat) (live : BitVec 160) (head : Nat) :
    ({ t with pc := pc } : Team).pastRegion live head = t.pastRegion live head := by
  unfold Team.pastRegion Team.checkpoint
  dsimp only
  split <;> rfl

theorem afterPair_setTeam {s : State} {v : Team} (team : s.teams[s.cur]? = some v) (u : Team) (die pc words : Nat) (live : BitVec 160) :
    afterPair (s.setTeam s.cur u) die pc words live
      = (s.countDie die .issue).setTeam s.cur (u.pastRegion live (pc + 4 * words + 24)) := by
  have swap : (s.setTeam s.cur u).countDie die .issue = (s.countDie die .issue).setTeam s.cur u := rfl
  have cur : (s.setTeam s.cur u).cur = s.cur := rfl
  unfold afterPair
  rw [swap, cur, State.modTeam_eq (t := u) (State.setTeam_get (by exact team) u), State.setTeam_setTeam]
  rfl

/-- What follows the effect of a closing instruction depends on everything of its team but the pc. -/
theorem afterPair_setTeam_pc {s : State} {v : Team} (team : s.teams[s.cur]? = some v) (u : Team) (pc' die pc words : Nat) (live : BitVec 160) :
    afterPair (s.setTeam s.cur { u with pc := pc' }) die pc words live = afterPair (s.setTeam s.cur u) die pc words live := by
  rw [afterPair_setTeam team, afterPair_setTeam team, Team.pastRegion_withPc]

/-- Without REP the words of a lane instruction tell in its pc alone. -/
theorem Team.laneEnd_words (t : Team) (q : Option Pfx) (f : Form) (k : Codes) (base base' : Nat) (dead : Bool) :
    t.laneEnd ⟨none, q⟩ f k base dead = { t.laneEnd ⟨none, q⟩ f k base' dead with pc := (t.laneEnd ⟨none, q⟩ f k base dead).pc } := rfl

/-- A lane instruction that closes a region, with active lanes and its REGION there. -/
theorem laneClosing_runs {s s1 : State} {t : Team} {p : LPre} {f : Form} {d a b base : Nat} {live : BitVec 160} {k : Codes}
    (h : LaneCloses s t p f d a b base live s1) (codes : k = laneCodes t p d a b) (active : (effMask t p).1 ≠ 0#1024)
    (body : State → Team → Codes → Mask → Except State State) :
    laneClosing s p f d a b base body = .next (match body s1 t k (effMask t p).1 with
      | .ok u => afterPair u t.die t.pc (laneWords p base) live
      | .error u => u) := by
  obtain ⟨⟨team, rep, checked, ready, pending⟩, pairs⟩ := h
  have runs : LaneRuns s t p f.closed d a b := ⟨team, rep, (check_closed pairs.2.2.1 ..).trans checked, ready, pending⟩
  unfold laneClosing
  rw [laneIssue_runs runs, closing_runs team pairs pending]
  dsimp only
  rw [if_neg active, ← codes]
  cases body s1 t k (effMask t p).1 <;> rfl

/-! ## Places of a block's own tile store (R171) -/

/-- The bytes that a block's tile store has. -/
def TileHas (b : Block) (a : Nat) : Prop := tileBound b a 1 = false

theorem tileHas_iff {b : Block} {a : Nat} : TileHas b a ↔ a < 2 ^ 23 ∧ tileCore a < b.cfg.coresN ∧ tileOff a < b.shareBytes := by
  unfold TileHas tileBound
  simp only [Bool.or_eq_false_iff, decide_eq_false_iff_not, Nat.not_le, Nat.not_lt]
  omega

section
variable {b : Block} (enough : b.cfg.coresN ≤ b.cores.length)
include enough

theorem tileSpot_core {m a : Nat} (has : TileHas b a) : (tileSpot b m a).1 ∈ b.cores := by
  obtain ⟨-, core, -⟩ := tileHas_iff.1 has
  have inside : tileCore a < b.cores.length := by omega
  unfold tileSpot
  rw [List.getD_eq_getElem _ _ inside]
  exact List.getElem_mem inside

/-- A block whose cores differ keeps its bytes apart. -/
theorem tileSpot_inj (nodup : b.cores.Nodup) {x y : Nat} (hx : TileHas b x) (hy : TileHas b y) (same : tileSpot b 0 x = tileSpot b 0 y) :
    x = y := by
  obtain ⟨smallX, coreX, -⟩ := tileHas_iff.1 hx
  obtain ⟨smallY, coreY, -⟩ := tileHas_iff.1 hy
  have insideX : tileCore x < b.cores.length := by omega
  have insideY : tileCore y < b.cores.length := by omega
  obtain ⟨cores, places⟩ := Prod.mk.inj same
  rw [List.getD_eq_getElem _ _ insideX, List.getD_eq_getElem _ _ insideY] at cores
  have core : tileCore x = tileCore y := (List.Nodup.getElem_inj_iff nodup).1 cores
  have place (base a : Nat) : tilePlace base 0 (tileOff a) = 4096 * base + tileOff a := by
    unfold tilePlace tileBank tileOff fieldOf
    simp only [if_true]
    omega
  rw [core, place, place] at places
  unfold tileOff at places
  unfold tileCore at core
  unfold fieldOf at places core
  omega
end

/-- The accesses of 4 bytes that do not fail lie within the block's tile store. -/
theorem tileHas_of_clear {s : State} {t : Team} {addrs : List (Nat × Nat)} (clear : tileFails s t 4 addrs = []) {x : Nat × Nat}
    (hx : x ∈ addrs) {j : Nat} (hj : j < 4) : TileHas (blockFor s t) (x.2 + j) := by
  obtain ⟨aligned, bound⟩ := List.append_eq_nil_iff.1 (List.flatMap_eq_nil_iff.1 clear x hx)
  have word : x.2 % 4 = 0 := by
    by_contra odd
    rw [if_neg odd] at aligned
    cases aligned
  have inside : tileBound (blockFor s t) x.2 4 = false := by
    by_contra out
    unfold tileCause at bound
    rw [if_pos (by simpa using out)] at bound
    cases bound
  unfold tileBound at inside
  simp only [Bool.or_eq_false_iff, decide_eq_false_iff_not, Nat.not_le, Nat.not_lt] at inside
  rw [tileHas_iff]
  unfold tileCore tileOff fieldOf at inside ⊢
  omega

/-! ## ATOMT (R329) -/

/-- Atomics of lanes on words of a tile store: the old values after those listed, and the state. -/
def tileExchanges (b : Block) (new : Nat → Nat → Nat) (addrs : List (Nat × Nat)) (vals : List (Nat × Nat)) (s : State) :
    List (Nat × Nat) × State :=
  addrs.foldl (fun (acc : List (Nat × Nat) × State) y =>
    let old := leNat (tileRead acc.2 b 0 y.2 4)
    (acc.1 ++ [(y.1, old)], tileWrite acc.2 b 0 y.2 (leBytes 4 (new y.1 old)))) (vals, s)

theorem tileExchanges_only (b : Block) (new : Nat → Nat → Nat) (addrs vals : List (Nat × Nat)) (s : State) :
    OnlyTiles s (tileExchanges b new addrs vals s).2 := by
  induction addrs generalizing vals s with
  | nil => exact OnlyTiles.refl s
  | cons y ys ih => exact (OnlyTiles.write ..).trans (ih ..)

theorem tileExchanges_outside {b : Block} {new : Nat → Nat → Nat} {addrs vals : List (Nat × Nat)} {s : State} {p : Nat × Nat}
    (apart : ∀ y ∈ addrs, ∀ i, i < 4 → p ≠ tileSpot b 0 (y.2 + i)) : tileCell (tileExchanges b new addrs vals s).2 p = tileCell s p := by
  induction addrs generalizing vals s with
  | nil => rfl
  | cons y ys ih =>
    refine (ih fun z hz => apart z (List.mem_cons_of_mem y hz)).trans (tileCell_write_outside fun j hj => ?_)
    exact apart y List.mem_cons_self j (by rwa [leBytes_length] at hj)

/-- One lane's word replaced, as the bytes of the block read afterwards. -/
theorem tileByte_word {b : Block} (enough : b.cfg.coresN ≤ b.cores.length) (nodup : b.cores.Nodup) {s : State}
    (placed : ∀ c ∈ b.cores, c < s.cores.length) {a v e : Nat} (word : ∀ j, j < 4 → TileHas b (a + j)) (has : TileHas b e) :
    tileByte (tileWrite s b 0 a (leBytes 4 v)) b 0 e
      = if a ≤ e ∧ e < a + 4 then BitVec.ofNat 8 (v / 2 ^ (8 * (e - a))) else tileByte s b 0 e := by
  rw [tileByte_eq_cell]
  split
  next inside =>
    obtain ⟨j, rfl⟩ := Nat.exists_eq_add_of_le inside.1
    have hj : j < 4 := by omega
    rw [tileCell_write_inside (by rw [leBytes_length]; decide) (by rwa [leBytes_length])
      (placed _ (tileSpot_core enough (word j hj))), leBytes_get hj, Nat.add_sub_cancel_left]
  next outside =>
    refine tileCell_write_outside fun j hj same => outside ?_
    rw [leBytes_length] at hj
    have := tileSpot_inj enough nodup has (word j hj) same
    omega

/-- The lanes' atomics one after another are those of the bytes by address. -/
theorem tileExchanges_eq {b : Block} (enough : b.cfg.coresN ≤ b.cores.length) (nodup : b.cores.Nodup) (new : Nat → Nat → Nat)
    {addrs : List (Nat × Nat)} (words : ∀ y ∈ addrs, ∀ j, j < 4 → TileHas b (y.2 + j)) (vals : List (Nat × Nat)) {s : State}
    (placed : ∀ c ∈ b.cores, c < s.cores.length) {g : Nat → Byte} (agree : ∀ e, TileHas b e → tileByte s b 0 e = g e) :
    (tileExchanges b new addrs vals s).1 = vals ++ (tileAtomics new addrs g).1
    ∧ ∀ e, TileHas b e → tileByte (tileExchanges b new addrs vals s).2 b 0 e = (tileAtomics new addrs g).2 e := by
  induction addrs generalizing vals s g with
  | nil => exact ⟨(List.append_nil vals).symm, agree⟩
  | cons y ys ih =>
    have word := words y List.mem_cons_self
    have old : leNat (tileRead s b 0 y.2 4) = leNat ((List.range 4).map fun j => g (y.2 + j)) :=
      congrArg leNat (List.map_congr_left fun j hj => agree _ (word j (List.mem_range.1 hj)))
    have rest := ih (fun z hz => words z (List.mem_cons_of_mem y hz))
      (vals ++ [(y.1, leNat (tileRead s b 0 y.2 4))])
      (s := tileWrite s b 0 y.2 (leBytes 4 (new y.1 (leNat (tileRead s b 0 y.2 4)))))
      (by rwa [(OnlyTiles.write ..).count])
      (g := fun e => if y.2 ≤ e ∧ e < y.2 + 4 then BitVec.ofNat 8 (new y.1 (leNat (tileRead s b 0 y.2 4)) / 2 ^ (8 * (e - y.2))) else g e)
      fun e has => by rw [tileByte_word enough nodup placed word has, agree e has]
    obtain ⟨values, bytes⟩ := rest
    rw [old] at values bytes
    refine ⟨?_, ?_⟩
    · show (tileExchanges b new ys _ _).1 = _
      rw [old, values, List.append_assoc]
      rfl
    · intro e has
      show tileByte (tileExchanges b new ys (vals ++ [(y.1, leNat (tileRead s b 0 y.2 4))]) _).2 b 0 e = _
      rw [old, bytes e has]
      rfl

/-- The team that ATOMT leaves before its REGION, `base` words on, where its lanes met the values `vals`. -/
def Team.afterAtomt (t : Team) (ret : Bool) (q : Option Pfx) (f : Form) (k : Codes) (vals : List (Nat × Nat)) (base : Nat) (dead : Bool) : Team :=
  (if ret then t.writeLanes .m 1 k.d (effMask t ⟨none, q⟩).1 (pfxOf ⟨none, q⟩).zm fun l => (look l vals).getD 0 else t).laneEnd
    ⟨none, q⟩ f k base dead

theorem afterPair_afterAtomt {w : State} {t : Team} (team : w.teams[w.cur]? = some t) (ret : Bool) (q : Option Pfx) (f : Form) (k : Codes)
    (vals : List (Nat × Nat)) (base base' : Nat) (dead : Bool) (die pc words : Nat) (live : BitVec 160) :
    afterPair (w.setTeam w.cur (t.afterAtomt ret q f k vals base dead)) die pc words live
      = afterPair (w.setTeam w.cur (t.afterAtomt ret q f k vals base' dead)) die pc words live :=
  afterPair_setTeam_pc team (t.afterAtomt ret q f k vals base' dead) (t.afterAtomt ret q f k vals base dead).pc ..

/-- The team writes its old values, where RET asks for them, and ends. -/
theorem endLane_atomt {w : State} {t : Team} (team : w.teams[w.cur]? = some t) (ret : Bool) (q : Option Pfx) (f : Form) (k : Codes)
    (vals : List (Nat × Nat)) (base : Nat) (dead : Bool) :
    endLane (if ret then w.modTeam w.cur fun u => u.writeLanes .m 1 k.d (effMask t ⟨none, q⟩).1 (pfxOf ⟨none, q⟩).zm
      fun l => (look l vals).getD 0 else w) ⟨none, q⟩ f k base dead = w.setTeam w.cur (t.afterAtomt ret q f k vals base dead) := by
  unfold endLane Team.afterAtomt
  cases ret with
  | false => exact State.modTeam_eq team _
  | true =>
    rw [if_pos rfl, if_pos rfl, State.modTeam_eq team, State.setTeam_cur, State.modTeam_eq (State.setTeam_get team _), State.setTeam_setTeam]

theorem exec_atomt {q : Option Pfx} {d a b : Byte} {x : AtomExt} {s s1 : State} {t : Team} {live : BitVec 160} {f : Form} {k : Codes}
    {addrs : List (Nat × Nat)} {new : Nat → Nat → Nat} {dead : Bool}
    (codes : k = laneCodes t ⟨none, q⟩ d.toNat a.toNat b.toNat) (no_kc : (pfxOf ⟨none, q⟩).kc = false)
    (form : f = { atomForm x 1 with
      a := .src 1, more := (atomForm x 1).more ++ if 192 ≤ a.toNat then [(.run 1, a.toNat)] else [] })
    (closes : LaneCloses s t ⟨none, q⟩ f d.toNat a.toNat b.toNat 2 live s1) (active : (effMask t ⟨none, q⟩).1 ≠ 0#1024)
    (places : addrs = (lanesOf t (effMask t ⟨none, q⟩).1).map fun l => (l, opnd s1 t .m .i32 k.a l))
    (news : new = fun l old => aopApply x.aop 4 old (opnd s1 t .m (aopKind x.aop false) k.b l)
      (if usesC x.aop then opnd s1 t .m (aopKind x.aop false) x.c.toNat l else 0))
    (deads : dead = (readsDead t .m k.a 1 || readsDead t .m k.b 1 || (usesC x.aop && readsDead t .m x.c.toNat 1))) :
    (∀ e, worst (tileFails s1 t 4 addrs) = some e → exec (.atomt q d a b x) s = .next (takeFail s1 s1.cur e))
    ∧ (tileFails s1 t 4 addrs = [] → exec (.atomt q d a b x) s
      = .next (afterPair ((tileExchanges (blockFor s1 t) new addrs [] s1).2.setTeam s.cur (t.afterAtomt x.ret q f k
          (tileExchanges (blockFor s1 t) new addrs [] s1).1 2 dead)) t.die t.pc (laneWords ⟨none, q⟩ 2) live)) := by
  have issued : exec (.atomt q d a b x) s = execAtomt q d a b x s := rfl
  have special : (if tileAddrIll a.toNat then [(Role.run 1, a.toNat)] else []) = if 192 ≤ a.toNat then [(Role.run 1, a.toNat)] else [] := by
    unfold tileAddrIll
    simp only [decide_eq_true_eq]
  obtain ⟨-, -, -, -, cur, team, -⟩ := id closes
  rw [issued]
  unfold execAtomt onlyPfx
  dsimp only
  rw [special, ← form, laneClosing_runs closes codes active, ← places]
  refine ⟨fun e fails => by rw [fails], fun clear => ?_⟩
  rw [clear]
  have only := tileExchanges_only (blockFor s1 t) new addrs [] s1
  have left : (tileExchanges (blockFor s1 t) new addrs [] s1).2.teams[(tileExchanges (blockFor s1 t) new addrs [] s1).2.cur]? = some t := by
    rw [only.teams, only.cur, cur, team]
  have ends := endLane_atomt left x.ret q f k (tileExchanges (blockFor s1 t) new addrs [] s1).1 2 dead
  rw [← only.cur.trans cur, ← ends]
  simp only [no_kc, Bool.false_and, Bool.false_eq_true, if_false]
  subst news deads
  rfl

/-- Settles O32: by induction on the lanes the tile store reads as `tileAtomics` says, since a block's bytes have places of their own. -/
theorem tileAtomicsReadAndReplace : Obligations.TileAtomicsReadAndReplace := by
  intro q d a b x s s1 t live f k kd blk dead addrs after codes no_kc form closes active places block placed nodup enough kind afters deads
  subst kind block
  obtain ⟨fails, runs⟩ := exec_atomt codes no_kc form closes active places rfl deads
  refine ⟨fails, fun clear => ?_⟩
  obtain ⟨-, -, -, -, cur, team, -⟩ := id closes
  generalize news : (fun l old => aopApply x.aop 4 old (opnd s1 t .m (aopKind x.aop false) k.b l)
      (if usesC x.aop then opnd s1 t .m (aopKind x.aop false) x.c.toNat l else 0)) = new at runs afters
  have only := tileExchanges_only (blockFor s1 t) new addrs [] s1
  obtain ⟨values, bytes⟩ := tileExchanges_eq enough nodup new (fun y hy j hj => tileHas_of_clear clear hy hj) [] placed
    (g := tileByte s1 (blockFor s1 t) 0) fun e _ => rfl
  rw [← afters, List.nil_append] at values
  rw [← afters] at bytes
  have outside := fun c j => tileExchanges_outside (b := blockFor s1 t) (new := new) (addrs := addrs) (vals := []) (s := s1) (p := (c, j))
  have left : (tileExchanges (blockFor s1 t) new addrs [] s1).2.teams[(tileExchanges (blockFor s1 t) new addrs [] s1).2.cur]? = some t := by
    rw [only.teams, only.cur, cur, team]
  have runs := runs clear
  rw [values] at runs
  cases ret : x.ret with
  | true =>
    have dest : f.d = .dst 1 := by
      rw [form]
      show (if x.ret then Role.dst 1 else .field) = _
      rw [ret, if_pos rfl]
    have pipe : f.pipe = .m := by rw [form]; rfl
    have room : k.d < 160 → 1 = 0 ∨ k.d + 1 ≤ t.regs.length := fun hd => by
      obtain ⟨⟨-, -, checked, -⟩, -⟩ := closes
      have := check_dest checked (by rw [dest]; exact Role.noConfusion) (by rwa [codes] at hd)
      rw [dest] at this
      rw [codes]
      exact .inr this
    refine ⟨_, t.afterAtomt true q f k after.1 1 dead, ?_, only.homes, bytes, outside, fun _ => ?_, fun h => by cases h⟩
    · rw [runs, ret, ← only.cur.trans cur, afterPair_afterAtomt left true q f k after.1 2 1]
    · unfold Team.afterAtomt
      rw [if_pos rfl, ← Team.raiseFlags_none (Team.writeLanes ..), ← pipe]
      exact laneResult_of room (fun _ _ _ => rfl) (laneFlags_none t _ _).symm
  | false =>
    refine ⟨_, t.afterAtomt false q f k after.1 2 dead, ?_, only.homes, bytes, outside, (fun h => by cases h), fun _ => ?_⟩
    · rw [runs, ret]
    · exact LaneEnds.of_laneEnd ..

end Sys2Proof.Machine
end

section
/-! PROOF. A count of an acquire that moves an address map before its registrations (R46, R176, R351). -/

namespace Sys2Proof.Machine

open Tests

/-- A team of a die of number 20, whose counter of acquires has the place of a shape register of die 0 (R46). -/
def farTeam : Team := { theTeam (giving (.offered 0) 0 1) with die := 20 }

/-- Its core is about to register the first word of a sector of which another core holds the second, dirty and registered. The
shape that the counter of the team's die stands in puts that sector on a poisoned one until the counter moves. -/
def farState : State :=
  let base := giving (.offered 0) 0 1
  { base with
    teams := [farTeam]
    cores := ((List.replicate 320 Core.reset).set 1 { Core.reset with l1 := [(0x80000, ⟨5#32, true, true, false, false, none⟩)] })
      ++ [{ base.core 0 with l1 := [(0x80000, ⟨7#32, true, false, true, false, none⟩)] }]
    registrants := [(0x80000, 1)]
    mregs := put (SHBASE 0 6) 0x3FFFFF#64 (put (SHCFG 0 6) (0x1000000000000#64 + 256 + 42 + 1) base.mregs)
    poison := [2155872288] }

/-- The state that the fetch of the REGION of its TSTAKE leaves. -/
def farFetched : State := pairEnd farState farTeam 1

/-- The state that the TSTAKE leaves. -/
def farTaken : State := match execTstake 4 5 farState with
  | .next w => w
  | _ => farState

theorem farState_tstake : exec (.tstake 4 5) farState = .next farTaken := by
  have goes : (match execTstake 4 5 farState with | .next _ => true | _ => false) = true := by decide +kernel
  refine Eq.trans (b := execTstake 4 5 farState) (by unfold exec; rfl) ?_
  unfold farTaken
  split at goes
  · next e => rw [e]
  · contradiction

theorem farState_closes : UniCloses farState farTeam { Form.of .m (.dst 1) (.src 1) .field with writes := false } 4 5 0 1 0#160 farFetched :=
  closes_of (by decide +kernel) (by decide +kernel)

/-- The block of the team, whose unit 0 is offered to it. -/
def farBlock : Block := { loadBlock with cfg := { loadCfg with nt := 2 }, live := [0, 1], units := [(0, .offered 0)] }

theorem farFetched_block : farFetched.blockOf farTeam.key = some farBlock ∧ opnd farFetched farTeam .m .i32 (5#8 : Byte).toNat 0 = 0
    ∧ handleOk farBlock 0 = true ∧ farTeam.regs.length ≤ 160 ∧ handleList 0 = [0] ∧ farTeam.key.num = 0 := by decide +kernel

/-- A poisoned sector takes no part of a word: with the shape of before no byte of the dirty word reaches the L2. -/
theorem farTaken_l2 : farTaken.l2.length ≠ (registerPending farFetched farTeam.coreNo).l2.length := by decide +kernel

/-- Refutes O39: a TSTAKE counts its acquire in a register of its die, and its second clause lets the team's die be any number.
Of die 20 that register is a shape of die 0's address map, so that the words of the core register at other places than before
the instruction. -/
theorem not_tileUnitsPassBetweenTeams : ¬ Obligations.TileUnitsPassBetweenTeams := by
  intro claim
  obtain ⟨block, handle, fits, regs, unit, num⟩ := farFetched_block
  obtain ⟨-, takes⟩ := claim farState farFetched farTeam 4 5 0 0#160 farBlock 0 0 farBlock.units block handle.symm rfl
  have offered : ∀ u ∈ farBlock.units, ∀ n, u.2 ≠ .offering n [] := by
    intro u hu n
    obtain rfl := List.mem_singleton.1 hu
    exact nofun
  obtain ⟨w, v, done, -, -, taken, -⟩ := (takes farState_closes).2 fits offered (by decide) regs
  obtain ⟨⟨-, l2, -, -⟩, -⟩ := taken (by rw [unit, num]; decide)
  have same := Host.Outcome.next.inj (farState_tstake.symm.trans done)
  exact farTaken_l2 (congrArg List.length (same ▸ l2))

end Sys2Proof.Machine
end

section
/-! PROOF. A registration whose write at the home finds the L2 full (R50, R62, R183, R202, R203). -/

namespace Sys2Proof.Machine

/-! ## A full L2 of dirty sectors -/

/-- One dirty byte in each of as many sectors as an L2 holds, from the second sector of die 0. -/
def crowdedL2 : List Host.Cell := (List.range l2Size).map fun i => (32 * (i + 1), 1#8)

theorem mem_crowdedL2 {x : Host.Cell} : x ∈ crowdedL2 ↔ ∃ i, i < l2Size ∧ x = (32 * (i + 1), 1#8) := by
  unfold crowdedL2
  simp only [List.mem_map, List.mem_range, eq_comm]

theorem crowdedL2_length : crowdedL2.length = l2Size := by
  unfold crowdedL2
  rw [List.length_map, List.length_range]

/-- Addresses below 2^37, which are those of die 0, have places where that die is up and maps them by R46, and no bank is parked. -/
theorem placed_below {s : State} (up : (s.die 0).up = true) (single : (s.die 0).single = none) (alive : s.deadAgents = [])
    (parked : ∀ n, (s.stk n).parked = none) {a : Nat} (small : a < 2 ^ 37) : place s a ≠ none := by
  have die : homeDie a = 0 := by unfold homeDie; omega
  have raw : placeRaw s 0 (dieOffset a) = some (mapShaped s 0 (dieOffset a)) := by
    unfold placeRaw State.dieDead
    simp [up, single, alive]
  unfold place
  rw [if_neg (by omega), die, raw]
  unfold redirect
  simp [parked]

/-- The sectors below 2^37 have places, none is poisoned, the memory is empty, and the L2 of die 0 is full. -/
structure Crowded (s : State) : Prop where
  l2 : s.l2 = crowdedL2
  held : s.l2held = []
  dram : s.dram = []
  poison : s.poison = []
  placed : ∀ a, a < 2 ^ 37 → place s a ≠ none

theorem Crowded.of_same {s t : State} (h : Crowded s) (same : SameHomes s t) : Crowded t :=
  ⟨same.l2.trans h.l2, same.l2held.trans h.held, same.dram.trans h.dram, same.poison.trans h.poison,
    fun a small => by rw [same.places.place]; exact h.placed a small⟩

theorem put_ne_nil {α : Type} (k : Nat) (x : α) (m : List (Nat × α)) : put k x m ≠ [] := by
  cases m with
  | nil => exact List.cons_ne_nil _ _
  | cons e m =>
    unfold put
    split_ifs <;> exact List.cons_ne_nil _ _

/-- Bytes other than the fill stay in the memory. -/
theorem writes_ne_nil {bs : List (Nat × Byte)} (some_byte : bs ≠ []) (kept : ∀ b ∈ bs, b.2 ≠ Memory.fill) (f : Nat → Nat) (m : Memory) :
    bs.foldl (fun m b => Memory.write m (f b.1) b.2) m ≠ [] := by
  obtain ⟨xs, x, rfl⟩ := (List.eq_nil_or_concat bs).resolve_left some_byte
  rw [List.concat_eq_append, List.foldl_concat]
  unfold Memory.write
  rw [if_neg (kept x (by simp))]
  exact put_ne_nil _ _ _

/-- A sector that such an L2 gives up is written to the memory. -/
theorem Crowded.dropL2 {s : State} (h : Crowded s) {i : Nat} (hi : i < l2Size) : (Machine.dropL2 s (i + 1)).dram ≠ [] := by
  obtain ⟨mine, dirty⟩ : ∃ mine, mine = s.l2.filter fun c => c.1 / 32 == i + 1 := ⟨_, rfl⟩
  have held : (32 * (i + 1), 1#8) ∈ mine := by
    rw [dirty, h.l2]
    exact List.mem_filter.2 ⟨mem_crowdedL2.2 ⟨i, hi, rfl⟩, by simp⟩
  have all : ∀ c ∈ mine, c.1 % 32 = 0 ∧ c.2 = 1#8 := by
    intro c hc
    rw [dirty, h.l2] at hc
    obtain ⟨j, -, rfl⟩ := mem_crowdedL2.1 (List.mem_filter.1 hc).1
    exact ⟨Nat.mul_mod_right 32 _, rfl⟩
  obtain ⟨u, cleared⟩ : ∃ u, u = { s with l2 := s.l2.filter fun c => c.1 / 32 != i + 1 } := ⟨_, rfl⟩
  obtain ⟨n, spot⟩ : ∃ n, place u (32 * (i + 1)) = some n := by
    have small : 32 * (i + 1) < 2 ^ 37 := by unfold l2Size at hi; omega
    have same : place u (32 * (i + 1)) = place s (32 * (i + 1)) := by
      rw [cleared]
      exact (SamePlaces.of_eq rfl rfl rfl rfl).place _
    rw [same]
    exact Option.ne_none_iff_exists'.1 (h.placed _ small)
  have part : ((List.range 32).all fun i => (mine.map fun c => (c.1 % 32, c.2)).any (·.1 == i)) = false := by
    refine List.all_eq_false.2 ⟨1, by simp, ?_⟩
    simp only [List.any_map, List.any_eq_true, not_exists, not_and]
    intro c hc
    simp [(all c hc).1]
  have clean : u.isPoisoned n = false := by
    unfold State.isPoisoned
    rw [cleared]
    simp [h.poison]
  have written : (Machine.dropL2 s (i + 1)).dram = (u.putSector n false (mine.map fun c => (c.1 % 32, c.2))).dram := by
    unfold Machine.dropL2 writeBackSector
    dsimp only
    rw [← dirty, ← cleared, spot, if_neg (by simpa [List.isEmpty_iff] using List.ne_nil_of_mem held)]
    unfold State.writeSector
    rw [part]
  rw [written, (putSector_part clean _).2.2]
  refine writes_ne_nil (f := fun k => 32 * n + k) ?_ ?_ _
  · simpa using List.ne_nil_of_mem held
  · intro b hb
    obtain ⟨c, hc, rfl⟩ := List.mem_map.1 hb
    rw [(all c hc).2]
    decide

/-- It has a sector of die 0 for each of its places. -/
theorem Crowded.sectors {s : State} (h : Crowded s) : l2Sectors s 0 = (List.range l2Size).map (· + 1) := by
  have sectors : crowdedL2.map (fun c => c.1 / 32) = (List.range l2Size).map (· + 1) := by
    unfold crowdedL2
    rw [List.map_map]
    refine List.map_congr_left fun i _ => ?_
    show 32 * (i + 1) / 32 = i + 1
    omega
  have nodup : ((List.range l2Size).map (· + 1)).Nodup := List.nodup_range.map (add_left_injective 1)
  unfold l2Sectors
  rw [h.l2, h.held, List.append_nil, sectors, nodup.dedup]
  refine List.filter_eq_self.2 fun x hx => ?_
  obtain ⟨i, hi, rfl⟩ := List.mem_map.1 hx
  have small : i < 3145728 := List.mem_range.1 hi
  rw [beq_iff_eq]
  unfold homeDie
  omega

/-- Room for a further sector of die 0 costs one of those. -/
theorem Crowded.roomL2 {s : State} (h : Crowded s) : (Machine.roomL2 s 0).dram ≠ [] := by
  obtain ⟨k, below, chosen⟩ : ∃ k, k < l2Size ∧ ((l2Sectors s 0).getD ((Config.freeBits s.tick).toNat % (l2Sectors s 0).length) 0) = k + 1 := by
    have full : (l2Sectors s 0).length = l2Size := by rw [h.sectors, List.length_map, List.length_range]
    have below : (Config.freeBits s.tick).toNat % l2Size < l2Size := Nat.mod_lt _ (by decide)
    refine ⟨(Config.freeBits s.tick).toNat % l2Size, below, ?_⟩
    rw [full, h.sectors, List.getD_eq_getElem _ _ (by rwa [List.length_map, List.length_range]), List.getElem_map, List.getElem_range]
  have full : ¬ s.l2.length + s.l2held.length < l2Size := by
    rw [h.l2, h.held, crowdedL2_length]
    exact lt_irrefl _
  have many : ¬ (l2Sectors s 0).length < l2Size := by
    rw [h.sectors, List.length_map, List.length_range]
    exact lt_irrefl _
  have later : Crowded s.nextTick := h.of_same ⟨.update .., rfl, rfl⟩
  unfold Machine.roomL2
  rw [if_neg full]
  dsimp only
  rw [if_neg many, chosen]
  exact later.dropL2 below

/-! ## A dirty word that its registrant gives up -/

/-- A write in the first sector, which such an L2 does not hold, sends another to the memory. -/
theorem Crowded.writeL2 {s : State} (h : Crowded s) (w : EnWrite) : (Machine.writeL2 s 0 w).dram ≠ [] := by
  have absent : (s.l2held.contains 0 || s.l2.any (·.1 / 32 == 0)) = false := by
    rw [h.held, h.l2, List.contains_nil, Bool.false_or, List.any_eq_false]
    intro c hc
    obtain ⟨i, -, rfl⟩ := mem_crowdedL2.1 hc
    rw [beq_iff_eq]
    show ¬ 32 * (i + 1) / 32 = 0
    omega
  unfold Machine.writeL2
  rw [absent, if_neg Bool.false_ne_true]
  refine ne_of_eq_of_ne (foldl_shows (g := State.dram) rfl (fun _ _ => ?_) w) h.roomL2
  rfl

/-- A write of part of that sector goes to the L2. -/
theorem Crowded.homeWriteSector {s : State} (h : Crowded s) {w : EnWrite} (named : w ≠ [])
    (part : ((List.range 32).all fun i => w.any fun x => x.1 == 32 * 0 + i && x.2.2 == fullMask) = false) :
    (Machine.homeWriteSector s false 0 w).dram ≠ [] := by
  obtain ⟨n, spot⟩ := Option.ne_none_iff_exists'.1 (h.placed (32 * 0) (by decide))
  have clean : homePoisoned s 0 = false := by
    unfold homePoisoned State.isPoisoned
    rw [spot, h.poison]
    rfl
  have here : (w.filter fun x => !false || l2HoldsByte s x.1) = w := List.filter_eq_self.2 fun _ _ => rfl
  have past : (w.filter fun x => false && !l2HoldsByte s x.1) = [] := List.filter_eq_nil_iff.2 fun _ _ => Bool.false_ne_true
  unfold Machine.homeWriteSector
  rw [spot]
  dsimp only
  rw [part, clean, here, past, if_neg Bool.false_ne_true, if_neg Bool.false_ne_true, if_pos List.isEmpty_nil,
    if_neg (by simpa [List.isEmpty_iff] using named)]
  exact h.writeL2 w

theorem Crowded.writeHomeWord {s : State} (h : Crowded s) (c : Nat) (v : Word) : (Machine.writeHomeWord s c 0 v).dram ≠ [] := by
  have enabled : ∀ x ∈ wordBytes 0 v, x.2.2 ≠ 0#8 := by
    intro x hx
    obtain ⟨y, -, rfl⟩ := List.mem_map.1 hx
    show fullMask ≠ 0#8
    decide
  obtain ⟨u, told, noted⟩ := homeWrite_sectorwise (s.hear c) enabled false
  have crowded := (h.of_same (SameHomes.hear s c)).of_same told
  have updated := SameHomes.updateCan (homeWrite (s.hear c) (wordBytes 0 v)) c 0 v (~~~0#32)
  unfold Machine.writeHomeWord
  have first : ∀ x ∈ wordBytes 0 v, x.1 / 32 = 0 := by
    intro x hx
    obtain ⟨y, hy, rfl⟩ := List.mem_map.1 hx
    have below : y.2 < 0 + 4 * 0 + 4 := by simpa using List.snd_lt_add_of_mem_zipIdx hy
    exact Nat.div_eq_of_lt (by omega)
  have some_byte : wordBytes 0 v ≠ [] := List.cons_ne_nil _ _
  have sectors : ((wordBytes 0 v).map fun x => x.1 / 32).dedup = [0] :=
    dedup_of_all_eq (List.forall_mem_map.2 first) (by simpa using some_byte)
  have all : ((wordBytes 0 v).filter fun x => x.1 / 32 == 0) = wordBytes 0 v :=
    List.filter_eq_self.2 fun x hx => beq_iff_eq.2 (first x hx)
  rw [updated.dram, noted.dram, sectors, List.foldl_cons, List.foldl_nil, all]
  exact crowded.homeWriteSector (w := wordBytes 0 v) some_byte rfl

/-- The registration of that word, of which another core holds a dirty copy registered. -/
theorem Crowded.registerWord {s : State} (h : Crowded s) {c r : Nat} {y : L1Word} (other : r ≠ c)
    (registered : look 0 s.registrants = some r) (copy : l1Word s r 0 = some y) (dirty : y.dirty = true) (alive : homeDead s 0 = false) :
    (Machine.registerWord s c 0).dram ≠ [] := by
  have revoked : (revokeWord s 0).dram = (Machine.writeHomeWord s r 0 y.val).dram := by
    unfold revokeWord
    rw [registered]
    dsimp only
    rw [copy]
    dsimp only
    rw [if_pos dirty]
    rfl
  have told := SameHomes.backInvalidate ((revokeWord s 0).hear c) [0 / 32]
  unfold Machine.registerWord
  rw [alive, Bool.false_and, if_neg Bool.false_ne_true, registered, if_neg (by simpa using other)]
  dsimp only
  have kept : ({ Machine.backInvalidate ((revokeWord s 0).hear c) [0 / 32] with
      registrants := put 0 c (Machine.backInvalidate ((revokeWord s 0).hear c) [0 / 32]).registrants } : State).dram ≠ [] := by
    show (Machine.backInvalidate ((revokeWord s 0).hear c) [0 / 32]).dram ≠ []
    rw [told.dram]
    exact revoked ▸ h.writeHomeWord r y.val
  split <;> exact kept

/-- Every registration of a core whose L1 holds that word alone. -/
theorem Crowded.registerPending {s : State} (h : Crowded s) {c r : Nat} {x y : L1Word} (l1 : (s.core c).l1 = [(0, x)])
    (pend : x.pend = true) (plain : x.sync = false) (other : r ≠ c) (registered : look 0 s.registrants = some r)
    (copy : l1Word s r 0 = some y) (dirty : y.dirty = true) (alive : homeDead s 0 = false) : (Machine.registerPending s c).dram ≠ [] := by
  unfold Machine.registerPending
  rw [l1, List.foldl_cons, List.foldl_nil, pend, plain]
  exact h.registerWord other registered copy dirty alive

/-! ## The wait's end (R202, R350) -/

theorem waitBatches_dram {s : State} {k : Nat} {t : Team} (team : s.teams[k]? = some t) (bs : List Batch) :
    (waitBatches s k bs).2.dram = (registerPending s t.coreNo).dram := by
  unfold waitBatches
  rw [team]
  rfl

theorem unparkKey_dram (s : State) (key : TeamKey) : (unparkKey s key).dram = s.dram := by
  unfold unparkKey enterActive
  dsimp only
  repeat' split
  all_goals rfl

/-- The end of an AWAIT that meets no cause is an acquire, whose registrations may write to the memory. -/
theorem endAwait_dram {s : State} {key : TeamKey} {k n : Nat} {t : Team} (found : (s.teams.findIdx? fun t => t.key == key) = some k)
    (named : s.teamOf key = some t) (team : s.teams[k]? = some t) (calm : batchCause s ((coveredBy t n).flatMap (·.ops)) = none) :
    (endAwait s key n).dram = (registerPending s t.coreNo).dram := by
  unfold endAwait
  rw [found, named]
  dsimp only
  rw [calm, unparkKey_dram]
  cases t.pending <;> exact waitBatches_dram team _

/-- A state whose one team waits for operations that are done and met no cause. -/
theorem wakeWaiters_dram {s : State} {t : Team} {n : Nat} (alone : s.teams = [t]) (waits : t.park = some (.batch n))
    (done : opsDone s ((coveredBy t n).flatMap (·.ops)) = true) (calm : batchCause s ((coveredBy t n).flatMap (·.ops)) = none) :
    (wakeWaiters s).dram = (registerPending s t.coreNo).dram := by
  unfold wakeWaiters
  rw [alone, List.foldl_cons, List.foldl_nil, waits]
  dsimp only
  rw [if_pos done]
  refine endAwait_dram (k := 0) ?_ ?_ (by rw [alone]; rfl) calm
  · rw [alone, List.findIdx?_cons]
    simp
  · unfold State.teamOf
    rw [alone, List.find?_cons]
    simp

/-! ## An MZERO that ends while its team waits for it -/

open Tests

/-- An MZERO of the demonstration team. -/
def lastZero : MatOp := ⟨0, loadTeam.key, .mzero 0 1, none, [], ⟨none, none⟩⟩

/-- The team waits for the batch of that operation. -/
def zeroWaiter : Team := { loadTeam with park := some (.batch 0), batches := [⟨0, [0]⟩] }

/-- Its core is about to register the first word, of which the second core holds a dirty copy registered. -/
def zeroCores : List Core :=
  [{ Core.reset with matQ := [lastZero], l1 := [(0, ⟨7#32, true, false, true, false, none⟩)] },
    { Core.reset with l1 := [(0, ⟨5#32, true, true, false, false, none⟩)] }]

/-- The device at that point, where the L2 of die 0 holds the bytes given. -/
def zeroing (l2 : List Host.Cell) : State :=
  { coded [] with
    l2 := l2, cores := zeroCores, registrants := [(0, 1)], teams := [zeroWaiter]
    ops := [⟨0, loadTeam.key, false, [], 0#512, false, false⟩] }

/-- The same when the unit has cleared the row, and the operation is on record as done. -/
def zeroed (l2 : List Host.Cell) : State :=
  let s := setMat (noteMet (clearAcc (zeroing l2) 0 0 1) 0 (Met.start OpViews.none)) 0 []
  let s := s.modOp 0 fun r => { r with done := true }
  { s with blocks := s.blocks.map fun b => { b with units := b.units.map fun u => match u.2 with
    | .offering t ops => (u.1, .offering t (ops.filter (· != 0)))
    | o => (u.1, o) } }

theorem matrixStep_zeroing (l2 : List Host.Cell) : matrixStep (zeroing l2) 0 = wakeWaiters (zeroed l2) := rfl

theorem zeroed_homes (l2 : List Host.Cell) : (zeroed l2).l2 = l2 ∧ (zeroed l2).l2held = [] ∧ (zeroed l2).dram = []
    ∧ (zeroed l2).poison = [] := ⟨rfl, rfl, rfl, rfl⟩

theorem zeroed_places (l2 : List Host.Cell) {a : Nat} (small : a < 2 ^ 37) : place (zeroed l2) a ≠ none := by
  refine placed_below rfl rfl rfl (fun n => ?_) small
  have stks : (zeroed l2).stks = List.replicate 8 Stack.reset := rfl
  unfold State.stk
  rw [stks, List.getElem?_replicate]
  split <;> rfl

theorem zeroed_crowded : Crowded (zeroed crowdedL2) :=
  have ⟨l2, held, dram, poison⟩ := zeroed_homes crowdedL2
  ⟨l2, held, dram, poison, fun _ small => zeroed_places crowdedL2 small⟩

theorem zeroed_dram : (matrixStep (zeroing crowdedL2) 0).dram ≠ [] := by
  rw [matrixStep_zeroing, wakeWaiters_dram (t := zeroWaiter) (n := 0) rfl rfl rfl rfl]
  exact zeroed_crowded.registerPending (c := 0) (r := 1) rfl rfl rfl (by decide) rfl rfl rfl rfl

/-- Refutes O52: its clause on an MZERO says that the memory stays. The unit's end of the last operation of a batch wakes the team
that waits for it, whose acquire registers the pending words of its core. Here another core gives up a dirty word to an L2 full of
dirty sectors, and one of those goes to the memory. -/
theorem not_cachesEpochsAndAsynchronousWork : ¬ Obligations.CachesEpochsAndAsynchronousWork := by
  rintro ⟨-, -, completes⟩
  obtain ⟨-, -, -, -, -, -, -, clears, -⟩ := completes (zeroing crowdedL2) rfl
  obtain ⟨w, done, -, kept⟩ := clears 0 lastZero 0 1 loadBlock zeroWaiter rfl rfl rfl rfl
  have same : matrixStep (zeroing crowdedL2) 0 = w := Host.Outcome.next.inj done
  rw [← same] at kept
  exact zeroed_dram kept

end Sys2Proof.Machine
end
